-- ==== Sys2Proof/Word.lean ====
section
/-! DEFINITION. The words of the BM-40 (00, R6) and the plainest arithmetic on them. -/

namespace Sys2Proof

/-- A double, the width of a general register (00, R6; 01, R12). -/
abbrev Word := BitVec 64
/-- A byte of memory (00, R6). -/
abbrev Byte := BitVec 8
/-- The 16-bit base word, the unit of instructions (02, R37). -/
abbrev Base := BitVec 16
/-- A word of 32 bits (00, R6). -/
abbrev W32 := BitVec 32
/-- A vector register (08, R195). -/
abbrev VecReg := BitVec 1024
/-- A mask register, one bit for each 4-bit lane (08, R196). -/
abbrev MaskReg := BitVec 256

end Sys2Proof
end

