-- ==== Sys2Proof/Syntax.lean ====
section
/-! DEFINITION. The instructions of the Sorzor instruction set and the steps of the part (opcode_table.json). -/

namespace Sys2Proof

/-- A general register w0 to w31 (01, R12). -/
abbrev Reg := Fin 32
/-- A vector register v0 to v31 (01, R8). -/
abbrev VReg := Fin 32
/-- A mask m0 to m7 (01, R8); as an execution mask 0 stands for none (02, R53). -/
abbrev MReg := Fin 8
/-- An accumulator acc0 to acc3 (01, R8). -/
abbrev AReg := Fin 4
/-- A conduit cd0 to cd3 (01, R8). -/
abbrev Cd := Fin 4

/-- A memory size (02, Table 2.6). -/
inductive Size where | b | h | w | d
  deriving DecidableEq, Repr

/-- A request type (02, Table 2.6). -/
inductive Request where | dflt | own | wt | si | unc
  deriving DecidableEq, Repr

/-- A scope (02, Table 2.6; 01, R25). -/
inductive Scope where | dev | core | quire | die | sys
  deriving DecidableEq, Repr

/-- An ordering (02, Table 2.6). -/
inductive Ord where | relaxed | acq | rel | ar
  deriving DecidableEq, Repr

/-- The size of an `amo` cell (02, R52): opcode 0x19 acts on a word, 0x18 on a double. -/
inductive Cell where | word | double
  deriving DecidableEq, Repr

/-- A float type code (02, Table 2.6). -/
inductive FloatTy where | f32 | bf16 | f16 | fm (k : Fin 4) | tb
  deriving DecidableEq, Repr

/-- An integer type code (02, Table 2.7). -/
inductive IntTy where | i4 | n4 | i6 | n6 | i8 | n8 | i16 | n16 | i32 | n32 | i64 | n64
  deriving DecidableEq, Repr

/-- A sewing port (02, Table 2.6). -/
inductive Port where | north | east | south | west | rowBus | colBus
  deriving DecidableEq, Repr

/-- A rounding mode that IX can name (02, R53). -/
inductive Rounding where | nearest | zero | stochastic
  deriving DecidableEq, Repr

/-- The code width of a packed block (02, Table 2.8, opcode 0x20). -/
inductive Block where | c4 | c6 | c8
  deriving DecidableEq, Repr

/-- A message class filter (02, Table 2.9, opcode 0x09). -/
inductive Filter where | any | request | reply
  deriving DecidableEq, Repr

/-- A barrier level (01, Table 0.2 of 00; 07, R189). -/
inductive Level where | quire | die | dev | sys
  deriving DecidableEq, Repr

/-- An access kind of translation (05, R125; 16, R417). -/
inductive Access where | load | store | fetch
  deriving DecidableEq, Repr

/-- An operation that travels to a kettle store (06, R148). -/
inductive KettleOp where
  | dec | add (n : W32)
  deriving DecidableEq, Repr

/-- What a remote request packet asks for at its target (15, R400, R401). A donation and a claim name the index that
the queue must still stand at, and the ring slot; a claim names the target record too (06, R165; log 8). -/
inductive RemoteOp where
  | read (n : Nat) | write (bytes : List (Byte × Byte)) | atomic (op : Nat) (wide : Nat) (v : Word) (expected : Word)
  | donate (index slot : Nat) (bytes : List Byte) | claim (index slot target : Nat)
  deriving DecidableEq, Repr

/-- A request packet of the gutter fabric at its target, with the payload bytes of its flits (15, R397 to R401). -/
structure Packet where
  source  : Nat
  pid     : Nat
  addr    : Nat
  op      : RemoteOp
  payload : List (BitVec 8)
  deriving DecidableEq, Repr

/-- What answers a remote request (15, R400, R401). -/
inductive Reply where
  | data (bytes : List Byte) | ack | nak (reason : Nat) | poison
  deriving DecidableEq, Repr

/-- The instructions and the steps of the part: one constructor for each row of the opcode table. The rows from `csrWrite` on, and `repReissue`, have no encoding: they are steps of the part
(95_what_each_step_holds.md), which the decoder never gives. Such a
step acts on the unit that the state's `turn` names. -/
inductive Instr where
  /-- `ADD` (R105). wd := wa + wb modulo 2^64. -/
  | add (d a b : Reg)
  /-- `SUB` (R105). wd := wa - wb modulo 2^64. -/
  | sub (d a b : Reg)
  /-- `MUL` (R105). wd := low 64 bits of wa x wb. -/
  | mul (d a b : Reg)
  /-- `MULH` (R105). wd := high 64 bits of the signed 128-bit product. -/
  | mulh (d a b : Reg)
  /-- `MULHN` (R105). wd := high 64 bits of the unsigned 128-bit product. -/
  | mulhn (d a b : Reg)
  /-- `DIV` (R106). Signed quotient truncated toward zero, with fixed results for zero divisor and overflow. -/
  | div (d a b : Reg)
  /-- `DIVN` (R106). Unsigned quotient, all ones for a zero divisor. -/
  | divn (d a b : Reg)
  /-- `REM` (R106). Signed remainder with the sign of wa. -/
  | rem (d a b : Reg)
  /-- `REMN` (R106). Unsigned remainder, wa for a zero divisor. -/
  | remn (d a b : Reg)
  /-- `AND` (R107). Bitwise AND of wa and wb. -/
  | and (d a b : Reg)
  /-- `OR` (R107). Bitwise OR of wa and wb. -/
  | or (d a b : Reg)
  /-- `XOR` (R107). Bitwise XOR of wa and wb. -/
  | xor (d a b : Reg)
  /-- `ANDN` (R107). wd := wa AND NOT wb. -/
  | andn (d a b : Reg)
  /-- `SHL` (R107). Shift left by wb[5:0]. -/
  | shl (d a b : Reg)
  /-- `SHR` (R107). Logical shift right by wb[5:0]. -/
  | shr (d a b : Reg)
  /-- `SRA` (R107). Arithmetic shift right by wb[5:0]. -/
  | sra (d a b : Reg)
  /-- `ROTL` (R107). Rotate left by wb[5:0]. -/
  | rotl (d a b : Reg)
  /-- `MIN` (R107). Signed minimum. -/
  | min (d a b : Reg)
  /-- `MAX` (R107). Signed maximum. -/
  | max (d a b : Reg)
  /-- `MINN` (R107). Unsigned minimum. -/
  | minn (d a b : Reg)
  /-- `MAXN` (R107). Unsigned maximum. -/
  | maxn (d a b : Reg)
  /-- `SLT` (R107). Full-width mask if wa < wb signed, else 0. -/
  | slt (d a b : Reg)
  /-- `SLTN` (R107). Full-width mask if wa < wb unsigned, else 0. -/
  | sltn (d a b : Reg)
  /-- `SEL` (R108). wd := wa if old wd is nonzero, else wb; RX required. -/
  | sel (d a b : Reg)
  /-- `SET_EQ` (R107). wd := 1 if wa = wb, else 0. -/
  | setEq (d a b : Reg)
  /-- `SET_NE` (R107). wd := 1 if wa differs from wb, else 0. -/
  | setNe (d a b : Reg)
  /-- `SET_LT` (R107). wd := 1 if wa < wb signed. -/
  | setLt (d a b : Reg)
  /-- `SET_GE` (R107). wd := 1 if wa >= wb signed. -/
  | setGe (d a b : Reg)
  /-- `SET_LTN` (R107). wd := 1 if wa < wb unsigned. -/
  | setLtn (d a b : Reg)
  /-- `SET_GEN` (R107). wd := 1 if wa >= wb unsigned. -/
  | setGen (d a b : Reg)
  /-- `MOV` (R110). wd := wa. -/
  | mov (d a : Reg)
  /-- `CLZ` (R114). Count leading zero bits of wa. -/
  | clz (d a : Reg)
  /-- `CTZ` (R114). Count trailing zero bits of wa. -/
  | ctz (d a : Reg)
  /-- `FFS` (R114). 1 + index of lowest set bit, or 0. -/
  | ffs (d a : Reg)
  /-- `POP` (R114). Population count of wa. -/
  | pop (d a : Reg)
  /-- `SEXT_B` (R115). Sign-extend from bit 7. -/
  | sextB (d a : Reg)
  /-- `SEXT_H` (R115). Sign-extend from bit 15. -/
  | sextH (d a : Reg)
  /-- `SEXT_W` (R115). Sign-extend from bit 31. -/
  | sextW (d a : Reg)
  /-- `BSWAP` (R115). Reverse the eight bytes of wa. -/
  | bswap (d a : Reg)
  /-- `ZEXT_B` (R115). Clear bits above bit 7. -/
  | zextB (d a : Reg)
  /-- `ZEXT_H` (R115). Clear bits above bit 15. -/
  | zextH (d a : Reg)
  /-- `ZEXT_W` (R115). Clear bits above bit 31. -/
  | zextW (d a : Reg)
  /-- `BEXT` (R116). Extract a zero-extended bit field of wa at a register-given position and length. -/
  | bext (d a b : Reg)
  /-- `BEXT_IMM` (R116). Extract a bit field with position and length from IX. -/
  | bextImm (d a : Reg) (k : BitVec 11)
  /-- `BINS` (R116). Insert the low bits of wa into a field of the old wd. -/
  | bins (d a b : Reg)
  /-- `BINS_IMM` (R116). Insert a bit field with position and length from IX. -/
  | binsImm (d a : Reg) (k : BitVec 11)
  /-- `ADDI` (R111). wd := wa + sign-extended immediate. -/
  | addi (d a : Reg) (k : BitVec 17)
  /-- `LI` (R111). wd := sign-extended immediate. -/
  | li (d : Reg) (k : BitVec 17)
  /-- `LIX` (R112). wd := (wd << 17) OR unsigned 17-bit immediate. -/
  | lix (d : Reg) (k : BitVec 17)
  /-- `SHLI` (R109). Shift left by an immediate amount. -/
  | shli (d a : Reg) (k : BitVec 6)
  /-- `SHRI` (R109). Logical shift right by an immediate amount. -/
  | shri (d a : Reg) (k : BitVec 6)
  /-- `SRAI` (R109). Arithmetic shift right by an immediate amount. -/
  | srai (d a : Reg) (k : BitVec 6)
  /-- `BR_EQ` (R117). Branch when wa = wb. -/
  | brEq (a b : Reg) (k : BitVec 11)
  /-- `BR_NE` (R117). Branch when wa differs from wb. -/
  | brNe (a b : Reg) (k : BitVec 11)
  /-- `BR_LT` (R117). Branch when wa < wb signed. -/
  | brLt (a b : Reg) (k : BitVec 11)
  /-- `BR_GE` (R117). Branch when wa >= wb signed. -/
  | brGe (a b : Reg) (k : BitVec 11)
  /-- `BR_LTN` (R117). Branch when wa < wb unsigned. -/
  | brLtn (a b : Reg) (k : BitVec 11)
  /-- `BR_GEN` (R117). Branch when wa >= wb unsigned. -/
  | brGen (a b : Reg) (k : BitVec 11)
  /-- `JMP` (R118). Jump by a signed half-word offset. -/
  | jmp (k : BitVec 21)
  /-- `JAL` (R118). Jump and set w14 to the next instruction's address. -/
  | jal (k : BitVec 21)
  /-- `JR` (R119). Jump to the address in wa. -/
  | jr (a : Reg)
  /-- `LD` (R121). Sign-extending load of size s from wb plus scaled offset. -/
  | ld (sz : Size) (d b : Reg) (off : BitVec 11) (req : Request)
  /-- `LDN` (R121). Zero-extending load of size s. -/
  | ldn (sz : Size) (d b : Reg) (off : BitVec 11) (req : Request)
  /-- `ST` (R121). Store the low bytes of ws into memory. -/
  | st (sz : Size) (d b : Reg) (off : BitVec 11) (req : Request)
  /-- `LDX` (R121). Sign-extending indexed load at wb + wc x s. -/
  | ldx (sz : Size) (d b c : Reg) (req : Request)
  /-- `LDXN` (R121). Zero-extending indexed load. -/
  | ldxn (sz : Size) (d b c : Reg) (req : Request)
  /-- `STX` (R121). Indexed store. -/
  | stx (sz : Size) (d b c : Reg) (req : Request)
  /-- `LEA` (R128). wd := wb + byte offset, no memory access. -/
  | lea (d b : Reg) (off : BitVec 11)
  /-- `LEA_INDEXED` (R128). wd := wb + (wc << F) + byte offset. -/
  | leaIndexed (sz : Size) (d b c : Reg) (off : BitVec 11)
  /-- `PREF` (R129). Hint to bring a line into the page's binding; never faults. -/
  | pref (b : Reg) (off : BitVec 11)
  /-- `CFLUSH` (R129). Drain stores to the line, write back and invalidate the quire copy, drop fetched copies. -/
  | cflush (b : Reg) (off : BitVec 11)
  /-- `LDPK` (R130). Load a 16-code packed block into one or two registers without decoding. -/
  | ldpk (f : Block) (d b : Reg) (off : BitVec 11) (req : Request)
  /-- `STPK` (R130). Store a 16-code packed block from one or two registers. -/
  | stpk (f : Block) (d b : Reg) (off : BitVec 11) (req : Request)
  /-- `SPAWN` (R139). Push a private folio handle onto the tail of the deque. -/
  | spawn (a : Reg)
  /-- `SYNC` (R144). Publish, decrement a kettle and end the task. -/
  | sync (k : Reg)
  /-- `RFORK` (R145). Recruit idle cores for chunks of a loop from a template folio. -/
  | rfork (d a b c : Reg)
  /-- `TFAN_DIE` (R146). Send a launch task down the tree to every core of the device. -/
  | tfanDie (a b : Reg)
  /-- `TFAN_QUIRE` (R146). Send a launch task to every core of the issuer's die. -/
  | tfanQuire (a b : Reg)
  /-- `TFAN_CORE` (R146). Send a launch task to every core of the issuer's quire. -/
  | tfanCore (a b : Reg)
  /-- `KINIT_CONT` (R147). Arm a kettle in continue mode with count, continuation and join scope. -/
  | kinitCont (k a b : Reg) (sc : Scope)
  /-- `KINIT_READY` (R147). Arm a kettle in ready mode with a HOME core. -/
  | kinitReady (k a b : Reg) (home : BitVec 7) (sc : Scope)
  /-- `KDEC` (R148). Send one decrement to a kettle without waiting. -/
  | kdec (k : Reg)
  /-- `KADD` (R148). Add an amount to a kettle's count; never fires. -/
  | kadd (k a : Reg)
  /-- `SEND` (R152). Copy a request message into the send queue; trap 0x08 with 6 or more queued. -/
  | send (a b : Reg)
  /-- `REPLY` (R153). Copy a reply message into the send queue, waiting for a free entry. -/
  | reply (a b : Reg)
  /-- `RECV` (R155). Take the oldest inbox message passing the class filter, or mark none. -/
  | recv (f : Filter) (a : Reg)
  /-- `WMSG` (R156). Wait until the inbox holds a message passing the filter. -/
  | wmsg (f : Filter)
  /-- `HSTART` (R157). Start the lowest free helper context. -/
  | hstart (d a b : Reg)
  /-- `HJOIN` (R159). Wait until the named helpers are not live and report faulted ones. -/
  | hjoin (d a : Reg)
  /-- `WL_PUSH` (R161). Enter a worklist entry into the quire's slot. -/
  | wlPush (q a b : Reg)
  /-- `WL_POP` (R162). End the task and start a popped worklist entry within the lead bound, or return a failure code. -/
  | wlPop (d q : Reg)
  /-- `WL_LOW` (R163). Return the quire's view of the low. -/
  | wlLow (d q : Reg)
  /-- `WL_DONE` (R164). Register a kettle for termination, or detach with V = 0. -/
  | wlDone (q k : Reg)
  /-- `DONATE` (R166). Append an entry to a donation queue at its home device. -/
  | donate (q a : Reg)
  /-- `CLAIM` (R167). Take a donation queue entry and push it into the target worklist. -/
  | claim (d q : Reg)
  /-- `CINC` (R168). Add to a quire routing counter. -/
  | cinc (a b : Reg)
  /-- `CSNAP` (R168). Snapshot all 64 routing counters into scratchpad. -/
  | csnap (a : Reg)
  /-- `CSNAP_CLR` (R168). Snapshot and clear all routing counters at one point. -/
  | csnapClr (a : Reg)
  /-- `AMO_ADD` (R181). Atomic add at the granule's home bank. -/
  | amoAdd (sz : Cell) (ord : Ord) (sc : Scope) (d a b : Reg)
  /-- `AMO_AND` (R181). Atomic AND. -/
  | amoAnd (sz : Cell) (ord : Ord) (sc : Scope) (d a b : Reg)
  /-- `AMO_OR` (R181). Atomic OR. -/
  | amoOr (sz : Cell) (ord : Ord) (sc : Scope) (d a b : Reg)
  /-- `AMO_XOR` (R181). Atomic XOR. -/
  | amoXor (sz : Cell) (ord : Ord) (sc : Scope) (d a b : Reg)
  /-- `AMO_MIN` (R181). Atomic signed minimum. -/
  | amoMin (sz : Cell) (ord : Ord) (sc : Scope) (d a b : Reg)
  /-- `AMO_MAX` (R181). Atomic signed maximum. -/
  | amoMax (sz : Cell) (ord : Ord) (sc : Scope) (d a b : Reg)
  /-- `AMO_MINN` (R181). Atomic unsigned minimum. -/
  | amoMinn (sz : Cell) (ord : Ord) (sc : Scope) (d a b : Reg)
  /-- `AMO_MAXN` (R181). Atomic unsigned maximum. -/
  | amoMaxn (sz : Cell) (ord : Ord) (sc : Scope) (d a b : Reg)
  /-- `AMO_SWAP` (R181). Atomic swap. -/
  | amoSwap (sz : Cell) (ord : Ord) (sc : Scope) (d a b : Reg)
  /-- `AMO_CAS` (R181). Atomic compare-and-swap against the old wd. -/
  | amoCas (sz : Cell) (ord : Ord) (sc : Scope) (d a b : Reg)
  /-- `AMO_FADD` (R182). Atomic FP32 add with nearest-even rounding. -/
  | amoFadd (ord : Ord) (sc : Scope) (d a b : Reg)
  /-- `AMO_XADD` (R102). Order-independent FP32 add into a Q63.64 cell. -/
  | amoXadd (ord : Ord) (sc : Scope) (d a b : Reg)
  /-- `LR_D` (R185). Load-reserved of a double, taking the granule's reservation. -/
  | lrD (ord : Ord) (sc : Scope) (d a : Reg)
  /-- `LR_W` (R185). Load-reserved of a word. -/
  | lrW (ord : Ord) (sc : Scope) (d a : Reg)
  /-- `SC_D` (R186). Store-conditional of a double, with status in wd. -/
  | scD (ord : Ord) (sc : Scope) (d a b : Reg)
  /-- `SC_W` (R186). Store-conditional of a word. -/
  | scW (ord : Ord) (sc : Scope) (d a b : Reg)
  /-- `FENCE` (R173). Release and acquire actions of the scope, holding later loads. -/
  | fence (status : Option Reg) (sc : Scope)
  /-- `FENCE_ACQ` (R173). Acquire action of the scope. -/
  | fenceAcq (status : Option Reg) (sc : Scope)
  /-- `FENCE_REL` (R173). Release action of the scope, with the peer handshake at .sys. -/
  | fenceRel (status : Option Reg) (sc : Scope)
  /-- `WAITADDR` (R188). Wait until the double at wa reads wb at its home. -/
  | waitaddr (a b : Reg)
  /-- `VADD` (R198). Integer lane add. -/
  | vadd (t : IntTy) (d a b : VReg) (m : MReg)
  /-- `VSUB` (R198). Integer lane subtract. -/
  | vsub (t : IntTy) (d a b : VReg) (m : MReg)
  /-- `VMUL` (R198). Low bits of integer lane product. -/
  | vmul (t : IntTy) (d a b : VReg) (m : MReg)
  /-- `VMULH` (R198). High bits of integer lane product. -/
  | vmulh (t : IntTy) (d a b : VReg) (m : MReg)
  /-- `VADDS` (R198). Saturating lane add. -/
  | vadds (t : IntTy) (d a b : VReg) (m : MReg)
  /-- `VSUBS` (R198). Saturating lane subtract. -/
  | vsubs (t : IntTy) (d a b : VReg) (m : MReg)
  /-- `VABS` (R198). Saturating lane absolute value. -/
  | vabs (t : IntTy) (d b : VReg) (m : MReg)
  /-- `VNEG` (R198). Saturating lane negation. -/
  | vneg (t : IntTy) (d b : VReg) (m : MReg)
  /-- `VMIN` (R198). Lane minimum. -/
  | vmin (t : IntTy) (d a b : VReg) (m : MReg)
  /-- `VMAX` (R198). Lane maximum. -/
  | vmax (t : IntTy) (d a b : VReg) (m : MReg)
  /-- `VMAC` (R198). Lane multiply-accumulate into vd. -/
  | vmac (t : IntTy) (d a b : VReg) (m : MReg)
  /-- `VMACS` (R198). Saturating lane multiply-accumulate. -/
  | vmacs (t : IntTy) (d a b : VReg) (m : MReg)
  /-- `VSHL` (R198). Lane shift left. -/
  | vshl (t : IntTy) (d a b : VReg) (m : MReg)
  /-- `VSHR` (R198). Lane logical shift right. -/
  | vshr (t : IntTy) (d a b : VReg) (m : MReg)
  /-- `VSRA` (R198). Lane arithmetic shift right. -/
  | vsra (t : IntTy) (d a b : VReg) (m : MReg)
  /-- `VROTL` (R198). Lane rotate left. -/
  | vrotl (t : IntTy) (d a b : VReg) (m : MReg)
  /-- `VAND` (R198). Lane bitwise AND. -/
  | vand (t : IntTy) (d a b : VReg) (m : MReg)
  /-- `VOR` (R198). Lane bitwise OR. -/
  | vor (t : IntTy) (d a b : VReg) (m : MReg)
  /-- `VXOR` (R198). Lane bitwise XOR. -/
  | vxor (t : IntTy) (d a b : VReg) (m : MReg)
  /-- `VANDN` (R198). Lane va AND NOT vb. -/
  | vandn (t : IntTy) (d a b : VReg) (m : MReg)
  /-- `VNOT` (R198). Lane NOT. -/
  | vnot (t : IntTy) (d b : VReg) (m : MReg)
  /-- `VMOV` (R198). Lane move. -/
  | vmov (t : IntTy) (d b : VReg) (m : MReg)
  /-- `VBCAST` (R199). Broadcast wa into every active lane. -/
  | vbcast (t : IntTy) (d : VReg) (a : Reg) (m : MReg)
  /-- `VSEL` (R199). Select va or vb per lane by a mask. -/
  | vsel (t : IntTy) (d a b : VReg) (z m : MReg)
  /-- `VCLZ` (R198). Lane leading-zero count. -/
  | vclz (t : IntTy) (d b : VReg) (m : MReg)
  /-- `VCTZ` (R198). Lane trailing-zero count. -/
  | vctz (t : IntTy) (d b : VReg) (m : MReg)
  /-- `VFFS` (R198). Lane find-first-set. -/
  | vffs (t : IntTy) (d b : VReg) (m : MReg)
  /-- `VPOP` (R198). Lane population count. -/
  | vpop (t : IntTy) (d b : VReg) (m : MReg)
  /-- `VCMP_EQ` (R201). Lane equality into mask bits. -/
  | vcmpEq (t : IntTy) (d : MReg) (a b : VReg) (m : MReg)
  /-- `VCMP_NE` (R201). Lane inequality into mask bits. -/
  | vcmpNe (t : IntTy) (d : MReg) (a b : VReg) (m : MReg)
  /-- `VCMP_LT` (R201). Lane less-than into mask bits. -/
  | vcmpLt (t : IntTy) (d : MReg) (a b : VReg) (m : MReg)
  /-- `VCMP_GE` (R201). Lane greater-or-equal into mask bits. -/
  | vcmpGe (t : IntTy) (d : MReg) (a b : VReg) (m : MReg)
  /-- `VEXT` (R199). Extract lane k into wd. -/
  | vext (t : IntTy) (d : Reg) (b : VReg) (k : BitVec 11)
  /-- `VINS` (R199). Insert wa into lane k. -/
  | vins (t : IntTy) (d : VReg) (a : Reg) (k : BitVec 11)
  /-- `VPERM` (R199). Permute lanes by an index vector. -/
  | vperm (t : IntTy) (d a x : VReg) (m : MReg)
  /-- `VSLIDE` (R199). Slide lanes across va and vb by a signed count. -/
  | vslide (t : IntTy) (d a b : VReg) (k : BitVec 11) (m : MReg)
  /-- `VREDSUM` (R200). Integer sum reduction into wd. -/
  | vredsum (t : IntTy) (d : Reg) (b : VReg) (m : MReg)
  /-- `VREDMIN` (R200). Integer minimum reduction. -/
  | vredmin (t : IntTy) (d : Reg) (b : VReg) (m : MReg)
  /-- `VREDMAX` (R200). Integer maximum reduction. -/
  | vredmax (t : IntTy) (d : Reg) (b : VReg) (m : MReg)
  /-- `VSCAN` (R200). Inclusive integer prefix sum. -/
  | vscan (t : IntTy) (d b : VReg) (m : MReg)
  /-- `VLD` (R214). Contiguous vector load of active lanes. -/
  | vld (t : IntTy) (v : VReg) (a : Reg) (off : BitVec 11) (m : MReg)
  /-- `VST` (R214). Contiguous vector store of active lanes. -/
  | vst (t : IntTy) (v : VReg) (a : Reg) (off : BitVec 11) (m : MReg)
  /-- `VLDX` (R216). Gather load by an index vector. -/
  | vldx (t : IntTy) (v : VReg) (a : Reg) (x : VReg) (m : MReg)
  /-- `VSTX` (R216). Scatter store by an index vector. -/
  | vstx (t : IntTy) (v : VReg) (a : Reg) (x : VReg) (m : MReg)
  /-- `MAND` (R202). Mask AND over 256 bits. -/
  | mand (d a b : MReg)
  /-- `MOR` (R202). Mask OR. -/
  | mor (d a b : MReg)
  /-- `MXOR` (R202). Mask XOR. -/
  | mxor (d a b : MReg)
  /-- `MANDN` (R202). Mask AND NOT. -/
  | mandn (d a b : MReg)
  /-- `MNOT` (R202). Mask NOT. -/
  | mnot (d b : MReg)
  /-- `MMOV` (R202). Mask move. -/
  | mmov (d b : MReg)
  /-- `MPOP` (R202). Count lanes of a type whose governing bit is set. -/
  | mpop (t : IntTy) (d : Reg) (b : MReg)
  /-- `MFFS` (R202). 1 + lowest lane of a type with its governing bit set. -/
  | mffs (t : IntTy) (d : Reg) (b : MReg)
  /-- `VFADD` (R206). Float lane add, rounded once. -/
  | vfadd (t : FloatTy) (d a b : VReg) (m : MReg) (rm : Option Rounding)
  /-- `VFSUB` (R206). Float lane subtract. -/
  | vfsub (t : FloatTy) (d a b : VReg) (m : MReg) (rm : Option Rounding)
  /-- `VFMUL` (R206). Float lane multiply. -/
  | vfmul (t : FloatTy) (d a b : VReg) (m : MReg) (rm : Option Rounding)
  /-- `VFDIV` (R206). Float lane divide. -/
  | vfdiv (t : FloatTy) (d a b : VReg) (m : MReg) (rm : Option Rounding)
  /-- `VFMA` (R206). Fused va x vb + vc. -/
  | vfma (t : FloatTy) (d a b c : VReg) (m : MReg) (rm : Option Rounding)
  /-- `VFMS` (R206). Fused va x vb - vc. -/
  | vfms (t : FloatTy) (d a b c : VReg) (m : MReg) (rm : Option Rounding)
  /-- `VFNMA` (R206). Fused -(va x vb) - vc. -/
  | vfnma (t : FloatTy) (d a b c : VReg) (m : MReg) (rm : Option Rounding)
  /-- `VFNMS` (R206). Fused -(va x vb) + vc. -/
  | vfnms (t : FloatTy) (d a b c : VReg) (m : MReg) (rm : Option Rounding)
  /-- `VFMIN` (R206). Float lane minimum without rounding. -/
  | vfmin (t : FloatTy) (d a b : VReg) (m : MReg)
  /-- `VFMAX` (R206). Float lane maximum without rounding. -/
  | vfmax (t : FloatTy) (d a b : VReg) (m : MReg)
  /-- `VFABS` (R206). Float lane absolute value. -/
  | vfabs (t : FloatTy) (d b : VReg) (m : MReg)
  /-- `VFNEG` (R206). Float lane negation. -/
  | vfneg (t : FloatTy) (d b : VReg) (m : MReg)
  /-- `VFSQRT` (R206). Float lane square root. -/
  | vfsqrt (t : FloatTy) (d b : VReg) (m : MReg) (rm : Option Rounding)
  /-- `VFRCP` (R206). Float lane reciprocal. -/
  | vfrcp (t : FloatTy) (d b : VReg) (m : MReg) (rm : Option Rounding)
  /-- `VFCMP_EQ` (R207). Float equality into mask bits. -/
  | vfcmpEq (t : FloatTy) (d : MReg) (a b : VReg) (m : MReg)
  /-- `VFCMP_LT` (R207). Float less-than into mask bits. -/
  | vfcmpLt (t : FloatTy) (d : MReg) (a b : VReg) (m : MReg)
  /-- `VFCMP_LE` (R207). Float less-or-equal into mask bits. -/
  | vfcmpLe (t : FloatTy) (d : MReg) (a b : VReg) (m : MReg)
  /-- `VFCMP_UN` (R207). Unordered test into mask bits. -/
  | vfcmpUn (t : FloatTy) (d : MReg) (a b : VReg) (m : MReg)
  /-- `VFREDSUM` (R208). Float sum by a fixed pairwise tree into wd. -/
  | vfredsum (t : FloatTy) (d : Reg) (b : VReg) (m : MReg) (rm : Option Rounding)
  /-- `VFREDMIN` (R208). Float minimum reduction. -/
  | vfredmin (t : FloatTy) (d : Reg) (b : VReg) (m : MReg) (rm : Option Rounding)
  /-- `VFREDMAX` (R208). Float maximum reduction. -/
  | vfredmax (t : FloatTy) (d : Reg) (b : VReg) (m : MReg) (rm : Option Rounding)
  /-- `VFSCAN` (R209). Float running sum in lane order. -/
  | vfscan (t : FloatTy) (d b : VReg) (m : MReg) (rm : Option Rounding)
  /-- `VCVT_FF` (R210). Convert float type to float type. -/
  | vcvtFf (t src : FloatTy) (d b : VReg) (m : MReg) (rm : Option Rounding)
  /-- `VCVT_FI` (R210). Convert float to saturated integer. -/
  | vcvtFi (t : IntTy) (src : FloatTy) (d b : VReg) (m : MReg) (rm : Option Rounding)
  /-- `VCVT_IF` (R210). Convert integer to float. -/
  | vcvtIf (t : FloatTy) (src : IntTy) (d b : VReg) (m : MReg) (rm : Option Rounding)
  /-- `VPACK` (R211). Encode 64 FP32 values into packed narrow codes. -/
  | vpack (t : FloatTy) (d a b : VReg) (rm : Option Rounding)
  /-- `VUNPACK` (R212). Decode packed codes to FP32 lanes. -/
  | vunpack (t : FloatTy) (d a b : VReg) (rm : Option Rounding)
  /-- `VRNG` (R213). Philox4x32-10 outputs per 128-bit lane, advancing counters. -/
  | vrng (d b : VReg) (m : MReg)
  /-- `MCFG` (R223). Load the matrix configuration after earlier matrix work completes. -/
  | mcfg (a : Reg)
  /-- `MZERO` (R233). Write +0 to an accumulator. -/
  | mzero (c : AReg)
  /-- `MMAC` (R228). Dense block-floating-point multiply-accumulate into an accumulator. -/
  | mmac (c : AReg) (a b : Reg)
  /-- `MSMAC` (R228). Sparse N-of-64 multiply-accumulate. -/
  | msmac (c : AReg) (a b : Reg)
  /-- `MRECT` (R243). Spread one product over a rectangle of the sewing grid. -/
  | mrect (c : AReg) (a : Reg)
  /-- `MROW_RD` (R233). Read an accumulator row into a vector. -/
  | mrowRd (v : VReg) (a : Reg) (c : AReg)
  /-- `MROW_WR` (R233). Write a vector into an accumulator row. -/
  | mrowWr (v : VReg) (a : Reg) (c : AReg)
  /-- `MSCALE` (R234). Scale every accumulator element by an FP32 factor. -/
  | mscale (c : AReg) (a : Reg)
  /-- `MSTAT` (R235). Read and clear the matrix status counts. -/
  | mstat (d : Reg)
  /-- `CP` (R248). Send a copy command to the quire's copy engine. -/
  | cp (a : Reg)
  /-- `CPM` (R254). Send a multicast copy command. -/
  | cpm (a : Reg)
  /-- `CPC` (R249). Send a requantising copy command. -/
  | cpc (a : Reg)
  /-- `CPW` (R248). Send a strided copy command. -/
  | cpw (a : Reg)
  /-- `CDCFG_CONFIGURE` (R246). Load a conduit descriptor and reset its counts. -/
  | cdcfgConfigure (c : Cd) (a : Reg)
  /-- `CDCFG_WAIT_FULL` (R246). Wait until a conduit entry is full. -/
  | cdcfgWaitFull (c : Cd) (a : Reg)
  /-- `CDCFG_POP` (R246). Free the head entry as an acquire. -/
  | cdcfgPop (c : Cd) (a : Reg)
  /-- `CDCFG_WAIT_FREE` (R246). Wait until a conduit entry is free. -/
  | cdcfgWaitFree (c : Cd) (a : Reg)
  /-- `CDCFG_PUSH` (R246). Mark the tail entry full as a release. -/
  | cdcfgPush (c : Cd) (a : Reg)
  /-- `CDCFG_RESET` (R246). Reset a conduit's counts after waiting for users. -/
  | cdcfgReset (c : Cd) (a : Reg)
  /-- `REP` (R257). Record the next n instructions and reissue them, scalar slot running ahead. -/
  | rep (a : Reg) (n : BitVec 6)
  /-- `REPX` (R257). Record and reissue a body, issuing nothing else until done. -/
  | repx (a : Reg) (n : BitVec 6)
  /-- `PH_BEGIN` (R238). Open a communication phase directly after a quire barrier. -/
  | phBegin (a : Reg)
  /-- `TX` (R241). Drive wa onto a sewing port. -/
  | tx (a : Reg) (p : Port)
  /-- `MUX` (R241). Set or remove a forwarding route. -/
  | mux (o i : Port)
  /-- `RXW` (R241). Read a port's receive register. -/
  | rxw (d : Reg) (p : Port)
  /-- `GLOAD` (R267). Load and check a grammar image, or clear the configuration. -/
  | gload (a : Reg)
  /-- `GSTEP` (R268). Apply a token to the grammar configuration. -/
  | gstep (d a : Reg)
  /-- `GMASK` (R269). Write a legality bitmap for a range of tokens. -/
  | gmask (a b : Reg)
  /-- `GSTATE` (R270). Read the grammar configuration summary. -/
  | gstate (d : Reg)
  /-- `SAMP_F32` (R275). Draw a token from FP32 logits under a mask. -/
  | sampF32 (d a : Reg)
  /-- `SAMP_BF16` (R275). Draw a token from BF16 logits under a mask. -/
  | sampBf16 (d a : Reg)
  /-- `TRAP` (R279). Raise trap 0x14 with tval := code. -/
  | trap (k : BitVec 17)
  /-- `CSRR` (R281). Read a system register. -/
  | csrr (d : Reg) (n : BitVec 6)
  /-- `CSRW` (R281). Write a system register. -/
  | csrw (a : Reg) (n : BitVec 6)
  /-- `CSRS` (R281). Set bits of a system register. -/
  | csrs (a : Reg) (n : BitVec 6)
  /-- `CSRC` (R281). Clear bits of a system register. -/
  | csrc (a : Reg) (n : BitVec 6)
  /-- `TLBINV_VA` (R284). Invalidate every TLB entry mapping one page. -/
  | tlbinvVa (a : Reg)
  /-- `BDEF` (R287). Define a binding from a record, taking pooled shares. -/
  | bdef (a b : Reg)
  /-- `BSHARE` (R286). Offer or withdraw bank shares to a quire pool. -/
  | bshare (a b : Reg)
  /-- `BRESIZE` (R288). Resize or drain a binding, starting walkers. -/
  | bresize (a b : Reg)
  /-- `BQUERY` (R289). Read a binding's state, shares, pool and progress. -/
  | bquery (d a : Reg)
  /-- `NOP` (R113). Changes no state; with an SC prefix it is a pure delay. -/
  | nop
  /-- `RET` (R119). Jump to w14. -/
  | ret
  /-- `TEND` (R142). End the running task, decrementing its folio's kettle. -/
  | tend
  /-- `YIELD` (R143). End the task and push its own folio on the head of the deque, published. -/
  | yield
  /-- `PUBF` (R140). Publish every private deque entry as a release. -/
  | pubf
  /-- `HEND` (R158). End the executing helper cleanly. -/
  | hend
  /-- `WRS` (R187). Release the reservation and sleep on a watch of the granule. -/
  | wrs
  /-- `BAR_QUIRE` (R189). Release, arrive at the quire barrier, wait, acquire. -/
  | barQuire
  /-- `BAR_DIE` (R189). Barrier of the die domain. -/
  | barDie
  /-- `BAR_DEV` (R189). Barrier of the device domain. -/
  | barDev
  /-- `BAR_SYS` (R192). Barrier of the system domain across the gutter fabric. -/
  | barSys
  /-- `CPFENCE` (R256). Wait for earlier copy commands to complete, then acquire .quire. -/
  | cpfence
  /-- `REP_REISSUE` (R257). The sequencer reissues one iteration of the recorded body. -/
  | repReissue
  /-- `PH_END` (R239). Close the communication phase. -/
  | phEnd
  /-- `RTI` (R15). Return from a trap to PMODE at epc. -/
  | rti
  /-- `UPRET` (R15). Return from an upcall to user mode at upepc. -/
  | upret
  /-- `IDLE` (R282). Wait for a message, ready folio, pre-emption or wake. -/
  | idle
  /-- `HALT` (R283). Drain, publish and stop the core. -/
  | halt
  /-- `TLBINV_ALL` (R284). Invalidate the core's TLBs and the quire's second-level TLB and node cache. -/
  | tlbinvAll
  /-- `CSR_WRITE` (R18). A write to a system register with no behaviour of its own, judged by the value rule. -/
  | csrWrite
  /-- `WINCFG_WRITE` (R19). Set one half of the selected window's configuration for later accesses. -/
  | wincfgWrite
  /-- `DECODE_TABLE_LOAD` (R88). A win5 wincfg write with TLOAD copies 1,024 bytes into the decode table. -/
  | decodeTableLoad
  /-- `DMEM_WRITE` (R23). A member-bit change takes effect once no barrier of the level is open. -/
  | dmemWrite
  /-- `DQLOCAL_WRITE` (R35). Enable, move or disable the deque spill region, moving handles. -/
  | dqlocalWrite
  /-- `BINDSEL_RECORD_STORE` (R321). A bindsel write with RD stores the live binding record. -/
  | bindselRecordStore
  /-- `STORE_BUFFER_DRAIN` (R11). A store leaves the core's store buffer and is performed. -/
  | storeBufferDrain
  /-- `IMPRECISE_ERROR_EVENT` (R428). Boundary event delivering an imprecise uncorrectable-error trap. -/
  | impreciseErrorEvent
  /-- `REP_SEQUENCE_FAULT` (R259). Boundary trap for a fault in a repetition reissue. -/
  | repSequenceFault
  /-- `PHASE_LENGTH_EXPIRY` (R239). Phase cycle wa is reached with PH = 1 and the part closes the phase. -/
  | phaseLengthExpiry
  /-- `PHASE_OVERRUN` (R239). Boundary trap 0x07 after a phase overran. -/
  | phaseOverrun
  /-- `BAD_DEQUE_HANDLE` (R344). Boundary trap 0x0A for a dropped malformed deque handle. -/
  | badDequeHandle
  /-- `INBOX_OVERFLOW` (R154). Boundary trap 0x09 while the inbox overflow slot is full. -/
  | inboxOverflow
  /-- `BREAKPOINT` (R429). Boundary trap 0x13 after an instruction at a comparator address. -/
  | breakpoint
  /-- `BREAKPOINT_SET` (R429). The management core sets an instruction-address comparator. -/
  | breakpointSet
  /-- `PREEMPTION_REQUEST` (R430). A pre-emption request from the management core reaches a core. -/
  | preemptionRequest
  /-- `PREEMPTION_HOLD_TIMEOUT` (R24). A request held for 1 ms without meeting a level barrier is released. -/
  | preemptionHoldTimeout
  /-- `PREEMPTION_SAVE` (R430). Save the control context to the save area at a boundary. -/
  | preemptionSave
  /-- `PREEMPTION_RESTORE` (R431). Restore a saved context on a core between tasks. -/
  | preemptionRestore
  /-- `RESERVATION_REQUEST` (R177). An amo, lr or sc request joins the granule queue at its home bank. -/
  | reservationRequest
  /-- `RESERVATION_GRANT` (R177). The free granule is granted to the head request after recalls. -/
  | reservationGrant
  /-- `RESERVATION_REVOKE` (R178). A reservation held 256 cycles is revoked. -/
  | reservationRevoke
  /-- `RESERVATION_WRITE_BACK` (R181). The holder writes back and releases the reservation. -/
  | reservationWriteBack
  /-- `WRS_WAKE` (R187). A sleeping wrs wakes on a write, message, continuation or pre-emption. -/
  | wrsWake
  /-- `WAITADDR_READ` (R188). A waitaddr rereads its double after a write at the home. -/
  | waitaddrRead
  /-- `BARRIER_RELEASE` (R189). The last arrival releases every waiting member of the episode. -/
  | barrierRelease
  /-- `BARRIER_MEMBER_LOST` (R192). A lost member device is removed and bar.sys waiters trap 0x0D. -/
  | barrierMemberLost
  /-- `KETTLE_OPERATION` (R349). A kettle operation takes effect at the kettle store. -/
  | kettleOperation
  /-- `MESSAGE_DEPART` (R153). A send-queue entry is accepted by its network. -/
  | messageDepart
  /-- `MESSAGE_ARRIVAL` (R154). A message is written into the inbox, decrements its kettle and becomes visible. -/
  | messageArrival
  /-- `NEXT_WORK_SELECT` (R339). A core without a task takes work from the first source that offers any. -/
  | nextWorkSelect
  /-- `STEAL_PROBE` (R346). A thief probes victims in stage order and copies a stolen folio. -/
  | stealProbe
  /-- `CORE_WAKE` (R340). A sleeping core wakes and runs the scheduling order. -/
  | coreWake
  /-- `LAUNCH` (R336). A host launch frame is checked, answered and placed on the root's ready list. -/
  | launch
  /-- `LAUNCH_TREE_DELIVERY` (R146). A launch tree message places a launch folio on a target core. -/
  | launchTreeDelivery
  /-- `RECRUIT_START` (R350). An rfork recruit receives its folio and starts. -/
  | recruitStart
  /-- `LOW_LOWERING_BROADCAST` (R361). A lowering of the low reaches every quire agent. -/
  | lowLoweringBroadcast
  /-- `WORKLIST_EPOCH` (R361). Every 256 cycles a tree commits rises of V and the balancer runs. -/
  | worklistEpoch
  /-- `WORKLIST_SWEEP` (R364). A periodic sweep gathers counts, writes STATUS and detects termination. -/
  | worklistSweep
  /-- `PARTNER_READ_TIMEOUT` (R365). An unanswered partner read sets STATE to partner lost. -/
  | partnerReadTimeout
  /-- `GOVERNOR_WINDOW` (R378). A 256-cycle window boundary sets each core's plane-issue allowance. -/
  | governorWindow
  /-- `GOVCTL_WRITE` (R377). The management core writes the quire's governor register. -/
  | govctlWrite
  /-- `MATRIX_OPERATION_START` (R374). A queued matrix operation starts after the previous one. -/
  | matrixOperationStart
  /-- `MATRIX_OPERATION_COMPLETE` (R228). A matrix operation completes its last accumulator write. -/
  | matrixOperationComplete
  /-- `MRECT_CHECK_EXCHANGE` (R244). Rectangle participants exchange checks and decide to proceed or trap. -/
  | mrectCheckExchange
  /-- `COPY_COMMAND_ACCEPT` (R366). The copy engine accepts a command and registers owned ranges. -/
  | copyCommandAccept
  /-- `COMBINE_HOLD_EXPIRY` (R366). The 64-cycle combining hold ends and the merged group proceeds. -/
  | combineHoldExpiry
  /-- `COPY_LINE_MOVE` (R250). The engine moves one line, checking it and stopping at a failure point. -/
  | copyLineMove
  /-- `COPY_COMPLETION_WRITE` (R252). The engine writes CVAL or the error value to CADDR. -/
  | copyCompletionWrite
  /-- `GRAMMAR_UNIT_SERVE` (R383). The grammar unit serves one gstep or one gmask batch of a core. -/
  | grammarUnitServe
  /-- `TRANSLATION_WALK` (R418). A walk reads page-table entries and ends in a translation or upcall. -/
  | translationWalk
  /-- `REMOTE_INVALIDATION` (R422). The management core invalidates TLBs on a set of quires. -/
  | remoteInvalidation
  /-- `QASR_WRITE` (R414). The management core writes a quire's address space once it is quiet. -/
  | qasrWrite
  /-- `RESIZE_SET_MOVE` (R329). A walker moves one set of the old instance to the new mapping. -/
  | resizeSetMove
  /-- `RESIZE_WALK_END` (R331). All walkers finish; leaving shares return zero-filled and the state changes. -/
  | resizeWalkEnd
  /-- `HOME_PLAIN_FILL` (R323). A home slice answers a plain fill for a quire. -/
  | homePlainFill
  /-- `HOME_OWN_FILL` (R323). A home slice answers an ownership fill, recalling other copies. -/
  | homeOwnFill
  /-- `HOME_WRITE_BACK` (R323). A home slice merges written-back doubles. -/
  | homeWriteBack
  /-- `HOME_WT_STORE` (R323). A home slice performs a .wt or .si store. -/
  | homeWtStore
  /-- `HOME_SI_FILL` (R323). A home slice returns a line with a lease. -/
  | homeSiFill
  /-- `HOME_UNC_ACCESS` (R323). A home slice performs an uncached access. -/
  | homeUncAccess
  /-- `PROBE_ARRIVAL` (R389). A recall or invalidation reaches a requester and is applied or held. -/
  | probeArrival
  /-- `DATA_REPLY_ARRIVAL` (R389). A data reply installs, completes its access and applies a held probe. -/
  | dataReplyArrival
  /-- `DIE_DRAIN` (R391). A die stops injecting, empties its networks and changes routes. -/
  | dieDrain
  /-- `LINK_FLIT_REPLAY` (R393). A flit with a bad CRC is replayed from the sender's buffer. -/
  | linkFlitReplay
  /-- `BOUNDARY_RETRAIN` (R393). After 8 failed replays a boundary retrains. -/
  | boundaryRetrain
  /-- `BOUNDARY_DOWN` (R393). After three failed retrainings the boundary is marked down. -/
  | boundaryDown
  /-- `REMOTE_PACKET_ARRIVAL` (R401). A remote request packet is CRC-checked, range-checked and performed. -/
  | remotePacketArrival
  /-- `REMOTE_REPLY_ARRIVAL` (R400). A reply, acknowledgement or NAK completes a remote request. -/
  | remoteReplyArrival
  /-- `REFUSAL` (R399). A refused packet is sent again with TRY incremented. -/
  | refusal
  /-- `REFUSAL_RESERVATION_TIMEOUT` (R399). A buffer held for a refused packet is freed after a fabric timeout. -/
  | refusalReservationTimeout
  /-- `FABRIC_TIMEOUT` (R402). A remote request unanswered within the timeout ends with trap 0x0D. -/
  | fabricTimeout
  /-- `FENCE_TOKEN` (R404). A fence token arrives and is answered. -/
  | fenceToken
  /-- `FENCE_HANDSHAKE_TIMEOUT` (R174). The .sys handshake ends by timeout and the peer table empties. -/
  | fenceHandshakeTimeout
  /-- `NEIGHBOUR_SILENCE` (R403). A silent neighbour for a fabric timeout triggers a loss notice. -/
  | neighbourSilence
  /-- `LOSS_NOTICE` (R403). A loss notice enters a device into the lost set. -/
  | lossNotice
  /-- `LOST_SET_CLEAR` (R403). The management core readmits a device. -/
  | lostSetClear
  /-- `KEEPALIVE` (R397). An idle lane sends a keepalive every 1 us. -/
  | keepalive
  /-- `BARRIER_SYS_PACKET` (R405). A bar.sys arrival or release packet moves along the spanning tree. -/
  | barrierSysPacket
  /-- `FABCTL_WRITE` (R402). The management core writes the fabric timeout or enable. -/
  | fabctlWrite
  /-- `PRCTL_WRITE` (R406). The management core writes the permitted-range control. -/
  | prctlWrite
  /-- `HOST_NOTICE` (R410). A notice frame is delivered as a request message to a core. -/
  | hostNotice
  /-- `HOST_READ` (R409). A host read is performed at the home in binding 0. -/
  | hostRead
  /-- `HOST_WRITE` (R409). A host write is performed at the home in binding 0. -/
  | hostWrite
  /-- `HOST_FENCE` (R408). Answered once every earlier host write is performed. -/
  | hostFence
  /-- `LSTAT_READ` (R412). The host reads LSTAT over the link or SMBus. -/
  | lstatRead
  /-- `OHMOV_RETRAIN` (R432). The Ohmov link retrains after unrecoverable frame errors. -/
  | ohmovRetrain
  /-- `BLOB_WRITE` (R439). The host writes a new configuration blob to flash over SMBus. -/
  | blobWrite
  /-- `ATTESTATION_REQUEST` (R449). Return a signed attestation report for a nonce. -/
  | attestationRequest
  /-- `POWER_GOOD` (R441). Bring-up steps run from power-good to chrysalis service. -/
  | powerGood
  /-- `DIES_READY` (R441). Step 7 trains the other dies and stacks. -/
  | diesReady
  /-- `IMAGO_ENTRY` (R444). The part enters full service, resizes binding 0 and opens the fabric. -/
  | imagoEntry
  /-- `THERMAL_SAMPLE` (R447). Every 1 ms the thermal step and budget ceilings are updated. -/
  | thermalSample
  /-- `HBM_PATROL` (R434). Background patrol reads HBM once every 16 hours. -/
  | hbmPatrol
  /-- `QUIRE_RESET` (R437). Zero-fill and remap a quiet quire around failed positions. -/
  | quireReset
  /-- `CORE_RESET` (R446). Restart a stopped core with reset registers and empty queues. -/
  | coreReset
  /-- `ILLEGAL_ENCODING` (R55). The control context issues a word chain that is not an instruction and raises trap 0x01. -/
  | illegalEncoding
  /-- `RECEIVE_REGISTER_LATCH` (R241). A sewing port's receive register latches a value that a tx or forwarding route drove one or three cycles earlier. -/
  | receiveRegisterLatch
  /-- `WAITADDR_REMOTE_POLL` (R188). A waitaddr on a remote page makes its periodic .unc load every 4,096 cycles. -/
  | waitaddrRemotePoll
  /-- `PLANE_ROUTER_CYCLE` (R398). In each fabric cycle a plane router assigns its incoming flits and one injection to ports or ejection, deflecting and ageing the rest. -/
  | planeRouterCycle
  /-- `PERMITTED_RANGE_TABLE_WRITE` (R407). The management core writes the class map or a permitted-range entry in HBM, which takes effect for requests arriving after it is performed. -/
  | permittedRangeTableWrite
  deriving DecidableEq, Repr

end Sys2Proof
end

