-- ==== Sys2Proof/Machine/Flags.lean ====
section
/-! DEFINITION. The sticky flags of `aflags` and how results set them (01, Table 1.5; 04, R87). -/

namespace Sys2Proof.Machine

/-- The bits of `aflags` (01, Table 1.5). -/
abbrev Flags := BitVec 5
def flagNV : Flags := 1
def flagOF : Flags := 2
def flagUF : Flags := 4
def flagNX : Flags := 8
def flagNLT : Flags := 16

/-- The flags of a run of results: each instruction sets the union (08, R205). -/
def unionFlags (fs : List Flags) : Flags := fs.foldl (· ||| ·) 0

end Sys2Proof.Machine
end

