-- ==== Sys2Proof/WellFormed.lean ====
section
/-! DEFINITION. Which instructions the encoding admits, beyond what the operand types already say. -/

namespace Sys2Proof

/-- The width of a lane of the type in bits (08, Table 8.1). -/
def IntTy.lane : IntTy → Nat
  | .i4 | .n4 => 4 | .i6 | .n6 | .i8 | .n8 => 8 | .i16 | .n16 => 16 | .i32 | .n32 => 32 | .i64 | .n64 => 64

/-- The value bits of a lane (08, Table 8.1). -/
def IntTy.bits : IntTy → Nat
  | .i4 | .n4 => 4 | .i6 | .n6 => 6 | .i8 | .n8 => 8 | .i16 | .n16 => 16 | .i32 | .n32 => 32 | .i64 | .n64 => 64

/-- The number of lanes of a vector register (08, Table 8.1). -/
def IntTy.lanes (t : IntTy) : Nat := 1024 / t.lane

/-- The `.i` types are read as two's complement (08, R198). -/
def IntTy.signed : IntTy → Bool
  | .i4 | .i6 | .i8 | .i16 | .i32 | .i64 => true
  | .n4 | .n6 | .n8 | .n16 | .n32 | .n64 => false

/-- A packed block of 6-bit or 8-bit codes fills an even register and the next one (02, Table 2.8). -/
def Block.regOk (f : Block) (d : Reg) : Bool :=
  match f with
  | .c4 => true
  | .c6 | .c8 => d.val % 2 == 0

/-- The rows of the opcode table that have an encoding. -/
def Instr.encodable : Instr → Bool
  | .repReissue | .csrWrite | .wincfgWrite | .decodeTableLoad | .dmemWrite | .dqlocalWrite
  | .bindselRecordStore | .storeBufferDrain | .impreciseErrorEvent | .repSequenceFault | .phaseLengthExpiry
  | .phaseOverrun | .badDequeHandle | .inboxOverflow | .breakpoint | .breakpointSet | .preemptionRequest
  | .preemptionHoldTimeout | .preemptionSave | .preemptionRestore | .reservationRequest | .reservationGrant
  | .reservationRevoke | .reservationWriteBack | .wrsWake | .waitaddrRead | .barrierRelease
  | .barrierMemberLost | .kettleOperation | .messageDepart | .messageArrival | .nextWorkSelect | .stealProbe
  | .coreWake | .launch | .launchTreeDelivery | .recruitStart | .lowLoweringBroadcast | .worklistEpoch
  | .worklistSweep | .partnerReadTimeout | .governorWindow | .govctlWrite | .matrixOperationStart
  | .matrixOperationComplete | .mrectCheckExchange | .copyCommandAccept | .combineHoldExpiry | .copyLineMove
  | .copyCompletionWrite | .grammarUnitServe | .translationWalk | .remoteInvalidation | .qasrWrite
  | .resizeSetMove | .resizeWalkEnd | .homePlainFill | .homeOwnFill | .homeWriteBack | .homeWtStore
  | .homeSiFill | .homeUncAccess | .probeArrival | .dataReplyArrival | .dieDrain | .linkFlitReplay
  | .boundaryRetrain | .boundaryDown | .remotePacketArrival | .remoteReplyArrival | .refusal
  | .refusalReservationTimeout | .fabricTimeout | .fenceToken | .fenceHandshakeTimeout | .neighbourSilence
  | .lossNotice | .lostSetClear | .keepalive | .barrierSysPacket | .fabctlWrite | .prctlWrite | .hostNotice
  | .hostRead | .hostWrite | .hostFence | .lstatRead | .ohmovRetrain | .blobWrite | .attestationRequest
  | .powerGood | .diesReady | .imagoEntry | .thermalSample | .hbmPatrol | .quireReset | .coreReset
  | .illegalEncoding | .receiveRegisterLatch | .waitaddrRemotePoll | .planeRouterCycle
  | .permittedRangeTableWrite => false
  | _ => true

/-- The checks of an instruction's fields that its operand types leave open (02, Tables 2.8 to 2.13; 08, R198,
R199, R211 to R213, R216). -/
def Instr.fieldsOk : Instr → Bool
  | .ldpk f d _ _ _ | .stpk f d _ _ _ => f.regOk d
  | .kinitReady _ _ _ home _ => home.toNat ≤ 95
  | .vabs t _ _ _ | .vneg t _ _ _ => t.signed
  | .vext t _ _ k | .vins t _ _ k => k.toNat < t.lanes
  | .vslide t _ _ _ k _ => k.toInt.natAbs ≤ t.lanes
  | .vldx t _ _ _ _ | .vstx t _ _ _ _ => t.lane != 4
  | .vpack t _ _ _ _ | .vunpack t _ _ _ _ => t != .f32
  | .vrng d b _ => d != b
  | .rep _ n | .repx _ n => 1 ≤ n.toNat && n.toNat ≤ 16
  | _ => true

/-- An instruction that some words encode. -/
def Instr.wellFormed (i : Instr) : Bool := i.encodable && i.fieldsOk

end Sys2Proof
end

