-- ==== Sys2Proof/Machine/Numeric.lean ====
section
/-! DEFINITION. Number formats, exact values and rounding (04, R78 to R90, R96 to R102). -/

namespace Sys2Proof.Machine

/-! ### Exact values -/

/-- An exact magnitude: the rational `num / den`, or its square root. -/
structure Mag where
  num  : Nat
  den  : Nat
  root : Bool
  deriving DecidableEq, Repr

/-- An exact operand or result (04, R85). -/
inductive Val where
  | nan | inf (neg : Bool) | fin (neg : Bool) (m : Mag)
  deriving DecidableEq, Repr

/-- The integer square root, one bit of the result a step. -/
def isqrtAux : Nat → Nat → Nat → Nat
  | 0, _, r => r
  | k + 1, n, r => let t := r + 2 ^ k; if t * t ≤ n then isqrtAux k n t else isqrtAux k n r
def isqrt (n : Nat) : Nat := isqrtAux (Nat.log2 n / 2 + 1) n 0

/-- The numerator and denominator of the magnitude times 2 to the power `sh`, under the root if there is one. -/
def Mag.scaled (m : Mag) (sh : Int) : Nat × Nat :=
  let k : Int := if m.root then 2 * sh else sh
  if 0 ≤ k then (m.num * 2 ^ k.toNat, m.den) else (m.num, m.den * 2 ^ (-k).toNat)
/-- The floor of the magnitude times 2 to the power `sh`. -/
def Mag.floorAt (m : Mag) (sh : Int) : Nat :=
  let (n, d) := m.scaled sh
  if m.root then isqrt (n / d) else n / d
/-- The magnitude times 2 to the power `sh` is a whole number. -/
def Mag.wholeAt (m : Mag) (sh : Int) : Bool :=
  let (n, d) := m.scaled sh
  let q := m.floorAt sh
  if m.root then q * q * d == n else q * d == n
/-- The floor of the base-2 logarithm of a nonzero magnitude. -/
def Mag.log2 (m : Mag) : Int :=
  let e : Int := (Nat.log2 m.num : Int) - (Nat.log2 m.den : Int)
  let e := if m.root then e.fdiv 2 else e
  if m.floorAt (-(e + 1)) ≥ 1 then e + 1 else if m.floorAt (-e) ≥ 1 then e else e - 1
/-- The magnitude's square, which is rational. -/
def Mag.square (m : Mag) : Nat × Nat := if m.root then (m.num, m.den) else (m.num * m.num, m.den * m.den)
def Mag.lt (a b : Mag) : Bool :=
  if a.root || b.root then a.square.1 * b.square.2 < b.square.1 * a.square.2 else a.num * b.den < b.num * a.den
def Mag.eq (a b : Mag) : Bool := !a.lt b && !b.lt a

def Mag.zero : Mag := ⟨0, 1, false⟩
/-- `k` times 2 to the power `e`. -/
def Mag.dyadic (k : Nat) (e : Int) : Mag :=
  if 0 ≤ e then ⟨k * 2 ^ e.toNat, 1, false⟩ else ⟨k, 2 ^ (-e).toNat, false⟩

def Val.ofInt (i : Int) : Val := .fin (i < 0) ⟨i.natAbs, 1, false⟩
def Val.zero : Val := .fin false Mag.zero

def Val.isNan : Val → Bool | .nan => true | _ => false
def Val.isZero : Val → Bool | .fin _ m => m.num == 0 | _ => false
def Val.isInf : Val → Bool | .inf _ => true | _ => false
def Val.negate : Val → Val
  | .nan => .nan | .inf n => .inf (!n) | .fin n m => .fin (!n) m
def Val.abs : Val → Val
  | .nan => .nan | .inf _ => .inf false | .fin _ m => .fin false m

/-- Numeric order; false when either side is NaN; −0 equals +0 (04, R90; 08, R207). -/
def Val.less : Val → Val → Bool
  | .nan, _ => false
  | _, .nan => false
  | .inf a, .inf b => a && !b
  | .inf a, .fin _ _ => a
  | .fin _ _, .inf b => !b
  | .fin na a, .fin nb b =>
    if a.num == 0 && b.num == 0 then false
    else match na && a.num != 0, nb && b.num != 0 with
      | true, false => true | false, true => false | false, false => a.lt b | true, true => b.lt a
def Val.same (a b : Val) : Bool := !a.isNan && !b.isNan && !a.less b && !b.less a

/-! ### Exact operations (04, R85) -/

/-- A sum: an exact zero is +0 unless both addends are −0. -/
def Val.add (a b : Val) : Val × Flags :=
  match a, b with
  | .nan, _ => (.nan, 0)
  | _, .nan => (.nan, 0)
  | .inf x, .inf y => if x == y then (.inf x, 0) else (.nan, flagNV)
  | .inf x, _ => (.inf x, 0)
  | _, .inf y => (.inf y, 0)
  | .fin na x, .fin nb y =>
    if x.num == 0 && y.num == 0 then (.fin (na && nb) Mag.zero, 0)
    else
      let p : Int := (if na then -1 else 1) * (x.num * y.den : Nat)
      let q : Int := (if nb then -1 else 1) * (y.num * x.den : Nat)
      let r := p + q
      (.fin (r < 0) ⟨r.natAbs, x.den * y.den, false⟩, 0)
def Val.sub (a b : Val) : Val × Flags := a.add b.negate
def Val.mul (a b : Val) : Val × Flags :=
  match a, b with
  | .nan, _ => (.nan, 0)
  | _, .nan => (.nan, 0)
  | .inf x, .inf y => (.inf (x != y), 0)
  | .inf x, .fin y m => if m.num == 0 then (.nan, flagNV) else (.inf (x != y), 0)
  | .fin y m, .inf x => if m.num == 0 then (.nan, flagNV) else (.inf (x != y), 0)
  | .fin x m, .fin y k => (.fin (x != y) ⟨m.num * k.num, m.den * k.den, false⟩, 0)
def Val.div (a b : Val) : Val × Flags :=
  match a, b with
  | .nan, _ => (.nan, 0)
  | _, .nan => (.nan, 0)
  | .inf _, .inf _ => (.nan, flagNV)
  | .inf x, .fin y _ => (.inf (x != y), 0)
  | .fin x _, .inf y => (.fin (x != y) Mag.zero, 0)
  | .fin x m, .fin y k =>
    if k.num == 0 then if m.num == 0 then (.nan, flagNV) else (.inf (x != y), 0)
    else (.fin (x != y) ⟨m.num * k.den, m.den * k.num, false⟩, 0)
/-- The square root; that of −0 is −0 (08, R206). -/
def Val.sqrt (a : Val) : Val × Flags :=
  match a with
  | .nan => (.nan, 0)
  | .inf n => if n then (.nan, flagNV) else (.inf false, 0)
  | .fin n m => if m.num == 0 then (.fin n m, 0) else if n then (.nan, flagNV) else (.fin false { m with root := true }, 0)
/-- `va × vb + vc` with the product and the addend negated as the form says (08, Table 8.4). -/
def Val.fused (np nc : Bool) (a b c : Val) : Val × Flags :=
  if a.isNan || b.isNan || c.isNan then (.nan, 0)
  else
    let (p, f) := a.mul b
    let (r, g) := (if np then p.negate else p).add (if nc then c.negate else c)
    (r, f ||| g)
/-- Minimum and maximum with −0 below +0 and NaN when either operand is NaN (08, R206). The answer says whether
the first operand is chosen; of two that are equal in value but differ in code the sign of the first decides, for R206 does
not say whose code is written (log 96). -/
def Val.firstIsLess (a b : Val) : Bool :=
  a.less b || (!b.less a && (match a with | .fin n _ => n | .inf n => n | .nan => false))

/-! ### Formats -/

/-- The special codes of a format (04, R83). -/
inductive Spec where | ieee | finite | nanAtMax | none
  deriving DecidableEq, Repr

/-- A floating or integer code format (04, R82, R83). For an integer `mw` is its magnitude bits. -/
structure Fmt where
  ew   : Nat
  mw   : Nat
  sgn  : Bool
  int  : Bool
  spec : Spec
  bias : Nat
  deriving DecidableEq, Repr

/-- The standard formats (04, Table 4.2). -/
def fp32 : Fmt := ⟨8, 23, true, false, .ieee, 127⟩
def fp16 : Fmt := ⟨5, 10, true, false, .ieee, 15⟩
def bfloat16 : Fmt := ⟨8, 7, true, false, .ieee, 127⟩
def e8m10 : Fmt := ⟨8, 10, true, false, .ieee, 127⟩
def e4m3 : Fmt := ⟨4, 3, true, false, .nanAtMax, 7⟩
/-- The integer types as formats (04, Table 4.1). -/
def intFmt (t : IntTy) : Fmt := ⟨0, if t.signed then t.bits - 1 else t.bits, t.signed, true, .ieee, 0⟩

def Fmt.width (f : Fmt) : Nat := (if f.sgn then 1 else 0) + f.ew + f.mw
/-- All exponent and mantissa bits one. -/
def Fmt.top (f : Fmt) : Nat := 2 ^ (f.ew + f.mw) - 1
/-- The code, sign aside, of the largest finite magnitude (04, R83). -/
def Fmt.maxCode (f : Fmt) : Nat :=
  match f.spec with
  | .ieee => (2 ^ f.ew - 1) * 2 ^ f.mw - 1
  | .nanAtMax => f.top - 1
  | .finite | .none => f.top
/-- The exponent of the smallest normal. -/
def Fmt.emin (f : Fmt) : Int := 1 - (f.bias : Int)
/-- The magnitude of a finite code, sign aside (04, R83). -/
def Fmt.mag (f : Fmt) (body : Nat) : Mag :=
  let e := body / 2 ^ f.mw
  let m := body % 2 ^ f.mw
  if e == 0 then if f.spec == .none then Mag.zero else Mag.dyadic m (f.emin - f.mw)
  else Mag.dyadic (2 ^ f.mw + m) ((e : Int) - f.bias - f.mw)
/-- The exact value of a code (04, R83). -/
def Fmt.decode (f : Fmt) (code : Nat) : Val :=
  if f.int then
    let w := f.width
    let c := code % 2 ^ w
    if f.sgn && c ≥ 2 ^ (w - 1) then Val.ofInt ((c : Int) - 2 ^ w) else Val.ofInt c
  else
    let body := code % 2 ^ (f.ew + f.mw)
    let neg := f.sgn && code / 2 ^ (f.ew + f.mw) % 2 == 1
    if f.spec == .ieee && body / 2 ^ f.mw == 2 ^ f.ew - 1 then
      if body % 2 ^ f.mw == 0 then .inf neg else .nan
    else if f.spec == .nanAtMax && body == f.top then .nan
    else .fin neg (f.mag body)

/-- A format register (04, Table 4.3). -/
def Fmt.ofReg (r : BitVec 64) : Fmt :=
  { ew := (r.extractLsb' 0 4).toNat, mw := (r.extractLsb' 4 4).toNat, sgn := r.getLsbD 8, int := r.getLsbD 9
    spec := match (r.extractLsb' 10 2).toNat with | 0 => .ieee | 1 => .finite | 2 => .nanAtMax | _ => .none
    bias := (r.extractLsb' 12 8).toNat }
/-- A valid format register (04, R84). -/
def Fmt.valid (f : Fmt) : Bool :=
  (f.width == 4 || f.width == 6 || f.width == 8)
    && (if f.int then f.ew == 0 && f.spec == .ieee && f.bias == 0
        else 1 ≤ f.ew && (Nat.max 1 (f.maxCode / 2 ^ f.mw) : Int) - f.bias ≤ 127
          && (-136 : Int) ≤ 1 - (f.bias : Int) - f.mw)

/-- The canonical NaN, sign 0, of a format that has a NaN code (04, R85, R87). -/
def Fmt.nanCode (f : Fmt) : Option Nat :=
  match f.spec with
  | .ieee => if f.mw == 0 || f.int then none else some ((2 ^ f.ew - 1) * 2 ^ f.mw + 2 ^ (f.mw - 1))
  | .nanAtMax => some f.top
  | .finite | .none => none

/-! ### Rounding (04, R86, R87) -/

/-- A rounding mode (01, Table 1.5). -/
abbrev Mode := Rounding

/-- Which of two neighbours a magnitude goes to: `true` for the upper one. `frac` is the floor of its place
between them in sixteenths of a bit (16 bits), `exact` says that nothing lies below those bits. -/
def roundUp (mode : Mode) (rnd : Nat) (frac : Nat) (exact : Bool) (loEven hiEven : Bool) : Bool :=
  match mode with
  | .zero => false
  | .stochastic => frac + rnd ≥ 65536
  | .nearest => if frac == 32768 && exact then hiEven && !loEven else frac ≥ 32768

/-- A finite magnitude's code in a floating format, sign aside, and the flags. The slot above the largest finite
magnitude has the code after it (R86). -/
def Fmt.encodeMag (f : Fmt) (mode : Mode) (rnd : Nat) (m : Mag) : Nat × Flags :=
  if m.num == 0 then (0, 0)
  else
    let max := f.maxCode
    let e := m.log2
    let eq := if e < f.emin then f.emin else e
    let small : Bool := e < f.emin
    let flat := small && f.spec == .none
    let q := eq - f.mw
    let k := if flat then 0 else m.floorAt (-q)
    let lo := if flat then 0 else if small then k
      else ((e + f.bias).toNat) * 2 ^ f.mw + (k - 2 ^ f.mw)
    let hi := if flat then 2 ^ f.mw else lo + 1
    let sh := if flat then 16 - f.emin else 16 - q
    let frac := m.floorAt sh - k * 65536
    let whole := if flat then false else m.wholeAt (-q)
    if lo ≤ max && whole then (lo, 0)
    else if lo > max then
      -- at or above the slot
      let up := match mode with | .zero => false | _ => true
      if up && f.spec == .ieee then (max + 1, flagNX) else (max, flagOF ||| flagNX)
    else
      let hiSlot := hi == max + 1
      let up := roundUp mode rnd frac (m.wholeAt sh) (lo == 0 || lo % 2 == 0) (hiSlot || hi % 2 == 0)
      let uf : Flags := if small then flagUF else 0
      if !up then (lo, flagNX ||| uf ||| (if lo == max then flagOF else 0))
      else if !hiSlot then (hi, flagNX ||| uf)
      else if f.spec == .ieee then (hi, flagNX ||| uf) else (max, flagNX ||| flagOF ||| uf)

/-- Flags of a negative nonzero value that an unsigned format takes as +0: NV, NX since the value written differs, and UF and
OF by its magnitude (R87; log 13). -/
def Fmt.lostFlags (f : Fmt) (m : Mag) : Flags :=
  let tiny : Bool := if f.int then m.floorAt 0 == 0 else m.log2 < f.emin
  let big : Bool := if f.int then 2 ^ f.mw - 1 < m.floorAt 0 || (m.floorAt 0 == 2 ^ f.mw - 1 && !m.wholeAt 0)
    else (f.encodeMag .zero 0 m).2 &&& flagOF != 0
  flagNV ||| flagNX ||| (if tiny then flagUF else 0) ||| if big then flagOF else 0

/-- A value encoded into an integer format: rounded, then saturated (R86, R87). A NaN sets NV alone (log 96). -/
def Fmt.encodeInt (f : Fmt) (mode : Mode) (rnd : Nat) (v : Val) : Nat × Flags :=
  let hi : Nat := 2 ^ f.mw - 1
  let lo : Nat := if f.sgn then 2 ^ f.mw else 0
  let put (neg : Bool) (k : Nat) : Nat := if neg then (2 ^ f.width - k) % 2 ^ f.width else k
  match v with
  | .nan => (0, flagNV)
  | .inf n => if n && !f.sgn then (0, flagNV ||| flagNX) else (put n (if n then lo else hi), flagOF ||| flagNX)
  | .fin n m =>
    if m.num == 0 then (0, 0)
    else if n && !f.sgn then (0, f.lostFlags m)
    else
      let lim := if n then lo else hi
      let k := m.floorAt 0
      if m.wholeAt 0 && k ≤ lim then (put n k, 0)
      else if k ≥ lim then (put n lim, flagOF ||| flagNX)
      else
        let up := roundUp mode rnd (m.floorAt 16 - k * 65536) (m.wholeAt 16) (k % 2 == 0) (k % 2 == 1)
        (put n (if up then k + 1 else k), flagNX ||| (if k == 0 then flagUF else 0))

/-- A value rounded into a format: its code and the flags (R86, R87). A NaN that a format without a NaN code takes as +0 sets NV
alone: whether NX is set with it is not clear from R87 (log 96). -/
def Fmt.encode (f : Fmt) (mode : Mode) (rnd : Nat) (v : Val) : Nat × Flags :=
  if f.int then f.encodeInt mode rnd v
  else
    let signBit (n : Bool) : Nat := if n then 2 ^ (f.ew + f.mw) else 0
    match v with
    | .nan => match f.nanCode with | some c => (c, 0) | none => (0, flagNV)
    | .inf n =>
      if n && !f.sgn then (0, flagNV ||| flagNX)
      else if f.spec == .ieee then ((2 ^ f.ew - 1) * 2 ^ f.mw + signBit n, 0)
      else (f.maxCode + signBit n, flagOF ||| flagNX)
    | .fin n m =>
      if n && !f.sgn then (0, if m.num == 0 then 0 else f.lostFlags m)
      else let (c, g) := f.encodeMag mode rnd m; (c + signBit n, g)

/-! ### The decode table (04, R88 to R90) -/

/-- The value of an entry of the decode table. -/
def entryVal (w : BitVec 32) : Val := e8m10.decode (w.toNat % 2 ^ 19)
/-- The search order (R89); order 3 cannot be configured and is read as order 0. -/
def searchOrder (ord k : Nat) : Nat :=
  match ord with
  | 1 => (k + 128) % 256
  | 2 => if k < 128 then 255 - k else k - 128
  | _ => k

/-- A distance between two finite values as a rational of either sign. -/
def signedRat : Val → Int × Nat
  | .fin n m => (if n then -(m.num : Int) else m.num, m.den)
  | _ => (0, 1)

/-- `x` lies at or above the rational `num / den`. -/
def atLeast (x : Val) (num : Int) (den : Nat) : Bool := !x.less (.fin (num < 0) ⟨num.natAbs, den, false⟩)

/-- The largest `f` below 65,536 for which `x` lies at or above `lo + f · (hi − lo) / 65,536`. -/
def placeAux (x : Val) (ln : Int) (ld : Nat) (hn : Int) (hd : Nat) : Nat → Nat → Nat
  | 0, f => f
  | k + 1, f =>
    let g := f + 2 ^ k
    if atLeast x (ln * hd * (65536 - (g : Int)) + hn * ld * g) (ld * hd * 65536) then placeAux x ln ld hn hd k g
    else placeAux x ln ld hn hd k f

/-- The eight probes of the search (R90). -/
def probe (t : Nat → Val) (x : Val) : Nat → Nat → Nat → Nat × Nat
  | 0, lo, hi => (lo, hi)
  | n + 1, lo, hi =>
    if hi - lo > 1 then
      let mid := (lo + hi) / 2
      if x.less (t mid) then probe t x n lo mid else probe t x n mid hi
    else (lo, hi)

/-- Encoding through the decode table: the code and the flags (R90). A NaN without an entry raises NV alone (log 83). -/
def tableEncode (tab : Vector (BitVec 32) 256) (ord : Nat) (mode : Mode) (rnd : Nat) (x : Val) : Nat × Flags :=
  let s := searchOrder ord
  let t (k : Nat) : Val := entryVal (tab.toList.getD (s k) 0)
  if x.isNan then
    match (List.range 256).find? fun k => (t k).isNan with
    | some k => (s k, 0)
    | none => (s 0, flagNV)
  else
    let (lo, hi) := probe t x 8 0 255
    let tl := t lo
    let th := t hi
    let flags (edge : Bool) (v : Val) : Flags :=
      if v.same x then 0 else if edge then flagNX ||| flagOF else flagNX
    if !tl.less x then (s lo, flags true tl)
    else if !x.less th then (s hi, flags true th)
    else
      let up : Bool :=
        match tl.isInf, th.isInf with
        | true, false => true
        | false, true => false
        | true, true => false
        | false, false =>
          let (ln, ld) := signedRat tl
          let (hn, hd) := signedRat th
          let mid := atLeast x (ln * hd + hn * ld) (2 * ld * hd)
          let tie := mid && x.same (.fin (ln * hd + hn * ld < 0) ⟨(ln * hd + hn * ld).natAbs, 2 * ld * hd, false⟩)
          match mode with
          | .nearest => if tie then s lo % 2 == 1 && s hi % 2 == 0 else mid
          | .zero => th.abs.less tl.abs
          | .stochastic => placeAux x ln ld hn hd 16 0 + rnd ≥ 65536
      if up then (s hi, flags false th) else (s lo, flags false tl)

/-! ### Block scales and matrix blocks (04, R91, R96 to R99) -/

/-- An E8M0 scale (R91). -/
def e8m0Val (c : Nat) : Val := if c == 255 then .nan else .fin false (Mag.dyadic 1 ((c : Int) - 127))

/-- The exact product of a value and a scale rounded once to FP32 by nearest-even (R94). -/
def scaledFp32 (v scale : Val) : Nat × Flags :=
  let (p, f) := v.mul scale
  let (c, g) := fp32.encode .nearest 0 p
  (c, f ||| g)

/-- A whole number nearest to the magnitude times 2 to the power `sh`, ties to even (R97). -/
def Mag.nearestInt (m : Mag) (sh : Int) : Nat :=
  let k := m.floorAt sh
  if m.wholeAt sh then k
  else if roundUp .nearest 0 (m.floorAt (sh + 16) - k * 65536) (m.wholeAt (sh + 16)) (k % 2 == 0) (k % 2 == 1)
    then k + 1 else k

/-- The largest exponent of the nonzero finite elements of a block, or −127 (R97). -/
def blockExponent (xs : List Val) : Int :=
  match xs.filterMap fun x => match x with
    | .fin _ m => if m.num == 0 then none else some m.log2
    | _ => none with
  | [] => -127
  | e :: es => es.foldl (fun a b => if a < b then b else a) e

/-- A block aligned to its shared exponent with width `w`: the integers and the block's exponent (R97). -/
def alignBlock (w : Nat) (xs : List Val) : List Int × Int :=
  let e := blockExponent xs
  let lim : Nat := 2 ^ (w - 1) - 1
  (xs.map fun x => match x with
    | .fin n m =>
      let k := Nat.min (if m.num == 0 then 0 else m.nearestInt ((w : Int) - 2 - e)) lim
      if n then -(k : Int) else k
    | _ => 0, e - w + 2)

/-- The bits of an FP32 value. -/
def bitsFp32 (v : Val) : BitVec 32 := BitVec.ofNat 32 (fp32.encode .nearest 0 v).1
/-- The value of FP32 bits. -/
def valFp32 (b : BitVec 32) : Val := fp32.decode b.toNat

/-- One block pair added to an accumulator element (R98, R99): the new bits. -/
def blockUpdate (acc : BitVec 32) (wa wb : Nat) (xa xb : List Val) (sa sb : Val) : BitVec 32 :=
  let bad (v : Val) : Bool := v.isNan || v.isInf
  if xa.any bad || xb.any bad || bad sa || bad sb then 0x7FC00000#32
  else
    let (ia, ea) := alignBlock wa xa
    let (ib, eb) := alignBlock wb xb
    let d := (List.zipWith (· * ·) ia ib).foldl (· + ·) 0
    let e := ea + eb
    let v : Val := .fin (d < 0) (Mag.dyadic d.natAbs e)
    let p := ((v.mul sa).1.mul sb).1
    let p := if p.isZero then Val.zero else p
    bitsFp32 ((valFp32 acc).add p).1

/-! ### The order-independent cell (04, R101, R102) -/

/-- An FP32 operand as a contribution to a Q63.64 cell, with its flags. The clamp raises OF alone (R102; log 82). -/
def cellContribution (x : BitVec 32) : Int × Flags :=
  let lim : Int := 2 ^ 95
  match valFp32 x with
  | .nan => (0, flagNV)
  | .inf n => (if n then -lim else lim, flagOF)
  | .fin n m =>
    if m.floorAt 0 ≥ 2 ^ 31 then (if n then -lim else lim, flagOF)
    else
      let k : Int := m.nearestInt 64
      (if n then -k else k, if m.num == 0 || m.wholeAt 64 then 0
        else flagNX ||| (if m.floorAt 64 == 0 then flagUF else 0))

/-- The cell's sum, saturated with OF alone (R102; log 82). -/
def cellAdd (cell q : Int) : Int × Flags :=
  let r := cell + q
  if r < -(2 ^ 127) then (-(2 ^ 127), flagOF) else if r > 2 ^ 127 - 1 then (2 ^ 127 - 1, flagOF) else (r, 0)

/-- A cell's value rounded once to FP32 by nearest-even (R102). -/
def cellFp32 (cell : Int) : BitVec 32 := bitsFp32 (.fin (cell < 0) (Mag.dyadic cell.natAbs (-64)))

end Sys2Proof.Machine
end

