-- ==== Sys2Proof/Config.lean ====
section
/-! DEFINITION. What an implementation fixes, and the free values: constants with no body, so that nothing in Lean
can evaluate them. Each is applied to the state's counter `tick`, or to the operands it depends on. -/

namespace Sys2Proof.Config

/-- Which of several enabled actions comes next (11, R291; the agents of the part act in no stated order). -/
opaque pick : Nat → Nat
/-- Which piece of an access of several pieces is read before another agent comes in, if any (08, R218; 11, R293). -/
opaque grain : Nat → Option Nat
/-- How far `gtime` moves between two steps (01, Table 1.4; 17, R441). -/
opaque gtimeStep : Nat → Nat
/-- Which entry leaves a full TLB or node cache (16, R420 names no replacement rule). -/
opaque tlbVictim : Nat → Nat
/-- The set of the second-level TLB for a page of a size, by its number (16, R420 names 8 ways and no index). -/
opaque tlbSet : Nat → Nat → Nat
/-- Which entry of a 64 KiB group whose members disagree is applied (16, R419: not specified). -/
opaque groupEntry : Nat → Nat
/-- Which of the words that it has kept of a place, or the one in memory, fetch uses (02, R61: any, until `cflush`). -/
opaque keptWord : Nat → Nat
/-- A word that a fetch unit takes in before it is asked for: its kind of place, its address and its binding (02, R61: no
word of a store that fetch has not been made to see is ruled out). -/
opaque ahead : Nat → Nat × Nat × Nat
/-- A context is stalled and gives up its turn (13, R342: the rules state no lengths of stalls). -/
opaque stalled : Nat → Nat → Bool
/-- Which of two values a folio double has that was written before its task started (01, R32: not specified). -/
opaque folioOld : Nat → Nat → Bool
/-- The way that a tree of WAYS − 1 bits names where WAYS is no power of two (12, Table 12.5 gives no tree shape). -/
opaque plruWay : Nat → Nat
/-- Whether the matrix unit reads an operand line later than it could (09, R231: at any time up to completion). -/
opaque readLater : Nat → Nat → Bool
/-- Phase cycles beyond the next one until an instruction of the context is ready (09, R240 names none). -/
opaque issueCycles : Nat → Nat
/-- The scale of a block where the destination's codes hold no finite value but zero (04, R96 states none). -/
opaque openScale : Nat → Nat
/-- The mode that a return takes from a PMODE of 3 (01, Table 1.2: mode 3 does not occur). -/
opaque openMode : Nat → Nat
/-- Bytes of a live record of a binding that has none (12, R321). -/
opaque openRecord : Nat → Nat → BitVec 8
/-- `tval` of a trap for which no rule states it (09, R246). -/
opaque openTval : Nat → Word
/-- Cycles that pass before the first plane issue of a matrix operation is ready, and those for which one waits for its
operands (14, R374, R378: their place in a governor window is timing). -/
opaque windowStart : Nat → Nat → Nat
/-- Payload bytes of the part's own fabric packets, whose layout the spec leaves to the fabric (15, R397). -/
opaque packetByte : Nat → Nat → BitVec 8
/-- Bytes that the host reads where they are uncorrectable (15, R409 and 16, Table 16.9 state none). -/
opaque hostByte : Nat → Nat → BitVec 8
/-- The key hash in mask ROM, of 32 bytes (17, R439). -/
opaque keyHash : List (BitVec 8)
/-- The start-up pattern of the management core's SRAM region as the helper data correct it (17, R448 names no code). -/
opaque startPattern : List (BitVec 8) → List (BitVec 8)
/-- Fresh randomness of a signature (17, R449). -/
opaque signRandom : Nat → BitVec 256
/-- Nanoseconds from the start of `gtime`, in step 4 of bring-up, to the opening of service in step 6 (17, R441). -/
opaque bootTime : Nat → Word

end Sys2Proof.Config
end

