-- ==== Sys2Proof/Decode.lean ====
section
/-! DEFINITION. Words, prefixes, chains, the decoder of the eight pages (02, R37 to R60), and the encoder (03, R70). -/

namespace Sys2Proof

/-- What an instruction's words hold together: its page, its fields with their fifth bits, its prefixes
(02, R37, R40, R42). The base word's bits [9:6], [5:2] and [1:0] are the low bits of `x`, of `y`, and `f`. -/
structure Chain where
  page : BitVec 3
  fn   : BitVec 4
  z    : BitVec 5
  rx   : Bool
  c    : BitVec 5
  m    : BitVec 3
  ix   : Option (BitVec 11)
  sc   : Option (BitVec 11)
  op   : BitVec 6
  x    : BitVec 5
  y    : BitVec 5
  f    : BitVec 2
  deriving DecidableEq, Repr

/-- The prefixes seen so far of an instruction (02, R38). -/
structure Prefixes where
  ix : Option (BitVec 11)
  rx : Option (BitVec 11)
  pg : Option (BitVec 11)
  sc : Option (BitVec 11)
  deriving DecidableEq, Repr

/-- No prefix. -/
def Prefixes.none : Prefixes := ⟨.none, .none, .none, .none⟩

/-- What the decoder finds at one word of a chain (02, R56). -/
inductive WordKind where
  | more (p : Prefixes) | done (c : Chain) | bad
  deriving DecidableEq, Repr

/-- A word whose bits [15:13] are 111 is a prefix (02, R37). -/
def Base.isPrefix (w : Base) : Bool := w.extractLsb' 13 3 == 7#3

/-- The chain of an instruction word behind its prefixes (02, R40, R42). -/
def Prefixes.chain (p : Prefixes) (w : Base) : Chain :=
  let pg := p.pg.getD 0
  let rx := p.rx.getD 0
  { page := pg.extractLsb' 0 3, fn := pg.extractLsb' 7 4
    z := rx.extractLsb' 8 1 ++ pg.extractLsb' 3 4
    rx := p.rx.isSome, c := rx.extractLsb' 3 5, m := rx.extractLsb' 0 3
    ix := p.ix, sc := p.sc, op := w.extractLsb' 10 6
    x := rx.extractLsb' 10 1 ++ w.extractLsb' 6 4
    y := rx.extractLsb' 9 1 ++ w.extractLsb' 2 4
    f := w.extractLsb' 0 2 }

/-- One word read: a prefix of a kind already seen, a PG naming page 0 or 7 and an SC of version 3 fail at that
word (02, R38, R41, R45). -/
def Prefixes.read (p : Prefixes) (w : Base) : WordKind :=
  if Base.isPrefix w then
    let k := w.extractLsb' 0 11
    match (w.extractLsb' 11 2).toNat with
    | 0 => if p.ix.isSome then .bad else .more { p with ix := some k }
    | 1 => if p.rx.isSome then .bad else .more { p with rx := some k }
    | 2 => if p.pg.isSome || k.extractLsb' 0 3 == 0#3 || k.extractLsb' 0 3 == 7#3 then .bad
           else .more { p with pg := some k }
    | _ => if p.sc.isSome || k.extractLsb' 9 2 == 3#2 then .bad else .more { p with sc := some k }
  else .done (p.chain w)

/-- A register number of 5 bits. -/
def reg5 (b : BitVec 5) : Fin 32 := b.toFin
/-- The 5 bits of a register number. -/
def bits5 (r : Fin 32) : BitVec 5 := BitVec.ofFin r
/-- A mask number; a larger number is illegal (02, R43). -/
def mreg (b : BitVec 5) : Option MReg := if h : b.toNat < 8 then some ⟨b.toNat, h⟩ else none
/-- An accumulator or conduit number; a larger number is illegal (02, R43). -/
def reg4 (b : BitVec 5) : Option (Fin 4) := if h : b.toNat < 4 then some ⟨b.toNat, h⟩ else none
/-- The mask that the field M names (02, R53). -/
def maskOf (b : BitVec 3) : MReg := b.toFin

/-- The codes of Table 2.6 and Table 2.7 of 02. -/
def Size.ofBits (f : BitVec 2) : Size :=
  match f.toNat with | 0 => .b | 1 => .h | 2 => .w | _ => .d
def Size.code : Size → BitVec 2 | .b => 0 | .h => 1 | .w => 2 | .d => 3
def Request.ofBits (m : BitVec 3) : Option Request :=
  match m.toNat with | 0 => some .dflt | 1 => some .own | 2 => some .wt | 3 => some .si | 4 => some .unc | _ => none
def Request.code : Request → BitVec 3 | .dflt => 0 | .own => 1 | .wt => 2 | .si => 3 | .unc => 4
def Scope.ofCode (n : Nat) : Option Scope :=
  match n with | 0 => some .dev | 1 => some .core | 2 => some .quire | 3 => some .die | 4 => some .sys | _ => none
def Scope.code : Scope → BitVec 3 | .dev => 0 | .core => 1 | .quire => 2 | .die => 3 | .sys => 4
def Ord.ofBits (f : BitVec 2) : Ord :=
  match f.toNat with | 0 => .relaxed | 1 => .acq | 2 => .rel | _ => .ar
def Ord.code : Ord → BitVec 2 | .relaxed => 0 | .acq => 1 | .rel => 2 | .ar => 3
def FloatTy.ofBits (b : BitVec 4) : Option FloatTy :=
  match b.toNat with
  | 0 => some .f32 | 1 => some .bf16 | 2 => some .f16 | 3 => some (.fm 0) | 4 => some (.fm 1)
  | 5 => some (.fm 2) | 6 => some (.fm 3) | 7 => some .tb | _ => none
def FloatTy.code : FloatTy → BitVec 4
  | .f32 => 0 | .bf16 => 1 | .f16 => 2 | .fm k => 3#4 + BitVec.ofNat 4 k.val | .tb => 7
def IntTy.ofBits (b : BitVec 4) : Option IntTy :=
  match b.toNat with
  | 0 => some .i4 | 1 => some .n4 | 2 => some .i6 | 3 => some .n6 | 4 => some .i8 | 5 => some .n8
  | 6 => some .i16 | 7 => some .n16 | 8 => some .i32 | 9 => some .n32 | 10 => some .i64 | 11 => some .n64
  | _ => none
def IntTy.code : IntTy → BitVec 4
  | .i4 => 0 | .n4 => 1 | .i6 => 2 | .n6 => 3 | .i8 => 4 | .n8 => 5
  | .i16 => 6 | .n16 => 7 | .i32 => 8 | .n32 => 9 | .i64 => 10 | .n64 => 11
def Port.ofBits (b : BitVec 5) : Option Port :=
  match b.toNat with
  | 0 => some .north | 1 => some .east | 2 => some .south | 3 => some .west | 4 => some .rowBus | 5 => some .colBus
  | _ => none
def Port.code : Port → BitVec 5 | .north => 0 | .east => 1 | .south => 2 | .west => 3 | .rowBus => 4 | .colBus => 5
def Block.ofBits (f : BitVec 2) : Option Block :=
  match f.toNat with | 0 => some .c4 | 1 => some .c6 | 2 => some .c8 | _ => none
def Block.code : Block → BitVec 2 | .c4 => 0 | .c6 => 1 | .c8 => 2
def Filter.ofBits (f : BitVec 2) : Option Filter :=
  match f.toNat with | 0 => some .any | 1 => some .request | 2 => some .reply | _ => none
def Filter.code : Filter → BitVec 2 | .any => 0 | .request => 1 | .reply => 2
/-- The rounding mode that IX names: K11[1:0], with K11[10:2] zero and 3 illegal (02, R53). -/
def roundingOf (ix : Option (BitVec 11)) : Option (Option Rounding) :=
  match ix with
  | none => some none
  | some k => match k.toNat with
    | 0 => some (some .nearest) | 1 => some (some .zero) | 2 => some (some .stochastic) | _ => none
def Rounding.code : Rounding → BitVec 11 | .nearest => 0 | .zero => 1 | .stochastic => 2

namespace Chain

/-- The six-bit immediate or function of the formats RI and RF (02, Table 2.5). -/
def k6 (c : Chain) : BitVec 6 := c.y.extractLsb' 0 4 ++ c.f
/-- The ten-bit immediate or function of the formats I10 and N (02, Table 2.5). -/
def k10 (c : Chain) : BitVec 10 := c.x.extractLsb' 0 4 ++ (c.y.extractLsb' 0 4 ++ c.f)
/-- A signed immediate of format RI (02, Table 2.3). -/
def simm (c : Chain) : BitVec 17 := match c.ix with | none => c.k6.signExtend 17 | some k => k ++ c.k6
/-- An unsigned immediate of format RI (02, Table 2.3). -/
def uimm (c : Chain) : BitVec 17 := match c.ix with | none => c.k6.zeroExtend 17 | some k => k ++ c.k6
/-- A signed offset of format I10 (02, Table 2.3). -/
def joff (c : Chain) : BitVec 21 := match c.ix with | none => c.k10.signExtend 21 | some k => k ++ c.k10
/-- The eleven bits of IX, 0 where it is absent (02, Table 2.3). -/
def k11 (c : Chain) : BitVec 11 := c.ix.getD 0
/-- Field X, field Y, field Z and field C as register numbers. -/
def d (c : Chain) : Reg := reg5 c.x
def b (c : Chain) : Reg := reg5 c.y
def zr (c : Chain) : Reg := reg5 c.z
def cr (c : Chain) : Reg := reg5 c.c
/-- The first source: C when RX is present, X when it is not (02, R48, R53). -/
def a (c : Chain) : Reg := if c.rx then reg5 c.c else reg5 c.x
def mask (c : Chain) : MReg := maskOf c.m

end Chain

/-- What a form puts into a field: nothing, a general register, a vector register, or a value of another kind
(02, R42, R43, R47). -/
inductive Kind where | none | w | v | other
  deriving DecidableEq, Repr

/-- Whether a form accepts a prefix (02, R48): a dash, the letter, or the letter with an exclamation mark. -/
inductive Accept where | no | may | must
  deriving DecidableEq, Repr

/-- The formats of the instruction word (02, Table 2.5). -/
inductive Format where | rr | ri | rf | i10 | n
  deriving DecidableEq, Repr

/-- What a form of Tables 2.8 to 2.15 says of its fields and prefixes. -/
structure Form where
  fmt : Format := .rr
  x   : Kind := .none
  y   : Kind := .none
  z   : Kind := .none
  c   : Kind := .none
  m   : Bool := false
  fn  : Bool := false
  ix  : Accept := .no
  rx  : Accept := .may
  deriving DecidableEq, Repr

def Accept.ok (a : Accept) (present : Bool) : Bool :=
  match a with | .no => !present | .may => true | .must => present

/-- A field that the form leaves unused is zero; a field that holds no register number has its fifth bit zero
(02, R42; 08, R197). -/
def Kind.ok (k : Kind) (b : BitVec 5) : Bool :=
  match k with | .none => b == 0 | .w | .v => true | .other => b.toNat < 16

/-- A field that a v2 schedule prefix may mark (02, R47). -/
def Kind.markable : Kind → Bool | .w | .v => true | .none | .other => false

/-- The marks of a v2 schedule prefix, with X in bit 0, Y in bit 1, Z in bit 2 and C in bit 3 (02, R47). -/
def Chain.adv (c : Chain) : BitVec 4 :=
  match c.sc with
  | some k => if k.extractLsb' 9 2 == 2#2 then k.extractLsb' 0 4 else 0
  | none => 0

/-- The checks of a chain against its form: prefix acceptance, field validity and the marks of a v2 prefix
(02, R42, R47, R55, R56). Bits [5:0] of an RI or RF word and bits [9:0] of an I10 or N word are not fields Y
and X, but the fifth bits EX and EY stay unused there. -/
def Form.ok (g : Form) (c : Chain) : Bool :=
  let yIn := g.fmt == .rr
  let xIn := g.fmt == .rr || g.fmt == .ri || g.fmt == .rf
  g.ix.ok c.ix.isSome && g.rx.ok c.rx
    && (if xIn then g.x.ok c.x else c.x.toNat < 16)
    && (if yIn then g.y.ok c.y else c.y.toNat < 16)
    && g.z.ok c.z && g.c.ok c.c
    && (g.m || c.m == 0) && (g.fn || c.fn == 0)
    && (!c.adv.getLsbD 0 || g.x.markable) && (!c.adv.getLsbD 1 || g.y.markable)
    && (!c.adv.getLsbD 2 || g.z.markable) && (!c.adv.getLsbD 3 || (g.c.markable && c.rx))

/-- The form names only registers w0 to w15 in its general-register fields (02, R43). -/
def Form.lowRegs (g : Form) (c : Chain) : Bool :=
  (g.x != .w || c.x.toNat < 16) && (g.y != .w || c.y.toNat < 16)
    && (g.z != .w || c.z.toNat < 16) && (g.c != .w || c.c.toNat < 16)

/-- The forms that many opcodes share. -/
def form2S : Form := { x := .w, y := .w, c := .w }
def formXY : Form := { x := .w, y := .w }
def formImm : Form := { fmt := .ri, x := .w, c := .w, ix := .may }
def formShift : Form := { fmt := .ri, x := .w, c := .w }
def formBranch : Form := { x := .w, y := .w, ix := .must }
def formMem : Form := { x := .w, y := .w, m := true, ix := .may }
def formMemX : Form := { x := .w, y := .w, c := .w, m := true, rx := .must }
def formBare : Form := { fmt := .n, rx := .no }
def formX : Form := { x := .w }
def formCsr : Form := { fmt := .ri, x := .w }
def formV3 : Form := { x := .v, y := .v, c := .v, m := true, fn := true }
def formV2 : Form := { x := .v, y := .v, m := true, fn := true }
def formVW : Form := { x := .w, y := .v, m := true, fn := true }
def formVC : Form := { x := .other, y := .v, c := .v, m := true, fn := true }
def formV3R : Form := { formV3 with ix := .may }
def formV2R : Form := { formV2 with ix := .may }
def formVWR : Form := { formVW with ix := .may }
def formFma : Form := { formV3R with z := .v, rx := .must }
def formCvt : Form := { formV2R with z := .other }
def formM3 : Form := { x := .other, y := .other, c := .other }
def formM2 : Form := { x := .other, y := .other }
def formMW : Form := { x := .w, y := .other, fn := true }
def formAW : Form := { x := .other, y := .w }
def formRow : Form := { x := .v, y := .w, z := .other }
def formAmo : Form := { x := .w, y := .w, c := .w, m := true, fn := true, rx := .must }
def formLr : Form := { x := .w, y := .w, m := true, fn := true }
def formFence (y : BitVec 5) : Form :=
  if y == 0 then { x := .none, y := .none, m := true } else { x := .w, y := .other, m := true }

/-- What the decoder reads: the form and the instruction. -/
abbrev Read := Option (Form × Instr)

/-- Page 0 (02, Table 2.8). -/
def decode0 (c : Chain) : Read :=
  let two (k : Reg → Reg → Reg → Instr) : Read := some (form2S, k c.d c.a c.b)
  let one (k : Reg → Reg → Instr) : Read := some (formXY, k c.d c.b)
  let br (k : Reg → Reg → BitVec 11 → Instr) : Read := some (formBranch, k c.d c.b c.k11)
  let mem (k : Size → Reg → Reg → BitVec 11 → Request → Instr) : Read :=
    (Request.ofBits c.m).map fun r => (formMem, k (Size.ofBits c.f) c.d c.b c.k11 r)
  let memx (k : Size → Reg → Reg → Reg → Request → Instr) : Read :=
    (Request.ofBits c.m).map fun r => (formMemX, k (Size.ofBits c.f) c.d c.b c.cr r)
  let block (k : Block → Reg → Reg → BitVec 11 → Request → Instr) : Read :=
    match Block.ofBits c.f, Request.ofBits c.m with
    | some f, some r => if f.regOk c.d then some (formMem, k f c.d c.b c.k11 r) else none
    | _, _ => none
  match c.op.toNat, c.f.toNat with
  | 0x00, _ => if c.k10 == 1#10 then some (formBare, .nop) else none
  | 0x01, 0 => two .add | 0x01, 1 => two .sub | 0x01, 2 => two .mul | 0x01, 3 => two .mulh
  | 0x02, 0 => two .mulhn | 0x02, 1 => two .div | 0x02, 2 => two .divn | 0x02, 3 => two .rem
  | 0x03, 0 => two .remn | 0x03, 1 => two .and | 0x03, 2 => two .or | 0x03, 3 => two .xor
  | 0x04, 0 => two .andn | 0x04, 1 => two .shl | 0x04, 2 => two .shr | 0x04, 3 => two .sra
  | 0x05, 0 => two .rotl | 0x05, 1 => two .min | 0x05, 2 => two .max | 0x05, 3 => two .minn
  | 0x06, 0 => two .maxn | 0x06, 1 => two .slt | 0x06, 2 => two .sltn
  | 0x06, 3 => some ({ form2S with rx := .must }, .sel c.d c.cr c.b)
  | 0x07, 0 => two .setEq | 0x07, 1 => two .setNe | 0x07, 2 => two .setLt | 0x07, 3 => two .setGe
  | 0x08, 0 => two .setLtn | 0x08, 1 => two .setGen | 0x08, 2 => one .mov
  | 0x09, 0 => one .clz | 0x09, 1 => one .ctz | 0x09, 2 => one .ffs | 0x09, 3 => one .pop
  | 0x0A, 0 => one .sextB | 0x0A, 1 => one .sextH | 0x0A, 2 => one .sextW | 0x0A, 3 => one .bswap
  | 0x0B, 0 => one .zextB | 0x0B, 1 => one .zextH | 0x0B, 2 => one .zextW
  | 0x0C, 0 => match c.ix with
    | none => two .bext | some k => some ({ x := .w, c := .w, ix := .must }, .bextImm c.d c.a k)
  | 0x0C, 1 => match c.ix with
    | none => two .bins | some k => some ({ x := .w, c := .w, ix := .must }, .binsImm c.d c.a k)
  | 0x0D, _ => some (formImm, .addi c.d c.a c.simm)
  | 0x0E, _ => some ({ formImm with c := .none }, .li c.d c.simm)
  | 0x0F, _ => some ({ formImm with c := .none }, .lix c.d c.uimm)
  | 0x10, _ => some (formShift, .shli c.d c.a c.k6)
  | 0x11, _ => some (formShift, .shri c.d c.a c.k6)
  | 0x12, _ => some (formShift, .srai c.d c.a c.k6)
  | 0x13, 0 => br .brEq | 0x13, 1 => br .brNe | 0x13, 2 => br .brLt | 0x13, 3 => br .brGe
  | 0x14, 0 => br .brLtn | 0x14, 1 => br .brGen
  | 0x15, _ => some ({ fmt := .i10, ix := .may, rx := .no }, .jmp c.joff)
  | 0x16, _ => some ({ fmt := .i10, ix := .may, rx := .no }, .jal c.joff)
  | 0x17, _ => match c.k6.toNat with
    | 0 => some ({ fmt := .rf, x := .w }, .jr c.d) | 1 => some ({ fmt := .rf }, .ret) | _ => none
  | 0x18, _ => mem .ld | 0x19, _ => mem .ldn | 0x1A, _ => mem .st
  | 0x1B, _ => memx .ldx | 0x1C, _ => memx .ldxn | 0x1D, _ => memx .stx
  | 0x1E, _ => match c.m.toNat with
    | 0 => if c.f == 0 then some ({ formXY with ix := .may }, .lea c.d c.b c.k11) else none
    | 1 => some ({ formMemX with ix := .may }, .leaIndexed (Size.ofBits c.f) c.d c.b c.cr c.k11)
    | _ => none
  | 0x1F, 0 => some ({ y := .w, ix := .may }, .pref c.b c.k11)
  | 0x1F, 1 => some ({ y := .w, ix := .may }, .cflush c.b c.k11)
  | 0x20, _ => block .ldpk | 0x21, _ => block .stpk
  | _, _ => none

/-- Page 1 (02, Table 2.9, R52). -/
def decode1 (c : Chain) : Read :=
  let xy (k : Reg → Reg → Instr) : Read := some (formXY, k c.d c.b)
  let x1 (k : Reg → Instr) : Read := some (formX, k c.d)
  let amo (k : Cell → Ord → Scope → Reg → Reg → Reg → Instr) (sz : Cell) : Read :=
    (Scope.ofCode c.m.toNat).map fun s => (formAmo, k sz (Ord.ofBits c.f) s c.d c.b c.cr)
  let amos (sz : Cell) : Read :=
    match c.fn.toNat with
    | 0 => amo .amoAdd sz | 1 => amo .amoAnd sz | 2 => amo .amoOr sz | 3 => amo .amoXor sz
    | 4 => amo .amoMin sz | 5 => amo .amoMax sz | 6 => amo .amoMinn sz | 7 => amo .amoMaxn sz
    | 8 => amo .amoSwap sz | 9 => amo .amoCas sz
    | 10 => if sz == .word then amo (fun _ => .amoFadd) sz else none
    | 11 => if sz == .double then amo (fun _ => .amoXadd) sz else none
    | _ => none
  let lr (k : Ord → Scope → Reg → Reg → Instr) : Read :=
    if c.fn.toNat < 4 then
      (Scope.ofCode c.m.toNat).map fun s => (formLr, k (Ord.ofBits (c.fn.extractLsb' 0 2)) s c.d c.b)
    else none
  let sc (k : Ord → Scope → Reg → Reg → Reg → Instr) : Read :=
    if c.fn.toNat < 4 then
      (Scope.ofCode c.m.toNat).map fun s => (formAmo, k (Ord.ofBits (c.fn.extractLsb' 0 2)) s c.d c.b c.cr)
    else none
  let fence (k : Option Reg → Scope → Instr) : Read :=
    match c.y.toNat with
    | 0 => (Scope.ofCode c.m.toNat).map fun s => (formFence c.y, k none s)
    | 1 => (Scope.ofCode c.m.toNat).map fun s => (formFence c.y, k (some c.d) s)
    | _ => none
  match c.op.toNat, c.f.toNat with
  | 0x00, _ => match c.k10.toNat with
    | 0 => some (formBare, .tend) | 1 => some (formBare, .yield) | 2 => some (formBare, .pubf)
    | 3 => some (formBare, .hend) | _ => none
  | 0x01, _ => match c.k6.toNat with
    | 0 => some ({ fmt := .rf, x := .w }, .spawn c.d) | 1 => some ({ fmt := .rf, x := .w }, .sync c.d) | _ => none
  | 0x02, 0 => some ({ x := .w, y := .w, z := .w, c := .w, rx := .must }, .rfork c.d c.b c.zr c.cr)
  | 0x03, 0 => xy .tfanDie | 0x03, 1 => xy .tfanQuire | 0x03, 2 => xy .tfanCore
  | 0x04, 0 => (Scope.ofCode c.m.toNat).map fun s => (formMemX, .kinitCont c.d c.b c.cr s)
  | 0x04, 1 => if c.k11.toNat ≤ 95 then
      (Scope.ofCode c.m.toNat).map fun s =>
        ({ formMemX with ix := .must }, .kinitReady c.d c.b c.cr (c.k11.extractLsb' 0 7) s)
    else none
  | 0x05, 0 => x1 .kdec | 0x05, 1 => xy .kadd
  | 0x08, 0 => xy .send | 0x08, 1 => xy .reply
  | 0x09, _ => (Filter.ofBits c.f).map fun f => (formX, .recv f c.d)
  | 0x0A, _ => (Filter.ofBits c.f).map fun f => ({ rx := .no }, .wmsg f)
  | 0x0C, 0 => some ({ form2S with rx := .must }, .hstart c.d c.b c.cr)
  | 0x0D, 0 => xy .hjoin
  | 0x10, 0 => some ({ form2S with rx := .must }, .wlPush c.d c.b c.cr)
  | 0x10, 1 => xy .wlPop | 0x10, 2 => xy .wlLow | 0x10, 3 => xy .wlDone
  | 0x11, 0 => xy .donate | 0x11, 1 => xy .claim
  | 0x12, 0 => xy .cinc | 0x12, 1 => x1 .csnap | 0x12, 2 => x1 .csnapClr
  | 0x18, _ => amos .double | 0x19, _ => amos .word
  | 0x1A, 0 => lr .lrD | 0x1A, 1 => lr .lrW | 0x1A, 2 => sc .scD | 0x1A, 3 => sc .scW
  | 0x1B, 0 => fence .fence | 0x1B, 1 => fence .fenceAcq | 0x1B, 2 => fence .fenceRel
  | 0x1C, 0 => some ({}, .wrs) | 0x1C, 1 => xy .waitaddr
  | 0x1D, 0 => some ({ rx := .no }, .barQuire) | 0x1D, 1 => some ({ rx := .no }, .barDie)
  | 0x1D, 2 => some ({ rx := .no }, .barDev) | 0x1D, 3 => some ({ rx := .no }, .barSys)
  | _, _ => none

/-- Page 2 (02, Table 2.11; 08, R198 to R202, R214 to R216). -/
def decode2 (c : Chain) : Read :=
  let ty (k : IntTy → Read) : Read := match IntTy.ofBits c.fn with | some t => k t | none => none
  let v3 (k : IntTy → VReg → VReg → VReg → MReg → Instr) : Read :=
    ty fun t => some (formV3, k t c.d c.a c.b c.mask)
  let v2 (k : IntTy → VReg → VReg → MReg → Instr) : Read := ty fun t => some (formV2, k t c.d c.b c.mask)
  let v2s (k : IntTy → VReg → VReg → MReg → Instr) : Read :=
    ty fun t => if t.signed then some (formV2, k t c.d c.b c.mask) else none
  let vw (k : IntTy → Reg → VReg → MReg → Instr) : Read := ty fun t => some (formVW, k t c.d c.b c.mask)
  let cmp (k : IntTy → MReg → VReg → VReg → MReg → Instr) : Read :=
    ty fun t => (mreg c.x).map fun d => (formVC, k t d c.a c.b c.mask)
  let vmem (k : IntTy → VReg → Reg → BitVec 11 → MReg → Instr) : Read :=
    ty fun t => some ({ x := .v, y := .w, m := true, fn := true, ix := .may }, k t c.d c.b c.k11 c.mask)
  let vmemx (k : IntTy → VReg → Reg → VReg → MReg → Instr) : Read :=
    ty fun t => if t.lane != 4 then
      some ({ x := .v, y := .w, c := .v, m := true, fn := true, rx := .must }, k t c.d c.b c.cr c.mask) else none
  let m3 (k : MReg → MReg → MReg → Instr) : Read :=
    match mreg c.x, mreg (if c.rx then c.c else c.x), mreg c.y with
    | some d, some a, some b => some (formM3, k d a b)
    | _, _, _ => none
  let m2 (k : MReg → MReg → Instr) : Read :=
    match mreg c.x, mreg c.y with | some d, some b => some (formM2, k d b) | _, _ => none
  let mw (k : IntTy → Reg → MReg → Instr) : Read :=
    ty fun t => (mreg c.y).map fun b => (formMW, k t c.d b)
  match c.op.toNat, c.f.toNat with
  | 0x00, 0 => v3 .vadd | 0x00, 1 => v3 .vsub | 0x00, 2 => v3 .vmul | 0x00, 3 => v3 .vmulh
  | 0x01, 0 => v3 .vadds | 0x01, 1 => v3 .vsubs | 0x01, 2 => v2s .vabs | 0x01, 3 => v2s .vneg
  | 0x02, 0 => v3 .vmin | 0x02, 1 => v3 .vmax | 0x02, 2 => v3 .vmac | 0x02, 3 => v3 .vmacs
  | 0x03, 0 => v3 .vshl | 0x03, 1 => v3 .vshr | 0x03, 2 => v3 .vsra | 0x03, 3 => v3 .vrotl
  | 0x04, 0 => v3 .vand | 0x04, 1 => v3 .vor | 0x04, 2 => v3 .vxor | 0x04, 3 => v3 .vandn
  | 0x05, 0 => v2 .vnot | 0x05, 1 => v2 .vmov
  | 0x05, 2 => ty fun t => some ({ x := .v, y := .w, m := true, fn := true }, .vbcast t c.d c.b c.mask)
  | 0x05, 3 => ty fun t => (mreg c.z).map fun z => ({ formV3 with z := .other }, .vsel t c.d c.a c.b z c.mask)
  | 0x06, 0 => v2 .vclz | 0x06, 1 => v2 .vctz | 0x06, 2 => v2 .vffs | 0x06, 3 => v2 .vpop
  | 0x07, 0 => cmp .vcmpEq | 0x07, 1 => cmp .vcmpNe | 0x07, 2 => cmp .vcmpLt | 0x07, 3 => cmp .vcmpGe
  | 0x08, 0 => ty fun t => if c.k11.toNat < t.lanes then
      some ({ x := .w, y := .v, fn := true, ix := .must }, .vext t c.d c.b c.k11) else none
  | 0x08, 1 => ty fun t => if c.k11.toNat < t.lanes then
      some ({ x := .v, y := .w, fn := true, ix := .must }, .vins t c.d c.b c.k11) else none
  | 0x08, 2 => v3 .vperm
  | 0x08, 3 => ty fun t => if c.k11.toInt.natAbs ≤ t.lanes then
      some ({ formV3 with ix := .must }, .vslide t c.d c.a c.b c.k11 c.mask) else none
  | 0x09, 0 => vw .vredsum | 0x09, 1 => vw .vredmin | 0x09, 2 => vw .vredmax | 0x09, 3 => v2 .vscan
  | 0x0C, 0 => vmem .vld | 0x0C, 1 => vmem .vst | 0x0C, 2 => vmemx .vldx | 0x0C, 3 => vmemx .vstx
  | 0x0D, 0 => m3 .mand | 0x0D, 1 => m3 .mor | 0x0D, 2 => m3 .mxor | 0x0D, 3 => m3 .mandn
  | 0x0E, 0 => m2 .mnot | 0x0E, 1 => m2 .mmov | 0x0E, 2 => mw .mpop | 0x0E, 3 => mw .mffs
  | _, _ => none

/-- Page 3 (02, Table 2.12; 08, R206 to R213). -/
def decode3 (c : Chain) : Read :=
  let ty (k : FloatTy → Read) : Read := match FloatTy.ofBits c.fn with | some t => k t | none => none
  let rm (k : FloatTy → Option Rounding → Read) : Read :=
    ty fun t => match roundingOf c.ix with | some r => k t r | none => none
  let v3r (k : FloatTy → VReg → VReg → VReg → MReg → Option Rounding → Instr) : Read :=
    rm fun t r => some (formV3R, k t c.d c.a c.b c.mask r)
  let fma (k : FloatTy → VReg → VReg → VReg → VReg → MReg → Option Rounding → Instr) : Read :=
    rm fun t r => some (formFma, k t c.d c.a c.b c.zr c.mask r)
  let v2r (k : FloatTy → VReg → VReg → MReg → Option Rounding → Instr) : Read :=
    rm fun t r => some (formV2R, k t c.d c.b c.mask r)
  let vwr (k : FloatTy → Reg → VReg → MReg → Option Rounding → Instr) : Read :=
    rm fun t r => some (formVWR, k t c.d c.b c.mask r)
  let cmp (k : FloatTy → MReg → VReg → VReg → MReg → Instr) : Read :=
    ty fun t => (mreg c.x).map fun d => (formVC, k t d c.a c.b c.mask)
  let pack (k : FloatTy → VReg → VReg → VReg → Option Rounding → Instr) : Read :=
    rm fun t r => if t = .f32 then none else some ({ formV3R with m := false }, k t c.d c.a c.b r)
  let zlow : BitVec 4 := c.z.extractLsb' 0 4
  match c.op.toNat, c.f.toNat with
  | 0x00, 0 => v3r .vfadd | 0x00, 1 => v3r .vfsub | 0x00, 2 => v3r .vfmul | 0x00, 3 => v3r .vfdiv
  | 0x01, 0 => fma .vfma | 0x01, 1 => fma .vfms | 0x01, 2 => fma .vfnma | 0x01, 3 => fma .vfnms
  | 0x02, 0 => ty fun t => some (formV3, .vfmin t c.d c.a c.b c.mask)
  | 0x02, 1 => ty fun t => some (formV3, .vfmax t c.d c.a c.b c.mask)
  | 0x02, 2 => ty fun t => some (formV2, .vfabs t c.d c.b c.mask)
  | 0x02, 3 => ty fun t => some (formV2, .vfneg t c.d c.b c.mask)
  | 0x03, 0 => v2r .vfsqrt | 0x03, 1 => v2r .vfrcp
  | 0x04, 0 => cmp .vfcmpEq | 0x04, 1 => cmp .vfcmpLt | 0x04, 2 => cmp .vfcmpLe | 0x04, 3 => cmp .vfcmpUn
  | 0x05, 0 => vwr .vfredsum | 0x05, 1 => vwr .vfredmin | 0x05, 2 => vwr .vfredmax | 0x05, 3 => v2r .vfscan
  | 0x06, 0 => rm fun t r => (FloatTy.ofBits zlow).map fun s => (formCvt, .vcvtFf t s c.d c.b c.mask r)
  | 0x06, 1 => match IntTy.ofBits c.fn, FloatTy.ofBits zlow, roundingOf c.ix with
    | some t, some s, some r => some (formCvt, .vcvtFi t s c.d c.b c.mask r)
    | _, _, _ => none
  | 0x06, 2 => rm fun t r => (IntTy.ofBits zlow).map fun s => (formCvt, .vcvtIf t s c.d c.b c.mask r)
  | 0x07, 0 => pack .vpack | 0x07, 1 => pack .vunpack
  | 0x08, 0 => if c.d = c.b then none else some ({ x := .v, y := .v, m := true }, .vrng c.d c.b c.mask)
  | _, _ => none

/-- Page 4 (02, Table 2.13). The six conduit operations of 09, Table 9.7, share one encoding: which of them it
is stands in wa[3:0] when the instruction issues. -/
def decode4 (c : Chain) : Read :=
  let x1 (k : Reg → Instr) : Read := some (formX, k c.d)
  match c.op.toNat, c.f.toNat with
  | 0x00, 0 => x1 .mcfg
  | 0x01, 0 => (reg4 c.x).map fun a => ({ x := .other, rx := .no }, .mzero a)
  | 0x02, 0 => (reg4 c.x).map fun a => ({ x := .other, y := .w, c := .w, rx := .must }, .mmac a c.cr c.b)
  | 0x02, 1 => (reg4 c.x).map fun a => ({ x := .other, y := .w, c := .w, rx := .must }, .msmac a c.cr c.b)
  | 0x03, 0 => (reg4 c.x).map fun a => (formAW, .mrect a c.b)
  | 0x04, 0 => (reg4 c.z).map fun a => (formRow, .mrowRd c.d c.b a)
  | 0x04, 1 => (reg4 c.z).map fun a => (formRow, .mrowWr c.d c.b a)
  | 0x05, 0 => (reg4 c.x).map fun a => (formAW, .mscale a c.b)
  | 0x05, 1 => x1 .mstat
  | 0x08, 0 => x1 .cp | 0x08, 1 => x1 .cpm | 0x08, 2 => x1 .cpc | 0x08, 3 => x1 .cpw
  | 0x09, _ => if c.k10 == 0#10 then some (formBare, .cpfence) else none
  | 0x0A, 0 => (reg4 c.x).map fun k => (formAW, .cdcfgConfigure k c.b)
  | 0x0C, _ => if 1 ≤ c.k6.toNat && c.k6.toNat ≤ 16 then some (formCsr, .rep c.d c.k6) else none
  | 0x0D, _ => if 1 ≤ c.k6.toNat && c.k6.toNat ≤ 16 then some (formCsr, .repx c.d c.k6) else none
  | _, _ => none

/-- Page 5 (02, Table 2.14). -/
def decode5 (c : Chain) : Read :=
  let xy (k : Reg → Reg → Instr) : Read := some (formXY, k c.d c.b)
  match c.op.toNat, c.f.toNat with
  | 0x00, 0 => some (formX, .phBegin c.d) | 0x00, 1 => some ({}, .phEnd)
  | 0x01, 0 => (Port.ofBits c.y).map fun p => ({ x := .w, y := .other }, .tx c.d p)
  | 0x01, 1 => match Port.ofBits c.x, Port.ofBits c.y with
    | some o, some i => some (formM2, .mux o i) | _, _ => none
  | 0x01, 2 => (Port.ofBits c.y).map fun p => ({ x := .w, y := .other }, .rxw c.d p)
  | 0x04, 0 => some (formX, .gload c.d) | 0x04, 1 => xy .gstep | 0x04, 2 => xy .gmask
  | 0x04, 3 => some (formX, .gstate c.d)
  | 0x05, 0 => xy .sampF32 | 0x05, 1 => xy .sampBf16
  | _, _ => none

/-- Page 6 (02, Table 2.15). -/
def decode6 (c : Chain) : Read :=
  let xy (k : Reg → Reg → Instr) : Read := some (formXY, k c.d c.b)
  match c.op.toNat, c.f.toNat with
  | 0x00, _ => match c.k10.toNat with
    | 1 => some (formBare, .rti) | 2 => some (formBare, .upret) | 3 => some (formBare, .idle)
    | 4 => some (formBare, .halt) | _ => none
  | 0x01, _ => some ({ fmt := .ri, ix := .may, rx := .no }, .trap c.uimm)
  | 0x02, _ => some (formCsr, .csrr c.d c.k6) | 0x03, _ => some (formCsr, .csrw c.d c.k6)
  | 0x04, _ => some (formCsr, .csrs c.d c.k6) | 0x05, _ => some (formCsr, .csrc c.d c.k6)
  | 0x06, 0 => some ({}, .tlbinvAll) | 0x06, 1 => some ({ y := .w }, .tlbinvVa c.b)
  | 0x08, 0 => xy .bdef | 0x08, 1 => xy .bshare | 0x08, 2 => xy .bresize | 0x08, 3 => xy .bquery
  | _, _ => none

/-- The form and the instruction of a chain before its fields are checked. -/
def decodePage (c : Chain) : Read :=
  match c.page.toNat with
  | 0 => decode0 c | 1 => decode1 c | 2 => decode2 c | 3 => decode3 c
  | 4 => decode4 c | 5 => decode5 c | 6 => decode6 c | _ => none

/-- The instruction of a chain; every other encoding is refused (02, R55). -/
def decodeForm (c : Chain) : Read :=
  match decodePage c with
  | some (g, i) => if g.ok c then some (g, i) else none
  | none => none

/-- The instruction of a chain. -/
def decodeChain (c : Chain) : Option Instr := (decodeForm c).map (·.2)

/-- A helper may run the instruction: pages 2 to 4 and 6 are barred to it, and so are w16 to w31 (01, R10; 02, R43). -/
def helperMay (c : Chain) : Bool :=
  match decodeForm c with
  | some (g, _) => (c.page == 0 || c.page == 1 || c.page == 5) && g.lowRegs c
  | none => false

/-- The words of a chain read in address order, with how many words it took (02, R37, R56). -/
def parseWords : Nat → Prefixes → List Base → Option (Chain × Nat)
  | _, _, [] => none
  | n, p, w :: ws =>
    match p.read w with
    | .bad => none
    | .done c => some (c, n + 1)
    | .more q => parseWords (n + 1) q ws

/-- The instruction that a list of words begins with, and the number of its words. -/
def decodeWords (ws : List Base) : Option (Instr × Nat) :=
  match parseWords 0 .none ws with
  | some (c, n) => (decodeChain c).map fun i => (i, n)
  | none => none

/-- The chain with each marked field moved on by `k` strides, modulo 32 (02, R47). -/
def Chain.advance (c : Chain) (k : Nat) : Chain :=
  match c.sc with
  | some s =>
    if s.extractLsb' 9 2 == 2#2 then
      let move (on : Bool) (r : BitVec 5) : BitVec 5 :=
        if on then r + BitVec.ofNat 5 k * s.extractLsb' 4 5 else r
      { c with x := move (c.adv.getLsbD 0) c.x, y := move (c.adv.getLsbD 1) c.y
               z := move (c.adv.getLsbD 2) c.z, c := move (c.adv.getLsbD 3) c.c }
    else c
  | none => c

/-! ### The encoder -/

/-- A chain of one word with nothing in its fields. -/
def Chain.plain (page op f : Nat) : Chain :=
  { page := BitVec.ofNat 3 page, fn := 0, z := 0, rx := false, c := 0, m := 0, ix := none, sc := none
    op := BitVec.ofNat 6 op, x := 0, y := 0, f := BitVec.ofNat 2 f }

/-- RX stands where the form requires it or a field does not fit without it (03, R70). -/
def Chain.needRx (c : Chain) (forced : Bool) : Chain :=
  { c with rx := forced || 16 ≤ c.x.toNat || 16 ≤ c.y.toNat || 16 ≤ c.z.toNat || c.c != 0 || c.m != 0 }

/-- A form whose first source is named by C when RX is present and by X when it is not (02, R48; 03, R70). -/
def Chain.source (c : Chain) (d a b : Fin 32) : Chain :=
  let need := a != d || 16 ≤ d.val || 16 ≤ b.val || 16 ≤ c.z.toNat || c.m != 0
  { c with x := bits5 d, y := bits5 b, rx := need, c := if need then bits5 a else 0 }

/-- The base word's low fields from a six-bit and from a ten-bit value. -/
def Chain.low6 (c : Chain) (k : BitVec 6) : Chain :=
  { c with y := (k.extractLsb' 2 4).zeroExtend 5, f := k.extractLsb' 0 2 }
def Chain.low10 (c : Chain) (k : BitVec 10) : Chain :=
  { c with x := (k.extractLsb' 6 4).zeroExtend 5, y := (k.extractLsb' 2 4).zeroExtend 5, f := k.extractLsb' 0 2 }
/-- An offset in IX; a zero offset emits none (03, R65). -/
def Chain.offset (c : Chain) (k : BitVec 11) : Chain := if k == 0 then c else { c with ix := some k }
/-- A signed and an unsigned immediate of format RI, with IX where the base bits do not hold it (03, R70). -/
def Chain.signed17 (c : Chain) (k : BitVec 17) : Chain :=
  let l := k.extractLsb' 0 6
  if l.signExtend 17 == k then c.low6 l else { c.low6 l with ix := some (k.extractLsb' 6 11) }
def Chain.unsigned17 (c : Chain) (k : BitVec 17) : Chain :=
  let l := k.extractLsb' 0 6
  if l.zeroExtend 17 == k then c.low6 l else { c.low6 l with ix := some (k.extractLsb' 6 11) }
def Chain.jump (c : Chain) (k : BitVec 21) : Chain :=
  let l := k.extractLsb' 0 10
  if l.signExtend 21 == k then c.low10 l else { c.low10 l with ix := some (k.extractLsb' 10 11) }

/-- Two registers in X and Y. -/
def encXY (page op f : Nat) (x y : Fin 32) : Chain :=
  ({ Chain.plain page op f with x := bits5 x, y := bits5 y } : Chain).needRx false
/-- X, Y and C, with RX required. -/
def encXYC (page op f : Nat) (x y c : Fin 32) : Chain :=
  ({ Chain.plain page op f with x := bits5 x, y := bits5 y, c := bits5 c } : Chain).needRx true
/-- Three registers of page 0 with the first source in C or X. -/
def enc2S (op f : Nat) (d a b : Fin 32) : Chain := (Chain.plain 0 op f).source d a b
/-- Loads and stores with an offset. -/
def encMem (op : Nat) (f : BitVec 2) (d b : Reg) (off : BitVec 11) (r : Request) : Chain :=
  (({ Chain.plain 0 op 0 with f := f, x := bits5 d, y := bits5 b, m := r.code } : Chain).needRx false).offset off
/-- Loads and stores with an index. -/
def encMemX (op : Nat) (sz : Size) (d b c : Reg) (r : Request) : Chain :=
  { encXYC 0 op 0 d b c with f := sz.code, m := r.code }
/-- A branch: IX is required. -/
def encBr (op f : Nat) (a b : Reg) (k : BitVec 11) : Chain := { encXY 0 op f a b with ix := some k }
/-- An immediate form with its source in C or X. -/
def encShift (op : Nat) (d a : Reg) (k : BitVec 6) : Chain := ((Chain.plain 0 op 0).source d a 0).low6 k
/-- `amo` and `sc`. -/
def encAmo (op : Nat) (f : BitVec 2) (fn : BitVec 4) (sc : Scope) (d a b : Reg) : Chain :=
  { encXYC 1 op 0 d a b with f := f, fn := fn, m := sc.code }
def encAmoCell (k : Nat) (sz : Cell) (o : Ord) (sc : Scope) (d a b : Reg) : Chain :=
  encAmo (match sz with | .double => 0x18 | .word => 0x19) o.code (BitVec.ofNat 4 k) sc d a b
/-- `lr`. -/
def encLr (f : Nat) (o : Ord) (sc : Scope) (d a : Reg) : Chain :=
  ({ Chain.plain 1 0x1A f with x := bits5 d, y := bits5 a, m := sc.code, fn := o.code.zeroExtend 4 } : Chain).needRx false
/-- Fences. -/
def encFence (f : Nat) (st : Option Reg) (sc : Scope) : Chain :=
  match st with
  | none => ({ Chain.plain 1 0x1B f with m := sc.code } : Chain).needRx false
  | some d => ({ Chain.plain 1 0x1B f with x := bits5 d, y := 1, m := sc.code } : Chain).needRx false
/-- Vector forms with three, with two, and with two registers of other classes. -/
def encV3 (page op f : Nat) (fn : BitVec 4) (d a b : Fin 32) (m : MReg) : Chain :=
  ({ Chain.plain page op f with fn := fn, m := BitVec.ofFin m } : Chain).source d a b
def encV2 (page op f : Nat) (fn : BitVec 4) (d b : Fin 32) (m : MReg) : Chain :=
  ({ Chain.plain page op f with fn := fn, x := bits5 d, y := bits5 b, m := BitVec.ofFin m } : Chain).needRx false
def encFma (f : Nat) (fn : BitVec 4) (d a b c : VReg) (m : MReg) : Chain :=
  { encXYC 3 0x01 f d b a with fn := fn, z := bits5 c, m := BitVec.ofFin m }
def encCvt (f : Nat) (fn src : BitVec 4) (d b : VReg) (m : MReg) : Chain :=
  { encV2 3 0x06 f fn d b m with z := src.zeroExtend 5 }
def encRm (c : Chain) (r : Option Rounding) : Chain := { c with ix := r.map Rounding.code }
def small (n : Nat) : Fin 32 := Fin.ofNat 32 n
def encAW (op f : Nat) (c : Fin 4) (a : Reg) : Chain := encXY 4 op f (small c.val) a
def encX (page op f : Nat) (x : Reg) : Chain := encXY page op f x 0

/-- The chain of an instruction, with the prefixes that it cannot do without (03, R70); none for the steps of the
part that have no encoding. -/
def encodeChain : Instr → Option Chain
  | .nop => some ((Chain.plain 0 0 0).low10 1)
  | .add d a b => some (enc2S 0x01 0 d a b)
  | .sub d a b => some (enc2S 0x01 1 d a b)
  | .mul d a b => some (enc2S 0x01 2 d a b)
  | .mulh d a b => some (enc2S 0x01 3 d a b)
  | .mulhn d a b => some (enc2S 0x02 0 d a b)
  | .div d a b => some (enc2S 0x02 1 d a b)
  | .divn d a b => some (enc2S 0x02 2 d a b)
  | .rem d a b => some (enc2S 0x02 3 d a b)
  | .remn d a b => some (enc2S 0x03 0 d a b)
  | .and d a b => some (enc2S 0x03 1 d a b)
  | .or d a b => some (enc2S 0x03 2 d a b)
  | .xor d a b => some (enc2S 0x03 3 d a b)
  | .andn d a b => some (enc2S 0x04 0 d a b)
  | .shl d a b => some (enc2S 0x04 1 d a b)
  | .shr d a b => some (enc2S 0x04 2 d a b)
  | .sra d a b => some (enc2S 0x04 3 d a b)
  | .rotl d a b => some (enc2S 0x05 0 d a b)
  | .min d a b => some (enc2S 0x05 1 d a b)
  | .max d a b => some (enc2S 0x05 2 d a b)
  | .minn d a b => some (enc2S 0x05 3 d a b)
  | .maxn d a b => some (enc2S 0x06 0 d a b)
  | .slt d a b => some (enc2S 0x06 1 d a b)
  | .sltn d a b => some (enc2S 0x06 2 d a b)
  | .setEq d a b => some (enc2S 0x07 0 d a b)
  | .setNe d a b => some (enc2S 0x07 1 d a b)
  | .setLt d a b => some (enc2S 0x07 2 d a b)
  | .setGe d a b => some (enc2S 0x07 3 d a b)
  | .setLtn d a b => some (enc2S 0x08 0 d a b)
  | .setGen d a b => some (enc2S 0x08 1 d a b)
  | .bext d a b => some (enc2S 0x0c 0 d a b)
  | .bins d a b => some (enc2S 0x0c 1 d a b)
  | .sel d a b => some { encXYC 0 0x06 3 d b a with rx := true }
  | .mov d a => some (encXY 0 0x08 2 d a)
  | .clz d a => some (encXY 0 0x09 0 d a)
  | .ctz d a => some (encXY 0 0x09 1 d a)
  | .ffs d a => some (encXY 0 0x09 2 d a)
  | .pop d a => some (encXY 0 0x09 3 d a)
  | .sextB d a => some (encXY 0 0x0a 0 d a)
  | .sextH d a => some (encXY 0 0x0a 1 d a)
  | .sextW d a => some (encXY 0 0x0a 2 d a)
  | .bswap d a => some (encXY 0 0x0a 3 d a)
  | .zextB d a => some (encXY 0 0x0b 0 d a)
  | .zextH d a => some (encXY 0 0x0b 1 d a)
  | .zextW d a => some (encXY 0 0x0b 2 d a)
  | .bextImm d a k => some { enc2S 0x0C 0 d a 0 with ix := some k }
  | .binsImm d a k => some { enc2S 0x0C 1 d a 0 with ix := some k }
  | .addi d a k => some (((Chain.plain 0 0x0D 0).source d a 0).signed17 k)
  | .li d k => some ((encX 0 0x0E 0 d).signed17 k)
  | .lix d k => some ((encX 0 0x0F 0 d).unsigned17 k)
  | .shli d a k => some (encShift 0x10 d a k)
  | .shri d a k => some (encShift 0x11 d a k)
  | .srai d a k => some (encShift 0x12 d a k)
  | .brEq a b k => some (encBr 0x13 0 a b k)
  | .brNe a b k => some (encBr 0x13 1 a b k)
  | .brLt a b k => some (encBr 0x13 2 a b k)
  | .brGe a b k => some (encBr 0x13 3 a b k)
  | .brLtn a b k => some (encBr 0x14 0 a b k)
  | .brGen a b k => some (encBr 0x14 1 a b k)
  | .jmp k => some ((Chain.plain 0 0x15 0).jump k)
  | .jal k => some ((Chain.plain 0 0x16 0).jump k)
  | .jr a => some (encX 0 0x17 0 a)
  | .ret => some ((Chain.plain 0 0x17 0).low6 1)
  | .ld sz d b off r => some (encMem 0x18 sz.code d b off r)
  | .ldn sz d b off r => some (encMem 0x19 sz.code d b off r)
  | .st sz d b off r => some (encMem 0x1a sz.code d b off r)
  | .ldx sz d b c r => some (encMemX 0x1b sz d b c r)
  | .ldxn sz d b c r => some (encMemX 0x1c sz d b c r)
  | .stx sz d b c r => some (encMemX 0x1d sz d b c r)
  | .lea d b off => some ((encXY 0 0x1E 0 d b).offset off)
  | .leaIndexed sz d b c off => some (({ encXYC 0 0x1E 0 d b c with f := sz.code, m := 1 } : Chain).offset off)
  | .pref b off => some ((encXY 0 0x1F 0 0 b).offset off)
  | .cflush b off => some ((encXY 0 0x1F 1 0 b).offset off)
  | .ldpk f d b off r => some (encMem 0x20 f.code d b off r)
  | .stpk f d b off r => some (encMem 0x21 f.code d b off r)
  | .tend => some ((Chain.plain 1 0 0).low10 0)
  | .yield => some ((Chain.plain 1 0 0).low10 1)
  | .pubf => some ((Chain.plain 1 0 0).low10 2)
  | .hend => some ((Chain.plain 1 0 0).low10 3)
  | .spawn a => some (encX 1 0x01 0 a)
  | .sync k => some (({ Chain.plain 1 0x01 1 with x := bits5 k } : Chain).needRx false)
  | .rfork d a b c => some (({ Chain.plain 1 0x02 0 with x := bits5 d, y := bits5 a, z := bits5 b, c := bits5 c } : Chain).needRx true)
  | .tfanDie a b => some (encXY 1 0x03 0 a b)
  | .tfanQuire a b => some (encXY 1 0x03 1 a b)
  | .tfanCore a b => some (encXY 1 0x03 2 a b)
  | .kadd a b => some (encXY 1 0x05 1 a b)
  | .send a b => some (encXY 1 0x08 0 a b)
  | .reply a b => some (encXY 1 0x08 1 a b)
  | .hjoin a b => some (encXY 1 0x0d 0 a b)
  | .wlPop a b => some (encXY 1 0x10 1 a b)
  | .wlLow a b => some (encXY 1 0x10 2 a b)
  | .wlDone a b => some (encXY 1 0x10 3 a b)
  | .donate a b => some (encXY 1 0x11 0 a b)
  | .claim a b => some (encXY 1 0x11 1 a b)
  | .cinc a b => some (encXY 1 0x12 0 a b)
  | .waitaddr a b => some (encXY 1 0x1c 1 a b)
  | .kinitCont k a b sc => some { encXYC 1 0x04 0 k a b with m := sc.code }
  | .kinitReady k a b home sc => some { encXYC 1 0x04 1 k a b with m := sc.code, ix := some (home.zeroExtend 11) }
  | .kdec k => some (encX 1 0x05 0 k)
  | .recv f a => some { encX 1 0x09 0 a with f := f.code }
  | .wmsg f => some { Chain.plain 1 0x0A 0 with f := f.code }
  | .hstart d a b => some (encXYC 1 0x0C 0 d a b)
  | .wlPush q a b => some (encXYC 1 0x10 0 q a b)
  | .csnap a => some (encX 1 0x12 1 a)
  | .csnapClr a => some (encX 1 0x12 2 a)
  | .amoAdd sz o sc d a b => some (encAmoCell 0 sz o sc d a b)
  | .amoAnd sz o sc d a b => some (encAmoCell 1 sz o sc d a b)
  | .amoOr sz o sc d a b => some (encAmoCell 2 sz o sc d a b)
  | .amoXor sz o sc d a b => some (encAmoCell 3 sz o sc d a b)
  | .amoMin sz o sc d a b => some (encAmoCell 4 sz o sc d a b)
  | .amoMax sz o sc d a b => some (encAmoCell 5 sz o sc d a b)
  | .amoMinn sz o sc d a b => some (encAmoCell 6 sz o sc d a b)
  | .amoMaxn sz o sc d a b => some (encAmoCell 7 sz o sc d a b)
  | .amoSwap sz o sc d a b => some (encAmoCell 8 sz o sc d a b)
  | .amoCas sz o sc d a b => some (encAmoCell 9 sz o sc d a b)
  | .amoFadd o sc d a b => some (encAmoCell 10 .word o sc d a b)
  | .amoXadd o sc d a b => some (encAmoCell 11 .double o sc d a b)
  | .lrD o sc d a => some (encLr 0 o sc d a)
  | .lrW o sc d a => some (encLr 1 o sc d a)
  | .scD o sc d a b => some (encAmo 0x1A 2 (o.code.zeroExtend 4) sc d a b)
  | .scW o sc d a b => some (encAmo 0x1A 3 (o.code.zeroExtend 4) sc d a b)
  | .fence st sc => some (encFence 0 st sc)
  | .fenceAcq st sc => some (encFence 1 st sc)
  | .fenceRel st sc => some (encFence 2 st sc)
  | .wrs => some (Chain.plain 1 0x1C 0)
  | .barQuire => some (Chain.plain 1 0x1D 0)
  | .barDie => some (Chain.plain 1 0x1D 1)
  | .barDev => some (Chain.plain 1 0x1D 2)
  | .barSys => some (Chain.plain 1 0x1D 3)
  | .vadd t d a b m => some (encV3 2 0x00 0 t.code d a b m)
  | .vsub t d a b m => some (encV3 2 0x00 1 t.code d a b m)
  | .vmul t d a b m => some (encV3 2 0x00 2 t.code d a b m)
  | .vmulh t d a b m => some (encV3 2 0x00 3 t.code d a b m)
  | .vadds t d a b m => some (encV3 2 0x01 0 t.code d a b m)
  | .vsubs t d a b m => some (encV3 2 0x01 1 t.code d a b m)
  | .vmin t d a b m => some (encV3 2 0x02 0 t.code d a b m)
  | .vmax t d a b m => some (encV3 2 0x02 1 t.code d a b m)
  | .vmac t d a b m => some (encV3 2 0x02 2 t.code d a b m)
  | .vmacs t d a b m => some (encV3 2 0x02 3 t.code d a b m)
  | .vshl t d a b m => some (encV3 2 0x03 0 t.code d a b m)
  | .vshr t d a b m => some (encV3 2 0x03 1 t.code d a b m)
  | .vsra t d a b m => some (encV3 2 0x03 2 t.code d a b m)
  | .vrotl t d a b m => some (encV3 2 0x03 3 t.code d a b m)
  | .vand t d a b m => some (encV3 2 0x04 0 t.code d a b m)
  | .vor t d a b m => some (encV3 2 0x04 1 t.code d a b m)
  | .vxor t d a b m => some (encV3 2 0x04 2 t.code d a b m)
  | .vandn t d a b m => some (encV3 2 0x04 3 t.code d a b m)
  | .vperm t d a b m => some (encV3 2 0x08 2 t.code d a b m)
  | .vabs t d b m => some (encV2 2 0x01 2 t.code d b m)
  | .vneg t d b m => some (encV2 2 0x01 3 t.code d b m)
  | .vnot t d b m => some (encV2 2 0x05 0 t.code d b m)
  | .vmov t d b m => some (encV2 2 0x05 1 t.code d b m)
  | .vbcast t d b m => some (encV2 2 0x05 2 t.code d b m)
  | .vclz t d b m => some (encV2 2 0x06 0 t.code d b m)
  | .vctz t d b m => some (encV2 2 0x06 1 t.code d b m)
  | .vffs t d b m => some (encV2 2 0x06 2 t.code d b m)
  | .vpop t d b m => some (encV2 2 0x06 3 t.code d b m)
  | .vredsum t d b m => some (encV2 2 0x09 0 t.code d b m)
  | .vredmin t d b m => some (encV2 2 0x09 1 t.code d b m)
  | .vredmax t d b m => some (encV2 2 0x09 2 t.code d b m)
  | .vscan t d b m => some (encV2 2 0x09 3 t.code d b m)
  | .vsel t d a b z m => some (({ Chain.plain 2 0x05 3 with fn := t.code, z := bits5 (small z.val), m := BitVec.ofFin m } : Chain).source d a b)
  | .vcmpEq t d a b m => some (encV3 2 0x07 0 t.code (small d.val) a b m)
  | .vcmpNe t d a b m => some (encV3 2 0x07 1 t.code (small d.val) a b m)
  | .vcmpLt t d a b m => some (encV3 2 0x07 2 t.code (small d.val) a b m)
  | .vcmpGe t d a b m => some (encV3 2 0x07 3 t.code (small d.val) a b m)
  | .vext t d b k => some { encV2 2 0x08 0 t.code d b 0 with ix := some k }
  | .vins t d b k => some { encV2 2 0x08 1 t.code d b 0 with ix := some k }
  | .vslide t d a b k m => some { encV3 2 0x08 3 t.code d a b m with ix := some k }
  | .vld t v a off m => some ((encV2 2 0x0C 0 t.code v a m).offset off)
  | .vst t v a off m => some ((encV2 2 0x0C 1 t.code v a m).offset off)
  | .vldx t v a x m => some { encXYC 2 0x0C 2 v a x with fn := t.code, m := BitVec.ofFin m }
  | .vstx t v a x m => some { encXYC 2 0x0C 3 v a x with fn := t.code, m := BitVec.ofFin m }
  | .mand d a b => some ((Chain.plain 2 0x0D 0).source (small d.val) (small a.val) (small b.val))
  | .mor d a b => some ((Chain.plain 2 0x0D 1).source (small d.val) (small a.val) (small b.val))
  | .mxor d a b => some ((Chain.plain 2 0x0D 2).source (small d.val) (small a.val) (small b.val))
  | .mandn d a b => some ((Chain.plain 2 0x0D 3).source (small d.val) (small a.val) (small b.val))
  | .mnot d b => some (encXY 2 0x0E 0 (small d.val) (small b.val))
  | .mmov d b => some (encXY 2 0x0E 1 (small d.val) (small b.val))
  | .mpop t d b => some (encV2 2 0x0E 2 t.code d (small b.val) 0)
  | .mffs t d b => some (encV2 2 0x0E 3 t.code d (small b.val) 0)
  | .vfadd t d a b m r => some (encRm (encV3 3 0x00 0 t.code d a b m) r)
  | .vfsub t d a b m r => some (encRm (encV3 3 0x00 1 t.code d a b m) r)
  | .vfmul t d a b m r => some (encRm (encV3 3 0x00 2 t.code d a b m) r)
  | .vfdiv t d a b m r => some (encRm (encV3 3 0x00 3 t.code d a b m) r)
  | .vfma t d a b c m r => some (encRm (encFma 0 t.code d a b c m) r)
  | .vfms t d a b c m r => some (encRm (encFma 1 t.code d a b c m) r)
  | .vfnma t d a b c m r => some (encRm (encFma 2 t.code d a b c m) r)
  | .vfnms t d a b c m r => some (encRm (encFma 3 t.code d a b c m) r)
  | .vfmin t d a b m => some (encV3 3 0x02 0 t.code d a b m)
  | .vfmax t d a b m => some (encV3 3 0x02 1 t.code d a b m)
  | .vfabs t d b m => some (encV2 3 0x02 2 t.code d b m)
  | .vfneg t d b m => some (encV2 3 0x02 3 t.code d b m)
  | .vfsqrt t d b m r => some (encRm (encV2 3 0x03 0 t.code d b m) r)
  | .vfrcp t d b m r => some (encRm (encV2 3 0x03 1 t.code d b m) r)
  | .vfredsum t d b m r => some (encRm (encV2 3 0x05 0 t.code d b m) r)
  | .vfredmin t d b m r => some (encRm (encV2 3 0x05 1 t.code d b m) r)
  | .vfredmax t d b m r => some (encRm (encV2 3 0x05 2 t.code d b m) r)
  | .vfscan t d b m r => some (encRm (encV2 3 0x05 3 t.code d b m) r)
  | .vfcmpEq t d a b m => some (encV3 3 0x04 0 t.code (small d.val) a b m)
  | .vfcmpLt t d a b m => some (encV3 3 0x04 1 t.code (small d.val) a b m)
  | .vfcmpLe t d a b m => some (encV3 3 0x04 2 t.code (small d.val) a b m)
  | .vfcmpUn t d a b m => some (encV3 3 0x04 3 t.code (small d.val) a b m)
  | .vcvtFf t s d b m r => some (encRm (encCvt 0 t.code s.code d b m) r)
  | .vcvtFi t s d b m r => some (encRm (encCvt 1 t.code s.code d b m) r)
  | .vcvtIf t s d b m r => some (encRm (encCvt 2 t.code s.code d b m) r)
  | .vpack t d a b r => some (encRm (encV3 3 0x07 0 t.code d a b 0) r)
  | .vunpack t d a b r => some (encRm (encV3 3 0x07 1 t.code d a b 0) r)
  | .vrng d b m => some (encV2 3 0x08 0 0 d b m)
  | .mcfg a => some (encX 4 0x00 0 a)
  | .mstat a => some (encX 4 0x05 1 a)
  | .cp a => some (encX 4 0x08 0 a)
  | .cpm a => some (encX 4 0x08 1 a)
  | .cpc a => some (encX 4 0x08 2 a)
  | .cpw a => some (encX 4 0x08 3 a)
  | .mzero c => some { Chain.plain 4 0x01 0 with x := bits5 (small c.val) }
  | .mmac c a b => some (encXYC 4 0x02 0 (small c.val) b a)
  | .msmac c a b => some (encXYC 4 0x02 1 (small c.val) b a)
  | .mrect c a => some (encAW 0x03 0 c a)
  | .mscale c a => some (encAW 0x05 0 c a)
  | .mrowRd v a c => some (({ Chain.plain 4 0x04 0 with x := bits5 v, y := bits5 a, z := bits5 (small c.val) } : Chain).needRx false)
  | .mrowWr v a c => some (({ Chain.plain 4 0x04 1 with x := bits5 v, y := bits5 a, z := bits5 (small c.val) } : Chain).needRx false)
  | .cpfence => some (Chain.plain 4 0x09 0)
  | .cdcfgConfigure c a => some (encAW 0x0A 0 c a)
  | .cdcfgWaitFull c a => some (encAW 0x0A 0 c a)
  | .cdcfgPop c a => some (encAW 0x0A 0 c a)
  | .cdcfgWaitFree c a => some (encAW 0x0A 0 c a)
  | .cdcfgPush c a => some (encAW 0x0A 0 c a)
  | .cdcfgReset c a => some (encAW 0x0A 0 c a)
  | .rep a n => some ((encX 4 0x0c 0 a).low6 n)
  | .repx a n => some ((encX 4 0x0d 0 a).low6 n)
  | .phBegin a => some (encX 5 0x00 0 a)
  | .phEnd => some (Chain.plain 5 0x00 1)
  | .tx a p => some (({ Chain.plain 5 0x01 0 with x := bits5 a, y := p.code } : Chain).needRx false)
  | .mux o i => some { Chain.plain 5 0x01 1 with x := o.code, y := i.code }
  | .rxw d p => some (({ Chain.plain 5 0x01 2 with x := bits5 d, y := p.code } : Chain).needRx false)
  | .gload a => some (encX 5 0x04 0 a)
  | .gstate d => some (encX 5 0x04 3 d)
  | .gstep d a => some (encXY 5 0x04 1 d a)
  | .gmask d a => some (encXY 5 0x04 2 d a)
  | .sampF32 d a => some (encXY 5 0x05 0 d a)
  | .sampBf16 d a => some (encXY 5 0x05 1 d a)
  | .rti => some ((Chain.plain 6 0 0).low10 1)
  | .upret => some ((Chain.plain 6 0 0).low10 2)
  | .idle => some ((Chain.plain 6 0 0).low10 3)
  | .halt => some ((Chain.plain 6 0 0).low10 4)
  | .trap k => some ((Chain.plain 6 0x01 0).unsigned17 k)
  | .csrr a n => some ((encX 6 0x02 0 a).low6 n)
  | .csrw a n => some ((encX 6 0x03 0 a).low6 n)
  | .csrs a n => some ((encX 6 0x04 0 a).low6 n)
  | .csrc a n => some ((encX 6 0x05 0 a).low6 n)
  | .tlbinvAll => some (Chain.plain 6 0x06 0)
  | .tlbinvVa a => some (encXY 6 0x06 1 0 a)
  | .bdef a b => some (encXY 6 0x08 0 a b)
  | .bshare a b => some (encXY 6 0x08 1 a b)
  | .bresize a b => some (encXY 6 0x08 2 a b)
  | .bquery a b => some (encXY 6 0x08 3 a b)
  | .repReissue | .csrWrite | .wincfgWrite | .decodeTableLoad | .dmemWrite | .dqlocalWrite
  | .bindselRecordStore | .storeBufferDrain | .impreciseErrorEvent | .repSequenceFault | .phaseLengthExpiry
  | .phaseOverrun | .badDequeHandle | .inboxOverflow | .breakpoint | .breakpointSet | .preemptionRequest
  | .preemptionHoldTimeout | .preemptionSave | .preemptionRestore | .reservationRequest | .reservationGrant
  | .reservationRevoke | .reservationWriteBack | .wrsWake | .waitaddrRead | .barrierRelease
  | .barrierMemberLost | .kettleOperation | .messageDepart | .messageArrival | .nextWorkSelect | .stealProbe
  | .coreWake | .launch | .launchTreeDelivery | .recruitStart | .lowLoweringBroadcast | .worklistEpoch
  | .worklistSweep | .partnerReadTimeout | .governorWindow | .govctlWrite | .matrixOperationStart
  | .matrixOperationComplete | .mrectCheckExchange | .copyCommandAccept | .combineHoldExpiry | .copyLineMove
  | .copyCompletionWrite | .grammarUnitServe | .translationWalk | .remoteInvalidation | .qasrWrite
  | .resizeSetMove | .resizeWalkEnd | .homePlainFill | .homeOwnFill | .homeWriteBack | .homeWtStore
  | .homeSiFill | .homeUncAccess | .probeArrival | .dataReplyArrival | .dieDrain | .linkFlitReplay
  | .boundaryRetrain | .boundaryDown | .remotePacketArrival | .remoteReplyArrival | .refusal
  | .refusalReservationTimeout | .fabricTimeout | .fenceToken | .fenceHandshakeTimeout | .neighbourSilence
  | .lossNotice | .lostSetClear | .keepalive | .barrierSysPacket | .fabctlWrite | .prctlWrite | .hostNotice
  | .hostRead | .hostWrite | .hostFence | .lstatRead | .ohmovRetrain | .blobWrite | .attestationRequest
  | .powerGood | .diesReady | .imagoEntry | .thermalSample | .hbmPatrol | .quireReset | .coreReset
  | .illegalEncoding | .receiveRegisterLatch | .waitaddrRemotePoll | .planeRouterCycle
  | .permittedRangeTableWrite => none

/-- The payload words of the prefixes (02, Table 2.2). -/
def Chain.pgWord (c : Chain) : Base := 0b11110#5 ++ (c.fn ++ (c.z.extractLsb' 0 4 ++ c.page))
def Chain.rxWord (c : Chain) : Base :=
  0b11101#5 ++ (c.x.extractLsb' 4 1 ++ (c.y.extractLsb' 4 1 ++ (c.z.extractLsb' 4 1 ++ (c.c ++ c.m))))
def Chain.baseWord (c : Chain) : Base := c.op ++ (c.x.extractLsb' 0 4 ++ (c.y.extractLsb' 0 4 ++ c.f))

/-- The words of a chain in the order PG, RX, IX, SC (03, R70). -/
def Chain.words (c : Chain) : List Base :=
  (if c.page == 0 then [] else [c.pgWord]) ++ (if c.rx then [c.rxWord] else [])
    ++ (match c.ix with | some k => [0b11100#5 ++ k] | none => [])
    ++ (match c.sc with | some k => [0b11111#5 ++ k] | none => []) ++ [c.baseWord]

/-- The words of a well-formed instruction. -/
def encode (i : Instr) : Option (List Base) := (encodeChain i).map Chain.words

/-- The least number of `lix` instructions that load a constant (03, R71). -/
def longSteps (v : Word) : Nat :=
  if ((v.extractLsb' 0 17).signExtend 64) == v then 0
  else if (((v.sshiftRight 17).extractLsb' 0 17).signExtend 64) == v.sshiftRight 17 then 1
  else if (((v.sshiftRight 34).extractLsb' 0 17).signExtend 64) == v.sshiftRight 34 then 2 else 3

/-- The instructions that `lq` of a constant stands for (03, R71). -/
def loadLong (d : Reg) (v : Word) : List Instr :=
  let k := longSteps v
  .li d ((v.sshiftRight (17 * k)).extractLsb' 0 17) ::
    (List.range k).map fun j => .lix d ((v.sshiftRight (17 * (k - 1 - j))).extractLsb' 0 17)

/-- The words of an opcode-table row in address order: the table writes the first word of a two-word row in the
upper half, except where only the lower half is a prefix. -/
def tableWords (nbits w : Nat) : List Base :=
  let lo := BitVec.ofNat 16 w
  let hi := BitVec.ofNat 16 (w / 65536)
  let ws := if nbits ≤ 16 then [lo] else if Base.isPrefix lo && !Base.isPrefix hi then [lo, hi] else [hi, lo]
  ws ++ List.replicate 4 0#16

/-- The instruction that the decoder reads from the bits of an opcode-table row. -/
def decodeTableWord (nbits w : Nat) : Option Instr := (decodeWords (tableWords nbits w)).map (·.1)

end Sys2Proof
end

