-- ==== Sys2Proof/Machine/State.lean ====
section
/-! DEFINITION. The state of a BM-40 device as plain data, and its value after reset. -/

namespace Sys2Proof.Machine

/-- Why the machine stops. No step of this model raises a fault: what the spec calls a fault of a program is a
trap or an upcall, which is a next state (01, R15). -/
inductive Fault where
  /-- Nobody raises it; safe. -/
  | none
  deriving DecidableEq, Repr

/-- Why a step has no meaning. -/
inductive Refusal where
  /-- Raised by `exec` for an instruction whose meaning has not been written; safe. -/
  | notModelled (mnemonic : String)
  deriving DecidableEq, Repr

/-! ### Sparse tables -/

/-- The value under a key; the default where none is listed. -/
def mapGet {α : Type} (m : List (Nat × α)) (k : Nat) (dflt : α) : α :=
  match m with
  | [] => dflt
  | (j, v) :: r => if j = k then v else mapGet r k dflt
/-- The value under a key replaced, keys rising. -/
def mapPut {α : Type} (m : List (Nat × α)) (k : Nat) (v : α) : List (Nat × α) :=
  match m with
  | [] => [(k, v)]
  | (j, u) :: r => if j = k then (k, v) :: r else if k < j then (k, v) :: (j, u) :: r else (j, u) :: mapPut r k v

/-- Bytes by address, strictly rising, no zero byte listed: an unlisted byte reads 0 (12, R331; 17, R441 for the
scratchpads; for HBM a DESIGN CHOICE, log 2). -/
abbrev Memory := List Host.Cell

/-! ### Places -/

/-- Where an access is performed, by kind of location (11, Table 11.1). -/
inductive Place where
  /-- Offset `off` of the scratchpad of device core `core` (01, R27). -/
  | spad (core off : Nat)
  /-- Offset `off` of the kettle store of quire `quire` (01, R27). -/
  | kettle (quire off : Nat)
  /-- Canonical HBM address `pa`, reached through binding `bind` (12, R335). -/
  | hbm (pa bind : Nat)
  /-- Physical address `pa` of device `dev` (16, R418). -/
  | remote (dev pa : Nat)
  deriving DecidableEq, Repr

/-- One context of the device. -/
structure Agent where
  core : Nat
  ctx  : Fin 11
  deriving DecidableEq, Repr

/-! ### Contexts -/

/-- What became of a reservation (07, R178, R185, Table 7.3). -/
inductive ResvState where | held | revoked | lost
  deriving DecidableEq, Repr

/-- A reservation recorded with its address and size (07, R185). -/
structure Resv where
  place : Place
  addr  : Word
  wide  : Bool
  state : ResvState
  deriving DecidableEq, Repr

/-- The request that a context waits on at another device, and its answer (05, R126; 15, R400, R402). -/
structure Remote where
  dev    : Nat
  /-- What is asked for, part by part, by physical address; and which part a negative answer is about. -/
  parts  : List (Nat × RemoteOp)
  answer : Option Reply
  part   : Nat
  /-- Which of the requests of its instruction it is. -/
  key    : Nat
  /-- The fabric timeout has run out (15, R402). -/
  late   : Bool
  /-- The request's own number, by which a handshake knows it (15, R404). -/
  serial : Nat
  /-- How often each part has been sent again after a CRC NAK (15, R400). -/
  tries  : List (Nat × Nat)
  deriving DecidableEq, Repr

/-- A `.sys` handshake (07, R174; 15, R404): its peers, those whose token has no answer yet, whether its time is over, and the
requests to them that went out before the tokens: device, whether a copy command's, and number. -/
structure Hand where
  peers : List Nat
  left  : List Nat
  late  : Bool
  owed  : List (Nat × Bool × Nat)
  deriving DecidableEq, Repr

/-- How far a queued `amo` that holds its granule has come (07, R181). -/
inductive AmoState where
  /-- It has computed what it writes at the place. -/
  | computed (place : Place) (bytes : List Byte) (old : List Byte)
  /-- It has written back and released the granule. -/
  | written (old : List Byte)
  deriving DecidableEq, Repr

/-- The instruction in flight: its address, the address of its instruction word, where the next one begins, its
chain, whether the sequencer reissues it, whether it stays for another try, whether it ended in an exception, and whether it
has transferred control. -/
structure Issue where
  pc      : Word
  wordPc  : Word
  next    : Word
  chain   : Chain
  reissue : Bool
  stay    : Bool
  took    : Bool
  /-- It has transferred control (02, R61). -/
  jumped  : Bool
  deriving DecidableEq, Repr

/-- A context: the control context is number 0 and has all that the core's other fields hold; a helper has this
alone, and of `w` only w0 to w15 (01, R8, R9). -/
structure Ctx where
  pc      : Word
  w       : Vector Word 32
  /-- The mode that a helper runs in (01, R9). -/
  mode    : Nat
  /-- The helper's field of `hstat` (01, Table 1.4). -/
  hstat   : BitVec 4
  /-- The helper's field of `hcause` (01, Table 1.4). -/
  hcause  : BitVec 6
  resv    : Option Resv
  /-- What a sleeping `wrs` or, with the mark set, a `waitaddr` watches (07, R187, R188). -/
  watch   : Option (Place × Bool)
  /-- A wake for the sleeper has come (07, R187, R188). -/
  woken   : Bool
  /-- The granule that the context has requested and has not been granted (07, R179), and whether by `lr`. -/
  queued  : Option (Place × Bool)
  /-- The granule that the bank's queue has granted to the waiting instruction (07, R177). -/
  granted : Option Place
  amo     : Option AmoState
  /-- The `.sys` handshake of its instruction (07, R174). -/
  hand    : Option Hand
  remote  : Option Remote
  /-- The worklist of the entry that a `wl.push`, a `claim` or a `donate` has entered or is about to send on, and its bucket
  until its lowering has reached every agent (13, R361). -/
  posted  : Option (Nat × Option Nat)
  /-- What the waiting instruction counts toward the low: the worklist, the bucket, and whether it donates (13, R358). -/
  counts  : Option (Nat × Nat × Bool)
  /-- The instruction at `pc` has issued and waits; whether its wait accepts pre-emption (16, R430). -/
  waiting : Bool
  yields  : Bool
  /-- Lines that a copy engine owns and that the waiting instruction needs (14, R368). -/
  wants   : List Place
  /-- What the waiting instruction was fetched as (02, R39), and the pieces of its access that it has read, by number
  (05, R132; 08, R218; 11, R293). -/
  chain   : Option Issue
  got     : List (Nat × List Byte)
  deriving DecidableEq, Repr

/-- The configuration of one window (12, Table 12.3). -/
structure Win where
  lo : Word
  hi : Word
  deriving DecidableEq, Repr

/-- The system registers of Table 1.4 of 01 that hold a value of their own, the format registers, the windows and
the decode table. -/
structure Csr where
  status : Word
  tvec   : Word
  tcause : Word
  tval   : Word
  epc    : Word
  upvec  : Word
  upcause : Word
  upval  : Word
  upepc  : Word
  dmem   : Word
  mgovStall : Word
  winsel : Word
  bindsel : Word
  actl   : Word
  aflags : Word
  rngkey : Word
  dqlocal : Word
  dqspill : Word
  fmt    : Vector Word 4
  wins   : Vector Win 8
  /-- Entries of the decode table, E8M10 in 32 bits (04, R88). -/
  table  : Vector W32 256
  deriving DecidableEq, Repr

/-! ### Memory of a core -/

/-- One byte of a store, with the bits of it that are written (a masked nibble store writes four: 08, R214). -/
structure StoreByte where
  value : Byte
  mask  : Byte
  deriving DecidableEq, Repr

/-- A run of bytes of a store in one place. -/
structure StorePart where
  place : Place
  /-- The virtual address of its first byte. -/
  va    : Word
  req   : Request
  bytes : List StoreByte
  deriving DecidableEq, Repr

/-- A store that waits in the store buffer; its parts are performed together (01, R11; 05, R132; 08, R218). -/
structure Store where
  ctx   : Fin 11
  parts : List StorePart
  deriving DecidableEq, Repr

/-- A leaf translation (16, R420): the page's base, the log2 of its size, and its page-table entry. -/
structure TlbEntry where
  base : Nat
  bits : Nat
  pte  : Word
  deriving DecidableEq, Repr

/-- A pointer entry in the node cache (16, R420): the level it was read at, the address bits above it, the entry. -/
structure NodeEntry where
  level  : Nat
  vaPart : Nat
  pte    : Word
  deriving DecidableEq, Repr

/-- The states of a bank share (12, Table 12.1), with who holds it. -/
inductive Share where
  | own | pooled (binding : Nat) | held (binding : Nat) | work (wid : Nat)
  deriving DecidableEq, Repr

/-! ### Tasks -/

/-- A folio handle in the deque and whether it is published (06, R139, R140). -/
structure DqEntry where
  handle : W32
  pub    : Bool
  /-- The scope of the release that published it (06, R140). -/
  rel    : Scope
  /-- The folio's bytes when it was pushed by `spawn` (01, R32); empty where the part keeps none. -/
  old    : List Byte
  /-- The entry holds an uncorrectable error (16, R435). -/
  bad    : Bool
  deriving DecidableEq, Repr

/-- A task that waits to start on a core: its folio's handle, the acquire of its start, its worklist holds
(06, R150; 13, R359). -/
structure Pending where
  handle : W32
  pri    : Nat
  acq    : Option Scope
  /-- The core on which a continuation runs when it cannot be placed where it is taken (13, R347; 16, R415). -/
  home   : Nat
  holds  : List (Nat × Nat)
  cont   : Bool
  launch : Bool
  bad    : Bool
  deriving DecidableEq, Repr

/-- The deque of a core by level (13, R343), oldest first. Level L is a ring of handles in the scratchpad share that
`dqlocal` names, and level M one in the memory area of `dqspill` (the layout is the model's: log 6): of each, where its oldest
handle stands, and its entries as they went down. -/
structure Deque where
  h     : List DqEntry
  lHead : Nat
  l     : List DqEntry
  mHead : Nat
  m     : List DqEntry
  deriving DecidableEq, Repr

/-- A message of 32 bytes on its way or in an inbox (01, Table 1.12). -/
structure Msg where
  dest  : Nat
  src   : Nat
  reply : Bool
  bytes : List Byte
  /-- It holds an uncorrectable error (16, R435). -/
  bad   : Bool
  deriving DecidableEq, Repr

/-- What the control context of a core does (13, R339, R340; 01, R16). -/
inductive Run where
  /-- It runs a task. -/
  | task
  /-- It has no task and looks for work from source 1. -/
  | seeking
  /-- It has no task and makes its steal probe next. -/
  | probing
  /-- It sleeps. -/
  | asleep
  /-- It has stopped (01, R16; 10, R283). -/
  | stopped
  deriving DecidableEq, Repr

/-! ### The on-die networks -/

/-- The virtual networks (15, Table 15.2). -/
inductive VNet where | request | reply | probe
  deriving DecidableEq, Repr

/-- What a packet's buffer at a router belongs to: a packet that waits to be injected, one that has crossed a boundary and
waits to be injected there, one that its target has taken in and not yet acted on, the directions of the rings, and the bypass
ring (15, R386, R387, R391, R392). -/
inductive NetPort where | inject | boundary | landed | rowUp | rowDown | colUp | colDown | bypass
  deriving DecidableEq, Repr

/-- A packet's way through the on-die networks: from router to router (a quire's router has the quire's number), where it
stands and in which buffer, the routers still before it on this die, the order in which it came to that buffer, and its
network flits (15, R384 to R386). -/
structure Transit where
  net   : VNet
  src   : Nat
  dst   : Nat
  at'   : Nat
  port  : NetPort
  way   : List (Nat × NetPort)
  order : Nat
  flits : Nat
  deriving DecidableEq, Repr

/-- An operation on its way to a kettle store, and its way where that is another quire's (06, R148; 13, R349). -/
structure Kop where
  agent  : Agent
  handle : W32
  op     : KettleOp
  way    : Option Transit
  deriving DecidableEq, Repr

/-! ### Engines -/

/-- What codes decode through: a format, or the decode table (04, Table 4.6). -/
inductive Codes where
  | fmt (f : Fmt) | table
  deriving DecidableEq, Repr

/-- An aligned line of 64 bytes of a scratchpad: its offset and its bytes. -/
abbrev Image := List (Nat × List Byte)

/-- A matrix operation in the matrix unit (09, R228, R230): its operands by address and by the window configuration
in force when it issued, and the lines of them that the unit has read (09, R231). -/
structure MatrixOp where
  acc     : AReg
  cfg     : BitVec 512
  aCsr    : Csr
  bCsr    : Csr
  aAddr   : Word
  bAddr   : Word
  aImg    : Image
  bImg    : Image
  /-- Operand lines still to be read. -/
  todo    : List Nat
  /-- The conduits that deliver the operands (09, R229). -/
  aCond   : Option Cd
  bCond   : Option Cd
  /-- Plane issues still to be made, the cycle of the window at which the next of them is ready (14, R378), and whether the
  governor never holds them (09, R232). -/
  planes  : Nat
  ready   : Nat
  rect    : Bool
  started : Bool
  /-- An operand line was uncorrectable: `tval` of the report (16, R435). -/
  bad     : Option Word
  deriving DecidableEq, Repr

/-- A conduit (09, R246; 14, R372). COUNT is 0 before a descriptor is loaded. -/
structure Conduit where
  base  : Nat
  esize : Nat
  count : Nat
  prod  : Bool
  cons  : Bool
  win   : Nat
  head  : Nat
  tail  : Nat
  free  : Nat
  deriving DecidableEq, Repr

/-- One recorded instruction of a body: its address, its chain and where the next begins (09, R257). -/
structure RepItem where
  pc      : Word
  wordPc  : Word
  next    : Word
  chain   : Chain
  deriving DecidableEq, Repr

/-- A repetition sequence (09, R257 to R259). -/
structure RepSeq where
  /-- `repx`. -/
  alone : Bool
  /-- Instructions of the body, and executions in all. -/
  n     : Nat
  total : Nat
  body  : List RepItem
  /-- Where the next instruction of the body stands while it is recorded. -/
  expect : Word
  /-- The iteration, and the body instruction that is reissued next; none before the iteration begins. -/
  k     : Nat
  idx   : Option Nat
  /-- The sequencer's own context: the copy of the w registers taken when recording ended, and the mode of then. -/
  shadow : Ctx
  deriving DecidableEq, Repr

/-- An open communication phase on a core (09, R238). -/
structure Phase where
  len    : Nat
  /-- The first phase cycle at which the next instruction may issue; the cycle after the one in which the last issued. -/
  cycle  : Nat
  base   : Nat
  /-- The port in that feeds each port out, and the cycle at which the route was set (09, R241). -/
  routes : List (Port × Port × Nat)
  /-- The cycle at which the `tx` or `mrect` that still waits was issued. -/
  sent   : Option Nat
  deriving DecidableEq, Repr

/-- Where a copy command's elements or bytes come from (09, R249). -/
inductive CopySource where
  /-- Raw bytes: rows of `row` bytes, each `stride` bytes after the one before. -/
  | raw (va : Word) (row : Nat) (stride : Word)
  /-- FP32 values: rows of `cols` elements, `stride` bytes apart. -/
  | floats (va : Word) (cols : Nat) (stride : Word)
  /-- Elements of a window of core `core` from element `elem`: rows of `cols` elements, `pitch` elements apart. -/
  | window (va : Word) (core : Nat) (win : Win) (codes : Codes) (table : Vector W32 256) (elem cols pitch : Nat)
  deriving DecidableEq, Repr

/-- How payload bytes are formed (09, Table 9.11). -/
inductive CopyForm where
  /-- The source's bytes. -/
  | bytes
  /-- Each element's FP32 value. -/
  | fp32
  /-- Source codes of `width` bits placed in plane tiles of 16. -/
  | tiles (width : Nat)
  /-- Blocks of 16 requantised into codes (04, R96) with a scale format, a rounding and a search order; rows of `cols`
  elements; a block down a column where `down` is set; in plane tiles, or packed. -/
  | quant (codes : Codes) (table : Vector W32 256) (scl : Nat) (mode : Rounding) (ord cols : Nat) (down planes : Bool)
  deriving DecidableEq, Repr

/-- A run of consecutive destination bytes: its address, its length, and its places, one for each target. -/
structure CopyRun where
  va    : Word
  bytes : Nat
  dst   : List Place
  deriving DecidableEq, Repr

/-- Payload that the engine moves in one step: its first payload byte or the first elements of its blocks, its runs,
and the check that its destination failed at acceptance (09, R250). -/
structure Piece where
  units : List Nat
  runs  : List CopyRun
  fault : Option (BitVec 6 × Word)
  deriving DecidableEq, Repr

/-- A copy command (09, R248 to R255; 14, R366 to R370). -/
structure CopyCmd where
  /-- Its number among the commands that the quire's engine has accepted, and the global time of that (14, R369). -/
  seq    : Nat
  time   : Word
  core   : Nat
  source : CopySource
  form   : CopyForm
  /-- The mode of the issuing context. -/
  mode   : Nat
  /-- It has one of the engine's active places (14, R366). -/
  active : Bool
  /-- Pieces not yet written, in increasing order of their lines. -/
  pieces : List Piece
  /-- Addresses of the lines of the destination span that no piece writes, and those lines once registered
  (14, R368). -/
  gapVas : List Word
  gaps   : List Place
  /-- The other devices whose pages it touches (07, R174). -/
  devs   : List Nat
  /-- Homes at which it has registered an owned range (14, R368): a home slice, or a core's quire agent. -/
  homes  : List (Bool × Nat)
  /-- Source lines that have been read, by address (09, R251; 14, R369). -/
  cache  : List (Word × List Byte)
  /-- A destination conduit: its number, entry size and payload bytes already written. -/
  conduit : Option (Cd × Nat × Nat)
  /-- What a merge compares, where the command can be merged; whether the combining node holds it; the cores of its
  group (09, R255). -/
  key    : Option (List Byte)
  held   : Bool
  cores  : List Nat
  /-- The request to another device that the transfer waits on, and the source line that it reads where it reads one. -/
  remote : Option Remote
  reading : Option Word
  /-- The lines, owned by others, that it waits for. -/
  wants  : List Place
  err    : Option Word
  done   : Bool
  deriving DecidableEq, Repr

/-- A completion word that is still to be written, in issue order (09, R252). -/
structure Completion where
  core : Nat
  seq  : Nat
  word : Option Place
  val  : Word
  deriving DecidableEq, Repr

/-- What a core asks of the grammar unit (14, R383). -/
inductive GrammarWork where
  | step (t : Word) (answer : Option (Nat ⊕ (Bool × BitVec 6 × Word)))
  /-- A table fault is an upcall or a trap, with its kind or cause and its value. -/
  | mask (first count : Nat) (bits : List Bool) (loop : Bool) (fault : Option (Bool × BitVec 6 × Word))
  deriving DecidableEq, Repr

/-- A grammar configuration with the field values that `gload` kept (10, R260, R265). -/
structure Grammar where
  loaded : Bool
  ended  : Bool
  loop   : Bool
  s      : Nat
  q      : Nat
  /-- Top first. -/
  stack  : List Nat
  image  : Word
  fallback : W32
  fb     : Bool
  vocab  : Word
  ntok   : Nat
  nlex   : Nat
  nterm  : Nat
  nextt  : Word
  accept : Word
  npda   : Nat
  stackmax : Nat
  act    : Word
  /-- The unit's copy of the configuration holds an uncorrectable error (14, R380). -/
  bad    : Bool
  deriving DecidableEq, Repr

def Grammar.reset : Grammar :=
  { loaded := false, ended := false, loop := false, s := 0, q := 0, stack := [], image := 0, fallback := 0, fb := false
    vocab := 0, ntok := 0, nlex := 0, nterm := 0, nextt := 0, accept := 0, npda := 0, stackmax := 0, act := 0
    bad := false }

/-- A pre-emption request: its save and restore addresses, the time it came, the level at whose `bar` it is taken where it
is held for one, and whether it may be taken at any boundary (16, R430; 01, R24). -/
structure Preempt where
  save  : Word
  back  : Option Word
  came  : Word
  level : Option Level
  free  : Bool
  deriving DecidableEq, Repr

/-- Whom a probe asks: a core of the thief's quire, another quire of its die, or another die (13, Table 13.4). -/
inductive Probe where
  | core (c : Nat) | quire (q : Nat) | die (d : Nat)
  deriving DecidableEq, Repr

/-- A logical core (01, Table 1.1; 06; 13). -/
structure Core where
  ctxs   : Vector Ctx 11
  v      : Vector VecReg 32
  m      : Vector MaskReg 8
  /-- Each accumulator is 64 rows of 32 FP32 lanes (01, Table 1.1). -/
  acc    : Vector (Vector VecReg 64) 4
  csr    : Csr
  spad   : Memory
  shares : Vector Share 32
  /-- The core's single FIFO store buffer, oldest first (01, R11). -/
  sb     : List Store
  itlb   : List TlbEntry
  dtlb   : List TlbEntry
  /-- The context that issued last in the scalar slot (13, R342). -/
  lastCtx : Fin 11
  /-- Instruction words that fetch keeps, by place, and whether `cflush` has named them (02, R61). -/
  fetched : List (Place × Base × Bool)
  /-- The peer table, oldest first (07, R174). -/
  peers  : List Nat
  /-- A `.sys` handshake that the part makes for a decrement of the core's that is on its way: as `Ctx.hand` (07, R174; 06,
  R149). -/
  peerHand : Option Hand
  /-- Requests of the core that ran out of time and were never acknowledged: device, whether a copy command's, and number
  (15, R402, R404). -/
  unacked : List (Nat × Bool × Nat)
  run    : Run
  /-- The scratchpad offset of the running task's folio (16, R427). -/
  folio  : Nat
  /-- The worklists and buckets that the running task holds (13, R359). -/
  hold   : List (Nat × Nat)
  /-- Source 1 of R339: the task that runs next. -/
  next   : Option Pending
  deque  : Deque
  ready  : List Pending
  /-- The folio of an `rfork` recruit stands at 0x3_FF80; with the scope of its acquire (06, R145). -/
  recruit : Option Scope
  lfsr   : BitVec 16
  /-- The probes of a probe sequence that are still to be made (13, R346). -/
  probes : Option (List Probe)
  wake   : Bool
  /-- A wake from the management core that no `idle` has seen (10, R282). -/
  called : Bool
  inbox  : List Msg
  overflow : Option Msg
  sendq  : List Msg
  /-- Members that a completed barrier has let go (07, R189): the level, and the lost device of R192. -/
  barPass : Option (Level × Option Nat)
  barWait : Option Level
  /-- Pending boundary events (16, R428): imprecise errors by `tval`, the repetition fault, a phase overrun, a bad
  handle by its address, a breakpoint by its address. -/
  impErr : List Word
  repFault : Option (BitVec 6 × Word)
  overrun : Option Nat
  badHandle : List Word
  bpHit  : Option Word
  /-- Instruction-address comparators (16, R429). -/
  bps    : Vector (Option Word) 4
  /-- A pre-emption request with a save address (16, R430). -/
  preempt : Option Preempt
  /-- The address to restore from (16, R431). -/
  restore : Option Word
  /-- Doubles of the scratchpad that hold an uncorrectable error (16, R433). -/
  bad    : List Nat
  /-- The matrix configuration (09, Table 9.2). -/
  mcfg   : BitVec 512
  /-- The matrix unit's operations, oldest first. -/
  mops   : List MatrixOp
  /-- NANC, INFC, REPK and REPF of `mstat` (09, Table 9.4). -/
  nanc   : Nat
  infc   : Nat
  repk   : Nat
  repf   : Bool
  /-- Plane issues of the previous window and of this one, the cycle of this window after the last of them, and the
  allowance of this one (14, R378). -/
  govLast : Nat
  govUsed : Nat
  govAt   : Nat
  allowance : Nat
  conduits : Vector Conduit 4
  rep    : Option RepSeq
  phase  : Option Phase
  /-- Receive registers by port: north, east, south, west, row bus, column bus (09, R237). -/
  recv   : Vector Word 6
  /-- The last instruction of the control context was a `bar.quire` of which the core is a member (09, R238). -/
  afterBar : Bool
  /-- A copy command that waits to be accepted, and whether it has been (09, R248). -/
  copyReq : Option (CopyCmd × Completion)
  copyOk : Bool
  grammar : Grammar
  gwork  : Option GrammarWork
  deriving DecidableEq, Repr

/-! ### The quire and the device -/

/-- A lease: the home's global time of the grant, and the binding's lease length (12, R326). -/
structure Lease where
  since : Word
  span  : Nat
  deriving DecidableEq, Repr

/-- A line of a near binding's instance, of a home slice, or of a lease store (12, R317 to R319, R322, R325, R326). -/
structure Line where
  binding : Nat
  base    : Nat
  set     : Nat
  way     : Nat
  data    : List Byte
  /-- The bytes that the quire has written since the last write-back (11, R295). In a home slice the marks of a double
  rise and fall together: DIRTY (12, R322). -/
  written : List Bool
  /-- The doubles whose bytes hold an uncorrectable error (16, R433). -/
  bad     : List Bool
  /-- The doubles that the instance holds with ownership (12, R322). -/
  own     : List Bool
  /-- The lease under which it serves `.si` loads (12, R326). -/
  lease   : Option Lease
  /-- Of the bytes that the quire has not written, it serves `.si` loads only (07, R173). -/
  leaseOnly : Bool
  /-- When it was filled and last used, by the device's counter (12, R319). -/
  filled  : Nat
  used    : Nat
  /-- During a walk: it stands in a set of the new record (12, R329). -/
  moved   : Bool
  deriving DecidableEq, Repr

/-- Bytes that a quire's instance has accepted and sends on to their home (11, R295). -/
structure Forward where
  agent : Agent
  pa    : Nat
  bytes : List StoreByte
  deriving DecidableEq, Repr

/-- What a kettle store keeps beside a kettle (13, R349). -/
structure KettleAux where
  widest : Option Scope
  holds  : List (Nat × Nat)
  deriving DecidableEq, Repr

/-- A value driven onto a port at a phase cycle, by a `tx` or by a forwarding route (09, R241, R242). -/
structure Drive where
  cycle : Nat
  core  : Nat
  port  : Port
  value : Word
  isTx  : Bool
  deriving DecidableEq, Repr

/-- A core's part in an `mrect` (09, R244). -/
structure RectPart where
  core  : Nat
  cycle : Nat
  desc  : List Byte
  cfg   : BitVec 512
  acc   : AReg
  planes : Nat
  /-- Whether all participants agree, once decided. -/
  verdict : Option Bool
  deriving DecidableEq, Repr

/-- Buses that an `mrect` holds from a cycle to another: rows and columns (09, R245). -/
structure BusHold where
  rows  : List Nat
  cols  : List Nat
  since : Nat
  until' : Nat
  deriving DecidableEq, Repr

/-- A quire (00, Table 0.2). -/
structure Quire where
  /-- The kettle store's bytes, 16 for each kettle (01, R33). -/
  kettles : Memory
  kaux   : List (Nat × KettleAux)
  /-- Routing counters (06, R168). -/
  counters : Vector Word 64
  /-- Lines of the instances of near bindings (12, R317). -/
  lines  : List Line
  /-- Lines of the home slices of home bindings (12, R318, R322). -/
  slices : List Line
  /-- Stores that the instances forward to their homes, oldest first (11, R295). -/
  forwards : List Forward
  /-- The lease store for home bindings (12, R325). -/
  leases : List Line
  /-- The replacement LFSR of each instance (12, Table 12.5). -/
  lfsrs  : List (Nat × BitVec 16)
  qasr   : Word
  tlb2   : List TlbEntry
  nodes  : List NodeEntry
  /-- Doubles of the kettle store that hold an uncorrectable error (16, R435). -/
  badKettles : List Nat
  /-- The sewing fabric: the phase cycle that is latched next, values in flight, rectangles and held buses. -/
  sewClk : Nat
  drives : List Drive
  rects  : List RectPart
  holds  : List BusHold
  /-- GOVCTL, and the value that the next window boundary puts in force (14, R377). -/
  govctl : Word
  govNext : Word
  /-- The BUDGET that system software requested (17, R447). -/
  govAsked : Nat
  /-- The copy engine: commands in acceptance order, completion words to be written, commands accepted so far. -/
  cmds   : List CopyCmd
  comps  : List Completion
  accepted : Nat
  /-- The core whose command took an active place last (14, R366). -/
  lastStart : Nat
  deriving DecidableEq, Repr

/-- A binding record in force (12, Table 12.4). -/
structure BindRec where
  home   : Bool
  line   : Nat
  ways   : Nat
  policy : Nat
  repl   : Nat
  hash   : Nat
  lease  : Nat
  /-- Shares of each placed quire, quires rising. -/
  count  : List (Nat × Nat)
  deriving DecidableEq, Repr

/-- The states of a binding (12, Table 12.8). -/
inductive BindState where | undefined | active | resizing | draining | retired
  deriving DecidableEq, Repr

/-- A binding (12, R315 to R331). -/
structure Binding where
  state : BindState
  rec'  : BindRec
  /-- The record before a walk, and how many sets each of its quires' walkers has passed. -/
  old   : Option BindRec
  passed : List (Nat × Nat)
  deriving DecidableEq, Repr

/-- Who waits at a granule's bank: a context's request, a plain store at the head of a store buffer, the oldest store
that a quire forwards, a copy command that a core waits with, a completion word of a command, or a request of another device
by its packet number (07, R177; 14, R371). -/
inductive Waiter where
  | request (a : Agent) (isLr : Bool) | store (core : Nat) | forward (quire : Nat) | copy (core : Nat)
  | engine (quire seq : Nat) | remote (dev pid : Nat)
  deriving DecidableEq, Repr

/-- A reservation granule with its holder and its queue in bank order (07, R176, R177). -/
structure Granule where
  place  : Place
  holder : Option (Agent × Bool)
  queue  : List Waiter
  deriving DecidableEq, Repr

/-- A watch that a sleeping `wrs` registered (07, R187). -/
structure Watch where
  place : Place
  agent : Agent
  /-- That of a `waitaddr`: the agent's own writes count too (07, R188). -/
  any   : Bool
  deriving DecidableEq, Repr

/-- An open barrier episode (07, R189). -/
structure Episode where
  level   : Level
  domain  : Nat
  arrived : List Nat
  /-- Cores reset since it opened, which rejoin the count when it is over (17, R446; 01, R23). -/
  out     : List Nat
  /-- A system barrier opened while the fabric was closed (01, R23). -/
  alone   : Bool
  /-- The release has come down the spanning tree (15, R405). -/
  released : Bool
  /-- A member device has been reported lost and is no longer counted (07, R192). -/
  lost     : Bool
  deriving DecidableEq, Repr

/-- A worklist entry (06, Table 6.7). -/
structure Entry where
  pri  : Nat
  kind : Nat
  arg  : Word
  deriving DecidableEq, Repr

/-- A quire's slot of a worklist (13, R356, R357): its entries and the places in the spill area that hold its spilled
entries, each with the order of its push, oldest first (the layout of the spill area is the model's: log 6). -/
structure Slot where
  wb      : Nat
  entries : List (Nat × Entry)
  spill   : List (Nat × Nat)
  deriving DecidableEq, Repr

/-- An entry that the balancer gives to a partner (13, R363): its slot, the order of its push, and the entry. -/
structure Give where
  slot  : Nat
  age   : Nat
  entry : Entry
  deriving DecidableEq, Repr

/-- A partner's status as a sweep read it (13, R364). -/
structure Seen where
  pushed : Nat
  taken  : Nat
  dsent  : Nat
  dclaim : Nat
  state  : Nat
  sweep  : Nat
  deriving DecidableEq, Repr

/-- What a sweep found (13, R364). -/
structure Sweep where
  quiet  : Bool
  pushed : Nat
  taken  : Nat
  seen   : List Seen
  deriving DecidableEq, Repr

/-- A read that a sweep makes at a partner: HEAD of its queue, or its STATUS (13, R364, Table 13.10). -/
structure SweepAsk where
  partner : Nat
  head    : Bool
  /-- How often it has been sent again after a CRC NAK (15, R400). -/
  tries   : Nat
  deriving DecidableEq, Repr

/-- An attached worklist (13, R352 to R365). -/
structure Worklist where
  /-- The canonical address of the record, and the binding of its page. -/
  record : Nat
  bind   : Nat
  sys    : Bool
  shift  : Nat
  lead   : Nat
  kinds  : List Word
  /-- Shares of a slot; it holds 512 entries in each. -/
  cap    : Nat
  /-- The canonical addresses of the spill pages, with the bindings of their pages. -/
  spill  : List (Nat × Nat)
  balthr : Nat
  /-- The partners' queues and records: device and physical address. -/
  pq     : List (Nat × Nat)
  prec   : List (Nat × Nat)
  place  : List Nat
  slots  : List (Nat × Slot)
  regs   : List W32
  /-- How many entries have been entered: the order of the next. -/
  born   : Nat
  /-- V as the last epoch left it, none when nothing is counted; and the quires whose agents have lowered it since
  (13, R361). -/
  low    : Option Nat
  lows   : List (Nat × Option Nat)
  /-- Outstanding donations: device, queue address, index, bucket (13, Table 13.10). -/
  donated : List (Nat × Nat × Nat × Nat)
  /-- Entries that the balancer gives away, in order. -/
  giving : List Give
  /-- The partner to which the first of them is offered now, and those that were full. -/
  offer  : Option (Nat × List Nat)
  offerTries : Nat
  nextPartner : Nat
  pushed : Nat
  taken  : Nat
  dsent  : Nat
  dclaim : Nat
  sweeps : Nat
  /-- 0 active, 1 quiet, 2 partner lost (13, Table 13.9). -/
  status : Nat
  last   : Option Sweep
  /-- The reads that the sweep under way still waits for, and what it has found. -/
  asks   : List SweepAsk
  found  : Option Sweep
  deriving DecidableEq, Repr

/-- A launch on its way down the launch tree to the cores from `lo` up to but not at `hi` (06, R146). -/
structure TreeMsg where
  lo  : Nat
  hi  : Nat
  pc  : Word
  arg : Word
  acq : Scope
  deriving DecidableEq, Repr

/-! ### The networks, the gutter fabric and the host -/

/-- A gutter-fabric flit: the fields of its header, its zero bits, and its payload (15, Table 15.3). -/
structure Flit where
  dst     : Nat
  src     : Nat
  age     : Nat
  cls     : Nat
  pid     : Nat
  seq     : Nat
  last    : Nat
  plane   : Nat
  tries   : Nat
  zero    : Nat
  stamp   : W32
  /-- It has not been injected yet, and takes its STAMP when it is (15, R399). -/
  fresh   : Bool
  payload : List Byte
  deriving DecidableEq, Repr

/-- A packet buffer in use, with the flits that have come (15, R399). -/
structure PacketBuffer where
  src   : Nat
  pid   : Nat
  tries : Nat
  last  : Nat
  cls   : Nat
  /-- It is one of the 64 that are kept for packets with AGE = 255. -/
  kept  : Bool
  got   : List (Nat × List Byte)
  deriving DecidableEq, Repr

/-- A packet on a refusal list, when it was refused, and whether a reserved buffer is held for it (15, R399). -/
structure Refused where
  src   : Nat
  pid   : Nat
  tries : Nat
  stamp : W32
  since : Word
  given : Bool
  deriving DecidableEq, Repr

/-- A plane of the device (15, R395, R398, R399): flits that wait to inject, flits that left by a port in the last
fabric cycle, the refusal list in STAMP order, and transmissions whose later flits are discarded. -/
structure Plane where
  inject  : List Flit
  out     : List (Nat × Flit)
  refused : List Refused
  discard : List (Nat × Nat × Nat)
  deriving DecidableEq, Repr

/-- The device's part of the gutter fabric (15, R394 to R405). -/
structure Fabric where
  planes  : Vector Plane 8
  buffers : List PacketBuffer
  /-- Packets sent, by packet number, as their source keeps them for a resend. -/
  sent    : List (Nat × List Flit)
  nextPid : Nat
  /-- Flits dropped and counted for the management core (15, R398). -/
  dropped : Nat
  /-- Answers given to other devices: device, packet number, answer. -/
  answers : List (Nat × Nat × Reply)
  /-- Refusals sent: SRC, PID, TRY and STAMP of what was refused (15, R399). -/
  refusals : List (Nat × Nat × Nat × W32)
  /-- Devices below this one whose arrivals at the system barrier have risen to it (15, R405). -/
  risen   : List Nat
  /-- This device's arrival at the open system barrier has risen to the device above it (15, R405). -/
  rose    : Bool
  /-- What the keepalives of other devices have carried: device, its time, and `gtime` here when it came (17, R445). -/
  times   : List (Nat × Word × Word)
  deriving DecidableEq, Repr

/-- An access that waits for a fill: its context, the number of its read, its address and length (15, R389). -/
structure FillWait where
  agent : Agent
  key   : Nat
  addr  : Nat
  bytes : Nat
  deriving DecidableEq, Repr

/-- A fill that a home has answered and whose reply is on its way: the line with its bytes, the accesses that wait for it, and
whether a probe for the line is held (12, R323; 15, R389). -/
structure Fill where
  quire   : Nat
  binding : Nat
  base    : Nat
  req     : Request
  data    : List Byte
  bad     : List Bool
  lease   : Option Lease
  waits   : List FillWait
  probed  : Bool
  way     : Transit
  deriving DecidableEq, Repr

/-- The on-die networks (15, R384 to R393): quires whose routers are gated; dies that drain, with the routers that will be
gated then; how many times a packet has come to a buffer; for each boundary the flits that its replay buffer keeps, by
packet and number; failed replays and failed retrainings of each link; boundaries marked down; and fills. Boundaries are
numbered 0 (dies 0 and 1), 1 (2 and 3), 2 (0 and 2), 3 (1 and 3); higher numbers are links of the torus and of the fabric. -/
structure Noc where
  gated    : List Nat
  draining : List (Nat × List Nat)
  moves    : Nat
  sent     : List (Nat × List (Nat × Nat))
  replays  : List (Nat × Nat)
  retrains : List (Nat × Nat)
  down     : List Nat
  fills    : List Fill
  deriving DecidableEq, Repr

/-- A frame from the part to the host (15, Table 15.8). -/
inductive Frame where
  /-- The status of a launch with its TAG (13, Table 13.2). -/
  | launched (tag : Word) (status : Nat)
  /-- A notice was delivered, or refused. -/
  | notice (ok : Bool)
  | data (bytes : List Byte)
  | ack
  | lstat (value : Word)
  | recall (addr : Nat)
  deriving DecidableEq, Repr

/-- The Ohmov link (15, R408 to R412): whether it is trained, frames to the host, and lines of 128 bytes of
binding 0 that the host caches. -/
structure Link where
  up     : Bool
  out    : List Frame
  cached : List Nat
  deriving DecidableEq, Repr

/-- What the part keeps of a configuration blob that it has accepted (17, R439, R440). -/
structure Blob where
  version : Nat
  fab     : Bool
  pubid   : List Byte
  hash    : List Byte
  /-- Quires out of service. -/
  outQ    : List Nat
  deriving DecidableEq, Repr

/-- A memory whose corrected errors are counted (16, R434): the HBM of a stack, the SRAM of a core, or the kettle store of a
quire. -/
inductive Ram where
  | stack (n : Nat) | core (n : Nat) | kettles (q : Nat)
  deriving DecidableEq, Repr

/-- The management core (14 to 17). -/
structure Mgmt where
  /-- The flash, and the blob that the last power-on accepted (17, R439). -/
  flash   : Memory
  blob    : Blob
  /-- Logical-to-physical tables and failed masks (16, R436). -/
  qtab    : List (Nat × List Nat)
  failed  : List (Nat × BitVec 100)
  /-- Words of scratchpads that have been reported uncorrectable once (16, R437). -/
  errWords : List (Nat × Nat)
  /-- Corrected errors by memory and bank (16, R434). -/
  corrected : List ((Ram × Nat) × Nat)
  /-- Malformed page-table entries met by walkers (16, R418). -/
  malformed : Nat
  ready   : Bool
  fault   : Bool
  /-- Imago entry has resized binding 0 and waits for the walk (17, R444). -/
  walking : Bool
  /-- Arrivals at barriers of die and device level are held back (17, R444). -/
  holdBars : Bool
  /-- Dies that run at half clock (17, R442, R444, R447). -/
  half    : Vector Bool 4
  /-- Milliseconds for which a die has been below its thermal step (17, R447). -/
  cool    : Vector Nat 4
  /-- The last ten readings of the module's power in W, one a millisecond (17, R447). -/
  powers  : List Nat
  /-- A step of bring-up has failed, or every core has been stopped: no later step runs until a power cycle (17, R441, R447). -/
  stuck   : Bool
  /-- The seeds of the identity key (17, R448). -/
  seeds   : List Byte
  /-- Nanoseconds for which `gtime` still holds (17, R445). -/
  gtHold  : Nat
  /-- Contexts saved out by pre-emption: save address and quire (16, R414, R430). -/
  savedOut : List (Nat × Nat)
  /-- Answers on SMBus (15, R413; 17, R449). -/
  smbus   : List (List Byte)
  deriving DecidableEq, Repr

/-- Which unit a step of the part acts on, and with what: each such step says in its docstring which fields it reads. -/
structure Turn where
  core  : Nat := 0
  ctx   : Fin 11 := 0
  unit  : Nat := 0
  index : Nat := 0
  addr  : Nat := 0
  value : Word := 0
  flag  : Bool := false
  bytes : List Byte := []
  list  : List Nat := []
  opt   : Option Word := none
  level : Level := .quire
  kind  : Access := .load
  packet : Option Packet := none
  reply  : Option Reply := none
  /-- Flits that arrive in a fabric cycle, by port: 64 bytes each. -/
  flits  : List (Nat × List Byte) := []
  /-- The event has been held and is tried again. -/
  again  : Bool := false
  deriving DecidableEq, Repr

/-- The device. -/
structure State where
  /-- Index of free values (log 3). -/
  tick    : Nat
  gtime   : Word
  /-- The core and the context that issue, and their instruction (log 3). -/
  cur     : Nat
  ctx     : Fin 11
  issue   : Issue
  /-- How far the instruction in flight reads in this step, where its access is one of several pieces: the piece that it
  reads; none lets it read all (log 76). -/
  grain   : Option Nat
  /-- The unit that a step of the part acts on (log 3). -/
  turn    : Turn
  /-- The context that issues next; none leaves the choice free (log 3). -/
  chosen  : Option Agent
  /-- Events that have reached the part and are not yet performed, oldest first (log 4). -/
  inputs  : List (Instr × Turn)
  /-- Events that wait, oldest first: frames held in the link, and requests to the management core (log 4). -/
  held    : List (Instr × Turn)
  cores   : List (Nat × Core)
  quires  : List (Nat × Quire)
  /-- HBM by canonical address (12, R335). -/
  hbm     : Memory
  /-- Doubles of HBM that hold an uncorrectable error (16, R433). -/
  badHbm  : List Nat
  bindings : List (Nat × Binding)
  wls     : List (Nat × Worklist)
  /-- Operations on their way to a kettle store, in issue order (06, R148; 13, R349). -/
  kops    : List Kop
  /-- Holds of tasks saved out by pre-emption, by save address (13, R359; 16, Table 16.7). -/
  parked  : List (Nat × (Nat × Nat))
  granules : List Granule
  watches : List Watch
  episodes : List Episode
  /-- Messages in the network (06, R153). -/
  net     : List (Transit × Msg)
  tree    : List TreeMsg
  /-- Device number, extents of the torus, and the mode (17, R440, R442; 15, R394). -/
  devid   : Nat
  extents : Nat × Nat × Nat
  imago   : Bool
  /-- The quires in service, rising (17, R442, R444; 16, R438). -/
  service : List Nat
  /-- The thermal step of each die (17, R447). -/
  thermal : Vector Nat 4
  /-- The core that each die's grammar unit served last (14, R383). -/
  gramLast : Vector Nat 4
  /-- Reports to the management core by kind: 2 a pre-emption request that a core refused (16, R430), 3 a restore that
  it refused (16, R431), 4 a loss of a device (15, R403), 5 a read or write of the host that was refused, 6 a remote
  invalidation that is complete (16, R422), 7 a core reset that was refused (17, R446), 8 a core that has stopped and runs
  no helper any more (01, R16; 10, R283). -/
  reports : List (Nat × Nat)
  /-- The stacks of dies 1 to 3 have been trained (17, R441, R442). -/
  trained : Bool
  /-- FABCTL, PRCTL and the lost set (15, R402, R403, R406). -/
  fabctl  : Word
  prctl   : Word
  lost    : List Nat
  fabric  : Fabric
  noc     : Noc
  link    : Link
  mgmt    : Mgmt
  deriving DecidableEq, Repr

/-! ### Reset -/

def Ctx.reset : Ctx :=
  { pc := 0, w := Vector.replicate 32 0, mode := 0, hstat := 0, hcause := 0, resv := none, watch := none, woken := false
    queued := none, granted := none, amo := none, hand := none, remote := none, posted := none, counts := none, waiting := false
    yields := false, wants := [], chain := none, got := [] }

/-- The system registers at reset (01, Tables 1.2, 1.4, 1.5, 1.7; 12, Tables 12.2, 12.3; 04, R82, R88). -/
def Csr.reset : Csr :=
  { status := 2, tvec := 0, tcause := 0, tval := 0, epc := 0, upvec := 0, upcause := 0, upval := 0, upepc := 0
    dmem := 0x17, mgovStall := 0, winsel := 0, bindsel := 0, actl := 0, aflags := 0, rngkey := 0, dqlocal := 0
    dqspill := 0, fmt := Vector.replicate 4 0, wins := Vector.replicate 8 ⟨0, 0⟩, table := Vector.replicate 256 0 }

/-- Logical cores of a quire, and quires of a die (00, R5). -/
def quireCores : Nat := 96
def dieQuires : Nat := 48
def quireOf (core : Nat) : Nat := core / 96
def qcoreOf (core : Nat) : Nat := core % 96
def dieOf (core : Nat) : Nat := core / 4608
def quireDie (quire : Nat) : Nat := quire / 48

/-- The quires that are in service in chrysalis mode (12, R320; 17, R442). -/
def chrysalisQuires : List Nat := List.range 12

/-- The shares of a core at reset: share 30 of cores 0 to 15 of each quire in service belongs to binding 0 (12, R320). -/
def resetShares (core : Nat) : Vector Share 32 :=
  if core % 96 < 16 && core / 96 < 12 then (Vector.replicate 32 Share.own).set 30 (.held 0)
  else Vector.replicate 32 Share.own

/-- A core at reset; its number seeds its LFSR (13, R346). -/
def Core.reset (core : Nat) : Core :=
  { ctxs := Vector.replicate 11 Ctx.reset, v := Vector.replicate 32 0, m := Vector.replicate 8 0
    acc := Vector.replicate 4 (Vector.replicate 64 0), csr := Csr.reset, spad := [], shares := resetShares core
    sb := [], itlb := [], dtlb := [], lastCtx := 0, fetched := [], peers := [], peerHand := none, unacked := [], run := .asleep, folio := 0, hold := []
    next := none, deque := ⟨[], 0, [], 0, []⟩, ready := [], recruit := none
    lfsr := 0xACE1#16 ^^^ BitVec.ofNat 16 core, probes := none, wake := false, called := false, inbox := [], overflow := none, sendq := []
    barPass := none, barWait := none, impErr := [], repFault := none, overrun := none, badHandle := []
    bpHit := none, bps := Vector.replicate 4 none, preempt := none, restore := none, bad := []
    mcfg := 0, mops := [], nanc := 0, infc := 0, repk := 0, repf := false, govLast := 0, govUsed := 0, govAt := 0
    allowance := 256, conduits := Vector.replicate 4 ⟨0, 0, 0, false, false, 0, 0, 0, 0⟩, rep := none, phase := none
    recv := Vector.replicate 6 0, afterBar := false, copyReq := none, copyOk := false
    grammar := Grammar.reset, gwork := none }

def Quire.reset : Quire :=
  { kettles := [], kaux := [], counters := Vector.replicate 64 0, lines := [], slices := [], forwards := [], leases := [], lfsrs := []
    qasr := 0, tlb2 := [], nodes := [], badKettles := []
    sewClk := 0, drives := [], rects := [], holds := [], govctl := 256, govNext := 256, govAsked := 256, cmds := [], comps := []
    accepted := 0, lastStart := 0 }

/-- Binding 0 as bring-up defines it over the quires in service (12, R320). -/
def binding0 (quires : List Nat) : BindRec :=
  { home := true, line := 128, ways := 8, policy := 0, repl := 0, hash := 1, lease := 1000
    count := quires.map fun q => (q, 16) }
def BindRec.empty : BindRec :=
  { home := false, line := 64, ways := 1, policy := 0, repl := 0, hash := 0, lease := 0, count := [] }
def Binding.reset : Binding := { state := .undefined, rec' := BindRec.empty, old := .none, passed := [] }

def Issue.reset : Issue :=
  { pc := 0, wordPc := 0, next := 0, chain := Chain.plain 0 0 0, reissue := false, stay := false, took := false, jumped := false }

def Plane.reset : Plane := { inject := [], out := [], refused := [], discard := [] }
def Fabric.reset : Fabric :=
  { planes := Vector.replicate 8 Plane.reset, buffers := [], sent := [], nextPid := 0, dropped := 0, answers := [], refusals := [], risen := [], rose := false, times := [] }
def Noc.reset : Noc := { gated := [], draining := [], moves := 0, sent := [], replays := [], retrains := [], down := [], fills := [] }
/-- The management core after bring-up with a blob of version 0 (log 21). -/
def Mgmt.reset : Mgmt :=
  { flash := [], blob := ⟨0, false, List.replicate 64 0, List.replicate 32 0, []⟩, qtab := [], failed := [], errWords := []
    corrected := [], malformed := 0, ready := false, fault := false, walking := false, holdBars := false
    half := Vector.replicate 4 true, cool := Vector.replicate 4 0, powers := [], stuck := false
    seeds := List.replicate 96 0, gtHold := 0, savedOut := [], smbus := [] }

/-- The device in chrysalis service, after step 6 of bring-up (17, R441): no core has a task (log 5). -/
def State.reset : State :=
  { tick := 0, gtime := 0, cur := 0, ctx := 0, issue := Issue.reset, grain := none, turn := {}, chosen := none, inputs := [], held := [], cores := []
    quires := [], hbm := [], badHbm := [], bindings := [(0, ⟨.active, binding0 chrysalisQuires, none, []⟩)]
    wls := [], kops := [], parked := [], granules := [], watches := [], episodes := [], net := [], tree := []
    devid := 0, extents := (1, 1, 1), imago := false, service := chrysalisQuires
    thermal := Vector.replicate 4 0, gramLast := Vector.replicate 4 0, reports := [], trained := false, fabctl := 4000
    prctl := 0, lost := [], fabric := Fabric.reset, noc := Noc.reset, link := ⟨true, [], []⟩, mgmt := Mgmt.reset }

end Sys2Proof.Machine
end

