-- ==== Sys2Proof/Machine/Ops.lean ====
section
/-! DEFINITION. Operations over memory and registers, and taking and leaving an exception. -/

namespace Sys2Proof.Machine

/-! ### Bytes -/

/-- The byte at an address; an unlisted byte reads 0. -/
def Memory.get (m : Memory) (a : Nat) : Byte := mapGet m a 0
/-- Memory with one byte stored; a zero byte is not listed. -/
def Memory.set (m : Memory) (a : Nat) (b : Byte) : Memory :=
  match m with
  | [] => if b = 0 then [] else [(a, b)]
  | (k, c) :: r =>
    if k = a then if b = 0 then r else (a, b) :: r
    else if a < k then if b = 0 then (k, c) :: r else (a, b) :: (k, c) :: r
    else (k, c) :: Memory.set r a b
/-- The canonical form: addresses strictly rising, no zero byte listed. -/
def Memory.wf : Memory → Bool
  | [] => true
  | [(_, b)] => b != 0
  | (k, b) :: (j, c) :: r => b != 0 && k < j && Memory.wf ((j, c) :: r)
/-- `n` bytes from an address up. -/
def Memory.read (m : Memory) (a : Nat) : Nat → List Byte
  | 0 => []
  | n + 1 => Memory.get m a :: Memory.read m (a + 1) n
def Memory.write (m : Memory) (a : Nat) : List Byte → Memory
  | [] => m
  | b :: r => Memory.write (Memory.set m a b) (a + 1) r
/-- The bits of a byte that a store writes, merged into the old byte. -/
def StoreByte.merge (s : StoreByte) (old : Byte) : Byte := (s.value &&& s.mask) ||| (old &&& ~~~s.mask)
def Memory.merge (m : Memory) (a : Nat) : List StoreByte → Memory
  | [] => m
  | b :: r => Memory.merge (Memory.set m a (b.merge (Memory.get m a))) (a + 1) r
/-- `n` bytes cleared. -/
def Memory.clear (m : Memory) (a n : Nat) : Memory := Memory.write m a (List.replicate n 0)

/-- Little-endian bytes of a number, and the number of little-endian bytes (00, R6). -/
def toBytes : Nat → Nat → List Byte
  | 0, _ => []
  | n + 1, v => BitVec.ofNat 8 v :: toBytes n (v / 256)
def ofBytes : List Byte → Nat
  | [] => 0
  | b :: r => b.toNat + 256 * ofBytes r
def wordOf (bs : List Byte) : Word := BitVec.ofNat 64 (ofBytes bs)
def storeBytes (bs : List Byte) : List StoreByte := bs.map fun b => ⟨b, 0xFF⟩

/-! ### Cores, contexts and registers -/

/-- What a context keeps of a waiting instruction is dropped. -/
def Ctx.forget (c : Ctx) : Ctx :=
  { c with queued := none, granted := none, wants := [], amo := none, hand := none, remote := none, posted := none, counts := none, chain := none, got := [] }
/-- A context goes on at an address: its instruction is over. -/
def Ctx.endWait (c : Ctx) (next : Word) : Ctx := { c.forget with pc := next, waiting := false }

/-- A number enters a list of numbers in rising order. -/
def insertNat (x : Nat) : List Nat → List Nat
  | [] => [x]
  | y :: r => if x = y then y :: r else if x < y then x :: y :: r else y :: insertNat x r

/-- The cores of a quire. -/
def quireMembers (q : Nat) : List Nat := (List.range 96).map fun i => q * 96 + i

namespace State

def core (s : State) (n : Nat) : Core := mapGet s.cores n (Core.reset n)
def setCore (s : State) (n : Nat) (c : Core) : State := { s with cores := mapPut s.cores n c }
def onCore (s : State) (n : Nat) (f : Core → Core) : State := s.setCore n (f (s.core n))
def quire (s : State) (q : Nat) : Quire := mapGet s.quires q Quire.reset
def setQuire (s : State) (q : Nat) (x : Quire) : State := { s with quires := mapPut s.quires q x }
def onQuire (s : State) (q : Nat) (f : Quire → Quire) : State := s.setQuire q (f (s.quire q))
def binding (s : State) (b : Nat) : Binding := mapGet s.bindings b Binding.reset
def setBinding (s : State) (b : Nat) (x : Binding) : State := { s with bindings := mapPut s.bindings b x }

/-- The core that issues, its quire, and the context that issues. -/
def me (s : State) : Core := s.core s.cur
def setMe (s : State) (c : Core) : State := s.setCore s.cur c
def onMe (s : State) (f : Core → Core) : State := s.setMe (f s.me)
/-- The context that issues. -/
def agent (s : State) : Agent := ⟨s.cur, s.ctx⟩
def myQuire (s : State) : Nat := quireOf s.cur
def myCtx (s : State) : Ctx := s.me.ctxs[s.ctx]
def onMyCtx (s : State) (f : Ctx → Ctx) : State :=
  s.onMe fun c => { c with ctxs := c.ctxs.set s.ctx (f c.ctxs[s.ctx]) }
/-- The system registers of the core that issues. -/
def csr (s : State) : Csr := s.me.csr
def onCsr (s : State) (f : Csr → Csr) : State := s.onMe fun c => { c with csr := f c.csr }

/-- General, vector and mask registers of the issuing context. -/
def w (s : State) (r : Reg) : Word := s.myCtx.w[r]
def setW (s : State) (r : Reg) (x : Word) : State := s.onMyCtx fun c => { c with w := c.w.set r x }
def v (s : State) (r : VReg) : VecReg := s.me.v[r]
def setV (s : State) (r : VReg) (x : VecReg) : State := s.onMe fun c => { c with v := c.v.set r x }
def m (s : State) (r : MReg) : MaskReg := s.me.m[r]
def setM (s : State) (r : MReg) (x : MaskReg) : State := s.onMe fun c => { c with m := c.m.set r x }
/-- Sticky flags are set and never cleared by an operation (01, R20). -/
def raise (s : State) (f : Flags) : State :=
  s.onCsr fun c => { c with aflags := c.aflags ||| f.zeroExtend 64 }

/-- A control transfer: where the next instruction stands (05, R117). -/
def setNext (s : State) (a : Word) : State := { s with issue := { s.issue with next := a, jumped := true } }
def stay (s : State) : State := { s with issue := { s.issue with stay := true } }
/-- The instruction is over: the context goes on at the next one, or stays at this one and waits. -/
def advance (s : State) : State :=
  s.onMyCtx fun c =>
    if s.issue.stay then { c with waiting := true, wants := [] }
    else c.endWait s.issue.next

/-- A step of the part acts as a context of a core and leaves who issues as it was. -/
def acting (s : State) (n : Nat) (x : Fin 11) (f : State → State) : State :=
  let t := f { s with cur := n, ctx := x }
  { t with cur := s.cur, ctx := s.ctx, issue := s.issue }

end State

/-! ### Modes -/

/-- MODE of `status` (01, Table 1.2): 0 user, 1 upcall, 2 supervisor. -/
def Csr.mode (c : Csr) : Nat := (c.status.extractLsb' 0 2).toNat
/-- The mode of the context that issues (01, R9, R13); of a reissue, the mode in which its body was recorded. -/
def State.mode (s : State) : Nat := if s.ctx = 0 && !s.issue.reissue then s.csr.mode else s.myCtx.mode
def Csr.pmode (c : Csr) : BitVec 2 := c.status.extractLsb' 2 2
def Csr.tk (c : Csr) : Bool := c.status.getLsbD 4
def Csr.pe (c : Csr) : Bool := c.status.getLsbD 5
/-- A communication phase is open (01, Table 1.2). -/
def Csr.ph (c : Csr) : Bool := c.status.getLsbD 6
/-- `status` with the given MODE, PMODE and TK; PE and PH stay, and the reserved bits read 0. -/
def statusWith (old : Word) (mode pmode : BitVec 2) (tk : Bool) : Word :=
  ((old.extractLsb' 5 2) ++ ((BitVec.ofBool tk) ++ (pmode ++ mode))).zeroExtend 64
def Csr.setPh (c : Csr) (on : Bool) : Csr :=
  { c with status := (c.status &&& ~~~(0x40#64)) ||| (if on then 0x40#64 else 0) }

def userMode : BitVec 2 := 0
def upcallMode : BitVec 2 := 1
def superMode : BitVec 2 := 2

/-! ### Exceptions -/

/-- What an instruction ends in when it has no effect: a trap, an upcall, or a wait, on what lines of a copy engine. -/
inductive Exc where
  | trap (cause : BitVec 6) (tval : Word)
  | upcall (kind : BitVec 6) (val : Word)
  | wait (on : List Place)
  deriving DecidableEq, Repr

/-- A context's reservation is lost (07, R185); the bank takes it back as a release. -/
def Ctx.loseResv (c : Ctx) : Ctx :=
  { c with resv := c.resv.map fun r => if r.state = .held then { r with state := .lost } else r }
def Granule.without (g : Granule) (a : Agent) : Granule :=
  { g with
    holder := match g.holder with | some (b, k) => if b = a then none else some (b, k) | none => none
    queue := g.queue.filter fun w => match w with | .request b _ => b ≠ a | .store _ | .forward _ | .copy _ | .engine _ _ | .remote _ _ => true }
/-- Granules with no holder and no queue are not kept. -/
def tidy (gs : List Granule) : List Granule := gs.filter fun g => g.holder.isSome || !g.queue.isEmpty
/-- A context loses its reservation and leaves the queue it waits in (07, R179, R185). -/
def State.loseResv (s : State) (a : Agent) : State :=
  let t := s.onCore a.core fun c =>
    { c with ctxs := c.ctxs.set a.ctx { (c.ctxs[a.ctx]).loseResv.forget with watch := none } }
  { t with granules := tidy (t.granules.map fun g => g.without a), watches := t.watches.filter fun w => w.agent ≠ a }

/-- A control context stops with its state intact: a double trap, or `halt` (01, R16; 10, R283). A sequence of its own
that still repeats ends with it, for the sequencer issues in its place (log 92). -/
def Core.stop (c : Core) : Core := { c with run := .stopped, rep := none }

/-- An address at which a context goes on: bit 0 of the program counter is always 0 (02, R58). -/
def evenPc (a : Word) : Word := a &&& ~~~(1#64)
/-- Taking a trap on a core whose control context is at `pc` with the saved address `epc` (01, Table 1.3, R16). What follows
does not directly follow a barrier (09, R238). -/
def Core.takeTrap (c : Core) (cause : BitVec 6) (tval epc : Word) : Core :=
  if c.csr.tk || c.csr.tvec == 0 then c.stop
  else
    { c with
      csr := { c.csr with
        status := statusWith c.csr.status superMode (c.csr.status.extractLsb' 0 2) true
        tcause := cause.zeroExtend 64, tval := tval, epc := epc }
      ctxs := c.ctxs.set 0 { c.ctxs[0] with pc := evenPc c.csr.tvec, waiting := false }
      afterBar := false }
/-- Taking an upcall, or the trap of its cause where the mode or `upvec` does not allow it (01, Table 1.3). -/
def Core.takeUpcall (c : Core) (kind : BitVec 6) (val pc : Word) : Core :=
  if c.csr.mode = 0 && c.csr.upvec != 0 then
    { c with
      csr := { c.csr with
        status := statusWith c.csr.status upcallMode c.csr.pmode c.csr.tk
        upcause := kind.zeroExtend 64, upval := val, upepc := pc }
      ctxs := c.ctxs.set 0 { c.ctxs[0] with pc := evenPc c.csr.upvec, waiting := false }
      afterBar := false }
  else c.takeTrap kind val pc
/-- A helper that faults ends and records its cause (01, R10; 07, R194). -/
def Core.endHelper (c : Core) (h : Fin 11) (cause : BitVec 6) : Core :=
  { c with ctxs := c.ctxs.set h { c.ctxs[h] with hstat := 3, hcause := cause, waiting := false } }
/-- `epc` of a trap: the faulting instruction, but the next one for causes 0x13 and 0x14 (01, Table 1.3). -/
def epcOf (i : Issue) (cause : BitVec 6) : Word := if cause = 0x13 || cause = 0x14 then i.next else i.pc

/-- All instructions of the body are recorded. -/
def RepSeq.recorded (r : RepSeq) : Bool := r.body.length == r.n
/-- A reissue faults: the fault waits for the control context's next boundary, and the sequence ends
(09, R258, R259). -/
def Core.repFails (c : Core) (cause : BitVec 6) (tval : Word) : Core :=
  { c with repFault := some (cause, tval), repf := true, repk := match c.rep with | some r => r.k | none => 0
           rep := c.rep.map fun r => { r with total := 0 } }
/-- A core that has stopped and runs no helper any more reports to the management core (01, R16; 10, R283). -/
def State.tellStop (s : State) (core : Nat) : State :=
  let c := s.core core
  if c.run = .stopped && !((List.finRange 11).any fun h => h ≠ 0 && c.ctxs[h].hstat = 1) then
    { s with reports := s.reports ++ [(8, core)] }
  else s
/-- The context that issues takes what its instruction ended in. A trap, an upcall and a helper's fault end the
reservation and the wait in a queue (07, R179, R185, R194). -/
def State.deliver (s : State) (e : Exc) : State :=
  match e with
  | .wait on => s.onMyCtx fun c => { c with waiting := true, wants := on }
  | .trap cause tval =>
    let s : State := { s with issue := { s.issue with took := true } }
    if s.issue.reissue then s.onMe fun c => c.repFails cause tval
    else
    let t := s.loseResv ⟨s.cur, s.ctx⟩
    if s.ctx = 0 then (t.onMe fun c => c.takeTrap cause tval (epcOf s.issue cause)).tellStop s.cur
    else (t.onMe fun c => c.endHelper s.ctx cause).tellStop s.cur
  | .upcall kind val =>
    let s : State := { s with issue := { s.issue with took := true } }
    if s.issue.reissue then s.onMe fun c => c.repFails kind val
    else
    let t := s.loseResv ⟨s.cur, s.ctx⟩
    if s.ctx = 0 then (t.onMe fun c => c.takeUpcall kind val s.issue.pc).tellStop s.cur
    else (t.onMe fun c => c.endHelper s.ctx kind).tellStop s.cur

/-- Returning from a trap: MODE := PMODE and TK := 0 (01, Table 1.3). MODE 3 does not occur: a PMODE of 3 gives a
mode that is open. -/
def Csr.leaveTrap (c : Csr) (free : Nat) : Csr :=
  { c with status := statusWith c.status (if c.pmode = 3 then BitVec.ofNat 2 (free % 3) else c.pmode) c.pmode false }
/-- Returning from an upcall: MODE := user (01, Table 1.3). -/
def Csr.leaveUpcall (c : Csr) : Csr := { c with status := statusWith c.status userMode c.pmode c.tk }

/-! ### Meanings as computations -/

/-- How a computation ends early: with an exception and no effect (02, R39), with one whose walk met a malformed entry,
which the walker counts (16, R418), or with a state that is final. -/
inductive Stop where
  | exc (e : Exc) | badWalk (e : Exc) | done (s : State)
  deriving DecidableEq, Repr

/-- A computation over the state that may end early. -/
abbrev M (α : Type) := StateT State (Except Stop) α

/-- The walker counts a malformed entry for the management core (16, R418). -/
def State.countMalformed (s : State) : State := { s with mgmt := { s.mgmt with malformed := s.mgmt.malformed + 1 } }
/-- The outcome of an instruction: it goes on, or the context takes what it ended in. -/
def M.run (x : M Unit) (s : State) : Host.Outcome State Fault Refusal :=
  match x s with
  | .ok ((), t) => .next t.advance
  | .error (.exc e) => .next (s.deliver e)
  | .error (.badWalk e) => .next (s.countMalformed.deliver e)
  | .error (.done t) => .next t

def raiseExc {α : Type} (e : Exc) : M α := throw (.exc e)
def trap {α : Type} (cause : BitVec 6) (tval : Word) : M α := raiseExc (.trap cause tval)
def upcall {α : Type} (kind : BitVec 6) (val : Word) : M α := raiseExc (.upcall kind val)
def waitOn {α : Type} (ps : List Place) : M α := raiseExc (.wait ps)
def waitHere {α : Type} : M α := waitOn []
/-- Trap 0x01 of an instruction whose fields are illegal: `tval` is its instruction word's address (02, R57). -/
def illegal {α : Type} : M α := do trap 0x01 (← get).issue.wordPc
def need (ok : Bool) (e : Exc) : M Unit := if ok then pure () else raiseExc e
def liftE {α : Type} (x : Except Exc α) : M α := match x with | .ok a => pure a | .error e => raiseExc e
def readW (r : Reg) : M Word := do return (← get).w r
def writeW (r : Reg) (x : Word) : M Unit := modify fun s => s.setW r x
def readV (r : VReg) : M VecReg := do return (← get).v r
def writeV (r : VReg) (x : VecReg) : M Unit := modify fun s => s.setV r x
/-- An exception that comes after effects that stay: the context takes it in the state with those effects. -/
def thenTake {α : Type} (e : Exc) : M α := do throw (.done ((← get).deliver e))
/-- The instruction stays and will issue again; its effects so far are kept. -/
def holdHere {α : Type} : M α := do throw (.done ((← get).stay.advance))
/-- The instruction has ended with a state that says itself where the context goes on. -/
def finish {α : Type} : M α := do throw (.done (← get))
/-- The control context executes the instruction; a helper ends with cause 0x01 (06, R136; 07, R170). -/
def controlOnly : M Unit := do if (← get).ctx = 0 then pure () else illegal
/-- The mode is at least the given one, else trap 0x02 (01, R13). -/
def needMode (least : Nat) (tval : Word) : M Unit := do
  if least ≤ (← get).mode then pure () else trap 0x02 tval
/-- Trap 0x07 while a communication phase is open (07, R193; 09, R240). -/
def barPhase : M Unit := do if (← get).csr.ph then trap 0x07 0 else pure ()
/-- The next value of the counter that free values are applied to. -/
def freeIndex : M Nat := do
  let s ← get
  set { s with tick := s.tick + 1 }
  return s.tick

end Sys2Proof.Machine
end

