-- ==== Sys2Proof/Machine/Network.lean ====
section
/-! DEFINITION. The on-die networks: routers and attachments, routes, buffers, the bypass ring and the die boundaries
(15, R384 to R393). -/

namespace Sys2Proof.Machine

/-! ### Routers and what attaches to them (15, R384) -/

/-- Row and column of a router on its die of 6 rows by 8 columns. -/
def routerRow (r : Nat) : Nat := r % 48 / 8
def routerCol (r : Nat) : Nat := r % 48 % 8
def routerAt (die row col : Nat) : Nat := die * 48 + row * 8 + col
/-- Agents of a die (15, Table 15.1). -/
inductive NetAgent where
  | quire (q : Nat) | stack (die b : Nat) | plane (k : Nat) | boundary (die other : Nat) | ohmov
  deriving DecidableEq, Repr
/-- The routers of a column, and of a row. -/
def columnOf (die col : Nat) : List Nat := (List.range 6).map fun r => routerAt die r col
def rowList (die row : Nat) : List Nat := (List.range 8).map fun c => routerAt die row c
/-- The routers to which an agent attaches (15, Table 15.1). -/
def NetAgent.routers : NetAgent → List Nat
  | .quire q => [q]
  | .stack d b => columnOf d (3 + b)
  | .plane k => rowList (k % 4) (if k < 4 then 0 else 5)
  | .boundary d e => if d / 2 = e / 2 then columnOf d (if d % 2 = 0 then 7 else 0) else rowList d (if d < 2 then 5 else 0)
  | .ohmov => columnOf 0 1
/-- Bytes of a network flit, and the network flits of a packet of some bytes, of at most 4 (15, R384, R385). -/
def netFlitBytes : Nat := 256
def netFlits (bytes : Nat) : Nat := Nat.max 1 (Nat.min 4 ((bytes + netFlitBytes - 1) / netFlitBytes))

/-! ### Routes (15, R385, R391, R392) -/

/-- Steps along a ring of `n` from one position to another: the shorter direction, the positive one on a tie. -/
def ringSteps (n a b : Nat) : List Nat × Bool :=
  let up := (b + n - a) % n
  let down := (a + n - b) % n
  if up ≤ down then ((List.range up).map fun i => (a + 1 + i) % n, true)
  else ((List.range down).map fun i => (a + n - 1 - i) % n, false)
/-- The way on the torus of one die: along the row ring to the target's column, then along the column ring. -/
def torusWay (a b : Nat) : List (Nat × NetPort) :=
  let d := a / 48
  let row := ringSteps 8 (routerCol a) (routerCol b)
  let col := ringSteps 6 (routerRow a) (routerRow b)
  (row.1.map fun c => (routerAt d (routerRow a) c, if row.2 then NetPort.rowUp else .rowDown))
    ++ col.1.map fun r => (routerAt d r (routerCol b), if col.2 then NetPort.colUp else .colDown)
/-- The way on the bypass ring: the attachments in increasing router number. -/
def bypassWay (a b : Nat) : List (Nat × NetPort) :=
  (List.range ((b % 48 + 48 - a % 48) % 48)).map fun i => (a / 48 * 48 + (a % 48 + 1 + i) % 48, NetPort.bypass)
/-- The way on one die: entirely on the bypass ring where the torus way passes a gated router. -/
def State.dieWay (s : State) (a b : Nat) : List (Nat × NetPort) :=
  let w := torusWay a b
  if s.noc.gated.contains a || w.any fun x => s.noc.gated.contains x.1 then bypassWay a b else w
/-- The number of the boundary between two dies that differ in one bit. -/
def boundaryOf (d e : Nat) : Nat := if d / 2 = e / 2 then d / 2 else 2 + d % 2
/-- Dies that a packet may pass through to another die, in order of preference: the XOR 1 boundary before the XOR 2 one;
else round by the other dies (15, R392, R393; log 88). -/
def diePaths (d e : Nat) : List (List Nat) :=
  let x := d ^^^ e
  if x = 3 then [[d ^^^ 1, e], [d ^^^ 2, e]] else if x = 0 then [[]] else [[e], [d ^^^ (3 - x), e ^^^ (3 - x), e]]
def pathUp (down : List Nat) : Nat → List Nat → Bool
  | _, [] => true
  | d, e :: r => !down.contains (boundaryOf d e) && pathUp down e r
/-- The next die on the way to another; none where it cannot be reached. -/
def State.nextDie (s : State) (d e : Nat) : Option Nat :=
  (((diePaths d e).find? fun p => pathUp s.noc.down d p).bind fun p => p.head?)
/-- The gateway nearest to a router, which lies in its row or in its column, and the router beyond it (log 88). -/
def gateway (r e : Nat) : Nat × Nat :=
  let d := r / 48
  if d / 2 = e / 2 then
    let out := if d % 2 = 0 then 7 else 0
    (routerAt d (routerRow r) out, routerAt e (routerRow r) (7 - out))
  else
    let out := if d < 2 then 5 else 0
    (routerAt d out (routerCol r), routerAt e (5 - out) (routerCol r))

/-! ### Packets on their way (15, R386 to R388) -/

/-- A packet that waits to be injected at its source. -/
def State.startWay (s : State) (net : VNet) (src dst flits : Nat) : Transit :=
  { net := net, src := src, dst := dst, at' := src, port := .inject, way := [], order := s.noc.moves, flits := flits }
def State.counted (s : State) : State := { s with noc := { s.noc with moves := s.noc.moves + 1 } }
/-- Every packet in the networks. -/
def State.transits (s : State) : List Transit :=
  s.net.map (fun x => x.1) ++ s.kops.filterMap (fun k => k.way) ++ s.noc.fills.map fun f => f.way
/-- Two packets stand in one buffer: packets that wait at their source hold up only those to the same target (15, R388), and
those that their targets have taken in hold up none. -/
def Transit.with (t u : Transit) : Bool :=
  t.net = u.net && t.at' = u.at' && t.port = u.port
    && match t.port with | .inject => t.dst = u.dst | .landed => false | _ => true
/-- The first packet of its buffer. -/
def State.first (s : State) (t : Transit) : Bool := !(s.transits.any fun u => t.with u && u.order < t.order)
/-- Packets in a buffer of a router. -/
def State.inBuffer (s : State) (net : VNet) (r : Nat) (p : NetPort) : Nat :=
  (s.transits.filter fun u => u.net = net && u.at' = r && u.port = p).length
/-- A packet stands at its target and may be taken in. -/
def State.arrived (s : State) (t : Transit) : Bool := t.at' = t.dst && t.way.isEmpty && s.first t
/-- A buffer of a router holds 4 packets; one that enters a ring needs two free places, one that continues one. -/
def State.roomAt (s : State) (t : Transit) (r : Nat) (p : NetPort) : Bool :=
  s.inBuffer t.net r p + (if t.port = p then 1 else 2) ≤ 4
/-- The die takes no packet in while it drains; one that is in its networks goes on, by another gateway where its boundary is
down (15, R391, R393). -/
def State.drains (s : State) (d : Nat) (t : Transit) : Bool :=
  (t.port = .inject || t.port = .boundary) && s.noc.draining.any fun x => x.1 = d
/-- A packet's next move: to which router and buffer, and its way from there; with the boundary that it crosses. -/
def State.nextMove (s : State) (t : Transit) : Option (Nat × NetPort × List (Nat × NetPort) × Option Nat) :=
  let along (way : List (Nat × NetPort)) : Option (Nat × NetPort × List (Nat × NetPort) × Option Nat) :=
    match way with
    | (r, p) :: rest => if s.roomAt t r p then some (r, p, rest, none) else none
    | [] => none
  if !s.first t || s.arrived t then none
  else match t.way with
  | w :: rest => along (w :: rest)
  | [] =>
    let d := t.at' / 48
    if d = t.dst / 48 then if s.drains d t then none else along (s.dieWay t.at' t.dst)
    else match s.nextDie d (t.dst / 48) with
      | none => none
      | some e =>
        let (g, far) := gateway t.at' e
        if t.at' = g then
          let k := boundaryOf d e
          if mapGet s.noc.replays k 0 = 0 then some (far, .boundary, [], some k) else none
        else if s.drains d t then none else along (s.dieWay t.at' g)
/-- The packet that came to its buffer as number `order` moves on. A boundary keeps its last 64 flits for a replay
(15, R393). -/
def State.move (s : State) (t : Transit) : State :=
  match s.nextMove t with
  | none => s
  | some (r, p, way, k) =>
    let u : Transit := { t with at' := r, port := p, way := way, order := s.noc.moves }
    let on (x : Transit) : Transit := if x = t then u else x
    let flits := (List.range t.flits).map fun i => (s.noc.moves, i)
    let sent := match k with
      | some k =>
        let old := mapGet s.noc.sent k [] ++ flits
        mapPut s.noc.sent k (old.drop (old.length - 64))
      | none => s.noc.sent
    { s with
      net := s.net.map fun x => (on x.1, x.2)
      kops := s.kops.map fun x => { x with way := x.way.map on }
      noc := { s.noc with moves := s.noc.moves + 1, sent := sent, fills := s.noc.fills.map fun f => { f with way := on f.way } } }
/-- The networks of a die are empty: what is left waits to be injected. -/
def State.dieEmpty (s : State) (d : Nat) : Bool :=
  s.transits.all fun t => t.at' / 48 ≠ d || t.port = .inject || t.port = .boundary || t.port = .landed
/-- A packet of a network is on its way from one attachment to another. -/
def State.onWay (s : State) (net : VNet) (src dst : NetAgent) : Bool :=
  s.transits.any fun t => t.net = net && src.routers.contains t.src && dst.routers.contains t.dst
/-- A request and its answer go their whole ways within the step that performs the access. They wait for the packets of their
networks that were sent before them between the same attachments (15, R388; log 98). -/
def State.wayShut (s : State) (src dst : NetAgent) : Bool :=
  src ≠ dst && (s.onWay .request src dst || s.onWay .reply dst src)

end Sys2Proof.Machine
end

