-- ==== Sys2Proof/Machine/Slices.lean ====
section
/-! DEFINITION. Where lines stand: the instances of near bindings, the home slices, the byte at the home of an address, and
the lines that copy engines own (07, R176; 09, R251; 12, R317, R322, R330; 14, R368). -/

namespace Sys2Proof.Machine

/-! ### Placement -/

/-- A binding is placed on a quire, and how many sets its instance there has (12, R317). -/
def BindRec.shares (r : BindRec) (q : Nat) : Nat := mapGet r.count q 0
def BindRec.sets (r : BindRec) (q : Nat) : Nat := r.shares q * 8192 / (r.line * r.ways)
/-- The index hash (12, R317). -/
def BindRec.index (r : BindRec) (pa : Nat) : Nat :=
  let n := pa / r.line
  if r.hash = 0 then n else n ^^^ (n >>> 13) ^^^ (n >>> 26) ^^^ (n >>> 39)
/-- The home slice's quire and set for a global set (12, R317). -/
def homeIn (r : BindRec) : List (Nat × Nat) → Nat → Option (Nat × Nat)
  | [], _ => none
  | (q, _) :: l, g => if g < r.sets q then some (q, g) else homeIn r l (g - r.sets q)
def BindRec.homeSlice (r : BindRec) (pa : Nat) : Option (Nat × Nat) :=
  let total := (r.count.map fun x => r.sets x.1).foldl (· + ·) 0
  if total = 0 then none else homeIn r r.count (r.index pa % total)
/-- The line's set in the instance of a near binding (12, R317). -/
def BindRec.nearSet (r : BindRec) (q pa : Nat) : Nat := if r.sets q = 0 then 0 else r.index pa % r.sets q

/-- The record under which a quire's instance serves an address, and whether its walker has passed the set; none when
the access goes to the home as `.unc` (12, R318, R328, R330). -/
def Binding.instanceFor (b : Binding) (q pa : Nat) : Option (BindRec × Bool) :=
  let now : Option (BindRec × Bool) := if 0 < b.rec'.shares q then some (b.rec', b.old.isSome) else none
  match b.old with
  | none => now
  | some o => if 0 < o.shares q && mapGet b.passed q 0 ≤ o.nearSet q pa then some (o, false) else now
/-- The record under which the home slices of a home binding serve an address, and whether the old slice's walker has
passed its set; none where they do not, and binding 0 serves it as `.unc` (12, R330). -/
def Binding.homeRec (b : Binding) (pa : Nat) : Option (BindRec × Bool) :=
  match b.state with
  | .undefined | .retired => none
  | .active | .resizing | .draining =>
    let now : Option (BindRec × Bool) := if b.rec'.count.isEmpty then none else some (b.rec', b.old.isSome)
    match b.old with
    | none => now
    | some o =>
      match o.homeSlice pa with
      | some (q, g) => if mapGet b.passed q 0 ≤ g then some (o, false) else now
      | none => now

/-! ### Lines -/

/-- A byte, and whether the double that holds it is uncorrectable (16, R435). -/
abbrev Cell' := Byte × Bool

def Line.holds (l : Line) (b pa : Nat) : Bool := l.binding = b && l.base ≤ pa && pa < l.base + l.data.length
def Line.cell (l : Line) (pa : Nat) : Cell' := (l.data.getD (pa - l.base) 0, l.bad.getD ((pa - l.base) / 8) false)
/-- The line that holds an address in a quire's instance of a binding, and in its slice of a home binding. -/
def Quire.line (x : Quire) (b pa : Nat) : Option Line := x.lines.find? fun l => l.holds b pa
def Quire.homeLine (x : Quire) (b pa : Nat) : Option Line := x.slices.find? fun l => l.holds b pa

/-! ### Homes -/

/-- The binding in whose slices the home of an address lies, for an access through binding `b`: a near binding's home is
that of binding 0 (12, R318, R330). -/
def State.homeBinding (s : State) (b pa : Nat) : Nat :=
  let x := s.binding b
  if x.rec'.home && (x.homeRec pa).isSome then b else 0
/-- A place at its home. -/
def State.atHome (s : State) (p : Place) : Place :=
  match p with
  | .hbm pa b => .hbm pa (s.homeBinding b pa)
  | .spad c off => .spad c off
  | .kettle q off => .kettle q off
  | .remote d pa => .remote d pa
/-- Where the slice of an address lies: its quire and its set, and the record. -/
def State.slice (s : State) (h pa : Nat) : Option (Nat × Nat × BindRec × Bool) :=
  match (s.binding h).homeRec pa with
  | some (r, m) => (r.homeSlice pa).map fun (q, g) => (q, g, r, m)
  | none => none
/-- The line of a home slice that holds an address. -/
def State.homeLine (s : State) (h pa : Nat) : Option Line :=
  match s.slice h pa with
  | some (q, _, _, _) => (s.quire q).homeLine h pa
  | none => none
/-- The attachment at which a place's home answers: a quire's scratchpads, kettle store or slices, the HBM stack of an
interleaved address, and for another device a plane of the gutter fabric (12, R334; 15, Table 15.1). -/
def State.attachment (s : State) (p : Place) : NetAgent :=
  match p with
  | .spad c _ => .quire (quireOf c)
  | .kettle q _ => .quire q
  | .hbm pa b =>
    match s.slice (s.homeBinding b pa) pa with
    | some (q, _, _, _) => .quire q
    | none => .stack (pa / 65536 % 4) (pa / 4096 % 2)
  | .remote d _ => .plane ((d ^^^ s.fabric.nextPid % 65536) % 8)
/-- The byte at the home of an address. -/
def State.homeCell (s : State) (h pa : Nat) : Cell' :=
  match s.homeLine h pa with
  | some l => l.cell pa
  | none => (Memory.get s.hbm pa, s.badHbm.contains (pa / 8))
def State.homeCells (s : State) (h pa n : Nat) : List Cell' := (List.range n).map fun i => s.homeCell h (pa + i)
def State.homeBytes (s : State) (h pa n : Nat) : List Byte := (s.homeCells h pa n).map fun c => c.1

/-! ### Lines that are kept from accesses -/

/-- Two ranges of bytes overlap. -/
def overlaps (a n b m : Nat) : Bool := a < b + m && b < a + n
/-- The reply to a fill of a line that holds some of the bytes is on its way: until it comes the home serves no other access
to the line (12, R323; 15, R389; log 89). -/
def State.filling (s : State) (p : Place) (n : Nat) : Bool :=
  match s.atHome p with
  | .hbm pa h => s.noc.fills.any fun f => overlaps f.base f.data.length pa n && s.homeBinding f.binding f.base = h
  | _ => false

/-- The aligned 64-byte line of a place at its home, and the lines of a run of bytes. -/
def lineOf : Place → Place
  | .spad c off => .spad c (off / 64 * 64)
  | .kettle q off => .kettle q (off / 64 * 64)
  | .hbm pa b => .hbm (pa / 64 * 64) b
  | .remote d pa => .remote d (pa / 64 * 64)
/-- A place `k` bytes further on. -/
def Place.add (p : Place) (k : Nat) : Place :=
  match p with
  | .spad c off => .spad c (off + k)
  | .kettle q off => .kettle q (off + k)
  | .hbm pa b => .hbm (pa + k) b
  | .remote d pa => .remote d (pa + k)
def Place.offset : Place → Nat
  | .spad _ o => o | .kettle _ o => o | .hbm pa _ => pa | .remote _ pa => pa
def linesOf (p : Place) (n : Nat) : List Place :=
  (List.range ((p.offset % 64 + n + 63) / 64)).map fun i => (lineOf p).add (64 * i)
def Piece.lines (x : Piece) : List Place := x.runs.flatMap fun r => r.dst.flatMap fun p => linesOf p r.bytes
/-- A command owns a line until it has written it; a line of a gap until its completion word (14, R368). -/
def CopyCmd.owns (c : CopyCmd) (l : Place) : Bool := c.gaps.contains l || c.pieces.any fun x => x.lines.contains l
/-- Lines of the bytes that a copy engine of the device owns. -/
def State.ownedLines (s : State) (p : Place) (n : Nat) : List Place :=
  (linesOf (s.atHome p) n).filter fun l => s.quires.any fun q => q.2.cmds.any fun c => c.owns l
/-- An HBM stack that bring-up has not trained yet keeps an access waiting (17, R442). -/
def State.untrained (s : State) (p : Place) : Bool :=
  match p with | .hbm pa _ => !s.trained && pa / 65536 % 4 ≠ 0 | _ => false
/-- What keeps an access to the bytes waiting: their place in a stack that is not trained yet, and lines that an engine owns. -/
def State.waitsFor (s : State) (p : Place) (n : Nat) : List Place :=
  (if s.untrained p then [p] else []) ++ s.ownedLines p n
/-- An access to the bytes waits: a copy engine owns a line of them (14, R368), or a fill of one is on its way. -/
def State.owned (s : State) (p : Place) (n : Nat) : Bool :=
  (linesOf (s.atHome p) n).any (fun l => s.quires.any fun q => q.2.cmds.any fun c => c.owns l) || s.filling p n

end Sys2Proof.Machine
end

