-- ==== Sys2Proof/Machine/Address.lean ====
section
/-! DEFINITION. Addresses, the checks of an access in the order of Table 5.7 of 05, page tables and TLBs
(01, R26 to R28; 05, R124; 12, R309, R334, R335; 16, R414 to R421). -/

namespace Sys2Proof.Machine

/-! ### Regions -/

/-- The regions of the virtual address space (01, Table 1.8). -/
inductive Region where
  | user | super | loc (win slot off : Nat) | bad
  deriving DecidableEq, Repr

def localBase : Nat := 0xFFFFF00000000000
/-- The region of an address; a reserved or non-canonical one is `bad` (01, R26, R27). -/
def regionOf (va : Word) : Region :=
  let a := va.toNat
  if a < 0x0100000000000000 then .user
  else if a < 0xFF00000000000000 then .bad
  else if a < localBase then .super
  else if a < localBase + 0x10000000 then
    .loc (va.extractLsb' 25 3).toNat (va.extractLsb' 18 7).toNat (va.extractLsb' 0 18).toNat
  else .bad
/-- The slot-0 win0 address of an offset of the issuing core's scratchpad. -/
def localAddr (off : Nat) : Word := BitVec.ofNat 64 (localBase + off)

/-- Rows 1 and 2 of Table 5.7: the region, and the mode for the supervisor half. -/
def checkRegion (s : State) (va tval : Word) : Except Exc Region :=
  match regionOf va with
  | .bad => .error (.upcall 0x20 tval)
  | .super => if s.mode = 2 then .ok .super else .error (.trap 0x02 tval)
  | r => .ok r
/-- Row 3: alignment. -/
def checkAlign (va : Word) (n : Nat) (tval : Word) : Except Exc Unit :=
  if va.toNat % n = 0 then .ok () else .error (.trap 0x03 tval)

/-- The core that a slot of the local region names, for an access of quire `quireOf cur` (01, Table 1.9). -/
def slotCore (cur slot : Nat) : Option Nat :=
  if slot = 0 then some cur else if slot ≤ 96 then some (quireOf cur * 96 + (slot - 1)) else none
/-- No byte from `off` to `off + n - 1` lies in a share that is not OWN (12, R309). -/
def sharesOwn (c : Core) (off n : Nat) : Bool :=
  (List.range 32).all fun k =>
    c.shares.toList.getD k .own = .own || off + n ≤ k * 0x2000 || (k + 1) * 0x2000 ≤ off
/-- Rows 4 and 5 for an access of raw bytes: only win0 serves (01, R28; 04, Table 4.6). -/
def checkLocal (s : State) (win slot off n : Nat) (tval : Word) : Except Exc Place :=
  if win ≠ 0 then .error (.trap 0x04 tval)
  else if slot = 127 then
    if off + n ≤ 0x10000 then .ok (.kettle s.myQuire off) else .error (.trap 0x04 tval)
  else match slotCore s.cur slot with
    | none => .error (.trap 0x04 tval)
    | some c =>
      if 0x40000 < off + n then .error (.trap 0x04 tval)
      else if sharesOwn (s.core c) off n then .ok (.spad c off) else .error (.trap 0x05 tval)

/-! ### HBM views -/

/-- The canonical address of a physical address; none for an address in no view (12, R334, R335). -/
def canonical (p : Nat) : Option Nat :=
  if p < 0x6000000000 then some p
  else if p < 0x200000000000 then none
  else
    let k := p - 0x200000000000
    let st := k / 0x1000000000
    let off := k % 0x1000000000
    if st < 8 && off < 0xC00000000 then
      some (off / 0x8000 * 0x40000 + st / 2 * 0x10000 + off / 0x1000 % 8 * 0x2000 + st % 2 * 0x1000 + off % 0x1000)
    else none

/-! ### Page tables -/

namespace Pte
def v (e : Word) : Bool := e.getLsbD 0
def leaf (e : Word) : Bool := e.getLsbD 1
def w (e : Word) : Bool := e.getLsbD 2
def x (e : Word) : Bool := e.getLsbD 3
def u (e : Word) : Bool := e.getLsbD 4
def g64 (e : Word) : Bool := e.getLsbD 5
def mig (e : Word) : Bool := e.getLsbD 6
def rmt (e : Word) : Bool := e.getLsbD 7
def ch (e : Word) : Nat := (e.extractLsb' 8 4).toNat
def pa (e : Word) : Nat := (e.extractLsb' 12 34).toNat * 4096
def bind (e : Word) : Nat := (e.extractLsb' 46 6).toNat
def dev (e : Word) : Nat := (e.extractLsb' 46 18).toNat
end Pte

/-- A device number inside the extents of the configuration blob: six bits for each coordinate (15, R394). -/
def State.deviceValid (s : State) (d : Nat) : Bool :=
  d % 64 < s.extents.1 && d / 64 % 64 < s.extents.2.1 && d / 4096 < s.extents.2.2

/-- A malformed entry at a level (16, R418). -/
def malformed (s : State) (level : Nat) (va : Word) (e : Word) : Bool :=
  let leafBits := 12 + 9 * level
  (Pte.leaf e && 3 ≤ level) || (Pte.v e && !Pte.leaf e && level = 0) || (Pte.g64 e && 0 < level)
    || (Pte.leaf e && Pte.pa e % 2 ^ leafBits != 0)
    || (Pte.leaf e && Pte.g64 e && Pte.pa e / 4096 % 16 != va.toNat / 4096 % 16)
    || (!Pte.leaf e && (Pte.w e || Pte.x e || Pte.u e || Pte.g64 e || Pte.ch e != 0))
    || (!Pte.leaf e && !Pte.rmt e && Pte.bind e != 0)
    || (!Pte.rmt e && e.extractLsb' 52 12 != 0#12)
    || (Pte.rmt e && (Pte.dev e = s.devid || !s.deviceValid (Pte.dev e)))
    || (!Pte.rmt e && (canonical (Pte.pa e)).isNone)

/-- Entries of a group that carry G64 agree: all fields but PA, and PA runs on from the group's base (16, R419). -/
def groupAgrees (own : Word) (p : Nat) (others : List (Nat × Word)) : Bool :=
  others.all fun (j, e) => !(Pte.v e && Pte.g64 e) ||
    ((e &&& 0xFFFFC00000000FFF#64) == (own &&& 0xFFFFC00000000FFF#64) && Pte.pa e + p * 4096 = Pte.pa own + j * 4096)

/-- One entry of a node, read at its home in binding 0 as a double (16, R421): none where the double is uncorrectable. A
line that a copy engine owns keeps the walker waiting (11, R306), and so does a stack that is not trained (17, R442). -/
def readEntry (s : State) (node idx : Nat) : Except Exc (Option Word) :=
  match canonical (node + 8 * idx) with
  | some a =>
    if s.owned (.hbm a 0) 8 || s.untrained (.hbm a 0) then .error (.wait (s.waitsFor (.hbm a 0) 8))
    else if (s.homeCell 0 a).2 then .ok none else .ok (some (wordOf (s.homeBytes 0 a 8)))
  | none => .ok (some 0)
/-- The entries of a group of 16, as one that cannot be read counts as invalid (16, R419). -/
def readGroup (s : State) (node first : Nat) : Except Exc (List (Nat × Word)) :=
  (List.range 16).mapM fun j => (readEntry s node (first + j)).map fun e => (j, e.getD 0)

/-- What a walk found: the leaf's translation and the pointers that it read. -/
structure Walked where
  entry : TlbEntry
  nodes : List NodeEntry
  deriving DecidableEq, Repr

/-- A walk from a node at a level down to a leaf; `n` is the level plus one. The rows of Table 16.4 in order. A
pointer may come from the node cache (16, R420). -/
def walkFrom (s : State) (va tval : Word) : Nat → Nat → List NodeEntry → Except Stop Walked
  | 0, _, _ => .error (.exc (.upcall 0x20 tval))
  | level + 1, node, seen =>
    let sh := 12 + 9 * level
    let pre := va.toNat / 2 ^ sh
    let cached := (s.quire s.myQuire).nodes.find? fun e => e.level = level && e.vaPart = pre
    let read : Except Exc (Option Word) := match cached with | some e => .ok (some e.pte) | none => readEntry s node (pre % 512)
    match read with
    | .error w => .error (.exc w)
    | .ok none => .error (.exc (.trap 0x0E tval))
    | .ok (some e) =>
      if !Pte.v e then .error (.exc (.upcall (if Pte.leaf e && 0 < level then 0x22 else 0x20) tval))
      else if malformed s level va e then .error (.badWalk (.upcall 0x20 tval))
      else if Pte.mig e then .error (.exc (.upcall 0x24 tval))
      else if Pte.leaf e then
        if Pte.g64 e then
          let p := pre % 16
          match readGroup s node (pre % 512 / 16 * 16) with
          | .error w => .error (.exc w)
          | .ok others =>
          let j := Config.groupEntry s.tick % 16
          let used := if groupAgrees e p others then e
            else match others[j]? with
              | some (_, f) =>
                let at' := BitVec.ofNat 64 (va.toNat / 65536 * 65536 + j * 4096)
                if Pte.v f && Pte.leaf f && Pte.g64 f && !Pte.mig f && !malformed s 0 at' f then f else e
              | none => e
          let base := Pte.pa used / 65536 * 16
          .ok ⟨⟨va.toNat / 65536 * 65536, 16, (used &&& ~~~(0x3FFFFFFFF#64 <<< 12)) ||| (BitVec.ofNat 64 base <<< 12)⟩, seen⟩
        else .ok ⟨⟨pre * 2 ^ sh, sh, e⟩, seen⟩
      else if Pte.rmt e then .error (.exc (.upcall 0x23 tval))
      else walkFrom s va tval level (Pte.pa e) (⟨level, pre, e⟩ :: seen)

/-- A walk from the root of the issuing quire's address space (16, R414, R416). -/
def walk (s : State) (va tval : Word) : Except Stop Walked :=
  let q := (s.quire s.myQuire).qasr
  if !q.getLsbD 0 then .error (.exc (.upcall 0x20 tval))
  else
    let root := (q.extractLsb' 12 34).toNat * 4096
    if (canonical root).isNone then .error (.badWalk (.upcall 0x20 tval)) else walkFrom s va tval 5 root []

/-! ### TLBs -/

def TlbEntry.covers (e : TlbEntry) (va : Word) : Bool := va.toNat / 2 ^ e.bits = e.base / 2 ^ e.bits
/-- An entry enters a list of at most `cap`; which one leaves a full list is open (16, R420). -/
def tlbInsert {α : Type} (cap tick : Nat) (e : α) (l : List α) : List α :=
  if l.length < cap then e :: l else e :: l.eraseIdx (Config.tlbVictim tick % l.length)

/-- The set of the quire's TLB that an entry goes into; how it is formed is open (16, R420). -/
def TlbEntry.set (e : TlbEntry) : Nat := Config.tlbSet e.bits (e.base / 2 ^ e.bits) % 256
/-- An entry enters the quire's TLB of 2,048 entries, 8 in each set; which one leaves a full set is open (16, R420). -/
def tlb2Insert (tick : Nat) (e : TlbEntry) (l : List TlbEntry) : List TlbEntry :=
  let same := l.filter fun x => x.set = e.set
  if same.length < 8 then e :: l
  else match same[Config.tlbVictim tick % same.length]? with | some x => e :: l.erase x | none => e :: l

/-- A cached translation, in the core's TLB or in the quire's. -/
def tlbLookup (s : State) (va : Word) (fetch : Bool) : Option TlbEntry :=
  let l := if fetch then s.me.itlb else s.me.dtlb
  match l.find? fun e => e.covers va with
  | some e => some e
  | none => (s.quire s.myQuire).tlb2.find? fun e => e.covers va

/-- The core's TLB takes an entry that it does not hold. -/
def State.keepEntry (s : State) (e : TlbEntry) (va : Word) (fetch : Bool) : State :=
  s.onMe fun c =>
    if fetch then if c.itlb.any fun x => x.covers va then c else { c with itlb := tlbInsert 16 s.tick e c.itlb }
    else if c.dtlb.any fun x => x.covers va then c else { c with dtlb := tlbInsert 32 s.tick e c.dtlb }
/-- The quire's TLB and node cache take what a walk read (16, R420). -/
def State.keepWalk (s : State) (x : Walked) : State :=
  s.onQuire s.myQuire fun q =>
    { q with tlb2 := tlb2Insert s.tick x.entry q.tlb2
             nodes := x.nodes.foldl (fun l e => if l.contains e then l else tlbInsert 64 s.tick e l) q.nodes }

/-- The translation of an address: a cached entry goes on serving, otherwise a walk (16, R421). -/
def translate (va tval : Word) (fetch : Bool) : M TlbEntry := do
  let s ← get
  match tlbLookup s va fetch with
  | some e => do
    set (s.keepEntry e va fetch)
    return e
  | none => do
    match walk s va tval with
    | .ok x => do
      set ((s.keepWalk x).keepEntry x.entry va fetch)
      return x.entry
    | .error e => throw e

/-- Rows 7 to 9 of Table 5.7, and where the access is performed. -/
def checkEntry (s : State) (e : TlbEntry) (va tval : Word) (kind : Access) : Except Exc Place :=
  let off := va.toNat % 2 ^ e.bits
  if !Pte.u e.pte && s.mode ≠ 2 then .error (.trap 0x02 tval)
  else if kind = .fetch && !Pte.x e.pte then .error (.trap 0x02 tval)
  else if kind = .store && !Pte.w e.pte then .error (.upcall 0x21 tval)
  else if Pte.rmt e.pte then .ok (.remote (Pte.dev e.pte) (Pte.pa e.pte + off))
  else
    let b := Pte.bind e.pte
    match (s.binding b).state with
    | .undefined | .retired => .error (.trap 0x06 tval)
    | .active | .resizing | .draining =>
      match canonical (Pte.pa e.pte + off) with
      | some a => .ok (.hbm a b)
      | none => .error (.upcall 0x20 tval)

/-- Rows 4 to 9 of Table 5.7 for `n` raw bytes of one part, its region known. -/
def checkPart (r : Region) (va : Word) (n : Nat) (kind : Access) : M Place := do
  match r with
  | .loc win slot off => liftE (checkLocal (← get) win slot off n va)
  | _ => do
    let e ← translate va va false
    liftE (checkEntry (← get) e va va kind)

/-- Rows 1 to 9 of Table 5.7 for an aligned access of `n` bytes. -/
def checkAccess (va : Word) (n : Nat) (kind : Access) : M Place := do
  let r ← liftE (checkRegion (← get) va va)
  liftE (checkAlign va n va)
  checkPart r va n kind

/-- A local address of 06, R137: aligned to `al`, `n` bytes of the issuing core's own scratchpad through win0. -/
def localOperand (va : Word) (al n : Nat) : M Nat := do
  let s ← get
  liftE (checkAlign va al va)
  match regionOf va with
  | .loc win slot off =>
    if win ≠ 0 || slotCore s.cur slot ≠ some s.cur || 0x40000 < off + n then trap 0x04 va
    else if sharesOwn s.me off n then return off else trap 0x05 va
  | _ => trap 0x04 va

end Sys2Proof.Machine
end

