-- ==== Sys2Proof/Machine/Cache.lean ====
section
/-! DEFINITION. Home slices, instances of near bindings, leases, releases and acquires
(07, R173; 11, R294 to R303; 12, R318 to R330). -/

namespace Sys2Proof.Machine

/-! ### Granules (07, R176, R177) -/

/-- The reservation granule of a place at its home (07, R176). -/
def granuleOf : Place → Place
  | .spad c off => .spad c (off / 16 * 16)
  | .kettle q off => .kettle q (off / 16 * 16)
  | .hbm pa b => .hbm (pa / 16 * 16) b
  | .remote d pa => .remote d (pa / 16 * 16)
/-- The granules that a run of bytes touches. -/
def granulesOf (p : Place) (n : Nat) : List Place :=
  let steps (off : Nat) : List Nat := (List.range ((off % 16 + n + 15) / 16)).map fun i => off / 16 * 16 + 16 * i
  match p with
  | .spad c off => (steps off).map fun o => .spad c o
  | .kettle q off => (steps off).map fun o => .kettle q o
  | .hbm pa b => (steps pa).map fun o => .hbm o b
  | .remote d pa => (steps pa).map fun o => .remote d o
def State.granulesAt (s : State) (p : Place) (n : Nat) : List Place := granulesOf (s.atHome p) n
def State.granule (s : State) (p : Place) : Granule :=
  (s.granules.find? fun g => g.place = p).getD ⟨p, none, []⟩
def State.setGranule (s : State) (g : Granule) : State :=
  { s with granules := tidy (g :: s.granules.filter fun k => k.place ≠ g.place) }
/-- What waits may act at a granule now: nobody holds it, and nothing stands before it in bank order (07, R177). -/
def Granule.turnOf (g : Granule) (w : Waiter) : Bool := g.holder.isNone && (g.queue.isEmpty || g.queue.head? = some w)
/-- The bank of a granule at its home: a core's scratchpad or a home slice, and the bank's number (07, R176). A granule
has one bank, that of its first double (log 78). -/
def State.bankOf (s : State) (p : Place) : Bool × Nat × Nat :=
  match p with
  | .hbm pa h => (true, 192 * h + (match s.slice h pa with | some (q, _, _, _) => q | none => 0), pa / 8 % 512)
  | .spad c off => (false, c, off / 8 % 512)
  | .kettle q off => (false, 20000 + q, off / 8 % 512)
  | .remote d pa => (false, 30000 + d, pa / 8 % 512)
/-- Requests queued at a granule's bank (07, R177). -/
def State.bankLoad (s : State) (p : Place) : Nat :=
  ((s.granules.filter fun g => s.bankOf g.place = s.bankOf p).map fun g => g.queue.length).foldl (· + ·) 0
/-- It joins the queue of a granule, in bank order; none where the bank has 64 requests queued (07, R177). -/
def State.joins (s : State) (w : Waiter) (p : Place) : Option State :=
  let g := s.granule p
  if g.queue.contains w then some s
  else if 64 ≤ s.bankLoad p then none
  else some (s.setGranule { g with queue := g.queue ++ [w] })
/-- It joins the queues of all its granules at once, so that no two that need several granules wait for each other. A bank
without room keeps it out of all of them: it waits in the request network (07, R177). -/
def State.joinAll (s : State) (w : Waiter) (gs : List Place) : Option State :=
  gs.foldl (fun t p => t.bind fun t => t.joins w p) (some s)
/-- It has still to join a queue, and can. -/
def State.mayJoin (s : State) (w : Waiter) (gs : List Place) : Bool :=
  (gs.any fun g => !(s.granule g).queue.contains w) && (s.joinAll w gs).isSome
/-- It leaves every queue. -/
def State.leaves (s : State) (w : Waiter) : State :=
  if s.granules.any fun g => g.queue.contains w then
    { s with granules := tidy (s.granules.map fun g => { g with queue := g.queue.filter fun x => x ≠ w }) }
  else s

/-! ### Lines -/

/-- Bases of the aligned lines that a range touches. -/
def lineBases (line a n : Nat) : List Nat :=
  (List.range ((a % line + n + line - 1) / line)).map fun i => (a / line + i) * line
/-- The part of a run of bytes from address `a` that lies from `b` on, up to `n` bytes: its address and its bytes. -/
def cutRun {α : Type} (a : Nat) (bs : List α) (b n : Nat) : Nat × List α :=
  if b ≤ a then (a, bs.take (b + n - a)) else (b, (bs.drop (b - a)).take n)
/-- A store of bytes from `a` on covers an aligned double whole (05, R134). -/
def wholeIn (a : Nat) (bs : List StoreByte) (d : Nat) : Bool :=
  a ≤ d * 8 && d * 8 + 8 ≤ a + bs.length && ((bs.drop (d * 8 - a)).take 8).all fun b => b.mask = 0xFF

def Line.meets (l : Line) (pa n : Nat) : Bool := overlaps l.base l.data.length pa n
def Line.dirty (l : Line) : Bool := l.written.any id
/-- The written bytes of a line, those of the doubles chosen, as a masked store. -/
def Line.back (l : Line) (p : Nat → Bool) : List StoreByte :=
  (l.data.zip l.written).zipIdx.map fun ((b, w), i) => ⟨b, if w && p (i / 8) then 0xFF else 0⟩
/-- The line after the written doubles among those chosen have been written back: its quire owns them no longer
(12, Table 12.7). -/
def Line.cleaned (l : Line) (p : Nat → Bool) : Line :=
  let done (d : Nat) : Bool := p d && ((l.written.drop (8 * d)).take 8).any id
  { l with written := l.written.zipIdx.map fun (w, i) => w && !p (i / 8)
           own := l.own.zipIdx.map fun (o, d) => o && !done d }
/-- The line without ownership of the doubles chosen. -/
def Line.disown (l : Line) (p : Nat → Bool) : Line := { l with own := l.own.zipIdx.map fun (o, d) => o && !p d }
/-- A masked store into a line; the written bytes are recorded where `mark` says so (12, R322). A double written whole
loses an error that it held. -/
def Line.store (l : Line) (pa : Nat) (bs : List StoreByte) (mark : Bool) : Line :=
  let at' (i : Nat) : Option StoreByte := if pa ≤ l.base + i then bs[l.base + i - pa]? else none
  { l with
    data := l.data.zipIdx.map fun (d, i) => match at' i with | some b => b.merge d | none => d
    written := l.written.zipIdx.map fun (w, i) => match at' i with | some b => if b.mask = 0 then w else mark | none => w
    bad := l.bad.zipIdx.map fun (x, d) => x && !wholeIn pa bs (l.base / 8 + d) }
/-- Marks of a home slice's line cover whole doubles (12, R322). -/
def Line.markDoubles (l : Line) : Line :=
  { l with written := l.written.zipIdx.map fun (_, i) => ((l.written.drop (i / 8 * 8)).take 8).any id }
/-- ρ: 1.7 GHz divided by the quire's current clock, rounded up (12, R326; 17, R442, R447). -/
def State.rho (s : State) (q : Nat) : Nat := if s.mgmt.half.toList.getD (quireDie q) false then 2 else 1
/-- GB, the guard band of a lease of `len` nanoseconds (12, R326). -/
def guardBand (len rho : Nat) : Nat := 4 + (len + 1023) / 1024 * rho
/-- A lease serves `.si` loads of a quire now: its `gtime` is before g + Λ − GB, by the quire's present clock (12, R326). -/
def State.leased (s : State) (q : Nat) (l : Line) : Bool :=
  match l.lease with
  | some e => (s.gtime - e.since).toNat + guardBand e.span (s.rho q) < e.span
  | none => false

/-- The way that a tree of single bits points away from: at each node the half used longest ago (12, Table 12.5). -/
def plruFrom (used : Nat → Nat) : Nat → Nat → Nat
  | 0, w => w
  | k + 1, w =>
    let half := 2 ^ k
    let newest (from' : Nat) : Nat := ((List.range half).map fun i => used (from' + i)).foldl Nat.max 0
    if newest w ≤ newest (w + half) then plruFrom used k w else plruFrom used k (w + half)

/-- What is recorded of the line in a way of a set; 0 where there is none. -/
def stampOf (lines : List Line) (f : Line → Nat) (w : Nat) : Nat :=
  match lines.find? fun l => l.way = w with
  | some l => f l
  | none => 0

/-- The way that a fill takes: an invalid way first, else by REPL (12, R319). -/
def victimWay (r : BindRec) (lines : List Line) (lfsr : BitVec 16) (tick : Nat) : Nat :=
  match (List.range r.ways).find? fun w => !(lines.any fun l => l.way = w) with
  | some w => w
  | none =>
    let stamp := stampOf lines
    if r.repl = 1 then
      (List.range r.ways).foldl (fun (b w : Nat) => if stamp Line.filled w < stamp Line.filled b then w else b) 0
    else if r.repl = 2 then lfsr.toNat % r.ways
    else if 2 ^ Nat.log2 r.ways = r.ways then plruFrom (stamp Line.used) (Nat.log2 r.ways) 0
    else Config.plruWay tick % r.ways

/-- One step of a 16-bit LFSR (12, R468). -/
def lfsrStep (s : BitVec 16) : BitVec 16 :=
  let b := s.getLsbD 0 ^^ s.getLsbD 2 ^^ s.getLsbD 3 ^^ s.getLsbD 5
  (s >>> 1) ||| (if b then 0x8000#16 else 0)
/-- The LFSR of a binding's instance, seeded at `bdef` (12, Table 12.5). -/
def Quire.lfsr (x : Quire) (b q : Nat) : BitVec 16 := mapGet x.lfsrs b (0xACE1#16 ^^^ BitVec.ofNat 16 q)

/-- The way of a set that a fill takes, and the instance's LFSR after it. -/
def Quire.pickWay (x : Quire) (lines : List Line) (r : BindRec) (b q set : Nat) (moved : Bool) (tick : Nat) :
    Nat × BitVec 16 :=
  let g := lfsrStep (x.lfsr b q)
  (victimWay r (lines.filter fun l => l.binding = b && l.set = set && l.moved = moved) g tick, g)
/-- A line put in the place of any line of the same address. -/
def putLine (ls : List Line) (l : Line) : List Line := l :: ls.filter fun k => !(k.binding = l.binding && k.base = l.base)

/-! ### Watches -/

/-- A write performed at a place wakes the watches of other agents on its granules (07, R187). -/
def State.wakeWatches (s : State) (hit : Place → Bool) (by' : Option Agent) : State :=
  let due (w : Watch) : Bool := hit w.place && (w.any || some w.agent ≠ by')
  let gone := s.watches.filter due
  let t := { s with watches := s.watches.filter fun w => !due w }
  gone.foldl (fun t w => t.onCore w.agent.core fun c =>
    { c with ctxs := c.ctxs.set w.agent.ctx { c.ctxs[w.agent.ctx] with woken := true } }) t

/-- The counter of free values goes on. It also dates the fills and uses of lines: what came earlier has a lower number
(12, R319). -/
def State.ticked (s : State) : State := { s with tick := s.tick + 1 }

/-! ### Home slices (12, R317 to R319, R322 to R324) -/

/-- Bytes merged into HBM itself. A double written whole loses an error that it held. -/
def State.putHbm (s : State) (pa : Nat) (bs : List StoreByte) : State :=
  { s with hbm := Memory.merge s.hbm pa bs, badHbm := s.badHbm.filter fun d => !wholeIn pa bs d }
/-- Doubles of a line that have been written and are uncorrectable. -/
def Line.hurtDirty (l : Line) : List Nat :=
  (List.range (l.data.length / 8)).filter fun d => l.bad.getD d false && ((l.written.drop (8 * d)).take 8).any id
/-- The dirty doubles of a home slice's line go to HBM, and an error in them with them (16, R433). -/
def State.homeBack (s : State) (l : Line) : State :=
  if l.dirty then
    let t := s.putHbm l.base (l.back fun _ => true)
    { t with badHbm := (l.hurtDirty.map fun d => l.base / 8 + d) ++ t.badHbm }
  else s
/-- A line leaves a home slice: its dirty doubles go to HBM (12, R319). -/
def State.evictHome (s : State) (q : Nat) (p : Line → Bool) : State :=
  let t := ((s.quire q).slices.filter p).foldl (fun t l => t.homeBack l) s
  t.onQuire q fun x => { x with slices := x.slices.filter fun l => !p l }
/-- A line of HBM as a slice takes it. -/
def State.hbmLine (s : State) (h set way base : Nat) (r : BindRec) (m : Bool) : Line :=
  { binding := h, base := base, set := set, way := way, data := Memory.read s.hbm base r.line
    written := List.replicate r.line false, own := []
    bad := (List.range (r.line / 8)).map fun d => s.badHbm.contains (base / 8 + d)
    lease := none, leaseOnly := false, filled := s.tick, used := s.tick, moved := m }
/-- The line of an address comes to stand in its home slice, which fills from HBM (12, R318, R319). -/
def State.homeFill (s : State) (h pa : Nat) : State :=
  match s.slice h pa with
  | none => s
  | some (q, set, r, m) =>
    match (s.quire q).homeLine h pa with
    | some l => s.ticked.onQuire q fun x => { x with slices := putLine x.slices { l with used := s.tick } }
    | none =>
      let (way, g) := (s.quire q).pickWay (s.quire q).slices r h q set m s.tick
      let t := s.evictHome q fun l => l.binding = h && l.set = set && l.moved = m && l.way = way
      let l := t.hbmLine h set way (pa / r.line * r.line) r m
      t.ticked.onQuire q fun x => { x with lfsrs := mapPut x.lfsrs h g, slices := putLine x.slices l }
/-- A read at the home: the slice holds the lines then. It goes by 64 bytes, the least size of a line, since a walk can change
LINE (12, R328). -/
def State.homeRead (s : State) (h pa n : Nat) : State × List Cell' :=
  let t := (lineBases 64 pa n).foldl (fun t a => t.homeFill h a) s
  (t, t.homeCells h pa n)
/-- A store into one line at its home by the binding's POLICY (12, Table 12.5); a `.unc` store allocates nothing. -/
def State.sliceStore (s : State) (h a pa : Nat) (bs : List StoreByte) (alloc : Bool) : State :=
  match s.slice h a with
  | none => s.putHbm pa bs
  | some (q, _, r, _) =>
    let t := if alloc && r.policy = 0 then s.homeFill h a else s
    match (t.quire q).homeLine h a with
    | some l =>
      let k := if r.policy = 1 then l.store pa bs false else (l.store pa bs true).markDoubles
      let u := t.ticked.onQuire q fun x => { x with slices := putLine x.slices { k with used := t.tick } }
      if r.policy = 1 then u.putHbm pa bs else u
    | none => t.putHbm pa bs
/-- Some byte of a granule is written. -/
def writesIn (pa : Nat) (bs : List StoreByte) (a n : Nat) : Bool :=
  (List.range n).any fun i => pa ≤ a + i && (match bs[a + i - pa]? with | some b => b.mask ≠ 0 | none => false)
/-- A copy of bytes homed in binding `h` that the host caches is recalled (15, R409; 12, Table 12.7). -/
def State.recallHost (s : State) (h pa n : Nat) : State :=
  let gone := if h = 0 then s.link.cached.filter fun l => overlaps l 128 pa n else []
  if gone.isEmpty then s
  else { s with link := { s.link with
    out := s.link.out ++ gone.map Frame.recall, cached := s.link.cached.filter fun l => !gone.contains l } }
/-- A write performed at its home (12, R323): a copy that the host caches is recalled (15, R409), and watches wake. -/
def State.homeStore (s : State) (h : Nat) (by' : Option Agent) (pa : Nat) (bs : List StoreByte) (alloc : Bool) : State :=
  let n := bs.length
  let t := s.recallHost h pa n
  let t := (lineBases 64 pa n).foldl (fun t a => let (p, b) := cutRun pa bs a 64; t.sliceStore h a p b alloc) t
  t.wakeWatches (fun p => match p with | .hbm g k => k = h && writesIn pa bs g 16 | _ => false) by'

/-! ### Copies and their recall (12, R323) -/

/-- A double at its home holds an uncorrectable error (16, R433). -/
def State.hurtHome (s : State) (h d : Nat) : State :=
  match s.slice h (8 * d) with
  | some (q, _, _, _) =>
    match (s.quire q).homeLine h (8 * d) with
    | some l => s.onQuire q fun x => { x with slices := putLine x.slices { l with bad := l.bad.set (d - l.base / 8) true } }
    | none => { s with badHbm := d :: s.badHbm.filter fun e => e ≠ d }
  | none => { s with badHbm := d :: s.badHbm.filter fun e => e ≠ d }
def Forward.meets (f : Forward) (pa n : Nat) : Bool := overlaps f.pa f.bytes.length pa n
/-- The bits of a forwarded byte that a later write leaves to it. -/
def Forward.under (f : Forward) (pa : Nat) (bs : List StoreByte) : Forward :=
  { f with bytes := f.bytes.zipIdx.map fun (y, i) =>
      if pa ≤ f.pa + i then match bs[f.pa + i - pa]? with | some b => { y with mask := y.mask &&& ~~~b.mask } | none => y else y }
/-- A later write of the quire is performed at the home before the stores that the quire still forwards. Where they meet, the
later write stands: the older bytes are performed just before it, and so are not sent again (11, R292, R295). -/
def State.supersede (s : State) (q pa : Nat) (bs : List StoreByte) : State :=
  if (s.quire q).forwards.any fun f => f.meets pa bs.length then
    s.onQuire q fun x => { x with forwards := x.forwards.map fun f => f.under pa bs }
  else s
/-- The written bytes of a quire's near line, those of the doubles chosen, go to its home (11, R295), and an error in them with
them (16, R433). -/
def State.writeBack (s : State) (q : Nat) (l : Line) (p : Nat → Bool) : State :=
  let bs := l.back p
  if bs.any fun b => b.mask ≠ 0 then
    (l.hurtDirty.filter p).foldl (fun t d => t.hurtHome 0 (l.base / 8 + d))
      ((s.supersede q l.base bs).homeStore 0 none l.base bs true)
  else s
/-- Every near line of a quire for which the condition holds writes its chosen doubles back, and is changed or dropped. -/
def State.sweepLines (s : State) (q : Nat) (p : Line → Bool) (sel : Line → Nat → Bool) (f : Line → Option Line) : State :=
  let ls := (s.quire q).lines.filter p
  if ls.isEmpty then s
  else
    let t := ls.foldl (fun t l => t.writeBack q l (sel l)) s
    t.onQuire q fun y => { y with lines := y.lines.filterMap fun l => if p l then f l else some l }
def allDoubles : Line → Nat → Bool := fun _ _ => true
/-- Double `d` of the line lies in the range. -/
def Line.inRange (l : Line) (pa n d : Nat) : Bool := overlaps (l.base + 8 * d) 8 pa n
/-- The line owns one of the doubles of a range. -/
def Line.ownsAny (l : Line) (pa n : Nat) : Bool := l.own.zipIdx.any fun (o, d) => o && l.inRange pa n d
/-- Doubles of the range that another quire owns are recalled: it writes them back and gives up its ownership of them. -/
def State.recallOwned (s : State) (h : Nat) (keep : Option Nat) (pa n : Nat) : State :=
  if h ≠ 0 then s
  else s.quires.foldl (fun t x =>
    if some x.1 = keep then t
    else t.sweepLines x.1 (fun l => l.ownsAny pa n) (fun l d => l.own.getD d false && l.inRange pa n d)
      fun l =>
        let p (d : Nat) : Bool := l.own.getD d false && l.inRange pa n d
        some ((l.cleaned p).disown p)) s
/-- A forwarded store is performed at its home (11, R295). -/
def State.forwardNow (s : State) (q : Nat) (f : Forward) : State :=
  (s.recallOwned 0 (some q) f.pa f.bytes.length).homeStore 0 (some f.agent) f.pa f.bytes true
/-- A forwarded store has to wait: a granule of it is granted, or something stands before it in bank order (07, R177), or a
copy engine owns a line of it (09, R251). -/
def State.forwardWaits (s : State) (q : Nat) (f : Forward) : Bool :=
  s.owned (.hbm f.pa 0) f.bytes.length
    || (granulesOf (.hbm f.pa 0) f.bytes.length).any fun g => !(s.granule g).turnOf (.forward q)
/-- Of the stores that a quire's instances have accepted, the first `n` are performed at their homes in their order, up to one
that has to wait. -/
def State.flushFirst (s : State) (q : Nat) : Nat → State
  | 0 => s
  | n + 1 =>
    match (s.quire q).forwards with
    | [] => s
    | f :: r =>
      if s.forwardWaits q f then s
      else (((s.onQuire q fun x => { x with forwards := r }).forwardNow q f).leaves (.forward q)).flushFirst q n
def State.flush (s : State) (q : Nat) : State := s.flushFirst q (s.quire q).forwards.length
/-- The forwarded stores up to the last that meets a range. -/
def Quire.forwardsTo (x : Quire) (pa n : Nat) : List Forward :=
  (x.forwards.reverse.dropWhile fun f => !f.meets pa n).reverse
/-- The forwarded stores of a quire are performed up to the last that meets a range. -/
def State.flushAt (s : State) (q pa n : Nat) : State := s.flushFirst q ((s.quire q).forwardsTo pa n).length
/-- Some store that a quire forwards has to wait, where all of them are to be performed. -/
def State.forwardsHeld (s : State) (q : Nat) : Bool := !((s.flush q).quire q).forwards.isEmpty
/-- An access at a place's home has to wait for a packet that was sent that way before it (15, R388), or, in binding 0, for a
store that the quire forwards there (11, R292). -/
def State.forwardStuck (s : State) (q : Nat) (p : Place) (n : Nat) : Bool :=
  match p with
  | .hbm pa b => s.wayShut (.quire q) (s.attachment p) || s.homeBinding b pa = 0 && ((s.quire q).forwardsTo pa n).any fun f => s.forwardWaits q f
  | _ => false
/-- Bytes from address `a` on with a masked run laid over them. -/
def overlay (a : Nat) (bs : List Byte) (pa : Nat) (run : List StoreByte) : List Byte :=
  bs.zipIdx.map fun (b, i) =>
    if pa ≤ a + i then match run[a + i - pa]? with | some y => y.merge b | none => b else b
/-- Bytes of the home in binding 0 as the quire sees them: with the stores over them that its instances have accepted and not
yet performed there (11, R295, R296). -/
def Quire.overForwards (x : Quire) (a : Nat) (bs : List Byte) : List Byte :=
  x.forwards.foldl (fun bs f => overlay a bs f.pa f.bytes) bs
/-- Such a store covers a double whole. -/
def Quire.coversDouble (x : Quire) (d : Nat) : Bool := x.forwards.any fun f => wholeIn f.pa f.bytes d
/-- Near lines of a quire written back and dropped. -/
def State.dropLines (s : State) (q : Nat) (p : Line → Bool) : State := s.sweepLines q p allDoubles fun _ => none
/-- Leased copies of a quire's lease store dropped. -/
def State.dropLeases (s : State) (q : Nat) (p : Line → Bool) : State :=
  if (s.quire q).leases.any p then s.onQuire q fun y => { y with leases := y.leases.filter fun l => !p l } else s
/-- Copies of bytes homed in binding `h` held by the host and every quire but `keep` are recalled: written back and
invalidated. -/
def State.recallCopies (s : State) (h : Nat) (keep : Option Nat) (pa n : Nat) : State :=
  (s.recallHost h pa n).quires.foldl (fun t x =>
    if some x.1 = keep then t
    else
      let u := if h = 0 then t.dropLines x.1 fun l => l.meets pa n else t
      u.dropLeases x.1 fun l => l.binding = h && l.meets pa n) (s.recallHost h pa n)
/-- The issuing quire performs what it forwards there, and its instances write back and invalidate the lines that hold the
bytes (07, R176; 11, R295). -/
def State.dropOwn (s : State) (q pa n : Nat) : State :=
  (s.flushAt q pa n).dropLines q fun l => l.meets pa n
/-- Before an access whose home is that of binding 0, the issuing quire's instances of other bindings write back their copies; a
leased one stays for `.si` loads, the others go (11, R292; 12, R324). -/
def State.settle (s : State) (q b pa n : Nat) : State :=
  s.sweepLines q (fun l => l.binding ≠ b && l.meets pa n) allDoubles fun l =>
    if s.leased q l then some { l.cleaned fun _ => true with leaseOnly := true } else none
/-- Before an access at the home in binding 0 itself the quire also performs what it forwards there. -/
def State.settleHome (s : State) (q pa n : Nat) : State := (s.flushAt q pa n).settle q 0 pa n
/-- The home has granted a granule of the line (07, R176, R177). -/
def State.lineGranted (s : State) (h base n : Nat) : Bool :=
  s.granules.any fun g => g.holder.isSome && (match g.place with | .hbm a k => k = h && overlaps a 16 base n | _ => false)

/-! ### Filling a near line -/

/-- A line's bytes, and its uncorrectable doubles, are installed in the instance, under the stores that the quire still
forwards; written bytes that it already held stay (12, R323). A lease that lasts is left in force, but for a line that was
lease-only (11, R303). -/
def State.installLine (s : State) (q b : Nat) (r : BindRec) (m : Bool) (base : Nat) (data : List Byte) (bad : List Bool)
    (own : Bool) (lease : Option Lease) : State :=
  let data := (s.quire q).overForwards base data
  let bad := bad.zipIdx.map fun (e, d) => e && !(s.quire q).coversDouble (base / 8 + d)
  match (s.quire q).line b base with
  | some l =>
    let old (d : Nat) : Bool := ((l.written.drop (8 * d)).take 8).all id
    let lasting := if l.leaseOnly || !s.leased q l then none else l.lease
    s.ticked.onQuire q fun x => { x with lines := putLine x.lines { l with
      data := (data.zip (l.data.zip l.written)).map fun (h, (d, w)) => if w then d else h
      bad := bad.zipIdx.map fun (e, d) => e && !old d
      own := if own then l.own.map fun _ => true else l.own
      lease := if lease.isSome then lease else lasting
      leaseOnly := false, used := s.tick } }
  | none =>
    let set := r.nearSet q base
    let (way, g) := (s.quire q).pickWay (s.quire q).lines r b q set m s.tick
    let t := s.dropLines q fun l => l.binding = b && l.set = set && l.moved = m && l.way = way
    t.ticked.onQuire q fun y => { y with
      lfsrs := mapPut y.lfsrs b g
      lines := putLine y.lines
        { binding := b, base := base, set := set, way := way, data := data
          written := List.replicate r.line false, own := List.replicate (r.line / 8) own, bad := bad
          lease := lease, leaseOnly := false, filled := t.tick, used := t.tick, moved := m } }
/-- The bytes of a line and its uncorrectable doubles, as its home answers a fill. -/
def State.lineAt (s : State) (h base n : Nat) : State × List Byte × List Bool :=
  let (t, cells) := s.homeRead h base n
  (t, cells.map fun c => c.1, (List.range (n / 8)).map fun d => (cells.getD (8 * d) (0, false)).2)
/-- A line of the instance is filled from its home. -/
def State.fillLine (s : State) (q b : Nat) (r : BindRec) (m : Bool) (pa : Nat) (own : Bool) (lease : Option Lease) : State :=
  let base := pa / r.line * r.line
  let (t, data, bad) := s.lineAt 0 base r.line
  t.installLine q b r m base data bad own lease
/-- A leased copy is installed in a quire's lease store of 128 lines (12, R325), under the stores that the quire still forwards
to its home. -/
def State.installLease (s : State) (q b base : Nat) (data : List Byte) (bad : List Bool) (lease : Option Lease) : State :=
  let own := s.homeBinding b base = 0
  let data := if own then (s.quire q).overForwards base data else data
  let bad := bad.zipIdx.map fun (e, d) => e && !(own && (s.quire q).coversDouble (base / 8 + d))
  let l : Line := { binding := b, base := base, set := 0, way := 0, data := data, written := data.map fun _ => false, own := []
                    bad := bad, lease := lease, leaseOnly := true, filled := 0, used := 0, moved := false }
  s.onQuire q fun y => { y with leases := (l :: y.leases.filter fun k => !(k.binding = b && k.base = base)).take 128 }

/-! ### Loads and stores at HBM -/

def cellBytes (cs : List Cell') : List Byte := cs.map fun c => c.1
/-- A `.unc` access at the home: doubles that a quire owns are recalled, and nothing is allocated (12, Table 12.7). -/
def State.uncLoad (s : State) (h pa n : Nat) : State × List Byte :=
  let t := s.recallOwned h none pa n
  (t, t.homeBytes h pa n)
def State.uncStore (s : State) (h : Nat) (by' : Option Agent) (pa : Nat) (bs : List StoreByte) : State :=
  (s.recallOwned h none pa bs.length).homeStore h by' pa bs false
/-- A plain load at the home slice. -/
def State.plainLoad (s : State) (h pa n : Nat) : State × List Byte :=
  let (t, cs) := s.homeRead h pa n
  (t, cellBytes cs)

/-- The lease that the home grants now for a binding's record. -/
def State.leaseNow (s : State) (r : BindRec) : Lease := ⟨s.gtime, r.lease⟩
/-- The leased copy of a home binding that serves a `.si` load of a quire. -/
def State.leasedCopy (s : State) (q b pa : Nat) : Option Line :=
  (s.quire q).leases.find? fun l => l.holds b pa && s.leased q l
/-- A `.si` load of a home binding, served from the quire's lease store while the lease lasts (12, R325). -/
def State.leaseLoad (s : State) (q b : Nat) (r : BindRec) (pa n : Nat) : State × List Byte :=
  match s.leasedCopy q b pa with
  | some l => (s.onQuire q fun x => { x with leases := l :: x.leases.filter fun k => k ≠ l }, (l.data.drop (pa - l.base)).take n)
  | none =>
    let base := pa / r.line * r.line
    let s := if b = 0 then s.settleHome q base r.line else s
    let (t, data, bad) := (s.recallOwned b (some q) base r.line).lineAt b base r.line
    (t.installLease q b base data bad (some (t.leaseNow r)), (data.drop (pa - base)).take n)

/-- The line serves a load of the request type as it stands (05, Table 5.8; 07, R173). -/
def State.serves (s : State) (q : Nat) (l : Line) (req : Request) : Bool :=
  match req with
  | .si => s.leased q l
  | .own => !l.leaseOnly && l.own.all id
  | .dflt | .wt => !l.leaseOnly
  | .unc => false
/-- The line is brought into the instance of a near binding as a request asks: with ownership, with a lease, or plainly
(12, Table 12.7). -/
def State.nearFill (s : State) (q b : Nat) (r : BindRec) (m : Bool) (pa : Nat) (req : Request) : State :=
  let base := pa / r.line * r.line
  match req with
  | .own => (s.recallCopies 0 (some q) base r.line).fillLine q b r m pa true none
  | .si => (s.recallOwned 0 (some q) base r.line).fillLine q b r m pa false (some (s.leaseNow r))
  | .dflt | .wt | .unc => s.fillLine q b r m pa false none
/-- A load through an instance of a near binding (05, Table 5.8; 12, R318, Table 12.7). While the home has granted a
granule of the line no quire holds a copy, and the load is served at the home (07, R176, R177), under the stores that the
quire has accepted. -/
def State.nearLoad (s : State) (q b : Nat) (r : BindRec) (m : Bool) (pa n : Nat) (req : Request) : State × List Byte :=
  if req = .unc || (req = .si && r.lease = 0) then (s.dropOwn q pa n).uncLoad 0 pa n
  else if s.lineGranted 0 (pa / r.line * r.line) r.line then
    let (t, bs) := (s.settle q b pa n).uncLoad 0 pa n
    (t, (t.quire q).overForwards pa bs)
  else
    let s := s.settle q b pa n
    let serve (t : State) : State × List Byte :=
      match (t.quire q).line b pa with
      | some l => (t.ticked.onQuire q fun x => { x with lines := putLine x.lines { l with used := t.tick } }
                   , (l.data.drop (pa - l.base)).take n)
      | none => t.uncLoad 0 pa n
    match (s.quire q).line b pa with
    | some l => serve (if s.serves q l req then s else s.nearFill q b r m pa req)
    | none => serve (s.nearFill q b r m pa req)

/-- A load of HBM through a binding by a core of quire `q`. -/
def State.hbmLoad (s : State) (q b pa n : Nat) (req : Request) : State × List Byte :=
  let x := s.binding b
  let h := s.homeBinding b pa
  if x.rec'.home then
    let s := if h = 0 then s.settleHome q pa n else s
    if h ≠ b || req = .unc then s.uncLoad h pa n
    else match req, x.homeRec pa with
      | .si, some (r, _) => if r.lease = 0 || s.lineGranted h (pa / r.line * r.line) r.line then s.uncLoad h pa n
          else s.leaseLoad q b r pa n
      | _, _ => s.plainLoad h pa n
  else match x.instanceFor q pa with
    | some (r, m) => s.nearLoad q b r m pa n req
    | none => (s.settleHome q pa n).uncLoad 0 pa n

/-- A store through an instance of a near binding (05, Table 5.8; 12, Tables 12.5, 12.7). While the home has granted a
granule of the line, a store to its other granules is performed at the home. -/
def State.nearStore (s : State) (q b : Nat) (r : BindRec) (m : Bool) (by' : Option Agent) (pa : Nat) (bs : List StoreByte)
    (req : Request) : State :=
  let s := s.settle q b pa bs.length
  let into (t : State) (mark : Bool) : State :=
    match (t.quire q).line b pa with
    | some l => t.ticked.onQuire q fun y =>
        { y with lines := putLine y.lines { l.store pa bs mark with used := t.tick } }
    | none => t
  let through : State :=
    match by' with
    | some a => (into s false).onQuire q fun y => { y with forwards := y.forwards ++ [⟨a, pa, bs⟩] }
    | none => into (((s.recallOwned 0 (some q) pa bs.length).supersede q pa bs).homeStore 0 none pa bs true) false
  let atHome (t : State) : State := (t.supersede q pa bs).uncStore 0 by' pa bs
  if req = .unc then atHome (s.dropLines q fun l => l.meets pa bs.length)
  else if s.lineGranted 0 (pa / r.line * r.line) r.line then atHome s
  else match req, (s.quire q).line b pa with
    | .own, some l => into (if s.serves q l .own then s else s.nearFill q b r m pa .own) true
    | .own, none => into (s.nearFill q b r m pa .own) true
    | .dflt, some _ => if r.policy = 1 then through else into s true
    | .dflt, none => if r.policy = 0 then into (s.nearFill q b r m pa .dflt) true else through
    | _, _ => through

/-- Leased copies in the issuing quire, of the same home, take its own stores (11, R296), and so do the lines that are on their
way to it (11, R292; 15, R389). -/
def State.leaseStore (s : State) (q h b pa : Nat) (bs : List StoreByte) : State :=
  let upd (l : Line) : Line := if l.binding = h && l.meets pa bs.length then l.store pa bs false else l
  let other (l : Line) : Line := if h = 0 && l.binding ≠ b && l.meets pa bs.length then l.store pa bs false else l
  let comes (f : Fill) : Bool := f.quire = q && overlaps f.base f.data.length pa bs.length && s.homeBinding f.binding f.base = h
  let laid (f : Fill) : Fill :=
    if comes f then { f with
      data := overlay f.base f.data pa bs, bad := f.bad.zipIdx.map fun (e, d) => e && !wholeIn pa bs (f.base / 8 + d) }
    else f
  let x := s.quire q
  let t : State := if s.noc.fills.any comes then { s with noc := { s.noc with fills := s.noc.fills.map laid } } else s
  if (x.leases.any fun l => l.meets pa bs.length) || (x.lines.any fun l => l.binding ≠ b && l.meets pa bs.length) then
    t.onQuire q fun x => { x with leases := x.leases.map upd, lines := x.lines.map other }
  else t

/-- A store to HBM through a binding by a core of quire `q`. After the end of a drain it is performed at the home as
`.unc` (12, R330). -/
def State.hbmStore (s : State) (q b : Nat) (by' : Option Agent) (pa : Nat) (bs : List StoreByte) (req : Request) : State :=
  let x := s.binding b
  let h := s.homeBinding b pa
  let t :=
    if x.rec'.home then
      let s := if h = 0 then (s.settle q 0 pa bs.length).supersede q pa bs else s
      if h ≠ b || req = .unc then s.uncStore h by' pa bs
      else (s.recallOwned h (some q) pa bs.length).homeStore h by' pa bs true
    else match x.state, x.instanceFor q pa with
      | .active, some (r, m) | .resizing, some (r, m) | .draining, some (r, m) => s.nearStore q b r m by' pa bs req
      | _, _ => ((s.settle q 0 pa bs.length).supersede q pa bs).uncStore 0 by' pa bs
  t.leaseStore q h b pa bs

/-- Double `d` is uncorrectable at its home in binding `h` once the doubles that quires own there have been recalled, and what
quire `q` has written of it in its near lines (16, R433, R435). -/
def State.badHome (s : State) (q : Option Nat) (h d : Nat) : Bool :=
  let home := (s.homeCell h (8 * d)).2
  let part (l : Line) : List Bool := (l.written.drop (8 * d - l.base)).take 8
  let sent (x : Nat × Quire) (l : Line) : Bool :=
    l.meets (8 * d) 8 && (l.ownsAny (8 * d) 8 || (some x.1 = q && (part l).any id))
  if h ≠ 0 then home
  else match s.quires.findSome? fun x => x.2.lines.find? (sent x) with
    | some l =>
      let hurt := l.bad.getD (d - l.base / 8) false
      if (part l).all id then hurt else home || ((part l).any id && hurt)
    | none => home
/-- The byte that a load of quire `q` reads at an address lies in an uncorrectable double: in the quire's copy that serves the
load, under a store that the quire forwards, or at the home that answers it (05, R133; 16, R435). -/
def State.hbmBad (s : State) (q b pa : Nat) (req : Request) : Bool :=
  let h := s.homeBinding b pa
  let d := pa / 8
  let fetched (home : Bool) : Bool := home && !(h = 0 && (s.quire q).coversDouble d)
  if (s.binding b).rec'.home then
    match if req = .si then s.leasedCopy q b pa else none with
    | some l => (l.cell pa).2
    | none => fetched (s.badHome (some q) h d)
  else
    let home := fetched (if req = .dflt || req = .wt then (s.homeCell 0 pa).2 else s.badHome (some q) 0 d)
    match (s.quire q).line b pa with
    | some l => if s.serves q l req || l.written.getD (pa - l.base) false then (l.cell pa).2 else home
    | none => home

/-! ### Releases and acquires (07, R173) -/

/-- How wide a scope is. -/
def Scope.rank : Scope → Nat | .core => 0 | .quire => 1 | .die => 2 | .dev => 3 | .sys => 4
def Scope.wider (a b : Scope) : Scope := if Scope.rank a < Scope.rank b then b else a
/-- The smallest scope that contains two cores of the device (06, R149, R152). -/
def scopeOf (a b : Nat) : Scope :=
  if a = b then .core else if quireOf a = quireOf b then .quire else if dieOf a = dieOf b then .die else .dev

/-- The near-line part of a release of `.die` scope or wider: what the quire forwards is performed, and every dirty line of
the quire is written back. -/
def State.cleanQuire (s : State) (q : Nat) : State :=
  (s.flush q).sweepLines q (fun l => l.dirty) allDoubles fun l => some (l.cleaned fun _ => true)
/-- The near-line part of an acquire of `.die` scope or wider: every clean line is invalidated, and one whose lease
lasts becomes lease-only; of a dirty line the bytes that the quire has not written are fetched again before a load
(11, R302). -/
def State.acquireQuire (s : State) (q : Nat) : State :=
  let keep (l : Line) : Option Line :=
    if l.dirty || s.leased q l then some { l with leaseOnly := true } else none
  s.onQuire q fun x => { x with lines := x.lines.filterMap keep }
/-- Acquire(S) by a core. -/
def State.acquire (s : State) (core : Nat) (sc : Scope) : State :=
  if 2 ≤ Scope.rank sc then s.acquireQuire (quireOf core) else s

end Sys2Proof.Machine
end

