-- ==== Sys2Proof/Machine/Flit.lean ====
section
/-! DEFINITION. Flits of the gutter fabric as 64 bytes, and the CRC-32 of a packet (15, R396, R397). -/

namespace Sys2Proof.Machine

/-- The header of a flit (15, Table 15.3). -/
def Flit.header (f : Flit) : BitVec 128 :=
  let put (v at' n : Nat) : Nat := v % 2 ^ n * 2 ^ at'
  BitVec.ofNat 128 (put f.dst 0 18 + put f.src 18 18 + put f.age 36 8 + put f.cls 44 2 + put f.zero 46 2 + put f.pid 48 16
    + put f.seq 64 3 + put f.last 67 3 + put f.plane 70 3 + put f.tries 73 2 + put (f.zero / 4) 75 21
    + put f.stamp.toNat 96 32)
/-- The 64 bytes of a flit. -/
def Flit.bytes (f : Flit) : List Byte := toBytes 16 f.header.toNat ++ f.payload
/-- A flit from its 64 bytes. -/
def flitOf (bs : List Byte) : Flit :=
  let h := BitVec.ofNat 128 (ofBytes (bs.take 16))
  let get (at' n : Nat) : Nat := (h.extractLsb' at' n).toNat
  { dst := get 0 18, src := get 18 18, age := get 36 8, cls := get 44 2, zero := get 46 2 + 4 * get 75 21, pid := get 48 16
    seq := get 64 3, last := get 67 3, plane := get 70 3, tries := get 73 2, stamp := BitVec.ofNat 32 (get 96 32)
    fresh := false, payload := bs.drop 16 }

/-- One bit of the CRC-32 of IEEE 802.3, least significant bit first. -/
def crcBit (c : W32) : W32 := if c.getLsbD 0 then (c >>> 1) ^^^ 0xEDB88320 else c >>> 1
def crcByte (c : W32) (b : Byte) : W32 :=
  crcBit (crcBit (crcBit (crcBit (crcBit (crcBit (crcBit (crcBit (c ^^^ b.zeroExtend 32))))))))
def crc32 (bs : List Byte) : W32 := ~~~(bs.foldl crcByte 0xFFFFFFFF)
/-- The CRC-32 of a packet: over SRC in 3 bytes, PID in 2, and its payload before the CRC (15, R397; log 90). -/
def packetCrc (src pid : Nat) (payload : List Byte) : W32 := crc32 (toBytes 3 src ++ toBytes 2 pid ++ payload)
/-- The payload of a packet of some flits: its bytes and, as its last 4, its CRC. -/
def withCrc (src pid : Nat) (payload : List Byte) : List Byte := payload ++ toBytes 4 (packetCrc src pid payload).toNat
/-- The last 4 payload bytes of a packet are its CRC. -/
def crcHolds (src pid : Nat) (payload : List Byte) : Bool :=
  4 ≤ payload.length && payload = withCrc src pid (payload.take (payload.length - 4))
/-- A packet whose flits have all come: its payload, flit by flit. -/
def PacketBuffer.payload (b : PacketBuffer) : Option (List Byte) :=
  if (List.range (b.last + 1)).all fun i => b.got.any fun x => x.1 = i then
    some ((List.range (b.last + 1)).flatMap fun i => mapGet (b.got.filter fun x => x.1 = i) i [])
  else none

end Sys2Proof.Machine
end

