-- ==== Sys2Proof/Machine/Store.lean ====
section
/-! DEFINITION. The store buffer, performing stores, loads that forward from it, fences, and accesses to other
devices (01, R11; 05, R124 to R134; 07, R173 to R179; 11, R296, R297; 15, R400 to R402). -/

namespace Sys2Proof.Machine

/-! ### Granules -/

/-- A plain store of a core may be performed at a granule now (07, R177): nobody holds it, or a context of the same
core holds it by `lr`, and no other store or request stands before it. -/
def Granule.admits (g : Granule) (core : Nat) : Bool :=
  match g.holder with
  | some (a, isLr) => isLr && a.core = core
  | none => g.turnOf (.store core)
/-- A plain store by the holder's own core ends an `lr` reservation as a loss; an instruction of the holder that waits goes on
(07, R185). -/
def State.loseByStore (s : State) (core : Nat) (p : Place) : State :=
  let g := s.granule p
  match g.holder with
  | some (a, true) =>
    if a.core = core then
      let t : State := { s with granules := tidy (s.granules.map fun g =>
        if g.holder = some (a, true) then { g with holder := none } else g) }
      t.onCore a.core fun c => { c with ctxs := c.ctxs.set a.ctx c.ctxs[a.ctx].loseResv }
    else s
  | _ => s

/-! ### Performing a store -/

/-- A run of bytes touches a double without covering it whole. -/
def partOf (off n d : Nat) : Bool := overlaps off n (d * 8) 8 && !(off ≤ d * 8 && d * 8 + 8 ≤ off + n)
/-- A store writes some bytes of a double without covering it whole (05, R134). -/
def partIn (off : Nat) (bs : List StoreByte) (d : Nat) : Bool := writesIn off bs (d * 8) 8 && !wholeIn off bs d
/-- Doubles that a run of bytes touches. -/
def doublesOf (off n : Nat) : List Nat := (lineBases 8 off n).map fun a => a / 8
/-- The scope of the JSC field of a kettle's STATE byte (01, Table 1.11). -/
def jscOf (b : Byte) : Option Scope := Scope.ofCode (b.extractLsb' 2 3).toNat

/-- The bytes of a store into the kettle store; one that writes a STATE byte sets the recorded widest scope to the
JSC that it writes (01, R33). -/
def Quire.storeKettle (x : Quire) (off : Nat) (bs : List StoreByte) : Quire :=
  let k := Memory.merge x.kettles off bs
  let hit := (List.range bs.length).filterMap fun i => if (off + i) % 16 = 11 then some ((off + i) / 16) else none
  { x with
    kettles := k
    badKettles := x.badKettles.filter fun d => !wholeIn off bs d
    kaux := hit.foldl (fun m i =>
      let a := mapGet m i ⟨none, []⟩
      mapPut m i { a with widest := jscOf (Memory.get k (i * 16 + 11)) }) x.kaux }

/-- The double that a store merges with is uncorrectable where the store is performed: in the quire's copy, and at the
home where it goes there (05, R134). -/
def State.hurtDouble (s : State) (q : Nat) (p : Place) (req : Request) (d : Nat) : Bool :=
  match p with
  | .spad c _ => (s.core c).bad.contains d
  | .kettle k _ => (s.quire k).badKettles.contains d
  | .hbm pa b =>
    let r := (s.binding b).rec'
    let h := s.homeBinding b pa
    let home := !(h = 0 && (s.quire q).coversDouble d) &&
      (if req = .dflt && !r.home then (s.homeCell 0 (d * 8)).2 else s.badHome (some q) h d)
    match if r.home then none else (s.quire q).line b (d * 8) with
    | some l => (l.cell (d * 8)).2 || (home && !((req = .dflt || req = .own) && r.policy ≠ 1))
    | none => home
  | .remote _ _ => false
/-- The physical position of a logical core: its quire's table, the first 96 positions where none is listed
(16, R436). -/
def State.position (s : State) (core : Nat) : Nat :=
  (mapGet s.mgmt.qtab (quireOf core) (List.range 96)).getD (qcoreOf core) 0
/-- The management core marks the physical core of a logical one as failing (16, R437). -/
def State.failing (s : State) (core : Nat) : State :=
  let old := mapGet s.mgmt.failed (quireOf core) 0
  { s with mgmt := { s.mgmt with failed := mapPut s.mgmt.failed (quireOf core) (old ||| (1#100 <<< s.position core)) } }
/-- An uncorrectable word of a scratchpad is reported: at the second report of one word the management core marks the
physical core as failing (16, R437). -/
def State.noteError (s : State) (p : Place) (n : Nat) : State :=
  match p with
  | .spad c off =>
    match (s.core c).bad.find? fun d => overlaps off n (d * 8) 8 with
    | some d =>
      if s.mgmt.errWords.contains (c, d) then s.failing c
      else { s with mgmt := { s.mgmt with errWords := (c, d) :: s.mgmt.errWords } }
    | none => s
  | _ => s
/-- One part of a store performed for a core (11, R294, R295, R297). A part that covers only part of a double whose
bytes are uncorrectable is discarded and reported at the next boundary (05, R134). -/
def State.performPart (s : State) (core : Nat) (ctx : Fin 11) (p : StorePart) : State :=
  let n := p.bytes.length
  let off := p.place.offset
  let by' : Option Agent := some ⟨core, ctx⟩
  match (doublesOf off n).find? fun d => partIn off p.bytes d && s.hurtDouble (quireOf core) p.place p.req d with
  | some d =>
    let s := match p.place with | .spad c _ => s.noteError (.spad c (d * 8)) 8 | _ => s
    s.onCore core fun c => { c with impErr := c.impErr ++ [(p.va + BitVec.ofNat 64 (d * 8) - BitVec.ofNat 64 off) ||| 1] }
  | none =>
    let t := (s.granulesAt p.place n).foldl (fun t g => t.loseByStore core g) s
    match p.place with
    | .spad c o =>
      let u := t.onCore c fun x =>
        { x with spad := Memory.merge x.spad o p.bytes, bad := x.bad.filter fun d => !wholeIn o p.bytes d }
      u.wakeWatches (fun g => match g with | .spad k a => k = c && writesIn o p.bytes a 16 | _ => false) by'
    | .kettle q o => t.onQuire q fun x => x.storeKettle o p.bytes
    | .hbm pa b => t.hbmStore (quireOf core) b by' pa p.bytes p.req
    | .remote _ _ => s

/-- Granules of a store. -/
def State.storeGranules (s : State) (x : Store) : List Place :=
  x.parts.flatMap fun p => s.granulesAt p.place p.bytes.length
/-- The granules of a store that keep it waiting. -/
def State.blockedBy (s : State) (core : Nat) (x : Store) : List Place :=
  (s.storeGranules x).filter fun g => !(s.granule g).admits core
/-- The core's matrix unit has still to read a line of the bytes for an operation that came before (09, R231). -/
def State.unitReads (s : State) (core : Nat) (p : Place) (n : Nat) : Bool :=
  match p with
  | .spad k off => k = core && (s.core core).mops.any fun op => op.todo.any fun l => overlaps l 64 off n
  | _ => false
/-- The store may be performed now: no granule holds it up, no copy engine owns a line of it (09, R251), the matrix unit has
read what it still had to read there, and no packet was sent that way before it (15, R388). -/
def State.storeReady (s : State) (core : Nat) (x : Store) : Bool :=
  (s.blockedBy core x).isEmpty
    && !(x.parts.any fun p => s.owned p.place p.bytes.length || s.unitReads core p.place p.bytes.length
      || s.wayShut (.quire (quireOf core)) (s.attachment p.place))
/-- A store performed (05, R132; 08, R218); it leaves the queues in which it stood. -/
def State.perform (s : State) (core : Nat) (x : Store) : State :=
  (x.parts.foldl (fun t p => t.performPart core x.ctx p) s).leaves (.store core)
/-- A store that a granule holds up joins the queues of its granules (07, R177). -/
def State.queueStore (s : State) (core : Nat) (x : Store) : State :=
  if (s.blockedBy core x).isEmpty then s else (s.joinAll (.store core) (s.storeGranules x)).getD s

/-- The oldest store of a core leaves its store buffer and is performed, or waits at the bank (01, R11; 07, R177). -/
def State.drainOne (s : State) (core : Nat) : State :=
  match (s.core core).sb with
  | [] => s
  | x :: r =>
    if s.storeReady core x then (s.onCore core fun c => { c with sb := r }).perform core x
    else s.queueStore core x
/-- Every store of the core's buffer performed in order; none while one of them has to wait. -/
def drainList (core : Nat) : List Store → State → Option State
  | [], s => some s
  | x :: r, s =>
    if s.storeReady core x then
      drainList core r ((s.onCore core fun c => { c with sb := r }).perform core x)
    else none
def State.drained (s : State) (core : Nat) : Option State := drainList core (s.core core).sb s
/-- The oldest forwarded store of a quire is performed at its home, or joins the queues that hold it up. -/
def State.forwardOne (s : State) (q : Nat) : State :=
  match (s.quire q).forwards with
  | [] => s
  | f :: _ =>
    if s.forwardWaits q f then (s.joinAll (.forward q) (granulesOf (.hbm f.pa 0) f.bytes.length)).getD s
    else s.flushFirst q 1
/-- The oldest forwarded store of a quire can be performed, or has still to join a queue. -/
def State.canForward (s : State) (q : Nat) : Bool :=
  match (s.quire q).forwards with
  | [] => false
  | f :: _ => !s.forwardWaits q f || s.mayJoin (.forward q) (granulesOf (.hbm f.pa 0) f.bytes.length)
/-- The instruction waits until no store stands ahead in the buffer (07, R173, R181). -/
def drainFirst : M Unit := do
  let s ← get
  match s.drained s.cur with
  | some t => set t
  | none => waitHere

/-! ### Loads -/

/-- Two places lie in one memory. -/
def Place.sameMemory : Place → Place → Bool
  | .spad a _, .spad b _ => a = b
  | .kettle a _, .kettle b _ => a = b
  | .hbm _ _, .hbm _ _ => true
  | _, _ => false
/-- Bytes of one store laid over bytes read from a place (11, R296). -/
def StorePart.over (x : StorePart) (p : Place) (bs : List Byte) : List Byte :=
  if x.place.sameMemory p then
    bs.zipIdx.map fun (b, i) =>
      let a := p.offset + i
      if x.place.offset ≤ a then match x.bytes[a - x.place.offset]? with | some y => y.merge b | none => b else b
  else bs
/-- The stores of a store buffer laid over bytes read, oldest first (01, R11). -/
def forward (sb : List Store) (p : Place) (bs : List Byte) : List Byte :=
  sb.foldl (fun bs x => x.parts.foldl (fun bs y => y.over p bs) bs) bs

/-- A store buffer holds a store to the bytes. -/
def sbTouches (sb : List Store) (p : Place) (n : Nat) : Bool :=
  sb.any fun x => x.parts.any fun y =>
    y.place.sameMemory p && overlaps y.place.offset y.bytes.length p.offset n
/-- The byte of a range is covered by a store that still waits in the buffer (01, R11). -/
def covered (sb : List Store) (p : Place) (i : Nat) : Bool :=
  sb.any fun x => x.parts.any fun y => y.place.sameMemory p && y.place.offset ≤ p.offset + i &&
    (match y.bytes[p.offset + i - y.place.offset]? with | some b => b.mask = 0xFF | none => false)
/-- The byte at an offset of a range lies in an uncorrectable double, as a core of quire `q` reads it (16, R435). -/
def State.badByte (s : State) (q : Nat) (p : Place) (req : Request) (i : Nat) : Bool :=
  match p with
  | .spad c off => (s.core c).bad.contains ((off + i) / 8)
  | .kettle k off => (s.quire k).badKettles.contains ((off + i) / 8)
  | .hbm pa b => s.hbmBad q b (pa + i) req
  | .remote _ _ => false
/-- A load finds an uncorrectable error in a byte that it reads; a byte forwarded from the store buffer is not read
(05, R133). -/
def State.hurts (s : State) (q : Nat) (sb : List Store) (p : Place) (n : Nat) (req : Request) : Bool :=
  (List.range n).any fun i => s.badByte q p req i && !covered sb p i
/-- A byte of the range lies in an uncorrectable double at its home, as an access there finds it (16, R435). -/
def State.anyBad (s : State) (p : Place) (n : Nat) : Bool :=
  match p with
  | .spad c off => (s.core c).bad.any fun d => overlaps off n (d * 8) 8
  | .kettle q off => (s.quire q).badKettles.any fun d => overlaps off n (d * 8) 8
  | .hbm pa b => (doublesOf pa n).any fun d => s.badHome none (s.homeBinding b pa) d
  | .remote _ _ => false
/-- The bytes at a place as a core of the device reads them, before its own store buffer (11, R294). -/
def State.loadPlace (s : State) (q : Nat) (p : Place) (n : Nat) (req : Request) : State × List Byte :=
  match p with
  | .spad c off => (s, Memory.read (s.core c).spad off n)
  | .kettle k off => (s, Memory.read (s.quire k).kettles off n)
  | .hbm pa b => s.hbmLoad q b pa n req
  | .remote _ _ => (s, List.replicate n 0)

/-! ### Other devices -/

def State.fabricOn (s : State) : Bool := s.fabctl.getLsbD 20
/-- A packet of `n` flits for another device takes its number and its plane and waits to inject. The layout of its
payload before its CRC is the fabric's own: its bytes are free (15, R395 to R397, R399; log 24). -/
def State.post (s : State) (dst cls n : Nat) : State :=
  let f := s.fabric
  let pid := f.nextPid % 65536
  let plane := (dst ^^^ pid) % 8
  let body := withCrc s.devid pid ((List.range (48 * n - 4)).map fun j => Config.packetByte s.tick j)
  let flits := (List.range n).map fun i =>
    ({ dst := dst, src := s.devid, age := 0, cls := cls, pid := pid, seq := i, last := n - 1, plane := plane, tries := 0
       zero := 0, stamp := 0, fresh := true, payload := (body.drop (48 * i)).take 48 } : Flit)
  { s with
    tick := s.tick + 1
    fabric := { f with
      nextPid := (pid + 1) % 65536
      sent := if cls = 0 then f.sent else mapPut f.sent pid flits
      planes := Vector.ofFn fun k => if k.val = plane then { f.planes[k] with inject := f.planes[k].inject ++ flits } else f.planes[k] } }
/-- Flits of a request (15, Table 15.4): a write of more bytes than stand beside its fields in one flit takes two. -/
def RemoteOp.flits (op : RemoteOp) : Nat :=
  match op with | .write bs => if 16 < bs.length then (bs.length + 79) / 48 else 1 | _ => 1
/-- Requests of the device that have no answer yet: each has a buffer reserved for its reply (15, R399). -/
def State.outstanding (s : State) : Nat :=
  let open' (r : Option Remote) : Nat :=
    match r with | some x => if x.answer.isNone && !x.late then x.parts.length else 0 | none => 0
  let ctxs := s.cores.map fun c => (c.2.ctxs.toList.map fun x => open' x.remote).foldl (· + ·) 0
  let cmds := s.quires.map fun q => (q.2.cmds.map fun c => open' c.remote).foldl (· + ·) 0
  let wls := s.wls.map fun w => w.2.asks.length + (if w.2.offer.isSome then 1 else 0)
  (ctxs ++ cmds ++ wls).foldl (· + ·) 0
/-- Packet buffers of the general pool that are neither in use nor reserved for a reply (15, R399). -/
def State.freeBuffers (s : State) : Nat :=
  4032 - ((s.fabric.buffers.filter fun b => !b.kept && b.cls ≠ 1).length + s.outstanding)
/-- A request of a core has no acknowledgement: of one of its contexts, of a copy command on its behalf, or one that ran out of
time (15, R404). -/
def State.unanswered (s : State) (core : Nat) (r : Nat × Bool × Nat) : Bool :=
  let c := s.core core
  c.unacked.contains r ||
    (if r.2.1 then (s.quire (quireOf core)).cmds.any fun k => k.seq = r.2.2 && !k.done
     else c.ctxs.toList.any fun k => k.remote.any fun x => x.serial = r.2.2 && x.answer.isNone)
/-- A handshake of a core with some peers begins: its tokens go out, and every request that went before them is noted
(15, R404). -/
def State.handWith (s : State) (core : Nat) (peers : List Nat) : State × Hand :=
  let c := s.core core
  let asked := c.ctxs.toList.filterMap fun k => k.remote.bind fun x => if x.answer.isNone then some (x.dev, false, x.serial) else none
  let sent := (s.quire (quireOf core)).cmds.flatMap fun k =>
    if k.cores.contains core && !k.done then k.devs.map fun d => (d, true, k.seq) else []
  (peers.foldl (fun t d => t.post d 0 1) s
   , { peers := peers, left := peers, late := false, owed := (c.unacked ++ asked ++ sent).filter fun r => peers.contains r.1 })
/-- The peers of a handshake that still owe their token's answer, or the acknowledgement of an earlier request. -/
def State.owing (s : State) (core : Nat) (h : Hand) : List Nat :=
  h.peers.filter fun d => h.left.contains d || h.owed.any fun r => r.1 = d && s.unanswered core r
/-- The handshake is over: its peers leave the table, and what they never acknowledged is forgotten (07, R174). -/
def Core.handOver (c : Core) (h : Hand) (table : Bool) : Core :=
  { c with peers := if table then c.peers.filter fun d => !h.peers.contains d else c.peers
           unacked := c.unacked.filter fun r => !h.peers.contains r.1 }
/-- The handshake of R174 of 07 with some peers: the context waits, and the answer is the list of devices that have not
acknowledged in time. With `table` they leave the peer table. -/
def handshake (peers : List Nat) (table : Bool) : M (List Nat) := do
  let s ← get
  match s.myCtx.hand with
  | none => do
    let (t, h) := s.handWith s.cur peers
    set (t.onMyCtx fun c => { c with hand := some h })
    holdHere
  | some h =>
    let owing := s.owing s.cur h
    if h.late || owing.isEmpty then do
      set ((s.onMyCtx fun c => { c with hand := none }).onMe fun c => c.handOver h table)
      return owing
    else holdHere
/-- A device enters the peer table; a seventeenth sends the oldest through the handshake first, and a lost oldest
peer is trap 0x0D (07, R174). A lost oldest peer stays in the table: R174 does not say that it leaves (log 77). -/
def enterPeer (va : Word) (dev : Nat) : M Unit := do
  let p := (← get).me.peers
  if p.contains dev then pure ()
  else
    if p.length ≥ 16 then
      let lost ← handshake (p.take 1) false
      if lost.isEmpty then modify fun s => s.onMe fun c => { c with peers := c.peers.tail }
      else trap 0x0D va
    modify fun s => s.onMe fun c => { c with peers := c.peers ++ [dev] }
/-- A request to another device and its answer: the request goes out once, the context waits for its answer, and the
answer ends it (05, R126; 15, R400 to R403). `key` tells the requests of one instruction apart. FABEN and the lost set
count when the request goes out (15, R402, R403), and a buffer for its reply is reserved then (15, R399). -/
def remoteAsk (key dev : Nat) (parts : List (Word × Nat × RemoteOp)) : M (List Byte) := do
  let va := (parts.headD (0, 0, .read 0)).1
  let send : M (List Byte) := do
    if !(← get).fabricOn || (← get).lost.contains dev then trap 0x0D va
    enterPeer va dev
    if (← get).freeBuffers < parts.length then waitHere
    modify fun s => parts.foldl (fun t x => t.post dev 2 (RemoteOp.flits x.2.2))
      (s.onMyCtx fun c => { c with remote := some ⟨dev, parts.map fun x => x.2, none, 0, key, false, s.tick, []⟩ })
    holdHere
  match (← get).myCtx.remote with
  | none => send
  | some r =>
    if r.key ≠ key then send
    else
      let at' := (parts.getD r.part (va, 0, .read 0)).1
      match r.answer with
      | some (.data bs) => return bs
      | some .ack => return []
      | some (.nak _) => thenTake (.trap 0x0C at')
      | some .poison => thenTake (.trap 0x0E at')
      | none =>
        if r.late then do
          modify fun s => s.onMe fun c => { c with unacked := c.unacked ++ [(dev, false, r.serial)] }
          thenTake (.trap 0x0D at')
        else holdHere
def remoteAccess (va : Word) (dev pa : Nat) (op : RemoteOp) : M (List Byte) := remoteAsk 0 dev [(va, pa, op)]

/-! ### Loads and stores of an instruction -/

/-- Bytes to be read at places of one device: this one, or another. -/
abbrev Span := Place × Word × Nat
/-- The remote parts of a list of spans on one device, as one request. -/
def remoteReads (ps : List Span) : List (Word × Nat × RemoteOp) :=
  ps.map fun x => (x.2.1, x.1.offset, .read x.2.2)
/-- A load of the quire is served at the home in binding 0, where what the quire forwards comes first (11, R292, R294). -/
def State.readsHome (s : State) (q : Nat) (p : Place) (req : Request) : Bool :=
  match p with
  | .hbm pa b =>
    let x := s.binding b
    x.rec'.home || req = .unc || (match x.instanceFor q pa with | some (r, _) => req = .si && r.lease = 0 | none => true)
  | _ => false
/-- A load of spans of one device whose checks 1 to 9 have passed: rows 10 to 12, span by span, then the bytes
(05, R124, R131, R133). -/
def loadSpans (key : Nat) (ps : List Span) (req : Request) : M (List Byte) := do
  match ps with
  | (.remote d _, _, _) :: _ => remoteAsk key d (remoteReads ps)
  | _ => do
    let s ← get
    if ps.any fun x => s.untrained x.1 || s.owned x.1 x.2.2 || (s.readsHome s.myQuire x.1 req && s.forwardStuck s.myQuire x.1 x.2.2) then
      waitOn (ps.flatMap fun x => s.waitsFor x.1 x.2.2)
    else match ps.find? fun x => s.hurts s.myQuire s.me.sb x.1 x.2.2 req with
      | some x => do
        modify fun s => s.noteError x.1 x.2.2
        thenTake (.trap 0x0E x.2.1)
      | none => do
        let (t, bs) := ps.foldl (fun (t, bs) x =>
          let (u, b) := t.loadPlace t.myQuire x.1 x.2.2 req
          (u, bs ++ forward t.me.sb x.1 b)) (s, [])
        set t
        return bs
/-- What an instruction has read of its piece `k`. -/
def Ctx.piece (c : Ctx) (k : Nat) : Option (List Byte) := (c.got.find? fun x => x.1 = k).map fun x => x.2
/-- The fill for which an access of the issuing quire waits. -/
def Fill.serves (f : Fill) (q : Nat) (p : Place) (n : Nat) : Bool :=
  match p with
  | .hbm pa b => f.quire = q && f.binding = b && f.base ≤ pa && pa + n ≤ f.base + f.data.length
  | _ => false
/-- The load joins those that a fill on its way serves: the reply's bytes are what it reads (15, R389). -/
def State.joinFill (s : State) (p : Place) (n : Nat) : State :=
  let on (f : Fill) : Fill := if f.serves s.myQuire p n then { f with waits := f.waits ++ [⟨s.agent, 0, p.offset, n⟩] } else f
  { s with noc := { s.noc with fills := s.noc.fills.map on } }
/-- A load of one span: from memory, or with the bytes that a fill brought it. -/
def loadAt (p : Place) (va : Word) (n : Nat) (req : Request) : M (List Byte) := do
  match p with
  | .hbm _ _ => do
    let s ← get
    match s.myCtx.piece 0 with
    | some bs => return forward s.me.sb p bs
    | none =>
      if s.noc.fills.any fun f => f.serves s.myQuire p n && !f.waits.any fun x => x.agent = s.agent then
        throw (.done ((s.joinFill p n).deliver (.wait [])))
      else loadSpans 0 [(p, va, n)] req
  | _ => loadSpans 0 [(p, va, n)] req
/-- Piece `k` of an access is read, if it has not been before. -/
def readPiece (req : Request) (k : Nat) (ps : List Span) : M Unit := do
  if ((← get).myCtx.piece k).isNone then
    let bs ← loadSpans k ps req
    modify fun s => s.onMyCtx fun c => { c with got := (k, bs) :: c.got }
def readPieces (req : Request) : List (Nat × List Span) → M Unit
  | [] => pure ()
  | (k, ps) :: r => do
    readPiece req k ps
    readPieces req r
/-- The local part of a piece that holds an uncorrectable error, the first in their order. -/
def State.firstHurt (s : State) (req : Request) (ps : List (Nat × List Span)) : Option Span :=
  (ps.flatMap fun x => x.2).find? fun x => s.hurts s.myQuire s.me.sb x.1 x.2.2 req
/-- An access of several pieces, each read by itself and in no stated order (05, R132; 08, R218; 11, R293): where
`grain` names a piece, that one alone is read in this step. What has been read stays read. `key` numbers the first. -/
def loadPieces (key : Nat) (req : Request) (pieces : List (List Span)) : M (List (List Byte)) := do
  let s ← get
  let left := (pieces.zipIdx.map fun (x, i) => (key + i, x)).filter fun x => (s.myCtx.piece x.1).isNone
  match s.firstHurt req left with
  | some x => do
    modify fun s => s.noteError x.1 x.2.2
    thenTake (.trap 0x0E x.2.1)
  | none => pure ()
  match s.grain with
  | none => readPieces req left
  | some k =>
    readPieces req ((left.drop (k % Nat.max 1 left.length)).take 1)
    if 1 < left.length then holdHere
  let c := (← get).myCtx
  return (List.range pieces.length).map fun i => (c.piece (key + i)).getD []
/-- A store whose checks have passed enters the store buffer; one to another device waits for its acknowledgement
(05, R126; 01, R11). -/
def storeAt (parts : List StorePart) : M Unit := do
  match parts with
  | ⟨.remote d _, _, _, _⟩ :: _ => do
    let ask (mask : Byte → Byte) (x : StorePart) : Word × Nat × RemoteOp :=
      (x.va, x.place.offset, .write (x.bytes.map fun b => (b.value, mask b.mask)))
    -- of two parts neither is written before both have passed the target's checks: a write of no bits asks (05, R131)
    if 1 < parts.length && ((← get).myCtx.piece 0).isNone then
      let _ ← remoteAsk 1 d (parts.map (ask fun _ => 0))
      modify fun s => s.onMyCtx fun c => { c with got := (0, []) :: c.got }
    let _ ← remoteAsk 0 d (parts.map (ask id))
  | _ => do
    let s ← get
    let far := (parts.map fun p => p.place).filter s.untrained
    if !far.isEmpty then waitOn far
    else set (s.onMe fun c => { c with sb := c.sb ++ [⟨s.ctx, parts⟩] })
/-- The parts of a store that the quire sees at one moment: all of them in a scratchpad or a near instance (05, R132;
08, R218). -/
def State.seenWhole (s : State) (parts : List StorePart) : Bool :=
  parts.all fun p => match p.place with
    | .hbm pa b => p.req ≠ .unc && !(s.binding b).rec'.home && ((s.binding b).instanceFor s.myQuire pa).isSome
    | _ => true
/-- A store whose parts the quire may see one after the other is as many stores, in adjacent places of the store order
(05, R132; 08, R218). -/
def storeParts (parts : List StorePart) : M Unit := do
  let s ← get
  match parts with
  | ⟨.remote _ _, _, _, _⟩ :: _ => storeAt parts
  | _ => do
    if s.seenWhole parts then storeAt parts
    else
      let far := (parts.map fun p => p.place).filter s.untrained
      if !far.isEmpty then waitOn far
      modify fun s => s.onMe fun c => { c with sb := c.sb ++ parts.map fun p => ⟨s.ctx, [p]⟩ }
/-- A run of bytes cut at every double. -/
def StorePart.doubles (p : StorePart) : List StorePart :=
  (lineBases 8 p.place.offset p.bytes.length).map fun a =>
    let (o, bs) := cutRun p.place.offset p.bytes a 8
    ⟨p.place.add (o - p.place.offset), p.va + BitVec.ofNat 64 (o - p.place.offset), p.req, bs⟩
/-- Stores that are performed one after the other, the instruction being complete when they are (12, R321). Where
`grain` is set other agents may act between them; `key` marks that they have been made. -/
def storeEach (key : Nat) (parts : List StorePart) : M Unit := do
  match parts with
  | ⟨.remote _ _, _, _, _⟩ :: _ => storeAt parts
  | _ => do
    let s ← get
    if (s.myCtx.piece key).isSome then
      if s.me.sb.any fun x => x.ctx = s.ctx then holdHere
    else
      let far := (parts.map fun p => p.place).filter s.untrained
      if !far.isEmpty then waitOn far
      modify fun s => s.onMe fun c => { c with sb := c.sb ++ parts.map fun p => ⟨s.ctx, [p]⟩ }
      if s.grain.isNone then drainFirst
      else do
        modify fun s => s.onMyCtx fun c => { c with got := (key, []) :: c.got }
        holdHere

/-- While a phase is open, an access outside the core's own scratchpad is barred (08, R220; 09, R240). -/
def phaseAllows (s : State) (va : Word) : Bool :=
  match regionOf va with
  | .loc _ slot _ => slotCore s.cur slot = some s.cur
  | _ => false
def phaseAccess (va : Word) : M Unit := do
  let s ← get
  if s.csr.ph && !phaseAllows s va then trap 0x07 0 else pure ()

/-! ### Releases and acquires of an instruction -/

/-- Release(S) by the issuing core: the peers that have not acknowledged in time (07, R173, R174). -/
def releaseLost (sc : Scope) : M (List Nat) := do
  if 1 ≤ Scope.rank sc then drainFirst
  if 2 ≤ Scope.rank sc then
    if (← get).forwardsHeld (← get).myQuire then waitHere
    modify fun s => s.cleanQuire s.myQuire
  let p := (← get).me.peers
  if sc = .sys && (!p.isEmpty || (← get).myCtx.hand.isSome) then
    handshake p true
  else return []
def release (sc : Scope) : M Unit := do let _ ← releaseLost sc
/-- Acquire(S) by the issuing core (07, R173). -/
def acquire (sc : Scope) : M Unit := modify fun s => s.acquire s.cur sc

end Sys2Proof.Machine
end

