-- ==== Sys2Proof/Machine/Operands.lean ====
section
/-! DEFINITION. Operand forms: windows and their elements, lanes and masks of vectors, handles, core numbers, and
records read from memory (04, R91 to R95; 08, R195, R196, R203, R204; 06, R137; 10, R285; 12, R311 to R313). -/

namespace Sys2Proof.Machine

/-! ### Windows (12, Table 12.3) -/

def Win.ebase (x : Win) : Nat := (x.lo.extractLsb' 0 18).toNat
def Win.rowLen (x : Win) : Nat := ((x.lo.extractLsb' 18 12).toNat + 1) * 16
def Win.orient (x : Win) : Bool := x.lo.getLsbD 30
def Win.scl (x : Win) : Nat := (x.lo.extractLsb' 31 2).toNat
def Win.ord (x : Win) : Nat := (x.lo.extractLsb' 33 2).toNat
def Win.tbase (x : Win) : Nat := (x.lo.extractLsb' 36 18).toNat
def Win.sbase (x : Win) : Nat := (x.hi.extractLsb' 0 18).toNat
def Win.fsrc (x : Win) : Nat := (x.hi.extractLsb' 18 3).toNat

def Codes.width : Codes → Nat | .fmt f => f.width | .table => 8
/-- The format in use is valid (04, R84); the decode table always is. -/
def Codes.valid : Codes → Bool | .fmt f => f.valid | .table => true
/-- The exact value of a code. -/
def Codes.decode (tab : Vector W32 256) (k : Codes) (code : Nat) : Val :=
  match k with | .fmt f => f.decode code | .table => entryVal (tab.toList.getD code 0)
/-- A value encoded, with the flags; `ord` is the search order of the decode table (04, R86, R90). -/
def Codes.encode (tab : Vector W32 256) (ord : Nat) (k : Codes) (mode : Mode) (rnd : Nat) (v : Val) : Nat × Flags :=
  match k with | .fmt f => f.encode mode rnd v | .table => tableEncode tab ord mode rnd v

def Csr.format (c : Csr) (k : Nat) : Fmt := Fmt.ofReg (c.fmt.toList.getD k 0)
def Csr.window (c : Csr) (k : Nat) : Win := c.wins.toList.getD k ⟨0, 0⟩
/-- The codes of win1 to win5; none for the other windows. -/
def Csr.winCodes (c : Csr) (k : Nat) : Option Codes :=
  if 1 ≤ k ∧ k ≤ 4 then some (.fmt (c.format (k - 1))) else if k = 5 then some .table else none
/-- The element format of win6 by FSRC (12, Table 12.3). -/
def Csr.planeCodes (c : Csr) : Option Codes :=
  let f := (c.window 6).fsrc
  if f < 4 then some (.fmt (c.format f)) else if f = 4 then some .table else none

/-- An exact scale byte under SCL (04, R91, R94); 1 where there is none. -/
def scaleVal (scl : Nat) (b : Nat) : Val :=
  match scl with | 1 => e8m0Val b | 2 => e4m3.decode b | _ => .fin false ⟨1, 1, false⟩
/-- The block of an element (04, R93). -/
def Win.block (x : Win) (e : Nat) : Nat :=
  let row := e / x.rowLen
  let col := e % x.rowLen
  if x.orient then row / 16 * x.rowLen + col else row * (x.rowLen / 16) + col / 16

/-- Bits of a run of bytes, little-endian (04, R79). -/
def bitsOf (bs : List Byte) (pos n : Nat) : Nat := ofBytes bs / 2 ^ pos % 2 ^ n

/-- One element read through a window of core `core`, after its checks: where its code and its scale lie. -/
structure ElemAt where
  core : Nat
  pos  : Nat
  width : Nat
  scale : Option Nat
  deriving DecidableEq, Repr

/-- The row of Table 5.7 at which an exception stands; its traps are numbered in the order of their rows here. -/
def Exc.row : Exc → Nat | .trap c _ => c.toNat | .upcall _ _ => 0 | .wait _ => 0
/-- Of the exceptions of one part, the one that is found first. -/
def lowest : List Exc → Option Exc
  | [] => none
  | e :: r => some (r.foldl (fun a b => if b.row < a.row then b else a) e)
/-- Rows 4, 5 and 12 of Table 5.7 for one byte of a scratchpad that a window reads. -/
def byteFault (s : State) (core o : Nat) (tval : Word) : Option Exc :=
  if 0x40000 ≤ o then some (.trap 0x04 tval)
  else if !sharesOwn (s.core core) o 1 then some (.trap 0x05 tval)
  else if s.hurts s.myQuire s.me.sb (.spad core o) 1 .dflt then some (.trap 0x0E tval)
  else none
/-- The first byte of an element's code, and how many it touches. -/
def codeSpan (x : Win) (k : Codes) (n : Nat) : Nat × Nat :=
  let pos := x.ebase * 8 + n * k.width
  (pos / 8, (pos + k.width + 7) / 8 - pos / 8)
/-- The failing checks of element `e` of a window, whose format has been found valid: those of its scale, then those of
its code byte by byte (04, R93). `tval` gives the part in which each of its bytes lies. -/
def elemFaults (s : State) (core : Nat) (x : Win) (k : Codes) (e : Int) (tval : Nat → Word) : List Exc :=
  if e < 0 || x.scl = 3 then [.trap 0x04 (tval 0)]
  else
    let (first, len) := codeSpan x k e.toNat
    (if x.scl = 0 then [] else (byteFault s core (x.sbase + x.block e.toNat) (tval 0)).toList)
      ++ (List.range len).filterMap fun j => byteFault s core (first + j) (tval j)
/-- Where element `e` of a window lies. -/
def elemAt (core : Nat) (x : Win) (k : Codes) (e : Nat) : ElemAt :=
  ⟨core, x.ebase * 8 + e * k.width, k.width, if x.scl = 0 then none else some (x.sbase + x.block e)⟩
/-- Rows 4, 5 and 12 of Table 5.7 for element `e` of a window, as one part. -/
def checkElem (s : State) (core : Nat) (x : Win) (k : Codes) (e : Int) (tval : Word) : Except Exc ElemAt :=
  match lowest (elemFaults s core x k e fun _ => tval) with
  | some f => .error f
  | none => .ok (elemAt core x k e.toNat)
/-- A window's access fails; an uncorrectable word that it has met in one of its elements is counted (16, R437). -/
def elemFails {α : Type} (core : Nat) (x : Win) (k : Codes) (es : List Int) (e : Exc) : M α := do
  match e with
  | .trap 0x0E _ => do
    let s ← get
    let spans := es.flatMap fun i =>
      let c := codeSpan x k i.toNat
      c :: (if x.scl = 0 then [] else [(x.sbase + x.block i.toNat, 1)])
    match spans.find? fun y => s.hurts s.myQuire s.me.sb (.spad core y.1) y.2 .dflt with
    | some y => modify fun s => s.noteError (.spad core y.1) y.2
    | none => pure ()
    thenTake e
  | _ => raiseExc e
/-- The reads of an element, each single-copy atomic: its code's bytes, and its scale byte (11, R293). -/
def ElemAt.pieces (p : ElemAt) (va : Word) : List (List Span) :=
  let first := p.pos / 8
  [(.spad p.core first, va, (p.pos + p.width + 7) / 8 - first)]
    :: (match p.scale with | some o => [[(.spad p.core o, va, 1)]] | none => [])
/-- The value and the scale of an element from the bytes read (04, R94). -/
def ElemAt.value (p : ElemAt) (c : Csr) (x : Win) (k : Codes) (code scale : List Byte) : Val × Val :=
  let sc := match p.scale with | some _ => scaleVal x.scl (ofBytes scale) | none => scaleVal 0 0
  (k.decode c.table (bitsOf code (p.pos % 8) p.width), sc)
/-- The values and scales of elements from the bytes of their pieces. -/
def elemValues (c : Csr) (x : Win) (k : Codes) (es : List (Word × ElemAt)) (bs : List (List Byte)) : List (Val × Val) :=
  let take (acc : List (Val × Val) × List (List Byte)) (e : Word × ElemAt) : List (Val × Val) × List (List Byte) :=
    let n := (e.2.pieces e.1).length
    (acc.1 ++ [e.2.value c x k (acc.2.headD []) ((acc.2.drop 1).headD [])], acc.2.drop n)
  (es.foldl take ([], bs)).1
/-- Bytes cut into runs of the given lengths. -/
def cutBytes : List Nat → List Byte → List (List Byte)
  | [], _ => []
  | n :: r, bs => bs.take n :: cutBytes r (bs.drop n)
/-- Elements all read at one point of the store order: their values and scales (08, R218). -/
def readAll (x : Win) (k : Codes) (es : List (Word × ElemAt)) : M (List (Val × Val)) := do
  let ps := es.flatMap fun (va, e) => (e.pieces va).flatten
  let bs ← loadSpans 0 ps .dflt
  return elemValues (← get).csr x k es (cutBytes (ps.map fun p => p.2.2) bs)
/-- The pieces of lanes, lane after lane; where `grain` says so another agent comes in after a lane (08, R218). -/
def loadLanes : Nat → List (List (List Span)) → M (List (List Byte))
  | _, [] => return []
  | key, ps :: r => do
    let old := ((← get).myCtx.piece key).isSome
    let bs ← loadPieces key .dflt ps
    if !old && (← get).grain.isSome && !r.isEmpty then holdHere
    return bs ++ (← loadLanes (key + ps.length) r)
/-- Elements read one after the other: their values and scales (08, R218). -/
def readInOrder (x : Win) (k : Codes) (es : List (Word × ElemAt)) : M (List (Val × Val)) := do
  let bs ← loadLanes 0 (es.map fun (va, e) => e.pieces va)
  return elemValues (← get).csr x k es bs

/-- Row 4 of Table 5.7 for a decoding access through a window: the slot names a core, the window decodes, and its
format is valid (01, R28; 04, R84, R92). -/
def checkDecode (s : State) (win slot : Nat) (tval : Word) : Except Exc (Nat × Win × Codes) :=
  match slotCore s.cur slot, s.csr.winCodes win with
  | some c, some k => if k.valid then .ok (c, s.csr.window win, k) else .error (.trap 0x04 tval)
  | _, _ => .error (.trap 0x04 tval)

/-! ### Vectors and masks (08, R195, R196) -/

/-- Lane `i` of width `w` of a register. -/
def lane (v : VecReg) (w i : Nat) : Nat := v.toNat / 2 ^ (w * i) % 2 ^ w
/-- A register from its lanes, lane 0 first. -/
def lanesNat (w : Nat) : List Nat → Nat
  | [] => 0
  | x :: r => x % 2 ^ w + 2 ^ w * lanesNat w r
def ofLanes (w : Nat) (xs : List Nat) : VecReg := BitVec.ofNat 1024 (lanesNat w xs)
/-- The governing bit of lane `i`; every lane is active under mask 0. -/
def active (s : State) (m : MReg) (w i : Nat) : Bool := m = 0 || (s.m m).getLsbD (i * w / 4)
/-- Active lanes replaced; the value of a lane is `none` where it is inactive. -/
def mergeLanes (old : VecReg) (w : Nat) (xs : List (Option Nat)) : VecReg :=
  ofLanes w (xs.zipIdx.map fun (x, i) => match x with | some y => y | none => lane old w i)
/-- Each active lane's mask bits set to the result; the others keep the old mask's (08, R201). -/
def mergeMask (old : MaskReg) (w : Nat) (xs : List (Option Bool)) : MaskReg :=
  let bit (j : Nat) : Bool := match xs.getD (j * 4 / w) none with | some b => b | none => old.getLsbD j
  BitVec.ofNat 256 (((List.range 256).map fun j => if bit j then 2 ^ j else 0).foldl (· + ·) 0)

/-- The lane width of a float type, its value bits, and its codes (08, Table 8.1, R203). -/
def Csr.codesOf (c : Csr) (t : FloatTy) : Codes :=
  match t with
  | .f32 => .fmt fp32 | .bf16 => .fmt bfloat16 | .f16 => .fmt fp16 | .fm k => .fmt (c.format k) | .tb => .table
def Codes.lane (k : Codes) : Nat := if k.width = 6 then 8 else k.width
/-- `.fm0` to `.fm3` must name a valid register: trap 0x04 with `tval` 0 (08, R203). -/
def floatCodes (t : FloatTy) : M Codes := do
  let c := (← get).csr
  let k := c.codesOf t
  match t with
  | .fm _ => if k.valid then return k else trap 0x04 0
  | _ => return k
/-- The rounding mode, from IX or from `actl`.RM (08, R204). A mode of 3 in IX does not decode. -/
def roundingMode (rm : Option Rounding) : M Mode := do
  match rm with
  | some r => return r
  | none =>
    match ((← get).csr.actl.extractLsb' 0 2).toNat with
    | 0 => return .nearest | 1 => return .zero | 2 => return .stochastic | _ => illegal
/-- Halfword `i mod 64` of v31 (08, R204). -/
def State.rnd (s : State) (i : Nat) : Nat := lane (s.v 31) 16 (i % 64)

/-- The log2 of a size, and the size (02, Table 2.6). -/
def sizeLog : Size → Nat | .b => 0 | .h => 1 | .w => 2 | .d => 3
def sizeBytes : Size → Nat | .b => 1 | .h => 2 | .w => 4 | .d => 8

/-! ### Handles and core numbers (01, R29; 06, R137) -/

/-- Bit 31 of a handle, V. -/
def hasV (h : W32) : Bool := h.getLsbD 31
/-- A kettle handle's quire and index (01, Table 1.10). -/
def kettleQuire (h : W32) : Nat := (h.extractLsb' 12 8).toNat
def kettleIndex (h : W32) : Nat := (h.extractLsb' 0 12).toNat
/-- A handle with V = 1 names a kettle, or a folio, that exists (01, R29). -/
def kettleOk (h : W32) : Bool := h.extractLsb' 20 11 == 0#11 && kettleQuire h < 192
def folioCore (h : W32) : Nat := (h.extractLsb' 19 8).toNat * 96 + (h.extractLsb' 12 7).toNat
def folioOff (h : W32) : Nat := (h.extractLsb' 0 12).toNat * 64
def folioOk (h : W32) : Bool :=
  h.extractLsb' 27 4 == 0#4 && (h.extractLsb' 12 7).toNat < 96 && (h.extractLsb' 19 8).toNat < 192
/-- The handle of the folio at an offset of a core's scratchpad (01, R29). -/
def folioHandle (core off : Nat) : W32 :=
  BitVec.ofNat 32 (0x80000000 + core / 96 * 0x80000 + core % 96 * 0x1000 + off / 64)
/-- A kettle operand: none for V = 0, trap 0x01 for a handle that fails R29 (06, R137). -/
def kettleOperand (x : Word) : M (Option W32) := do
  let h := x.extractLsb' 0 32
  if !hasV h then return none
  else if kettleOk h then return some h
  else trap 0x01 x
/-- The core is in service in the current mode (06, R137). -/
def State.inService (s : State) (core : Nat) : Bool := s.service.contains (quireOf core)
def State.dieCores (s : State) (d : Nat) : List Nat := s.service.filter fun q => quireDie q = d

/-! ### Data in memory -/

/-- The other device that holds a place. -/
def remoteDev : Place → Option Nat | .remote d _ => some d | _ => none

/-- `n` doubles from an address up, each checked as a `.d` load (06, R137; 10, R285). -/
def checkDoubles (va : Word) : Nat → M (List (List Span))
  | 0 => return []
  | n + 1 => do
    let p ← checkAccess va 8 .load
    return [(p, va, 8)] :: (← checkDoubles (va + 8) n)
/-- The doubles of a record, one piece each from number `key` on. -/
def readDoubles (key : Nat) (va : Word) (n : Nat) : M (List Byte) := do
  return (← loadPieces key .dflt (← checkDoubles va n)).flatten
/-- The bytes at an offset of the issuing core's own scratchpad, its own stores in front (06, R137). A line that a
copy engine owns, or an uncorrectable double, answers as a load does. -/
def readOwn (off n : Nat) : M (List Byte) := do
  let s ← get
  loadAt (.spad s.cur off) (localAddr off) n .dflt
/-- A store of the issuing core into its own scratchpad. -/
def storeOwn (off : Nat) (bs : List Byte) : M Unit := do
  let s ← get
  storeAt [⟨.spad s.cur off, localAddr off, .dflt, storeBytes bs⟩]
/-- A field of a record. -/
def fieldAt (bs : List Byte) (off n : Nat) : Nat := ofBytes ((bs.drop off).take n)
/-- Bytes of a record are zero. -/
def zeroAt (bs : List Byte) (off n : Nat) : Bool := ((bs.drop off).take n).all fun b => b = 0

end Sys2Proof.Machine
end

