-- ==== Sys2Proof/Machine/Atomic.lean ====
section
/-! DEFINITION. Page 1: the amo family, load-reserved and store-conditional, fences, sleeping on memory and domain
barriers (07). -/

namespace Sys2Proof.Machine

/-! ### Addresses and banks -/

/-- The checks of an atomic address (07, R172). -/
def atomicPlace (va : Word) (n : Nat) (kind : Access) : M Place := do
  let r ← liftE (checkRegion (← get) va va)
  liftE (checkAlign va n va)
  match r with
  | .loc _ 127 _ => trap 0x04 va
  | _ => checkPart r va n kind

/-- Watches at a granule's bank (07, R187). -/
def State.bankWatches (s : State) (p : Place) : Nat :=
  (s.watches.filter fun w => !w.any && s.bankOf w.place = s.bankOf p).length

/-- Every cached copy of a granule's line is recalled before a grant (07, R176, R177; 12, Table 12.7). -/
def State.recallGranule (s : State) (q : Nat) (g : Place) : State :=
  match g with
  | .hbm pa h => (if h = 0 then s.dropLines q fun l => l.meets pa 16 else s).recallCopies h none pa 16
  | _ => s
/-- The quire forwards a store to a granule. -/
def State.forwardsAt (s : State) (q : Nat) (g : Place) : Bool :=
  match g with
  | .hbm pa 0 => (s.quire q).forwards.any fun f => f.meets pa 16
  | _ => false
/-- A granule stands in no one's way: the bank grants its head request (07, R177; 14, R371). -/
def State.grantable (s : State) (g : Place) : Bool :=
  (s.granule g).holder.isNone && !s.owned g 16 && !s.untrained g
/-- The bytes at a granted place, at its home. -/
def State.grantBytes (s : State) (p : Place) (n : Nat) : List Byte :=
  match p with
  | .spad c off => Memory.read (s.core c).spad off n
  | .kettle q off => Memory.read (s.quire q).kettles off n
  | .hbm pa b => s.homeBytes (s.homeBinding b pa) pa n
  | .remote _ _ => []
/-- The holder writes back (07, R181). A double that is written whole loses an error that it held (05, R134). -/
def State.homePut (s : State) (a : Agent) (p : Place) (bs : List Byte) : State :=
  match p with
  | .spad c off =>
    let t := s.onCore c fun x => { x with spad := Memory.write x.spad off bs }
    t.wakeWatches (fun g => match g with | .spad k o => k = c && overlaps o 16 off bs.length | _ => false) (some a)
  | .hbm pa b => s.homeStore (s.homeBinding b pa) (some a) pa (storeBytes bs) true
  | _ => s
/-- The holder releases the granule (07, R178). -/
def State.releaseGranule (s : State) (a : Agent) : State :=
  { s with granules := tidy (s.granules.map fun g =>
      { g with holder := match g.holder with | some (b, k) => if b = a then none else some (b, k) | none => none }) }
/-- A context's own `amo`, `lr` or `wrs` ends its reservation as a loss (07, R185). -/
def State.dropResv (s : State) : State :=
  (s.onMyCtx fun c => c.loseResv).releaseGranule s.agent

/-- The context comes to hold a granule: at once when it is free and nothing is queued, else through the bank's queue,
where it waits until the bank grants (07, R177, R179). -/
def takeGranule (g : Place) (isLr : Bool) : M Unit := do
  let s ← get
  -- what the quire forwards to the granule is performed before the request is sent (07, R176; 11, R292), and a packet that was
  -- sent that way before it arrives first (15, R388)
  let stuck := s.forwardsAt s.myQuire g || s.wayShut (.quire s.myQuire) (s.attachment g)
  if stuck && s.myCtx.granted.isNone && s.myCtx.queued.isNone then waitHere
  if s.myCtx.granted = some g then set (s.onMyCtx fun c => { c with granted := none })
  else if s.grantable g && (s.granule g).queue.isEmpty && s.myCtx.queued.isNone then
    let t := s.recallGranule s.myQuire g
    set (t.setGranule { t.granule g with holder := some (s.agent, isLr) })
  else if s.untrained g then waitOn [g]
  else do
    set (if s.myCtx.queued.isNone then s.onMyCtx fun c => { c with queued := some (g, isLr) } else s)
    holdHere
/-- The instruction has not yet asked for its granule. -/
def Ctx.unasked (c : Ctx) : Bool := c.queued.isNone && c.granted.isNone && c.remote.isNone
/-- An uncorrectable error in the granted bytes: the granule is left as it was (16, R435). -/
def grantedClean (p : Place) (va : Word) (n : Nat) : M Unit := do
  let s ← get
  if s.anyBad p n then
    set ((s.noteError p n).releaseGranule s.agent)
    thenTake (.trap 0x0E va)

/-! ### The amo family (07, R181 to R184) -/

/-- The operation codes of Table 2.10 of 02 and Table 7.2. -/
inductive AmoOp where | add | and | or | xor | min | max | minn | maxn | swap | cas | fadd | xadd
  deriving DecidableEq, Repr
def AmoOp.code : AmoOp → Nat
  | .add => 0 | .and => 1 | .or => 2 | .xor => 3 | .min => 4 | .max => 5 | .minn => 6 | .maxn => 7 | .swap => 8
  | .cas => 9 | .fadd => 10 | .xadd => 11
def AmoOp.ofCode (k : Nat) : AmoOp :=
  ([AmoOp.add, .and, .or, .xor, .min, .max, .minn, .maxn, .swap, .cas, .fadd, .xadd])[k]?.getD .add

/-- FP32 addition by nearest-even (07, R182). -/
def addFp32 (a b : W32) : W32 × Flags :=
  let (v, f) := (valFp32 a).add (valFp32 b)
  let (c, g) := fp32.encode .nearest 0 v
  (BitVec.ofNat 32 c, f ||| g)
/-- What an operation writes over `w`-bit values, if it writes, and its flags (07, Table 7.2). -/
def amoNew {w : Nat} (op : AmoOp) (old b expected : BitVec w) : Option (BitVec w) :=
  match op with
  | .add => some (old + b)
  | .and => some (old &&& b)
  | .or => some (old ||| b)
  | .xor => some (old ^^^ b)
  | .min => some (if old.slt b then old else b)
  | .max => some (if old.slt b then b else old)
  | .minn => some (if old.ult b then old else b)
  | .maxn => some (if old.ult b then b else old)
  | .swap => some b
  | .cas => if old = expected then some b else none
  | .fadd | .xadd => some old
/-- The size that an operation acts on. -/
def amoSize (op : AmoOp) (cell : Cell) : Nat :=
  match op, cell with | .xadd, _ => 16 | .fadd, _ => 4 | _, .word => 4 | _, .double => 8
/-- The bytes that an operation writes, if it writes, and its flags. -/
def amoBytes (op : AmoOp) (cell : Cell) (old : List Byte) (b expected : Word) : Option (List Byte) × Flags :=
  match op, cell with
  | .fadd, _ =>
    let (c, f) := addFp32 (BitVec.ofNat 32 (ofBytes old)) (b.extractLsb' 0 32)
    (some (toBytes 4 c.toNat), f)
  | .xadd, _ =>
    let (q, f) := cellContribution (b.extractLsb' 0 32)
    let (r, g) := cellAdd (BitVec.ofNat 128 (ofBytes old)).toInt q
    (some (toBytes 16 (BitVec.ofInt 128 r).toNat), f ||| g)
  | op, .word =>
    ((amoNew op (BitVec.ofNat 32 (ofBytes old)) (b.extractLsb' 0 32) (expected.extractLsb' 0 32)).map fun x =>
      toBytes 4 x.toNat, 0)
  | op, .double => ((amoNew op (BitVec.ofNat 64 (ofBytes old)) b expected).map fun x => toBytes 8 x.toNat, 0)
/-- wd by the old bytes (07, Table 7.2). Rounding a cell for it raises no flag (log 82). -/
def amoResult (op : AmoOp) (cell : Cell) (old : List Byte) : Word :=
  match op, cell with
  | .fadd, _ => BitVec.ofNat 64 (ofBytes old)
  | .xadd, _ => (cellFp32 (BitVec.ofNat 128 (ofBytes old)).toInt).zeroExtend 64
  | .minn, .word | .maxn, .word => BitVec.ofNat 64 (ofBytes old)
  | _, .word => (BitVec.ofNat 32 (ofBytes old)).signExtend 64
  | _, .double => BitVec.ofNat 64 (ofBytes old)

def Ord.releases : Ord → Bool | .rel | .ar => true | .relaxed | .acq => false
def Ord.acquires : Ord → Bool | .acq | .ar => true | .relaxed | .rel => false

/-- The end of an `amo`: its acquire and its result (07, R181). -/
def amoEnd (op : AmoOp) (cell : Cell) (ord : Ord) (sc : Scope) (d : Reg) (old : List Byte) : M Unit := do
  if Ord.acquires ord then acquire sc
  writeW d (amoResult op cell old)
/-- An `amo` whose granule its context has come to hold computes what it writes. -/
def amoGranted (op : AmoOp) (cell : Cell) (p : Place) (va b expected : Word) : M (List Byte × Option (List Byte)) := do
  let n := amoSize op cell
  grantedClean p va n
  let old := (← get).grantBytes p n
  let (new, f) := amoBytes op cell old b expected
  modify fun s => s.raise f
  return (old, new)
/-- `amo.op` (07, R181). -/
def amo (op : AmoOp) (cell : Cell) (ord : Ord) (sc : Scope) (d a b : Reg) : M Unit := do
  barPhase
  let va ← readW a
  let p ← atomicPlace va (amoSize op cell) .store
  let x ← readW b
  let expected ← readW d
  match (← get).myCtx.amo with
  | some (.written old) => amoEnd op cell ord sc d old
  | some (.computed _ _ _) => holdHere
  | none => do
    if (← get).myCtx.unasked then
      modify fun s => s.dropResv
      drainFirst
      if Ord.releases ord then release sc
    match p with
    | .remote dev pa => do
      let bs ← remoteAsk 0 dev [(va, pa, .atomic (AmoOp.code op) (if cell = .word then 4 else 8) x expected)]
      -- the answer holds the old bytes and, after them, the flags
      let n := amoSize op cell
      modify fun s => s.raise (BitVec.ofNat 5 (ofBytes (bs.drop n)))
      amoEnd op cell ord sc d (bs.take n)
    | _ => do
      let g := granuleOf ((← get).atHome p)
      if (← get).myCtx.granted = some g then do
        -- granted by the bank's queue: the write-back is a step of its own
        let (old, new) ← amoGranted op cell p va x expected
        modify fun s => s.onMyCtx fun c => { c with amo := some (.computed p (new.getD []) old), granted := none }
        holdHere
      else do
        takeGranule g false
        let (old, new) ← amoGranted op cell p va x expected
        modify fun s =>
          let t := match new with | some bs => s.homePut s.agent p bs | none => s
          t.releaseGranule s.agent
        amoEnd op cell ord sc d old

/-- `AMO_ADD` (R181). Atomic add at the granule's home bank. -/
def execAmoAdd (sz : Cell) (ord : Ord) (sc : Scope) (d a b : Reg) (s : State) := M.run (amo .add sz ord sc d a b) s
/-- `AMO_AND` (R181). Atomic AND. -/
def execAmoAnd (sz : Cell) (ord : Ord) (sc : Scope) (d a b : Reg) (s : State) := M.run (amo .and sz ord sc d a b) s
/-- `AMO_OR` (R181). Atomic OR. -/
def execAmoOr (sz : Cell) (ord : Ord) (sc : Scope) (d a b : Reg) (s : State) := M.run (amo .or sz ord sc d a b) s
/-- `AMO_XOR` (R181). Atomic XOR. -/
def execAmoXor (sz : Cell) (ord : Ord) (sc : Scope) (d a b : Reg) (s : State) := M.run (amo .xor sz ord sc d a b) s
/-- `AMO_MIN` (R181). Atomic signed minimum. -/
def execAmoMin (sz : Cell) (ord : Ord) (sc : Scope) (d a b : Reg) (s : State) := M.run (amo .min sz ord sc d a b) s
/-- `AMO_MAX` (R181). Atomic signed maximum. -/
def execAmoMax (sz : Cell) (ord : Ord) (sc : Scope) (d a b : Reg) (s : State) := M.run (amo .max sz ord sc d a b) s
/-- `AMO_MINN` (R181). Atomic unsigned minimum. -/
def execAmoMinn (sz : Cell) (ord : Ord) (sc : Scope) (d a b : Reg) (s : State) := M.run (amo .minn sz ord sc d a b) s
/-- `AMO_MAXN` (R181). Atomic unsigned maximum. -/
def execAmoMaxn (sz : Cell) (ord : Ord) (sc : Scope) (d a b : Reg) (s : State) := M.run (amo .maxn sz ord sc d a b) s
/-- `AMO_SWAP` (R181). Atomic swap. -/
def execAmoSwap (sz : Cell) (ord : Ord) (sc : Scope) (d a b : Reg) (s : State) := M.run (amo .swap sz ord sc d a b) s
/-- `AMO_CAS` (R181). Atomic compare-and-swap against the old wd. -/
def execAmoCas (sz : Cell) (ord : Ord) (sc : Scope) (d a b : Reg) (s : State) := M.run (amo .cas sz ord sc d a b) s
/-- `AMO_FADD` (R182). Atomic FP32 add with nearest-even rounding. -/
def execAmoFadd (ord : Ord) (sc : Scope) (d a b : Reg) (s : State) := M.run (amo .fadd .word ord sc d a b) s
/-- `AMO_XADD` (R102). Order-independent FP32 add into a Q63.64 cell. -/
def execAmoXadd (ord : Ord) (sc : Scope) (d a b : Reg) (s : State) := M.run (amo .xadd .double ord sc d a b) s

/-! ### Load-reserved and store-conditional (07, R185, R186) -/

/-- `lr`; on a remote page a `.unc` load that takes no reservation. -/
def loadReserved (wide : Bool) (ord : Ord) (sc : Scope) (d a : Reg) : M Unit := do
  barPhase
  let n := if wide then 8 else 4
  let va ← readW a
  let p ← atomicPlace va n .load
  if (← get).myCtx.unasked then
    modify fun s => s.dropResv
    drainFirst
    if Ord.releases ord then release sc
  let finishWith (bs : List Byte) : M Unit := do
    if Ord.acquires ord then acquire sc
    writeW d (if wide then BitVec.ofNat 64 (ofBytes bs) else (BitVec.ofNat 32 (ofBytes bs)).signExtend 64)
  match p with
  | .remote dev pa => do finishWith (← remoteAccess va dev pa (.read n))
  | _ => do
    takeGranule (granuleOf ((← get).atHome p)) true
    grantedClean p va n
    modify fun s => s.onMyCtx fun c => { c with resv := some ⟨p, va, wide, .held⟩ }
    finishWith ((← get).grantBytes p n)
/-- `LR_D` (R185). Load-reserved of a double, taking the granule's reservation. -/
def execLrD (ord : Ord) (sc : Scope) (d a : Reg) (s : State) := M.run (loadReserved true ord sc d a) s
/-- `LR_W` (R185). Load-reserved of a word. -/
def execLrW (ord : Ord) (sc : Scope) (d a : Reg) (s : State) := M.run (loadReserved false ord sc d a) s

/-- The status of an `sc` that does not store (07, Table 7.3). -/
def failStatus (r : Option Resv) (va : Word) (wide : Bool) : Nat :=
  match r with
  | some x =>
    if x.addr = va && x.wide = wide then match x.state with | .revoked => 1 | .lost => 2 | .held => 3 else 3
  | none => 3
def storeConditional (wide : Bool) (ord : Ord) (sc : Scope) (d a b : Reg) : M Unit := do
  barPhase
  let n := if wide then 8 else 4
  let va ← readW a
  let p ← atomicPlace va n .store
  match p with
  | .remote _ _ => do
    -- a failed `sc` leaves the context holding no reservation
    modify fun s => (s.releaseGranule s.agent).onMyCtx fun c => { c with resv := none }
    writeW d 4
  | _ => do
    drainFirst
    if Ord.releases ord then release sc
    let s ← get
    let x ← readW b
    let good := match s.myCtx.resv with
      | some r => r.addr = va && r.wide = wide && r.state = .held &&
          (s.granule (granuleOf (s.atHome p))).holder = some (s.agent, true)
      | none => false
    let status := failStatus s.myCtx.resv va wide
    let t := if good then s.homePut s.agent p (toBytes n x.toNat) else s
    set ((t.releaseGranule s.agent).onMyCtx fun c => { c with resv := none })
    if good && Ord.acquires ord then acquire sc
    writeW d (if good then 0 else BitVec.ofNat 64 status)
/-- `SC_D` (R186). Store-conditional of a double, with status in wd. -/
def execScD (ord : Ord) (sc : Scope) (d a b : Reg) (s : State) := M.run (storeConditional true ord sc d a b) s
/-- `SC_W` (R186). Store-conditional of a word. -/
def execScW (ord : Ord) (sc : Scope) (d a b : Reg) (s : State) := M.run (storeConditional false ord sc d a b) s

/-! ### Fences (07, R173 to R175) -/

/-- The status word of a fence that found peers lost (07, R175). -/
def lostStatus (lost : List Nat) : Word :=
  match lost with
  | [] => 0
  | d :: r => BitVec.ofNat 64 (1 + lost.length % 65536 * 65536 + r.foldl Nat.min d % 262144 * 2 ^ 32)
/-- A `.sys` fence that finds a peer lost writes its status, or traps when it has no status register. -/
def fenceEnd (status : Option Reg) (lost : List Nat) : M Unit := do
  match status, lost with
  | some d, _ => writeW d (lostStatus lost)
  | none, [] => pure ()
  | none, d :: r => thenTake (.trap 0x0D (BitVec.ofNat 64 (r.foldl Nat.min d)))
/-- A fence wider than `.core` is barred inside a phase (07, R193). -/
def fencePhase (sc : Scope) : M Unit := if sc = .core then pure () else barPhase
/-- `FENCE` (R173). Release and acquire actions of the scope, holding later loads. -/
def execFence (status : Option Reg) (sc : Scope) (s : State) := M.run (do
  fencePhase sc
  let lost ← releaseLost sc
  acquire sc
  fenceEnd status lost) s
/-- `FENCE_ACQ` (R173). Acquire action of the scope. -/
def execFenceAcq (status : Option Reg) (sc : Scope) (s : State) := M.run (do
  fencePhase sc
  acquire sc
  fenceEnd status []) s
/-- `FENCE_REL` (R173). Release action of the scope, with the peer handshake at .sys. -/
def execFenceRel (status : Option Reg) (sc : Scope) (s : State) := M.run (do
  fencePhase sc
  let lost ← releaseLost sc
  fenceEnd status lost) s

/-! ### Sleeping on memory (07, R187, R188) -/

/-- The context registers a watch and sleeps. -/
def State.watchOn (s : State) (g : Place) (any : Bool) : State :=
  let w : Watch := ⟨g, s.agent, any⟩
  let t : State := { s with watches := s.watches ++ [w] }
  t.onMyCtx fun c => { c with watch := some (g, any), woken := false, remote := none }
/-- `WRS` (R187). Release the reservation and sleep on a watch of the granule. -/
def execWrs (s : State) := M.run (do
  barPhase
  let s ← get
  match s.myCtx.resv with
  | some ⟨p, _, _, .held⟩ => do
    let g := granuleOf (s.atHome p)
    let t := s.dropResv
    if t.bankWatches g ≥ 8 then set t
    else do
      set (t.watchOn g false)
      holdHere
  | _ => modify fun s => s.onMyCtx fun c => { c with woken := false }) s

/-- `waitaddr`: a read at the home, and another after each write there (07, R188). The context's own stores to the double
come first (11, R292), and the issuing quire's instance gives its copy up, as for a `.unc` load (11, R295). -/
def execWaitaddr (a b : Reg) (s : State) := M.run (do
  barPhase
  let va ← readW a
  let x ← readW b
  let p ← atomicPlace va 8 .load
  let sleep : M Unit := do
    modify fun s => s.watchOn (match p with | .remote d pa => Place.remote d pa | q => granuleOf (s.atHome q)) true
    holdHere
  match p with
  | .remote d pa => do
    let bs ← remoteAccess va d pa (.read 8)
    if wordOf bs = x then acquire .dev else sleep
  | _ => do
    if sbTouches (← get).me.sb p 8 then drainFirst
    let s ← get
    if s.untrained p || s.owned p 8 || s.forwardStuck s.myQuire p 8 then waitOn (s.waitsFor p 8)
    else if s.hurts s.myQuire [] p 8 .unc then do
      set (s.noteError p 8)
      thenTake (.trap 0x0E va)
    else do
      let (t, bs) := match p with
        | .hbm pa bd =>
          let h := s.homeBinding bd pa
          (if h = 0 then s.dropOwn s.myQuire pa 8 else s).uncLoad h pa 8
        | q => (s, s.grantBytes q 8)
      set t
      if wordOf bs = x then acquire (match p with | .hbm _ _ => .dev | _ => .quire) else sleep) s

/-! ### Domain barriers (07, R189 to R192; 01, R22 to R24) -/

def Level.scope : Level → Scope | .quire => .quire | .die => .die | .dev => .dev | .sys => .sys
/-- The member bit of a level in `dmem` (01, Table 1.7). -/
def Level.bit : Level → Nat | .quire => 0 | .die => 1 | .dev => 2 | .sys => 3
def Csr.member (c : Csr) (l : Level) : Bool := c.dmem.getLsbD (Level.bit l)
/-- LVL names the level, for a core that is a member of it (01, R24). -/
def Csr.holdsFor (c : Csr) (l : Level) : Bool :=
  c.member l && l ≠ .quire && (c.dmem.extractLsb' 4 3).toNat = Level.bit l + 1
def domainOf (core : Nat) : Level → Nat | .quire => quireOf core | .die => dieOf core | .dev => 0 | .sys => 0
/-- The cores that a domain's barrier counts (07, R190). -/
def State.members (s : State) (l : Level) (domain : Nat) : List Nat :=
  (s.service.flatMap fun q => (List.range 96).map fun i => 96 * q + i).filter fun c =>
    domainOf c l = domain && (s.core c).csr.member l && (s.core c).run ≠ .stopped
def State.episode (s : State) (l : Level) (domain : Nat) : Option Episode :=
  s.episodes.find? fun e => e.level = l && e.domain = domain
def State.setEpisode (s : State) (e : Episode) : State :=
  { s with episodes := (if e.arrived.isEmpty then [] else [e]) ++
      s.episodes.filter fun x => !(x.level = e.level && x.domain = e.domain) }
/-- The core's arrival is withdrawn (07, R191). -/
def State.withdraw (s : State) (core : Nat) : State :=
  let left := s.episodes.map fun e => { e with arrived := e.arrived.filter fun c => c ≠ core }
  let t := { s with episodes := left.filter fun e => !e.arrived.isEmpty }
  t.onCore core fun c => { c with barWait := none }
/-- A pre-emption request that is held for this level is taken at the `bar`, before its arrival is counted: the `bar` waits
until the save is taken (01, R24; 16, R430). -/
def meetsHold (l : Level) : M Unit := do
  let s ← get
  match s.me.preempt with
  | some p =>
    if p.level = some l then
      set (s.onMe fun c => { c with preempt := some { p with free := true } })
      holdHere
  | none => pure ()
/-- The valid devices (15, R394). -/
def State.devices (s : State) : List Nat :=
  (List.range s.extents.2.2).flatMap fun z => (List.range s.extents.2.1).flatMap fun y =>
    (List.range s.extents.1).map fun x => x + 64 * y + 4096 * z
/-- A step along a ring of extent `e` from a coordinate towards another: the shorter way, down on a tie. -/
def ringStep (e goal c : Nat) : Nat :=
  let up := (goal + e - c) % e
  if up < e - up then (c + 1) % e else (c + e - 1) % e
/-- The next device on the way to the root of the spanning tree, by coordinates; none at the root (15, R405; log 91). -/
def State.treeStep (s : State) (root d : Nat) : Option Nat :=
  let x := d % 64
  let y := d / 64 % 64
  let z := d / 4096
  if z ≠ root / 4096 then some (x + 64 * y + 4096 * ringStep s.extents.2.2 (root / 4096) z)
  else if y ≠ root / 64 % 64 then some (x + 64 * ringStep s.extents.2.1 (root / 64 % 64) y + 4096 * z)
  else if x ≠ root % 64 then some (ringStep s.extents.1 (root % 64) x + 64 * y + 4096 * z)
  else none
/-- The first device on the way that is not lost. `n` bounds the way. -/
def State.treeAbove (s : State) (root d : Nat) : Nat → Option Nat
  | 0 => none
  | n + 1 => match s.treeStep root d with
    | some p => if s.lost.contains p then s.treeAbove root p n else some p
    | none => none
/-- The device above one in the spanning tree of the system barrier; none for its root, the lowest device that is not lost
(15, R405; log 91). -/
def State.treeParent (s : State) (d : Nat) : Option Nat :=
  (s.devices.find? fun r => !s.lost.contains r).bind fun r => s.treeAbove r d 192
/-- The devices below this one that are not lost. -/
def State.treeChildren (s : State) : List Nat :=
  s.devices.filter fun d => d ≠ s.devid && s.treeParent d = some s.devid && !s.lost.contains d
/-- The members that an open barrier still waits for (07, R190). -/
def State.awaited' (s : State) (e : Episode) : List Nat :=
  (s.members e.level e.domain).filter fun c => !e.out.contains c && !e.arrived.contains c
/-- The arrivals of this device and of those below it are complete and have not risen. A device without members has nothing
of its own to wait for (15, R405; 07, R190). -/
def State.riseDue (s : State) : Bool :=
  s.fabricOn && !s.fabric.rose && (s.treeChildren.all fun d => s.fabric.risen.contains d)
    && (match s.episode .sys 0 with
      | some e => !e.alone && !e.released && (s.awaited' e).isEmpty
      | none => (s.members .sys 0).isEmpty && ((s.treeParent s.devid).isSome || !s.treeChildren.isEmpty))
/-- The release goes down: to the members here, and to the devices below (15, R405). -/
def State.releaseDown (s : State) : State :=
  let t : State := { s with
    fabric := { s.fabric with risen := [], rose := false }
    episodes := s.episodes.map fun e => if e.level = .sys && !e.alone then { e with released := true } else e }
  s.treeChildren.foldl (fun t d => t.post d 0 1) t
/-- The arrivals rise to the device above; at the root the release goes down (15, R405). -/
def State.rise (s : State) : State :=
  match s.treeParent s.devid with
  | some p => ({ s with fabric := { s.fabric with rose := true } } : State).post p 0 1
  | none => s.releaseDown
/-- `bar.L` (07, R189). A non-member's acts as a fence of the level's scope (01, R22). -/
def bar (l : Level) : M Unit := do
  controlOnly
  barPhase
  let s ← get
  match s.me.barPass with
  | some (_, lost) => do
    modify fun s => s.onMe fun c => { c with barPass := none, barWait := none, afterBar := l = .quire }
    acquire (Level.scope l)
    match lost with
    | some d => thenTake (.trap 0x0D (BitVec.ofNat 64 d))
    | none => pure ()
  | none =>
    if s.me.barWait.isSome then holdHere
    else do
      if s.csr.member l then meetsHold l
      let lost ← releaseLost (Level.scope l)
      if !s.csr.member l then do
        acquire (Level.scope l)
        fenceEnd none lost
      else do
        -- imago entry holds back arrivals that would open a barrier (17, R444)
        let s ← get
        -- a core that was reset rejoins the count when the open barrier is over (17, R446)
        if (s.episode l (domainOf s.cur l)).any fun e => e.out.contains s.cur then holdHere
        if s.mgmt.holdBars && ((l = .die && dieOf s.cur = 0) || l = .dev) && (s.episode l (domainOf s.cur l)).isNone then
          holdHere
        modify fun t =>
          let d := domainOf t.cur l
          let e := (t.episode l d).getD ⟨l, d, [], [], !t.fabricOn, false, false⟩
          (t.setEpisode { e with arrived := e.arrived ++ [t.cur] }).onMe fun c => { c with barWait := some l }
        holdHere
/-- `BAR_QUIRE` (R189). Release, arrive at the quire barrier, wait, acquire. -/
def execBarQuire (s : State) := M.run (bar .quire) s
/-- `BAR_DIE` (R189). Barrier of the die domain. -/
def execBarDie (s : State) := M.run (bar .die) s
/-- `BAR_DEV` (R189). Barrier of the device domain. -/
def execBarDev (s : State) := M.run (bar .dev) s
/-- `BAR_SYS` (R192). Barrier of the system domain across the gutter fabric. -/
def execBarSys (s : State) := M.run (bar .sys) s

end Sys2Proof.Machine
end

