-- ==== Sys2Proof/Machine/Bank.lean ====
section
/-! DEFINITION. Steps of store buffers, banks, sleepers and barriers (01, R11; 07, R176 to R192). -/

namespace Sys2Proof.Machine

/-- `STORE_BUFFER_DRAIN`: the oldest store of core `turn.core` is performed, or joins the queues that hold it up. -/
def execStoreBufferDrain (s : State) : Host.Outcome State Fault Refusal := .next (s.drainOne s.turn.core)
/-- The head store of a core can leave the buffer, or has still to join a queue. -/
def State.canDrain (s : State) (core : Nat) : Bool :=
  match (s.core core).sb with
  | [] => false
  | x :: _ => s.storeReady core x || (!(s.blockedBy core x).isEmpty && s.mayJoin (.store core) (s.storeGranules x))

/-! ### Reservations (07, R177 to R181) -/

def State.context (s : State) (a : Agent) : Ctx := (s.core a.core).ctxs[a.ctx]
def State.onContext (s : State) (a : Agent) (f : Ctx → Ctx) : State :=
  s.onCore a.core fun c => { c with ctxs := c.ctxs.set a.ctx (f c.ctxs[a.ctx]) }
/-- A context's request joins the queue of its granule, where the bank has room (07, R177). -/
def State.joinQueue (s : State) (a : Agent) : Option State :=
  match (s.context a).queued with
  | none => none
  | some (g, isLr) =>
    -- what the quire forwards to the granule is performed first (11, R292)
    if (s.granule g).queue.contains (.request a isLr) || s.forwardsAt (quireOf a.core) g then none
    else s.joins (.request a isLr) g
/-- `RESERVATION_REQUEST` of context `turn.ctx` of core `turn.core`. -/
def execReservationRequest (s : State) : Host.Outcome State Fault Refusal :=
  .next ((s.joinQueue ⟨s.turn.core, s.turn.ctx⟩).getD s)
/-- The bank grants the request at the head of a free granule's queue after its recalls (07, R177). -/
def State.grantHead (s : State) (g : Granule) : Option State :=
  match g.queue with
  | .request a isLr :: r =>
    if s.grantable g.place then
      let t := s.recallGranule (quireOf a.core) g.place
      let u := t.setGranule { g with holder := some (a, isLr), queue := r }
      some (u.onContext a fun c => { c with queued := none, granted := some g.place })
    else none
  | _ => none
/-- `RESERVATION_GRANT` at granule `turn.index` of those in use. -/
def execReservationGrant (s : State) : Host.Outcome State Fault Refusal :=
  match s.granules[s.turn.index]? with
  | some g => .next ((s.grantHead g).getD s)
  | none => .next s
/-- The bank takes an `lr` reservation back when its hold limit has run out (07, R178). A granule that has been granted stays
with its instruction until that has completed: the limit runs from there (log 93). -/
def State.revoke (s : State) (g : Granule) : Option State :=
  match g.holder with
  | some (a, true) =>
    if (s.context a).granted = some g.place then none
    else
      let t := s.setGranule { g with holder := none }
      some (t.onContext a fun c => { c with resv := c.resv.map fun r => { r with state := .revoked } })
  | _ => none
/-- `RESERVATION_REVOKE` at granule `turn.index`. -/
def execReservationRevoke (s : State) : Host.Outcome State Fault Refusal :=
  match s.granules[s.turn.index]? with
  | some g => .next ((s.revoke g).getD s)
  | none => .next s
/-- The holder of a queued `amo` writes back and releases its granule (07, R181). -/
def State.amoWrite (s : State) (a : Agent) : Option State :=
  match (s.context a).amo with
  | some (.computed p bs old) =>
    let t := if bs.isEmpty then s else s.homePut a p bs
    some ((t.releaseGranule a).onContext a fun c => { c with amo := some (.written old) })
  | _ => none
/-- `RESERVATION_WRITE_BACK` of context `turn.ctx` of core `turn.core`. -/
def execReservationWriteBack (s : State) : Host.Outcome State Fault Refusal :=
  .next ((s.amoWrite ⟨s.turn.core, s.turn.ctx⟩).getD s)

/-! ### Sleepers (07, R187, R188) -/

/-- A sleeper wakes and its instruction goes on. -/
def State.wakeSleeper (s : State) (a : Agent) : State :=
  let t : State := { s with watches := s.watches.filter fun w => w.agent ≠ a }
  t.onContext a fun c => { c with watch := none, woken := false }
/-- A `wrs` sleeps, and has been woken or is ended by a pre-emption that may be taken (07, R187). -/
def State.wrsWoken (s : State) (a : Agent) : Bool :=
  match (s.context a).watch with
  | some (_, false) => (s.context a).woken || (match (s.core a.core).preempt with | some p => p.free | none => false)
  | _ => false
/-- A `waitaddr` of this device sleeps, and the double's home has performed a write. -/
def Ctx.waitWoken (c : Ctx) : Bool :=
  match c.watch with | some (.remote _ _, true) => false | some (_, true) => c.woken | _ => false
/-- A `waitaddr` sleeps on a remote page. -/
def Ctx.polls (c : Ctx) : Bool := match c.watch with | some (.remote _ _, true) => true | _ => false
/-- `WRS_WAKE` of context `turn.ctx` of core `turn.core`. -/
def execWrsWake (s : State) : Host.Outcome State Fault Refusal :=
  let a : Agent := ⟨s.turn.core, s.turn.ctx⟩
  .next (if s.wrsWoken a then s.wakeSleeper a else s)
/-- `WAITADDR_READ`: the double is read once more, by the instruction. -/
def execWaitaddrRead (s : State) : Host.Outcome State Fault Refusal :=
  let a : Agent := ⟨s.turn.core, s.turn.ctx⟩
  .next (if (s.context a).waitWoken then s.wakeSleeper a else s)
/-- `WAITADDR_REMOTE_POLL`: the remote double is read once more, by the instruction. -/
def execWaitaddrRemotePoll (s : State) : Host.Outcome State Fault Refusal :=
  let a : Agent := ⟨s.turn.core, s.turn.ctx⟩
  .next (if (s.context a).polls then s.wakeSleeper a else s)

/-! ### Barriers (07, R189 to R192) -/

/-- The members that wait leave together, and the episode is over. Where a member device has been lost each of them
reports the lowest lost device (07, R192). -/
def State.letGo (s : State) (e : Episode) : State :=
  let t : State := { s with episodes := s.episodes.filter fun x => !(x.level = e.level && x.domain = e.domain) }
  let lost := if e.lost then s.lost.head? else none
  e.arrived.foldl (fun t c => t.onCore c fun k => { k with barPass := some (e.level, lost) }) t
/-- The valid devices other than this one (15, R394). -/
def State.otherDevices (s : State) : List Nat := s.devices.filter fun d => d ≠ s.devid
/-- Every member has arrived, and for a barrier that spans devices the release has come (07, R189, R190; 01, R23). -/
def State.complete? (s : State) (e : Episode) : Bool :=
  (s.awaited' e).isEmpty && (e.level ≠ .sys || e.alone || e.released)
/-- `BARRIER_RELEASE` of episode `turn.index` of those open. -/
def execBarrierRelease (s : State) : Host.Outcome State Fault Refusal :=
  match s.episodes[s.turn.index]? with
  | some e => .next (if s.complete? e then s.letGo e else s)
  | none => .next s
/-- A device enters the lost set, and leaves the count of the open system barrier. Arrivals that have risen to another device
than the one above now rise again (07, R192; 15, R403, R405). -/
def State.loseDevice (s : State) (dev : Nat) : State :=
  let t : State := { s with
    lost := insertNat dev s.lost
    episodes := s.episodes.map fun e => if e.level = .sys && !e.alone then { e with lost := true } else e }
  { t with fabric := { t.fabric with rose := s.fabric.rose && t.treeParent s.devid = s.treeParent s.devid } }
/-- Member device `dev`, which is in the lost set, leaves the count of the open system barrier (07, R192). -/
def State.memberLost (s : State) (dev : Nat) : State := if s.lost.contains dev then s.loseDevice dev else s
/-- `BARRIER_MEMBER_LOST`: member device `turn.index`, which the fabric has reported lost, leaves the count. The members of
this device that have not arrived are still waited for. -/
def execBarrierMemberLost (s : State) : Host.Outcome State Fault Refusal := .next (s.memberLost s.turn.index)

end Sys2Proof.Machine
end

