-- ==== Sys2Proof/Machine/LoadStore.lean ====
section
/-! DEFINITION. Page 0: scalar loads and stores, cache hints and packed blocks (05, R121 to R134; 04, R94). -/

namespace Sys2Proof.Machine

/-- wb + sext(K11) × s, and wb + wc × s (05, Table 5.6). -/
def scaledAddr (sz : Size) (b : Reg) (off : BitVec 11) : M Word := do
  return (← readW b) + (off.signExtend 64 <<< sizeLog sz)
def indexedAddr (sz : Size) (b c : Reg) : M Word := do
  return (← readW b) + ((← readW c) <<< sizeLog sz)
/-- A loaded value extended (05, Table 5.6). -/
def extend (signed : Bool) (bits : Nat) (v : Nat) : Word :=
  if signed then BitVec.ofInt 64 (if v < 2 ^ (bits - 1) then v else (v : Int) - 2 ^ bits) else BitVec.ofNat 64 v

/-- A scalar load through win1 to win5: `.w` alone, codes of 8 bits alone; FP32 bits, and the flags (04, R94). -/
def loadCode (sz : Size) (va : Word) (win slot off : Nat) : M Word := do
  let s ← get
  let (core, x, k) ← liftE (checkDecode s win slot va)
  need (sz = .w && k.width = 8) (.trap 0x04 va)
  need (x.ebase ≤ off) (.trap 0x04 va)
  match checkElem s core x k ((off : Int) - x.ebase) va with
  | .error e => elemFails core x k [(off : Int) - x.ebase] e
  | .ok p => do
  let vs ← readInOrder x k [(va, p)]
  let (v, sc) := vs.headD (.zero, .zero)
  let (bits, f) := scaledFp32 v sc
  modify fun s => s.raise f
  return BitVec.ofNat 64 bits
/-- A scalar load (05, R121 to R124, R127, R133). -/
def load (sz : Size) (signed : Bool) (va : Word) (d : Reg) (req : Request) : M Unit := do
  phaseAccess va
  let n := sizeBytes sz
  match regionOf va with
  | .loc win slot off =>
    if 1 ≤ win ∧ win ≤ 5 then writeW d (← loadCode sz va win slot off)
    else do
      let p ← checkAccess va n .load
      let bs ← loadAt p va n req
      writeW d (extend signed (8 * n) (ofBytes bs))
  | _ => do
    let p ← checkAccess va n .load
    let bs ← loadAt p va n req
    writeW d (extend signed (8 * n) (ofBytes bs))
/-- A scalar store (05, R121 to R127). Through win1 to win5 the size is not permitted (04, Table 4.6). -/
def store (sz : Size) (va : Word) (x : Reg) (req : Request) : M Unit := do
  phaseAccess va
  let n := sizeBytes sz
  match regionOf va with
  | .loc win _ _ => need (¬(1 ≤ win ∧ win ≤ 5)) (.trap 0x04 va)
  | _ => pure ()
  let p ← checkAccess va n .store
  let v ← readW x
  storeAt [⟨p, va, req, storeBytes (toBytes n v.toNat)⟩]

/-- `LD` (R121). Sign-extending load of size s from wb plus scaled offset. -/
def execLd (sz : Size) (d b : Reg) (off : BitVec 11) (req : Request) (s : State) :=
  M.run (do load sz true (← scaledAddr sz b off) d req) s
/-- `LDN` (R121). Zero-extending load of size s. -/
def execLdn (sz : Size) (d b : Reg) (off : BitVec 11) (req : Request) (s : State) :=
  M.run (do load sz false (← scaledAddr sz b off) d req) s
/-- `ST` (R121). Store the low bytes of ws into memory. -/
def execSt (sz : Size) (d b : Reg) (off : BitVec 11) (req : Request) (s : State) :=
  M.run (do store sz (← scaledAddr sz b off) d req) s
/-- `LDX` (R121). Sign-extending indexed load at wb + wc x s. -/
def execLdx (sz : Size) (d b c : Reg) (req : Request) (s : State) :=
  M.run (do load sz true (← indexedAddr sz b c) d req) s
/-- `LDXN` (R121). Zero-extending indexed load. -/
def execLdxn (sz : Size) (d b c : Reg) (req : Request) (s : State) :=
  M.run (do load sz false (← indexedAddr sz b c) d req) s
/-- `STX` (R121). Indexed store. -/
def execStx (sz : Size) (d b c : Reg) (req : Request) (s : State) :=
  M.run (do store sz (← indexedAddr sz b c) d req) s

/-- The bytes of a packed block (05, R130). -/
def blockBytes : Block → Nat | .c4 => 8 | .c6 => 12 | .c8 => 16
/-- The address at which a form of page 0 accesses memory. -/
def State.dataAddr (s : State) (i : Instr) : Option Word :=
  let at' (x : M Word) : Option Word := match x s with | .ok (a, _) => some a | .error _ => none
  match i with
  | .ld z _ b off _ | .ldn z _ b off _ | .st z _ b off _ => at' (scaledAddr z b off)
  | .ldx z _ b c _ | .ldxn z _ b c _ | .stx z _ b c _ => at' (indexedAddr z b c)
  | .pref b off | .cflush b off => some (s.w b + off.signExtend 64)
  | .ldpk f _ b off _ | .stpk f _ b off _ => some (s.w b + BitVec.ofInt 64 (off.toInt * blockBytes f))
  | _ => none

/-! ### Hints -/

/-- `pref` changes no architectural state and raises no fault (05, R129); while a phase is open it is barred outside
the core's own scratchpad (09, R240). The line that it asks for is one that a default load would bring. -/
def execPref (b : Reg) (off : BitVec 11) (s : State) := M.run (do
  let va := (← readW b) + off.signExtend 64
  phaseAccess va
  let s ← get
  match regionOf va with
  | .loc _ _ _ | .bad => pure ()
  | _ =>
    match (do let p ← checkAccess va 1 .load; pure p : M Place) s with
    | .ok (.hbm pa bd, t) =>
      if s.untrained (.hbm pa bd) || s.owned (.hbm pa bd) 1 || s.hurts s.myQuire [] (.hbm pa bd) 1 .dflt then pure ()
      else set (t.hbmLoad s.myQuire bd pa 1 .dflt).1
    | .error (.badWalk _) => set s.countMalformed
    | _ => pure ()) s

/-- The bytes of the line that holds a place: that of the page's binding, of 64 bytes in a scratchpad. -/
def State.lineSpan (s : State) (p : Place) : Place × Nat :=
  match p with
  | .hbm pa b => let n := (s.binding b).rec'.line; (.hbm (pa / n * n) b, n)
  | q => (lineOf q, 64)
/-- Instruction words of a line that fetch keeps are named by `cflush`; the next control transfer drops them
(02, R61; 05, R129). -/
def Core.nameFetched (c : Core) (p : Place) (n : Nat) : Core :=
  { c with fetched := c.fetched.map fun (q, w, named) =>
      (q, w, named || (q.sameMemory p && overlaps q.offset 2 p.offset n)) }
/-- `cflush` (05, R129): checks 1, 2 and 4 to 9 as a one-byte load, then its three steps. -/
def execCflush (b : Reg) (off : BitVec 11) (s : State) := M.run (do
  let va := (← readW b) + off.signExtend 64
  phaseAccess va
  let p ← checkAccess va 1 .load
  let s ← get
  let (l, n) := s.lineSpan p
  if sbTouches s.me.sb l n then drainFirst
  modify fun s =>
    let t := match p with
      | .hbm pa bd => s.dropLines s.myQuire fun x => x.holds bd pa && x.dirty
      | _ => s
    t.onMe fun c => c.nameFetched l n) s

/-! ### Packed blocks (05, R130 to R132) -/

/-- The parts of a block: one, or two around a 64-byte boundary (05, R131). -/
def blockParts (va : Word) (n : Nat) : List (Word × Nat) :=
  let cut := Nat.min n (64 - va.toNat % 64)
  if cut = n then [(va, n)] else [(va, cut), (va + BitVec.ofNat 64 cut, n - cut)]
/-- Stage 1 for one part: checks 1 to 9; alignment to 4 is that of the block's address. A local block that runs on
past offset 0x3_FFFF fails check 4 in the part that passes it. -/
def checkBlockPart (first : Word) (kind : Access) (part : Word × Nat) : M Place := do
  let (va, n) := part
  let r ← liftE (checkRegion (← get) va va)
  if va = first then liftE (checkAlign va 4 va)
  match r, regionOf first with
  | .loc _ _ off, .loc _ _ off0 => if off < off0 then trap 0x04 va else checkPart r va n kind
  | .loc _ _ _, _ => checkPart r va n kind
  | _, _ => checkPart r va n kind
def checkBlock (first : Word) (kind : Access) : List (Word × Nat) → M (List Span)
  | [] => return []
  | x :: r => do
    let p ← checkBlockPart first kind x
    return (p, x.1, x.2) :: (← checkBlock first kind r)
/-- Stages 1 and 2. A local second part beside a translated first one lies on one device with it. -/
def blockPlaces (va : Word) (n : Nat) (kind : Access) : M (List Span) := do
  let ps ← checkBlock va kind (blockParts va n)
  match ps with
  | [(p, _, _), (q, v, _)] => if remoteDev p = remoteDev q then return ps else trap 0x03 v
  | _ => return ps
/-- `LDPK` (R130). Load a 16-code packed block into one or two registers without decoding. -/
def execLdpk (f : Block) (d b : Reg) (off : BitVec 11) (req : Request) (s : State) := M.run (do
  let n := blockBytes f
  let va := (← readW b) + BitVec.ofInt 64 (off.toInt * n)
  phaseAccess va
  let ps ← blockPlaces va n .load
  -- the two parts are read at one point (R132)
  let bs ← loadSpans 0 ps req
  writeW d (BitVec.ofNat 64 (ofBytes (bs.take 8)))
  if n ≠ 8 then writeW (d + 1) (BitVec.ofNat 64 (ofBytes (bs.drop 8)))) s
/-- `STPK` (R130). Store a 16-code packed block from one or two registers. -/
def execStpk (f : Block) (d b : Reg) (off : BitVec 11) (req : Request) (s : State) := M.run (do
  let n := blockBytes f
  let va := (← readW b) + BitVec.ofInt 64 (off.toInt * n)
  phaseAccess va
  let ps ← blockPlaces va n .store
  let x ← readW d
  let y ← readW (d + 1)
  let bs := (toBytes 8 x.toNat ++ toBytes 8 y.toNat).take n
  let cut := match ps with | (_, _, k) :: _ => k | [] => 0
  storeParts (ps.zipIdx.map fun (x, i) => ⟨x.1, x.2.1, req, storeBytes (if i = 0 then bs.take cut else bs.drop cut)⟩)) s

end Sys2Proof.Machine
end

