-- ==== Sys2Proof/Machine/Integer.lean ====
section
/-! DEFINITION. Page 0: integer arithmetic, logic, shifts, comparison, moves, constants and bit operations
(05, R103 to R116, R128). -/

namespace Sys2Proof.Machine

/-! ### Results -/

/-- Division in full (05, R106). -/
def divS (a b : Word) : Word :=
  if b = 0 then BitVec.allOnes 64
  else if a = BitVec.intMin 64 && b = BitVec.allOnes 64 then a
  else BitVec.ofInt 64 (a.toInt.tdiv b.toInt)
def remS (a b : Word) : Word :=
  if b = 0 then a
  else if a = BitVec.intMin 64 && b = BitVec.allOnes 64 then 0
  else BitVec.ofInt 64 (a.toInt.tmod b.toInt)
def divU (a b : Word) : Word := if b = 0 then BitVec.allOnes 64 else BitVec.ofNat 64 (a.toNat / b.toNat)
def remU (a b : Word) : Word := if b = 0 then a else BitVec.ofNat 64 (a.toNat % b.toNat)
/-- The high halves of the products (05, Table 5.1). -/
def mulHighS (a b : Word) : Word := ((a.signExtend 128) * (b.signExtend 128)).extractLsb' 64 64
def mulHighU (a b : Word) : Word := ((a.zeroExtend 128) * (b.zeroExtend 128)).extractLsb' 64 64
/-- A register shift amount (05, R107). -/
def amount (b : Word) : Nat := (b.extractLsb' 0 6).toNat
/-- A full-width mask and a truth value (05, Table 5.3). -/
def full (p : Bool) : Word := if p then BitVec.allOnes 64 else 0
def truth (p : Bool) : Word := if p then 1 else 0
/-- Counts over the low `n` bits of a number (05, Table 5.4; 08, Table 8.2). -/
def ctzN (n v : Nat) : Nat := ((List.range n).find? fun i => v.testBit i).getD n
def clzN (n v : Nat) : Nat := ((List.range n).find? fun i => v.testBit (n - 1 - i)).getD n
def ffsN (n v : Nat) : Nat := if v % 2 ^ n = 0 then 0 else ctzN n v + 1
def popN (n v : Nat) : Nat := ((List.range n).filter fun i => v.testBit i).length
/-- The bytes of a double reversed (05, R115). -/
def byteSwap (a : Word) : Word :=
  a.extractLsb' 0 8 ++ (a.extractLsb' 8 8 ++ (a.extractLsb' 16 8 ++ (a.extractLsb' 24 8 ++
    (a.extractLsb' 32 8 ++ (a.extractLsb' 40 8 ++ (a.extractLsb' 48 8 ++ a.extractLsb' 56 8))))))
/-- The ones of a field of `len` bits at `pos`, cut off above bit 63 (05, R116). -/
def fieldMask (pos len : Nat) : Word := BitVec.ofNat 64 (2 ^ (Nat.min len (64 - pos)) - 1)
def extractField (a : Word) (pos len : Nat) : Word := (a >>> pos) &&& fieldMask pos len
def insertField (d a : Word) (pos len : Nat) : Word :=
  (d &&& ~~~(fieldMask pos len <<< pos)) ||| ((a &&& fieldMask pos len) <<< pos)
/-- Position and length of a bit field from a register and from K11 (05, R116). -/
def regField (b : Word) : Nat × Nat := ((b.extractLsb' 0 6).toNat, (b.extractLsb' 8 6).toNat + 1)
def immField (k : BitVec 11) : Nat × Nat := ((k.extractLsb' 0 6).toNat, (k.extractLsb' 6 5).toNat + 1)

/-! ### The shapes of the register forms (05, R103) -/

/-- wd := f wa wb. -/
def two (f : Word → Word → Word) (d a b : Reg) : M Unit := do writeW d (f (← readW a) (← readW b))
/-- wd := f wa. -/
def one (f : Word → Word) (d a : Reg) : M Unit := do writeW d (f (← readW a))

/-! ### Meanings -/

/-- `NOP` (R113). Changes no state; with an SC prefix it is a pure delay. -/
def execNop (s : State) := M.run (pure ()) s
/-- `ADD` (R105). wd := wa + wb modulo 2^64. -/
def execAdd (d a b : Reg) (s : State) := M.run (two (fun x y => x + y) d a b) s
/-- `SUB` (R105). wd := wa - wb modulo 2^64. -/
def execSub (d a b : Reg) (s : State) := M.run (two (fun x y => x - y) d a b) s
/-- `MUL` (R105). wd := low 64 bits of wa x wb. -/
def execMul (d a b : Reg) (s : State) := M.run (two (fun x y => x * y) d a b) s
/-- `MULH` (R105). wd := high 64 bits of the signed 128-bit product. -/
def execMulh (d a b : Reg) (s : State) := M.run (two (fun x y => mulHighS x y) d a b) s
/-- `MULHN` (R105). wd := high 64 bits of the unsigned 128-bit product. -/
def execMulhn (d a b : Reg) (s : State) := M.run (two (fun x y => mulHighU x y) d a b) s
/-- `DIV` (R106). Signed quotient truncated toward zero, with fixed results for zero divisor and overflow. -/
def execDiv (d a b : Reg) (s : State) := M.run (two (fun x y => divS x y) d a b) s
/-- `DIVN` (R106). Unsigned quotient, all ones for a zero divisor. -/
def execDivn (d a b : Reg) (s : State) := M.run (two (fun x y => divU x y) d a b) s
/-- `REM` (R106). Signed remainder with the sign of wa. -/
def execRem (d a b : Reg) (s : State) := M.run (two (fun x y => remS x y) d a b) s
/-- `REMN` (R106). Unsigned remainder, wa for a zero divisor. -/
def execRemn (d a b : Reg) (s : State) := M.run (two (fun x y => remU x y) d a b) s
/-- `AND` (R107). Bitwise AND of wa and wb. -/
def execAnd (d a b : Reg) (s : State) := M.run (two (fun x y => x &&& y) d a b) s
/-- `OR` (R107). Bitwise OR of wa and wb. -/
def execOr (d a b : Reg) (s : State) := M.run (two (fun x y => x ||| y) d a b) s
/-- `XOR` (R107). Bitwise XOR of wa and wb. -/
def execXor (d a b : Reg) (s : State) := M.run (two (fun x y => x ^^^ y) d a b) s
/-- `ANDN` (R107). wd := wa AND NOT wb. -/
def execAndn (d a b : Reg) (s : State) := M.run (two (fun x y => x &&& ~~~y) d a b) s
/-- `SHL` (R107). Shift left by wb[5:0]. -/
def execShl (d a b : Reg) (s : State) := M.run (two (fun x y => x <<< amount y) d a b) s
/-- `SHR` (R107). Logical shift right by wb[5:0]. -/
def execShr (d a b : Reg) (s : State) := M.run (two (fun x y => x >>> amount y) d a b) s
/-- `SRA` (R107). Arithmetic shift right by wb[5:0]. -/
def execSra (d a b : Reg) (s : State) := M.run (two (fun x y => x.sshiftRight (amount y)) d a b) s
/-- `ROTL` (R107). Rotate left by wb[5:0]. -/
def execRotl (d a b : Reg) (s : State) := M.run (two (fun x y => x.rotateLeft (amount y)) d a b) s
/-- `MIN` (R107). Signed minimum. -/
def execMin (d a b : Reg) (s : State) := M.run (two (fun x y => if x.slt y then x else y) d a b) s
/-- `MAX` (R107). Signed maximum. -/
def execMax (d a b : Reg) (s : State) := M.run (two (fun x y => if x.slt y then y else x) d a b) s
/-- `MINN` (R107). Unsigned minimum. -/
def execMinn (d a b : Reg) (s : State) := M.run (two (fun x y => if x.ult y then x else y) d a b) s
/-- `MAXN` (R107). Unsigned maximum. -/
def execMaxn (d a b : Reg) (s : State) := M.run (two (fun x y => if x.ult y then y else x) d a b) s
/-- `SLT` (R107). Full-width mask if wa < wb signed, else 0. -/
def execSlt (d a b : Reg) (s : State) := M.run (two (fun x y => full (x.slt y)) d a b) s
/-- `SLTN` (R107). Full-width mask if wa < wb unsigned, else 0. -/
def execSltn (d a b : Reg) (s : State) := M.run (two (fun x y => full (x.ult y)) d a b) s
/-- `SET_EQ` (R107). wd := 1 if wa = wb, else 0. -/
def execSetEq (d a b : Reg) (s : State) := M.run (two (fun x y => truth (x == y)) d a b) s
/-- `SET_NE` (R107). wd := 1 if wa differs from wb, else 0. -/
def execSetNe (d a b : Reg) (s : State) := M.run (two (fun x y => truth (x != y)) d a b) s
/-- `SET_LT` (R107). wd := 1 if wa < wb signed. -/
def execSetLt (d a b : Reg) (s : State) := M.run (two (fun x y => truth (x.slt y)) d a b) s
/-- `SET_GE` (R107). wd := 1 if wa >= wb signed. -/
def execSetGe (d a b : Reg) (s : State) := M.run (two (fun x y => truth (!x.slt y)) d a b) s
/-- `SET_LTN` (R107). wd := 1 if wa < wb unsigned. -/
def execSetLtn (d a b : Reg) (s : State) := M.run (two (fun x y => truth (x.ult y)) d a b) s
/-- `SET_GEN` (R107). wd := 1 if wa >= wb unsigned. -/
def execSetGen (d a b : Reg) (s : State) := M.run (two (fun x y => truth (!x.ult y)) d a b) s
/-- `sel`: any nonzero old wd selects wa (05, R108). -/
def execSel (d a b : Reg) (s : State) := M.run (do
  let old ← readW d
  two (fun x y => if old ≠ 0 then x else y) d a b) s
/-- `MOV` (R110). wd := wa. -/
def execMov (d a : Reg) (s : State) := M.run (one (fun x => x) d a) s
/-- `CLZ` (R114). Count leading zero bits of wa. -/
def execClz (d a : Reg) (s : State) := M.run (one (fun x => BitVec.ofNat 64 (clzN 64 x.toNat)) d a) s
/-- `CTZ` (R114). Count trailing zero bits of wa. -/
def execCtz (d a : Reg) (s : State) := M.run (one (fun x => BitVec.ofNat 64 (ctzN 64 x.toNat)) d a) s
/-- `FFS` (R114). 1 + index of lowest set bit, or 0. -/
def execFfs (d a : Reg) (s : State) := M.run (one (fun x => BitVec.ofNat 64 (ffsN 64 x.toNat)) d a) s
/-- `POP` (R114). Population count of wa. -/
def execPop (d a : Reg) (s : State) := M.run (one (fun x => BitVec.ofNat 64 (popN 64 x.toNat)) d a) s
/-- `SEXT_B` (R115). Sign-extend from bit 7. -/
def execSextB (d a : Reg) (s : State) := M.run (one (fun x => (x.extractLsb' 0 8).signExtend 64) d a) s
/-- `SEXT_H` (R115). Sign-extend from bit 15. -/
def execSextH (d a : Reg) (s : State) := M.run (one (fun x => (x.extractLsb' 0 16).signExtend 64) d a) s
/-- `SEXT_W` (R115). Sign-extend from bit 31. -/
def execSextW (d a : Reg) (s : State) := M.run (one (fun x => (x.extractLsb' 0 32).signExtend 64) d a) s
/-- `BSWAP` (R115). Reverse the eight bytes of wa. -/
def execBswap (d a : Reg) (s : State) := M.run (one (fun x => byteSwap x) d a) s
/-- `ZEXT_B` (R115). Clear bits above bit 7. -/
def execZextB (d a : Reg) (s : State) := M.run (one (fun x => (x.extractLsb' 0 8).zeroExtend 64) d a) s
/-- `ZEXT_H` (R115). Clear bits above bit 15. -/
def execZextH (d a : Reg) (s : State) := M.run (one (fun x => (x.extractLsb' 0 16).zeroExtend 64) d a) s
/-- `ZEXT_W` (R115). Clear bits above bit 31. -/
def execZextW (d a : Reg) (s : State) := M.run (one (fun x => (x.extractLsb' 0 32).zeroExtend 64) d a) s
/-- `BEXT` (R116). Extract a zero-extended bit field of wa at a register-given position and length. -/
def execBext (d a b : Reg) (s : State) := M.run (two (fun x y => extractField x (regField y).1 (regField y).2) d a b) s
/-- `BEXT_IMM` (R116). Extract a bit field with position and length from IX. -/
def execBextImm (d a : Reg) (k : BitVec 11) (s : State) :=
  M.run (one (fun x => extractField x (immField k).1 (immField k).2) d a) s
/-- `BINS` (R116). Insert the low bits of wa into a field of the old wd. -/
def execBins (d a b : Reg) (s : State) := M.run (do
  let old ← readW d
  two (fun x y => insertField old x (regField y).1 (regField y).2) d a b) s
/-- `BINS_IMM` (R116). Insert a bit field with position and length from IX. -/
def execBinsImm (d a : Reg) (k : BitVec 11) (s : State) := M.run (do
  let old ← readW d
  one (fun x => insertField old x (immField k).1 (immField k).2) d a) s
/-- `ADDI` (R111). wd := wa + sign-extended immediate. -/
def execAddi (d a : Reg) (k : BitVec 17) (s : State) := M.run (one (fun x => x + k.signExtend 64) d a) s
/-- `LI` (R111). wd := sign-extended immediate. -/
def execLi (d : Reg) (k : BitVec 17) (s : State) := M.run (writeW d (k.signExtend 64)) s
/-- The 17 bits shifted out are lost (05, R112). -/
def execLix (d : Reg) (k : BitVec 17) (s : State) := M.run (one (fun x => (x <<< 17) ||| k.zeroExtend 64) d d) s
/-- `SHLI` (R109). Shift left by an immediate amount. -/
def execShli (d a : Reg) (k : BitVec 6) (s : State) := M.run (one (fun x => x <<< k.toNat) d a) s
/-- `SHRI` (R109). Logical shift right by an immediate amount. -/
def execShri (d a : Reg) (k : BitVec 6) (s : State) := M.run (one (fun x => x >>> k.toNat) d a) s
/-- `SRAI` (R109). Arithmetic shift right by an immediate amount. -/
def execSrai (d a : Reg) (k : BitVec 6) (s : State) := M.run (one (fun x => x.sshiftRight k.toNat) d a) s
/-- `lea` makes no access and no check (05, R128). -/
def execLea (d b : Reg) (off : BitVec 11) (s : State) := M.run (one (fun x => x + off.signExtend 64) d b) s
/-- `LEA_INDEXED` (R128). wd := wb + (wc << F) + byte offset. -/
def execLeaIndexed (sz : Size) (d b c : Reg) (off : BitVec 11) (s : State) :=
  M.run (two (fun x y => x + (y <<< sizeLog sz) + off.signExtend 64) d b c) s

end Sys2Proof.Machine
end

