-- ==== Sys2Proof/Machine/VectorInt.lean ====
section
/-! DEFINITION. Page 2: integer lanes, lane movement, reductions, comparisons and masks (08, R195 to R202). -/

namespace Sys2Proof.Machine

/-! ### Lanes (08, Table 8.1) -/

/-- The value bits of lane `i`, and its value under the type's signedness. -/
def laneU (t : IntTy) (v : VecReg) (i : Nat) : Nat := lane v t.lane i % 2 ^ t.bits
def laneI (t : IntTy) (v : VecReg) (i : Nat) : Int :=
  let u := laneU t v i
  if t.signed && 2 ^ (t.bits - 1) ≤ u then (u : Int) - 2 ^ t.bits else u
/-- A result modulo 2^v. -/
def wrapTo (t : IntTy) (x : Int) : Nat := (x % 2 ^ t.bits).toNat
def typeMin (t : IntTy) : Int := if t.signed then -(2 ^ (t.bits - 1)) else 0
def typeMax (t : IntTy) : Int := if t.signed then 2 ^ (t.bits - 1) - 1 else 2 ^ t.bits - 1
/-- A clamped result, with OF where it was clamped. -/
def clampTo (t : IntTy) (x : Int) : Nat × Flags :=
  if x < typeMin t then (wrapTo t (typeMin t), flagOF)
  else if typeMax t < x then (wrapTo t (typeMax t), flagOF)
  else (wrapTo t x, 0)
/-- Which lanes are active under a mask (08, R196). -/
def activeLanes (s : State) (m : MReg) (w : Nat) : List Bool := (List.range (1024 / w)).map fun i => active s m w i

/-! ### Shapes -/

/-- Each active lane of vd by a function of the lane number, with flags (08, R196). -/
def laneWrite (w : Nat) (d : VReg) (m : MReg) (f : Nat → Nat × Flags) : M Unit := do
  controlOnly
  let s ← get
  let xs := (activeLanes s m w).zipIdx.map fun (on, i) => if on then some (f i) else none
  writeV d (mergeLanes (s.v d) w (xs.map fun x => x.map fun y => y.1))
  modify fun s => s.raise (unionFlags (xs.map fun x => match x with | some y => y.2 | none => 0))
/-- vd.lane := f (va.lane) (vb.lane), modulo 2^v. -/
def lanes2 (t : IntTy) (d a b : VReg) (m : MReg) (f : Int → Int → Int) : M Unit := do
  let x ← readV a
  let y ← readV b
  laneWrite t.lane d m fun i => (wrapTo t (f (laneI t x i) (laneI t y i)), 0)
/-- The same with the value bits read unsigned. -/
def lanesU (t : IntTy) (d a b : VReg) (m : MReg) (f : Nat → Nat → Nat) : M Unit := do
  let x ← readV a
  let y ← readV b
  laneWrite t.lane d m fun i => (f (laneU t x i) (laneU t y i) % 2 ^ t.bits, 0)
/-- The same, saturated. -/
def lanesS (t : IntTy) (d a b : VReg) (m : MReg) (f : Int → Int → Int → Int) : M Unit := do
  let x ← readV a
  let y ← readV b
  let z ← readV d
  laneWrite t.lane d m fun i => clampTo t (f (laneI t z i) (laneI t x i) (laneI t y i))

/-- `VADD` (R198). Integer lane add. -/
def execVadd (t : IntTy) (d a b : VReg) (m : MReg) (s : State) := M.run (lanes2 t d a b m fun x y => x + y) s
/-- `VSUB` (R198). Integer lane subtract. -/
def execVsub (t : IntTy) (d a b : VReg) (m : MReg) (s : State) := M.run (lanes2 t d a b m fun x y => x - y) s
/-- `VMUL` (R198). Low bits of integer lane product. -/
def execVmul (t : IntTy) (d a b : VReg) (m : MReg) (s : State) := M.run (lanes2 t d a b m fun x y => x * y) s
/-- `VMULH` (R198). High bits of integer lane product. -/
def execVmulh (t : IntTy) (d a b : VReg) (m : MReg) (s : State) :=
  M.run (lanes2 t d a b m fun x y => (x * y).fdiv (2 ^ t.bits)) s
/-- `VADDS` (R198). Saturating lane add. -/
def execVadds (t : IntTy) (d a b : VReg) (m : MReg) (s : State) := M.run (lanesS t d a b m fun _ x y => x + y) s
/-- `VSUBS` (R198). Saturating lane subtract. -/
def execVsubs (t : IntTy) (d a b : VReg) (m : MReg) (s : State) := M.run (lanesS t d a b m fun _ x y => x - y) s
/-- `.n` types do not decode (08, Table 8.2). -/
def execVabs (t : IntTy) (d b : VReg) (m : MReg) (s : State) :=
  M.run (if t.signed then lanesS t d b b m (fun _ x _ => x.natAbs) else illegal) s
/-- `VNEG` (R198). Saturating lane negation. -/
def execVneg (t : IntTy) (d b : VReg) (m : MReg) (s : State) :=
  M.run (if t.signed then lanesS t d b b m (fun _ x _ => -x) else illegal) s
/-- `VMIN` (R198). Lane minimum. -/
def execVmin (t : IntTy) (d a b : VReg) (m : MReg) (s : State) :=
  M.run (lanes2 t d a b m fun x y => if x < y then x else y) s
/-- `VMAX` (R198). Lane maximum. -/
def execVmax (t : IntTy) (d a b : VReg) (m : MReg) (s : State) :=
  M.run (lanes2 t d a b m fun x y => if x < y then y else x) s
/-- `VMAC` (R198). Lane multiply-accumulate into vd. -/
def execVmac (t : IntTy) (d a b : VReg) (m : MReg) (s : State) := M.run (do
  let z ← readV d
  let x ← readV a
  let y ← readV b
  laneWrite t.lane d m fun i => (wrapTo t (laneI t z i + laneI t x i * laneI t y i), 0)) s
/-- `VMACS` (R198). Saturating lane multiply-accumulate. -/
def execVmacs (t : IntTy) (d a b : VReg) (m : MReg) (s : State) := M.run (lanesS t d a b m fun z x y => z + x * y) s
/-- `VSHL` (R198). Lane shift left. -/
def execVshl (t : IntTy) (d a b : VReg) (m : MReg) (s : State) :=
  M.run (lanesU t d a b m fun x y => x * 2 ^ (y % t.bits)) s
/-- `VSHR` (R198). Lane logical shift right. -/
def execVshr (t : IntTy) (d a b : VReg) (m : MReg) (s : State) :=
  M.run (lanesU t d a b m fun x y => x / 2 ^ (y % t.bits)) s
/-- The fill is bit v − 1 whatever the type's signedness. -/
def execVsra (t : IntTy) (d a b : VReg) (m : MReg) (s : State) :=
  M.run (lanesU t d a b m fun x y =>
    let k := y % t.bits
    x / 2 ^ k + (if x.testBit (t.bits - 1) then 2 ^ t.bits - 2 ^ (t.bits - k) else 0)) s
/-- `VROTL` (R198). Lane rotate left. -/
def execVrotl (t : IntTy) (d a b : VReg) (m : MReg) (s : State) :=
  M.run (lanesU t d a b m fun x y => let k := y % t.bits; x * 2 ^ k + x / 2 ^ (t.bits - k)) s
/-- `VAND` (R198). Lane bitwise AND. -/
def execVand (t : IntTy) (d a b : VReg) (m : MReg) (s : State) := M.run (lanesU t d a b m fun x y => x &&& y) s
/-- `VOR` (R198). Lane bitwise OR. -/
def execVor (t : IntTy) (d a b : VReg) (m : MReg) (s : State) := M.run (lanesU t d a b m fun x y => x ||| y) s
/-- `VXOR` (R198). Lane bitwise XOR. -/
def execVxor (t : IntTy) (d a b : VReg) (m : MReg) (s : State) := M.run (lanesU t d a b m fun x y => x ^^^ y) s
/-- `VANDN` (R198). Lane va AND NOT vb. -/
def execVandn (t : IntTy) (d a b : VReg) (m : MReg) (s : State) :=
  M.run (lanesU t d a b m fun x y => x &&& (2 ^ t.bits - 1 - y)) s
/-- vd.lane := f (vb.lane). -/
def lanes1 (t : IntTy) (d b : VReg) (m : MReg) (f : Nat → Nat) : M Unit := lanesU t d b b m fun x _ => f x
/-- `VNOT` (R198). Lane NOT. -/
def execVnot (t : IntTy) (d b : VReg) (m : MReg) (s : State) := M.run (lanes1 t d b m fun x => 2 ^ t.bits - 1 - x) s
/-- `VMOV` (R198). Lane move. -/
def execVmov (t : IntTy) (d b : VReg) (m : MReg) (s : State) := M.run (lanes1 t d b m fun x => x) s
/-- `VCLZ` (R198). Lane leading-zero count. -/
def execVclz (t : IntTy) (d b : VReg) (m : MReg) (s : State) := M.run (lanes1 t d b m fun x => clzN t.bits x) s
/-- `VCTZ` (R198). Lane trailing-zero count. -/
def execVctz (t : IntTy) (d b : VReg) (m : MReg) (s : State) := M.run (lanes1 t d b m fun x => ctzN t.bits x) s
/-- `VFFS` (R198). Lane find-first-set. -/
def execVffs (t : IntTy) (d b : VReg) (m : MReg) (s : State) := M.run (lanes1 t d b m fun x => ffsN t.bits x) s
/-- `VPOP` (R198). Lane population count. -/
def execVpop (t : IntTy) (d b : VReg) (m : MReg) (s : State) := M.run (lanes1 t d b m fun x => popN t.bits x) s

/-! ### Movement (08, R199) -/

/-- `VBCAST` (R199). Broadcast wa into every active lane. -/
def execVbcast (t : IntTy) (d : VReg) (a : Reg) (m : MReg) (s : State) := M.run (do
  let x ← readW a
  laneWrite t.lane d m fun _ => (x.toNat % 2 ^ t.bits, 0)) s
/-- `VSEL` (R199). Select va or vb per lane by a mask. -/
def execVsel (t : IntTy) (d a b : VReg) (z m : MReg) (s : State) := M.run (do
  let x ← readV a
  let y ← readV b
  let sel := (← get).m z
  laneWrite t.lane d m fun i => (if sel.getLsbD (i * t.lane / 4) then laneU t x i else laneU t y i, 0)) s
/-- `VEXT` (R199). Extract lane k into wd. -/
def execVext (t : IntTy) (d : Reg) (b : VReg) (k : BitVec 11) (s : State) := M.run (do
  controlOnly
  if t.lanes ≤ k.toNat then illegal
  writeW d (BitVec.ofInt 64 (laneI t (← readV b) k.toNat))) s
/-- `VINS` (R199). Insert wa into lane k. -/
def execVins (t : IntTy) (d : VReg) (a : Reg) (k : BitVec 11) (s : State) := M.run (do
  if t.lanes ≤ k.toNat then illegal
  let x ← readW a
  let old ← readV d
  laneWrite t.lane d 0 fun i => (if i = k.toNat then x.toNat % 2 ^ t.bits else lane old t.lane i, 0)) s
/-- `VPERM` (R199). Permute lanes by an index vector. -/
def execVperm (t : IntTy) (d a x : VReg) (m : MReg) (s : State) := M.run (do
  let src ← readV a
  let idx ← readV x
  laneWrite t.lane d m fun i => let u := laneU t idx i; (if u < t.lanes then laneU t src u else 0, 0)) s
/-- Where lane `i` of a slide comes from: va or vb, and which lane (08, Table 8.3). -/
def slideFrom (n : Nat) (k : Int) (i : Nat) : Bool × Nat :=
  let j := (i : Int) + k
  if 0 ≤ k then if j < n then (true, j.toNat) else (false, (j - n).toNat)
  else if 0 ≤ j then (true, j.toNat) else (false, (n + j).toNat)
/-- `VSLIDE` (R199). Slide lanes across va and vb by a signed count. -/
def execVslide (t : IntTy) (d a b : VReg) (k : BitVec 11) (m : MReg) (s : State) := M.run (do
  if t.lanes < k.toInt.natAbs then illegal
  let x ← readV a
  let y ← readV b
  laneWrite t.lane d m fun i =>
    let (first, j) := slideFrom t.lanes k.toInt i
    (if first then laneU t x j else laneU t y j, 0)) s

/-! ### Reductions and scans (08, R200) -/

/-- The active lanes of a register, an inactive one as the identity. -/
def activeValues (s : State) (t : IntTy) (v : VecReg) (m : MReg) (ident : Int) : List Int :=
  (activeLanes s m t.lane).zipIdx.map fun (on, i) => if on then laneI t v i else ident
def reduceLanes (t : IntTy) (d : Reg) (b : VReg) (m : MReg) (ident : Int) (f : Int → Int → Int) : M Unit := do
  controlOnly
  let s ← get
  writeW d (BitVec.ofInt 64 ((activeValues s t (s.v b) m ident).foldl f ident))
/-- `VREDSUM` (R200). Integer sum reduction into wd. -/
def execVredsum (t : IntTy) (d : Reg) (b : VReg) (m : MReg) (s : State) :=
  M.run (reduceLanes t d b m 0 fun x y => x + y) s
/-- `VREDMIN` (R200). Integer minimum reduction. -/
def execVredmin (t : IntTy) (d : Reg) (b : VReg) (m : MReg) (s : State) :=
  M.run (reduceLanes t d b m (typeMax t) fun x y => if x < y then x else y) s
/-- `VREDMAX` (R200). Integer maximum reduction. -/
def execVredmax (t : IntTy) (d : Reg) (b : VReg) (m : MReg) (s : State) :=
  M.run (reduceLanes t d b m (typeMin t) fun x y => if x < y then y else x) s
/-- `VSCAN` (R200). Inclusive integer prefix sum. -/
def execVscan (t : IntTy) (d b : VReg) (m : MReg) (s : State) := M.run (do
  let s ← get
  let xs := activeValues s t (s.v b) m 0
  laneWrite t.lane d m fun i => (wrapTo t ((xs.take (i + 1)).foldl (fun x y => x + y) 0), 0)) s

/-! ### Comparisons and masks (08, R201, R202) -/

/-- The mask bits of each active lane by a relation of the lanes. -/
def maskWrite (w : Nat) (d : MReg) (m : MReg) (f : Nat → Bool) : M Unit := do
  controlOnly
  let s ← get
  let xs := (activeLanes s m w).zipIdx.map fun (on, i) => if on then some (f i) else none
  set (s.setM d (mergeMask (s.m d) w xs))
def compareLanes (t : IntTy) (d : MReg) (a b : VReg) (m : MReg) (p : Int → Int → Bool) : M Unit := do
  let x ← readV a
  let y ← readV b
  maskWrite t.lane d m fun i => p (laneI t x i) (laneI t y i)
/-- `VCMP_EQ` (R201). Lane equality into mask bits. -/
def execVcmpEq (t : IntTy) (d : MReg) (a b : VReg) (m : MReg) (s : State) :=
  M.run (compareLanes t d a b m fun x y => x = y) s
/-- `VCMP_NE` (R201). Lane inequality into mask bits. -/
def execVcmpNe (t : IntTy) (d : MReg) (a b : VReg) (m : MReg) (s : State) :=
  M.run (compareLanes t d a b m fun x y => x ≠ y) s
/-- `VCMP_LT` (R201). Lane less-than into mask bits. -/
def execVcmpLt (t : IntTy) (d : MReg) (a b : VReg) (m : MReg) (s : State) :=
  M.run (compareLanes t d a b m fun x y => x < y) s
/-- `VCMP_GE` (R201). Lane greater-or-equal into mask bits. -/
def execVcmpGe (t : IntTy) (d : MReg) (a b : VReg) (m : MReg) (s : State) :=
  M.run (compareLanes t d a b m fun x y => y ≤ x) s

def maskOp (d a b : MReg) (f : MaskReg → MaskReg → MaskReg) : M Unit := do
  controlOnly
  modify fun s => s.setM d (f (s.m a) (s.m b))
/-- `MAND` (R202). Mask AND over 256 bits. -/
def execMand (d a b : MReg) (s : State) := M.run (maskOp d a b fun x y => x &&& y) s
/-- `MOR` (R202). Mask OR. -/
def execMor (d a b : MReg) (s : State) := M.run (maskOp d a b fun x y => x ||| y) s
/-- `MXOR` (R202). Mask XOR. -/
def execMxor (d a b : MReg) (s : State) := M.run (maskOp d a b fun x y => x ^^^ y) s
/-- `MANDN` (R202). Mask AND NOT. -/
def execMandn (d a b : MReg) (s : State) := M.run (maskOp d a b fun x y => x &&& ~~~y) s
/-- `MNOT` (R202). Mask NOT. -/
def execMnot (d b : MReg) (s : State) := M.run (maskOp d b b fun _ y => ~~~y) s
/-- `MMOV` (R202). Mask move. -/
def execMmov (d b : MReg) (s : State) := M.run (maskOp d b b fun _ y => y) s
/-- The governing bits of a mask by lane. -/
def governed (t : IntTy) (x : MaskReg) : List Bool := (List.range t.lanes).map fun i => x.getLsbD (i * t.lane / 4)
/-- `MPOP` (R202). Count lanes of a type whose governing bit is set. -/
def execMpop (t : IntTy) (d : Reg) (b : MReg) (s : State) := M.run (do
  controlOnly
  writeW d (BitVec.ofNat 64 ((governed t ((← get).m b)).filter id).length)) s
/-- `MFFS` (R202). 1 + lowest lane of a type with its governing bit set. -/
def execMffs (t : IntTy) (d : Reg) (b : MReg) (s : State) := M.run (do
  controlOnly
  let k := (governed t ((← get).m b)).findIdx? id
  writeW d (match k with | some i => BitVec.ofNat 64 (i + 1) | none => 0)) s

end Sys2Proof.Machine
end

