-- ==== Sys2Proof/Machine/VectorFloat.lean ====
section
/-! DEFINITION. Page 3: float lanes, comparisons, reductions, conversions, packing and random numbers
(08, R203 to R213). -/

namespace Sys2Proof.Machine

/-! ### Lanes of codes (08, R203, R205) -/

/-- The exact value of lane `i`. -/
def laneVal (s : State) (k : Codes) (v : VecReg) (i : Nat) : Val :=
  k.decode s.csr.table (lane v k.lane i % 2 ^ k.width)
/-- The search order of the decode table, from win5's configuration (04, R89; 12, Table 12.3). -/
def Csr.tableOrder (c : Csr) : Nat := (c.window 5).ord
/-- A result encoded into a type with its flags, those of the exact operation included. -/
def encodeLane (s : State) (k : Codes) (mode : Mode) (rnd : Nat) (r : Val × Flags) : Nat × Flags :=
  let (c, f) := k.encode s.csr.table s.csr.tableOrder mode rnd r.1
  (c, f ||| r.2)
/-- Each active lane by an exact operation, rounded once (08, R206). -/
def floatWrite (k : Codes) (mode : Mode) (d : VReg) (m : MReg) (f : State → Nat → Val × Flags) : M Unit := do
  let s ← get
  laneWrite k.lane d m fun i => encodeLane s k mode (s.rnd i) (f s i)

/-- A form of two operands. A reserved mode in `actl` is reported before an invalid format register, an order that R203 and
R204 leave open (log 95). -/
def float2 (t : FloatTy) (d a b : VReg) (m : MReg) (rm : Option Rounding) (f : Val → Val → Val × Flags) : M Unit := do
  controlOnly
  let mode ← roundingMode rm
  let k ← floatCodes t
  floatWrite k mode d m fun s i => f (laneVal s k (s.v a) i) (laneVal s k (s.v b) i)
/-- `VFADD` (R206). Float lane add, rounded once. -/
def execVfadd (t : FloatTy) (d a b : VReg) (m : MReg) (rm : Option Rounding) (s : State) :=
  M.run (float2 t d a b m rm fun x y => x.add y) s
/-- `VFSUB` (R206). Float lane subtract. -/
def execVfsub (t : FloatTy) (d a b : VReg) (m : MReg) (rm : Option Rounding) (s : State) :=
  M.run (float2 t d a b m rm fun x y => x.sub y) s
/-- `VFMUL` (R206). Float lane multiply. -/
def execVfmul (t : FloatTy) (d a b : VReg) (m : MReg) (rm : Option Rounding) (s : State) :=
  M.run (float2 t d a b m rm fun x y => x.mul y) s
/-- `VFDIV` (R206). Float lane divide. -/
def execVfdiv (t : FloatTy) (d a b : VReg) (m : MReg) (rm : Option Rounding) (s : State) :=
  M.run (float2 t d a b m rm fun x y => x.div y) s
def float3 (t : FloatTy) (d a b c : VReg) (m : MReg) (rm : Option Rounding) (np nc : Bool) : M Unit := do
  controlOnly
  let mode ← roundingMode rm
  let k ← floatCodes t
  floatWrite k mode d m fun s i =>
    Val.fused np nc (laneVal s k (s.v a) i) (laneVal s k (s.v b) i) (laneVal s k (s.v c) i)
/-- `VFMA` (R206). Fused va x vb + vc. -/
def execVfma (t : FloatTy) (d a b c : VReg) (m : MReg) (rm : Option Rounding) (s : State) :=
  M.run (float3 t d a b c m rm false false) s
/-- `VFMS` (R206). Fused va x vb - vc. -/
def execVfms (t : FloatTy) (d a b c : VReg) (m : MReg) (rm : Option Rounding) (s : State) :=
  M.run (float3 t d a b c m rm false true) s
/-- `VFNMA` (R206). Fused -(va x vb) - vc. -/
def execVfnma (t : FloatTy) (d a b c : VReg) (m : MReg) (rm : Option Rounding) (s : State) :=
  M.run (float3 t d a b c m rm true true) s
/-- `VFNMS` (R206). Fused -(va x vb) + vc. -/
def execVfnms (t : FloatTy) (d a b c : VReg) (m : MReg) (rm : Option Rounding) (s : State) :=
  M.run (float3 t d a b c m rm true false) s
def float1 (t : FloatTy) (d b : VReg) (m : MReg) (rm : Option Rounding) (f : Val → Val × Flags) : M Unit :=
  float2 t d b b m rm fun x _ => f x
/-- `VFSQRT` (R206). Float lane square root. -/
def execVfsqrt (t : FloatTy) (d b : VReg) (m : MReg) (rm : Option Rounding) (s : State) :=
  M.run (float1 t d b m rm fun x => x.sqrt) s
/-- `VFRCP` (R206). Float lane reciprocal. -/
def execVfrcp (t : FloatTy) (d b : VReg) (m : MReg) (rm : Option Rounding) (s : State) :=
  M.run (float1 t d b m rm fun x => (Val.ofInt 1).div x) s
/-- `vfabs` and `vfneg` never consult the rounding mode (08, R206). -/
def execVfabs (t : FloatTy) (d b : VReg) (m : MReg) (s : State) :=
  M.run (float1 t d b m (some .nearest) fun x => (x.abs, 0)) s
/-- `VFNEG` (R206). Float lane negation. -/
def execVfneg (t : FloatTy) (d b : VReg) (m : MReg) (s : State) :=
  M.run (float1 t d b m (some .nearest) fun x => (x.negate, 0)) s
/-- The chosen operand's code unchanged; NaN when either operand is NaN (08, R206). -/
def floatPick (t : FloatTy) (d a b : VReg) (m : MReg) (first : Val → Val → Bool) : M Unit := do
  controlOnly
  let k ← floatCodes t
  let s ← get
  laneWrite k.lane d m fun i =>
    let x := laneVal s k (s.v a) i
    let y := laneVal s k (s.v b) i
    if x.isNan || y.isNan then encodeLane s k .nearest 0 (.nan, 0)
    else (lane (if first x y then s.v a else s.v b) k.lane i % 2 ^ k.width, 0)
/-- `VFMIN` (R206). Float lane minimum without rounding. -/
def execVfmin (t : FloatTy) (d a b : VReg) (m : MReg) (s : State) :=
  M.run (floatPick t d a b m fun x y => x.firstIsLess y) s
/-- `VFMAX` (R206). Float lane maximum without rounding. -/
def execVfmax (t : FloatTy) (d a b : VReg) (m : MReg) (s : State) :=
  M.run (floatPick t d a b m fun x y => !x.firstIsLess y) s

/-! ### Comparisons (08, R207) -/

def floatCompare (t : FloatTy) (d : MReg) (a b : VReg) (m : MReg) (p : Val → Val → Bool) : M Unit := do
  controlOnly
  let k ← floatCodes t
  let s ← get
  maskWrite k.lane d m fun i => p (laneVal s k (s.v a) i) (laneVal s k (s.v b) i)
/-- `VFCMP_EQ` (R207). Float equality into mask bits. -/
def execVfcmpEq (t : FloatTy) (d : MReg) (a b : VReg) (m : MReg) (s : State) :=
  M.run (floatCompare t d a b m fun x y => x.same y) s
/-- `VFCMP_LT` (R207). Float less-than into mask bits. -/
def execVfcmpLt (t : FloatTy) (d : MReg) (a b : VReg) (m : MReg) (s : State) :=
  M.run (floatCompare t d a b m fun x y => x.less y) s
/-- `VFCMP_LE` (R207). Float less-or-equal into mask bits. -/
def execVfcmpLe (t : FloatTy) (d : MReg) (a b : VReg) (m : MReg) (s : State) :=
  M.run (floatCompare t d a b m fun x y => x.less y || x.same y) s
/-- `VFCMP_UN` (R207). Unordered test into mask bits. -/
def execVfcmpUn (t : FloatTy) (d : MReg) (a b : VReg) (m : MReg) (s : State) :=
  M.run (floatCompare t d a b m fun x y => x.isNan || y.isNan) s

/-! ### Reductions and scans (08, R208, R209) -/

/-- Neighbours combined, with the number of the node. -/
def pairUp (f : Nat → Val → Val → Val × Flags) : Nat → List Val → List Val × Flags
  | k, x :: y :: r =>
    let (v, g) := f k x y
    let (l, h) := pairUp f (k + 1) r
    (v :: l, g ||| h)
  | _, l => (l, 0)
/-- The fixed tree, level by level. -/
def treeFold (f : Nat → Val → Val → Val × Flags) : Nat → Nat → List Val → Val × Flags
  | 0, _, l => (l.headD .zero, 0)
  | n + 1, k, l =>
    if l.length ≤ 1 then (l.headD .zero, 0)
    else
      let (l2, g) := pairUp f k l
      let (v, h) := treeFold f n (k + l.length / 2) l2
      (v, g ||| h)
/-- A value rounded into FP32, with flags. -/
def round32 (mode : Mode) (rnd : Nat) (r : Val × Flags) : Val × Flags :=
  let (c, f) := fp32.encode mode rnd r.1
  (fp32.decode c, f ||| r.2)
def floatReduce (t : FloatTy) (d : Reg) (b : VReg) (m : MReg) (ident : Val) (f : State → Nat → Val → Val → Val × Flags) :
    M Unit := do
  let k ← floatCodes t
  let s ← get
  let xs := (activeLanes s m k.lane).zipIdx.map fun (on, i) => if on then laneVal s k (s.v b) i else ident
  let (v, g) := treeFold (f s) 8 0 xs
  modify fun s => s.raise g
  writeW d (BitVec.ofNat 64 (fp32.encode .nearest 0 v).1)
/-- `VFREDSUM` (R208). Float sum by a fixed pairwise tree into wd. -/
def execVfredsum (t : FloatTy) (d : Reg) (b : VReg) (m : MReg) (rm : Option Rounding) (s : State) := M.run (do
  controlOnly
  let mode ← roundingMode rm
  floatReduce t d b m (.fin true Mag.zero) fun s k x y => round32 mode (s.rnd k) (x.add y)) s
/-- Each node is exact, so no mode is consulted (08, R206, R208). -/
def execVfredmin (t : FloatTy) (d : Reg) (b : VReg) (m : MReg) (_ : Option Rounding) (s : State) := M.run (do
  controlOnly
  floatReduce t d b m (.inf false) fun _ _ x y =>
    (if x.isNan || y.isNan then .nan else if x.firstIsLess y then x else y, 0)) s
/-- `VFREDMAX` (R208). Float maximum reduction. -/
def execVfredmax (t : FloatTy) (d : Reg) (b : VReg) (m : MReg) (_ : Option Rounding) (s : State) := M.run (do
  controlOnly
  floatReduce t d b m (.inf true) fun _ _ x y =>
    (if x.isNan || y.isNan then .nan else if x.firstIsLess y then y else x, 0)) s
/-- The running value after each lane, with the lane's result where it is active. -/
def scanLanes (s : State) (k : Codes) (mode : Mode) (v : VecReg) : List (Bool × Nat) → Val → List (Option (Nat × Flags))
  | [], _ => []
  | (false, _) :: r, run => none :: scanLanes s k mode v r run
  | (true, i) :: r, run =>
    let (next, g) := round32 mode (s.rnd i) (run.add (laneVal s k v i))
    some (encodeLane s k mode (s.rnd i) (next, g)) :: scanLanes s k mode v r next
/-- `VFSCAN` (R209). Float running sum in lane order. -/
def execVfscan (t : FloatTy) (d b : VReg) (m : MReg) (rm : Option Rounding) (s : State) := M.run (do
  controlOnly
  let mode ← roundingMode rm
  let k ← floatCodes t
  let s ← get
  let xs := scanLanes s k mode (s.v b) (activeLanes s m k.lane).zipIdx (.fin true Mag.zero)
  writeV d (mergeLanes (s.v d) k.lane (xs.map fun x => x.map fun y => y.1))
  modify fun s => s.raise (unionFlags (xs.map fun x => match x with | some y => y.2 | none => 0))) s

/-! ### Conversion and packing (08, R210 to R212) -/

/-- Elements of `ws`-bit source lanes into `wd`-bit lanes; lanes past the last element are written as zero. -/
def convert (ws wd : Nat) (d : VReg) (m : MReg) (f : State → Nat → Nat × Flags) : M Unit := do
  let s ← get
  let n := 1024 / Nat.max ws wd
  let xs := (List.range (1024 / wd)).map fun i =>
    if n ≤ i then some (0, 0) else if active s m wd i then some (f s i) else none
  writeV d (mergeLanes (s.v d) wd (xs.map fun x => x.map fun y => y.1))
  modify fun s => s.raise (unionFlags (xs.map fun x => match x with | some y => y.2 | none => 0))
/-- `VCVT_FF` (R210). Convert float type to float type. -/
def execVcvtFf (t src : FloatTy) (d b : VReg) (m : MReg) (rm : Option Rounding) (s : State) := M.run (do
  controlOnly
  let mode ← roundingMode rm
  let k ← floatCodes t
  let j ← floatCodes src
  convert j.lane k.lane d m fun s i => encodeLane s k mode (s.rnd i) (laneVal s j (s.v b) i, 0)) s
/-- `VCVT_FI` (R210). Convert float to saturated integer. -/
def execVcvtFi (t : IntTy) (src : FloatTy) (d b : VReg) (m : MReg) (rm : Option Rounding) (s : State) := M.run (do
  controlOnly
  let mode ← roundingMode rm
  let j ← floatCodes src
  convert j.lane t.lane d m fun s i => (intFmt t).encode mode (s.rnd i) (laneVal s j (s.v b) i)) s
/-- `VCVT_IF` (R210). Convert integer to float. -/
def execVcvtIf (t : FloatTy) (src : IntTy) (d b : VReg) (m : MReg) (rm : Option Rounding) (s : State) := M.run (do
  controlOnly
  let mode ← roundingMode rm
  let k ← floatCodes t
  convert src.lane k.lane d m fun s i => encodeLane s k mode (s.rnd i) (Val.ofInt (laneI src (s.v b) i), 0)) s
/-- Sixty-four FP32 values of two registers. -/
def values64 (a b : VecReg) (i : Nat) : Val := fp32.decode (if i < 32 then lane a 32 i else lane b 32 (i - 32))
/-- `VPACK` (R211). Encode 64 FP32 values into packed narrow codes. -/
def execVpack (t : FloatTy) (d a b : VReg) (rm : Option Rounding) (s : State) := M.run (do
  controlOnly
  if t = .f32 then illegal
  let mode ← roundingMode rm
  let k ← floatCodes t
  let s ← get
  let xs := (List.range 64).map fun i => encodeLane s k mode (s.rnd i) (values64 (s.v a) (s.v b) i, 0)
  writeV d (ofLanes k.width (xs.map fun x => x.1))
  modify fun s => s.raise (unionFlags (xs.map fun x => x.2))) s
/-- `VUNPACK` (R212). Decode packed codes to FP32 lanes. -/
def execVunpack (t : FloatTy) (d a b : VReg) (_ : Option Rounding) (s : State) := M.run (do
  controlOnly
  if t = .f32 then illegal
  let k ← floatCodes t
  let s ← get
  let code (i : Nat) : Nat := (bitsFp32 (k.decode s.csr.table (lane (s.v b) k.width i))).toNat
  let half (from' : Nat) : VecReg := ofLanes 32 ((List.range 32).map fun i => code (from' + i))
  if d ≠ a then writeV a (half 32)
  writeV d (half 0)) s

/-! ### Random numbers (08, R213) -/

/-- One round of Philox4x32. -/
def philoxRound (k : W32 × W32) (c : W32 × W32 × W32 × W32) : W32 × W32 × W32 × W32 :=
  let (c0, c1, c2, c3) := c
  let p : BitVec 64 := 0xD2511F53#64 * c0.zeroExtend 64
  let q : BitVec 64 := 0xCD9E8D57#64 * c2.zeroExtend 64
  (q.extractLsb' 32 32 ^^^ c1 ^^^ k.1, q.extractLsb' 0 32, p.extractLsb' 32 32 ^^^ c3 ^^^ k.2, p.extractLsb' 0 32)
def philox : Nat → W32 × W32 → W32 × W32 × W32 × W32 → W32 × W32 × W32 × W32
  | 0, _, c => c
  | n + 1, k, c => philox n (k.1 + 0x9E3779B9#32, k.2 + 0xBB67AE85#32) (philoxRound k c)
/-- The output of a 128-bit counter lane. -/
def philoxLane (key : Word) (c : Nat) : Nat :=
  let w (i : Nat) : W32 := BitVec.ofNat 32 (c / 2 ^ (32 * i))
  let (a, b, x, y) := philox 10 (key.extractLsb' 0 32, key.extractLsb' 32 32) (w 0, w 1, w 2, w 3)
  a.toNat + 2 ^ 32 * (b.toNat + 2 ^ 32 * (x.toNat + 2 ^ 32 * y.toNat))
/-- `VRNG` (R213). Philox4x32-10 outputs per 128-bit lane, advancing counters. -/
def execVrng (d b : VReg) (m : MReg) (s : State) := M.run (do
  controlOnly
  if d = b then illegal
  let s ← get
  let on (j : Nat) : Bool := active s m 128 j
  let out := (List.range 8).map fun j => if on j then some (philoxLane s.csr.rngkey (lane (s.v b) 128 j)) else none
  let cnt := (List.range 8).map fun j => if on j then some (lane (s.v b) 128 j + 1) else none
  writeV d (mergeLanes (s.v d) 128 out)
  writeV b (mergeLanes (s.v b) 128 cnt)) s

end Sys2Proof.Machine
end

