-- ==== Sys2Proof/Machine/Matrix.lean ====
section
/-! DEFINITION. Page 4: the matrix configuration, operands, operations and accumulators, and the governor
(04, R95, R97 to R100; 09, R222 to R235; 12, R313; 14, R374 to R379; 16, R435; 18, R450, R451). -/

namespace Sys2Proof.Machine

/-! ### The configuration (09, Table 9.2) -/

/-- A field of the matrix configuration: `n` bits from bit `lo`. -/
def cfgField (c : BitVec 512) (lo n : Nat) : Nat := (c.extractLsb' lo n).toNat
def mW (c : BitVec 512) : Nat := cfgField c 0 8
def mP (c : BitVec 512) : Nat := cfgField c 8 8
def mN (c : BitVec 512) : Nat := cfgField c 16 8
def mAraw (c : BitVec 512) : Nat := cfgField c 24 8
def mK (c : BitVec 512) : Nat := cfgField c 32 16
def mAcd (c : BitVec 512) : Nat := cfgField c 48 8
def mBcd (c : BitVec 512) : Nat := cfgField c 56 8
def mBase (c : BitVec 512) : Nat := cfgField c 64 32
def mStride (c : BitVec 512) : Nat := cfgField c 96 32
/-- The size and the format of A read through win0. -/
def arawBytes (c : BitVec 512) : Nat := if mAraw c = 0 then 4 else 2
def arawFmt (c : BitVec 512) : Fmt := match mAraw c with | 0 => fp32 | 1 => bfloat16 | _ => fp16
/-- A valid configuration (09, R224). -/
def mcfgValid (c : BitVec 512) : Bool :=
  2 ≤ mW c && mW c ≤ 12 && 2 ≤ mP c && mP c ≤ 12 && mN c ≤ 64 && mAraw c ≤ 2
    && 16 ≤ mK c && mK c ≤ 4096 && mK c % 16 = 0 && (mN c = 0 || mK c % 64 = 0)
    && mAcd c ≤ 4 && mBcd c ≤ 4 && (mAcd c ≠ mBcd c || mAcd c = 0)
    && mBase c % 8 = 0 && mStride c % arawBytes c = 0 && c.extractLsb' 128 384 == 0#384
/-- The conduit that a field ACD or BCD names. -/
def cdOf (k : Nat) : Option Cd := if h : 1 ≤ k ∧ k ≤ 4 then some ⟨k - 1, by omega⟩ else none
/-- Plane issues of an operation (09, Table 9.3). -/
def planesOf (c : BitVec 512) : Nat :=
  if mN c = 0 then mK c * mP c else mK c / 64 * Nat.max (mN c) 16 * mP c

/-! ### Operands (09, R225 to R227) -/

/-- The window and the offset of an operand of core `core`: its own scratchpad through slot 0 or its own slot. -/
def operandAt (core : Nat) (va : Word) : Option (Nat × Nat) :=
  match regionOf va with
  | .loc win slot off => if slot ≠ 127 && slotCore core slot = some core then some (win, off) else none
  | _ => none

/-- Where a windowed operand begins: its window, its codes and its first element, or tile. -/
structure OperandAt where
  win   : Win
  codes : Codes
  first : Nat
  deriving DecidableEq, Repr

/-- The element of win1 to win5 at an address, with the checks that look at no byte (09, R225). -/
def windowA (c : Csr) (cfg : BitVec 512) (win off : Nat) (va : Word) : Except Exc OperandAt :=
  match c.winCodes win with
  | none => .error (.trap 0x04 va)
  | some k =>
    let x := c.window win
    let gap : Int := ((off : Int) - x.ebase) * 8
    let e := gap / k.width
    if !k.valid || x.scl = 3 then .error (.trap 0x04 va)
    else if gap % k.width ≠ 0 || (0 ≤ e && e.toNat % x.rowLen % 16 ≠ 0) then .error (.trap 0x03 va)
    else if e < 0 || x.rowLen < e.toNat % x.rowLen + mK cfg then .error (.trap 0x04 va)
    else if x.scl ≠ 0 && x.orient then .error (.trap 0x10 va)
    else .ok ⟨x, k, e.toNat⟩
/-- The tile of win6 at an address (09, R226; 12, R313). -/
def windowB (c : Csr) (cfg : BitVec 512) (win off : Nat) (va : Word) : Except Exc OperandAt :=
  match c.planeCodes with
  | none => .error (.trap 0x04 va)
  | some k =>
    let x := c.window 6
    let t := (off - x.ebase) / (2 * k.width)
    if win ≠ 6 || !k.valid || x.scl = 3 || off < x.ebase then .error (.trap 0x04 va)
    else if (off - x.ebase) % (2 * k.width) ≠ 0 || (mN cfg ≠ 0 && t / x.rowLen % 4 ≠ 0) then .error (.trap 0x03 va)
    else if x.scl ≠ 0 && !x.orient then .error (.trap 0x10 va)
    else .ok ⟨x, k, t⟩

/-- The byte ranges of the A operand, with the checks of R225 that look at no byte. -/
def rangesA (c : Csr) (cfg : BitVec 512) (core : Nat) (va : Word) : Except Exc (List (Nat × Nat)) :=
  match operandAt core va with
  | none => .error (.trap 0x04 va)
  | some (0, off) =>
    let n := arawBytes cfg
    if off % n ≠ 0 then .error (.trap 0x03 va)
    else .ok ((List.range 64).map fun m => (off + m * mStride cfg, mK cfg * n))
  | some (win, off) => do
    let o ← windowA c cfg win off va
    let w := o.codes.width
    .ok ((List.range 64).flatMap fun m =>
      let e := o.first + m * o.win.rowLen
      let pos := o.win.ebase * 8 + e * w
      let sc := if o.win.scl = 0 then [] else [(o.win.sbase + o.win.block e, mK cfg / 16)]
      (pos / 8, (pos % 8 + mK cfg * w + 7) / 8) :: sc)
/-- Rows of the win6 view that the B operand spans (09, R227). -/
def rowsB (cfg : BitVec 512) : Nat := if mN cfg = 0 then mK cfg else mK cfg * mN cfg / 64
def rangesB (c : Csr) (cfg : BitVec 512) (core : Nat) (va : Word) : Except Exc (List (Nat × Nat)) :=
  match operandAt core va with
  | none => .error (.trap 0x04 va)
  | some (win, off) => do
    let o ← windowB c cfg win off va
    let w := 2 * o.codes.width
    .ok ((List.range ((rowsB cfg + 15) / 16)).flatMap fun r =>
      let t := o.first + r * o.win.rowLen
      let sc := if o.win.scl = 0 then [] else [(o.win.sbase + t, 32)]
      (o.win.ebase + w * t, 32 * w) :: sc)
/-- The masks of a sparse operand: `n × K ÷ 64 + g` (09, R227). -/
def rangesMask (cfg : BitVec 512) : List (Nat × Nat) := if mN cfg = 0 then [] else [(mBase cfg, mK cfg * 4)]
/-- No range passes the scratchpad's end, and none meets a donated share. -/
def checkRanges (c : Core) (rs : List (Nat × Nat)) (va : Word) : Except Exc Unit :=
  if rs.any fun r => 0x40000 < r.1 + r.2 then .error (.trap 0x04 va)
  else if rs.all fun r => sharesOwn c r.1 r.2 then .ok () else .error (.trap 0x05 va)
/-- The lines of ranges. -/
def rangeLines (rs : List (Nat × Nat)) : List Nat :=
  (rs.flatMap fun (off, n) => (List.range ((off % 64 + n + 63) / 64)).map fun i => off / 64 * 64 + 64 * i).eraseDups

/-! ### Images of operand lines -/

def imgByte (img : Image) (o : Nat) : Byte :=
  match img.find? fun x => x.1 = o / 64 * 64 with | some x => x.2.getD (o % 64) 0 | none => 0
def imgBytes (img : Image) (o n : Nat) : List Byte := (List.range n).map fun i => imgByte img (o + i)
/-- Lines of a core's scratchpad, its own stores laid over them. -/
def State.lineImage (s : State) (core : Nat) (ls : List Nat) : Image :=
  ls.map fun l => (l, forward (s.core core).sb (.spad core l) (Memory.read (s.core core).spad l 64))
/-- The reads of the unit count the uncorrectable words that they meet (16, R437). -/
def State.noteLines (s : State) (core : Nat) (ls : List Nat) : State := ls.foldl (fun t l => t.noteError (.spad core l) 64) s
/-- The lowest line of a list with an uncorrectable double, as its report (16, R435). -/
def State.badLine (s : State) (core : Nat) (ls : List Nat) : Option Word :=
  match ls.filter fun l => s.anyBad (.spad core l) 64 with
  | [] => none
  | l :: r => some (localAddr (r.foldl Nat.min l) ||| 1)

/-! ### Panels -/

/-- Sixteen operand elements along K with their scale (04, R91). -/
abbrev Block16 := List Val × Val
/-- Block `b` of row `m` of A. -/
def blockA (op : MatrixOp) (core m b : Nat) : Block16 :=
  match operandAt core op.aAddr with
  | none => ([], Val.zero)
  | some (0, off) =>
    let n := arawBytes op.cfg
    let at' (i : Nat) : Nat := off + m * mStride op.cfg + (16 * b + i) * n
    ((List.range 16).map fun i => (arawFmt op.cfg).decode (ofBytes (imgBytes op.aImg (at' i) n)), Val.ofInt 1)
  | some (win, off) =>
    match windowA op.aCsr op.cfg win off 0 with
    | .error _ => ([], Val.zero)
    | .ok o =>
      let w := o.codes.width
      let e := o.first + m * o.win.rowLen + 16 * b
      let bit (i : Nat) : Nat := o.win.ebase * 8 + (e + i) * w
      let code (i : Nat) : Nat := bitsOf (imgBytes op.aImg (bit i / 8) 2) (bit i % 8) w
      ((List.range 16).map fun i => o.codes.decode op.aCsr.table (code i),
        scaleVal o.win.scl (imgByte op.aImg (o.win.sbase + o.win.block e)).toNat)
/-- The code of bit `i` of a plane tile at an offset (12, R313). -/
def tileCode (byte : Nat → Byte) (off w i : Nat) : Nat :=
  (List.range w).foldl (fun v j => 2 * v + (if (byte (off + 2 * j + i / 8)).getLsbD (i % 8) then 1 else 0)) 0
/-- Element (r, n) of the win6 view. -/
def elemB (op : MatrixOp) (o : OperandAt) (r n : Nat) : Val :=
  let w := o.codes.width
  let t := o.first + r / 16 * o.win.rowLen + n
  o.codes.decode op.bCsr.table (tileCode (imgByte op.bImg) (o.win.ebase + 2 * w * t) w (r % 16))
def scaleB (op : MatrixOp) (o : OperandAt) (r n : Nat) : Val :=
  scaleVal o.win.scl (imgByte op.bImg (o.win.sbase + o.first + r / 16 * o.win.rowLen + n)).toNat
/-- The mask of column `n`, group `g`. -/
def maskOf (img : Image) (cfg : BitVec 512) (n g : Nat) : Nat :=
  ofBytes (imgBytes img (mBase cfg + 8 * (n * mK cfg / 64 + g)) 8)
/-- Set bits of a mask below bit `j`. -/
def bitsBelow (x j : Nat) : Nat := (List.range j).foldl (fun k i => k + x / 2 ^ i % 2) 0
/-- Block `b` of column `n` of B; a sparse group is expanded with its mask (04, R100; 18, R451). -/
def blockB (op : MatrixOp) (core n b : Nat) : Block16 :=
  match operandAt core op.bAddr with
  | none => ([], Val.zero)
  | some (win, off) =>
    match windowB op.bCsr op.cfg win off 0 with
    | .error _ => ([], Val.zero)
    | .ok o =>
      if mN op.cfg = 0 then ((List.range 16).map fun i => elemB op o (16 * b + i) n, scaleB op o (16 * b) n)
      else
        let g := b / 4
        let x := maskOf op.bImg op.cfg n g
        let row (j : Nat) : Nat := g * mN op.cfg + bitsBelow x j
        ((List.range 16).map fun i =>
          let j := b % 4 * 16 + i
          if x / 2 ^ j % 2 = 1 then elemB op o (row j) n else Val.zero, scaleB op o (g * mN op.cfg) n)

/-! ### Accumulation (09, R228; 04, R97 to R99) -/

/-- An element after all its blocks, in increasing K. -/
def accumulate (wa wb : Nat) : List Block16 → List Block16 → W32 → W32
  | (xa, sa) :: ra, (xb, sb) :: rb, acc => accumulate wa wb ra rb (blockUpdate acc wa wb xa xb sa sb)
  | _, _, acc => acc
/-- Elements that were not NaN, and not infinite, and have become so. -/
def newNan (old new : W32) : Bool := (valFp32 new).isNan && !(valFp32 old).isNan
def newInf (old new : W32) : Bool := (valFp32 new).isInf && !(valFp32 old).isInf && !(valFp32 old).isNan
/-- An accumulator changed element by element, with the counts of NANC and INFC (09, R235). -/
def changeAcc (acc : Vector VecReg 64) (f : Nat → Nat → W32 → W32) : Vector VecReg 64 × Nat × Nat :=
  let elem (m n : Nat) : W32 := BitVec.ofNat 32 (lane (acc.toList.getD m 0) 32 n)
  let rows := (List.range 64).map fun m => (List.range 32).map fun n => (elem m n, f m n (elem m n))
  let count (p : W32 → W32 → Bool) : Nat := (rows.map fun r => (r.filter fun x => p x.1 x.2).length).foldl (· + ·) 0
  (Vector.ofFn fun m => ofLanes 32 ((rows.getD m.val []).map fun x => x.2.toNat), count newNan, count newInf)
/-- Counts saturate at 0xFFFF. -/
def Core.countUp (c : Core) (nan inf : Nat) : Core :=
  { c with nanc := Nat.min 0xFFFF (c.nanc + nan), infc := Nat.min 0xFFFF (c.infc + inf) }
/-- An operation's result on its accumulator. With an uncorrectable operand every element becomes NaN (16, R435). -/
def Core.finishOp (c : Core) (core : Nat) (op : MatrixOp) : Core :=
  let nb := mK op.cfg / 16
  let rowA := (List.range 64).map fun m => (List.range nb).map (blockA op core m)
  let colB := (List.range 32).map fun n => (List.range nb).map (blockB op core n)
  let new (m n : Nat) (old : W32) : W32 :=
    if op.bad.isSome then 0x7FC00000 else accumulate (mW op.cfg) (mP op.cfg) (rowA.getD m []) (colB.getD n []) old
  let (acc, nan, inf) := changeAcc c.acc[op.acc] new
  { c with acc := c.acc.set op.acc acc, impErr := c.impErr ++ op.bad.toList }.countUp nan inf

/-! ### The matrix unit (09, R230, R231; 14, R374) -/

/-- The head entry of a conduit is full. -/
def Conduit.full (c : Conduit) : Bool := c.head < c.tail
/-- Where entry `x` lies. -/
def Conduit.entry (c : Conduit) (x : Nat) : Nat := if c.count = 0 then c.base else c.base + x % c.count * c.esize
def Conduit.pop (c : Conduit) : Conduit := { c with head := c.head + 1, free := c.free + 1 }
def Conduit.push (c : Conduit) : Conduit := { c with tail := c.tail + 1, free := c.free - 1 }
def Core.onConduit (c : Core) (k : Cd) (f : Conduit → Conduit) : Core :=
  { c with conduits := c.conduits.set k (f c.conduits[k]) }
def MatrixOp.names (op : MatrixOp) (k : Cd) : Bool := op.aCond = some k || op.bCond = some k
/-- The lines of an operand; none of them where its address does not serve. -/
def linesOk (r : Except Exc (List (Nat × Nat))) : List Nat := match r with | .ok rs => rangeLines rs | .error _ => []
/-- The lines that a conduit delivers to an operation. -/
def conduitLines (op : MatrixOp) (core : Nat) : List Nat × List Nat :=
  (if op.aCond.isSome then linesOk (rangesA op.aCsr op.cfg core op.aAddr) else [],
   if op.bCond.isSome then linesOk (rangesB op.bCsr op.cfg core op.bAddr) else [])
/-- Lines read by the unit join both images of an operation. -/
def MatrixOp.read (op : MatrixOp) (a b : Image) (bad : Option Word) (ls : List Nat) : MatrixOp :=
  { op with aImg := a ++ op.aImg, bImg := b ++ op.bImg, bad := op.bad <|> bad
            todo := op.todo.filter fun l => !ls.contains l }
def State.anyOwned (s : State) (core : Nat) (ls : List Nat) : Bool := ls.any fun l => s.owned (.spad core l) 64
/-- Lines of the scratchpad as the unit reads them. -/
def State.rawImage (s : State) (core : Nat) (ls : List Nat) : Image :=
  ls.map fun l => (l, Memory.read (s.core core).spad l 64)
def Core.setHead (c : Core) (op : MatrixOp) : Core := { c with mops := op :: c.mops.tail }

/-- The core's oldest operation starts: a conduit's entry is full and is read; of the other lines still to be read,
which are read now is open (09, R231). The cycle at which its first plane issue is ready is open too, and follows the plane
issues before it (14, R374). -/
def State.matrixStart (s : State) (core : Nat) : Option State :=
  match (s.core core).mops with
  | [] => none
  | op :: _ =>
    let c := s.core core
    let full (k : Option Cd) : Bool := match k with | some k => c.conduits[k].full | none => true
    let (la, lb) := conduitLines op core
    if op.started || !full op.aCond || !full op.bCond || s.anyOwned core (la ++ lb) then none
    else
      let now := op.todo.zipIdx.filterMap fun (l, i) =>
        if s.owned (.spad core l) 64 || Config.readLater s.tick i then none else some l
      let img := s.rawImage core now
      let op := op.read (s.lineImage core la ++ img) (s.lineImage core lb ++ img) (s.badLine core (la ++ lb ++ now)) now
      some ((s.noteLines core (la ++ lb ++ now)).onCore core fun c =>
        c.setHead { op with started := true, ready := c.govAt + Config.windowStart s.tick core })
/-- Plane issues that an operation makes in this window, of 256 cycles: it issues one in each cycle from the one at which it
is ready, `mmac` and `msmac` only while the window's count is below the allowance; an allowance of 256 holds nothing
(14, R378). -/
def Core.issues (c : Core) (op : MatrixOp) : Nat :=
  let room := Nat.min op.planes (256 - op.ready)
  if op.rect || 256 ≤ c.allowance then room else Nat.min room (c.allowance - c.govUsed)
/-- The core's oldest operation completes: what is left to read is read, its last plane issues are made in this window, and
conduit entries are popped (09, R229, R231, R232; 14, R378). -/
def State.matrixDone (s : State) (core : Nat) : Option State :=
  match (s.core core).mops with
  | [] => none
  | op :: rest =>
    let c := s.core core
    if !op.started || s.anyOwned core op.todo || c.issues op < op.planes then none
    else
      let img := s.rawImage core op.todo
      let last := op.read img img (s.badLine core op.todo) op.todo
      let pop (k : Option Cd) (c : Core) : Core := match k with | some k => c.onConduit k Conduit.pop | none => c
      some ((s.noteLines core op.todo).onCore core fun c =>
        pop last.aCond (pop last.bCond { c.finishOp core last with
          mops := rest, govUsed := c.govUsed + op.planes
          govAt := if op.planes = 0 then c.govAt else op.ready + op.planes }))
/-- `MATRIX_OPERATION_START` and `MATRIX_OPERATION_COMPLETE` of core `turn.core`. -/
def execMatrixOperationStart (s : State) : Host.Outcome State Fault Refusal :=
  .next ((s.matrixStart s.turn.core).getD s)
/-- `MATRIX_OPERATION_COMPLETE` (R228). A matrix operation completes its last accumulator write. -/
def execMatrixOperationComplete (s : State) : Host.Outcome State Fault Refusal :=
  .next ((s.matrixDone s.turn.core).getD s)

/-! ### mcfg, mmac and msmac -/

/-- `MCFG` (R223). Load the matrix configuration after earlier matrix work completes. -/
def execMcfg (a : Reg) (s : State) := M.run (do
  controlOnly
  let va ← readW a
  let off ← localOperand va 64 64
  if !(← get).me.mops.isEmpty then waitHere
  let c := BitVec.ofNat 512 (ofBytes (← readOwn off 64))
  need (mcfgValid c) (.trap 0x0F va)
  modify fun s => s.onMe fun m => { m with mcfg := c }) s

/-- The address of an operand: the register's, or a conduit's entry (09, R229). Operations that wait in front use up
entries of their own. -/
def operandAddr (k : Option Cd) (r : Reg) : M Word := do
  match k with
  | none => readW r
  | some k => do
    let c := (← get).me
    let x := c.conduits[k]
    if x.count = 0 || !x.cons then illegal
    else
      let ahead := (c.mops.filter fun op => op.names k).length
      return localAddr (x.win * 0x2000000 + x.entry (x.head + ahead))
/-- The lowest mask with a population count other than N (04, R100; 09, R227). -/
def badMask (img : Image) (cfg : BitVec 512) : Option Nat :=
  ((List.range (mK cfg / 2)).map fun i => mBase cfg + 8 * i).find? fun o =>
    mN cfg ≠ 0 && bitsBelow (ofBytes (imgBytes img o 8)) 64 ≠ mN cfg
/-- The masks of the issuing core, checked. -/
def readMasks (cfg : BitVec 512) : M Image := do
  let s ← get
  let ls := rangeLines (rangesMask cfg)
  if s.anyOwned s.cur ls then waitHere
  let img := s.lineImage s.cur ls
  match badMask img cfg with
  | some o => trap 0x0F (localAddr o)
  | none => return img
/-- `mmac` and `msmac` (09, R225 to R230). -/
def multiply (sparse : Bool) (c : AReg) (a b : Reg) : M Unit := do
  controlOnly
  let s ← get
  let cfg := s.me.mcfg
  if s.csr.ph && (mAcd cfg ≠ 0 || mBcd cfg ≠ 0) then trap 0x07 0
  if 2 ≤ s.me.mops.length then waitHere
  need (mcfgValid cfg && (mN cfg ≠ 0) = sparse) (.trap 0x0F 0)
  let aAddr ← operandAddr (cdOf (mAcd cfg)) a
  let bAddr ← operandAddr (cdOf (mBcd cfg)) b
  let ra ← liftE (rangesA s.csr cfg s.cur aAddr)
  liftE (checkRanges s.me ra aAddr)
  let rb ← liftE (rangesB s.csr cfg s.cur bAddr)
  liftE (checkRanges s.me (rb ++ rangesMask cfg) bAddr)
  let masks ← readMasks cfg
  let ls := ((if mAcd cfg = 0 then rangeLines ra else []) ++ (if mBcd cfg = 0 then rangeLines rb else [])).eraseDups
  let own (l : Nat) : Bool := sbTouches s.me.sb (.spad s.cur l) 64
  if ls.any fun l => own l && s.owned (.spad s.cur l) 64 then waitOn (ls.map fun l => .spad s.cur l)
  let now := ls.zipIdx.filterMap fun (l, i) =>
    if own l || !(s.owned (.spad s.cur l) 64 || Config.readLater s.tick i) then some l else none
  let img := s.lineImage s.cur now
  let op : MatrixOp :=
    { acc := c, cfg := cfg, aCsr := s.csr, bCsr := s.csr, aAddr := aAddr, bAddr := bAddr, aImg := img
      bImg := img ++ masks, todo := ls.filter fun l => !now.contains l, aCond := cdOf (mAcd cfg), bCond := cdOf (mBcd cfg)
      planes := planesOf cfg, ready := 0, rect := false, started := false
      bad := s.badLine s.cur (now ++ rangeLines (rangesMask cfg)) }
  modify fun s => (s.noteLines s.cur (now ++ rangeLines (rangesMask cfg))).onMe fun m => { m with mops := m.mops ++ [op] }
/-- `MMAC` (R228). Dense block-floating-point multiply-accumulate into an accumulator. -/
def execMmac (c : AReg) (a b : Reg) (s : State) := M.run (multiply false c a b) s
/-- `MSMAC` (R228). Sparse N-of-64 multiply-accumulate. -/
def execMsmac (c : AReg) (a b : Reg) (s : State) := M.run (multiply true c a b) s

/-! ### Accumulator forms (09, R233 to R235) -/

/-- An operation that names the accumulator is in the unit: the form waits at issue (09, R230). -/
def accFree (c : AReg) : M Unit := do
  if (← get).me.mops.any fun op => op.acc = c then waitHere
/-- `MZERO` (R233). Write +0 to an accumulator. -/
def execMzero (c : AReg) (s : State) := M.run (do
  controlOnly
  accFree c
  modify fun s => s.onMe fun m => { m with acc := m.acc.set c (Vector.replicate 64 0) }) s
/-- The row that a register names. -/
def rowOf (a : Reg) : M (Fin 64) := do
  let x ← readW a
  if h : x.toNat < 64 then return ⟨x.toNat, h⟩ else trap 0x01 x
/-- `MROW_RD` (R233). Read an accumulator row into a vector. -/
def execMrowRd (v : VReg) (a : Reg) (c : AReg) (s : State) := M.run (do
  controlOnly
  let r ← rowOf a
  accFree c
  writeV v (((← get).me.acc[c])[r])) s
/-- `MROW_WR` (R233). Write a vector into an accumulator row. -/
def execMrowWr (v : VReg) (a : Reg) (c : AReg) (s : State) := M.run (do
  controlOnly
  let r ← rowOf a
  accFree c
  let x ← readV v
  modify fun s => s.onMe fun m => { m with acc := m.acc.set c ((m.acc[c]).set r x) }) s
/-- `MSCALE` (R234). Scale every accumulator element by an FP32 factor. -/
def execMscale (c : AReg) (a : Reg) (s : State) := M.run (do
  controlOnly
  accFree c
  let f := valFp32 ((← readW a).extractLsb' 0 32)
  modify fun s => s.onMe fun m =>
    let (acc, nan, inf) := changeAcc m.acc[c] fun _ _ x => bitsFp32 (((valFp32 x).mul f).1)
    { m with acc := m.acc.set c acc }.countUp nan (if f.isInf then 0 else inf)) s
/-- `mstat` (09, Table 9.4). -/
def execMstat (d : Reg) (s : State) := M.run (do
  controlOnly
  let c := (← get).me
  writeW d (BitVec.ofNat 64 (c.nanc + c.infc * 2 ^ 16 + c.repk * 2 ^ 32 + (if c.repf then 2 ^ 48 else 0)
    + (if c.mops.isEmpty then 0 else 2 ^ 49)))
  modify fun s => s.onMe fun m => { m with nanc := 0, infc := 0, repk := 0, repf := false }) s

/-! ### The governor (14, R377 to R379) -/

/-- BUDGET and RAMP (14, Table 14.2). -/
def govBudget (g : Word) : Nat := Nat.min 256 (g.extractLsb' 0 9).toNat
def govRamp (g : Word) : Nat := (g.extractLsb' 9 4).toNat
/-- A window ends for a core: its operation has made its plane issues of this window and may be held, the cycles in which
a ready one was held are counted, and the next window's allowance is set (14, R378, R379). An operation that waits for its
operands is ready `late` cycles later. -/
def Core.nextWindow (c : Core) (gov : Word) (late : Nat) : Core :=
  let head : Option MatrixOp := match c.mops with
    | op :: _ => if op.started then some { op with ready := op.ready + late } else none
    | [] => none
  let made := match head with | some op => c.issues op | none => 0
  let held := match head with
    | some op => if made < op.planes && !op.rect && c.allowance < 256 then 256 - op.ready - made else 0
    | none => 0
  let used := c.govUsed + made
  let next := if govRamp gov = 0 then govBudget gov else Nat.min (govBudget gov) (used + 16 * govRamp gov)
  { c with
    mops := match head with
      | some op => { op with planes := op.planes - made, ready := op.ready - 256 } :: c.mops.tail
      | none => c.mops
    csr := { c.csr with mgovStall := c.csr.mgovStall + BitVec.ofNat 64 held }
    govLast := used, govUsed := 0, govAt := 0, allowance := next }
/-- Cycles of this window for which the core's oldest operation waits for its operands: for lines that a copy engine owns, or
for banks that other requesters take (14, R375). How many is timing (log 18). -/
def State.lateCycles (s : State) (core : Nat) : Nat := if (s.core core).mops.isEmpty then 0 else Config.windowStart s.tick core
/-- A window boundary changes something in a quire: its cores have matrix work or have made plane issues, or a write to
GOVCTL takes effect. -/
def State.windowDue (s : State) (q : Nat) : Bool :=
  (s.quire q).govctl != (s.quire q).govNext
    || (quireMembers q).any fun n =>
      let c := s.core n
      !c.mops.isEmpty || c.govUsed != 0 || c.govLast != 0
/-- `GOVERNOR_WINDOW`: a window boundary of quire `turn.unit`. -/
def execGovernorWindow (s : State) : Host.Outcome State Fault Refusal :=
  let q := s.turn.unit
  let t := s.onQuire q fun x => { x with govctl := x.govNext }
  let g := (t.quire q).govctl
  .next ((quireMembers q).foldl (fun t n => t.onCore n fun c => c.nextWindow g (s.lateCycles n)) t)
/-- The ceiling that a thermal step sets on BUDGET (17, Table 17.3). -/
def budgetCeiling (step : Nat) : Nat := match step with | 0 => 256 | 1 => 192 | 2 => 96 | _ => 32
/-- `GOVCTL_WRITE`: the management core writes `turn.value` to GOVCTL of quire `turn.unit`; it takes effect at the
next window boundary. -/
def execGovctlWrite (s : State) : Host.Outcome State Fault Refusal :=
  let asked := (s.turn.value.extractLsb' 0 9).toNat
  let budget := Nat.min asked (budgetCeiling (s.thermal.toList.getD (quireDie s.turn.unit) 0))
  .next (s.onQuire s.turn.unit fun x =>
    { x with govNext := (s.turn.value &&& 0x1E00) ||| BitVec.ofNat 64 budget, govAsked := asked })

end Sys2Proof.Machine
end

