-- ==== Sys2Proof/Machine/Conduit.lean ====
section
/-! DEFINITION. Page 4: conduits (09, R246, R247; 14, R372). -/

namespace Sys2Proof.Machine

/-- An operation that waits is barred while a phase is open (09, Table 9.5). -/
def waitsOutside : M Unit := do if (← get).csr.ph then trap 0x07 0
/-- A command of the core, on its way to its engine or accepted, or a matrix operation names the conduit. -/
def State.conduitBusy (s : State) (core : Nat) (k : Cd) : Bool :=
  let names (c : CopyCmd) : Bool := c.core = core && (match c.conduit with | some x => x.1 = k | none => false)
  (s.core core).mops.any (fun op => op.names k) || (s.quire (quireOf core)).cmds.any names
/-- A conduit descriptor (09, Table 9.8); none for a field out of range. -/
def conduitOf (bs : List Byte) : Option Conduit :=
  let base := fieldAt bs 0 4
  let esize := fieldAt bs 4 2
  let count := fieldAt bs 6 2
  let prod := fieldAt bs 8 1
  let cons := fieldAt bs 9 1
  let win := fieldAt bs 0xA 1
  if base % 128 = 0 && esize % 128 = 0 && 128 ≤ esize && esize ≤ 32768 && 1 ≤ count && count ≤ 256
      && prod ≤ 1 && cons ≤ 1 && !(prod = 0 && cons = 0) && win ≤ 5 && zeroAt bs 0xB 5 then
    some ⟨base, esize, count, prod = 1, cons = 1, win, 0, 0, count⟩
  else none
/-- No byte of a range lies in the share of the core's enabled deque spill region (01, R35). -/
def Core.clearOfSpill (c : Core) (off n : Nat) : Bool :=
  !(c.csr.dqlocal.getLsbD 0 && overlaps off n ((c.csr.dqlocal.extractLsb' 13 5).toNat * 0x2000) 0x2000)
/-- configure. Codes 6 to 15 of wa[3:0] name no operation; 1 to 5 are the forms below. -/
def conduitConfigure (k : Cd) (a : Reg) : M Unit := do
  controlOnly
  let x ← readW a
  if x.extractLsb' 0 4 ≠ 0#4 then illegal
  waitsOutside
  let va := x
  let off ← localOperand va 16 16
  let s ← get
  if s.conduitBusy s.cur k then holdHere
  match conduitOf (← readOwn off 16) with
  | none => illegal
  | some x => do
    let n := x.esize * x.count
    let i ← freeIndex
    need (x.base + n ≤ 0x3FF40) (.trap 0x04 (Config.openTval i))
    let c := (← get).me
    need (sharesOwn c x.base n && c.clearOfSpill x.base n) (.trap 0x05 (Config.openTval i))
    modify fun s => s.onMe fun c => c.onConduit k fun _ => x
/-- reset. -/
def conduitReset (k : Cd) : M Unit := do
  controlOnly
  waitsOutside
  let s ← get
  if s.conduitBusy s.cur k then holdHere
  modify fun s => s.onMe fun c => c.onConduit k fun x => { x with head := 0, tail := 0, free := x.count }
/-- The operation is one of the vector side, and the conduit is configured (09, R246). -/
def vectorSide (k : Cd) (consumer : Bool) : M Conduit := do
  let x := (← get).me.conduits[k]
  if x.count = 0 || (if consumer then x.cons else x.prod) then illegal else return x
def conduitWaitFull (k : Cd) : M Unit := do
  controlOnly
  waitsOutside
  if (← vectorSide k true).full then pure () else holdHere
def conduitWaitFree (k : Cd) : M Unit := do
  controlOnly
  waitsOutside
  if 0 < (← vectorSide k false).free then pure () else holdHere
/-- A pop frees the head entry; a pop of an empty conduit is trap 0x01. -/
def conduitPop (k : Cd) : M Unit := do
  controlOnly
  if (← vectorSide k true).full then
    modify fun s => s.onMe fun c => c.onConduit k Conduit.pop
    acquire .core
  else illegal
def conduitPush (k : Cd) : M Unit := do
  controlOnly
  if 0 < (← vectorSide k false).free then
    release .core
    modify fun s => s.onMe fun c => c.onConduit k Conduit.push
  else illegal

/-- `CDCFG_CONFIGURE` (R246). Load a conduit descriptor and reset its counts. -/
def execCdcfgConfigure (k : Cd) (a : Reg) (s : State) := M.run (conduitConfigure k a) s
/-- `CDCFG_WAIT_FULL` (R246). Wait until a conduit entry is full. -/
def execCdcfgWaitFull (k : Cd) (_ : Reg) (s : State) := M.run (conduitWaitFull k) s
/-- `CDCFG_POP` (R246). Free the head entry as an acquire. -/
def execCdcfgPop (k : Cd) (_ : Reg) (s : State) := M.run (conduitPop k) s
/-- `CDCFG_WAIT_FREE` (R246). Wait until a conduit entry is free. -/
def execCdcfgWaitFree (k : Cd) (_ : Reg) (s : State) := M.run (conduitWaitFree k) s
/-- `CDCFG_PUSH` (R246). Mark the tail entry full as a release. -/
def execCdcfgPush (k : Cd) (_ : Reg) (s : State) := M.run (conduitPush k) s
/-- `CDCFG_RESET` (R246). Reset a conduit's counts after waiting for users. -/
def execCdcfgReset (k : Cd) (_ : Reg) (s : State) := M.run (conduitReset k) s

end Sys2Proof.Machine
end

