-- ==== Sys2Proof/Machine/Copy.lean ====
section
/-! DEFINITION. Page 4: copy commands, their checks at issue, and what a command writes
(04, R96; 09, R248 to R256; 12, R313, R314). -/

namespace Sys2Proof.Machine

inductive CopyKind where | cp | cpm | cpc | cpw
  deriving DecidableEq, Repr

/-! ### The descriptor (09, Tables 9.9, 9.10) -/

structure CopyDesc where
  src   : Word
  dst   : Word
  len   : Nat
  dcd   : Nat
  flags : Nat
  caddr : Word
  cval  : Word
  rows  : Nat
  cols  : Nat
  sstride : Word
  dstride : Word
  mask  : Nat
  deriving DecidableEq, Repr
def copyDesc (d : List Byte) : CopyDesc :=
  { src := wordOf (d.take 8), dst := wordOf ((d.drop 8).take 8), len := fieldAt d 0x10 4, dcd := fieldAt d 0x14 1
    flags := fieldAt d 0x15 1, caddr := wordOf ((d.drop 0x18).take 8), cval := wordOf ((d.drop 0x20).take 8)
    rows := fieldAt d 0x28 4, cols := fieldAt d 0x2C 4, sstride := wordOf ((d.drop 0x30).take 8)
    dstride := wordOf ((d.drop 0x38).take 8), mask := fieldAt d 0x28 12 }
/-- Fields in range and zero fields (09, R250, check 1). -/
def copyFieldsOk (k : CopyKind) (d : List Byte) (x : CopyDesc) : Bool :=
  x.len ≤ 2 ^ 24 && x.dcd ≤ 4 && x.flags < 8 && x.flags % 4 ≠ 3 && zeroAt d 0x16 2 && !x.cval.getLsbD 63
    && !(x.dst ≠ 0 && x.dcd ≠ 0)
    && match k with
      | .cp => zeroAt d 0x28 24
      | .cpm => zeroAt d 0x34 12 && x.mask ≠ 0
      | .cpc => x.rows % 16 = 0 && x.cols % 16 = 0 && x.rows * x.cols = x.len && zeroAt d 0x38 8
      | .cpw => 1 ≤ x.rows && x.rows ≤ 65536 && zeroAt d 0x2C 4

/-- The window of an address; none for a translated one. -/
def localWin (va : Word) : Option Nat := match regionOf va with | .loc w _ _ => some w | _ => none
def copyWin (va : Word) : Nat := (localWin va).getD 0
/-- LEN divides as a conduit and plane tiles need, and the conduit takes a copy engine's entries (09, R253; 12, R314). -/
def copyLengthOk (c : Core) (k : CopyKind) (x : CopyDesc) : Bool :=
  (match cdOf x.dcd with
    | none => true
    | some i => c.conduits[i].count ≠ 0 && c.conduits[i].prod && x.len % c.conduits[i].esize = 0)
  && (match c.csr.planeCodes with
    | some f => !(copyWin x.dst = 6 && copyWin x.src = 0 && (k = .cp || k = .cpm) && f.valid) || x.len % (2 * f.width) = 0
    | none => true)

/-! ### Completion word (09, R250, checks 2 to 5) -/

def checkCaddr (s : State) (va wa : Word) : Except Exc (Option Place) :=
  if va = 0 then .ok none
  else match regionOf va with
    | .loc win slot off =>
      if va.toNat % 8 ≠ 0 then .error (.trap 0x03 wa)
      else match slotCore s.cur slot with
        | some c =>
          if win ≠ 0 then .error (.trap 0x04 wa)
          else if sharesOwn (s.core c) off 8 then .ok (some (.spad c off)) else .error (.trap 0x05 wa)
        | none => .error (.trap 0x04 wa)
    | _ => .error (.trap 0x04 wa)

/-! ### Source and destination (09, Table 9.11, R250, checks 6 and 7) -/

/-- The row of Table 9.11 exists. -/
def copyPairOk (k : CopyKind) (x : CopyDesc) : Bool :=
  let sw := copyWin x.src
  let dw := copyWin x.dst
  sw ≤ 5 && dw ≠ 7 && (k = .cpc || !(1 ≤ dw && dw ≤ 5)) && !(1 ≤ sw && dw = 6 && (k = .cp || k = .cpm))
    && !(k = .cpw && (sw ≠ 0 || dw ≠ 0)) && !(k = .cpc && x.dcd ≠ 0) && !(k = .cpm && (localWin x.dst).isNone)

/-- Bytes of the local region that a command touches: the core and the range. -/
abbrev LocalRange := Option Nat × Nat × Nat
/-- A raw range of the local region: none for a translated address, an error for one that names nothing. -/
def rawRange (s : State) (va : Word) (n : Nat) : Option (Option LocalRange) :=
  match regionOf va with
  | .loc _ slot off =>
    if slot = 127 then if off + n ≤ 0x10000 then some (some (none, off, n)) else none
    else match slotCore s.cur slot with
      | some c => if off + n ≤ 0x40000 then some (some (some c, off, n)) else none
      | none => none
  | _ => some none
/-- The first element of a window at an address, with its core, or the cause of a window fault (04, R93; 12, R313). -/
def windowAt (s : State) (va : Word) : Except (BitVec 6) (Nat × Win × Codes × Nat) :=
  match regionOf va with
  | .loc win slot off =>
    let codes := if win = 6 then s.csr.planeCodes else s.csr.winCodes win
    match slotCore s.cur slot, codes with
    | some c, some k =>
      let x := s.csr.window win
      let unit := if win = 6 then 2 * k.width * 8 else k.width
      let gap := (off - x.ebase) * 8
      if k.valid && x.scl ≠ 3 && x.ebase ≤ off then
        if gap % unit = 0 then .ok (c, x, k, gap / unit) else .error (if win = 6 then 0x03 else 0x04)
      else .error 0x04
    | _, _ => .error 0x04
  | _ => .error 0x04
/-- Where a command reads: its source, and the local ranges of it. -/
def copySource (s : State) (k : CopyKind) (x : CopyDesc) : Except (BitVec 6) (CopySource × List LocalRange) :=
  let rows := match k with | .cpw | .cpc => x.rows | _ => 1
  let cols := match k with | .cpc => x.cols | _ => x.len
  if 1 ≤ copyWin x.src then
    do
      let (c, w, f, e) ← windowAt s x.src
      let pitch := if k = .cpc then w.rowLen else cols
      let rs := (List.range rows).flatMap fun r =>
        let first := e + r * pitch
        let pos := w.ebase * 8 + first * f.width
        let blocks := (List.range cols).map fun i => w.sbase + w.block (first + i)
        (some c, pos / 8, (pos % 8 + cols * f.width + 7) / 8) ::
          (if w.scl = 0 then [] else blocks.eraseDups.map fun b => (some c, b, 1))
      let rs : List LocalRange := if x.len = 0 then [] else rs
      if rs.all fun r => r.2.1 + r.2.2 ≤ 0x40000 then
        .ok (.window x.src c w f s.csr.table e cols pitch, rs)
      else .error 0x04
  else
    let n := if k = .cpc then cols * 4 else cols
    let stride := match k with | .cpw | .cpc => x.sstride | _ => 0
    let rs := (List.range rows).map fun r => rawRange s (x.src + BitVec.ofNat 64 r * stride) n
    if rs.all fun r => r.isSome then
      .ok (if k = .cpc then .floats x.src cols stride else .raw x.src cols stride, rs.filterMap fun r => r.join)
    else .error 0x04

/-! ### Pieces -/

/-- The places of a run: one for each target of a `cpm`, one for a local address, none yet for a translated one. -/
def runPlaces (s : State) (targets : List Nat) (va : Word) : List Place :=
  match regionOf va with
  | .loc _ slot off =>
    if targets.isEmpty then
      if slot = 127 then [.kettle s.myQuire off]
      else match slotCore s.cur slot with | some c => [.spad c off] | none => []
    else targets.map fun c => .spad c off
  | _ => []
/-- `n` bytes, `k` bytes after an address: behind the end of its memory a local address has no place (12, R333). -/
def runAt (s : State) (targets : List Nat) (va : Word) (k n : Nat) : CopyRun :=
  let a := va + BitVec.ofNat 64 k
  match regionOf va with
  | .loc _ slot off => ⟨a, n, if off + k + n ≤ (if slot = 127 then 0x10000 else 0x40000) then runPlaces s targets a else []⟩
  | _ => ⟨a, n, []⟩
/-- The address of a byte offset behind the same window and slot. -/
def sameWindow (va : Word) (off : Nat) : Word := (va &&& ~~~(0x3FFFF#64)) ||| BitVec.ofNat 64 off
/-- Consecutive pieces that begin in one line are one piece. -/
def joinPieces : List Piece → List Piece
  | a :: b :: r =>
    match a.runs.head?, b.runs.head? with
    | some x, some y =>
      if x.va.toNat / 64 = y.va.toNat / 64 then
        match joinPieces (b :: r) with
        | c :: l => { a with units := a.units ++ c.units, runs := a.runs ++ c.runs } :: l
        | [] => [a]
      else a :: joinPieces (b :: r)
    | _, _ => a :: joinPieces (b :: r)
  | l => l
/-- `n` payload bytes from payload byte `first` on, at consecutive addresses, cut at lines. -/
def bytePieces (s : State) (targets : List Nat) (first : Nat) (va : Word) (n : Nat) : List Piece :=
  let head := 64 - va.toNat % 64
  (List.range (if n = 0 then 0 else (va.toNat % 64 + n + 63) / 64)).map fun i =>
    let at' := if i = 0 then 0 else head + 64 * (i - 1)
    ⟨[first + at'], [runAt s targets va at' (Nat.min (if i = 0 then head else 64) (n - at'))], none⟩
/-- Plane tiles of `w`-bit codes, `n` bytes in all. -/
def tilePieces (s : State) (targets : List Nat) (va : Word) (w n : Nat) : List Piece :=
  joinPieces ((List.range (n / (2 * w))).map fun i =>
    ⟨[2 * w * i], [runAt s targets va (2 * w * i) (2 * w)], none⟩)
/-- Requantised blocks of `cpc`: their code runs and their scale bytes. -/
def quantPieces (s : State) (x : CopyDesc) (w : Win) (f : Codes) (e : Nat) (planes : Bool) : List Piece :=
  let run (off n : Nat) : CopyRun := runAt s [] (sameWindow x.dst 0) off n
  let n := 2 * f.width
  let sc (b k : Nat) : List CopyRun := if w.scl = 0 then [] else [run (w.sbase + b) k]
  if planes then
    joinPieces ((List.range (x.len / 16)).map fun i => ⟨[16 * i], run (w.ebase + n * (e + i)) n :: sc (e + i) 1, none⟩)
  else
    let code (r c : Nat) : CopyRun := run (w.ebase + (e + r * w.rowLen + c) * f.width / 8) n
    if w.orient then
      (List.range (x.rows / 16)).flatMap fun r => (List.range (x.cols / 16)).map fun c =>
        ⟨[16 * r * x.cols + 16 * c], ((List.range 16).map fun i => code (16 * r + i) (16 * c))
          ++ sc (w.block (e + 16 * r * w.rowLen + 16 * c)) 16, none⟩
    else joinPieces ((List.range x.rows).flatMap fun r => (List.range (x.cols / 16)).map fun c =>
        ⟨[r * x.cols + 16 * c], code r (16 * c) :: sc (w.block (e + r * w.rowLen + 16 * c)) 1, none⟩)

/-- The destination line in which a piece begins. -/
def Piece.line (p : Piece) : Nat := (p.runs.headD ⟨0, 0, []⟩).va.toNat / 64
def insertPiece (p : Piece) : List Piece → List Piece
  | [] => [p]
  | x :: r => if p.line < x.line then p :: x :: r else x :: insertPiece p r
/-- Pieces in increasing order of their lines; those of one line stay in their order (09, R250). -/
def inLineOrder (ps : List Piece) : List Piece := ps.foldl (fun l p => insertPiece p l) []
/-- How the payload is formed, and its pieces; none for a window fault (09, Table 9.11). -/
def copyPieces (s : State) (k : CopyKind) (x : CopyDesc) (targets : List Nat) : Except (BitVec 6) (CopyForm × List Piece) :=
  let dw := copyWin x.dst
  let decoded := 1 ≤ copyWin x.src
  let mode : Rounding := match x.flags % 4 with | 0 => .nearest | 1 => .zero | _ => .stochastic
  if x.dcd ≠ 0 then
    let n := (if k = .cpw then x.rows else 1) * (if decoded then 4 * x.len else x.len)
    .ok (if decoded then .fp32 else .bytes, (List.range (n / 64)).map fun i => ⟨[64 * i], [⟨0, 64, []⟩], none⟩)
  else if dw = 0 then
    match k with
    | .cpw => .ok (.bytes, (List.range x.rows).flatMap fun r =>
        bytePieces s targets (r * x.len) (x.dst + BitVec.ofNat 64 r * x.dstride) x.len)
    | .cpc => .ok (.fp32, bytePieces s targets 0 x.dst (4 * x.len))
    | _ => if decoded then .ok (.fp32, bytePieces s targets 0 x.dst (4 * x.len))
        else .ok (.bytes, bytePieces s targets 0 x.dst x.len)
  else
    do
      let (_, w, f, e) ← windowAt s x.dst
      if k = .cpc then
        let down := dw ≠ 6 && w.orient
        -- the first element of the destination begins a block; one that does not is trap 0x04 (log 95)
        let aligned := w.scl = 0 || dw = 6 || (if down then e / w.rowLen % 16 = 0 else e % 16 = 0)
        if aligned then
          .ok (.quant f s.csr.table w.scl mode s.csr.tableOrder x.cols down (dw = 6), quantPieces s x w f e (dw = 6))
        else .error 0x04
      else .ok (.tiles f.width, tilePieces s targets x.dst f.width x.len)
/-- The local range of a run: none for a local address where the run does not stand whole in a memory. -/
def runRange (r : CopyRun) : Option (List LocalRange) :=
  match regionOf r.va with
  | .loc _ _ _ =>
    if r.dst.isEmpty then none
    else some (r.dst.filterMap fun p => match p with | .spad c o => some (some c, o, r.bytes) | _ => none)
  | _ => some []
/-- Lines of the destination span, from its first to its last byte, that no piece writes (14, R368). -/
def spanGaps (x : CopyDesc) (ps : List Piece) : List Word :=
  let runs := ps.flatMap Piece.runs
  let offs : List (Int × Int) := runs.map fun r => let a := (r.va - x.dst).toInt; (a, a + r.bytes)
  let lo := offs.foldl (fun a b => if b.1 < a then b.1 else a) 0
  let hi := offs.foldl (fun a b => if a < b.2 then b.2 else a) 0
  let first := x.dst + BitVec.ofInt 64 lo
  let lines := (List.range (if runs.isEmpty then 0 else (first.toNat % 64 + (hi - lo).toNat + 63) / 64)).map fun i =>
    BitVec.ofNat 64 (first.toNat / 64 * 64 + 64 * i)
  lines.filter fun (l : Word) => !(runs.any fun r => r.va.toNat / 64 = l.toNat / 64)

/-- A command made from its descriptor, with the place of its completion word, or the trap of R250. -/
def planCopy (s : State) (k : CopyKind) (wa : Word) (d : List Byte) : Except Exc (CopyCmd × Option Place) :=
  let x := copyDesc d
  let targets := if k = .cpm then (List.range 96).filterMap fun i =>
    if x.mask / 2 ^ i % 2 = 1 then some (s.myQuire * 96 + i) else none else []
  if !copyFieldsOk k d x || !copyLengthOk s.me k x then .error (.trap 0x01 wa)
  else match checkCaddr s x.caddr wa with
    | .error e => .error e
    | .ok word =>
      let planned : Except (BitVec 6) ((CopySource × List LocalRange) × CopyForm × List Piece) := do
        if !copyPairOk k x then .error 0x04
        let a ← copySource s k x
        let b ← copyPieces s k x targets
        if (b.2.flatMap fun p => p.runs).all fun r => (runRange r).isSome then .ok (a, b) else .error 0x04
      match planned with
      | .error cause => .error (.trap cause wa)
      | .ok ((src, rs), (form, ps)) =>
        let all := rs ++ ps.flatMap fun p => p.runs.flatMap fun r => (runRange r).getD []
        if all.any fun r => match r.1 with | some c => r.2.2 ≠ 0 && !sharesOwn (s.core c) r.2.1 r.2.2 | none => false then
          .error (.trap 0x05 wa)
        else
          let slot0 (va : Word) : Bool := match regionOf va with | .loc _ slot _ => slot = 0 | _ => false
          let merges := k = .cp && x.dcd = 0 && x.flags / 4 = 0 && slot0 x.dst && !slot0 x.src
          .ok ({ seq := 0, time := 0, core := s.cur, source := src, form := form, mode := s.mode, active := false
                 pieces := inLineOrder ps, gapVas := if x.dcd = 0 then spanGaps x ps else [], gaps := [], devs := [], homes := [], cache := []
                 conduit := (cdOf x.dcd).map fun i => (i, s.me.conduits[i].esize, 0)
                 key := if merges then some (d.take 0x16) else none, held := false, cores := [s.cur]
                 remote := none, reading := none, wants := [], err := none, done := false }, word)

/-! ### The instructions (09, R248, R256) -/

/-- Commands of a core in flight: those whose completion is still to come. -/
def State.inFlight (s : State) (core : Nat) : Nat :=
  ((s.quire (quireOf core)).comps.filter fun c => c.core = core).length
/-- The device of an address, where it is another one's. -/
def remoteOf (va : Word) (kind : Access) : M (Option Nat) := do
  let s ← get
  match localWin va, (do let r ← liftE (checkRegion (← get) va va); checkPart r va 1 kind : M Place) s with
  | some _, _ => return none
  | none, .ok (.remote d _, t) => do
    set t
    return some d
  | none, .error (.exc (.wait on)) => waitOn on
  | none, .error (.badWalk _) => do
    set s.countMalformed
    return none
  | none, _ => return none
/-- One address of each page that a command touches. -/
def pagesOf (vas : List Word) : List Word := (vas.map fun a => a &&& ~~~(0xFFF#64)).eraseDups
def CopySource.addresses : CopySource → Nat → List Word
  | .raw va row stride, rows =>
    (List.range rows).flatMap fun r => (List.range ((row + 4095) / 4096 + 1)).map fun i =>
      va + BitVec.ofNat 64 r * stride + BitVec.ofNat 64 (Nat.min (4096 * i) (row - 1))
  | .floats va cols stride, rows =>
    (List.range rows).flatMap fun r => (List.range ((4 * cols + 4095) / 4096 + 1)).map fun i =>
      va + BitVec.ofNat 64 r * stride + BitVec.ofNat 64 (Nat.min (4096 * i) (4 * cols - 1))
  | .window _ _ _ _ _ _ _ _, _ => []
/-- Each remote device that a command touches enters the peer table (07, R174); one in the lost set is trap 0x0D at once
(15, R403). -/
def enterDevices (kind : Access) : List Word → M (List Nat)
  | [] => return []
  | va :: r => do
    match ← remoteOf va kind with
    | some d => do
      if (← get).lost.contains d then trap 0x0D va
      enterPeer va d
      return d :: (← enterDevices kind r)
    | none => enterDevices kind r
/-- `cp`, `cpm`, `cpc` and `cpw`: the command leaves once, and the form retires when the engine has accepted it. -/
def copyIssue (k : CopyKind) (a : Reg) : M Unit := do
  controlOnly
  barPhase
  let wa ← readW a
  let s ← get
  if s.me.copyOk then modify fun s => s.onMe fun c => { c with copyOk := false }
  else if s.me.copyReq.isSome then holdHere
  else
    let off ← localOperand wa 64 64
    if 16 ≤ s.inFlight s.cur then holdHere
    let d ← readOwn off 64
    let s ← get
    let (cmd, word) ← liftE (planCopy s k wa d)
    release .quire
    let x := copyDesc d
    let rows := match k with | .cpw | .cpc => x.rows | _ => 1
    let from' ← if x.len = 0 then pure [] else enterDevices .load (pagesOf (cmd.source.addresses rows))
    let into ← enterDevices .store (pagesOf (cmd.pieces.flatMap fun p => p.runs.map fun r => r.va))
    modify fun s => s.onMe fun c =>
      { c with copyReq := some ({ cmd with devs := (from' ++ into).eraseDups }, ⟨s.cur, 0, word, x.cval⟩) }
    holdHere
/-- `CP` (R248). Send a copy command to the quire's copy engine. -/
def execCp (a : Reg) (s : State) := M.run (copyIssue .cp a) s
/-- `CPM` (R254). Send a multicast copy command. -/
def execCpm (a : Reg) (s : State) := M.run (copyIssue .cpm a) s
/-- `CPC` (R249). Send a requantising copy command. -/
def execCpc (a : Reg) (s : State) := M.run (copyIssue .cpc a) s
/-- `CPW` (R248). Send a strided copy command. -/
def execCpw (a : Reg) (s : State) := M.run (copyIssue .cpw a) s
/-- `CPFENCE` (R256). Wait for earlier copy commands to complete, then acquire .quire. -/
def execCpfence (s : State) := M.run (do
  controlOnly
  barPhase
  let s ← get
  if 0 < s.inFlight s.cur then holdHere
  acquire .quire) s

end Sys2Proof.Machine
end

