-- ==== Sys2Proof/Machine/Engine.lean ====
section
/-! DEFINITION. The copy engine: acceptance, the combining node, moving lines and completion words
(04, R96; 09, R249 to R255; 12, R313, R314; 14, R366 to R371). -/

namespace Sys2Proof.Machine

/-! ### Places -/

/-- Checks 1 to 9 of Table 5.7 for bytes that the engine accesses for a core, in the mode of the issuing context, and the
state after them. -/
def State.placeFor (s : State) (core mode : Nat) (va : Word) (n : Nat) (kind : Access) : Except Exc Place × State :=
  let old := (s.core core).csr.status
  let t := s.onCore core fun c => { c with csr := { c.csr with status := statusWith old (BitVec.ofNat 2 mode) 0 false } }
  match (do let r ← liftE (checkRegion (← get) va va); checkPart r va n kind : M Place) { t with cur := core, ctx := 0 } with
  | .ok (p, u) =>
    let v : State := { u with cur := s.cur, ctx := s.ctx }
    (.ok p, v.onCore core fun c => { c with csr := { c.csr with status := old } })
  | .error (.exc e) => (.error e, s)
  | .error (.badWalk e) => (.error e, s.countMalformed)
  | .error (.done _) => (.error (.wait []), s)
/-- Cause and address of a failed check. -/
def failOf (va : Word) : Exc → BitVec 6 × Word
  | .trap c v => (c, v) | .upcall k v => (k, v) | .wait _ => (0, va)
/-- A destination page as the engine translated it at acceptance: its lowest address that the command names, and the place
of that in the page's binding, or the check that failed there. -/
abbrev PageAt := Word × Except (BitVec 6 × Word) Place
/-- The first address that a command names in each page, in increasing order. -/
def firstInPages (vas : List Word) : List Word :=
  let page (a : Word) : Nat := a.toNat / 4096
  let least (l : List Word) (a : Word) : Word := l.foldl (fun x b => if page b = page a && b.ult x then b else x) a
  (vas.foldl (fun m a => mapPut m (page a) (least vas a)) []).map fun x => x.2
/-- Each destination page makes checks 1 to 9 as a store, in increasing address order (09, R250); the lines that a walk has to
wait for, where one has to. -/
def State.placePages (s : State) (core mode : Nat) : List Word → Except (List Place) (List PageAt × State)
  | [] => .ok ([], s)
  | va :: r => do
    let (x, t) := s.placeFor core mode va 1 .store
    let y : Except (BitVec 6 × Word) Place ← match x with
      | .ok p => .ok (.ok p)
      | .error (.wait on) => .error on
      | .error e => .ok (.error (failOf va e))
    let (l, u) ← t.placePages core mode r
    .ok ((va, y) :: l, u)
/-- The place of a destination address by its page, at the home of its own line. -/
def State.placeIn (s : State) (pages : List PageAt) (va : Word) : Except (BitVec 6 × Word) Place :=
  match pages.find? fun (x : PageAt) => x.1.toNat / 4096 = va.toNat / 4096 with
  | some (a, .ok p) => .ok (s.atHome (p.add (va.toNat - a.toNat)))
  | some (_, .error e) => .error e
  | none => .error (0, va)
/-- A run that has no place yet. -/
def CopyRun.open' (r : CopyRun) : Bool := r.dst.isEmpty
/-- The pieces of a command with their places, up to the first whose destination translation has failed: the failure point
(09, R250). -/
def State.placePieces (s : State) (pages : List PageAt) : List Piece → List Piece
  | [] => []
  | p :: r =>
    let bad := p.runs.findSome? fun x =>
      if x.open' then (match s.placeIn pages x.va with | .error e => some e | .ok _ => none) else none
    match bad with
    | some e => [{ p with fault := some e }]
    | none =>
      { p with runs := p.runs.map fun x => if x.open' then { x with dst := ((s.placeIn pages x.va).toOption).toList } else x }
        :: s.placePieces pages r
/-- The places of gap lines before the failure point (14, R368). -/
def State.placeGaps (s : State) (core : Nat) (pages : List PageAt) (ps : List Piece) (vas : List Word) : List Place :=
  let stop := (ps.find? fun p => p.fault.isSome).map Piece.line
  (vas.filter fun va => match stop with | some l => va.toNat / 64 < l | none => true).flatMap fun va =>
    match regionOf va with
    | .loc _ slot off =>
      if slot = 127 then [.kettle (quireOf core) off] else ((slotCore core slot).map fun c => Place.spad c off).toList
    | _ => ((s.placeIn pages va).toOption.map lineOf).toList
/-- The home of a line: a home slice, or the quire agent of the core addressed (14, R368). -/
def State.homeOf (s : State) (p : Place) : List (Bool × Nat) :=
  match p with
  | .spad c _ => [(false, c)]
  | .kettle q _ => [(false, 20000 + q)]
  | .hbm _ _ => [(true, (s.bankOf p).2.1)]
  | .remote _ _ => []
/-- Owned ranges registered at a home. -/
def State.homeRanges (s : State) (h : Bool × Nat) : Nat :=
  (s.quires.flatMap fun q => (q.2.cmds.filter fun c => !c.done || !c.gaps.isEmpty).flatMap fun c => c.homes).count h
/-- What waits at the banks of some lines may act at all of their granules (07, R177). -/
def State.mayAct (s : State) (w : Waiter) (ls : List Place) : Bool :=
  ls.all fun l => (granulesOf l 64).all fun g => (s.granule g).turnOf w
/-- It already stands in the queues. -/
def State.standsIn (s : State) (w : Waiter) : Bool := s.granules.any fun g => g.queue.contains w
/-- Registering a range recalls every copy of its lines (14, R371). -/
def State.recallLines (s : State) (ls : List Place) : State :=
  ls.foldl (fun t l => match l with | .hbm pa h => t.recallCopies h none pa 64 | _ => t) s
def CopyCmd.lines (c : CopyCmd) : List Place := (c.gaps ++ c.pieces.flatMap Piece.lines).eraseDups

/-! ### Active places (14, R366) -/

/-- The command is the next of each of its cores that has not started, in issue order. -/
def Quire.firstOfCores (x : Quire) (c : CopyCmd) : Bool :=
  let waits (seq : Nat) : Bool := x.cmds.any fun d => d.seq = seq && !d.active
  c.cores.all fun k => ((x.comps.find? fun y => y.core = k && waits y.seq).map Completion.seq) = some c.seq
/-- The command that takes the next free place, round-robin by core. Groups that stand before each other in the orders of
two cores start with the oldest of them, in one step with the others. -/
def Quire.nextStart (x : Quire) : Option CopyCmd :=
  let open' := x.cmds.filter fun c => !c.active
  let first := open'.filter fun c => !c.held && x.firstOfCores c
  let ready := if first.isEmpty && !(open'.any fun c => c.held) then open'.take 1 else first
  let after (c : CopyCmd) : Nat := (c.core + 18432 - x.lastStart - 1) % 18432
  ready.foldl (fun b c => match b with | some d => if after c < after d then some c else some d | none => some c) none
def Quire.onCmd (x : Quire) (seq : Nat) (f : CopyCmd → CopyCmd) : Quire :=
  { x with cmds := x.cmds.map fun c => if c.seq = seq then f c else c }
def Quire.startAll (x : Quire) : Nat → Quire
  | 0 => x
  | n + 1 =>
    if 32 ≤ (x.cmds.filter fun c => c.active && !c.done).length then x
    else match x.nextStart with
      | some c => { x.onCmd c.seq fun d => { d with active := true, done := d.pieces.isEmpty } with lastStart := c.core }.startAll n
      | none => x
def State.startCommands (s : State) (q : Nat) : State := s.onQuire q fun x => x.startAll 64

/-! ### Acceptance and the combining node (09, R255; 14, R366) -/

/-- The command joins the group: its payload goes to its core too. -/
def CopyCmd.merge (a b : CopyCmd) : CopyCmd :=
  let run (x y : CopyRun) : CopyRun := { x with dst := x.dst ++ y.dst }
  let piece (p r : Piece) : Piece := { p with runs := List.zipWith run p.runs r.runs }
  { a with pieces := List.zipWith piece a.pieces b.pieces, cores := a.cores ++ b.cores, homes := a.homes ++ b.homes
           devs := (a.devs ++ b.devs).eraseDups }
/-- The open group of the combining node that a command joins. -/
def Quire.group (x : Quire) (c : CopyCmd) : Option CopyCmd :=
  x.cmds.find? fun g => g.held && c.key.isSome && g.key = c.key && g.source = c.source && g.form = c.form
    && g.mode = c.mode && !(c.cores.any fun k => g.cores.contains k)
/-- The command of a core with its places, and the state after their translation (09, R250); the lines that a walk waits for,
where it has to wait. -/
def State.placed (s : State) (core : Nat) (cmd : CopyCmd) : Except (List Place) (CopyCmd × State) :=
  if cmd.conduit.isSome then .ok (cmd, s)
  else do
    let vas := cmd.pieces.flatMap fun p => (p.runs.filter CopyRun.open').map CopyRun.va
    let gaps := cmd.gapVas.filter fun va => (localWin va).isNone
    let (pages, t) ← s.placePages core cmd.mode (firstInPages (vas ++ gaps))
    let ps := t.placePieces pages cmd.pieces
    let own := t.placeGaps core pages ps cmd.gapVas
    .ok ({ cmd with pieces := ps, gaps := own.filter fun g => !(ps.any fun p => p.lines.contains g) }, t)
/-- The control context of a core waits for lines in what the part does for it. -/
def State.wantFor (s : State) (core : Nat) (on : List Place) : Option State :=
  if (s.core core).ctxs[0].wants = on then none
  else some (s.onCore core fun c => { c with ctxs := c.ctxs.set 0 { c.ctxs[0] with wants := on } })
/-- The engine accepts the command of a core; while a granule of one of its lines is granted the registration stands in the
bank's queues (14, R371); none while a home's table is full. -/
def State.accept (s : State) (core : Nat) : Option State :=
  match (s.core core).copyReq with
  | none => none
  | some (cmd, comp) =>
    match s.placed core cmd with
    | .error on => s.wantFor core on
    | .ok (cmd, t) =>
    let q := quireOf core
    let homes := (cmd.lines.flatMap t.homeOf).eraseDups
    let stuck := (cmd.lines.flatMap fun l => granulesOf l 64).filter fun g => !(t.granule g).turnOf (.copy core)
    if !stuck.isEmpty then if s.mayJoin (.copy core) stuck then s.joinAll (.copy core) stuck else none
    else if homes.any fun h => 64 ≤ t.homeRanges h then none
    else
      let t := (t.leaves (.copy core)).recallLines cmd.lines
      let x := t.quire q
      let n := x.accepted + 1
      let cmd := { cmd with homes := homes, seq := n, time := t.gtime, held := cmd.key.isSome }
      let (cmds, seq) := match x.group cmd with
        | some g => (x.cmds.map fun c => if c.seq = g.seq then c.merge cmd else c, g.seq)
        | none => (x.cmds ++ [cmd], n)
      let t := t.setQuire q { x with cmds := cmds, accepted := n, comps := x.comps ++ [{ comp with seq := seq }] }
      some ((t.onCore core fun c => { c with copyReq := none, copyOk := true }).startCommands q)
/-- `COPY_COMMAND_ACCEPT`: the command that core `turn.core` waits with. -/
def execCopyCommandAccept (s : State) : Host.Outcome State Fault Refusal := .next ((s.accept s.turn.core).getD s)
/-- `COMBINE_HOLD_EXPIRY`: the group `turn.index` of quire `turn.unit` leaves the combining node. -/
def execCombineHoldExpiry (s : State) : Host.Outcome State Fault Refusal :=
  .next ((s.onQuire s.turn.unit fun x => x.onCmd s.turn.index fun c => { c with held := false }).startCommands s.turn.unit)

/-! ### Elements of a source (09, R249) -/

def lineVa (va : Word) : Word := va &&& ~~~(0x3F#64)
/-- Byte `k` of a raw payload. -/
def CopySource.byteVa (x : CopySource) (k : Nat) : Word :=
  match x with
  | .raw va row stride => va + BitVec.ofNat 64 (k / Nat.max 1 row) * stride + BitVec.ofNat 64 (k % Nat.max 1 row)
  | .floats va _ _ => va
  | .window va _ _ _ _ _ _ _ => va
/-- Element `i` of a window source: its element number. -/
def windowElem (elem cols pitch i : Nat) : Nat := elem + i / Nat.max 1 cols * pitch + i % Nat.max 1 cols
/-- Addresses of the bytes of element `i`. -/
def CopySource.elemVas (x : CopySource) (i : Nat) : List Word :=
  match x with
  | .raw _ _ _ => [x.byteVa i]
  | .floats va cols stride =>
    let a := va + BitVec.ofNat 64 (i / Nat.max 1 cols) * stride + BitVec.ofNat 64 (4 * (i % Nat.max 1 cols))
    (List.range 4).map fun j => a + BitVec.ofNat 64 j
  | .window va _ w f _ elem cols pitch =>
    let e := windowElem elem cols pitch i
    let pos := w.ebase * 8 + e * f.width
    ((List.range ((pos % 8 + f.width + 7) / 8)).map fun j => sameWindow va (pos / 8 + j))
      ++ (if w.scl = 0 then [] else [sameWindow va (w.sbase + w.block e)])
def cacheByte (c : List (Word × List Byte)) (va : Word) : Byte :=
  match c.find? fun x => x.1 = lineVa va with | some x => x.2.getD (va.toNat % 64) 0 | none => 0
/-- The value and the scale of element `i`. -/
def CopySource.elem (x : CopySource) (c : List (Word × List Byte)) (i : Nat) : Val × Val :=
  match x with
  | .raw _ _ _ => (.zero, .zero)
  | .floats _ _ _ => (fp32.decode (ofBytes ((x.elemVas i).map (cacheByte c))), Val.ofInt 1)
  | .window va _ w f table elem cols pitch =>
    let e := windowElem elem cols pitch i
    let pos := w.ebase * 8 + e * f.width
    let bs := (List.range ((pos % 8 + f.width + 7) / 8)).map fun j => cacheByte c (sameWindow va (pos / 8 + j))
    (f.decode table (bitsOf bs (pos % 8) f.width), scaleVal w.scl (cacheByte c (sameWindow va (w.sbase + w.block e))).toNat)

/-! ### Requantisation (04, R96) -/

/-- The magnitude of a finite value. -/
def magOf : Val → Mag | .fin _ m => m | _ => Mag.zero
/-- The largest of the finite magnitudes of some values. -/
def largest (xs : List Val) : Mag :=
  xs.foldl (fun a x => match x with | .fin _ m => if a.lt m then m else a | _ => a) Mag.zero
/-- The largest finite magnitude that the codes hold: for integers the largest positive code's, for the decode table that of
any entry (log 81). -/
def Codes.largest (k : Codes) (table : Vector W32 256) : Mag :=
  match k with
  | .fmt f => if f.int then magOf (Val.ofInt (2 ^ f.mw - 1)) else f.mag f.maxCode
  | .table => Machine.largest (table.toList.map entryVal)
/-- The scale code of a block and its value. -/
def blockScale (k : Codes) (table : Vector W32 256) (scl tick : Nat) (xs : List Val) : Nat × Val :=
  let amax := largest xs
  let max := k.largest table
  let bad := xs.any fun x => x.isNan || x.isInf
  if scl = 0 then (0, Val.ofInt 1)
  else if bad then (if scl = 1 then 0xFF else 0x7F, Val.ofInt 1)
  else if amax.num = 0 then (if scl = 1 then 0x7F else 0x38, Val.ofInt 1)
  else if max.num = 0 then let c := Config.openScale tick % 256; (c, scaleVal scl c)
  else if scl = 1 then
    let x := amax.log2 - max.log2
    let c := ((if x < -127 then -127 else if 127 < x then 127 else x) + 127).toNat
    (c, e8m0Val c)
  else
    let q := ((Val.fin false amax).div (.fin false max)).1
    let c := ((List.range 0x7F).find? fun c => !(e4m3.decode c).less q).getD 0x7E
    (c, e4m3.decode c)
/-- The E4M3 scale of a block saturates at 448 (04, R96). -/
def scaleOver (k : Codes) (table : Vector W32 256) (scl : Nat) (xs : List Val) : Bool :=
  let max := k.largest table
  scl = 2 && !(xs.any fun x => x.isNan || x.isInf) && max.num ≠ 0
    && (e4m3.decode 0x7E).less ((Val.fin false (largest xs)).div (.fin false max)).1
/-- The codes of a block under its scale. -/
def blockCodes (k : Codes) (table : Vector W32 256) (mode : Rounding) (ord : Nat) (scale : Val) (xs : List Val) : List Nat :=
  xs.map fun x => (k.encode table ord mode 0 ((x.div scale).1)).1
/-- Codes packed little-endian (04, R79), and placed in a plane tile (12, R313). -/
def packCodes (w : Nat) (cs : List Nat) : List Byte := toBytes (cs.length * w / 8) (lanesNat w cs)
def tileOf (w : Nat) (cs : List Nat) : List Byte :=
  (List.range w).flatMap fun j => toBytes 2 ((cs.zipIdx.map fun (c, i) => c / 2 ^ (w - 1 - j) % 2 * 2 ^ i).foldl (· + ·) 0)

/-! ### The payload of a piece -/

/-- The blocks of elements of a requantised unit. -/
def unitBlocks (cols : Nat) (down : Bool) (u : Nat) : List (List Nat) :=
  if down then (List.range 16).map fun j => (List.range 16).map fun i => u + i * cols + j
  else [(List.range 16).map fun i => u + i]
/-- Payload bytes of a piece, where they run on. -/
def Piece.span (p : Piece) : Nat × Nat := (p.units.headD 0, (p.runs.map CopyRun.bytes).foldl (· + ·) 0)
/-- Addresses of the source lines that a piece needs. -/
def CopyCmd.needs (c : CopyCmd) (p : Piece) : List Word :=
  let (k, n) := p.span
  let vas := match c.form with
    | .bytes | .tiles _ => (List.range n).map fun i => c.source.byteVa (k + i)
    | .fp32 => ((List.range ((k % 4 + n + 3) / 4)).map fun i => k / 4 + i).flatMap c.source.elemVas
    | .quant _ _ _ _ _ cols down _ => p.units.flatMap fun u => (unitBlocks cols down u).flatten.flatMap c.source.elemVas
  (vas.map lineVa).eraseDups
/-- The exact values of a block of elements. -/
def CopyCmd.values (c : CopyCmd) (b : List Nat) : List Val :=
  b.map fun e => let (v, sc) := c.source.elem c.cache e; (v.mul sc).1
/-- Flags that requantising a piece sets in the issuing core: OF alone, where a scale saturates (04, R96). -/
def CopyCmd.flags (c : CopyCmd) (p : Piece) : Flags :=
  match c.form with
  | .quant codes table scl _ _ cols down _ =>
    if p.units.any fun u => (unitBlocks cols down u).any fun b => scaleOver codes table scl (c.values b) then flagOF else 0
  | _ => 0
/-- The bytes of a piece's runs, from the source lines read. -/
def CopyCmd.payload (c : CopyCmd) (tick : Nat) (p : Piece) : List (List Byte) :=
  let (k, n) := p.span
  let byte (i : Nat) : Byte := cacheByte c.cache (c.source.byteVa i)
  match c.form with
  | .bytes => [(List.range n).map fun i => byte (k + i)]
  | .tiles w => p.units.map fun u =>
      tileOf w ((List.range 16).map fun i => bitsOf ((List.range (2 * w)).map fun j => byte (u + j)) (w * i) w)
  | .fp32 =>
    let all := ((List.range ((k % 4 + n + 3) / 4)).map fun i => k / 4 + i).flatMap fun e =>
      let (v, sc) := c.source.elem c.cache e
      toBytes 4 (scaledFp32 v sc).1
    [(all.drop (k % 4)).take n]
  | .quant codes table scl mode ord cols down planes =>
    p.units.flatMap fun u =>
      let blocks := (unitBlocks cols down u).map fun b =>
        let xs := c.values b
        let (code, scale) := blockScale codes table scl tick xs
        (blockCodes codes table mode ord scale xs, code)
      let w := codes.width
      let rows := if down then (List.range 16).map fun i => packCodes w (blocks.map fun b => b.1.getD i 0)
        else blocks.map fun b => if planes then tileOf w b.1 else packCodes w b.1
      rows ++ (if scl = 0 then [] else [blocks.map fun b => BitVec.ofNat 8 b.2])

/-! ### Moving (09, R250, R251; 14, R369, R370) -/

/-- Tickets in their order (14, R369). -/
def ticketBefore (qa : Nat) (a : CopyCmd) (qb : Nat) (b : CopyCmd) : Bool :=
  a.time.ult b.time || (a.time == b.time && (qa < qb || (qa = qb && a.seq < b.seq)))
/-- A command with an earlier ticket owns one of the lines. -/
def State.ownedBefore (s : State) (q : Nat) (c : CopyCmd) (ls : List Place) : Bool :=
  s.quires.any fun x => x.2.cmds.any fun b => ticketBefore x.1 b q c && ls.any b.owns
/-- The command ends with an error value: what it has not written is freed (14, R370). -/
def CopyCmd.stop (c : CopyCmd) (cause : BitVec 6) (va : Word) : CopyCmd :=
  { c with pieces := [], gaps := [], remote := none, reading := none, wants := [], done := true
           err := some (0x8000000000000000#64 ||| (cause.zeroExtend 64 <<< 48) ||| (va >>> 12)) }
/-- A check of a piece has failed: the command stops there once the lines before it are written (09, R250). -/
def CopyCmd.failAt (c : CopyCmd) (p : Piece) (cause : BitVec 6) (va : Word) : CopyCmd :=
  if c.pieces.head? = some p then c.stop cause va
  else
    { c with remote := none, reading := none, wants := []
             pieces := c.pieces.map fun x => if x = p then { x with fault := some (cause, va) } else x }
/-- A source line has failed a check: the first piece that needs it has. -/
def CopyCmd.failNeed (c : CopyCmd) (line : Word) (cause : BitVec 6) (va : Word) : CopyCmd :=
  match c.pieces.find? fun p => (c.needs p).contains line with
  | some p => c.failAt p cause va
  | none => c.stop cause va
/-- A step of the engine on a command: it cannot act now, or the command and the state after it. -/
abbrev Moved := Option (State × CopyCmd)
/-- The command waits for lines. -/
def State.await (s : State) (c : CopyCmd) (on : List Place) : Moved :=
  if c.wants = on then none else some (s, { c with wants := on })

/-- The place of a source line, and the state after its checks. Lines of a window source lie in its core's scratchpad. -/
def State.sourcePlace (s : State) (c : CopyCmd) (va : Word) : Except Exc Place × State :=
  match c.source with
  | .window _ core _ _ _ _ _ _ =>
    match regionOf va with | .loc _ _ off => (.ok (.spad core off), s) | _ => (.error (.trap 0x04 va), s)
  | _ => s.placeFor c.core c.mode va 64 .load
/-- A request to another device on the command's behalf goes out. -/
def askFor (s : State) (c : CopyCmd) (key dev pa : Nat) (op : RemoteOp) (fail : BitVec 6 → CopyCmd) : Moved :=
  if !s.fabricOn || s.lost.contains dev then some (s, fail 0x0D)
  else if s.freeBuffers = 0 then none
  else some (s.post dev 3 (RemoteOp.flits op), { c with remote := some ⟨dev, [(pa, op)], none, 0, key, false, s.tick, []⟩, wants := [] })
/-- Its answer: none while it is on its way. -/
def answerFor (s : State) (c : CopyCmd) (r : Remote) (fail : BitVec 6 → CopyCmd) (done : List Byte → State × CopyCmd) : Moved :=
  match r.answer with
  | some (.data bs) => some (done bs)
  | some .ack => some (done [])
  | some (.nak _) => some (s, fail 0x0C)
  | some .poison => some (s, fail 0x0E)
  | none =>
    if r.late then
      some (c.cores.foldl (fun t n => t.onCore n fun k => { k with unacked := k.unacked ++ [(r.dev, true, c.seq)] }) s, fail 0x0D)
    else none
/-- A source line has been read. -/
def CopyCmd.keep (c : CopyCmd) (va : Word) (bs : List Byte) : CopyCmd :=
  { c with cache := (va, bs) :: c.cache, remote := none, reading := none, wants := [] }
/-- One source line read, single-copy atomically; it stands in `cache` then. -/
def State.readSource (s : State) (q : Nat) (c : CopyCmd) (key : Nat) (va : Word) : Moved :=
  match s.sourcePlace c va with
  | (.error (.wait on), _) => s.await c on
  | (.error e, t) => let (k, a) := failOf va e; some (t, c.failNeed va k a)
  | (.ok (.remote dev pa), t) => askFor t { c with reading := some va } key dev pa (.read 64) fun k => c.failNeed va k va
  | (.ok p, t) =>
    if t.untrained p || t.filling p 64 || t.wayShut (.quire q) (t.attachment p) then s.await c []
    else if t.ownedBefore q c [lineOf (t.atHome p)] then s.await c [lineOf (t.atHome p)]
    else if t.anyBad p 64 then some (t.noteError p 64, c.failNeed va 0x0E va)
    else
      let (u, bs) := t.loadPlace q p 64 .dflt
      some (u, c.keep va bs)
/-- The first source line that a piece still needs. -/
def CopyCmd.missing (c : CopyCmd) (p : Piece) : Option Word :=
  (c.needs p).find? fun va => !(c.cache.any fun x => x.1 = va)
/-- A source line that the command has still to read where it is about to write, the first of some; it is read before
(14, R369). The lines that a walk waits for, where one waits. -/
def State.overlap (s : State) (c : CopyCmd) (dst : List Place) : List Word → Except (List Place) (Option Word)
  | [] => .ok none
  | va :: r =>
    if c.cache.any fun x => x.1 = va then s.overlap c dst r
    else match (s.sourcePlace c va).1 with
      | .ok p => if dst.contains (lineOf (s.atHome p)) then .ok (some va) else s.overlap c dst r
      | .error (.wait on) => .error on
      | .error _ => s.overlap c dst r
/-- Bytes that the engine writes at a place. -/
def State.engineWrite (s : State) (p : Place) (bs : List Byte) : State :=
  match p with
  | .spad c off =>
    let t := s.onCore c fun x =>
      { x with spad := Memory.write x.spad off bs, bad := x.bad.filter fun d => !wholeIn off (storeBytes bs) d }
    t.wakeWatches (fun g => match g with | .spad k o => k = c && overlaps o 16 off bs.length | _ => false) none
  | .kettle q off => s.onQuire q fun x => x.storeKettle off (storeBytes bs)
  | .hbm pa h => (s.recallCopies h none pa bs.length).homeStore h none pa (storeBytes bs) true
  | .remote _ _ => s
/-- A run covers only a part of an uncorrectable double of its place (05, R134). -/
def State.partBad (s : State) (p : Place) (n : Nat) : Bool :=
  (doublesOf p.offset n).any fun d => partOf p.offset n d && s.anyBad (p.add (d * 8 - p.offset)) 1
/-- A piece has been written: the entry of a destination conduit is pushed when its last byte is (09, R253). -/
def State.pieceDone (s : State) (c : CopyCmd) (p : Piece) : State × CopyCmd :=
  let n := p.span.2
  let left := c.pieces.erase p
  let d := { c with pieces := left, remote := none, wants := [], done := left.isEmpty }
  match c.conduit with
  | none => (s, d)
  | some (k, size, k0) =>
    let t := if (k0 + n) % Nat.max 1 size = 0 then s.onCore c.core fun x => x.onConduit k Conduit.push else s
    (t, { d with conduit := some (k, size, k0 + n) })
/-- A piece whose source lines have been read is written at its places. -/
def State.writePiece (s : State) (q : Nat) (c : CopyCmd) (p : Piece) : Moved :=
  let data := c.payload s.tick p
  match p.runs with
  | [⟨va, _, [.remote dev pa]⟩] =>
    let fail (k : BitVec 6) : CopyCmd := c.failAt p k va
    match c.remote with
    | some r => answerFor s c r fail fun _ => s.pieceDone c p
    | none => askFor s c (p.units.headD 0) dev pa (.write ((data.headD []).map fun b => (b, 0xFF))) fail
  | runs =>
    if s.ownedBefore q c p.lines then s.await c p.lines
    else if runs.any fun r => r.dst.any fun d => s.untrained d || s.filling d r.bytes || s.wayShut (.quire q) (s.attachment d) then
      s.await c []
    else match runs.find? fun r => r.dst.any fun d => s.partBad d r.bytes with
      | some r => some (r.dst.foldl (fun t d => t.noteError d r.bytes) s, c.failAt p 0x0E r.va)
      | none =>
        let u := (runs.zip data).foldl (fun t (r, bs) => r.dst.foldl (fun t d => t.engineWrite d bs) t) s
        let f := c.flags p
        let u := if f = 0 then u else u.onCore c.core fun x => { x with csr := { x.csr with aflags := x.csr.aflags ||| f.zeroExtend 64 } }
        some (u.pieceDone c p)
/-- The next entry of a destination conduit is free: the command's next pieces go there (09, R253). -/
def State.fillEntry (s : State) (q : Nat) (c : CopyCmd) (k : Cd) (size : Nat) : Moved :=
  let x := (s.core c.core).conduits[k]
  let earlier := (s.quire q).cmds.any fun d => d.core = c.core && d.seq < c.seq && !d.done &&
    (match d.conduit with | some y => y.1 = k | none => false)
  if earlier || x.free = 0 then none
  else
    let base := x.entry x.tail
    let place (i : Nat) (p : Piece) : Piece :=
      if 64 * i < size then { p with runs := [⟨localAddr (base + 64 * i), 64, [.spad c.core (base + 64 * i)]⟩] } else p
    some (s, { c with pieces := c.pieces.zipIdx.map fun (p, i) => place i p })
/-- An access waits on a line: an instruction of some context or what the part does for one, a store of a buffer, an operation
of a matrix unit, another command, or a request at its bank (14, R368). -/
def State.awaited (s : State) (l : Place) : Bool :=
  (s.cores.any fun c => (c.2.ctxs.toList.any fun k => (k.waiting || c.2.run = .seeking || c.2.run = .probing) && k.wants.contains l)
      || (match c.2.sb with | x :: _ => x.parts.any fun p => (linesOf (s.atHome p.place) p.bytes.length).contains l | [] => false)
      || c.2.mops.any fun op => op.todo.any fun o => Place.spad c.1 o = l)
    || (s.quires.any fun x => x.2.cmds.any fun c => c.wants.contains l)
    || s.granules.any fun g => !g.queue.isEmpty && lineOf g.place = l
/-- The piece that a command moves next: an owned line that has an access waiting on it comes first (14, R368), but none at or
beyond a failure point. -/
def State.nextPiece (s : State) (c : CopyCmd) : Option Piece :=
  if c.conduit.isSome then c.pieces.head?
  else match c.remote with
  | some r => c.pieces.find? fun p => p.units.headD 0 = r.key
  | none => match (c.pieces.takeWhile fun p => p.fault.isNone).find? fun p => p.lines.any s.awaited with
    | some p => some p
    | none => c.pieces.head?
/-- One move of a command (09, R250): source lines are read before the piece that needs them is written, and before another
piece is written over them. -/
def State.moveOne (s : State) (q : Nat) (c : CopyCmd) : Moved :=
  if !c.active || c.done then none
  else match s.nextPiece c with
    | none => some (s, { c with done := true })
    | some p =>
      match p.fault, c.conduit, p.runs, c.remote, c.reading with
      | some (k, va), _, _, _, _ => some (s, c.stop k va)
      | none, some (k, size, _), [⟨_, _, []⟩], _, _ => s.fillEntry q c k size
      | none, _, _, some r, some va => answerFor s c r (fun k => c.failNeed va k va) fun bs => (s, c.keep va bs)
      | none, _, _, some _, none => s.writePiece q c p
      | none, _, _, none, _ =>
        match c.missing p with
        | some va => s.readSource q c (p.units.headD 0) va
        | none => match s.overlap c p.lines ((c.pieces.erase p).flatMap c.needs) with
          | .error on => s.await c on
          | .ok (some va) => s.readSource q c (p.units.headD 0) va
          | .ok none => s.writePiece q c p
/-- The state after a move of command `seq` of a quire; none when it cannot act now. -/
def State.moveLine (s : State) (q seq : Nat) : Option State :=
  match (s.quire q).cmds.find? fun c => c.seq = seq with
  | none => none
  | some c =>
    (s.moveOne q c).map fun (t, d) =>
      let u := t.onQuire q fun x => x.onCmd seq fun _ => d
      if d.done then u.startCommands q else u
/-- `COPY_LINE_MOVE`: command `turn.index` of quire `turn.unit` reads or writes its next line. -/
def execCopyLineMove (s : State) : Host.Outcome State Fault Refusal :=
  .next ((s.moveLine s.turn.unit s.turn.index).getD s)

/-! ### Completion words (09, R252) -/

/-- The oldest completion of a core, once its command has ended; none while it cannot be written. -/
def State.complete (s : State) (core : Nat) : Option State :=
  let q := quireOf core
  let x := s.quire q
  match x.comps.find? fun c => c.core = core with
  | none => none
  | some comp =>
    match x.cmds.find? fun c => c.seq = comp.seq with
    | none => none
    | some c =>
      let w : Waiter := .engine q c.seq
      let place := comp.word.toList
      if !c.done || place.any (fun p => s.ownedBefore q c [lineOf p]) then none
      else if !(place.all fun p => (s.granule (granuleOf p)).turnOf w) then
        if s.standsIn w then none else s.joinAll w (place.map granuleOf)
      else
        let val := c.err.getD comp.val
        let t := match comp.word with | some p => s.engineWrite p (toBytes 8 val.toNat) | none => s
        let comps := x.comps.erase comp
        some ((t.leaves w).onQuire q fun y =>
          { y with comps := comps
                   cmds := if comps.any fun d => d.seq = c.seq then y.cmds else y.cmds.filter fun d => d.seq ≠ c.seq })
/-- `COPY_COMPLETION_WRITE`: the oldest completion of core `turn.core`. -/
def execCopyCompletionWrite (s : State) : Host.Outcome State Fault Refusal := .next ((s.complete s.turn.core).getD s)

end Sys2Proof.Machine
end

