-- ==== Sys2Proof/Machine/Deque.lean ====
section
/-! DEFINITION. The deque of a core and its levels, idle cores and wakes, and releases that the part makes for a core
(06, R139 to R141; 13, R339 to R344; 01, R34, R35). -/

namespace Sys2Proof.Machine

/-! ### Cores in their order (13, Table 13.4; 15, R384) -/

/-- Hop distance between two quires of one die on the folded torus of 6 rows by 8 columns. -/
def hops (a b : Nat) : Nat :=
  (ringSteps 6 (routerRow a) (routerRow b)).1.length + (ringSteps 8 (routerCol a) (routerCol b)).1.length
/-- The other quires of a quire's die: increasing hop distance, ties by increasing number. -/
def dieOrder (q : Nat) : List Nat :=
  (List.range 8).flatMap fun d => (List.range 48).filterMap fun i =>
    let r := quireDie q * 48 + i
    if r ≠ q && hops q r = d then some r else none
/-- The other dies: XOR 1, then XOR 2, then XOR 3. -/
def otherDies (q : Nat) : List Nat := [1, 2, 3].map fun k => quireDie q ^^^ k
/-- Quires in search order: the own one, the die's others, and the other dies' in increasing number. -/
def quireOrder (q : Nat) : List Nat :=
  q :: dieOrder q ++ (otherDies q).flatMap fun d => (List.range 48).map fun i => d * 48 + i
/-- Logical cores in the search order of `rfork` and of wakes (06, R145; 13, R341). -/
def coreOrder (core : Nat) : List Nat :=
  (quireOrder (quireOf core)).flatMap fun q => (List.range 96).map fun i =>
    if q = quireOf core then q * 96 + (core % 96 + 1 + i) % 96 else q * 96 + i

/-! ### The part's own reads and writes of a scratchpad -/

/-- Bytes that the part writes into a scratchpad (06, R138, R145, R146). -/
def State.putSpad (s : State) (core off : Nat) (bs : List Byte) : State :=
  s.performPart core 0 ⟨.spad core off, localAddr off, .dflt, storeBytes bs⟩
/-- Doubles of a range that are uncorrectable in one scratchpad are so in another (16, R433). -/
def State.hurtAs (s : State) (src dst off n : Nat) : State :=
  let bad := (s.core src).bad.filter fun d => overlaps off n (d * 8) 8
  s.onCore dst fun c => { c with bad := bad ++ c.bad }
/-- Bytes copied from one scratchpad to the same offset of another with their uncorrectable doubles (16, R433). -/
def State.copySpad (s : State) (src dst off n : Nat) : State :=
  (s.putSpad dst off (Memory.read (s.core src).spad off n)).hurtAs src dst off n
/-- A folio's bytes as they stand. -/
def State.folioBytes (s : State) (core off : Nat) : List Byte := Memory.read (s.core core).spad off 64
/-- FLAGS[1:0] of a folio, its steal scope (01, Table 1.10). -/
def stealScope (f : List Byte) : Nat := fieldAt f 0x1C 4 % 4
/-- The scope that a publication of steal scope `k` releases at (06, R140). -/
def stealRelease (k : Nat) : Scope := match k with | 0 => .dev | 1 => .die | 2 => .quire | _ => .core

/-! ### The lower levels (13, R343; their layout: log 6) -/

inductive Lower where | l | m
  deriving DecidableEq, Repr

def Csr.lOn (c : Csr) : Bool := c.dqlocal.getLsbD 0
def Csr.lShare (c : Csr) : Nat := (c.dqlocal.extractLsb' 13 5).toNat
def Csr.mPages (c : Csr) : Nat := (c.dqspill.extractLsb' 0 12).toNat
def Csr.mBase (c : Csr) : Word := (c.dqspill.extractLsb' 12 45 ++ 0#12).signExtend 64
def Core.cap (c : Core) : Lower → Nat | .l => if c.csr.lOn then 2048 else 0 | .m => c.csr.mPages * 1024
/-- The entries of a level, and where the oldest stands in its ring. -/
def Core.level (c : Core) : Lower → List DqEntry | .l => c.deque.l | .m => c.deque.m
def Core.levelSize (c : Core) (x : Lower) : Nat := (c.level x).length
def Core.levelHead (c : Core) : Lower → Nat | .l => c.deque.lHead | .m => c.deque.mHead
def Core.setLevel (c : Core) (x : Lower) (head : Nat) (es : List DqEntry) : Core :=
  match x with
  | .l => { c with deque := { c.deque with lHead := head, l := es } }
  | .m => { c with deque := { c.deque with mHead := head, m := es } }
/-- The address of the `i`-th oldest handle of a level. -/
def Core.levelAddr (c : Core) (x : Lower) (i : Nat) : Word :=
  let k := if c.cap x = 0 then 0 else (c.levelHead x + i) % c.cap x
  match x with
  | .l => localAddr (c.csr.lShare * 0x2000 + 4 * k)
  | .m => c.csr.mBase + BitVec.ofNat 64 (4 * k)

/-- A check of an access that the part makes for a core with the supervisor's rights; none where it fails. -/
def State.superPlace (s : State) (core : Nat) (va : Word) (n : Nat) (kind : Access) : Option (State × Place) :=
  let old := (s.core core).csr.status
  let t := s.onCore core fun c => { c with csr := { c.csr with status := statusWith old superMode superMode false } }
  match checkAccess va n kind { t with cur := core, ctx := 0 } with
  | .ok (p, u) =>
    let v : State := { u with cur := s.cur, ctx := s.ctx }
    match p with
    | .remote _ _ => none
    | p => some (v.onCore core fun c => { c with csr := { c.csr with status := old } }, p)
  | .error _ => none
/-- One address in each page of level M's ring where handles stand, or where the next would. -/
def Core.ringPages (c : Core) : List Word :=
  let cap := c.cap .m
  if cap = 0 then []
  else
    let n := c.levelSize .m
    let at' : List Nat := ((List.range (n / 1024 + 1)).map fun k => 1024 * k) ++ [n, n + 1]
    ((at'.map fun k => (c.levelHead .m + cap - 1 + k) % cap / 1024).eraseDups).map fun p => c.csr.mBase + BitVec.ofNat 64 (4096 * p)
/-- The walks of some pages of level M's ring are made, and a malformed entry that one meets is counted (16, R418); the lines that
one waits for, where one has to wait for a walk or for the page itself. -/
def State.walkPages (s : State) (core : Nat) : List Word → Except (List Place) State
  | [] => .ok s
  | va :: r =>
    let old := (s.core core).csr.status
    let t := s.onCore core fun c => { c with csr := { c.csr with status := statusWith old superMode superMode false } }
    match checkAccess va 4 .store { t with cur := core, ctx := 0 } with
    | .ok (p, u) =>
      if u.untrained p || u.owned p 4096 then .error (u.waitsFor p 4096)
      else
        let v : State := { u with cur := s.cur, ctx := s.ctx }
        (v.onCore core fun c => { c with csr := { c.csr with status := old } }).walkPages core r
    | .error (.exc (.wait on)) => .error on
    | .error (.badWalk _) => s.countMalformed.walkPages core r
    | .error _ => s.walkPages core r
/-- Level M is ready to be read and written, where a move of handles may come to it. -/
def State.readyRing (s : State) (core : Nat) : Except (List Place) State :=
  let c := s.core core
  if c.deque.m.isEmpty && c.deque.h.length < 64 then .ok s else s.walkPages core c.ringPages
/-- An instruction that pushes waits until it is. -/
def needRing : M Unit := do
  let s ← get
  match s.readyRing s.cur with
  | .ok t => set t
  | .error on => waitOn on
/-- A handle written at an address of a level. -/
def State.putHandle (s : State) (core : Nat) (va : Word) (h : W32) : Option State :=
  (s.superPlace core va 4 .store).map fun (t, p) => t.performPart core 0 ⟨p, va, .unc, storeBytes (toBytes 4 h.toNat)⟩
/-- A handle read at an address of a level, and whether its double is uncorrectable. -/
def State.getHandle (s : State) (core : Nat) (va : Word) : Option (W32 × Bool) :=
  (s.superPlace core va 4 .load).map fun (t, p) =>
    (BitVec.ofNat 32 (ofBytes (t.loadPlace (quireOf core) p 4 .unc).2), t.anyBad p 4)

/-- An entry put behind the newest, or before the oldest, of a level; none where the level has no room. -/
def State.putNewest (s : State) (core : Nat) (x : Lower) (e : DqEntry) : Option State :=
  let c := s.core core
  let n := c.levelSize x
  if n < c.cap x then
    (s.putHandle core (c.levelAddr x n) e.handle).map fun t =>
      t.onCore core fun c => c.setLevel x (c.levelHead x) (c.level x ++ [e])
  else none
def State.putOldest (s : State) (core : Nat) (x : Lower) (e : DqEntry) : Option State :=
  let c := s.core core
  if c.levelSize x < c.cap x then
    let d := c.setLevel x ((c.levelHead x + c.cap x - 1) % c.cap x) (e :: c.level x)
    (s.putHandle core (d.levelAddr x 0) e.handle).map fun t =>
      t.onCore core fun c => c.setLevel x (d.levelHead x) (e :: c.level x)
  else none

/-- What came off a level: an entry, or where the bad handle stood, or one whose bytes are uncorrectable. -/
inductive Taken where
  | entry (e : DqEntry) | malformed (va : Word) | uncorrectable
  deriving DecidableEq, Repr

/-- The entry whose handle stands at an address: the one that went down there, or another that a program has written over it
(13, R344). -/
def State.takenAt (s : State) (core : Nat) (va : Word) (e : DqEntry) : Taken :=
  match s.getHandle core va with
  | some (_, true) => .uncorrectable
  | some (h, false) =>
    if hasV h && folioOk h then .entry (if h = e.handle then e else { e with handle := h, old := [] }) else .malformed va
  | none => .malformed va
/-- The `i`-th oldest entry of a level. -/
def State.entryAt (s : State) (core : Nat) (x : Lower) (i : Nat) : Option Taken :=
  let c := s.core core
  (c.level x)[i]?.map fun e => s.takenAt core (c.levelAddr x i) e
/-- The entries before the `i`-th of a level move one place on in its ring. -/
def State.closeUp (s : State) (core : Nat) (x : Lower) : Nat → State
  | 0 => s
  | i + 1 =>
    let c := s.core core
    let t := match s.getHandle core (c.levelAddr x i) with
      | some (h, _) => (s.putHandle core (c.levelAddr x (i + 1)) h).getD s
      | none => s
    t.closeUp core x i
/-- A level without its `i`-th oldest entry. -/
def State.dropAt (s : State) (core : Nat) (x : Lower) (i : Nat) : State :=
  let c := s.core core
  if i + 1 = c.levelSize x then s.onCore core fun c => c.setLevel x (c.levelHead x) ((c.level x).eraseIdx i)
  else
    let head := if c.cap x = 0 then 0 else (c.levelHead x + 1) % c.cap x
    (s.closeUp core x i).onCore core fun c => c.setLevel x head ((c.level x).eraseIdx i)
def State.takeNewest (s : State) (core : Nat) (x : Lower) : Option (Taken × State) :=
  let n := (s.core core).levelSize x - 1
  (s.entryAt core x n).map fun y => (y, s.dropAt core x n)
def State.takeOldest (s : State) (core : Nat) (x : Lower) : Option (Taken × State) :=
  (s.entryAt core x 0).map fun y => (y, s.dropAt core x 0)
/-- A dropped handle is reported at the core's next boundary (13, R344; 16, R435). -/
def State.dropTaken (s : State) (core : Nat) (x : Taken) : State :=
  match x with
  | .entry _ => s
  | .malformed va => s.onCore core fun c => { c with badHandle := c.badHandle ++ [va] }
  | .uncorrectable => s.onCore core fun c => { c with impErr := c.impErr ++ [1] }

/-- Up to `n` of level L's oldest handles moved to level M; none where not even one could be (13, R343; 01, R35). -/
def State.lToM (s : State) (core : Nat) : Nat → Option State
  | 0 => some s
  | n + 1 =>
    match s.takeOldest core .l with
    | none => some s
    | some (x, t) =>
      let one : Option State := match x with
        | .entry e => t.putNewest core .m e
        | bad => some (t.dropTaken core bad)
      match one with
      | some u => match u.lToM core n with | some v => some v | none => some u
      | none => none
/-- One entry moves down below H (13, R343). -/
def State.downOne (s : State) (core : Nat) (e : DqEntry) : Option State :=
  if (s.core core).csr.lOn then
    match s.putNewest core .l e with
    | some t => some t
    | none => (s.lToM core 16).bind fun t => t.putNewest core .l e
  else s.putNewest core .m e
/-- Up to `n` of H's oldest entries move down; none where not even the first could. -/
def State.spillOldest (s : State) (core : Nat) : Nat → Option State
  | 0 => some s
  | n + 1 =>
    match (s.core core).deque.h with
    | [] => some s
    | e :: r =>
      match s.downOne core e with
      | none => none
      | some t =>
        let u := t.onCore core fun c => { c with deque := { c.deque with h := r } }
        match u.spillOldest core n with | some v => some v | none => some u
/-- Room for one more entry in H (01, R34). -/
def State.makeRoom (s : State) (core : Nat) : Option State :=
  if (s.core core).deque.h.length < 64 then some s else s.spillOldest core 16
/-- One entry behind the tail. -/
def State.pushTail (s : State) (core : Nat) (e : DqEntry) : Option State :=
  (s.makeRoom core).map fun t => t.onCore core fun c => { c with deque := { c.deque with h := c.deque.h ++ [e] } }
/-- An entry before H's oldest. -/
def Core.pushH (c : Core) (e : DqEntry) : Core := { c with deque := { c.deque with h := e :: c.deque.h } }
/-- The newest entry of a level moves up in front of what stands above it. -/
def State.moveUp (s : State) (core : Nat) (x : Lower) : State :=
  match s.takeNewest core x with
  | none => s
  | some (.entry e, t) =>
    if x = .m && (t.core core).levelSize .l < (t.core core).cap .l then
      (t.putOldest core .l e).getD t
    else t.onCore core fun c => c.pushH e
  | some (bad, t) => t.dropTaken core bad
/-- One published entry before the head, wherever the head lies; none for a full deque (06, R143; 01, R34). -/
def State.pushHead (s : State) (core : Nat) (e : DqEntry) : Option State :=
  let c := s.core core
  if 0 < c.levelSize .m then
    match s.putOldest core .m e with
    | some t => some t
    | none =>
      -- level M is full: its newest handle moves up to make room
      if c.levelSize .l < c.cap .l || c.deque.h.length < 64 then
        let t := if 0 < c.levelSize .l && c.levelSize .l = c.cap .l then s.moveUp core .l else s
        (t.moveUp core .m).putOldest core .m e
      else none
  else if 0 < c.levelSize .l then
    match s.putOldest core .l e with
    | some t => some t
    | none => match s.putOldest core .m e with
      | some t => some t
      | none => if c.deque.h.length < 64 then (s.moveUp core .l).putOldest core .l e else none
  else if c.deque.h.length < 64 then some (s.onCore core fun c => c.pushH e)
  else match s.putOldest core .l e with
    | some t => some t
    | none => s.putOldest core .m e
/-- The newest of the lower levels move up into H, in order. -/
def State.refillBy (s : State) (core : Nat) : Nat → State
  | 0 => s
  | n + 1 =>
    let x : Lower := if 0 < (s.core core).levelSize .l then .l else .m
    match s.takeNewest core x with
    | none => s
    | some (.entry e, t) => (t.onCore core fun c => c.pushH e).refillBy core n
    | some (bad, t) => (t.dropTaken core bad).refillBy core n
/-- While H holds 8 or fewer entries and a lower level any, the 16 newest of the lower levels move back (13, R343). -/
def State.refillTo (s : State) (core : Nat) : Nat → State
  | 0 => s
  | n + 1 => if (s.core core).deque.h.length ≤ 8 then (s.refillBy core 16).refillTo core n else s
def State.refill (s : State) (core : Nat) : State :=
  s.refillTo core ((s.core core).levelSize .l + (s.core core).levelSize .m)
/-- The number of entries at all levels. -/
def Core.dequeSize (c : Core) : Nat := c.deque.h.length + c.deque.l.length + c.deque.m.length

/-! ### Idle cores and wakes (06, R145; 13, R339 to R341) -/

/-- The core sleeps at the last step of the scheduling order with nothing to take. -/
def State.idle (s : State) (core : Nat) : Bool :=
  let c := s.core core
  s.inService core && c.run = .asleep && c.dequeSize = 0 && c.ready.isEmpty && c.recruit.isNone && c.next.isNone
    && !(s.tree.any fun m => m.lo ≤ core && core < m.hi)
def Core.awaken (c : Core) : Core := { c with wake := true }
/-- A wake sent to the first `n` idle cores of a list that have none yet. -/
def State.wakeFirst (s : State) : List Nat → Nat → State
  | [], _ => s
  | _, 0 => s
  | c :: r, n + 1 =>
    if s.idle c && !(s.core c).wake then (s.onCore c Core.awaken).wakeFirst r n else s.wakeFirst r (n + 1)
/-- The cores that a publication of a steal scope wakes (13, R341). -/
def wakeOrder (core k : Nat) : List Nat :=
  let q := quireOf core
  let own := (List.range 96).map fun i => q * 96 + i
  let rest (qs : List Nat) : List Nat := qs.flatMap fun r => (List.range 96).map fun i => r * 96 + i
  match k with
  | 0 => own ++ rest ((quireOrder q).drop 1)
  | 1 => own ++ rest (dieOrder q)
  | 2 => own
  | _ => []

/-! ### Publication (06, R140) -/

/-- The private entries that a publication publishes, and the widest steal scope among them. -/
def State.unpublished (s : State) (core : Nat) : List Nat :=
  ((s.core core).deque.h.filter fun e => !e.pub).filterMap fun e =>
    let k := stealScope (s.folioBytes (folioCore e.handle) (folioOff e.handle))
    if k = 3 then none else some k
def State.pubScope (s : State) (core : Nat) : Nat := (s.unpublished core).foldl Nat.min 3
/-- The entries become published, and idle cores are woken. -/
def State.published (s : State) (core : Nat) : State :=
  let n := (s.unpublished core).length
  let k := s.pubScope core
  let open' (e : DqEntry) : Bool := stealScope (s.folioBytes (folioCore e.handle) (folioOff e.handle)) ≠ 3
  let t := s.onCore core fun c =>
    { c with deque := { c.deque with h := c.deque.h.map fun e => if open' e && !e.pub then { e with pub := true, rel := stealRelease k } else e } }
  t.wakeFirst (wakeOrder core k) n
def publish : M Unit := do
  let s ← get
  release (stealRelease (s.pubScope s.cur))
  modify fun s => s.published s.cur

/-! ### Releases that the part makes for a core -/

/-- The peer handshake of a `.sys` release that the part makes for a core is over, and its table is empty; none while an
acknowledgement is owing (07, R174). -/
def State.peersDone (s : State) (core : Nat) (sc : Scope) : Option State :=
  let c := s.core core
  match c.peerHand with
  | some h =>
    if sc ≠ .sys then some s
    else if h.late || (s.owing core h).isEmpty then
      some (s.onCore core fun c => ({ c with peerHand := none } : Core).handOver h true)
    else none
  | none => if sc ≠ .sys || c.peers.isEmpty then some s else none
/-- The tokens of that handshake go out, where they have not. -/
def State.askPeers (s : State) (core : Nat) (sc : Scope) : State :=
  let c := s.core core
  if sc ≠ .sys || c.peers.isEmpty || c.peerHand.isSome then s
  else
    let (t, h) := s.handWith core c.peers
    t.onCore core fun c => { c with peerHand := some h }
/-- Release(S) that the part makes for a core; none where a store or an acknowledgement has to be waited for. -/
def State.releaseFor (s : State) (core : Nat) (sc : Scope) : Option State :=
  let t : Option State := if 1 ≤ Scope.rank sc then s.drained core else some s
  let u : Option State := t.bind fun t =>
    if 2 ≤ Scope.rank sc then if t.forwardsHeld (quireOf core) then none else some (t.cleanQuire (quireOf core)) else some t
  u.bind fun u => u.peersDone core sc

end Sys2Proof.Machine
end

