-- ==== Sys2Proof/Machine/Kettle.lean ====
section
/-! DEFINITION. Page 1: kettles, their decrements and where a fired continuation runs
(01, R33; 06, R147 to R151; 13, R349, R359; 16, R435). -/

namespace Sys2Proof.Machine

/-! ### The bytes of a kettle (01, Table 1.11) -/

def State.kettleBytes (s : State) (h : W32) : List Byte :=
  Memory.read (s.quire (kettleQuire h)).kettles (kettleIndex h * 16) 16
def State.kettlePut (s : State) (h : W32) (off : Nat) (bs : List Byte) : State :=
  s.onQuire (kettleQuire h) fun q => { q with kettles := Memory.write q.kettles (kettleIndex h * 16 + off) bs }
def kCount (k : List Byte) : Nat := fieldAt k 0 4
def kCont (k : List Byte) : W32 := BitVec.ofNat 32 (fieldAt k 4 4)
def kHome (k : List Byte) : Nat := fieldAt k 8 2
def kMode (k : List Byte) : Nat := fieldAt k 0xA 1
def kState (k : List Byte) : Byte := k.getD 0xB 0
/-- The bits of a STATE byte of an armed kettle whose other fields are good (01, R33). -/
def stateArmed (b : Byte) : Bool :=
  b.extractLsb' 0 2 == 1#2 && (jscOf b).isSome && b.extractLsb' 5 2 == 0#2
def kArmed (k : List Byte) : Bool := stateArmed (kState k)
def State.kettleAux (s : State) (h : W32) : KettleAux :=
  mapGet (s.quire (kettleQuire h)).kaux (kettleIndex h) ⟨none, []⟩
def State.setKettleAux (s : State) (h : W32) (a : KettleAux) : State :=
  s.onQuire (kettleQuire h) fun q => { q with kaux := mapPut q.kaux (kettleIndex h) a }
/-- ER set in a kettle. -/
def State.kettleEr (s : State) (h : W32) : State :=
  s.kettlePut h 0xB [kState (s.kettleBytes h) ||| 0x80]
/-- The slot-127 address of a kettle. -/
def kettleAddr (h : W32) : Word := BitVec.ofNat 64 (localBase + 127 * 0x40000 + kettleIndex h * 16)
/-- A kettle whose bytes are uncorrectable discards the operation and becomes FREE with ER set; the core is told
(16, R435). -/
def State.kettleBad (s : State) (h : W32) (core : Nat) : Option State :=
  if (s.quire (kettleQuire h)).badKettles.any fun d => d / 2 = kettleIndex h then
    let t := s.onQuire (kettleQuire h) fun q =>
      { q with badKettles := q.badKettles.filter fun d => d / 2 ≠ kettleIndex h
               kettles := Memory.write q.kettles (kettleIndex h * 16) (List.replicate 11 0 ++ [0x80, 0, 0, 0, 0]) }
    some (t.onCore core fun c => { c with impErr := c.impErr ++ [kettleAddr h ||| 1] })
  else none

/-! ### Placement (06, Table 6.4; 13, R347) -/

/-- A pending task takes its place on a ready list: rising PRI, first come first among equals (06, R150). -/
def readyInsert (p : Pending) : List Pending → List Pending
  | [] => [p]
  | x :: r => if p.pri < x.pri then p :: x :: r else x :: readyInsert p r
/-- A core sees that a message or a continuation has come: each `wrs` that sleeps there wakes (07, R187). -/
def Core.stir (c : Core) : Core :=
  { c with wake := true
           ctxs := c.ctxs.map fun x => match x.watch with | some (_, false) => { x with woken := true } | _ => x }
def State.placeReady (s : State) (core : Nat) (p : Pending) : State :=
  s.onCore core fun c =>
    let c : Core := { c with ready := readyInsert p c.ready, wake := true }
    if p.cont then c.stir else c

/-- A task becomes the core's next one; one that was to be next goes to the ready list. -/
def State.placeNext (s : State) (core : Nat) (p : Pending) : State :=
  let t := match (s.core core).next with | some q => s.placeReady core q | none => s
  t.onCore core fun c => { c with next := some p, wake := true }

/-- What decremented a kettle. -/
inductive DecBy where | taskEnd | kdec | pop | message | finish
  deriving DecidableEq, Repr

/-- Where a fired continuation goes: the core, and whether as its next task. -/
def State.firePlace (s : State) (h : W32) (k : List Byte) (core : Nat) (by' : DecBy) : Nat × Bool :=
  let home := kettleQuire h * 96 + kHome k
  if kMode k = 1 then (home, false)
  else match by' with
    | .taskEnd => (core, true)
    | .kdec => (core, (s.core core).next.isNone)
    | .pop | .message => (core, false)
    | .finish => (home, false)
/-- The count has gone from 1 to 0: the continuation is placed, or the holds end (06, R150; 13, R359). A continue-mode
kettle with a HOME above 95 that termination fires has no core to go to: it is taken as one that R150 leaves unplaced
(log 80). -/
def State.fire (s : State) (h : W32) (k : List Byte) (core : Nat) (by' : DecBy) (widest : Scope)
    (holds : List (Nat × Nat)) : State :=
  let cont := kCont k
  let good := kMode k ≤ 1 && (kMode k = 0 || kHome k ≤ 95)
    && (!hasV cont || (folioOk cont && (kHome k ≤ 95 || by' ≠ .finish)))
  let t := s.setKettleAux h ⟨some widest, []⟩
  if !good then t.kettleEr h
  else if !hasV cont then t
  else
    let (place, next) := t.firePlace h k core by'
    let f := t.folioBytes (folioCore cont) (folioOff cont)
    let p : Pending := { handle := cont, pri := fieldAt f 0x18 4, acq := some widest
                         home := if kHome k ≤ 95 then kettleQuire h * 96 + kHome k else folioCore cont
                         holds := holds, cont := true, launch := false, bad := false }
    if next then t.placeNext place p else t.placeReady place p

/-- How a decrement ended. -/
inductive DecResult where | discarded | full | done
  deriving DecidableEq, Repr

/-- The kettle's holds with those that a `sync` brings: the least bucket for each worklist (13, R359). -/
def mergeHolds (old new : List (Nat × Nat)) : List (Nat × Nat) :=
  new.foldl (fun m (w, b) => mapPut m w (Nat.min b (mapGet m w b))) old
/-- The smallest scope that contains a core and a quire (06, R149). -/
def scopeToQuire (core q : Nat) : Scope :=
  if quireOf core = q then .quire else if dieOf core = quireDie q then .die else .dev
def wlScope (s : State) (w : Nat) : Scope :=
  match s.wls.find? fun x => x.1 = w with | some x => if x.2.sys then .sys else .dev | none => .dev
/-- The scope at which a decrement releases: the join scope, widened, and that of the worklists whose holds it can end
(06, R149; 19, R456). -/
def State.decScope (s : State) (h : W32) (core : Nat) (holds : List (Nat × Nat)) : Scope :=
  let base := Scope.wider (scopeToQuire core (kettleQuire h)) ((jscOf (kState (s.kettleBytes h))).getD .core)
  (holds ++ (s.kettleAux h).holds).foldl (fun sc x => Scope.wider sc (wlScope s x.1)) base
/-- One decrement at the kettle store (01, R33; 06, R149, R150). -/
def State.decrement (s : State) (h : W32) (core : Nat) (by' : DecBy) (rel : Scope) (holds : List (Nat × Nat)) :
    State × DecResult :=
  match s.kettleBad h core with
  | some t => (t, .discarded)
  | none =>
    let k := s.kettleBytes h
    if !kArmed k || kCount k = 0 then (s.kettleEr h, .discarded)
    else
      let a := s.kettleAux h
      let all := mergeHolds a.holds holds
      if 2 < all.length then (s, .full)
      else
        let widest := Scope.wider (a.widest.getD ((jscOf (kState k)).getD .core)) rel
        let t := s.kettlePut h 0 (toBytes 4 (kCount k - 1))
        if kCount k = 1 then
          let u := t.kettlePut h 0xB [(kState k &&& 0xFC) ||| 2]
          (u.fire h k core by' widest all, .done)
        else (t.setKettleAux h ⟨some widest, all⟩, .done)
/-- `kadd` at the kettle store (06, R148). -/
def State.kaddAt (s : State) (h : W32) (core n : Nat) : State :=
  if n = 0 then s
  else match s.kettleBad h core with
    | some t => t
    | none =>
      let k := s.kettleBytes h
      if !kArmed k || 2 ^ 32 ≤ kCount k + n then s.kettleEr h else s.kettlePut h 0 (toBytes 4 (kCount k + n))

/-! ### Operations on their way (13, R349) -/

/-- An operation that travels takes effect; none while a store that its release covers has to wait. -/
def State.kettleOp (s : State) (core : Nat) (h : W32) (op : KettleOp) : Option State :=
  match op with
  | .dec =>
    let sc := s.decScope h core []
    (s.releaseFor core sc).map fun t => (t.decrement h core .kdec sc []).1
  | .add n => some (s.kaddAt h core n.toNat)
/-- The handshake that an operation on its way waits for begins (06, R149; 07, R174). -/
def State.kettleAsk (s : State) (core : Nat) (h : W32) (op : KettleOp) : State :=
  match op with | .dec => s.askPeers core (s.decScope h core []) | .add _ => s
/-- The context's own operations on a kettle take effect before its next one there (13, R349). -/
def flushKettle (h : W32) : M Unit := do
  let s ← get
  if s.kops.any fun x => x.agent = s.agent && x.handle = h then waitHere
/-- An operation on its way may take effect: it is its context's first to that kettle, and has come to the kettle's quire. -/
def State.kopReady (s : State) (i : Nat) (k : Kop) : Bool :=
  !((s.kops.take i).any fun x => x.agent = k.agent && x.handle = k.handle)
    && match k.way with | some t => s.arrived t | none => true
/-- `KETTLE_OPERATION`: operation `turn.index` of those on their way takes effect. -/
def execKettleOperation (s : State) : Host.Outcome State Fault Refusal :=
  match s.kops[s.turn.index]? with
  | none => .next s
  | some k =>
    if !s.kopReady s.turn.index k then .next s
    else
      let t : State := { s with kops := s.kops.eraseIdx s.turn.index }
      .next ((t.kettleOp k.agent.core k.handle k.op).getD (s.kettleAsk k.agent.core k.handle k.op))

/-! ### The instructions -/

/-- Arming a kettle (06, R147). -/
def kinit (k a b : Reg) (home : Option Nat) (sc : Scope) : M Unit := do
  controlOnly
  barPhase
  let wk ← readW k
  let n ← readW a
  let x ← readW b
  match ← kettleOperand wk with
  | none => trap 0x01 wk
  | some h => do
    need (1 ≤ n.toNat && n.toNat < 2 ^ 32) (.trap 0x01 n)
    let cont := x.extractLsb' 0 32
    need (!hasV cont || folioOk cont) (.trap 0x01 x)
    flushKettle h
    let s ← get
    match s.kettleBad h s.cur with
    | some t => set t
    | none =>
      if (kState (s.kettleBytes h)).extractLsb' 0 2 == 1#2 then do
        set (s.kettleEr h)
        thenTake (.trap 0x01 wk)
      else do
        let at' := match home with
          | some q => q
          | none => if kettleQuire h = s.myQuire then qcoreOf s.cur else 0
        let st := 1 + 4 * sc.code.toNat
        let t := s.kettlePut h 0 (toBytes 4 n.toNat ++ toBytes 4 cont.toNat ++ toBytes 2 at'
          ++ [if home.isSome then 1 else 0, BitVec.ofNat 8 st])
        set (t.setKettleAux h { t.kettleAux h with widest := some sc })
/-- `KINIT_CONT` (R147). Arm a kettle in continue mode with count, continuation and join scope. -/
def execKinitCont (k a b : Reg) (sc : Scope) (s : State) := M.run (kinit k a b none sc) s
/-- `KINIT_READY` (R147). Arm a kettle in ready mode with a HOME core. -/
def execKinitReady (k a b : Reg) (home : BitVec 7) (sc : Scope) (s : State) :=
  M.run (kinit k a b (some home.toNat) sc) s

/-- An operation goes out to a kettle store; to that of another quire on the request network (13, R349; 15, Table 15.2). -/
def State.sendKop (s : State) (h : W32) (op : KettleOp) : State :=
  let q := kettleQuire h
  let way := if q = s.myQuire then none else some (s.startWay .request s.myQuire q 1)
  { s.counted with kops := s.kops ++ [⟨s.agent, h, op, way⟩] }
/-- An operation sent to a kettle store; the context goes on (06, R148). -/
def sendKettle (wk : Word) (op : KettleOp) : M Unit := do
  match ← kettleOperand wk with
  | none => pure ()
  | some h => modify fun s => s.sendKop h op
/-- `KDEC` (R148). Send one decrement to a kettle without waiting. -/
def execKdec (k : Reg) (s : State) := M.run (do
  barPhase
  sendKettle (← readW k) .dec) s
/-- `KADD` (R148). Add an amount to a kettle's count; never fires. -/
def execKadd (k a : Reg) (s : State) := M.run (do
  barPhase
  let n ← readW a
  sendKettle (← readW k) (.add (n.extractLsb' 0 32))) s

end Sys2Proof.Machine
end

