-- ==== Sys2Proof/Machine/Task.lean ====
section
/-! DEFINITION. Page 1: tasks, their starts and their ends (01, R30 to R32; 06, R137 to R146; 13, R347; 16, R415,
R427; 19, R456). -/

namespace Sys2Proof.Machine

/-! ### Folios and tiles (01, Table 1.10) -/

/-- The scheduler area (06, Table 6.2). -/
def popFolio : Nat := 0x3FF40
def forkFolio : Nat := 0x3FF80
def launchFolio : Nat := 0x3FFC0
/-- The range that a TILE field names: none for no tile. -/
def tileRange (t : Nat) : Option (Nat × Nat) :=
  let len := t / 2 ^ 18 % 2 ^ 11
  if len = 0 then none else some (t / 8 % 2 ^ 15 * 8, len * 8)
/-- A TILE field that `spawn` accepts (01, R30). -/
def tileOk (t : Nat) : Bool :=
  t / 2 ^ 18 % 2 ^ 11 ≤ 1024 && t / 2 ^ 29 = 0 && t / 8 % 2 ^ 15 * 8 + t / 2 ^ 18 % 2 ^ 11 * 8 ≤ 0x40000
def folioTiles (f : List Byte) : List (Nat × Nat) :=
  [fieldAt f 0x20 8, fieldAt f 0x28 8].filterMap tileRange
def folioTilesOk (f : List Byte) : Bool := tileOk (fieldAt f 0x20 8) && tileOk (fieldAt f 0x28 8)
/-- Ranges lie in the core's OWN shares and below the scheduler area (13, R347). -/
def rangesFit (c : Core) (rs : List (Nat × Nat)) : Bool := rs.all fun (off, n) => off + n ≤ popFolio && sharesOwn c off n
def State.sameAsn (s : State) (a b : Nat) : Bool :=
  (s.quire (quireOf a)).qasr.extractLsb' 48 16 == (s.quire (quireOf b)).qasr.extractLsb' 48 16
/-- A folio of another core, and its tiles, can be copied to a core (13, R347; 16, R415). -/
def State.placeable (s : State) (core : Nat) (h : W32) : Bool :=
  let f := s.folioBytes (folioCore h) (folioOff h)
  folioCore h = core ||
    (s.sameAsn core (folioCore h) && folioTilesOk f && rangesFit (s.core core) ((folioOff h, 64) :: folioTiles f))
/-- The fields of a launch, `rfork` or pop folio written by the part (06, R145, R146, R162). -/
def folioImage (pc arg : Word) (pri flags : Nat) : List Byte :=
  toBytes 8 pc.toNat ++ toBytes 8 arg.toNat ++ toBytes 8 0 ++ toBytes 4 pri ++ toBytes 4 flags ++ List.replicate 32 0

/-! ### The start of a task -/

/-- A folio that a program wrote after its push: for each double the start sees the old or the new value (01, R32). -/
def chooseFolio (tick : Nat) (old new : List Byte) : List Byte :=
  if old.length ≠ 64 then new
  else (List.range 64).map fun i => (if Config.folioOld tick (i / 8) then old else new).getD i 0
/-- A task starts on a core from its folio there (01, R31; 06, R150; 20, R461). -/
def State.beginTask (s : State) (core : Nat) (f : List Byte) (p : Pending) : State :=
  let off := folioOff p.handle
  let t := if p.cont then s.putSpad core (off + 0x1C) [BitVec.ofNat 8 (fieldAt f 0x1C 1) ||| 4] else s
  let t := match p.acq with | some sc => t.acquire core sc | none => t
  let begin' (x : Ctx) : Ctx :=
    { x with pc := evenPc (wordOf (f.take 8)), waiting := false
             w := (x.w.set 0 (wordOf ((f.drop 8).take 8))).set 12 (localAddr off) }
  t.onCore core fun c =>
    { c with run := .task, folio := off, hold := p.holds, wake := false, afterBar := false
             ctxs := c.ctxs.set 0 (begin' c.ctxs[0]) }
/-- A pending task taken by a core: its folio and tiles are copied there when they lie elsewhere. Of a folio that a program
has written since its push, R32 of 01 does not say which value is seen: what is read from memory here, and an entry without
the bytes of its push, show the new one (log 23). One that cannot be placed goes to its home core, and an uncorrectable one is
discarded (13, R347; 16, R415, R435). -/
def State.startPending (s : State) (core : Nat) (old : List Byte) (p : Pending) : State :=
  let src := folioCore p.handle
  let off := folioOff p.handle
  if p.bad then s.onCore core fun c => { c with impErr := c.impErr ++ [1] }
  else if src = core then
    let f := forward (s.core core).sb (.spad core off) (s.folioBytes core off)
    s.beginTask core (chooseFolio s.tick old f) p
  else if s.placeable core p.handle then
    let f := s.folioBytes src off
    let t := (folioTiles f).foldl (fun t (o, n) => t.copySpad src core o n) (s.copySpad src core off 64)
    let g := chooseFolio s.tick old f
    ((t.putSpad core off g).hurtAs src core off 64).beginTask core g p
  else s.placeReady (if p.home = core then src else p.home) p

/-! ### The end of a task -/

/-- The KET field of the running folio (16, R427), checked under R29 (06, R142). -/
def runningKet : M (Option W32) := do
  let ket := BitVec.ofNat 32 (ofBytes (← readOwn ((← get).me.folio + 0x10) 4))
  if !hasV ket then return none
  else if kettleOk ket then return some ket
  else trap 0x01 (ket.zeroExtend 64)
/-- The release that ends the task's holds (19, R456). -/
def releaseHolds : M Unit := do
  let s ← get
  if !s.me.hold.isEmpty then release (s.me.hold.foldl (fun sc x => Scope.wider sc (wlScope s x.1)) .dev)
/-- The core has no task any more and takes its next work; its reservation is lost (07, R185; 13, R339).
A repetition sequence whose body is recorded goes on. -/
def State.leaveTask (s : State) (core : Nat) : State :=
  (s.loseResv ⟨core, 0⟩).onCore core fun c =>
    { c with run := .seeking, hold := [], afterBar := false, rep := c.rep.filter fun r => r.recorded
             ctxs := c.ctxs.set 0 { c.ctxs[0] with waiting := false, resv := none } }
def endTask : M Unit := do
  modify fun s => s.leaveTask s.cur
  finish
/-- The decrement of a task's end, where its folio names a kettle (06, R142). -/
def endDecrement (ket : Option W32) (by' : DecBy) : M Unit := do
  match ket with
  | none => pure ()
  | some h => do
    flushKettle h
    let s ← get
    let sc := s.decScope h s.cur []
    release sc
    modify fun s => (s.decrement h s.cur by' sc []).1

/-- `TEND` (R142). End the running task, decrementing its folio's kettle. -/
def execTend (s : State) := M.run (do
  controlOnly
  barPhase
  let ket ← runningKet
  publish
  releaseHolds
  endDecrement ket .taskEnd
  endTask) s
/-- `PUBF` (R140). Publish every private deque entry as a release. -/
def execPubf (s : State) := M.run (do
  controlOnly
  barPhase
  publish) s
/-- `YIELD` (R143). End the task and push its own folio on the head of the deque, published. -/
def execYield (s : State) := M.run (do
  controlOnly
  barPhase
  let s ← get
  let off := s.me.folio
  let h := folioHandle s.cur off
  need (off < popFolio) (.trap 0x01 (localAddr off))
  needRing
  let s ← get
  if (s.pushHead s.cur ⟨h, true, .dev, [], false⟩).isNone then thenTake (.trap 0x0A (localAddr off))
  publish
  releaseHolds
  let k := stealScope (← readOwn off 64)
  release (stealRelease k)
  match (← get).pushHead s.cur ⟨h, true, stealRelease k, [], false⟩ with
  | some t => set (t.wakeFirst (wakeOrder s.cur k) (if k = 3 then 0 else 1))
  | none => pure ()
  endTask) s
/-- A trap behind which the task continues at the next instruction, whose address `epc` gets (06, R144, steps 3 and 4; log 52). -/
def takeBehind (e : Exc) : M Unit := do
  let s ← get
  let t : State := { s with issue := { s.issue with pc := s.issue.next } }
  let u := t.deliver e
  throw (.done { u with issue := { u.issue with pc := s.issue.pc } })
/-- `sync` (06, R144). -/
def execSync (k : Reg) (s : State) := M.run (do
  controlOnly
  barPhase
  let wk ← readW k
  match ← kettleOperand wk with
  | none => trap 0x01 wk
  | some h => do
    publish
    flushKettle h
    let s ← get
    let sc := s.decScope h s.cur s.me.hold
    release sc
    let s ← get
    match s.decrement h s.cur .taskEnd sc s.me.hold with
    | (t, .done) => do
      set t
      endTask
    | (t, .discarded) => do
      set t
      takeBehind (.trap 0x01 wk)
    | (t, .full) => do
      set t
      takeBehind (.trap 0x0B wk)) s

/-! ### Spawn, rfork and tfan -/

/-- `spawn` (06, R139). -/
def execSpawn (a : Reg) (s : State) := M.run (do
  controlOnly
  barPhase
  let va ← readW a
  let off ← localOperand va 64 64
  let f ← readOwn off 64
  for t in [fieldAt f 0x20 8, fieldAt f 0x28 8] do
    need (tileOk t) (.trap 0x01 (BitVec.ofNat 64 t))
  let ket := BitVec.ofNat 32 (fieldAt f 0x10 4)
  need (!hasV ket || kettleOk ket) (.trap 0x01 (ket.zeroExtend 64))
  needRing
  let s ← get
  if (s.makeRoom s.cur).isNone then thenTake (.trap 0x0A va)
  drainFirst
  if 64 ≤ s.me.deque.h.length then publish
  match (← get).pushTail s.cur ⟨folioHandle s.cur off, false, .core, f, false⟩ with
  | some t => set t
  | none => trap 0x0A va) s

/-- The idle cores that an `rfork` recruits, in search order (06, R145). -/
def State.recruits (s : State) (f : List Byte) (n : Nat) : List Nat :=
  ((coreOrder s.cur).filter fun c =>
    s.idle c && s.sameAsn s.cur c && folioTilesOk f && rangesFit (s.core c) (folioTiles f)).take n
/-- The `i`-th of `k` recruits receives its folio and the named tiles. -/
def State.recruit (s : State) (f : List Byte) (total k i core : Nat) (sc : Scope) : State :=
  let flags := fieldAt f 0x1C 4
  let g := f.take 0x1C ++ toBytes 4 (flags - flags / 4 % 4 * 4) ++ (f.drop 0x20).take 16
    ++ toBytes 8 (i * total / k) ++ toBytes 8 ((i + 1) * total / k)
  let t := (folioTiles f).foldl (fun t (o, n) => t.copySpad s.cur core o n) (s.putSpad core forkFolio g)
  t.onCore core fun c => { c with recruit := some sc }
/-- `rfork` (06, R145). A count that passes 2^32 - 1 wraps (log 84). -/
def execRfork (d a b c : Reg) (s : State) := M.run (do
  controlOnly
  barPhase
  let total ← readW a
  let grain ← readW b
  let off ← localOperand (← readW c) 64 64
  if total = 0 then writeW d 0
  else
    let f ← readOwn off 64
    let ket := BitVec.ofNat 32 (fieldAt f 0x10 4)
    need (hasV ket && kettleOk ket) (.trap 0x01 (ket.zeroExtend 64))
    flushKettle ket
    let s ← get
    match s.kettleBad ket s.cur with
    | some t => do
      set t
      writeW d 0
    | none =>
      if !kArmed (s.kettleBytes ket) then do
        set (s.kettleEr ket)
        thenTake (.trap 0x01 (ket.zeroExtend 64))
      else
        let g := Nat.max 1 grain.toNat
        let rs := s.recruits f ((total.toNat + g - 1) / g)
        let k := rs.length
        if 0 < k then do
          let sc := rs.foldl (fun x c => Scope.wider x (scopeOf s.cur c)) .core
          drainFirst
          release sc
          modify fun s =>
            let t := s.kettlePut ket 0 (toBytes 4 (kCount (s.kettleBytes ket) + k))
            rs.zipIdx.foldl (fun t (c, i) => t.recruit f total.toNat k i c sc) t
        writeW d (BitVec.ofNat 64 k)) s
/-- `RECRUIT_START`: the recruit `turn.core` starts from its folio (13, R350). -/
def execRecruitStart (s : State) : Host.Outcome State Fault Refusal :=
  let n := s.turn.core
  match (s.core n).recruit with
  | none => .next s
  | some sc =>
    let t := s.onCore n fun c => { c with recruit := none }
    let p : Pending := { handle := folioHandle n forkFolio, pri := 0, acq := some sc, home := n, holds := []
                         cont := false, launch := false, bad := false }
    .next (t.beginTask n (t.folioBytes n forkFolio) p)

/-- Quires of a domain of the launch tree in service, with the issuer's address-space number (06, R146; 16, R415). -/
def State.treeQuires (s : State) (l : Level) : List Nat :=
  s.service.filter fun q => s.sameAsn s.cur (q * 96) &&
    match l with | .quire => q = s.myQuire | .die => quireDie q = dieOf s.cur | .dev | .sys => true
/-- `tfan` (06, R146). -/
def tfan (l : Level) (a b : Reg) : M Unit := do
  controlOnly
  barPhase
  let pc ← readW a
  let arg ← readW b
  need (!pc.getLsbD 0) (.trap 0x03 pc)
  let sc : Scope := match l with | .quire => .quire | .die => .die | .dev | .sys => .dev
  release sc
  modify fun s =>
    { s with tree := s.tree ++ (s.treeQuires l).map fun q => ⟨q * 96, q * 96 + 96, pc, arg, sc⟩ }
/-- `TFAN_DIE` (R146). Send a launch task down the tree to every core of the device. -/
def execTfanDie (a b : Reg) (s : State) := M.run (tfan .dev a b) s
/-- `TFAN_QUIRE` (R146). Send a launch task to every core of the issuer's die. -/
def execTfanQuire (a b : Reg) (s : State) := M.run (tfan .die a b) s
/-- `TFAN_CORE` (R146). Send a launch task to every core of the issuer's quire. -/
def execTfanCore (a b : Reg) (s : State) := M.run (tfan .quire a b) s

/-- The core holds a launch that has not started. -/
def Core.undelivered (c : Core) : Bool := c.ready.any fun p => p.launch
/-- A launch folio is built and placed on a core's ready list (06, R146; 13, R337). -/
def State.deliverLaunch (s : State) (core : Nat) (pc arg : Word) (sc : Scope) : State :=
  (s.putSpad core launchFolio (folioImage pc arg 0 3)).placeReady core
    { handle := folioHandle core launchFolio, pri := 0, acq := some sc, home := core, holds := [], cont := false
      launch := true, bad := false }
/-- `LAUNCH_TREE_DELIVERY`: the oldest tree message for core `turn.core` reaches it. -/
def execLaunchTreeDelivery (s : State) : Host.Outcome State Fault Refusal :=
  let n := s.turn.core
  match s.tree.findIdx? fun m => m.lo ≤ n && n < m.hi with
  | none => .next s
  | some i =>
    match s.tree[i]? with
    | none => .next s
    | some m =>
      if (s.core n).undelivered then .next s
      else
        let parts := [{ m with hi := n }, { m with lo := n + 1 }].filter fun x => x.lo < x.hi
        let t : State := { s with tree := s.tree.take i ++ parts ++ s.tree.drop (i + 1) }
        .next (t.deliverLaunch n m.pc m.arg m.acq)

end Sys2Proof.Machine
end

