-- ==== Sys2Proof/Machine/Worklist.lean ====
section
/-! DEFINITION. The ordered worklist: attachment, slots and spills, the low, pushes and pops, the balancer and
termination (06, R160 to R164; 13, R352 to R365; 19, R455, R456). -/

namespace Sys2Proof.Machine

/-- A check whose own exception is reported as `e`. A wait stays a wait, and the walker counts what it counts. -/
def orElse {α : Type} (e : Exc) (x : M α) : M α := fun s =>
  match x s with
  | .error (.exc (.trap _ _)) | .error (.exc (.upcall _ _)) => .error (.exc e)
  | .error (.badWalk _) => .error (.badWalk e)
  | r => r

/-! ### Worklists, entries and the spill area -/

def State.wl? (s : State) (wid : Nat) : Option Worklist := (s.wls.find? fun x => x.1 = wid).map fun x => x.2
def State.setWl (s : State) (wid : Nat) (w : Worklist) : State := { s with wls := mapPut s.wls wid w }
def State.onWl (s : State) (wid : Nat) (f : Worklist → Worklist) : State :=
  match s.wl? wid with | some w => s.setWl wid (f w) | none => s
def Worklist.slot (w : Worklist) (q : Nat) : Slot := mapGet w.slots q ⟨0, [], []⟩
def Worklist.setSlot (w : Worklist) (q : Nat) (x : Slot) : Worklist := { w with slots := mapPut w.slots q x }
def Worklist.bucket (w : Worklist) (e : Entry) : Nat := e.pri / 2 ^ w.shift
def Worklist.bucketOf (w : Worklist) (x : Nat × Entry) : Nat := w.bucket x.2
def Entry.bytes (e : Entry) : List Byte := toBytes 4 e.pri ++ toBytes 4 e.kind ++ toBytes 8 e.arg.toNat
def Entry.ofBytes (b : List Byte) : Entry := ⟨fieldAt b 0 4, fieldAt b 4 4, wordOf ((b.drop 8).take 8)⟩
/-- Something joins a list that is kept in the order of pushes. -/
def insertAge {α : Type} (x : Nat × α) : List (Nat × α) → List (Nat × α)
  | [] => [x]
  | y :: r => if x.1 < y.1 then x :: y :: r else y :: insertAge x r
/-- The part reads or writes bytes at their home, as `.unc`, through a binding. -/
def State.partLoad (s : State) (b pa n : Nat) : State × List Byte := s.uncLoad (s.homeBinding b pa) pa n
def State.partStore (s : State) (b pa : Nat) (bs : List Byte) : State := s.uncStore (s.homeBinding b pa) none pa (storeBytes bs)
/-- The canonical address of a place in the spill area, and its binding. -/
def Worklist.spillAddr (w : Worklist) (i : Nat) : Nat × Nat :=
  let page := w.spill.getD (i / 256) (0, 0)
  (page.1 + i % 256 * 16, page.2)
/-- A spilled entry as it stands in the spill area. -/
def State.spilled (s : State) (w : Worklist) (i : Nat) : Entry :=
  let p := w.spillAddr i
  .ofBytes (s.partLoad p.2 p.1 16).2
/-- Free places of the spill area, lowest first. -/
def Worklist.freePlaces (w : Worklist) (n : Nat) : List Nat :=
  let used := w.slots.flatMap fun x => x.2.spill.map fun y => y.2
  ((List.range (Nat.min (w.spill.length * 256) (used.length + n))).filter fun i => !used.contains i).take n
/-- Entries of a slot go to the spill area; none when it has no room for them (13, R357). -/
def State.spillOut (s : State) (wid q : Nat) (es : List (Nat × Entry)) : Option State :=
  match s.wl? wid with
  | none => none
  | some w =>
    let at' := w.freePlaces es.length
    if at'.length < es.length then none
    else
      let put (t : State) (x : Nat × Nat × Entry) : State :=
        let p := w.spillAddr x.1
        t.partStore p.2 p.1 x.2.2.bytes
      let x := w.slot q
      let spill := (at'.zip es).foldl (fun l (i, e) => insertAge (e.1, i) l) x.spill
      some (((at'.zip es).foldl put s).setWl wid (w.setSlot q { x with spill := spill }))
def Worklist.capacity (w : Worklist) : Nat := w.cap * 512

/-- The slot that a core of a quire pushes to and pops from first (13, R356, R362). -/
def Worklist.slotOf (w : Worklist) (q : Nat) : Nat :=
  if w.place.contains q then q
  else match w.place.find? fun r => quireDie r = quireDie q with
    | some r => r
    | none => w.place.headD 0

/-- An entry enters a slot (13, R357; 19, R455), and whether it did so without going to the spill area; none when it must
spill and cannot. -/
def State.slotPush (s : State) (wid q : Nat) (e : Nat × Entry) : Option (State × Bool) :=
  match s.wl? wid with
  | none => none
  | some w =>
    let b := w.bucketOf e
    let x := w.slot q
    let enter (t : State) : State × Bool :=
      (t.onWl wid fun w => let y := w.slot q; w.setSlot q { y with entries := insertAge e y.entries }, true)
    let spill (t : State) : Option (State × Bool) := (t.spillOut wid q [e]).map fun t => (t, false)
    let setWb (t : State) (b : Nat) : State := t.onWl wid fun w => let y := w.slot q; w.setSlot q { y with wb := b }
    if x.entries.isEmpty && x.spill.isEmpty then some (enter (setWb s b))
    else if x.wb + 63 < b then spill s
    else
      let down : Option State :=
        if b < x.wb then
          let t := s.onWl wid fun w => w.setSlot q { x with entries := x.entries.filter fun k => w.bucketOf k ≤ b + 63 }
          (t.spillOut wid q (x.entries.filter fun k => b + 63 < w.bucketOf k)).map fun t => setWb t b
        else some s
      down.bind fun t =>
        let y := match t.wl? wid with | some w => w.slot q | none => x
        if y.spill.any fun i => w.bucket (t.spilled w i.2) = b then spill t
        else if y.entries.length < w.capacity then some (enter t)
        else
          let top := (y.entries.map w.bucketOf).foldl Nat.max 0
          if top ≤ b then spill t
          else
            let u := t.onWl wid fun w => w.setSlot q { y with entries := y.entries.filter fun k => w.bucketOf k ≠ top }
            (u.spillOut wid q (y.entries.filter fun k => w.bucketOf k = top)).map enter

/-- The buckets that a slot holds, in the slot or in the spill area. -/
def State.slotBuckets (s : State) (w : Worklist) (x : Slot) : List Nat :=
  x.entries.map w.bucketOf ++ x.spill.map fun i => w.bucket (s.spilled w i.2)
def least : List Nat → Option Nat
  | [] => none
  | b :: r => some (r.foldl Nat.min b)
/-- Spilled entries whose buckets lie in the window return, oldest first, as room allows (13, R357). -/
def State.spillReturn (s : State) (wid q : Nat) : List (Nat × Nat) → State
  | [] => s
  | i :: r =>
    match s.wl? wid with
    | none => s
    | some w =>
      let x := w.slot q
      let e := s.spilled w i.2
      let gone : Slot := { x with spill := x.spill.filter fun j => j ≠ i }
      if x.wb ≤ w.bucket e && w.bucket e ≤ x.wb + 63 && x.entries.length < w.capacity then
        (s.setWl wid (w.setSlot q { gone with entries := insertAge (i.1, e) gone.entries })).spillReturn wid q r
      else s.spillReturn wid q r
/-- The slot after an entry of bucket `b` has left it: its window moves when its lowest bucket has emptied, and spilled entries
return. A spilled entry whose KIND the record does not have is discarded, and leaves the slot likewise (13, R357; 19, R455). -/
def State.settleSlot (s : State) (wid q b : Nat) : Nat → State
  | 0 => s
  | n + 1 =>
    match s.wl? wid with
    | none => s
    | some w =>
      let x := w.slot q
      let held := s.slotBuckets w x
      let stands := held.contains b || x.entries.any fun e => w.bucketOf e < b
      let y := if stands then x else { x with wb := (least held).getD x.wb }
      match x.spill.find? fun i => w.kinds.length ≤ (s.spilled w i.2).kind with
      | some i =>
        (s.setWl wid { w.setSlot q { y with spill := y.spill.filter fun j => j ≠ i } with taken := w.taken + 1 }).settleSlot
          wid q (w.bucket (s.spilled w i.2)) n
      | none => (s.setWl wid (w.setSlot q y)).spillReturn wid q y.spill
def State.slotSettle (s : State) (wid q b : Nat) : State :=
  match s.wl? wid with
  | none => s
  | some w => s.settleSlot wid q b ((w.slot q).spill.length + 1)

/-! ### The low (13, R358 to R361) -/

/-- Tasks waiting in the queues of granules that a core's contexts hold (13, R360; 07, R180). -/
def State.waitersOf (s : State) (core : Nat) : List Nat :=
  (s.granules.filter fun g => match g.holder with | some (a, _) => a.core = core | none => false).flatMap fun g =>
    g.queue.filterMap fun w => match w with
      | .request a _ => some a.core
      | .store _ | .forward _ | .copy _ | .engine _ _ | .remote _ _ => none
/-- Holds of worklist `wid`: of tasks, of pending tasks, of kettles, and of tasks saved out. -/
def State.holdsOf (s : State) (wid : Nat) : List Nat :=
  let of' (l : List (Nat × Nat)) : List Nat := l.filterMap fun x => if x.1 = wid then some x.2 else none
  (s.cores.flatMap fun c =>
    (of' c.2.hold).map (fun b => (s.waitersOf c.1).foldl (fun m k => (of' (s.core k).hold).foldl Nat.min m) b)
      ++ of' (c.2.ready.flatMap fun p => p.holds) ++ (match c.2.next with | some p => of' p.holds | none => []))
  ++ (s.quires.flatMap fun q => q.2.kaux.flatMap fun k => of' k.2.holds)
  ++ of' (s.parked.map fun x => x.2)
/-- Entries of a worklist, by slot: those in slots, those spilled, and those that the balancer offers. -/
def State.entriesOf (s : State) (w : Worklist) : List Nat :=
  (w.slots.flatMap fun x => s.slotBuckets w x.2) ++ w.giving.map fun g => w.bucket g.entry
/-- Pushes and donations that have issued and not yet been entered, with whether they donate. -/
def State.issuedOf (s : State) (wid : Nat) : List (Nat × Bool) :=
  s.cores.flatMap fun c => c.2.ctxs.toList.filterMap fun k =>
    match k.counts with | some (w, b, d) => if w = wid then some (b, d) else none | none => none
/-- The contributions to the low (13, Table 13.10). -/
def State.contributions (s : State) (wid : Nat) : List Nat :=
  match s.wl? wid with
  | none => []
  | some w => s.entriesOf w ++ s.holdsOf wid ++ w.donated.map (fun d => d.2.2.2) ++ (s.issuedOf wid).map fun x => x.1
/-- V at a quire's agent (13, R361). -/
def Worklist.view (w : Worklist) (q : Nat) : Option Nat := mapGet w.lows q w.low
/-- The least of V and a bucket. -/
def lowerTo (low : Option Nat) (b : Nat) : Option Nat :=
  match low with | some v => some (Nat.min v b) | none => some b
/-- V is at or below a bucket. -/
def atMost (v : Option Nat) (b : Nat) : Bool := match v with | some v => v ≤ b | none => false
/-- Every agent's V is at or below a bucket. -/
def Worklist.lowered (w : Worklist) (b : Nat) : Worklist :=
  { w with low := lowerTo w.low b, lows := w.lows.map fun x => (x.1, lowerTo x.2 b) }
/-- The quires to whose agents a lowering is still on its way. -/
def State.lowsDue (s : State) (wid : Nat) : List Nat :=
  match s.wl? wid, least (s.contributions wid) with
  | some w, some m => s.service.filter fun q => !atMost (w.view q) m
  | _, _ => []
/-- `LOW_LOWERING_BROADCAST`: the lowering of worklist `turn.unit` reaches the agent of quire `turn.index`. -/
def execLowLoweringBroadcast (s : State) : Host.Outcome State Fault Refusal :=
  match least (s.contributions s.turn.unit) with
  | some m => .next (s.onWl s.turn.unit fun w => { w with lows := mapPut w.lows s.turn.index (lowerTo (w.view s.turn.index) m) })
  | none => .next s

/-! ### Attachment (13, R352 to R356) -/

/-- The identity of a record: the canonical address of an address on this device (13, R352); and its page's binding. -/
def recordPlace (va : Word) : M (Nat × Nat) := do
  match ← checkAccess va 8 .load with
  | .hbm pa b => return (pa, b)
  | _ => trap 0x01 va
/-- A check of a field of the record: trap 0x01 with the field's address. -/
def field (wq : Word) (off : Nat) (ok : Bool) : M Unit := need ok (.trap 0x01 (wq + BitVec.ofNat 64 off))
/-- A partner's queue or record on a remote page: its device and physical address. -/
def partnerPlace (wq : Word) (off : Nat) (va : Word) : M (Nat × Nat) := do
  let e := Exc.trap 0x01 (wq + BitVec.ofNat 64 off)
  match ← orElse e (checkAccess va 8 .load) with
  | .remote d pa => return (d, pa)
  | _ => raiseExc e
def partners (wq : Word) (r : List Byte) (base : Nat) : Nat → M (List (Nat × Nat))
  | 0 => return []
  | n + 1 => do
    let l ← partners wq r base n
    return l ++ [← partnerPlace wq (base + 8 * n) (wordOf ((r.drop (base + 8 * n)).take 8))]
/-- The spill pages pass checks 1 to 9 as stores, in rising order, on this device (13, R354). -/
def spillPages (wq va : Word) : Nat → M (List (Nat × Nat))
  | 0 => return []
  | n + 1 => do
    let l ← spillPages wq va n
    let e := Exc.trap 0x01 (wq + 0x10)
    match ← orElse e (checkAccess (va + BitVec.ofNat 64 (4096 * n)) 8 .store) with
    | .hbm pa b => return l ++ [(pa, b)]
    | _ => raiseExc e
/-- The shares that hold the slot of a quire (13, R356). -/
def State.slotShares (s : State) (q n : Nat) : List Nat :=
  (((List.range 96).map fun i => q * 96 + (95 - i)).filter fun c => (s.core c).shares[29] = .own).take n
/-- Attaching the record at `wq`, whose identity is `at'` and whose bytes are `r`: its worklist number. The kind table is read
before the record is validated, where its address and its length are valid (13, R352). -/
def attachFrom (wq : Word) (at' : Nat × Nat) (r : List Byte) : M Nat := do
  let sys := fieldAt r 0 1 = 4
  let npart := fieldAt r 3 1
  let nkind := fieldAt r 4 2
  let cap := if fieldAt r 6 1 = 0 then 16 else fieldAt r 6 1
  let spill := fieldAt r 0x10 8
  let pages := fieldAt r 0x18 4
  let thr := fieldAt r 0x1C 4
  let kindsAt := wordOf ((r.drop 8).take 8)
  let ks ← if kindsAt.toNat % 8 = 0 && 1 ≤ nkind && nkind ≤ 256 then readDoubles 64 kindsAt nkind else pure []
  field wq 0 (fieldAt r 0 1 = 0 || sys)
  field wq 1 (fieldAt r 1 1 ≤ 24)
  field wq 2 (fieldAt r 2 1 ≤ 63)
  field wq 3 (npart ≤ 4 && (sys || npart = 0))
  field wq 4 (1 ≤ nkind && nkind ≤ 256)
  field wq 6 (cap ≤ 16)
  field wq 7 (fieldAt r 7 1 = 0)
  field wq 8 (kindsAt.toNat % 8 = 0)
  field wq 0x10 (spill % 4096 = 0)
  let good := if spill = 0 then pages = 0 else 1 ≤ pages && pages ≤ 2 ^ 20
  let sp ← if spill ≠ 0 && good then spillPages wq (BitVec.ofNat 64 spill) pages else pure []
  field wq 0x18 good
  field wq 0x1C (thr ≤ cap * 512)
  let pq ← partners wq r 0x20 (if npart ≤ 4 then npart else 0)
  for i in List.range 4 do field wq (0x20 + 8 * i) (i < npart || zeroAt r (0x20 + 8 * i) 8)
  let prec ← partners wq r 0x40 (if npart ≤ 4 then npart else 0)
  for i in List.range 4 do
    field wq (0x40 + 8 * i) (if i < npart then (pq.getD i (0, 0)).1 = (prec.getD i (0, 0)).1 else zeroAt r (0x40 + 8 * i) 8)
  let s ← get
  let bit (q : Nat) : Bool := bitsOf (r.drop 0x60) q 1 = 1
  field wq 0x60 ((List.range 192).all fun i => !bit i || s.service.contains i)
  field wq 0x78 (zeroAt r 0x78 8)
  let place := (List.range 192).filter bit
  let place := if place.isEmpty then s.service else place
  let kinds := (List.range nkind).map fun k => wordOf ((ks.drop (8 * k)).take 8)
  for (e, k) in kinds.zipIdx do
    need (!e.getLsbD 0 && e.toNat < 0x0100000000000000) (.trap 0x01 (kindsAt + BitVec.ofNat 64 (8 * k)))
  let s ← get
  match (List.range 16).find? fun i => (s.wl? i).isNone with
  | none => trap 0x01 wq
  | some wid => do
    let shares := place.flatMap fun q => s.slotShares q cap
    need (shares.length = place.length * cap) (.trap 0x0B wq)
    let w : Worklist :=
      { record := at'.1, bind := at'.2, sys := sys, shift := fieldAt r 1 1, lead := fieldAt r 2 1, kinds := kinds, cap := cap
        spill := sp, balthr := if thr = 0 then cap * 384 else thr, pq := pq, prec := prec, place := place
        slots := place.map fun q => (q, ⟨0, [], []⟩), regs := [], born := 0, low := none, lows := [], donated := []
        giving := [], offer := none, offerTries := 0, nextPartner := 0, pushed := 0, taken := 0, dsent := 0, dclaim := 0, sweeps := 0, status := 0, last := none
        asks := [], found := none }
    let t := shares.foldl (fun t c => t.onCore c fun x => { x with shares := x.shares.set 29 (.work wid) }) s
    set (t.setWl wid w)
    return wid
def attach (wq : Word) (at' : Nat × Nat) : M Nat := do attachFrom wq at' (← readDoubles 16 wq 32)
/-- The worklist of an operand: alignment first, then the record, attached where it is not yet (06, R160). -/
def worklist (wq : Word) : M Nat := do
  need (wq.toNat % 256 = 0) (.trap 0x03 wq)
  let p ← recordPlace wq
  match (← get).wls.find? fun x => x.2.record = p.1 with
  | some x => return x.1
  | none => attach wq p

/-! ### Pushes (06, R161) -/

/-- An entry enters a worklist from a quire: none when it has no room (13, R357, R365). One that enters the slot wakes an
idle core of the slot's quire (13, R341). -/
def State.wlEnter (s : State) (wid q : Nat) (e : Entry) : Option State :=
  match s.wl? wid with
  | none => none
  | some w =>
    let slot := w.slotOf q
    (s.slotPush wid slot (w.born, e)).map fun (t, inSlot) =>
      let u := t.onWl wid fun w =>
        { w with pushed := w.pushed + 1, born := w.born + 1, status := if w.status = 1 then 0 else w.status }
      if inSlot then u.wakeFirst ((List.range 96).map fun i => slot * 96 + i) 1 else u
/-- What counts toward the low from the issue of an instruction stays counted while a computation waits (13, R358). -/
def counting {α : Type} (c : Nat × Nat × Bool) (x : M α) : M α := fun s =>
  let t := s.onMyCtx fun k => { k with counts := some c }
  match x t with
  | .error (.exc (.wait on)) => .error (.done (t.deliver (.wait on)))
  | r => r
/-- An entry has been entered, or is about to be sent on: its lowering is on its way to the agents. -/
def post (wid b : Nat) : M Unit := modify fun s => s.onMyCtx fun c => { c with posted := some (wid, some b) }
/-- The instruction goes on once its lowering has reached every agent (13, R361): every V lies at or below its entry, or an epoch
has set every V since. -/
def awaitLow : M Unit := do
  let s ← get
  match s.myCtx.posted with
  | none => pure ()
  | some (wid, due) =>
    let settled : Bool := match due, s.wl? wid with
      | some b, some w => s.service.all fun q => atMost (w.view q) b
      | _, _ => true
    if settled then modify fun s => s.onMyCtx fun c => { c with posted := none } else holdHere
def Worklist.scope (w : Worklist) : Scope := if w.sys then .sys else .dev
/-- `wl.push`. -/
def execWlPush (q a b : Reg) (s : State) := M.run (do
  barPhase
  let wq ← readW q
  let x ← readW a
  let arg ← readW b
  let wid ← worklist wq
  if (← get).myCtx.posted.isNone then do
    let some w := (← get).wl? wid | trap 0x01 wq
    let e : Entry := ⟨(x.extractLsb' 0 32).toNat, (x.extractLsb' 32 32).toNat, arg⟩
    need (e.kind < w.kinds.length) (.trap 0x01 (BitVec.ofNat 64 e.kind))
    counting (wid, w.bucket e, false) (release w.scope)
    match (← get).wlEnter wid s.myQuire e with
    | some t => set (t.onMyCtx fun c => { c with counts := none })
    | none => trap 0x0B wq
    post wid (w.bucket e)
  awaitLow) s

/-! ### Pops (06, R162; 13, R362) -/

/-- The slots that a pop searches, in order. -/
def Worklist.popOrder (w : Worklist) (q : Nat) : List Nat :=
  let own := w.slotOf q
  own :: ((quireOrder q).filter fun r => w.place.contains r && r ≠ own)
def Worklist.within (w : Worklist) (q b : Nat) : Bool := match w.view q with | some v => b ≤ v + w.lead | none => true
/-- The entries of slot `r`, in the slot or in the spill area, in the order of their pushes; those to discard are not among them. -/
def State.heldBy (s : State) (w : Worklist) (r : Nat) : List (Nat × Entry) :=
  let x := w.slot r
  (x.spill.map fun i => (i.1, s.spilled w i.2)).foldl
    (fun l e => if w.kinds.length ≤ e.2.kind then l else insertAge e l) x.entries
/-- The oldest entry of slot `r`'s lowest bucket within the bound at quire `q`. -/
def State.front (s : State) (w : Worklist) (q r : Nat) : Option (Nat × Entry) :=
  let es := s.heldBy w r
  match least (es.map w.bucketOf) with
  | none => none
  | some b => if w.within q b then es.find? fun e => w.bucketOf e = b else none
/-- The slot and the entry that a pop takes. -/
def State.search (s : State) (w : Worklist) (q : Nat) : Option (Nat × Nat × Entry) :=
  (w.popOrder q).findSome? fun r => (s.front w q r).map fun e => (r, e)
/-- The entry leaves its slot, and a task that holds its bucket will start (13, R357, R359, R361). -/
def State.popEntry (s : State) (wid q : Nat) (e : Nat × Entry) : State :=
  let t := s.onWl wid fun w =>
    let x := w.slot q
    let gone : Slot := { x with entries := x.entries.erase e, spill := x.spill.filter fun i => i.1 ≠ e.1 }
    { (w.setSlot q gone).lowered (w.bucketOf e) with taken := w.taken + 1 }
  match t.wl? wid with
  | some w => t.slotSettle wid q (w.bucketOf e)
  | none => t
/-- The task of a popped entry: its folio on a core, and what is pending for it (06, R162). -/
def State.popFolioAt (s : State) (core wid : Nat) (w : Worklist) (e : Entry) : State × Pending :=
  (s.putSpad core popFolio (folioImage (w.kinds.getD e.kind 0) e.arg e.pri 0xB),
    { handle := folioHandle core popFolio, pri := e.pri, acq := some w.scope, home := core
      holds := [(wid, w.bucket e)], cont := false, launch := false, bad := false })
/-- `wl.pop`. -/
def execWlPop (d q : Reg) (s : State) := M.run (do
  controlOnly
  barPhase
  let wq ← readW q
  let wid ← worklist wq
  let some w := (← get).wl? wid | trap 0x01 wq
  match (← get).search w s.myQuire with
  | none =>
    let any := !((← get).entriesOf w).isEmpty
    writeW d (if any then 2 else if w.status = 1 then 3 else 1)
  | some _ => do
    let ket ← runningKet
    publish
    releaseHolds
    endDecrement ket .pop
    let s ← get
    let w := (s.wl? wid).getD w
    match s.search w s.myQuire with
    | none => waitHere
    | some (r, e) => do
      let t := s.popEntry wid r e
      let (u, p) := t.popFolioAt t.cur wid w e.2
      set (u.placeNext u.cur p)
      endTask) s
/-- Source 4 of R339: a core with no task takes an entry of an attached worklist. -/
def State.sourcePop (s : State) (core : Nat) : Option State :=
  s.wls.findSome? fun (wid, w) =>
    if w.place.contains (quireOf core) then
      (s.search w (quireOf core)).map fun (r, e) =>
        let (t, p) := (s.popEntry wid r e).popFolioAt core wid w e.2
        t.startPending core [] p
    else none
/-- `wl.low` (06, R163). -/
def execWlLow (d q : Reg) (s : State) := M.run (do
  barPhase
  let wid ← worklist (← readW q)
  match (← get).wl? wid with
  | some w => writeW d (match w.view s.myQuire with | some b => BitVec.ofNat 64 b | none => BitVec.allOnes 64)
  | none => pure ()) s

/-! ### Sweeps and termination (13, R355, R364, R365) -/

/-- The least V of the agents. -/
def State.leastView (s : State) (w : Worklist) : Option Nat := least (s.service.filterMap w.view)
/-- STATUS is written at the record's home (13, Table 13.9). Its LOW is the least V of the agents (log 57), or all ones when
nothing is counted. -/
def State.writeStatus (s : State) (wid : Nat) : State :=
  match s.wl? wid with
  | none => s
  | some w =>
    let low := if (s.contributions wid).isEmpty then 0xFFFFFFFF else (s.leastView w).getD 0xFFFFFFFF
    let bs := toBytes 8 w.pushed ++ toBytes 8 w.taken ++ toBytes 8 w.dsent ++ toBytes 8 w.dclaim
      ++ toBytes 4 low ++ toBytes 1 w.status ++ toBytes 1 wid ++ toBytes 2 0 ++ toBytes 8 w.sweeps
      ++ List.replicate 80 0
    s.partStore w.bind (w.record + 0x80) bs
/-- Every local count is zero: entries, holds, unsettled pushes and donations (13, R364). -/
def State.countsZero (s : State) (wid : Nat) : Bool :=
  (s.contributions wid).isEmpty
    && !(s.cores.any fun c => c.2.ctxs.toList.any fun k => match k.posted with | some p => p.1 = wid | none => false)
/-- Two agreeing sweeps (13, R364). -/
def sweepsAgree (sys : Bool) (a b : Sweep) (dsent dclaim : Nat) : Bool :=
  a.quiet && b.quiet && a.pushed = b.pushed && a.taken = b.taken && b.pushed = b.taken
    && (!sys || (a.seen.length = b.seen.length
      && ((a.seen.zip b.seen).all fun (x, y) => x.state = 1 && y.state = 1 && x.sweep < y.sweep
        && { x with sweep := 0 } = { y with sweep := 0 })
      && (b.seen.map fun y => y.dsent).foldl (· + ·) dsent = (b.seen.map fun y => y.dclaim).foldl (· + ·) dclaim))
/-- The registered kettles take their decrements (06, R164). No core issues them: where one meets an uncorrectable kettle the
first core of the kettle's quire takes the imprecise error (log 95). -/
def State.fireRegs (s : State) (wid : Nat) (w : Worklist) : State :=
  let t := s.onWl wid fun w => { w with regs := [] }
  w.regs.foldl (fun t h => (t.decrement h (kettleQuire h * 96) .finish w.scope []).1) t
/-- A sweep ends: its counts are compared with the one before, and STATUS is written. -/
def State.endSweep (s : State) (wid : Nat) : State :=
  match s.wl? wid with
  | none => s
  | some w =>
    match w.found with
    | none => s
    | some now =>
      -- nothing was pushed, taken or begun while the partners answered
      let stands := s.countsZero wid && w.pushed = now.pushed && w.taken = now.taken
      let agree := w.status ≠ 2 && stands &&
        match w.last with | some old => sweepsAgree w.sys old now w.dsent w.dclaim | none => false
      let t := s.setWl wid { w with
        last := some now, found := none, asks := [], sweeps := w.sweeps + 1, status := if agree then 1 else w.status }
      let u := t.writeStatus wid
      if agree then u.fireRegs wid w else u
/-- `WORKLIST_SWEEP`: a sweep of worklist `turn.unit` begins; a `.sys` worklist's waits for its partners' answers. -/
def execWorklistSweep (s : State) : Host.Outcome State Fault Refusal :=
  let wid := s.turn.unit
  match s.wl? wid with
  | none => .next s
  | some w =>
    let n := w.pq.length
    if w.found.isSome || s.freeBuffers < 2 * n then .next s
    else
      let t := s.setWl wid { w with
        found := some ⟨s.countsZero wid, w.pushed, w.taken, List.replicate n ⟨0, 0, 0, 0, 0, 0⟩⟩
        asks := (List.range n).flatMap fun i => [⟨i, true, 0⟩, ⟨i, false, 0⟩] }
      .next (if n = 0 then t.endSweep wid else w.pq.foldl (fun t x => (t.post x.1 2 1).post x.1 2 1) t)
/-- A read of a sweep has got no reply in time: its partner is lost (13, R365). -/
def State.partnerSilent (s : State) (wid partner : Nat) : State :=
  match s.wl? wid with
  | none => s
  | some w =>
    let dev := (w.pq.getD partner (0, 0)).1
    let w1 := { w with
      status := 2, asks := w.asks.filter fun a => a.partner ≠ partner
      donated := w.donated.filter fun d => d.1 ≠ dev }
    let t := s.setWl wid w1
    if w1.asks.isEmpty then t.endSweep wid else t
/-- The answer to a read that a sweep made at a partner. -/
def State.sweepAnswer (s : State) (wid : Nat) (a : SweepAsk) (bs : List Byte) : State :=
  match s.wl? wid with
  | none => s
  | some w =>
    let asks := w.asks.erase a
    let w1 := { w with asks := asks }
    let w2 :=
      if a.head then
        let at' := w.pq.getD a.partner (0, 0)
        { w1 with donated := w.donated.filter fun d => !((d.1, d.2.1) = at' && d.2.2.1 < fieldAt bs 0 8) }
      else
        let seen : Seen := ⟨fieldAt bs 0 8, fieldAt bs 8 8, fieldAt bs 0x10 8, fieldAt bs 0x18 8, fieldAt bs 0x24 1, fieldAt bs 0x28 8⟩
        { w1 with found := w.found.map fun f => { f with seen := f.seen.set a.partner seen } }
    let t := s.setWl wid w2
    if asks.isEmpty then t.endSweep wid else t
/-- `PARTNER_READ_TIMEOUT`: partner `turn.index` of worklist `turn.unit` has not answered in time (13, R365). -/
def execPartnerReadTimeout (s : State) : Host.Outcome State Fault Refusal :=
  let wid := s.turn.unit
  match s.wl? wid with
  | none => .next s
  | some w =>
    .next (if w.asks.any fun a => a.partner = s.turn.index then s.partnerSilent wid s.turn.index else s)

/-- A registration waits for the next two agreeing sweeps: none that has begun counts (06, R164). -/
def Worklist.register (w : Worklist) (h : W32) : Worklist :=
  { w with regs := w.regs ++ [h], last := none, found := w.found.map fun f => { f with quiet := false } }
/-- `wl.done` (06, R164; 13, R365). The `tval` of a fifth registration's trap is wk, which R164 does not state (log 95). -/
def execWlDone (q k : Reg) (s : State) := M.run (do
  controlOnly
  barPhase
  let wq ← readW q
  let wk ← readW k
  let wid ← worklist wq
  let some w := (← get).wl? wid | trap 0x01 wq
  match ← kettleOperand wk with
  | some h => do
    need (w.regs.length < 4) (.trap 0x01 wk)
    modify fun s => s.onWl wid fun w => w.register h
  | none => do
    need (w.status = 1 || (w.status = 2 && (← get).countsZero wid)) (.trap 0x01 wq)
    modify fun s =>
      let t := (s.onWl wid fun w => { w with sweeps := w.sweeps + 1 }).writeStatus wid
      let u := t.cores.foldl (fun u c =>
        if c.2.shares[29] = .work wid then
          u.onCore c.1 fun x =>
            { x with shares := x.shares.set 29 .own, spad := Memory.clear x.spad (29 * 0x2000) 0x2000
                     bad := x.bad.filter fun d => d / 1024 ≠ 29 }
        else u) t
      { u with wls := u.wls.filter fun x => x.1 ≠ wid }) s

/-! ### Epochs and the balancer (13, R361, R363) -/

/-- The entries that a slot gives away in an epoch: oldest first from its highest buckets at or above the limit. -/
def Worklist.excess (w : Worklist) (q : Nat) (x : Slot) (room : Nat) : List (Nat × Entry) :=
  if x.entries.length ≤ w.balthr then []
  else
    let limit := (w.view q).getD 0 + w.lead / 2
    let buckets := ((List.range 64).map fun i => x.wb + 63 - i).filter fun b => limit ≤ b
    (buckets.flatMap fun b => x.entries.filter fun e => w.bucketOf e = b).take (Nat.min 16 room)
/-- Donations that a worklist has outstanding, of at most 256 (13, R363). -/
def State.donations (s : State) (wid : Nat) (w : Worklist) : Nat :=
  w.donated.length + w.giving.length + ((s.issuedOf wid).filter fun x => x.2).length
/-- The first entry that the balancer gives away is offered to the partner after the one used last. -/
def State.startOffer (s : State) (wid : Nat) : State :=
  match s.wl? wid with
  | none => s
  | some w =>
    if w.offer.isSome || w.giving.isEmpty || w.pq.isEmpty || s.freeBuffers = 0 then s
    else
      let n := w.nextPartner % w.pq.length
      (s.setWl wid { w with offer := some (n, []), offerTries := 0 }).post (w.pq.getD n (0, 0)).1 2 1
/-- The slots over their threshold give entries away (13, R363). -/
def State.balance (s : State) (wid : Nat) : List (Nat × Slot) → State
  | [] => s.startOffer wid
  | (q, _) :: r =>
    match s.wl? wid with
    | none => s
    | some w =>
      let x := w.slot q
      let es := w.excess q x (256 - s.donations wid w)
      let t := s.setWl wid { w.setSlot q { x with entries := es.foldl (fun l e => l.erase e) x.entries } with
        giving := w.giving ++ es.map fun e => ⟨q, e.1, e.2⟩ }
      (es.foldl (fun t e => t.slotSettle wid q (w.bucketOf e)) t).balance wid r
/-- `WORKLIST_EPOCH`: V of worklist `turn.unit` becomes the least contribution at every agent; a rise wakes every idle core
of the placed quires once (13, R341, R361). -/
def execWorklistEpoch (s : State) : Host.Outcome State Fault Refusal :=
  let wid := s.turn.unit
  match s.wl? wid with
  | none => .next s
  | some w =>
    let m := least (s.contributions wid)
    let rises (q : Nat) : Bool := match w.view q, m with | some v, some b => decide (v < b) | some _, none => true | none, _ => false
    let reached (k : Ctx) : Ctx := { k with posted := k.posted.map fun p => if p.1 = wid then (p.1, none) else p }
    let s1 : State := { s with cores := s.cores.map fun c => (c.1, { c.2 with ctxs := c.2.ctxs.map reached }) }
    let t := s1.setWl wid { w with low := m, lows := [] }
    let u := if s.service.any rises then
        t.wakeFirst (w.place.flatMap fun q => (List.range 96).map fun i => q * 96 + i) (w.place.length * 96) else t
    .next (if w.pq.isEmpty || !u.fabricOn then u else u.balance wid w.slots)
/-- An entry goes back to the slot that it came from, in the order of its push. -/
def State.giveBack (s : State) (wid : Nat) (g : Give) : State :=
  match s.slotPush wid g.slot (g.age, g.entry) with
  | some (t, _) => t
  | none => s.onWl wid fun w =>
      let x := w.slot g.slot
      w.setSlot g.slot { x with entries := insertAge (g.age, g.entry) x.entries }
/-- A partner has answered the offer of the first entry: it was appended at an index, or the queue was full. When every
partner's is, the balancer stops, and what it has not given away goes back (13, R363). -/
def State.giveAnswer (s : State) (wid : Nat) (index : Option Nat) : State :=
  match s.wl? wid with
  | none => s
  | some w =>
    match w.giving, w.offer with
    | g :: rest, some (goal, full) =>
      match index with
      | some k =>
        let at' := w.pq.getD goal (0, 0)
        let b := w.bucket g.entry
        (s.setWl wid { w.lowered b with
          giving := rest, offer := none, nextPartner := goal + 1, dsent := w.dsent + 1, taken := w.taken + 1
          donated := w.donated ++ [(at'.1, at'.2, k, b)] }).startOffer wid
      | none =>
        let full := goal :: full
        if full.length < w.pq.length then
          let next := (goal + 1) % w.pq.length
          (s.setWl wid { w with offer := some (next, full), offerTries := 0 }).post (w.pq.getD next (0, 0)).1 2 1
        else w.giving.foldl (fun t g => t.giveBack wid g) (s.setWl wid { w with giving := [], offer := none })
    | _, _ => s
/-- An offer that no answer came to has left its slot, and is not entered again (13, R363). -/
def State.giveLost (s : State) (wid : Nat) : State :=
  match s.wl? wid with
  | none => s
  | some w =>
    match w.giving, w.offer with
    | _ :: rest, some (goal, _) =>
      (s.setWl wid { w with giving := rest, offer := none, nextPartner := goal + 1, taken := w.taken + 1 }).startOffer wid
    | _, _ => s

end Sys2Proof.Machine
end

