-- ==== Sys2Proof/Machine/Sched.lean ====
section
/-! DEFINITION. How a core without a task finds work: the sources, stealing and waking
(06, R140, R141; 13, R339, R340, R345 to R347). -/

namespace Sys2Proof.Machine

/-! ### The sources (13, R339) -/

/-- The newest entry of a core's own deque (06, R141). -/
def State.ownTail (s : State) (core : Nat) : Option (DqEntry × State) :=
  let t := s.refill core
  match (t.core core).deque.h.getLast? with
  | none => none
  | some e => some (e, (t.onCore core fun c => { c with deque := { c.deque with h := c.deque.h.dropLast } }).refill core)
/-- The task of a deque entry. -/
def entryTask (e : DqEntry) (acq : Option Scope) (core : Nat) : Pending :=
  { handle := e.handle, pri := 0, acq := acq, home := core, holds := [], cont := false, launch := false, bad := e.bad }
/-- A core takes its next task from sources 2 to 4, or goes on to its steal probe. -/
def State.takeWork (s : State) (n : Nat) : State :=
  match s.ownTail n with
  | some (e, t) => t.startPending n e.old (entryTask e (if e.pub then some e.rel else none) n)
  | none =>
    let t := s.refill n
    match (t.core n).ready with
    | p :: r => (t.onCore n fun c => { c with ready := r }).startPending n [] p
    | [] => (t.sourcePop n).getD (t.onCore n fun c => { c with run := .probing, probes := none })
/-- A core notes what the part waits for on its behalf. -/
def State.wanting (s : State) (core : Nat) (on : List Place) : State :=
  s.onCore core fun c => { c with ctxs := c.ctxs.set 0 { c.ctxs[0] with wants := on } }
/-- `NEXT_WORK_SELECT`: core `turn.core` takes its next task from sources 1 to 4, or goes on to its steal probe. It waits
while level M of its deque is not to be reached. -/
def execNextWorkSelect (s : State) : Host.Outcome State Fault Refusal :=
  let n := s.turn.core
  let c := s.core n
  if c.run ≠ .seeking then .next s
  else match c.next with
    | some p => .next ((s.onCore n fun c => { c with next := none }).startPending n [] p)
    | none =>
      match s.readyRing n with
      | .error on => .next (s.wanting n on)
      | .ok t => .next (t.takeWork n)

/-! ### Stealing (13, R345 to R347) -/

/-- An entry admits a thief at a stage: its steal scope is at most the stage's (13, Table 13.4). -/
def State.admits (s : State) (h : W32) (most : Nat) : Bool :=
  stealScope (s.folioBytes (folioCore h) (folioOff h)) ≤ most
/-- The entries of a level whose handles pass R29, oldest first. -/
def State.goodAt (s : State) (core : Nat) (x : Lower) : List DqEntry :=
  (List.range ((s.core core).levelSize x)).filterMap fun i =>
    match s.entryAt core x i with | some (.entry e) => some e | _ => none
/-- How many published entries of a core a stage may take. -/
def State.eligible (s : State) (core most : Nat) : Nat :=
  let es := s.goodAt core .m ++ s.goodAt core .l ++ (s.core core).deque.h.filter fun e => e.pub
  (es.filter fun e => s.admits e.handle most).length
/-- The oldest entry of a level, from its `i`-th on, that the stage admits, with its place; the bad handles before it are
dropped (13, R344, R346). `n` bounds the search. The FLAGS count as they stand: an entry of steal scope 3 that lies in a lower
level, and whose scope a program lowers before it starts, may be stolen (log 97). -/
def State.seek (s : State) (core most : Nat) (x : Lower) (i : Nat) : Nat → Option (Nat × DqEntry) × State
  | 0 => (none, s)
  | n + 1 =>
    match s.entryAt core x i with
    | none => (none, s)
    | some (.entry e) => if s.admits e.handle most then (some (i, e), s) else s.seek core most x (i + 1) n
    | some bad => ((s.dropAt core x i).dropTaken core bad).seek core most x i n
/-- The oldest published entry of a core that the stage admits: the level and the place where it stands, none for H. -/
def State.stealHead (s : State) (core most : Nat) : Option (Option (Lower × Nat) × DqEntry) × State :=
  match s.seek core most .m 0 ((s.core core).levelSize .m) with
  | (some (i, e), t) => (some (some (.m, i), e), t)
  | (none, t) =>
    match t.seek core most .l 0 ((t.core core).levelSize .l) with
    | (some (i, e), u) => (some (some (.l, i), e), u)
    | (none, u) => (((u.core core).deque.h.find? fun e => e.pub && u.admits e.handle most).map fun e => (none, e), u)
/-- An entry leaves the deque (13, R343). -/
def State.withoutEntry (s : State) (core : Nat) (at' : Option (Lower × Nat)) (e : DqEntry) : State :=
  (match at' with
    | some (x, i) => s.dropAt core x i
    | none => s.onCore core fun c => { c with deque := { c.deque with h := c.deque.h.erase e } }).refill core
/-- The thief takes the victim's oldest entry that the stage admits, if it can place it; whether it did. -/
def State.trySteal (s : State) (thief victim most : Nat) : State × Bool :=
  match s.stealHead victim most with
  | (none, t) => (t, false)
  | (some (at', e), t) =>
    if t.placeable thief e.handle then
      ((t.withoutEntry victim at' e).startPending thief e.old (entryTask e (some e.rel) thief), true)
    else (t, false)
/-- The core of a quire that gives up an entry: the one with the most eligible entries, the lowest of equals. -/
def mostOf (n : Nat → Nat) : List Nat → Option Nat
  | [] => none
  | c :: r => match mostOf n r with
    | some d => if n c < n d then some d else if 0 < n c then some c else none
    | none => if 0 < n c then some c else none
def State.quireEligible (s : State) (q most : Nat) : Nat :=
  ((quireMembers q).map fun c => s.eligible c most).foldl (· + ·) 0
/-- The probes of a sequence, in order (13, Table 13.4). -/
def probeOrder (thief k : Nat) : List Probe :=
  let q := quireOf thief
  let own := ((List.range 96).map fun i => q * 96 + (thief % 96 + k + i) % 96).filter fun c => c ≠ thief
  own.map .core ++ (dieOrder q).map .quire ++ (otherDies q).map .die
/-- The victim of a probe, where it has one now, with what its stage may take (13, Table 13.4). -/
def State.victim (s : State) (thief : Nat) : Probe → Option (Nat × Nat)
  | .core c => if 0 < s.eligible c 2 then some (c, 2) else none
  | .quire r =>
    if s.sameAsn thief (r * 96) then (mostOf (fun c => s.eligible c 1) (quireMembers r)).map fun c => (c, 1) else none
  | .die d =>
    let load (r : Nat) : Nat := if s.sameAsn thief (r * 96) then s.quireEligible r 0 else 0
    (mostOf load ((List.range 48).map fun i => d * 48 + i)).bind fun r =>
      (mostOf (fun c => s.eligible c 0) (quireMembers r)).map fun c => (c, 0)
/-- The rest of a probe sequence, from the first probe that finds a victim on. -/
def State.nextProbe (s : State) (thief : Nat) : List Probe → Option ((Nat × Nat) × List Probe)
  | [] => none
  | p :: r => match s.victim thief p with | some v => some (v, r) | none => s.nextProbe thief r
/-- Level M of every deque that uses one is to be reached. -/
def State.readyRings (s : State) : Except (List Place) State :=
  (s.cores.filter fun c => !c.2.deque.m.isEmpty).foldlM (fun t c => t.readyRing c.1) s
/-- `STEAL_PROBE`: a probe of core `turn.core`, the first of a sequence or its next; after the last the core sleeps
(13, R346). -/
def execStealProbe (s : State) : Host.Outcome State Fault Refusal :=
  let n := s.turn.core
  if (s.core n).run ≠ .probing then .next s
  else match s.readyRings with
    | .error on => .next (s.wanting n on)
    | .ok s =>
      let (t, ps) := match (s.core n).probes with
        | some ps => (s, ps)
        | none =>
          let t := s.onCore n fun c => { c with lfsr := lfsrStep c.lfsr }
          (t, probeOrder n (((t.core n).lfsr.extractLsb' 0 7).toNat % 96))
      match t.nextProbe n ps with
      | none => .next (t.onCore n fun c => { c with run := .asleep, probes := none })
      | some ((v, most), rest) =>
        match t.trySteal n v most with
        | (u, true) => .next (u.onCore n fun c => { c with probes := none })
        | (u, false) => .next (u.onCore n fun c => { c with probes := some rest })
/-- `CORE_WAKE`: sleeping core `turn.core`, which something has woken, looks for work again; with `turn.flag` a wake of
the management core reaches it (13, R340; 10, R282). -/
def execCoreWake (s : State) : Host.Outcome State Fault Refusal :=
  let n := s.turn.core
  let c := s.core n
  if s.turn.flag then .next (s.onCore n fun c => { c with called := true, wake := true })
  else if c.run = .asleep && c.wake then .next (s.onCore n fun c => { c with run := .seeking, wake := false }) else .next s

end Sys2Proof.Machine
end

