-- ==== Sys2Proof/Machine/Sewing.lean ====
section
/-! DEFINITION. Page 5: the sewing grid, communication phases and rectangle operations (09, R236 to R245; 18, R450). -/

namespace Sys2Proof.Machine

/-! ### The grid (09, R236) -/

def gridRow (core : Nat) : Nat := qcoreOf core / 12
def gridCol (core : Nat) : Nat := qcoreOf core % 12
def coreAt (quire row col : Nat) : Nat := quire * 96 + row * 12 + col
def Port.index : Port → Fin 6
  | .north => 0 | .east => 1 | .south => 2 | .west => 3 | .rowBus => 4 | .colBus => 5
def Port.isBus : Port → Bool | .rowBus | .colBus => true | _ => false
def Port.opposite : Port → Port
  | .north => .south | .east => .west | .south => .north | .west => .east | p => p
/-- The neighbour that a wire leads to; none at the grid's edge. -/
def neighbour (core : Nat) (p : Port) : Option Nat :=
  let r := gridRow core
  let c := gridCol core
  let q := quireOf core
  match p with
  | .north => if 0 < r then some (coreAt q (r - 1) c) else none
  | .east => if c < 11 then some (coreAt q r (c + 1)) else none
  | .south => if r < 7 then some (coreAt q (r + 1) c) else none
  | .west => if 0 < c then some (coreAt q r (c - 1)) else none
  | .rowBus | .colBus => none
/-- Two ports drive one wire or one bus. Between two neighbours stand two wires, one for each direction: whether the two share
one is not stated (log 97). -/
def sameLine (a : Nat) (p : Port) (b : Nat) (r : Port) : Bool :=
  p = r && (match p with | .rowBus => gridRow a = gridRow b | .colBus => gridCol a = gridCol b | _ => a = b)
/-- The other cores of a bus. -/
def busCores (core : Nat) (p : Port) : List Nat :=
  let q := quireOf core
  let all := match p with
    | .rowBus => (List.range 12).map fun c => coreAt q (gridRow core) c
    | .colBus => (List.range 8).map fun r => coreAt q r (gridCol core)
    | _ => []
  all.filter fun c => c ≠ core

/-! ### The phase clock of a quire (09, R238, R241) -/

/-- The core has an open phase, and runs. -/
def Core.inPhase (c : Core) : Option Phase := if c.run = .task then c.phase else none
/-- The core has been released by a quire barrier and may still open a phase with its next instruction. -/
def Core.mayOpen (c : Core) : Bool :=
  c.run = .task && (c.afterBar || (match c.barPass with | some (.quire, _) => true | _ => false))
/-- Every open phase of the quire has come to cycle `t`, and no core is still to open its phase. -/
def State.phasesAt (s : State) (q t : Nat) : Bool :=
  (quireMembers q).all fun c =>
    !(s.core c).mayOpen && (match (s.core c).inPhase with | some p => t ≤ p.cycle | none => true)
/-- An `mrect` of cycle `t` or before is not decided. -/
def Quire.undecided (x : Quire) (t : Nat) : Bool := x.rects.any fun p => p.cycle ≤ t && p.verdict.isNone
/-- Everything that drives a wire or a bus at cycle `t` is known. -/
def State.settled (s : State) (q t : Nat) : Bool :=
  s.phasesAt q (t + 1) && t < (s.quire q).sewClk && !(s.quire q).undecided t
/-- An `mrect` holds the bus at cycle `t` (09, R245). -/
def Quire.busHeld (x : Quire) (core : Nat) (p : Port) (t : Nat) : Bool :=
  x.holds.any fun h => h.since ≤ t && t ≤ h.until' &&
    (match p with | .rowBus => h.rows.contains (gridRow core) | .colBus => h.cols.contains (gridCol core) | _ => false)
/-- A drive meets another driver, or a held bus (09, R242). -/
def Quire.conflict (x : Quire) (d : Drive) : Bool :=
  x.busHeld d.core d.port d.cycle
    || 1 < (x.drives.filter fun e => e.cycle = d.cycle && sameLine d.core d.port e.core e.port).length
/-- Where the drives that arrive at cycle `t` are latched: core, port, value. -/
def Quire.arrivals (x : Quire) (t : Nat) : List (Nat × Port × Word) :=
  x.drives.flatMap fun d =>
    if x.conflict d then []
    else if Port.isBus d.port then
      if d.cycle + 3 = t then (busCores d.core d.port).map fun c => (c, d.port, d.value) else []
    else if d.cycle + 1 = t then
      match neighbour d.core d.port with | some c => [(c, Port.opposite d.port, d.value)] | none => []
    else []
/-- A cycle of the quire's fabric: what arrives is latched, and routes drive it on (09, R241). -/
def State.latch (s : State) (q : Nat) : Option State :=
  let x := s.quire q
  let t := x.sewClk
  let open' := (quireMembers q).any fun c => (s.core c).inPhase.isSome
  if !open' || !s.phasesAt q t || (0 < t && x.undecided (t - 1)) then none
  else
    let arr := x.arrivals t
    let u := arr.foldl (fun u (c, p, v) => u.onCore c fun k => { k with recv := k.recv.set (Port.index p) v }) s
    let fwd := arr.flatMap fun (c, p, v) =>
      match (s.core c).phase with
      | some ph => ph.routes.filterMap fun (out, inp, since) =>
          if inp = p && since < t && !x.busHeld c out t then some (⟨t, c, out, v, false⟩ : Drive) else none
      | none => []
    some (u.onQuire q fun y =>
      { y with sewClk := t + 1, drives := (y.drives.filter fun d => t < d.cycle + 4) ++ fwd
               holds := y.holds.filter fun h => t < h.until' + 4 })
/-- `RECEIVE_REGISTER_LATCH`: the next phase cycle of quire `turn.unit`. -/
def execReceiveRegisterLatch (s : State) : Host.Outcome State Fault Refusal := .next ((s.latch s.turn.unit).getD s)

/-! ### Phases (09, R238, R239) -/

/-- The phase closes: PH := 0, and its routes are dropped. -/
def Core.closePhase (c : Core) : Core := { c with csr := c.csr.setPh false, phase := none }
/-- `PH_BEGIN` (R238). Open a communication phase directly after a quire barrier. -/
def execPhBegin (a : Reg) (s : State) := M.run (do
  controlOnly
  let s ← get
  need (!s.csr.ph && s.me.afterBar) (.trap 0x07 0)
  let n ← readW a
  need (1 ≤ n.toNat && n.toNat ≤ 4096) (.trap 0x01 n)
  let q := s.myQuire
  let first := !((quireMembers q).any fun c => (s.core c).inPhase.isSome)
  let t := if first then s.onQuire q fun x => { x with sewClk := 0, drives := [], rects := [], holds := [] } else s
  set (t.onMe fun c =>
    { c with csr := c.csr.setPh true, recv := Vector.replicate 6 0
             phase := some { len := n.toNat, cycle := 0, base := 0, routes := [], sent := none } })) s
/-- `PH_END` (R239). Close the communication phase. -/
def execPhEnd (s : State) := M.run (do
  controlOnly
  need (← get).csr.ph (.trap 0x07 0)
  modify fun s => s.onMe Core.closePhase) s
/-- `PHASE_LENGTH_EXPIRY`: the phase of core `turn.core` has come to its length; the part closes it, and the overrun is
taken at the next boundary. An instruction that waits lets time pass; a core that has stopped comes to no boundary. -/
def State.expirePhase (s : State) (core : Nat) : Option State :=
  let c := s.core core
  match c.phase with
  | some p =>
    if c.run = .stopped then some (s.onCore core Core.closePhase)
    else if c.run = .task && p.sent.isNone && (p.len ≤ p.cycle || c.ctxs[0].waiting) then
      some (s.onCore core fun c => { c.closePhase with overrun := some p.len })
    else none
  | none => none
/-- `PHASE_LENGTH_EXPIRY` (R239). Phase cycle wa is reached with PH = 1 and the part closes the phase. -/
def execPhaseLengthExpiry (s : State) : Host.Outcome State Fault Refusal := .next ((s.expirePhase s.turn.core).getD s)

/-! ### tx, mux and rxw (09, R241, R242) -/

/-- The open phase; trap 0x07 without one. -/
def openPhase : M Phase := do
  controlOnly
  match (← get).me.phase with
  | some p => if (← get).csr.ph then return p else trap 0x07 0
  | none => trap 0x07 0
def setPhase (p : Phase) : M Unit := modify fun s => s.onMe fun c => { c with phase := some p }
/-- `tx`: the value is driven in the issue cycle; whether another driver meets it is known at the end of that cycle. -/
def execTx (a : Reg) (p : Port) (s : State) := M.run (do
  let ph ← openPhase
  let s ← get
  let q := s.myQuire
  match ph.sent with
  | none => do
    modify fun s => s.onQuire q fun x => { x with drives := x.drives ++ [⟨ph.cycle, s.cur, p, s.w a, true⟩] }
    setPhase { ph with sent := some ph.cycle, cycle := ph.cycle + 1 }
    holdHere
  | some t =>
    if !s.settled q t then holdHere
    else do
      setPhase { ph with sent := none }
      if (s.quire q).conflict ⟨t, s.cur, p, 0, true⟩ then thenTake (.trap 0x07 0)) s
/-- `mux`: a route holds from the next cycle on; one to the output itself removes it. -/
def execMux (o i : Port) (s : State) := M.run (do
  let ph ← openPhase
  let rest := ph.routes.filter fun r => r.1 ≠ o
  setPhase { ph with routes := if i = o then rest else (o, i, ph.cycle) :: rest }) s
/-- `RXW` (R241). Read a port's receive register. -/
def execRxw (d : Reg) (p : Port) (s : State) := M.run (do
  let _ ← openPhase
  writeW d ((← get).me.recv[Port.index p])) s

/-! ### Rectangles (09, R243 to R245) -/

/-- A rectangle descriptor (09, Table 9.6). -/
structure Rect where
  row0 : Nat
  col0 : Nat
  nr   : Nat
  nc   : Nat
  aAddr : Word
  bAddr : Word
  deriving DecidableEq, Repr
def rectOf (d : List Byte) : Option Rect :=
  let x : Rect := ⟨fieldAt d 0 1, fieldAt d 1 1, fieldAt d 2 1, fieldAt d 3 1, wordOf ((d.drop 8).take 8),
    wordOf ((d.drop 16).take 8)⟩
  if x.row0 ≤ 7 && x.col0 ≤ 11 && 1 ≤ x.nr && x.nr ≤ 8 - x.row0 && 1 ≤ x.nc && x.nc ≤ 12 - x.col0
      && zeroAt d 4 4 && zeroAt d 0x18 40 then some x else none
def Rect.rows (x : Rect) : List Nat := (List.range x.nr).map fun i => x.row0 + i
def Rect.cols (x : Rect) : List Nat := (List.range x.nc).map fun j => x.col0 + j
def Rect.holds (x : Rect) (core : Nat) : Bool := x.rows.contains (gridRow core) && x.cols.contains (gridCol core)
def Rect.members (x : Rect) (q : Nat) : List Nat := x.rows.flatMap fun r => x.cols.map fun c => coreAt q r c
/-- Masks checked as an address only (18, R450). -/
def checkMaskAddr (c : Core) (cfg : BitVec 512) : Except Exc Unit :=
  if mN cfg = 0 then .ok ()
  else if 0x3FF40 < mBase cfg + mK cfg * 4 then .error (.trap 0x04 (localAddr (mBase cfg)))
  else if sharesOwn c (mBase cfg) (mK cfg * 4) then .ok () else .error (.trap 0x05 (localAddr (mBase cfg)))
/-- `mrect` (09, R243, R244). -/
def execMrect (c : AReg) (a : Reg) (s : State) := M.run (do
  let ph ← openPhase
  let s ← get
  let q := s.myQuire
  match ph.sent with
  | some _ =>
    match ((s.quire q).rects.find? fun r => r.core = s.cur).bind fun r => r.verdict with
    | none => holdHere
    | some ok => do
      modify fun s => s.onQuire q fun x => { x with rects := x.rects.filter fun r => r.core ≠ s.cur }
      setPhase { ph with sent := none }
      if ok then pure () else thenTake (.trap 0x07 0)
  | none => do
    let wa ← readW a
    let off ← localOperand wa 64 64
    if 2 ≤ s.me.mops.length then waitHere
    let cfg := s.me.mcfg
    need (mcfgValid cfg) (.trap 0x0F 0)
    let d ← readOwn off 64
    match rectOf d with
    | none => trap 0x01 wa
    | some r => do
      let t := ph.cycle
      let x := (← get).quire q
      need (mAcd cfg = 0 && mBcd cfg = 0 && r.holds s.cur) (.trap 0x07 0)
      need (t + 23 + planesOf cfg ≤ ph.len - 1) (.trap 0x07 0)
      let held (h : BusHold) : Bool := t ≤ h.until' && (r.rows.any h.rows.contains || r.cols.any h.cols.contains)
      need (!(x.holds.any held)) (.trap 0x07 0)
      if gridCol s.cur = r.col0 then
        let ra ← liftE (rangesA s.csr cfg s.cur r.aAddr)
        liftE (checkRanges s.me ra r.aAddr)
      if gridRow s.cur = r.row0 then
        let rb ← liftE (rangesB s.csr cfg s.cur r.bAddr)
        liftE (checkRanges s.me (rb ++ rangesMask cfg) r.bAddr)
        let _ ← readMasks cfg
      else liftE (checkMaskAddr s.me cfg)
      modify fun s => s.onQuire q fun x => { x with rects := x.rects ++ [⟨s.cur, t, d, cfg, c, planesOf cfg, none⟩] }
      setPhase { ph with sent := some t, cycle := t + 7 }
      holdHere) s

/-- Every core of a part's rectangle has issued the same `mrect` in the same cycle. -/
def Quire.agreed (x : Quire) (q : Nat) (p : RectPart) : Bool :=
  match rectOf p.desc with
  | none => false
  | some r => (r.members q).all fun c =>
      x.rects.any fun o => o.core = c && o.cycle = p.cycle && o.desc = p.desc && o.cfg = p.cfg
/-- Another rectangle of the same cycle needs one of its buses. -/
def Quire.crossed (x : Quire) (q : Nat) (p : RectPart) : Bool :=
  match rectOf p.desc with
  | none => false
  | some r => x.rects.any fun o => o.cycle = p.cycle && o.desc ≠ p.desc && x.agreed q o &&
      (match rectOf o.desc with
        | some k => r.rows.any k.rows.contains || r.cols.any k.cols.contains
        | none => false)
/-- The slot-0 address of a panel. -/
def slot0 (va : Word) : Word := va &&& ~~~(0x1FC0000#64)
/-- The lines of a panel in the core that sends it. -/
def panelLines (r : Except Exc (List (Nat × Nat))) (more : List (Nat × Nat)) : List Nat :=
  (linesOk r ++ rangeLines more).eraseDups
/-- A participant's operation: A from the first core of its row, B from the first core of its column (09, R245). All their lines
are read at the exchange, so that no later store of another core is seen: R231 lets it be seen or not (log 97). -/
def State.rectOp (s : State) (q : Nat) (p : RectPart) (r : Rect) : MatrixOp :=
  let ca := coreAt q (gridRow p.core) r.col0
  let cb := coreAt q r.row0 (gridCol p.core)
  let a := (s.core ca).csr
  let b := (s.core cb).csr
  let la := panelLines (rangesA a p.cfg ca r.aAddr) []
  let lb := panelLines (rangesB b p.cfg cb r.bAddr) (rangesMask p.cfg)
  { acc := p.acc, cfg := p.cfg, aCsr := a, bCsr := b, aAddr := slot0 r.aAddr, bAddr := slot0 r.bAddr
    aImg := s.lineImage ca la, bImg := s.lineImage cb lb, todo := [], aCond := none, bCond := none
    planes := p.planes, ready := 0, rect := true, started := false, bad := s.badLine ca la <|> s.badLine cb lb }
/-- The lines of a part's own panels are free to be read. -/
def State.panelsFree (s : State) (p : RectPart) : Bool :=
  match rectOf p.desc with
  | none => true
  | some r =>
    let c := (s.core p.core).csr
    let la := if gridCol p.core = r.col0 then panelLines (rangesA c p.cfg p.core r.aAddr) [] else []
    let lb := if gridRow p.core = r.row0 then panelLines (rangesB c p.cfg p.core r.bAddr) (rangesMask p.cfg) else []
    !s.anyOwned p.core (la ++ lb)
/-- One part decided: its operation enters the matrix unit and its buses are held, or it will trap. -/
def State.decideRect (s : State) (before : State) (q : Nat) (p : RectPart) : State :=
  let x := before.quire q
  let ok := x.agreed q p && !x.crossed q p
  let t := s.onQuire q fun y => { y with rects := y.rects.map fun o => if o.core = p.core then { o with verdict := some ok } else o }
  match ok, rectOf p.desc with
  | true, some r =>
    let op := before.rectOp q p r
    let h : BusHold := ⟨r.rows, r.cols, p.cycle, p.cycle + 23 + p.planes⟩
    let ca := coreAt q (gridRow p.core) r.col0
    let cb := coreAt q r.row0 (gridCol p.core)
    let noted := (t.noteLines ca (op.aImg.map fun l => l.1)).noteLines cb (op.bImg.map fun l => l.1)
    (noted.onCore p.core fun c => { c with mops := c.mops ++ [op] }).onQuire q fun y =>
      { y with holds := if y.holds.contains h then y.holds else y.holds ++ [h] }
  | _, _ => t
/-- The checks of the parts of the earliest undecided cycle have been exchanged. -/
def State.exchange (s : State) (q : Nat) : Option State :=
  let x := s.quire q
  match x.rects.find? fun p => p.verdict.isNone with
  | none => none
  | some p =>
    let now := x.rects.filter fun o => o.verdict.isNone && o.cycle = p.cycle
    if s.phasesAt q (p.cycle + 1) && now.all s.panelsFree then some (now.foldl (fun t o => t.decideRect s q o) s) else none
/-- `MRECT_CHECK_EXCHANGE` in quire `turn.unit`. -/
def execMrectCheckExchange (s : State) : Host.Outcome State Fault Refusal := .next ((s.exchange s.turn.unit).getD s)

end Sys2Proof.Machine
end

