-- ==== Sys2Proof/Machine/System.lean ====
section
/-! DEFINITION. Page 6: traps and returns, system registers, idling, halting and TLB invalidation
(10, R278 to R284; 01, R13, R15 to R24, R35; 04, R88, R89; 12, R311, R312, R321). -/

namespace Sys2Proof.Machine

/-! ### Traps and returns (10, R279, R280) -/

/-- A page-6 form: the control context alone, in a mode that may execute it, and outside a phase. -/
def pageSix (least : Nat) : M Unit := do
  controlOnly
  needMode least 0
  barPhase
/-- `TRAP` (R279). Raise trap 0x14 with tval := code. -/
def execTrap (k : BitVec 17) (s : State) := M.run (do
  pageSix 0
  trap 0x14 (k.zeroExtend 64)) s
/-- `RTI` (R15). Return from a trap to PMODE at epc. -/
def execRti (s : State) := M.run (do
  pageSix 2
  let c := (← get).csr
  need (!c.epc.getLsbD 0) (.trap 0x03 c.epc)
  let i ← freeIndex
  modify fun s => (s.onCsr fun c => c.leaveTrap (Config.openMode i)).setNext c.epc) s
/-- `UPRET` (R15). Return from an upcall to user mode at upepc. -/
def execUpret (s : State) := M.run (do
  controlOnly
  if (← get).mode = 2 then illegal
  needMode 1 0
  barPhase
  let c := (← get).csr
  need (!c.upepc.getLsbD 0) (.trap 0x03 c.upepc)
  modify fun s => (s.onCsr Csr.leaveUpcall).setNext c.upepc) s

/-! ### Reading system registers (01, Table 1.4) -/

/-- The least modes that read and write a register; no writing mode where it is read-only in every mode. -/
def regModes (n : Nat) : Option (Nat × Option Nat) :=
  match n with
  | 0x00 => some (0, some 2)
  | 0x01 | 0x02 | 0x03 | 0x04 => some (2, some 2)
  | 0x08 => some (0, some 0)
  | 0x09 | 0x0A => some (1, some 2)
  | 0x0B => some (1, some 1)
  | 0x10 => some (0, some 2)
  | 0x11 | 0x12 | 0x13 => some (0, none)
  | 0x14 => some (0, some 2)
  | 0x18 | 0x19 => some (0, some 0)
  | 0x1A => some (2, some 2)
  | 0x20 | 0x21 | 0x22 => some (0, some 0)
  | 0x24 | 0x25 | 0x28 => some (0, none)
  | 0x29 | 0x2A => some (2, some 2)
  | 0x30 | 0x31 | 0x32 | 0x33 => some (0, some 0)
  | _ => none
/-- `coreid` (01, Table 1.6). -/
def coreId (core : Nat) : Word :=
  BitVec.ofNat 64 (core % 32768 + qcoreOf core * 2 ^ 16 + quireOf core * 2 ^ 24 + dieOf core * 2 ^ 32)
/-- `hstat` and `hcause`: the fields of helpers 1 to 10 (01, Table 1.4). -/
def helperFields (c : Core) (width : Nat) (f : Ctx → Nat) : Word :=
  BitVec.ofNat 64 (((List.finRange 11).filter fun h => h ≠ 0).foldl
    (fun x h => x + f c.ctxs[h] * 2 ^ (width * (h.val - 1))) 0)
/-- `winsel` (12, Table 12.2). -/
def Csr.selWin (c : Csr) : Fin 8 := (c.winsel.extractLsb' 0 3).toFin
def Csr.selHigh (c : Csr) : Bool := c.winsel.getLsbD 3
/-- The value that a register reads as; 0 for a number that is in no row of Table 1.4. -/
def State.register (s : State) (core n : Nat) : Word :=
  let c := s.core core
  let r := c.csr
  match n with
  | 0x00 => r.status | 0x01 => r.tvec | 0x02 => r.tcause | 0x03 => r.tval | 0x04 => r.epc
  | 0x08 => r.upvec | 0x09 => r.upcause | 0x0A => r.upval | 0x0B => r.upepc
  | 0x10 => r.dmem | 0x11 => coreId core | 0x12 => BitVec.ofNat 64 (s.devid % 2 ^ 18) | 0x13 => s.gtime
  | 0x14 => r.mgovStall
  | 0x18 => r.winsel
  | 0x19 => if r.selHigh then r.wins[r.selWin].hi else r.wins[r.selWin].lo
  | 0x1A => r.bindsel
  | 0x20 => r.actl | 0x21 => r.aflags | 0x22 => r.rngkey
  | 0x24 => helperFields c 4 fun x => x.hstat.toNat
  | 0x25 => helperFields c 6 fun x => x.hcause.toNat
  | 0x28 => BitVec.ofNat 64 (c.deque.h.length + c.deque.l.length * 2 ^ 7 + c.deque.m.length * 2 ^ 19)
  | 0x29 => r.dqlocal | 0x2A => r.dqspill
  | 0x30 => r.fmt[0] | 0x31 => r.fmt[1] | 0x32 => r.fmt[2] | 0x33 => r.fmt[3]
  | _ => 0
/-- The bits of a register that its contents define; the others are reserved. -/
def definedBits (n : Nat) : Word :=
  match n with
  | 0x00 => 0x7F
  | 0x10 => 0x7F
  | 0x11 => 0x3FF7F7FFF
  | 0x12 => 0x3FFFF
  | 0x18 => 0xF
  | 0x1A => 0xFFFFFFFFFFFFFF3F
  | 0x20 => 7
  | 0x21 => 0x1F
  | 0x24 => 0xFFFFFFFFFF
  | 0x25 => 0x0FFFFFFFFFFFFFFF
  | 0x29 => 0x3E001
  | 0x2A => 0x1FFFFFFFFFFFFFF
  | 0x30 | 0x31 | 0x32 | 0x33 => 0xFFFFF
  | _ => 0xFFFFFFFFFFFFFFFF

/-! ### Writing system registers (01, R18) -/

/-- A write that would change a read-only bit is refused (01, R18). -/
def valueRule (n : Nat) (bits old x : Word) : M Unit := need ((old ^^^ x) &&& bits == 0) (.trap 0x01 (BitVec.ofNat 64 n))
/-- A register with no behaviour of its own takes the written value in its defined bits. -/
def plainWrite (n : Nat) (x : Word) : M Unit := do
  let y := x &&& definedBits n
  modify fun s => s.onCsr fun c =>
    match n with
    | 0x00 => { c with status := y }
    | 0x01 => { c with tvec := y } | 0x02 => { c with tcause := y } | 0x03 => { c with tval := y }
    | 0x04 => { c with epc := y }
    | 0x08 => { c with upvec := y } | 0x09 => { c with upcause := y } | 0x0A => { c with upval := y }
    | 0x0B => { c with upepc := y }
    | 0x14 => { c with mgovStall := y }
    | 0x18 => { c with winsel := y }
    | 0x20 => { c with actl := y } | 0x21 => { c with aflags := y } | 0x22 => { c with rngkey := y }
    | 0x2A => { c with dqspill := y }
    | 0x30 => { c with fmt := c.fmt.set 0 y } | 0x31 => { c with fmt := c.fmt.set 1 y }
    | 0x32 => { c with fmt := c.fmt.set 2 y } | 0x33 => { c with fmt := c.fmt.set 3 y }
    | _ => c
/-- The fields that a half of a window's configuration has (12, Table 12.3). -/
def windowBits (win : Nat) (high : Bool) : Word :=
  if win = 0 || win = 7 then 0
  else if high then if win = 6 then 0x1FFFFF else 0x3FFFF
  else if win = 5 then 0x3FFFF7FFFFFFFF else 0x1FFFFFFFF
/-- The offset of the first byte of a range that lies in a share that is not OWN. -/
def firstDonated (c : Core) (off n : Nat) : Option Nat :=
  (List.range n).findSome? fun i => if sharesOwn c (off + i) 1 then none else some (off + i)
/-- The decode table is loaded from the issuing core's scratchpad (04, R88). -/
def loadTable (x : Word) : M Unit := do
  let base := (x.extractLsb' 36 18).toNat
  need (base % 4 = 0 && base ≤ 0x3FC00) (.trap 0x04 x)
  match firstDonated (← get).me base 1024 with
  | some o => trap 0x05 (localAddr o)
  | none => pure ()
  drainFirst
  let bs ← readOwn base 1024
  let entry (i : Nat) : W32 := BitVec.ofNat 32 (fieldAt bs (4 * i) 4 % 2 ^ 19)
  modify fun s => s.onCsr fun c => { c with table := Vector.ofFn fun (i : Fin 256) => entry i.val }
/-- One half of the selected window's configuration (12, R311, R312; 04, R88, R89). -/
def writeWindow (x : Word) : M Unit := do
  let c := (← get).csr
  let k := c.selWin
  if k = 5 && !c.selHigh then
    need (x.extractLsb' 33 2 ≠ 3#2) (.trap 0x04 x)
    if x.getLsbD 35 then loadTable x
  let y := x &&& windowBits k.val c.selHigh
  modify fun s => s.onCsr fun c =>
    { c with wins := c.wins.set k (if c.selHigh then { c.wins[k] with hi := y } else { c.wins[k] with lo := y }) }
/-- `dmem`: a change of a member bit waits while a barrier of its level is open (01, R23). -/
def writeDmem (x : Word) : M Unit := do
  let s ← get
  let changed (l : Level) : Bool := (s.csr.dmem ^^^ x).getLsbD (Level.bit l)
  let opened (l : Level) : Bool := s.episodes.any fun e => e.level = l && e.domain = domainOf s.cur l
  if [Level.quire, .die, .dev, .sys].any fun l => changed l && opened l then waitHere
  -- a pre-emption is held for a level while the core is a member of it (01, R24)
  let free (p : Preempt) : Preempt :=
    match p.level with
    | some l => if x.getLsbD (Level.bit l) then p else { p with level := none, free := true }
    | none => p
  modify fun s => s.onMe fun c =>
    { c with preempt := c.preempt.map free, csr := { c.csr with dmem := x &&& definedBits 0x10 } }
/-- The core's configured conduits meet a share. -/
def Core.conduitMeets (c : Core) (k : Nat) : Bool :=
  c.conduits.toList.any fun x => x.count ≠ 0 && overlaps x.base (x.esize * x.count) (k * 0x2000) 0x2000
/-- `dqlocal` (01, R35). -/
def writeDqlocal (x : Word) : M Unit := do
  let y := x &&& definedBits 0x29
  let k := (y.extractLsb' 13 5).toNat
  let c := (← get).me
  if y.getLsbD 0 then
    need (k ≠ 31 && c.shares.toList.getD k .own = .own && !c.conduitMeets k) (.trap 0x05 (localAddr (k * 0x2000)))
  if 0 < c.deque.l.length && !(y.getLsbD 0 && c.csr.lShare = k) then
    let s ← get
    match s.lToM s.cur c.deque.l.length with
    | some t => if (t.core s.cur).deque.l = [] then set t else trap 0x0A x
    | none => trap 0x0A x
  modify fun s => s.onCsr fun c => { c with dqlocal := y }
/-- The 256 bytes of the live record of a binding (12, R321, Table 12.4). -/
def State.liveRecord (s : State) (id : Nat) : List Byte :=
  let b := s.binding id
  let r := b.rec'
  let code : Nat := match b.state with | .undefined => 0 | .active => 1 | .resizing => 2 | .draining => 3 | .retired => 4
  let most (q : Nat) : Nat := match b.old with | some o => Nat.max (o.shares q) (r.shares q) | none => r.shares q
  let held := ((List.range 192).map most).foldl (· + ·) 0
  let place := (List.range 192).foldl (fun x q => if 0 < r.shares q then x + 2 ^ q else x) 0
  let byte (n : Nat) : Byte := BitVec.ofNat 8 n
  if b.state = .undefined then
    (List.range 256).map fun i => if i = 7 || (12 ≤ i && i < 16) then 0 else Config.openRecord s.tick i
  else
    [byte (if r.home then 1 else 0), byte (Nat.log2 r.line - 6), byte r.ways, byte r.policy, byte r.repl, byte r.hash, 0
     , byte code] ++ toBytes 4 r.lease ++ toBytes 4 held ++ toBytes 8 0 ++ toBytes 24 place ++ toBytes 16 0
      ++ (List.range 192).map fun q => byte (r.shares q)
/-- `bindsel` takes ID and ADDR; with RD the live record is stored, and a failed store leaves ID and ADDR (12, R321). -/
def storeRecord (x : Word) : M Unit := do
  modify fun s => s.onCsr fun c => { c with bindsel := x &&& definedBits 0x1A }
  if x.getLsbD 6 then
    let va := x &&& 0xFFFFFFFFFFFFFF00
    let s ← get
    let bs := s.liveRecord (x.extractLsb' 0 6).toNat
    if (s.myCtx.piece 0).isSome then storeEach 0 []
    else match (do let r ← liftE (checkRegion (← get) va va); checkPart r va 256 .store : M Place) s with
    | .ok (p, t) => do
      set t
      storeEach 0 (StorePart.doubles ⟨p, va, .dflt, storeBytes bs⟩)
    | .error (.exc (.wait on)) => waitOn on
    | .error (.exc e) => thenTake e
    | .error (.badWalk e) => do
      modify State.countMalformed
      thenTake e
    | .error (.done t) => throw (.done t)
/-- The rules of a write to a register, by its number (01, R18; 10, R281). -/
def writeRegister (n : Nat) (x : Word) : M Unit := do
  let s ← get
  match n with
  | 0x00 => do
    valueRule n 0x43 s.csr.status x
    plainWrite n x
  | 0x11 | 0x12 | 0x13 | 0x24 | 0x25 | 0x28 => valueRule n (definedBits n) (s.register s.cur n) x
  | 0x19 => writeWindow x
  | 0x10 => writeDmem x
  | 0x29 => writeDqlocal x
  | 0x1A => storeRecord x
  | _ => plainWrite n x
/-- A legal page-6 encoding fails as decoding does: it lacks its mode (02, R56, step 5), or is an `upret` in supervisor
mode (10, R280). -/
def State.lacksMode (s : State) (i : Instr) : Bool :=
  let below (m : Nat) : Bool := s.mode < m
  match i with
  | .csrr _ n => match regModes n.toNat with | some (r, _) => below r | none => false
  | .csrw _ n | .csrs _ n | .csrc _ n => match regModes n.toNat with | some (_, some w) => below w | _ => false
  | .rti | .idle | .halt | .tlbinvAll | .tlbinvVa _ | .bdef _ _ | .bresize _ _ | .bshare _ _ => below 2
  | .upret => s.mode ≠ 1
  | _ => false
/-- The number is in Table 1.4 and the mode has the right (01, R18; 10, R278, R281). -/
def regAccess (n : Nat) (write : Bool) : M Unit := do
  controlOnly
  let num := BitVec.ofNat 64 n
  match regModes n with
  | none => do
    barPhase
    trap 0x01 num
  | some (r, w) => do
    match write, w with
    | true, some m => needMode m num
    | true, none => pure ()
    | false, _ => needMode r num
    barPhase
/-- `CSRR` (R281). Read a system register. -/
def execCsrr (d : Reg) (n : BitVec 6) (s : State) := M.run (do
  regAccess n.toNat false
  writeW d ((← get).register (← get).cur n.toNat)) s
/-- `csrw`, `csrs` and `csrc`: each is judged by the value that it would write (10, R281). -/
def changeRegister (n : BitVec 6) (f : Word → Word) : M Unit := do
  regAccess n.toNat true
  writeRegister n.toNat (f ((← get).register (← get).cur n.toNat))
/-- `CSRW` (R281). Write a system register. -/
def execCsrw (a : Reg) (n : BitVec 6) (s : State) := M.run (do
  let x ← readW a
  changeRegister n fun _ => x) s
/-- `CSRS` (R281). Set bits of a system register. -/
def execCsrs (a : Reg) (n : BitVec 6) (s : State) := M.run (do
  let x ← readW a
  changeRegister n fun old => old ||| x) s
/-- `CSRC` (R281). Clear bits of a system register. -/
def execCsrc (a : Reg) (n : BitVec 6) (s : State) := M.run (do
  let x ← readW a
  changeRegister n fun old => old &&& ~~~x) s

/-! ### The writes as steps of the part -/

/-- A write takes effect for the control context of core `turn.core`; one that is refused or has to wait does not. -/
def asStep (x : M Unit) (s : State) : Host.Outcome State Fault Refusal :=
  .next (s.acting s.turn.core 0 fun t =>
    match x { t with grain := none } with
    | .ok ((), u) => { u with grain := t.grain }
    | .error _ => t)
/-- `CSR_WRITE`: register `turn.index` takes `turn.value`. -/
def execCsrWrite (s : State) : Host.Outcome State Fault Refusal :=
  let n := s.turn.index
  asStep (if n = 0x19 || n = 0x10 || n = 0x29 || n = 0x1A then pure () else writeRegister n s.turn.value) s
/-- `WINCFG_WRITE`: the selected half takes `turn.value`. -/
def execWincfgWrite (s : State) : Host.Outcome State Fault Refusal := asStep (writeWindow s.turn.value) s
/-- `DECODE_TABLE_LOAD`: the table is loaded as the low half `turn.value` of win5's configuration says. -/
def execDecodeTableLoad (s : State) : Host.Outcome State Fault Refusal := asStep (loadTable s.turn.value) s
/-- `DMEM_WRITE`: `dmem` takes `turn.value`. -/
def execDmemWrite (s : State) : Host.Outcome State Fault Refusal := asStep (writeDmem s.turn.value) s
/-- `DQLOCAL_WRITE`: `dqlocal` takes `turn.value`. -/
def execDqlocalWrite (s : State) : Host.Outcome State Fault Refusal := asStep (writeDqlocal s.turn.value) s
/-- `BINDSEL_RECORD_STORE`: `bindsel` takes `turn.value`, and with RD the live record is stored. -/
def execBindselRecordStore (s : State) : Host.Outcome State Fault Refusal := asStep (storeRecord s.turn.value) s

/-! ### Idling and halting (10, R282, R283) -/

/-- What ends an `idle`. -/
def Core.stirred (c : Core) : Bool :=
  !c.inbox.isEmpty || c.overflow.isSome || (c.ready.any fun p => p.cont || p.launch) || c.preempt.isSome || c.called
/-- `IDLE` (R282). Wait for a message, ready folio, pre-emption or wake. -/
def execIdle (s : State) := M.run (do
  pageSix 2
  if !(← get).me.stirred then holdHere
  modify fun s => s.onMe fun c => { c with called := false }) s
/-- `HALT` (R283). Drain, publish and stop the core. -/
def execHalt (s : State) := M.run (do
  pageSix 2
  drainFirst
  let s ← get
  if 0 < s.inFlight s.cur then holdHere
  publish
  releaseHolds
  modify fun s => ((s.onMe fun c => { c.stop with hold := [] }).onMyCtx fun c => { c with waiting := false }).tellStop s.cur
  finish) s

/-! ### TLB invalidation (10, R284; 16, R421, R422) -/

/-- A node-cache entry lies on the path of an address. -/
def NodeEntry.covers (e : NodeEntry) (va : Word) : Bool := va.toNat / 2 ^ (12 + 9 * e.level) = e.vaPart
/-- A canonical address (01, R26). -/
def isCanonical (va : Word) : Bool := va.extractLsb' 57 7 == (if va.getLsbD 56 then 0x7F#7 else 0#7)
/-- What `tlbinv` removes: of one address, or everything. -/
def State.invalidate (s : State) (core : Nat) (va : Option Word) : State :=
  let keepT (e : TlbEntry) : Bool := match va with | some a => !isCanonical a || !e.covers a | none => false
  let keepN (e : NodeEntry) : Bool := match va with | some a => !isCanonical a || !e.covers a | none => false
  (s.onCore core fun c => { c with itlb := c.itlb.filter keepT, dtlb := c.dtlb.filter keepT }).onQuire (quireOf core)
    fun q => { q with tlb2 := q.tlb2.filter keepT, nodes := q.nodes.filter keepN }
/-- `TLBINV_ALL` (R284). Invalidate the core's TLBs and the quire's second-level TLB and node cache. -/
def execTlbinvAll (s : State) := M.run (do
  pageSix 2
  modify fun s => s.invalidate s.cur none) s
/-- `TLBINV_VA` (R284). Invalidate every TLB entry mapping one page. -/
def execTlbinvVa (a : Reg) (s : State) := M.run (do
  pageSix 2
  let va ← readW a
  modify fun s => s.invalidate s.cur (some va)) s

end Sys2Proof.Machine
end

