-- ==== Sys2Proof/Machine/Bindings.lean ====
section
/-! DEFINITION. Page 6: bindings, their pools and the resize walkers (10, R285 to R290; 12, R315 to R332; 17, R442). -/

namespace Sys2Proof.Machine

/-! ### Records (12, R315, R316) -/

def BindRec.ofBytes (b : List Byte) : BindRec :=
  let n (o : Nat) : Nat := fieldAt b o 1
  { home := n 0 = 1, line := 64 * 2 ^ n 1, ways := n 2, policy := n 3, repl := n 4, hash := n 5, lease := fieldAt b 8 4
    count := (List.range 192).filterMap fun q => if n (0x40 + q) = 0 then none else some (q, n (0x40 + q)) }
/-- The offset of the first invalid field of a record; `old` is the record that it replaces. -/
def recordFault (s : State) (b : List Byte) (old : Option BindRec) : Option Nat :=
  let n (o : Nat) : Nat := fieldAt b o 1
  let r := BindRec.ofBytes b
  let lease := fieldAt b 8 4
  let place := fieldAt b 0x18 24
  let same (f : BindRec → Bool) : Bool := match old with | some o => f o | none => true
  let placeOk := ((List.range 192).all fun q =>
      decide (place / 2 ^ q % 2 = 1) = decide (0 < r.shares q) && (r.shares q = 0 || s.service.contains q))
    && (place ≠ 0 || old.isSome)
  let checks : List (Nat × Bool) :=
    [(0, n 0 ≤ 1 && same fun o => o.home = r.home), (1, n 1 ≤ 3 && same fun o => o.line = r.line)
     , (2, 1 ≤ n 2 && n 2 ≤ 16), (3, n 3 ≤ 2), (4, n 4 ≤ 2), (5, n 5 ≤ 1), (6, n 6 = 0)
     , (8, lease = 0 || (64 ≤ lease && lease ≤ 16777215)), (0x10, zeroAt b 0x10 8), (0x18, placeOk)
     , (0x30, zeroAt b 0x30 16)]
    ++ (List.range 192).map fun q => (0x40 + q, decide (r.shares q * 8192 % (r.line * r.ways) = 0))
  (checks.find? fun x => !x.2).map fun x => x.1
/-- The record at an address, read and checked (10, R285). -/
def readRecord (va : Word) (old : Option BindRec) : M BindRec := do
  let b ← readDoubles 0 va 32
  match recordFault (← get) b old with
  | some o => trap 0x06 (va + BitVec.ofNat 64 o)
  | none => return BindRec.ofBytes b

/-! ### Shares and pools (12, R309; 10, R286) -/

/-- The shares of a quire's pool for a binding: lowest core first, lowest share first. -/
def State.pool (s : State) (q id : Nat) : List (Nat × Fin 32) :=
  (quireMembers q).flatMap fun c => ((s.core c).shares.toList.zip (List.finRange 32)).filterMap fun x =>
    if x.1 = .pooled id then some (c, x.2) else none
def State.setShare (s : State) (core : Nat) (k : Fin 32) (x : Share) : State :=
  s.onCore core fun c => { c with shares := c.shares.set k x }
/-- The shares that a record needs beyond those held in a quire. -/
def needed (r : BindRec) (old : Option BindRec) (q : Nat) : Nat :=
  r.shares q - (match old with | some o => o.shares q | none => 0)
/-- The first quire whose pool is too small. -/
def State.shortQuire (s : State) (id : Nat) (r : BindRec) (old : Option BindRec) : Option Nat :=
  (r.count.find? fun x => (s.pool x.1 id).length < needed r old x.1).map fun x => x.1
def State.takeShares (s : State) (id : Nat) (r : BindRec) (old : Option BindRec) : State :=
  r.count.foldl (fun t x => ((t.pool x.1 id).take (needed r old x.1)).foldl (fun t y => t.setShare y.1 y.2 (.held id)) t) s

/-! ### The forms (10, R285 to R289) -/

/-- A binding id: the bits above it are zero (10, R285). -/
def bindingId (x : Word) : M Nat := do
  need (x.toNat < 64) (.trap 0x01 x)
  return x.toNat
def recordAddr (va : Word) : M Unit := need (va.toNat % 64 = 0) (.trap 0x03 va)
/-- `BDEF` (R287). Define a binding from a record, taking pooled shares. A misaligned record address is reported before a wrong
state, an order that R285 and R287 leave open (log 95). -/
def execBdef (a b : Reg) (s : State) := M.run (do
  pageSix 2
  let wa ← readW a
  let va ← readW b
  let id ← bindingId wa
  recordAddr va
  let s ← get
  let st := (s.binding id).state
  need (s.imago && (st = .undefined || st = .retired)) (.trap 0x06 wa)
  let r ← readRecord va none
  let s ← get
  match s.shortQuire id r none with
  | some q => trap 0x06 (va + BitVec.ofNat 64 (0x40 + q))
  | none => do
    let t := s.takeShares id r none
    -- every set of every instance is empty, and its LFSR is at its seed
    let quires := t.quires.map fun (q, x) =>
      (q, { x with lines := x.lines.filter fun l => l.binding ≠ id, slices := x.slices.filter fun l => l.binding ≠ id
                   leases := x.leases.filter fun l => l.binding ≠ id, lfsrs := x.lfsrs.filter fun l => l.1 ≠ id })
    set ({ t with quires := quires }.setBinding id ⟨.active, r, none, []⟩)) s
/-- `BRESIZE` (R288). Resize or drain a binding, starting walkers. -/
def execBresize (a b : Reg) (s : State) := M.run (do
  pageSix 2
  let wa ← readW a
  let va ← readW b
  let id ← bindingId wa
  recordAddr va
  let s ← get
  let x := s.binding id
  need (s.imago && x.state = .active) (.trap 0x06 wa)
  let r ← readRecord va (some x.rec')
  need (!(id = 0 && r.count.isEmpty)) (.trap 0x06 wa)
  let s ← get
  match s.shortQuire id r (some x.rec') with
  | some q => trap 0x06 (va + BitVec.ofNat 64 (0x40 + q))
  | none =>
    set ((s.takeShares id r (some x.rec')).setBinding id
      ⟨if r.count.isEmpty then .draining else .resizing, r, some x.rec', x.rec'.count.map fun c => (c.1, 0)⟩)) s
/-- A range of a core's scratchpad that a command still reads or writes. -/
def CopyCmd.touches (c : CopyCmd) (core lo n : Nat) : Bool :=
  let near (p : Place) (k : Nat) : Bool := match p with | .spad x off => x = core && overlaps off k lo n | _ => false
  let reads (va : Word) : Bool :=
    match regionOf va with | .loc _ slot off => slotCore c.core slot = some core && overlaps off 64 lo n | _ => false
  (c.gaps.any fun p => near p 64) || c.pieces.any fun p =>
    (p.runs.any fun r => r.dst.any fun d => near d r.bytes) || (c.needs p).any reads
/-- Earlier accesses and copy commands of the core have not finished with a share (10, R286). -/
def State.shareBusy (s : State) (k : Nat) : Bool :=
  let lo := k * 0x2000
  let q := s.quire s.myQuire
  (q.cmds.any fun c => c.cores.contains s.cur && c.touches s.cur lo 0x2000)
    || (q.comps.any fun c => c.core = s.cur &&
      match c.word with | some (.spad x off) => x = s.cur && overlaps off 8 lo 0x2000 | _ => false)
    || s.unitReads s.cur (.spad s.cur lo) 0x2000
/-- The share may not be offered (10, R286; 12, R309). -/
def Core.refuses (c : Core) (k : Fin 32) : Bool :=
  k = 31 || c.shares[k] ≠ .own || (c.csr.lOn && c.csr.lShare = k.val) || c.conduitMeets k.val
/-- A core of the quire has a store in its buffer to one of the shares of a core, or an `amo` there that has read and not yet
written: each has passed its checks before the offer, and reaches the share first (10, R286; log 79). -/
def State.storesComing (s : State) (core : Nat) (named : List (Fin 32)) : Bool :=
  let within (p : Place) : Bool := match p with
    | .spad c off => c = core && named.any fun k => overlaps off 16 (k.val * 0x2000) 0x2000
    | .kettle _ _ | .hbm _ _ | .remote _ _ => false
  s.cores.any fun c => (named.any fun k => sbTouches c.2.sb (.spad core (k.val * 0x2000)) 0x2000)
    || c.2.ctxs.any fun k => match k.amo with | some (.computed p _ _) => within p | some (.written _) | none => false
/-- `BSHARE` (R286). Offer or withdraw bank shares to a quire pool. An offer of share 31 is trap 0x05 by 12, R309 and R333. -/
def execBshare (a b : Reg) (s : State) := M.run (do
  pageSix 2
  let wa ← readW a
  let wb ← readW b
  need (wa.toNat < 128) (.trap 0x01 wa)
  need (wb.toNat < (if wa.getLsbD 6 then 2 ^ 31 else 2 ^ 32)) (.trap 0x01 wb)
  let id := (wa.extractLsb' 0 6).toNat
  let named := (List.finRange 32).filter fun k => wb.getLsbD k.val
  let s ← get
  if wa.getLsbD 6 then
    match named.find? fun k => s.me.shares[k] ≠ .pooled id with
    | some k => trap 0x05 (localAddr (k.val * 0x2000))
    | none => set (named.foldl (fun t k => t.setShare s.cur k .own) s)
  else do
    if named.any fun k => sbTouches s.me.sb (.spad s.cur (k.val * 0x2000)) 0x2000 then drainFirst
    let s ← get
    if (named.any fun k => s.shareBusy k.val) || s.storesComing s.cur named then waitHere
    match named.find? fun k => s.me.refuses k with
    | some k => trap 0x05 (localAddr (k.val * 0x2000))
    | none => set (named.foldl (fun t k => t.setShare s.cur k (.pooled id)) s)) s
/-- Sets passed and all old sets of a walk (12, R329). -/
def Binding.progress (b : Binding) : Nat × Nat :=
  match b.old with
  | some o => ((b.passed.map fun x => x.2).foldl (· + ·) 0, (o.count.map fun x => o.sets x.1).foldl (· + ·) 0)
  | none => (0, 0)
/-- `BQUERY` (R289). Read a binding's state, shares, pool and progress. -/
def execBquery (d a : Reg) (s : State) := M.run (do
  pageSix 0
  let id ← bindingId (← readW a)
  let s ← get
  let b := s.binding id
  let code : Nat := match b.state with | .undefined => 0 | .active => 1 | .resizing => 2 | .draining => 3 | .retired => 4
  let most (q : Nat) : Nat :=
    match b.old with | some o => Nat.max (o.shares q) (b.rec'.shares q) | none => b.rec'.shares q
  let held := ((List.range 192).map most).foldl (· + ·) 0
  let (passed, all) := b.progress
  let prog := if all = 0 then 0 else passed * 4096 / all
  writeW d (BitVec.ofNat 64 (code + held * 2 ^ 8 + (s.pool s.myQuire id).length * 2 ^ 28 + prog * 2 ^ 44))) s

/-! ### The resize walkers (12, R328 to R332) -/

/-- The slice and the set of a place of the binding under a record. -/
def homedAt (id : Nat) (o : BindRec) (p : Place) : Option (Nat × Nat) :=
  match p with
  | .hbm pa b => if b = id && o.home then o.homeSlice pa else none
  | _ => none
/-- A walker waits while a granule of the set is granted or an engine owns a line of it (07, R180; 12, R329). -/
def State.setBusy (s : State) (id q set : Nat) (o : BindRec) : Bool :=
  (s.granules.any fun g => g.holder.isSome && homedAt id o g.place = some (q, set))
    || s.quires.any fun x => x.2.cmds.any fun c => c.lines.any fun l => homedAt id o l = some (q, set)
/-- A line of a near instance goes to its place under the new record. -/
def State.moveNear (s : State) (q id : Nat) (r : BindRec) (l : Line) : State :=
  let t := s.onQuire q fun x => { x with lines := x.lines.filter fun k => k ≠ l }
  let set := r.nearSet q l.base
  let (way, g) := (t.quire q).pickWay (t.quire q).lines r id q set true s.tick
  let u := t.dropLines q fun k => k.binding = id && k.set = set && k.moved && k.way = way
  u.onQuire q fun y => { y with lfsrs := mapPut y.lfsrs id g, lines := { l with set := set, way := way, moved := true } :: y.lines }
/-- A line of a home slice goes to its slice under the new record, or to HBM where a drain leaves it none. -/
def State.moveHome (s : State) (q id : Nat) (r : BindRec) (l : Line) : State :=
  match r.homeSlice l.base with
  | none => s.evictHome q fun k => k = l
  | some (p, set) =>
    let t := s.onQuire q fun x => { x with slices := x.slices.filter fun k => k ≠ l }
    let (way, g) := (t.quire p).pickWay (t.quire p).slices r id p set true s.tick
    let u := t.evictHome p fun k => k.binding = id && k.set = set && k.moved && k.way = way
    u.onQuire p fun y => { y with lfsrs := mapPut y.lfsrs id g, slices := { l with set := set, way := way, moved := true } :: y.slices }
/-- Lines in way order. -/
def inWays (ways : Nat) (ls : List Line) : List Line := (List.range ways).flatMap fun w => ls.filter fun l => l.way = w
/-- In a drain a set's leases end, and its granules go to binding 0 with their queues and watches (07, R180; 12, R329,
R330). -/
def State.drainSet (s : State) (id q set : Nat) (o : BindRec) : State :=
  let here (p : Place) : Bool := homedAt id o p = some (q, set)
  let go (p : Place) : Place := match p with | .hbm pa b => if here p then .hbm pa 0 else .hbm pa b | p => p
  let t := s.quires.foldl (fun t x => t.dropLeases x.1 fun l => l.binding = id && o.homeSlice l.base = some (q, set)) s
  let ctx (c : Ctx) : Ctx :=
    { c with queued := c.queued.map fun x => (go x.1, x.2), watch := c.watch.map fun x => (go x.1, x.2) }
  let moving := t.granules.filter fun g => here g.place
  let u := { t with
    granules := t.granules.filter fun g => !here g.place
    watches := t.watches.map fun w => { w with place := go w.place }
    cores := t.cores.map fun (n, c) => (n, { c with ctxs := c.ctxs.map ctx }) }
  moving.foldl (fun u g => let k := u.granule (go g.place); u.setGranule { k with queue := k.queue ++ g.queue }) u
/-- Set `set` of the old instance or slice moves, its lines in way order (12, R329). -/
def State.moveSet (s : State) (id q set : Nat) (o r : BindRec) : State :=
  let mine (l : Line) : Bool := l.binding = id && l.set = set && !l.moved
  if o.home then
    let t := (inWays o.ways ((s.quire q).slices.filter mine)).foldl (fun t l => t.moveHome q id r l) s
    if r.count.isEmpty then t.drainSet id q set o else t
  else if r.shares q = 0 then s.dropLines q mine
  else (inWays o.ways ((s.quire q).lines.filter mine)).foldl (fun t l => t.moveNear q id r l) s
/-- Binding `turn.unit`'s walker in quire `turn.index` moves its next set. -/
def State.walkerStep (s : State) (id q : Nat) : Option State :=
  let b := s.binding id
  match b.old with
  | none => none
  | some o =>
    let n := mapGet b.passed q 0
    if n < o.sets q && !s.setBusy id q n o then
      some ((s.moveSet id q n o b.rec').setBinding id { b with passed := mapPut b.passed q (n + 1) })
    else none
/-- `RESIZE_SET_MOVE`. -/
def execResizeSetMove (s : State) : Host.Outcome State Fault Refusal :=
  .next ((s.walkerStep s.turn.unit s.turn.index).getD s)
/-- A binding's shares in a quire: highest core first, highest share first. -/
def State.heldShares (s : State) (q id : Nat) : List (Nat × Fin 32) :=
  ((quireMembers q).flatMap fun c =>
    ((List.finRange 32).filter fun k => (s.core c).shares[k] = .held id).map fun k => (c, k)).reverse
/-- A share goes back to its core, zero-filled. -/
def State.returnShare (s : State) (x : Nat × Fin 32) : State :=
  s.onCore x.1 fun c =>
    { c with shares := c.shares.set x.2 .own, spad := Memory.clear c.spad (x.2.val * 0x2000) 0x2000
             bad := c.bad.filter fun d => d / 1024 ≠ x.2.val }
/-- The walk of a binding has passed every old set and ends (12, R331). -/
def State.walkEnd (s : State) (id : Nat) : Option State :=
  let b := s.binding id
  match b.old with
  | none => none
  | some o =>
    if o.count.all fun x => o.sets x.1 ≤ mapGet b.passed x.1 0 then
      let t := o.count.foldl (fun t x =>
        ((t.heldShares x.1 id).take (o.shares x.1 - b.rec'.shares x.1)).foldl State.returnShare t) s
      let still (l : Line) : Line := if l.binding = id then { l with moved := false } else l
      let t : State := { t with quires := t.quires.map fun (y : Nat × Quire) =>
        (y.1, { y.2 with lines := y.2.lines.map still, slices := y.2.slices.map still }) }
      some (t.setBinding id ⟨if b.rec'.count.isEmpty then .retired else .active, b.rec', none, []⟩)
    else none
/-- `RESIZE_WALK_END` of binding `turn.unit`. -/
def execResizeWalkEnd (s : State) : Host.Outcome State Fault Refusal := .next ((s.walkEnd s.turn.unit).getD s)

end Sys2Proof.Machine
end

