-- ==== Sys2Proof/Machine/Boundary.lean ====
section
/-! DEFINITION. Events between instructions, and pre-emption (16, R428 to R431; 01, R24; 13, R359). -/

namespace Sys2Proof.Machine

/-! ### Boundary events (16, R428, Table 16.6) -/

inductive Boundary where | imprecise | sequence | overrun | handle | inbox | breakpoint | preempt
  deriving DecidableEq, Repr

/-- A wait that its context may be withdrawn from: nothing of the instruction has taken effect, and it does not wait for a stack
to be trained (16, R430; 17, R442). -/
def State.withdrawable (s : State) (c : Ctx) : Bool :=
  !(c.wants.any s.untrained) && (!c.waiting || (c.yields && c.granted.isNone && c.amo.isNone && c.remote.isNone && c.hand.isNone && c.posted.isNone && c.counts.isNone))
/-- An engine, the matrix unit or a conduit keeps the core's context from being saved (16, R430; 14, R373). -/
def State.engineHolds (s : State) (core : Nat) : Bool :=
  let c := s.core core
  let x := s.quire (quireOf core)
  !c.mops.isEmpty || (x.rects.any fun r => r.core = core) || (x.cmds.any fun k => k.conduit.isSome && k.cores.contains core)
/-- The core's arrival at the system barrier has risen to the device above and is not taken back: the barrier completes first
(07, R191; log 91). -/
def State.arrivalStands (s : State) (core : Nat) : Bool :=
  match s.episode .sys 0 with
  | some e => !e.alone && (s.fabric.rose || e.released) && e.arrived.contains core
  | none => false
/-- The pending request may be taken now (16, R430). -/
def State.mayPreempt (s : State) (core : Nat) : Bool :=
  let c := s.core core
  let answered := match c.gwork with
    | some (.step _ (some _)) => true
    | some (.mask _ _ _ _ (some _)) => true
    | _ => false
  (match c.preempt with | some p => p.free | none => false)
    && (c.csr.mode ≠ 2 || c.csr.pe) && !c.csr.ph && c.rep.isNone && !(s.engineHolds core)
    && ((List.finRange 11).all fun h => h = 0 || c.ctxs[h].hstat ≠ 1)
    && s.withdrawable c.ctxs[0] && c.barPass.isNone && !c.copyOk && !answered && !s.arrivalStands core
/-- The first event that a core takes before its next instruction. A wait is withdrawn by pre-emption alone. -/
def State.boundary (s : State) (core : Nat) : Option Boundary :=
  let c := s.core core
  if c.run ≠ .task || c.csr.tk then none
  else
    let free := !c.ctxs[0].waiting
    if free && !c.impErr.isEmpty then some .imprecise
    else if free && c.repFault.isSome then some .sequence
    else if free && c.overrun.isSome then some .overrun
    else if free && !c.badHandle.isEmpty then some .handle
    else if free && c.overflow.isSome then some .inbox
    else if free && c.bpHit.isSome then some .breakpoint
    else if s.mayPreempt core then some .preempt
    else none
/-- A core takes a boundary trap; `epc` is its next instruction (16, R428). -/
def State.boundaryTrap (s : State) (core : Nat) (cause : BitVec 6) (tval : Word) : State :=
  ((s.loseResv ⟨core, 0⟩).onCore core fun c => c.takeTrap cause tval c.ctxs[0].pc).tellStop core
/-- The event of a core is taken if it is the one that comes first. -/
def takeBoundary (s : State) (b : Boundary) (f : Core → State → State) : Host.Outcome State Fault Refusal :=
  let n := s.turn.core
  .next (if s.boundary n = some b then f (s.core n) s else s)
/-- `IMPRECISE_ERROR_EVENT` of core `turn.core`. -/
def execImpreciseErrorEvent (s : State) : Host.Outcome State Fault Refusal :=
  takeBoundary s .imprecise fun c s =>
    (s.onCore s.turn.core fun c => { c with impErr := c.impErr.tail }).boundaryTrap s.turn.core 0x0E (c.impErr.headD 0)
/-- `REP_SEQUENCE_FAULT` of core `turn.core`. -/
def execRepSequenceFault (s : State) : Host.Outcome State Fault Refusal :=
  takeBoundary s .sequence fun c s =>
    let (cause, tval) := c.repFault.getD (0, 0)
    (s.onCore s.turn.core fun c => { c with repFault := none }).boundaryTrap s.turn.core cause tval
/-- `PHASE_OVERRUN` of core `turn.core` (09, R239). -/
def execPhaseOverrun (s : State) : Host.Outcome State Fault Refusal :=
  takeBoundary s .overrun fun c s =>
    (s.onCore s.turn.core fun c => { c with overrun := none }).boundaryTrap s.turn.core 0x07
      (BitVec.ofNat 64 (c.overrun.getD 0))
/-- `BAD_DEQUE_HANDLE` of core `turn.core` (13, R344). -/
def execBadDequeHandle (s : State) : Host.Outcome State Fault Refusal :=
  takeBoundary s .handle fun c s =>
    (s.onCore s.turn.core fun c => { c with badHandle := c.badHandle.tail }).boundaryTrap s.turn.core 0x0A
      (c.badHandle.headD 0)
/-- `INBOX_OVERFLOW` of core `turn.core`; it stays pending while the overflow slot is full (06, R154). -/
def execInboxOverflow (s : State) : Host.Outcome State Fault Refusal :=
  takeBoundary s .inbox fun _ s => s.boundaryTrap s.turn.core 0x09 17
/-- `BREAKPOINT` of core `turn.core` (16, R429). -/
def execBreakpoint (s : State) : Host.Outcome State Fault Refusal :=
  takeBoundary s .breakpoint fun c s =>
    (s.onCore s.turn.core fun c => { c with bpHit := none }).boundaryTrap s.turn.core 0x13 (c.bpHit.getD 0)
/-- `BREAKPOINT_SET`: comparator `turn.index` of core `turn.core` takes the address `turn.opt`, or none. -/
def execBreakpointSet (s : State) : Host.Outcome State Fault Refusal :=
  .next (s.onCore s.turn.core fun c => { c with bps := c.bps.set (Fin.ofNat 4 s.turn.index) s.turn.opt })

/-! ### Requests (16, R430; 01, R24) -/

def State.report (s : State) (kind v : Nat) : State := { s with reports := s.reports ++ [(kind, v)] }
/-- A save or restore address: in a view of Table 12.9 and aligned to 64 KiB. -/
def saveAddrOk (a : Option Word) : Bool :=
  match a with | some x => x.toNat % 65536 = 0 && (canonical x.toNat).isSome | none => true
/-- LVL names a level above the quire of which the core is a member: the request is held (01, R24). -/
def Csr.heldLevel (c : Csr) : Option Level := [Level.die, .dev, .sys].find? fun l => c.holdsFor l
/-- `PREEMPTION_REQUEST`: core `turn.core`, save address `turn.opt`, and restore address `turn.value` where `turn.flag`
is set. A core that waits in a barrier of the level that holds the request takes it there, its arrival withdrawn; LVL counts
as it stands when the request arrives (01, R24; 07, R191). -/
def execPreemptionRequest (s : State) : Host.Outcome State Fault Refusal :=
  let n := s.turn.core
  let back : Option Word := if s.turn.flag then some s.turn.value else none
  if (s.core n).run = .stopped || !saveAddrOk s.turn.opt || !saveAddrOk back then .next (s.report 2 n)
  else match s.turn.opt with
    | none => .next (s.onCore n fun c => { c with restore := back })
    | some a =>
      let c := s.core n
      let level := c.csr.heldLevel
      let met := level.isSome && c.barWait = level && c.barPass.isNone && !s.arrivalStands n
      let t := if met then s.withdraw n else s
      .next (t.onCore n fun c => { c with preempt := some ⟨a, back, s.gtime, level, level.isNone || met⟩ })
/-- The request of a core has been held for 1 ms of `gtime` (01, R24). -/
def State.holdOver (s : State) (core : Nat) : Bool :=
  match (s.core core).preempt with
  | some p => !p.free && 1000000 ≤ (s.gtime - p.came).toNat
  | none => false
/-- `PREEMPTION_HOLD_TIMEOUT` of core `turn.core`. -/
def execPreemptionHoldTimeout (s : State) : Host.Outcome State Fault Refusal :=
  if s.holdOver s.turn.core then
    .next (s.onCore s.turn.core fun c => { c with preempt := c.preempt.map fun p => { p with level := none, free := true } })
  else .next s

/-! ### Physical memory by address (12, R334) -/

/-- Bytes stored at a physical address at their homes, 4 KiB piece by piece. -/
def State.physStore (s : State) (pa : Nat) (bs : List Byte) : Nat → State
  | 0 => s
  | n + 1 =>
    if bs.isEmpty then s
    else
      let k := 4096 - pa % 4096
      let t := match canonical pa with | some a => s.uncStore 0 none a (storeBytes (bs.take k)) | none => s
      t.physStore (pa + k) (bs.drop k) n
/-- Bytes loaded from a physical address at their homes. -/
def State.physLoad (s : State) (pa len : Nat) : Nat → State × List Byte
  | 0 => (s, [])
  | n + 1 =>
    if len = 0 then (s, [])
    else
      let k := Nat.min len (4096 - pa % 4096)
      let (t, bs) := match canonical pa with | some a => s.uncLoad 0 a k | none => (s, List.replicate k 0)
      let (u, cs) := t.physLoad (pa + k) (len - k) n
      (u, bs ++ cs)
/-- The pieces of a range of physical addresses. -/
def physPieces (pa len : Nat) : List Place :=
  (List.range (len / 4096)).filterMap fun i => (canonical (pa + i * 4096)).map fun a => .hbm a 0
/-- The save area's length. -/
def saveLength : Nat := 0xE000
/-- A range stands in a stack that is not trained yet, or an engine owns a line of it. -/
def State.physBusy (s : State) (pa len : Nat) : Bool :=
  (physPieces pa len).any fun p => s.untrained p || s.owned p 4096

/-! ### The save area (16, Table 16.7) -/

/-- A conduit in 16 bytes: descriptor and counts (the packing is the model's: log 6). -/
def Conduit.bytes (c : Conduit) : List Byte :=
  let h := if c.count = 0 then 0 else c.head % c.count
  toBytes 16 (c.base / 128 + c.esize / 128 * 2 ^ 11 + c.count * 2 ^ 20 + (if c.prod then 2 ^ 29 else 0)
    + (if c.cons then 2 ^ 30 else 0) + c.win * 2 ^ 31 + h * 2 ^ 34 + (c.tail - c.head) * 2 ^ 42 + c.free * 2 ^ 51)
def Conduit.ofBytes (b : List Byte) : Conduit :=
  let n := Machine.ofBytes b
  let f (lo k : Nat) : Nat := n / 2 ^ lo % 2 ^ k
  { base := f 0 11 * 128, esize := f 11 9 * 128, count := f 20 9, prod := f 29 1 = 1, cons := f 30 1 = 1, win := f 31 3
    head := f 34 8, tail := f 34 8 + f 42 9, free := f 51 9 }
def words (xs : List Word) : List Byte := xs.flatMap fun x => toBytes 8 x.toNat
/-- The saved context at offsets 0x40 to 0x97FF. -/
def Core.contextBytes (c : Core) : List Byte :=
  let r := c.csr
  words [c.ctxs[0].pc, r.status, r.epc, r.upepc, r.upvec, r.actl, r.aflags, r.rngkey]
    ++ words c.ctxs[0].w.toList
    ++ (c.v.toList.flatMap fun x => toBytes 128 x.toNat)
    ++ (c.m.toList.flatMap fun x => toBytes 32 x.toNat)
    ++ words r.fmt.toList
    ++ (r.wins.toList.flatMap fun x => words [x.lo, x.hi])
    ++ toBytes 64 c.mcfg.toNat
    ++ (c.conduits.toList.flatMap Conduit.bytes)
    ++ (r.table.toList.flatMap fun x => toBytes 4 x.toNat)
    ++ List.replicate 96 0
    ++ (c.acc.toList.flatMap fun a => a.toList.flatMap fun x => toBytes 128 x.toNat)
/-- HOLD: bucket, worklist and a valid bit. -/
def holdWord (h : List (Nat × Nat)) : Nat :=
  match h with | (w, b) :: _ => b % 2 ^ 32 + w % 16 * 2 ^ 32 + 2 ^ 36 | [] => 0
/-- The running folio with its offset in its zero word. -/
def State.savedFolio (s : State) (core : Nat) : List Byte :=
  let off := (s.core core).folio
  let f := s.folioBytes core off
  f.take 0x14 ++ toBytes 4 off ++ f.drop 0x18
/-- Uncorrectable doubles of a range of a scratchpad stay so where its bytes have been stored at a physical address
(16, R433). -/
def State.carryBad (s : State) (c : Core) (off n pa : Nat) : State :=
  (c.bad.filter fun d => overlaps off n (d * 8) 8).foldl (fun t d =>
    match canonical (pa + d * 8 - off) with | some a => t.hurtHome 0 (a / 8) | none => t) s
/-- The save: its parts in the order of R430; none while a store of the core, a kettle operation that its context has sent
(11, R299), or the area has to wait. -/
def State.save (s : State) (core : Nat) : Option State :=
  match (s.core core).preempt with
  | some ⟨a, back, _, _, _⟩ =>
    if s.physBusy a.toNat saveLength || (s.kops.any fun k => k.agent = ⟨core, 0⟩) then none
    else
      -- the wait is withdrawn, and the reservation is lost
      let s := (s.withdraw core).loseResv ⟨core, 0⟩
      let s := s.onCore core fun c => { c with copyReq := none, gwork := none }
      let sc := Scope.wider (stealRelease (s.pubScope core)) .dev
      (s.releaseFor core sc).map fun t =>
        let t := t.published core
        let c := t.core core
        let f := t.savedFolio core
        let pa := a.toNat
        let tile (t : State) (k at' : Nat) : State :=
          match tileRange (fieldAt f k 8) with
          | some (o, n) => (t.physStore (pa + at') (Memory.read c.spad o n) 16).carryBad c o n (pa + at')
          | none => t
        let t := t.physStore pa (toBytes 4 0 ++ toBytes 4 ((t.quire (quireOf core)).qasr.extractLsb' 48 16).toNat
          ++ toBytes 8 t.gtime.toNat ++ toBytes 4 core ++ toBytes 4 0 ++ toBytes 8 (holdWord c.hold)
          ++ List.replicate 32 0 ++ c.contextBytes ++ f ++ List.replicate 1984 0) 16
        let t := tile (tile (t.carryBad c c.folio 64 (pa + 0x9800)) 0x20 0xA000) 0x28 0xC000
        let t := t.physStore pa (toBytes 4 1) 1
        let held : State := { t with
          parked := (t.parked.filter fun x => x.1 ≠ pa) ++ c.hold.map fun h => (pa, h)
          mgmt := { t.mgmt with savedOut := mapPut t.mgmt.savedOut pa (quireOf core) } }
        (held.leaveTask core).onCore core fun c => { c with preempt := none, restore := back, csr := c.csr.setPh false }
  | none => none
/-- `PREEMPTION_SAVE` of core `turn.core`. -/
def execPreemptionSave (s : State) : Host.Outcome State Fault Refusal :=
  takeBoundary s .preempt fun _ s => (s.save s.turn.core).getD s

/-! ### Restoring (16, R431) -/

/-- The folio and tiles of a save area have a place on a core (13, R347); the scheduler's own folio offsets are
places of running folios too. -/
def restorable (c : Core) (f : List Byte) : Bool :=
  let off := fieldAt f 0x14 4
  off % 64 = 0 && folioTilesOk f && rangesFit c (folioTiles f)
    && (off = popFolio || off = forkFolio || off = launchFolio || rangesFit c [(off, 64)])
/-- A core takes the context that a save area holds. -/
def Core.loadContext (c : Core) (b : List Byte) (free : Nat) : Core :=
  let d (o : Nat) : Word := BitVec.ofNat 64 (fieldAt b o 8)
  let st := d 0x48
  let st := if st.extractLsb' 0 2 = 3#2 then (st &&& 0x7C) ||| BitVec.ofNat 64 (free % 3) else st &&& 0x7F
  let x : Ctx := { c.ctxs[0] with
    pc := evenPc (d 0x40), w := Vector.ofFn fun i => d (0x80 + 8 * i.val), waiting := false, resv := none }
  let row (k i : Nat) : VecReg := BitVec.ofNat 1024 (fieldAt b (0x1800 + k * 8192 + i * 128) 128)
  let win (i : Nat) : Win :=
    ⟨d (0x12A0 + 16 * i) &&& windowBits i false, d (0x12A8 + 16 * i) &&& windowBits i true⟩
  let r : Csr := { c.csr with
    status := st &&& ~~~(0x40#64), epc := d 0x50, upepc := d 0x58, upvec := d 0x60, actl := d 0x68 &&& 7
    aflags := d 0x70 &&& 0x1F, rngkey := d 0x78, winsel := 0
    fmt := Vector.ofFn fun i => d (0x1280 + 8 * i.val) &&& 0xFFFFF
    wins := Vector.ofFn fun i => win i.val
    table := Vector.ofFn fun i => BitVec.ofNat 32 (fieldAt b (0x13A0 + 4 * i.val) 4 % 2 ^ 19) }
  { c with
    ctxs := c.ctxs.set 0 x, csr := r
    v := Vector.ofFn fun i => BitVec.ofNat 1024 (fieldAt b (0x180 + 128 * i.val) 128)
    m := Vector.ofFn fun i => BitVec.ofNat 256 (fieldAt b (0x1180 + 32 * i.val) 32)
    mcfg := BitVec.ofNat 512 (fieldAt b 0x1320 64)
    conduits := Vector.ofFn fun i => Conduit.ofBytes ((b.drop (0x1360 + 16 * i.val)).take 16)
    acc := Vector.ofFn fun k => Vector.ofFn fun i => row k.val i.val
    run := .task, folio := fieldAt b 0x9814 4, restore := none, wake := false, afterBar := false
    barWait := none, barPass := none }
/-- A core between tasks has a restore to take, and nothing keeps it waiting. -/
def State.restoreReady (s : State) (core : Nat) : Bool :=
  let c := s.core core
  match c.restore with
  | some a =>
    (c.run = .seeking || c.run = .probing || c.run = .asleep) && c.recruit.isNone && !s.physBusy a.toNat saveLength
      && !(c.undelivered && (fieldAt (s.physLoad (a.toNat + 0x9814) 4 2).2 0 4 = launchFolio))
  | none => false
/-- The restore: refused, or its parts in the order of R431. -/
def State.restoreCore (s : State) (core : Nat) (a : Word) : State :=
  let pa := a.toNat
  let (s, b) := s.physLoad pa saveLength 16
  let c := s.core core
  let f := (b.drop 0x9800).take 64
  let asn := ((s.quire (quireOf core)).qasr.extractLsb' 48 16).toNat
  let hurt := (physPieces pa saveLength).any fun p => s.anyBad p 4096
  if hurt || fieldAt b 0 4 ≠ 1 || fieldAt b 4 4 ≠ asn || !restorable c f then
    (s.onCore core fun c => { c with restore := none }).report 3 core
  else
    let off := fieldAt f 0x14 4
    let tile (t : State) (k at' : Nat) : State :=
      match tileRange (fieldAt f k 8) with
      | some (o, n) => t.putSpad core o ((b.drop at').take n)
      | none => t
    let t := tile (tile (s.putSpad core off f) 0x20 0xA000) 0x28 0xC000
    let h := fieldAt b 0x18 8
    let kept := (t.parked.filter fun x => x.1 = pa).map fun x => x.2
    let hold := if h / 2 ^ 36 % 2 = 1 then
        if kept.isEmpty then [(h / 2 ^ 32 % 16, h % 2 ^ 32)] else kept
      else []
    let t : State := { t with
      parked := t.parked.filter fun x => x.1 ≠ pa, tick := t.tick + 1
      mgmt := { t.mgmt with savedOut := t.mgmt.savedOut.filter fun x => x.1 ≠ pa } }
    let t := t.onCore core fun c => { (c.loadContext b (Config.openMode s.tick)) with hold := hold }
    (t.physStore pa (toBytes 4 0) 1).acquire core .dev
/-- `PREEMPTION_RESTORE` of core `turn.core`. -/
def execPreemptionRestore (s : State) : Host.Outcome State Fault Refusal :=
  let n := s.turn.core
  match (s.core n).restore with
  | some a => .next (if s.restoreReady n then s.restoreCore n a else s)
  | none => .next s

end Sys2Proof.Machine
end

