-- ==== Sys2Proof/Machine/Rep.lean ====
section
/-! DEFINITION. Page 4: repetition sequences (09, R257 to R259; 02, R47). -/

namespace Sys2Proof.Machine

/-! ### Recording -/

/-- The form has a w register as its destination: Table 9.12 bars it from the body of a `rep`. -/
def writesW : Instr → Bool
  | .vext _ _ _ _ | .vredsum _ _ _ _ | .vredmin _ _ _ _ | .vredmax _ _ _ _ | .mpop _ _ _ | .mffs _ _ _
  | .vfredsum _ _ _ _ _ | .vfredmin _ _ _ _ _ | .vfredmax _ _ _ _ _ | .mstat _ => true
  | _ => false
/-- The forms of page 4 that no body holds (09, Table 9.12). -/
def neverInBody : Instr → Bool
  | .mcfg _ | .cdcfgConfigure _ _ | .cdcfgWaitFull _ _ | .cdcfgPop _ _ | .cdcfgWaitFree _ _ | .cdcfgPush _ _
  | .cdcfgReset _ _ | .rep _ _ | .repx _ _ => true
  | _ => false
/-- The body may hold the instruction (09, R258, Table 9.12). -/
def inBody (alone : Bool) (c : Chain) (i : Instr) : Bool :=
  let timed := match c.sc with | some s => s.extractLsb' 9 2 != 2#2 | none => false
  let page := c.page.toNat
  let op := c.op.toNat
  !timed && !neverInBody i
    && ((2 ≤ page && page ≤ 4 && (alone || !writesW i)) || (alone && page = 0 && (op < 0x13 || 0x17 < op)))
/-- The core's control context records a body. -/
def Core.recording (c : Core) : Bool := match c.rep with | some r => !r.recorded | none => false
/-- The recorded body has executions left. -/
def Core.repeating (c : Core) : Bool := match c.rep with | some r => r.recorded | none => false
/-- The instruction at `pc` is the one that is recorded next. A trap or an upcall that a body instruction takes leaves the
recording open: its handler is not recorded, and the recording goes on when `pc` comes back (log 97). -/
def Core.recordsAt (c : Core) (pc : Word) : Bool :=
  match c.rep with | some r => !r.recorded && r.expect == pc | none => false
/-- A body instruction has executed for the first time and is recorded; with the last one the reissues begin. -/
def State.record (s : State) : State :=
  let c := s.me
  match c.rep with
  | none => s
  | some r =>
    let body := r.body ++ [⟨s.issue.pc, s.issue.wordPc, s.issue.next, s.issue.chain⟩]
    let x : RepSeq := { r with body := body, expect := s.issue.next }
    if body.length = r.n then
      if r.total = 1 then s.setMe { c with rep := none }
      else
        let sub : Ctx := { Ctx.reset with w := c.ctxs[0].w, mode := c.csr.mode }
        let y : RepSeq := { x with k := 1, shadow := sub }
        s.setMe { c with rep := some y }
    else s.setMe { c with rep := some x }
/-- `rep` and `repx`. -/
def repeat' (alone : Bool) (a : Reg) (n : BitVec 6) : M Unit := do
  controlOnly
  let x ← readW a
  need (x.toNat ≤ 4096) (.trap 0x01 (← get).issue.wordPc)
  let seq : RepSeq :=
    { alone := alone, n := n.toNat, total := Nat.max x.toNat 1, body := [], expect := (← get).issue.next, k := 0
      idx := none, shadow := Ctx.reset }
  modify fun s => s.onMe fun c => { c with rep := some seq }
/-- `REP` (R257). Record the next n instructions and reissue them, scalar slot running ahead. -/
def execRep (a : Reg) (n : BitVec 6) (s : State) := M.run (repeat' false a n) s
/-- `REPX` (R257). Record and reissue a body, issuing nothing else until done. -/
def execRepx (a : Reg) (n : BitVec 6) (s : State) := M.run (repeat' true a n) s

/-! ### Reissuing -/

/-- `REP_REISSUE`: the sequencer of core `turn.core` begins its next iteration. -/
def execRepReissue (s : State) : Host.Outcome State Fault Refusal :=
  .next (s.onCore s.turn.core fun c =>
    match c.rep with
    | some r => if r.recorded && r.idx.isNone then { c with rep := some { r with idx := some 0 } } else c
    | none => c)
/-- The body instruction that the sequencer of a core issues next, with its marked fields moved on (02, R47). -/
def Core.reissued (c : Core) : Option (RepItem × Chain) :=
  match c.rep with
  | some r => if r.recorded then match r.idx with
      | some i => (r.body[i]?).map fun x => (x, x.chain.advance r.k)
      | none => none
    else none
  | none => none
/-- The sequencer issues in the place of the control context: what the form keeps while it waits is the sequencer's,
and so are the w registers of a `rep`. -/
def State.enterReissue (s : State) (core : Nat) (x : RepItem) (ch : Chain) : State :=
  let c := s.core core
  match c.rep with
  | none => s
  | some r =>
    let real := c.ctxs[0]
    let sub : Ctx := { r.shadow with w := if r.alone then real.w else r.shadow.w, resv := real.resv }
    let t := s.setCore core { c with ctxs := c.ctxs.set 0 sub, rep := some { r with shadow := real } }
    { t with cur := core, ctx := 0, issue := ⟨x.pc, x.wordPc, x.next, ch, true, false, false, false⟩ }
/-- The sequencer goes on to the next body instruction, or ends the sequence after a fault or the last execution. -/
def State.leaveReissue (s : State) : State :=
  let c := s.me
  match c.rep with
  | none => s
  | some r =>
    let sub := c.ctxs[0]
    let real := r.shadow
    let back : Ctx := { real with w := if r.alone then sub.w else real.w, resv := sub.resv }
    let i := match r.idx with | some i => i + 1 | none => 0
    let next : Option RepSeq :=
      if r.total = 0 then none
      else if sub.waiting then some { r with shadow := sub }
      else if i < r.n then some { r with shadow := sub, idx := some i }
      else if r.k + 1 < r.total then some { r with shadow := sub, k := r.k + 1, idx := none }
      else none
    let t := s.setMe { c with ctxs := c.ctxs.set 0 back, rep := next }
    { t with issue := { t.issue with reissue := false, stay := false, took := false, jumped := false } }

end Sys2Proof.Machine
end

