-- ==== Sys2Proof/Machine/Fetch.lean ====
section
/-! DEFINITION. Fetching and decoding an instruction, when it may issue, and what follows its completion
(01, R10; 02, R45, R46, R55 to R61; 05, R120; 09, R238 to R240, R257, R258; 16, R429). -/

namespace Sys2Proof.Machine

/-! ### Fetch (02, R60, R61; 05, R120) -/

/-- The place of an instruction word: the core's own scratchpad through slot 0 and win0, or an executable page of this
device. -/
def fetchPlace (va : Word) : M Place := do
  let s ← get
  let page : M Place := do
    let e ← translate va va true
    match ← liftE (checkEntry (← get) e va va .fetch) with
    | .remote _ _ => trap 0x0C va
    | p => return p
  match regionOf va with
  | .bad => upcall 0x20 va
  | .user => page
  | .super => if s.mode = 2 then page else trap 0x02 va
  | .loc win slot off =>
    if win ≠ 0 || slot ≠ 0 then trap 0x04 va
    else if sharesOwn s.me off 2 then return .spad s.cur off
    else trap 0x05 va
/-- The place by which a kept word is known. -/
def wordKey : Place → Place
  | .hbm pa _ => .hbm pa 0
  | p => p
/-- Fetch keeps a word beside those that it has kept of the same place. -/
def Core.keepWord (c : Core) (p : Place) (w : Base) : Core :=
  if c.fetched.contains (p, w, false) then c else { c with fetched := (p, w, false) :: c.fetched }
/-- One instruction word. A word that fetch keeps may serve in place of the one in memory (R61). -/
def fetchWord (va : Word) : M Base := do
  let p ← fetchPlace va
  let s ← get
  if s.untrained p || s.owned p 2 then waitOn (s.waitsFor p 2)
  if s.hurts s.myQuire [] p 2 .dflt then
    modify fun s => s.noteError p 2
    thenTake (.trap 0x0E va)
  let (t, bs) := s.loadPlace s.myQuire p 2 .dflt
  set t
  let fresh := BitVec.ofNat 16 (ofBytes bs)
  modify fun s => s.onMe fun c => c.keepWord (wordKey p) fresh
  match s.me.fetched.filter fun x => x.1 = wordKey p with
  | [] => return fresh
  | kept => do
    let i ← freeIndex
    let words := fresh :: kept.map fun x => x.2.1
    return words.getD (Config.keptWord i % words.length) fresh

/-- What the words from an address on hold: a chain with its instruction word's address and the next instruction's, or
the word at which decoding failed. -/
inductive Fetched where
  | chain (c : Chain) (wordPc next : Word) | bad (at' : Word)
  deriving DecidableEq, Repr
/-- The words read in address order (R56): at most four prefixes and an instruction word. -/
def fetchChain : Nat → Prefixes → Word → M Fetched
  | 0, _, va => return .bad va
  | n + 1, p, va => do
    match p.read (← fetchWord va) with
    | .bad => return .bad va
    | .done c => return .chain c va (va + 2)
    | .more q => fetchChain n q (va + 2)

/-- `cdcfg` by the operation in wa[3:0] (09, Table 9.7). -/
def conduitForm (i : Instr) (wa : Reg → Word) : Instr :=
  match i with
  | .cdcfgConfigure k a =>
    match ((wa a).extractLsb' 0 4).toNat with
    | 1 => .cdcfgWaitFull k a
    | 2 => .cdcfgPop k a
    | 3 => .cdcfgWaitFree k a
    | 4 => .cdcfgPush k a
    | 5 => .cdcfgReset k a
    | _ => .cdcfgConfigure k a
  | i => i
/-- The instruction in flight, known by its address alone. -/
def Issue.at (pc : Word) : Issue := { Issue.reset with pc := pc, wordPc := pc, next := pc }
/-- The instruction of a chain. Words that are none, and forms that are barred to a helper (R43), execute as an illegal
encoding. -/
def State.formOf (s : State) (c : Chain) : Instr :=
  if s.ctx ≠ 0 && !helperMay c then .illegalEncoding
  else match decodeChain c with
    | some i => conduitForm i s.w
    | none => .illegalEncoding
/-- The instruction at the context's program counter. -/
def fetchInstr : M Instr := do
  let s ← get
  match ← fetchChain 5 Prefixes.none s.issue.pc with
  | .bad va => do
    modify fun s => { s with issue := { s.issue with wordPc := va, next := va + 2 } }
    return .illegalEncoding
  | .chain c word next => do
    modify fun s => { s with issue := { s.issue with wordPc := word, next := next, chain := c } }
    return s.formOf c
/-- A word that the fetch unit of a core takes in before it is asked for (02, R61). -/
def State.fetchAhead (s : State) (n : Nat) : State :=
  let (kind, a, b) := Config.ahead s.tick
  let p : Place := if kind = 0 then .spad n (a % 0x20000 * 2) else .hbm (a % 0x3000000000 * 2) (b % 64)
  let t : State := { s with tick := s.tick + 1 }
  if t.untrained p || t.owned p 2 || t.hurts (quireOf n) [] p 2 .dflt then t
  else
    let (u, bs) := t.loadPlace (quireOf n) p 2 .dflt
    u.onCore n fun c => c.keepWord (wordKey p) (BitVec.ofNat 16 (ofBytes bs))

/-! ### When an instruction may issue -/

/-- Version and control field of a schedule prefix (02, Table 2.4). -/
def scheduleOf (c : Chain) : Option (Nat × Nat) := c.sc.map fun k => ((k.extractLsb' 9 2).toNat, (k.extractLsb' 0 9).toNat)
/-- The phase cycle at which an instruction issues (02, R45, R46): none for a slot that has been missed. -/
def Phase.target (p : Phase) (c : Chain) : Option Nat :=
  match scheduleOf c with
  | some (0, stall) => some (Nat.max p.cycle (p.base + stall - 1))
  | some (1, ctl) =>
    let t := p.cycle / 512 * 512 + ctl
    if t < p.cycle then none else some t
  | _ => some p.cycle
/-- What the context does now: it stops here, or runs an instruction. -/
inductive Plan where
  | stop (s : State) | run (i : Instr) (s : State)
  deriving DecidableEq, Repr
/-- The instruction in flight takes trap 0x07: it missed its slot, or names a phase cycle outside a phase (02, R46). -/
def State.missSlot (s : State) : Plan := .stop (s.deliver (.trap 0x07 0))
/-- A fetched instruction issues now, or not yet (02, R46; 09, R238). What decoding reports comes first: an illegal encoding
and the privilege of page 6 (02, R56). -/
def State.schedule (s : State) (i : Instr) : Plan :=
  let c := s.me
  if i = .illegalEncoding || s.lacksMode i then .run i s
  else match s.ctx = 0 && !s.myCtx.waiting, c.phase with
  | true, some p =>
    match p.target s.issue.chain with
    | none => s.missSlot
    | some t => if p.cycle < t then .stop (s.onMe fun c => { c with phase := some { p with cycle := t } }) else .run i s
  | _, _ =>
    match scheduleOf s.issue.chain with
    | some (1, _) => if c.csr.ph || s.myCtx.waiting then .run i s else s.missSlot
    | _ => .run i s
/-- The form is barred in the phase that is open (09, Table 9.5). -/
def State.phaseBars (s : State) (i : Instr) : Bool :=
  s.csr.ph && match s.issue.chain.page.toNat with
    | 0 => (s.dataAddr i).any fun a => !phaseAllows s a
    | 1 => match i with | .fence _ .core | .fenceAcq _ .core | .fenceRel _ .core => false | _ => true
    | 4 => match i with
      | .cp _ | .cpm _ | .cpc _ | .cpw _ | .cpfence | .cdcfgConfigure _ _ | .cdcfgWaitFull _ _ | .cdcfgWaitFree _ _
      | .cdcfgReset _ _ => true
      | _ => false
    | 5 => match i with
      | .phBegin _ | .gload _ | .gstep _ _ | .gmask _ _ | .gstate _ | .sampF32 _ _ | .sampBf16 _ _ => true
      | _ => false
    | 6 => true
    | _ => false
/-- An instruction of a body that may not stand there ends the sequence (09, R258); one that the open phase bars takes the
trap of the phase first (09, R240). A form of page 6 that lacks its mode ends the sequence too: which of R258's trap 0x01
and the 0x02 of its privilege is reported is not stated (log 95). Pages 2 to 4 wait for the sequencer (09, Table 9.12). -/
def State.repGate (s : State) (i : Instr) : Plan :=
  let c := s.me
  let page := s.issue.chain.page.toNat
  if s.ctx ≠ 0 then s.schedule i
  else if c.repeating && 2 ≤ page && page ≤ 4 && i ≠ .illegalEncoding then .stop s
  else match c.rep with
    | some r =>
      if c.recordsAt s.issue.pc && i ≠ .illegalEncoding && !inBody r.alone s.issue.chain i then
        if s.phaseBars i && !s.lacksMode i then .run i s
        else .run .illegalEncoding (s.setMe { c with rep := none })
      else s.schedule i
    | none => s.schedule i
/-- The chain that a waiting instruction was fetched as: it goes on as that, whatever has become of its words and their
mapping (02, R39). -/
def Ctx.kept (k : Ctx) : Option Issue :=
  match k.chain with
  | some x => if k.waiting && x.pc = k.pc then some x else none
  | none => none
/-- What context `x` of core `n` does next. A fetch that has to wait leaves everything as it was, but for the lines that it
waits for. -/
def State.plan (s : State) (n : Nat) (x : Fin 11) : Plan :=
  let k := (s.core n).ctxs[x]
  match k.kept with
  | some y =>
    let t : State := { s with cur := n, ctx := x, issue := y }
    t.repGate (t.formOf y.chain)
  | none =>
  let t : State := { s with cur := n, ctx := x, issue := Issue.at k.pc }
  match fetchInstr t with
  | .ok (i, u) => u.repGate i
  | .error (.exc (.wait on)) =>
    .stop (if on.isEmpty then s else s.onCore n fun c => { c with ctxs := c.ctxs.set x { c.ctxs[x] with wants := on } })
  | .error (.exc e) => .stop (t.deliver e)
  | .error (.badWalk e) => .stop (t.countMalformed.deliver e)
  | .error (.done u) => .stop u

/-- The control context may issue: it runs, nothing comes first (16, R428), and its phase has come to a cycle in which
it may (09, R238, R239). -/
def State.controlReady (s : State) (n : Nat) : Bool :=
  let c := s.core n
  let k := c.ctxs[0]
  let inStep := match c.phase with
    | some p => k.waiting || (p.sent.isNone && p.cycle < p.len && p.cycle < (s.quire (quireOf n)).sewClk)
    | none => true
  c.run = .task && (s.boundary n).isNone && inStep
    && !(match c.rep with | some r => r.recorded && r.alone | none => false)
/-- A context is not asleep, queued for a granule, or about to write one back. -/
def Ctx.awake (k : Ctx) : Bool :=
  k.watch.isNone && k.queued.isNone && (match k.amo with | some (.computed _ _ _) => false | _ => true)
/-- A context may issue. Helpers issue nothing while a phase is open (09, R239). -/
def State.mayIssue (s : State) (n : Nat) (x : Fin 11) : Bool :=
  let c := s.core n
  c.ctxs[x].awake && (if x = 0 then s.controlReady n else c.ctxs[x].hstat = 1 && !c.csr.ph)

/-- The context may issue and is not stalled (13, R342). -/
def State.unstalled (s : State) (n : Nat) (x : Fin 11) : Bool := s.mayIssue n x && !Config.stalled s.tick x.val
/-- The context's next instruction would issue in the scalar slot now: one that waits has given its turn up, and pages 2 to 5
issue in the other slot (13, R342). -/
def State.takesScalar (s : State) (n : Nat) (x : Fin 11) : Bool :=
  s.unstalled n x && !(s.core n).ctxs[x].waiting && match s.plan n x with
    | .run _ u => !(2 ≤ u.issue.chain.page.toNat && u.issue.chain.page.toNat ≤ 5)
    | .stop _ => false
/-- The context's turn in its slot: of the scalar slot's, the first that can issue after the one that issued last, in the
cyclic order control, helper 1, …, helper 10 (13, R342). -/
def State.hasTurn (s : State) (n : Nat) (x : Fin 11) : Bool :=
  let last := (s.core n).lastCtx.val
  let order := (List.range 11).map fun i => Fin.ofNat 11 (last + 1 + i)
  s.unstalled n x && (!s.takesScalar n x || order.find? (fun y => s.takesScalar n y) = some x)

/-! ### What follows an instruction -/

/-- Waits that accept pre-emption (06, R153, R156, R159; 07, R179, R188, R191; 09, R246, R248, R256; 10, R271, R277). A `wrs`
and an `idle` complete at a request instead (07, R187; 10, R282). -/
def yieldsWhileWaiting : Instr → Bool
  | .reply _ _ | .wmsg _ | .hjoin _ _ | .waitaddr _ _ | .barQuire | .barDie | .barDev | .barSys
  | .lrD _ _ _ _ | .lrW _ _ _ _ | .scD _ _ _ _ _ | .scW _ _ _ _ _
  | .amoAdd _ _ _ _ _ _ | .amoAnd _ _ _ _ _ _ | .amoOr _ _ _ _ _ _ | .amoXor _ _ _ _ _ _ | .amoMin _ _ _ _ _ _
  | .amoMax _ _ _ _ _ _ | .amoMinn _ _ _ _ _ _ | .amoMaxn _ _ _ _ _ _ | .amoSwap _ _ _ _ _ _ | .amoCas _ _ _ _ _ _
  | .amoFadd _ _ _ _ _ | .amoXadd _ _ _ _ _
  | .cdcfgConfigure _ _ | .cdcfgWaitFull _ _ | .cdcfgWaitFree _ _ | .cdcfgReset _ _
  | .cp _ | .cpm _ | .cpc _ | .cpw _ | .cpfence | .gload _ | .gstep _ _ | .gmask _ _ | .sampF32 _ _ | .sampBf16 _ _ => true
  | _ => false
/-- A `donate` waits for a place among 256 outstanding donations, with nothing done yet (13, R363). -/
def State.donateWaits (s : State) (i : Instr) (k : Ctx) : Bool :=
  match i with
  | .donate _ _ => k.counts.isNone && s.wls.any fun x => 256 ≤ s.donations x.1 x.2
  | _ => false
/-- The words that `cflush` named leave fetch at a control transfer. -/
def Core.dropNamed (c : Core) : Core := { c with fetched := c.fetched.filter fun x => !x.2.2 }
/-- Phase cycles beyond the next one until the context's next instruction is ready: after a form of page 5 at most 9, as the `tx`
at cycles 10 and 20 of one core do not miss their slots (09, R242), and after an `mrect` at most 91, as the `mrect` at cycle 8
and the `ph.end` at 100 do not miss theirs (18, R452, R453); after any other form the spec gives no bound (log 20). -/
def readyAfter (page : Nat) (i : Instr) (free : Nat) : Nat :=
  match page, i with
  | 5, _ => free % 10
  | _, .mrect _ _ => free % 92
  | _, _ => free
/-- Time goes on in an open phase after an instruction that issued at a cycle of it (02, R45, R46; 09, R238). -/
def Core.phaseOn (c : Core) (at' free : Nat) : Core :=
  { c with phase := c.phase.map fun p => { p with base := at' + 1, cycle := Nat.max p.cycle (at' + 1 + free) } }
/-- What follows `i`, which issued in state `u` and left state `t`. -/
def State.after (u t : State) (i : Instr) : State :=
  let old := u.me
  let k := t.myCtx
  let took := t.issue.took
  let completed := !took && !k.waiting
  let t := if k.waiting then t.onMyCtx fun k =>
      { k with yields := yieldsWhileWaiting i || u.donateWaits i k, chain := some { u.issue with stay := false, took := false, jumped := false } } else t
  let t := if completed && (k.pc ≠ u.issue.next || t.issue.jumped) then t.onMe Core.dropNamed else t
  let page := u.issue.chain.page.toNat
  let t := if (2 ≤ page && page ≤ 5) || u.myCtx.waiting then t else t.onMe fun c => { c with lastCtx := u.ctx }
  if u.ctx ≠ 0 then t
  else
    let t := if i = .barQuire then t else t.onMe fun c => { c with afterBar := false }
    let t := if completed && (old.bps.toList.contains (some u.issue.pc)) then
        t.onMe fun c => { c with bpHit := some u.issue.pc } else t
    let t := if completed && old.recordsAt u.issue.pc && i ≠ .illegalEncoding then t.record else t
    match old.phase with
    | some p => if k.waiting then t else t.onMe fun c => c.phaseOn (p.sent.getD p.cycle) (readyAfter page i (Config.issueCycles t.tick))
    | none => t

end Sys2Proof.Machine
end

