-- ==== Sys2Proof/Machine/Grammar.lean ====
section
/-! DEFINITION. Page 5: grammar images, the grammar unit and sampling (10, R260 to R277; 14, R380 to R383). -/

namespace Sys2Proof.Machine

/-! ### Reading an image (10, R265) -/

/-- A double of the image: translated memory of the issuing device only. -/
def imageDouble (va : Word) : M Nat := do
  let r ← liftE (checkRegion (← get) va va)
  match r with
  | .loc _ _ _ => trap 0x11 va
  | _ => do
    let p ← checkPart r va 8 .load
    match p with
    | .remote _ _ => trap 0x11 va
    | _ => do
      let s ← get
      if s.untrained p || s.owned p 8 || s.forwardStuck s.myQuire p 8 then waitOn (s.waitsFor p 8)
      if s.hurts s.myQuire s.me.sb p 8 .dflt then trap 0x0E va
      let (t, bs) := s.loadPlace s.myQuire p 8 .dflt
      set t
      return ofBytes (forward t.me.sb p bs)
/-- `n` bytes, up to 8, from the one or two doubles that hold them. -/
def imageAt (va : Word) (n : Nat) : M Nat := do
  let k := va.toNat % 8
  let a := va - BitVec.ofNat 64 k
  let lo ← imageDouble a
  let hi ← if 8 < k + n then imageDouble (a + 8) else pure 0
  return (lo + hi * 2 ^ 64) / 2 ^ (8 * k) % 2 ^ (8 * n)
/-- Trap 0x11 for an image field or entry that is not well formed. -/
def imageNeed (ok : Bool) (va : Word) : M Unit := need ok (.trap 0x11 va)
def addrOff (base : Word) (off : Nat) : Word := base + BitVec.ofNat 64 off
/-- A field of `n` doubles that must be zero. -/
def imageZero (field : Word) (n : Nat) : M Unit := do
  for i in List.range n do
    imageNeed ((← imageAt (addrOff field (8 * i)) 8) = 0) field

/-! ### The procedures of R264 -/

/-- An entry of NEXTT, checked on use. -/
def nextEntry (g : Grammar) (s b : Nat) : M Nat := do
  let va := addrOff g.nextt (512 * s + 2 * b)
  let v ← imageAt va 2
  imageNeed (v < g.nlex || v = 0xFFFF) va
  return v
/-- An entry of ACCEPT, checked on use. -/
def acceptEntry (g : Grammar) (s : Nat) : M Nat := do
  let va := addrOff g.accept (2 * s)
  let v ← imageAt va 2
  imageNeed (v < g.nterm || v = 0xFFFE || v = 0xFFFF) va
  return v
/-- An action entry, checked on use: its kind, NEXT and RET (10, Table 10.5). -/
def actionEntry (g : Grammar) (q a : Nat) : M (Nat × Nat × Nat) := do
  let va := addrOff g.act (8 * (q * g.nterm + a))
  let e ← imageAt va 8
  let kind := e % 4
  let next := e / 2 ^ 16 % 2 ^ 16
  let ret := e / 2 ^ 32 % 2 ^ 16
  imageNeed (e / 4 % 2 ^ 14 = 0 && e / 2 ^ 48 = 0 && next < g.npda && ret < g.npda
    && (next = 0 || kind = 1 || kind = 2) && (ret = 0 || kind = 2)) va
  return (kind, next, ret)
/-- Feed: one terminal into the automaton, in at most the given number of passes. -/
def feed (a : Nat) : Nat → Grammar → M (Bool × Grammar)
  | 0, g => return (false, { g with loop := true })
  | n + 1, g => do
    match ← actionEntry g g.q a with
    | (1, next, _) => return (true, { g with q := next })
    | (2, next, ret) =>
      if g.stack.length = g.stackmax then return (false, g)
      else feed a n { g with q := next, stack := ret :: g.stack }
    | (3, _, _) => match g.stack with
      | [] => return (false, g)
      | x :: r => feed a n { g with q := x, stack := r }
    | _ => return (false, g)
def feedTerminal (g : Grammar) (a : Nat) : M (Bool × Grammar) := feed a (2 * g.stackmax + 2) g
/-- Lex: one byte into the lexer. -/
def lexByte (g : Grammar) (b : Nat) : M (Bool × Grammar) := do
  let n ← nextEntry g g.s b
  if n ≠ 0xFFFF then return (true, { g with s := n })
  let a ← acceptEntry g g.s
  if g.s = 0 || a = 0xFFFF then return (false, g)
  let (ok, h) ← if a = 0xFFFE then pure (true, g) else feedTerminal g a
  if !ok then return (false, h)
  let n ← nextEntry h 0 b
  if n = 0xFFFF then return (false, h)
  return (true, { h with s := n })
def lexBytes (base : Word) : Nat → Grammar → M (Bool × Grammar)
  | 0, g => return (true, g)
  | n + 1, g => do
    let (ok, h) ← lexByte g (← imageAt base 1)
    if ok then lexBytes (base + 1) n h else return (false, h)
/-- Apply: a token to a configuration. -/
def applyToken (g : Grammar) (t : Nat) : M (Bool × Grammar) := do
  if g.ended then return (false, g)
  let va := addrOff g.vocab (8 * t)
  let e ← imageAt va 8
  let off := e % 2 ^ 40
  let len := e / 2 ^ 40 % 2 ^ 8
  let eos := e / 2 ^ 48 % 2 = 1
  let never := e / 2 ^ 49 % 2 = 1
  imageNeed (e / 2 ^ 50 = 0 && !(eos && len ≠ 0)) va
  if never then return (false, g)
  else if eos then do
    let (ok, h) ← if g.s = 0 then pure (true, g) else do
      let a ← acceptEntry g g.s
      if a = 0xFFFF then pure (false, g)
      else if a = 0xFFFE then pure (true, { g with s := 0 })
      else do
        let (ok, h) ← feedTerminal g a
        pure (ok, if ok then { h with s := 0 } else h)
    if !ok then return (false, h)
    let (ok, h) ← feedTerminal h 0
    return (ok, if ok then { h with ended := true } else h)
  else if len = 0 then return (false, g)
  else lexBytes (addrOff g.vocab off) len g

/-! ### The forms (10, R267 to R271) -/

/-- The configuration of the core, where it holds no uncorrectable error; one that does is cleared (14, R380). -/
def grammar : M Grammar := do
  let g := (← get).me.grammar
  if g.bad then
    modify fun s => s.onMe fun c => { c with grammar := Grammar.reset, gwork := none }
    thenTake (.trap 0x0E 0)
  return g
def setGrammar (g : Grammar) : M Unit := modify fun s => s.onMe fun c => { c with grammar := g }
/-- What a computation has found stands when it ends in a trap or an upcall (10, R267). -/
def standing {α : Type} (x : M α) : M α := fun s =>
  match x s with
  | .error (.exc (.wait on)) => .error (.exc (.wait on))
  | .error (.exc e) => .error (.done (s.deliver e))
  | .error (.badWalk e) => .error (.done (s.countMalformed.deliver e))
  | r => r
/-- `GLOAD` (R267). Load and check a grammar image, or clear the configuration. -/
def execGload (a : Reg) (s : State) := M.run (do
  controlOnly
  barPhase
  let wa ← readW a
  if wa = 0 then setGrammar Grammar.reset
  else do
    acquire .dev
    standing (do
    need (wa.toNat % 8 = 0) (.trap 0x03 wa)
    let lexer := BitVec.ofNat 64 (← imageAt wa 8)
    need (lexer.toNat % 64 = 0) (.trap 0x03 wa)
    let pda := BitVec.ofNat 64 (← imageAt (addrOff wa 8) 8)
    need (pda.toNat % 64 = 0) (.trap 0x03 (addrOff wa 8))
    let fallback ← imageAt (addrOff wa 0x10) 4
    let flags ← imageAt (addrOff wa 0x14) 4
    imageNeed (flags ≤ 1) (addrOff wa 0x14)
    imageZero (addrOff wa 0x18) 1
    let vocab := BitVec.ofNat 64 (← imageAt lexer 8)
    need (vocab.toNat % 8 = 0) (.trap 0x03 lexer)
    let ntok ← imageAt (addrOff lexer 8) 4
    imageNeed (1 ≤ ntok && ntok ≤ 262144) (addrOff lexer 8)
    let nlex ← imageAt (addrOff lexer 0xC) 2
    imageNeed (1 ≤ nlex && nlex ≤ 65534) (addrOff lexer 0xC)
    let nterm ← imageAt (addrOff lexer 0xE) 2
    imageNeed (1 ≤ nterm && nterm ≤ 4096) (addrOff lexer 0xE)
    let nextt ← imageAt (addrOff lexer 0x10) 8
    let accept ← imageAt (addrOff lexer 0x18) 8
    imageZero (addrOff lexer 0x20) 4
    let npda ← imageAt pda 2
    imageNeed (1 ≤ npda) pda
    let stackmax ← imageAt (addrOff pda 2) 2
    imageNeed (stackmax ≤ 1024) (addrOff pda 2)
    imageNeed ((← imageAt (addrOff pda 4) 4) = 0) (addrOff pda 4)
    let act ← imageAt (addrOff pda 8) 8
    imageZero (addrOff pda 0x10) 6
    imageNeed (fallback < ntok) (addrOff wa 0x10)
    setGrammar { Grammar.reset with
      loaded := true, image := wa, fallback := BitVec.ofNat 32 fallback, fb := flags = 1, vocab := vocab, ntok := ntok
      nlex := nlex, nterm := nterm, nextt := BitVec.ofNat 64 nextt, accept := BitVec.ofNat 64 accept, npda := npda
      stackmax := stackmax, act := BitVec.ofNat 64 act })) s

/-- What the core asks of the grammar unit. -/
def setWork (x : Option GrammarWork) : M Unit := modify fun s => s.onMe fun c => { c with gwork := x }
/-- A fault that the unit met: the form takes it, and its work is gone. -/
def takeTableFault (x : Bool × BitVec 6 × Word) : M Unit := do
  setWork none
  thenTake (if x.1 then .upcall x.2.1 x.2.2 else .trap x.2.1 x.2.2)
/-- `GSTEP` (R268). Apply a token to the grammar configuration. -/
def execGstep (d a : Reg) (s : State) := M.run (do
  controlOnly
  barPhase
  let t ← readW a
  let g ← grammar
  match (← get).me.gwork with
  | some (.step _ (some (.inl st))) => do
    setWork none
    writeW d (BitVec.ofNat 64 st)
  | some (.step _ (some (.inr x))) => takeTableFault x
  | some (.step _ none) => holdHere
  | _ =>
    if !g.loaded then writeW d 4
    else if g.ntok ≤ t.toNat then do
      setGrammar { g with loop := false }
      writeW d 3
    else do
      setWork (some (.step t none))
      holdHere) s
/-- The mask's bytes: bit i of the packed string is the bit of token i (10, R269). -/
def packBits : Nat → List Bool → List Byte
  | 0, _ => []
  | n + 1, bs =>
    let b := (bs.take 8).zipIdx.foldl (fun v (x, i) => if x then v + 2 ^ i else v) 0
    BitVec.ofNat 8 b :: packBits n (bs.drop 8)
/-- A die's mask buffers in use (14, R382). -/
def State.maskBuffers (s : State) (die : Nat) : Nat :=
  (s.cores.filter fun x => dieOf x.1 = die && match x.2.gwork with | some (.mask _ _ _ _ _) => true | _ => false).length
/-- `GMASK` (R269). Write a legality bitmap for a range of tokens. -/
def execGmask (a b : Reg) (s : State) := M.run (do
  controlOnly
  barPhase
  let va ← readW a
  let wb ← readW b
  let first := (wb.extractLsb' 0 32).toNat
  let count := (wb.extractLsb' 32 32).toNat
  need (first % 64 = 0 && 1 ≤ count && count ≤ 262144) (.trap 0x01 wb)
  let n := (count + 63) / 64 * 8
  liftE (checkAlign va 8 va)
  match regionOf va with
  | .loc _ _ off => need (off + n ≤ 0x3FF40) (.trap 0x04 va)
  | _ => pure ()
  let off ← localOperand va 8 n
  let g ← grammar
  need g.loaded (.trap 0x11 0)
  need (first + count ≤ g.ntok) (.trap 0x01 wb)
  match (← get).me.gwork with
  | some (.mask _ _ _ _ (some x)) => takeTableFault x
  | some (.mask _ _ bits loop none) =>
    if bits.length < count then holdHere
    else do
      let bs := packBits n bits
      for i in List.range (n / 8) do
        storeOwn (off + 8 * i) ((bs.drop (8 * i)).take 8)
      drainFirst
      setWork none
      setGrammar { g with loop := loop }
  | _ => do
    if 4 ≤ (← get).maskBuffers (dieOf (← get).cur) then waitHere
    setWork (some (.mask first count [] false none))
    holdHere) s
/-- The configuration summary of Table 10.8. -/
def Grammar.summary (g : Grammar) : Word :=
  BitVec.ofNat 64 (g.q + g.s * 2 ^ 16 + g.stack.length * 2 ^ 32 + (if g.loaded then 2 ^ 48 else 0)
    + (if g.ended then 2 ^ 49 else 0) + (if g.loop then 2 ^ 50 else 0))
/-- `GSTATE` (R270). Read the grammar configuration summary. -/
def execGstate (d : Reg) (s : State) := M.run (do
  controlOnly
  barPhase
  writeW d (← grammar).summary) s

/-! ### Serving (14, R383) -/

/-- A core has work that the unit has not finished. -/
def Core.grammarWaits (c : Core) : Bool :=
  match c.gwork with
  | some (.step _ none) => true
  | some (.mask _ n bits _ none) => bits.length < n
  | _ => false
/-- One `gstep`: the status of Table 10.7 and the configuration. -/
def serveStep (g : Grammar) (t : Nat) : M (Nat × Grammar) := do
  let g := { g with loop := false }
  let (ok, h) ← applyToken g t
  if ok then return (if h.ended then 2 else 0, h)
  else if h.loop then return (5, { g with loop := true })
  else return (1, g)
/-- A batch of up to 64 tokens from `t` on, in increasing order: the bits so far, LOOP, and the fault that ended it; the lines
that a read waits for, where one has to. -/
def serveBatch (g : Grammar) (s : State) (t : Nat) :
    Nat → List Bool → Bool → Except (List Place) (State × List Bool × Bool × Option Exc)
  | 0, bits, loop => .ok (s, bits, loop, none)
  | n + 1, bits, loop =>
    match applyToken { g with loop := false } t s with
    | .ok ((ok, h), u) => serveBatch g u (t + 1) n (bits ++ [ok]) (loop || h.loop)
    | .error (.exc (.wait on)) => .error on
    | .error (.exc e) => .ok (s, bits, loop, some e)
    | .error (.badWalk e) => .ok (s.countMalformed, bits, loop, some e)
    | .error (.done _) => .error []
/-- A fault as the unit remembers it. -/
def tableFault : Exc → Bool × BitVec 6 × Word
  | .trap c v => (false, c, v) | .upcall k v => (true, k, v) | .wait _ => (false, 0, 0)
/-- The unit serves a core: its `gstep`, or one batch of its `gmask`. A read that must wait leaves the work as it is. -/
def State.serveGrammar (s : State) (core : Nat) : State :=
  let c := s.core core
  s.acting core 0 fun t =>
    match c.gwork with
    | some (.step k none) =>
      match serveStep c.grammar k.toNat t with
      | .ok ((st, g), u) => u.onMe fun c => { c with grammar := g, gwork := some (.step k (some (.inl st))) }
      | .error (.exc (.wait on)) => t.onMyCtx fun c => { c with wants := on }
      | .error (.exc e) => t.onMe fun c => { c with gwork := some (.step k (some (.inr (tableFault e)))) }
      | .error (.badWalk e) =>
        t.countMalformed.onMe fun c => { c with gwork := some (.step k (some (.inr (tableFault e)))) }
      | .error (.done _) => t
    | some (.mask first n bits loop none) =>
      match serveBatch c.grammar t (first + bits.length) (Nat.min 64 (n - bits.length)) bits loop with
      | .ok (u, bits, loop, e) => u.onMe fun c => { c with gwork := some (.mask first n bits loop (e.map tableFault)) }
      | .error on => t.onMyCtx fun c => { c with wants := on }
    | _ => t
/-- The next core of a die that waits, after the one that was served last. -/
def State.grammarNext (s : State) (die : Fin 4) : Option Nat :=
  let waiting := (s.cores.filter fun x => dieOf x.1 = die.val && x.2.grammarWaits).map fun x => x.1
  match waiting.find? fun n => s.gramLast[die] < n with
  | some n => some n
  | none => waiting.head?
/-- `GRAMMAR_UNIT_SERVE`: the grammar unit of die `turn.unit` serves the next core. -/
def execGrammarUnitServe (s : State) : Host.Outcome State Fault Refusal :=
  let die := Fin.ofNat 4 s.turn.unit
  match s.grammarNext die with
  | none => .next s
  | some n => .next { (s.serveGrammar n) with gramLast := s.gramLast.set die n }

/-! ### Sampling (10, R272 to R277) -/

/-- Lines of a run of bytes: the address of each part and its length. -/
def lineParts (va : Word) (n : Nat) : List (Word × Nat) :=
  let first := 64 - va.toNat % 64
  (List.range ((va.toNat % 64 + n + 63) / 64)).map fun i =>
    let start := if i = 0 then 0 else first + 64 * (i - 1)
    (va + BitVec.ofNat 64 start, Nat.min (if i = 0 then first else 64) (n - start))
/-- One line checked under Table 5.7 and R28 of 01; a slot that names no core is none of the issuing quire's. -/
def checkLine (va : Word) (n : Nat) : M Place := do
  let r ← liftE (checkRegion (← get) va va)
  match r with
  | .loc _ 127 _ => trap 0x04 va
  | _ => checkPart r va n .load
/-- Lines checked and read in order, one piece each from number `k` on; where `grain` names a piece, one in a step. -/
def readLines : Nat → List (Word × Nat) → M (List (List Byte))
  | _, [] => return []
  | k, (va, n) :: r => do
    if ((← get).myCtx.piece k).isNone then
      readPiece .dflt k [(← checkLine va n, va, n)]
      if (← get).grain.isSome && !r.isEmpty then holdHere
    let bs := ((← get).myCtx.piece k).getD []
    return bs :: (← readLines (k + 1) r)
/-- T of R274: the floor of 2^(30 − j/256) + 1/2, by a 256th root in eight square roots. -/
def iterate (f : Nat → Nat) : Nat → Nat → Nat
  | 0, x => x
  | n + 1, x => iterate f n (f x)
def weightTable (j : Nat) : Nat := (iterate isqrt 8 (2 ^ (7936 - j)) + 1) / 2
/-- The rounded difference times the scale, and the weight of a logit (10, R274). -/
def weight (max scale x : Val) : Nat :=
  match max with
  | .inf false => if x.same max then 2 ^ 30 else 0
  | .inf true => 2 ^ 30
  | _ =>
    let d := valFp32 (bitsFp32 (x.sub max).1)
    match valFp32 (bitsFp32 (d.mul scale).1) with
    | .fin _ m =>
      let u := m.floorAt 16
      if 2 ^ 21 ≤ u then 0
      else
        let fr := u % 2 ^ 16
        let j := fr / 256
        let t := weightTable j
        (t - (t - weightTable (j + 1)) * (fr % 256) / 256) / 2 ^ (u / 2 ^ 16)
    | _ => 0
/-- The largest eligible logit. -/
def largestLogit (xs : List (Bool × Val)) : Option Val :=
  xs.foldl (fun m (ok, x) => if !ok then m else match m with
    | some y => if y.less x then some x else m
    | none => some x) none
/-- The lowest index whose running sum exceeds the point. -/
def pickIndex : List Nat → Nat → Nat → Nat → Nat
  | [], i, _, _ => i
  | w :: r, i, sum, point => if point < sum + w then i else pickIndex r (i + 1) (sum + w) point
/-- `samp`. -/
def sample (wide : Bool) (d a : Reg) : M Unit := do
  controlOnly
  barPhase
  let wa ← readW a
  let off ← localOperand wa 64 64
  let ds ← readOwn off 64
  let logits := wordOf (ds.take 8)
  let mask := wordOf ((ds.drop 8).take 8)
  let first := fieldAt ds 0x10 4
  let count := fieldAt ds 0x14 4
  let scale := valFp32 (BitVec.ofNat 32 (fieldAt ds 0x18 4))
  let flags := fieldAt ds 0x1C 4
  let size := if wide then 4 else 2
  let scaleOk : Bool := match scale with | .fin neg m => !neg && m.num ≠ 0 | _ => false
  need (1 ≤ count && count ≤ 262144 && first + count ≤ 262144 && scaleOk && flags < 4 && zeroAt ds 0x34 12
    && logits.toNat % size = 0 && mask.toNat % 8 = 0) (.trap 0x01 wa)
  let maskParts := if mask = 0 then [] else lineParts mask ((count + 7) / 8)
  let lines ← readLines 16 (maskParts ++ lineParts logits (count * size))
  let bits := (lines.take maskParts.length).flatten
  let raw := (lines.drop maskParts.length).flatten
  let codes := (← get).csr.codesOf (if wide then .f32 else .bf16)
  let table := (← get).csr.table
  let xs : List (Bool × Val) := (List.range count).map fun i =>
    let x := codes.decode table (fieldAt raw (i * size) size)
    (!x.isNan && (mask = 0 || (bits.getD (i / 8) 0).getLsbD (i % 8)), x)
  match largestLogit xs with
  | none => do
    let g ← grammar
    if g.loaded && g.fb then writeW d (g.fallback.zeroExtend 64)
    else do
      modify fun s => s.raise flagNLT
      if (← get).csr.actl.getLsbD 2 then thenTake (.trap 0x12 wa)
      writeW d 0xFFFFFFFF
  | some max => do
    let i ← if flags % 2 = 1 then pure (xs.findIdx fun x => x.1 && x.2.same max) else do
      let ws := xs.map fun x => if x.1 then weight max scale x.2 else 0
      let draw ← if flags / 2 % 2 = 1 then pure (fieldAt ds 0x30 4) else do
        let ctr := fieldAt ds 0x20 16
        storeOwn (off + 0x20) (toBytes 16 (ctr + 1))
        pure (philoxLane (← get).csr.rngkey ctr % 2 ^ 32)
      pure (pickIndex ws 0 0 (draw * ws.foldl (· + ·) 0 / 2 ^ 32))
    writeW d (BitVec.ofNat 64 (first + i))
/-- `SAMP_F32` (R275). Draw a token from FP32 logits under a mask. -/
def execSampF32 (d a : Reg) (s : State) := M.run (sample true d a) s
/-- `SAMP_BF16` (R275). Draw a token from BF16 logits under a mask. -/
def execSampBf16 (d a : Reg) (s : State) := M.run (sample false d a) s

end Sys2Proof.Machine
end

