-- ==== Sys2Proof/Machine/Queue.lean ====
section
/-! DEFINITION. Page 1: donation queues and routing counters (06, R165 to R168; 13, R363). -/

namespace Sys2Proof.Machine

/-! ### Donation queues (06, R165) -/

/-- A descriptor as read, with the virtual address of a ring slot. -/
structure Desc where
  head : Nat
  tail : Nat
  base : Word
  size : Nat
  target : Word
  deriving DecidableEq, Repr

def Desc.ofBytes (b : List Byte) : Desc :=
  ⟨fieldAt b 0 8, fieldAt b 8 8, wordOf ((b.drop 0x10).take 8), fieldAt b 0x18 4, wordOf ((b.drop 0x20).take 8)⟩
/-- SIZE is a power of two up to 2^24 (06, Table 6.8). -/
def Desc.sizeOk (d : Desc) : Bool := 1 ≤ d.size && d.size ≤ 2 ^ 24 && 2 ^ Nat.log2 d.size = d.size
def Desc.slot (d : Desc) (i : Nat) : Word := d.base + BitVec.ofNat 64 (16 * (i % d.size))
def Desc.full (d : Desc) : Bool := (d.tail + 2 ^ 64 - d.head) % 2 ^ 64 = d.size
def Desc.empty (d : Desc) : Bool := d.tail ≤ d.head
/-- Trap 0x01 of a SIZE out of range has the SIZE as `tval` (06, R137). For a ring that is not aligned R165 states no
outcome: the model takes trap 0x01 with `tval` := wq (log 85). -/
def needDesc (wq : Word) (d : Desc) : M Unit := do
  need d.sizeOk (.trap 0x01 (BitVec.ofNat 64 d.size))
  need (d.base.toNat % 16 = 0) (.trap 0x01 wq)

/-- Bytes of a queue of this device, at their home and after the core's own stores to them (06, R165; 11, R292). -/
def readHome (va : Word) (pa b n : Nat) : M (List Byte) := do
  if sbTouches (← get).me.sb (.hbm pa b) n then drainFirst
  let s ← get
  let p := Place.hbm pa b
  if s.untrained p || s.owned p n || s.forwardStuck s.myQuire p n then waitOn (s.waitsFor p n)
  if s.hurts s.myQuire [] p n .unc then trap 0x0E va
  let s := if s.homeBinding b pa = 0 then s.dropOwn s.myQuire pa n else s
  let (t, bs) := s.partLoad b pa n
  set t
  return bs
/-- The descriptor's place after its checks as a store, and its bytes: at its home on this device, or by a remote
read, which the context remembers (log 8). -/
def readDesc (wq : Word) : M (Place × Desc) := do
  need (wq.toNat % 64 = 0) (.trap 0x03 wq)
  let p ← checkAccess wq 8 .store
  match p with
  | .remote _ _ => do
    readPiece .unc 1 [(p, wq, 64)]
    return (p, .ofBytes (((← get).myCtx.piece 1).getD []))
  | .hbm pa b => return (p, .ofBytes (← readHome wq pa b 64))
  | .spad _ _ | .kettle _ _ => trap 0x01 wq
/-- The place of a ring slot, on the queue's own device: its address, and its page's binding. -/
def ringPlace (p : Place) (va : Word) : M (Nat × Nat) := do
  match p, ← checkAccess va 8 .store with
  | .remote d _, .remote e pa => if d = e then return (pa, 0) else trap 0x01 va
  | .hbm _ _, .hbm pa b => return (pa, b)
  | _, _ => trap 0x01 va
/-- The queue stood at another index when the operation reached it: the instruction begins again. -/
def askAgain {α : Type} : M α := do
  modify fun s => s.onMyCtx fun c => { c with remote := none, got := [] }
  holdHere

/-- The worklist of this device that lists a queue among its partners'. -/
def State.partnerOf (s : State) (at' : Nat × Nat) : Option (Nat × Worklist) := s.wls.find? fun x => x.2.pq.contains at'
/-- Bytes of this device that an indivisible operation is about to write at their homes: their stacks are trained, no copy engine
owns a line of them, no granule of them is granted, and no packet was sent that way before (06, R165; 07, R177; 15, R388;
17, R442). -/
def homeFree (ps : List (Nat × Nat × Nat)) : M Unit := do
  let s ← get
  let busy (x : Nat × Nat × Nat) : Bool :=
    let p := Place.hbm x.1 x.2.1
    s.untrained p || s.owned p x.2.2 || s.wayShut (.quire s.myQuire) (s.attachment p) || (s.granulesAt p x.2.2).any fun g => (s.granule g).holder.isSome
  if ps.any busy then waitOn (ps.flatMap fun x => s.waitsFor (.hbm x.1 x.2.1) x.2.2)
/-- The append of an entry to a queue, whose descriptor and whose checks have been read. -/
def append (wq : Word) (p : Place) (d : Desc) (e : List Byte) : M Unit := do
  let slot ← ringPlace p (d.slot d.tail)
  match p with
  | .remote dev pa => do
    let ans ← remoteAsk 2 dev [(wq, pa, .donate d.tail slot.1 e)]
    if ofBytes ans = 0 then askAgain
  | .hbm pa b => do
    homeFree [(slot.1, slot.2, 16), (pa, b, 64)]
    modify fun s => (s.partStore slot.2 slot.1 e).partStore b (pa + 8) (toBytes 8 (d.tail + 1))
  | .spad _ _ | .kettle _ _ => pure ()
/-- `donate` (06, R166). It counts toward the low of the worklist of this device that lists the queue as a partner's, from
its issue; where none lists it, or it stands on this device, toward none (log 86). -/
def execDonate (q a : Reg) (s : State) := M.run (do
  barPhase
  let wq ← readW q
  let va ← readW a
  need (wq.toNat % 64 = 0) (.trap 0x03 wq)
  let off ← localOperand va 16 16
  let e ← readOwn off 16
  let at' ← checkAccess wq 8 .store
  let s ← get
  let donor := match at' with | .remote dev pa => s.partnerOf (dev, pa) | _ => none
  match at', donor with
  | .remote dev pa, some (wid, w) => do
    let b := w.bucket (.ofBytes e)
    if s.myCtx.counts.isNone && 256 ≤ s.donations wid w then waitHere
    let d ← counting (wid, b, true) (do
      if (← get).myCtx.remote.isNone && (← get).myCtx.got.isEmpty then release .sys
      let (p, d) ← readDesc wq
      needDesc wq d
      need (!d.full) (.trap 0x0B wq)
      -- settled when its append is acknowledged: its lowering has reached every agent by then (13, R361)
      if (← get).myCtx.posted.isNone && (← get).myCtx.remote.all fun r => r.key ≠ 2 then post wid b
      awaitLow
      append wq p d e
      return d)
    modify fun s => (s.onMyCtx fun c => { c with counts := none }).onWl wid fun w =>
      { w with donated := w.donated ++ [(dev, pa, d.tail, b)], dsent := w.dsent + 1 }
  | _, _ => do
    if s.myCtx.remote.isNone && s.myCtx.got.isEmpty then release .sys
    let (p, d) ← readDesc wq
    needDesc wq d
    need (!d.full) (.trap 0x0B wq)
    append wq p d e) s

/-- `claim` (06, R167). A claim whose entry has been entered waits for its lowering (13, R361). -/
def execClaim (dd q : Reg) (s : State) := M.run (do
  barPhase
  let wq ← readW q
  if (← get).myCtx.posted.isSome then do
    awaitLow
    acquire .sys
    writeW dd 1
  else do
    let (p, d) ← readDesc wq
    needDesc wq d
    if d.empty then do
      acquire .sys
      writeW dd 0
    else do
      let slot ← ringPlace p (d.slot d.head)
      match p with
      | .remote dev pa => do
        need (d.target.toNat % 256 = 0) (.trap 0x03 d.target)
        let target ← match ← checkAccess d.target 8 .load with
          | .remote e t => if e = dev then pure t else trap 0x01 d.target
          | _ => trap 0x01 d.target
        let ans ← remoteAsk 2 dev [(wq, pa, .claim d.head slot.1 target)]
        match ofBytes (ans.take 1) with
        | 0 => askAgain
        | 1 => do
          acquire .sys
          writeW dd 1
        | 2 => thenTake (.trap 0x0B d.target)
        | 4 => do
          let cause : BitVec 6 := (ans.getD 1 0).truncate 6
          let v := wordOf ((ans.drop 3).take 8)
          let tval := if ans.getD 2 0 = 1 then d.target + v else v
          thenTake (if 0x20 ≤ cause.toNat then .upcall cause tval else .trap cause tval)
        | _ => do
          acquire .sys
          thenTake (.trap 0x01 d.target)
      | .hbm pa b => do
        let wid ← worklist d.target
        homeFree [(pa, b, 64)]
        let e := Entry.ofBytes (← readHome (d.slot d.head) slot.1 slot.2 16)
        let gone (t : State) : State := t.partStore b pa (toBytes 8 (d.head + 1))
        match (← get).wl? wid with
        | none => pure ()
        | some w =>
          if w.kinds.length ≤ e.kind then do
            modify gone
            acquire .sys
            thenTake (.trap 0x01 d.target)
          else do
            match (← get).wlEnter wid (← get).myQuire e with
            | none => trap 0x0B d.target
            | some t => set ((gone t).onWl wid fun w => { w with dclaim := w.dclaim + 1 })
            post wid (w.bucket e)
            awaitLow
            acquire .sys
            writeW dd 1
      | .spad _ _ | .kettle _ _ => pure ()) s

/-! ### Routing counters (06, R168) -/

/-- `CINC` (R168). Add to a quire routing counter. -/
def execCinc (a b : Reg) (s : State) := M.run (do
  barPhase
  let k ← readW a
  let x ← readW b
  if h : k.toNat < 64 then
    modify fun s => s.onQuire s.myQuire fun q => { q with counters := q.counters.set k.toNat (q.counters[k.toNat] + x) }
  else trap 0x01 k) s
/-- A snapshot of the quire's counters written to a local address. -/
def snapshot (a : Reg) (clear : Bool) : M Unit := do
  barPhase
  let off ← localOperand (← readW a) 8 512
  let s ← get
  let cs := (s.quire s.myQuire).counters
  storeOwn off (cs.toList.flatMap fun c => toBytes 8 c.toNat)
  if clear then modify fun s => s.onQuire s.myQuire fun q => { q with counters := Vector.replicate 64 0 }
/-- `CSNAP` (R168). Snapshot all 64 routing counters into scratchpad. -/
def execCsnap (a : Reg) (s : State) := M.run (snapshot a false) s
/-- `CSNAP_CLR` (R168). Snapshot and clear all routing counters at one point. -/
def execCsnapClr (a : Reg) (s : State) := M.run (snapshot a true) s

end Sys2Proof.Machine
end

