-- ==== Sys2Proof/Machine/Fabric.lean ====
section
/-! DEFINITION. The gutter fabric: routers, packets, remote requests and their answers, fence tokens, losses and its
control registers (07, R174, R184; 13, R363, R364; 15, R394 to R407). -/

namespace Sys2Proof.Machine

/-! ### The torus of devices (15, R394) -/

def State.extent (s : State) (dim : Nat) : Nat :=
  match dim with | 0 => s.extents.1 | 1 => s.extents.2.1 | _ => s.extents.2.2
def coordOf (dev dim : Nat) : Nat := dev / 64 ^ dim % 64
/-- Hops between two coordinates of a ring. -/
def ringDist (e a b : Nat) : Nat := Nat.min ((b + e - a) % e) ((a + e - b) % e)
/-- The coordinate that a port leads to: even ports go up, odd ports down. -/
def portStep (e c port : Nat) : Nat := if port % 2 = 0 then (c + 1) % e else (c + e - 1) % e
/-- Ports of a dimension of extent 1 are unused. -/
def State.ports (s : State) : List Nat := (List.range 6).filter fun p => 1 < s.extent (p / 2)
/-- A port shortens the distance to a device. -/
def State.productive (s : State) (dst port : Nat) : Bool :=
  let d := port / 2
  let e := s.extent d
  let c := coordOf s.devid d
  decide (ringDist e (portStep e c port) (coordOf dst d) < ringDist e c (coordOf dst d))
/-- The device that a port leads to. -/
def State.neighbour (s : State) (port : Nat) : Nat :=
  let d := port / 2
  let c := coordOf s.devid d
  s.devid - c * 64 ^ d + portStep (s.extent d) c port * 64 ^ d

/-! ### A plane router's cycle (15, R398, R399) -/

/-- An older STAMP, as a signed difference modulo 2^32. -/
def olderStamp (a b : W32) : Bool := (a - b).slt 0
/-- The arbitration order. -/
def Flit.before (a b : Flit) : Bool :=
  let lex (xs : List (Nat × Nat)) : Bool := match xs.find? fun x => x.1 ≠ x.2 with | some x => decide (x.1 < x.2) | none => false
  let a255 := a.age = 255
  let b255 := b.age = 255
  if a255 ≠ b255 then decide a255
  else if a255 && a.stamp ≠ b.stamp then olderStamp a.stamp b.stamp
  else if a.cls ≠ b.cls then decide (a.cls < b.cls)
  else if a.age ≠ b.age then decide (b.age < a.age)
  else if a.stamp ≠ b.stamp then olderStamp a.stamp b.stamp
  else lex [(a.src, b.src), (a.pid, b.pid), (a.seq, b.seq)]
def insertFlit (f : Flit) : List Flit → List Flit
  | [] => [f]
  | g :: r => if f.before g then f :: g :: r else g :: insertFlit f r

/-- Reserved buffers in use or held for a refused packet, of 64. -/
def Fabric.keptUsed (f : Fabric) : Nat :=
  (f.buffers.filter fun b => b.kept).length
    + ((f.planes.toList.flatMap fun p => p.refused).filter fun r => r.given).length
def PacketBuffer.holds (b : PacketBuffer) (f : Flit) : Bool := b.src = f.src && b.pid = f.pid && b.tries = f.tries
def Refused.awaits (r : Refused) (f : Flit) : Bool := r.given && r.src = f.src && r.pid = f.pid && (r.tries + 1) % 4 = f.tries
def Fabric.onPlane (f : Fabric) (k : Nat) (g : Plane → Plane) : Fabric :=
  { f with planes := Vector.ofFn fun i => if i.val = k then g f.planes[i] else f.planes[i] }
def Fabric.plane (f : Fabric) (k : Nat) : Plane := f.planes.toList.getD k Plane.reset
/-- A packet's flit enters its buffer. -/
def Fabric.fill (f : Fabric) (x : Flit) : Fabric :=
  { f with buffers := f.buffers.map fun b => if b.holds x then { b with got := (x.seq, x.payload) :: b.got } else b }
def Fabric.open (f : Fabric) (x : Flit) (kept : Bool) : Fabric :=
  { f with buffers := f.buffers ++ [⟨x.src, x.pid, x.tries, x.last, x.cls, kept, [(x.seq, x.payload)]⟩] }
/-- A refused packet on a plane's list of 64 in STAMP order: on a full list it displaces the youngest if it is older. -/
def insertRefused (r : Refused) : List Refused → List Refused
  | [] => [r]
  | x :: l => if olderStamp r.stamp x.stamp then r :: x :: l else x :: insertRefused r l
def listRefused (r : Refused) (l : List Refused) : List Refused := (insertRefused r l).take 64
/-- A flit for this device ejects, or is deflected (none): into its packet's buffer, into a buffer that it may take,
or, with AGE = 255 and no buffer, into a refusal. -/
def State.eject (s : State) (k : Nat) (x : Flit) : Option State :=
  let f := s.fabric
  let p := f.plane k
  let set (g : Fabric) : Option State := some { s with fabric := g }
  let general := (f.buffers.filter fun b => !b.kept && b.cls ≠ 1).length
  if x.cls = 0 && x.last = 0 then some s
  else if p.discard.contains (x.src, x.pid, x.tries) then some s
  else if f.buffers.any fun b => b.holds x then set (f.fill x)
  else if x.cls = 1 then set (f.open x false)
  else if p.refused.any fun r => r.awaits x then
    set ((f.open x true).onPlane k fun p => { p with refused := p.refused.filter fun r => !r.awaits x })
  else if general + s.outstanding < 4032 then set (f.open x false)
  else if x.age < 255 then none
  else if f.keptUsed < 64 then set (f.open x true)
  else
    let r : Refused := ⟨x.src, x.pid, x.tries, x.stamp, s.gtime, false⟩
    let g := f.onPlane k fun p => { p with
      refused := listRefused r (p.refused.filter fun q => !(q.src = x.src && q.pid = x.pid))
      discard := (x.src, x.pid, x.tries) :: p.discard.filter fun d => !(d.1 = x.src && d.2.1 = x.pid) }
    let g := { g with refusals := g.refusals ++ [(x.src, x.pid, x.tries, x.stamp)] }
    some (({ s with fabric := g } : State).post x.src 0 1)

/-- What a router's cycle has given out so far: the ports that are free, and the flits that leave. -/
structure Routed where
  state : State
  free  : List Nat
  out   : List (Nat × Flit)
  deriving DecidableEq, Repr
/-- A flit takes ejection, else its first free productive port, else the lowest free port, deflected. -/
def Routed.take (r : Routed) (k : Nat) (x : Flit) : Routed :=
  let ejected := if x.dst = r.state.devid then r.state.eject k x else none
  match ejected with
  | some t => { r with state := t }
  | none =>
    match r.free.find? fun p => x.dst ≠ r.state.devid && r.state.productive x.dst p with
    | some p => { r with free := r.free.erase p, out := r.out ++ [(p, x)] }
    | none =>
      match r.free with
      | p :: l => { r with free := l, out := r.out ++ [(p, { x with age := Nat.min (x.age + 1) 255 })] }
      | [] => r
def State.routeAll (s : State) (k : Nat) (xs : List Flit) : Routed :=
  xs.foldl (fun r x => r.take k x) ⟨s, s.ports, []⟩
/-- A fabric cycle of plane `k` with the flits that arrive: bad ones are dropped and counted; a waiting flit injects
unless the arriving ones take every port. -/
def State.routerCycle (s : State) (k : Nat) (arriving : List (Nat × Flit)) : State :=
  let good (x : Flit) : Bool := s.deviceValid x.dst && x.zero = 0
  let xs := (arriving.map fun x => x.2).filter good
  let s : State := { s with fabric := { s.fabric with dropped := s.fabric.dropped + (arriving.length - xs.length) } }
  let sorted := xs.foldl (fun l x => insertFlit x l) []
  let plain := s.routeAll k sorted
  let r := match (s.fabric.plane k).inject with
    | x :: rest =>
      if plain.free.isEmpty then plain
      else
        let y := if x.fresh then { x with stamp := s.gtime.extractLsb' 0 32, fresh := false } else x
        let keep (z : Nat × List Flit) : Nat × List Flit :=
          if z.1 = y.pid then (z.1, z.2.map fun (f : Flit) => if f.seq = y.seq then y else f) else z
        let f := s.fabric.onPlane k fun p => { p with inject := rest }
        ({ s with fabric := { f with sent := f.sent.map keep } } : State).routeAll k (insertFlit y sorted)
    | [] => plain
  { r.state with fabric := r.state.fabric.onPlane k fun p => { p with out := r.out } }
/-- `PLANE_ROUTER_CYCLE` of plane `turn.unit`, with the flits `turn.flits` that arrive by their ports. -/
def execPlaneRouterCycle (s : State) : Host.Outcome State Fault Refusal :=
  .next (s.routerCycle s.turn.unit (s.turn.flits.map fun x => (x.1, flitOf x.2)))

/-! ### Buffers and refusals (15, R399) -/

/-- The oldest packet of the refusal lists that no buffer is held for. -/
def Fabric.oldestRefused (f : Fabric) : Option Refused :=
  ((f.planes.toList.flatMap fun p => p.refused).filter fun r => !r.given).foldl
    (fun (b : Option Refused) r => match b with
      | some x => if olderStamp r.stamp x.stamp then some r else b
      | none => some r) none
/-- A reserved buffer that frees is given to the oldest refused packet. -/
def Fabric.give (f : Fabric) : Fabric :=
  match f.oldestRefused with
  | some r => { f with planes := f.planes.map fun p =>
      { p with refused := p.refused.map fun x => if x = r then { x with given := true } else x } }
  | none => f
/-- The buffer of a packet that has been taken is free. -/
def Fabric.release (f : Fabric) (src pid : Nat) : Fabric :=
  match f.buffers.find? fun b => b.src = src && b.pid = pid with
  | some b => let g := { f with buffers := f.buffers.erase b }; if b.kept then g.give else g
  | none => f
/-- The fabric timeout in nanoseconds (15, Table 15.5). -/
def State.timeout (s : State) : Nat := Nat.min 1000000 (Nat.max 100 (s.fabctl.extractLsb' 0 20).toNat) * 1000
/-- `REFUSAL`: device `turn.unit` refused packet `turn.index` at transmission `turn.addr`. The source sends it again
with its STAMP, AGE = 255 and TRY one higher, while its fabric timeout lasts (R402). -/
def execRefusal (s : State) : Host.Outcome State Fault Refusal :=
  let f := s.fabric
  let pid := s.turn.index
  match mapGet f.sent pid [] with
  | [] => .next s
  | x :: r =>
    let age := (s.gtime.extractLsb' 0 32 - x.stamp).toNat
    if x.dst ≠ s.turn.unit || x.tries ≠ s.turn.addr || s.timeout ≤ age then .next s
    else
      let again := (x :: r).map fun y => { y with age := 255, tries := (y.tries + 1) % 4 }
      let g := f.onPlane x.plane fun p => { p with inject := p.inject ++ again }
      .next { s with fabric := { g with sent := mapPut g.sent pid again } }
/-- `REFUSAL_RESERVATION_TIMEOUT`: the buffer held for entry `turn.index` of plane `turn.unit`'s refusal list is freed
once a fabric timeout has passed since the refusal. -/
def execRefusalReservationTimeout (s : State) : Host.Outcome State Fault Refusal :=
  match (s.fabric.plane s.turn.unit).refused[s.turn.index]? with
  | none => .next s
  | some r =>
    if !r.given || (s.gtime - r.since).toNat < s.timeout then .next s
    else .next { s with fabric :=
      (s.fabric.onPlane s.turn.unit fun p => { p with refused := p.refused.eraseIdx s.turn.index }).give }

/-! ### Permitted ranges (15, R406, R407) -/

def State.prBase (s : State) : Nat := (s.prctl.extractLsb' 20 19).toNat * 2 ^ 20
def State.hbmDouble (s : State) (a : Nat) : Nat := ofBytes (s.homeBytes 0 a 8)
/-- A range of a class's table: first and last byte, the kinds that it grants, its binding. -/
structure Permit where
  first : Nat
  last  : Nat
  r     : Bool
  w     : Bool
  a     : Bool
  bind  : Nat
  deriving DecidableEq, Repr
/-- An entry that is in force: none for one that acts as V = 0. -/
def permitOf (s : State) (at' : Nat) : Option Permit :=
  let x := BitVec.ofNat 64 (s.hbmDouble at')
  let y := BitVec.ofNat 64 (s.hbmDouble (at' + 8))
  let b := (y.extractLsb' 43 6).toNat
  let base := (x.extractLsb' 12 27).toNat
  let limit := (y.extractLsb' 12 27).toNat
  let near := match (s.binding b).state with | .undefined | .retired => false | _ => !(s.binding b).rec'.home
  if !y.getLsbD 42 || x &&& 0xFFFFFF8000000FFF ≠ 0 || y &&& 0xFFFE000000000FFF ≠ 0 || limit < base || near then none
  else some ⟨base * 4096, limit * 4096 + 4095, y.getLsbD 39, y.getLsbD 40, y.getLsbD 41, b⟩
/-- Bytes of a request, and the entry's right to its kind. -/
def RemoteOp.size : RemoteOp → Nat
  | .read n => n
  | .write bs => bs.length
  | .atomic k w _ _ => amoSize (AmoOp.ofCode k) (if w = 4 then .word else .double)
  | .donate _ _ _ | .claim _ _ _ => 64
def Permit.grants (p : Permit) : RemoteOp → Bool
  | .read _ => p.r
  | .write _ => p.w
  | .atomic _ _ _ _ | .donate _ _ _ | .claim _ _ _ => p.a && p.r && p.w
/-- The check of `n` bytes for a source: the binding that serves them, or the reason of the NAK (15, R401, R406). -/
def State.permittedFor (s : State) (src addr n : Nat) (grants : Permit → Bool) : Except Nat Nat :=
  if !s.prctl.getLsbD 39 then .error 1
  else
    let c := fieldAt (s.homeBytes 0 (s.prBase + src) 1) 0 1
    if c = 255 then .error 1
    else
      let table := s.prBase + 0x40000 + 1024 * c
      match (List.range 64).findSome? fun i =>
        (permitOf s (table + 16 * i)).bind fun p =>
          if p.first ≤ addr && addr + n ≤ p.last + 1 then some p else none with
      | none => .error 1
      | some p =>
        if !grants p then .error 2
        else match (s.binding p.bind).state with
          | .undefined | .retired => .error 3
          | _ => .ok p.bind
/-- The check of a request. -/
def State.permitted (s : State) (src addr : Nat) (op : RemoteOp) : Except Nat Nat :=
  s.permittedFor src addr (RemoteOp.size op) fun p => p.grants op
/-- `PRCTL_WRITE`: the management core writes `turn.value`. -/
def execPrctlWrite (s : State) : Host.Outcome State Fault Refusal := .next { s with prctl := s.turn.value &&& 0xFFFFF00000 }
/-- `PERMITTED_RANGE_TABLE_WRITE`: bytes `turn.bytes` at `turn.addr` of the class map or a class's table, performed at
their home. -/
def execPermittedRangeTableWrite (s : State) : Host.Outcome State Fault Refusal :=
  let a := s.turn.addr
  if s.prBase ≤ a && a + s.turn.bytes.length ≤ s.prBase + 0x40000 + 1024 * 255 && a + s.turn.bytes.length ≤ 0x6000000000 then
    .next (s.partStore 0 a s.turn.bytes)
  else .next s
/-- `FABCTL_WRITE`: the management core writes `turn.value`. -/
def execFabctlWrite (s : State) : Host.Outcome State Fault Refusal := .next { s with fabctl := s.turn.value &&& 0x1FFFFF }

/-! ### A request at its target (15, R400, R401) -/

/-- An event that waits is held; a new one of its kind waits behind those held before it (15, R408). -/
def State.hold (s : State) (i : Instr) : State :=
  let x := (i, { s.turn with again := true })
  if s.turn.again then { s with held := x :: s.held } else { s with held := s.held ++ [x] }
/-- A held event that has been tried again and waits on keeps its place. -/
def State.reseat (s : State) (k n : Nat) : State :=
  if s.held.length = n then
    match s.held with
    | x :: r => { s with held := r.take k ++ x :: r.drop k }
    | [] => s
  else s
/-- A new event of a kind of which one is held. -/
def State.behind (s : State) (i : Instr) : Bool := !s.turn.again && s.held.any fun x => x.1 = i

/-- Other bytes of this device that a request acts on: their canonical address and the binding that serves them, where the
source may act on them, or the reason of the NAK (15, R401). -/
def State.ringAt (s : State) (src at' n : Nat) : Except Nat (Nat × Nat) :=
  match canonical at' with
  | none => .error 4
  | some a => match s.permittedFor src a n (fun p => p.a && p.r && p.w) with | .ok b => .ok (a, b) | .error k => .error k
/-- A donation at its queue's home: 0 when the queue stands elsewhere now. -/
def State.donateAt (s : State) (b pa index : Nat) (slot : Nat × Nat) (bs : List Byte) : State × Nat :=
  let d := Desc.ofBytes (s.partLoad b pa 64).2
  if d.tail ≠ index || d.full then (s, 0)
  else ((s.partStore slot.2 slot.1 bs).partStore b (pa + 8) (toBytes 8 (d.tail + 1)), 1)
/-- How an attachment for another device's claim ends: with a worklist, with the trap or the upcall that it met, or it has to
wait. -/
inductive Attached where
  | done (wid : Nat) (s : State) | failed (cause : BitVec 6) (tval : Word) (s : State) | waits
  deriving DecidableEq, Repr
/-- A record at an address of this device is attached for another device's claim: by the first core in service, with the
supervisor's rights (13, R352; log 87). -/
def State.attachHere (s : State) (b target : Nat) : Attached :=
  let core := s.service.headD 0 * 96
  let old := s.core core
  let (t, bs) := s.partLoad b target 256
  let u := t.onCore core fun c => { c with csr := { c.csr with status := statusWith c.csr.status superMode superMode false } }
  match attachFrom (BitVec.ofNat 64 target) (target, b) bs { u with cur := core, ctx := 0, grain := none } with
  | .ok (wid, v) =>
    .done wid { v.onCore core fun c => { c with csr := old.csr, ctxs := old.ctxs } with cur := s.cur, ctx := s.ctx, grain := s.grain }
  | .error (.exc (.trap c v)) | .error (.exc (.upcall c v)) => .failed c v s
  | .error (.badWalk (.trap c v)) | .error (.badWalk (.upcall c v)) => .failed c v s.countMalformed
  | .error (.exc (.wait _)) | .error (.badWalk (.wait _)) | .error (.done _) => .waits
/-- A claim at its queue's home, which enters the entry into the target worklist there, attached where it is not yet: 0 when
the queue stands elsewhere now, 1 done, 2 no room, 3 an entry whose KIND fails, which is lost, and 4 with the cause and `tval`
of an attachment that failed, the `tval` in the record counted from the record (06, R167). The entry takes the slot of the
first placed quire that has room (log 87). -/
def State.claimAt (s : State) (b pa index : Nat) (slot target : Nat × Nat) : State × List Byte :=
  let d := Desc.ofBytes (s.partLoad b pa 64).2
  if d.head ≠ index || d.empty then (s, [0])
  else
    let e := Entry.ofBytes (s.partLoad slot.2 slot.1 16).2
    let gone (t : State) : State := t.partStore b pa (toBytes 8 (d.head + 1))
    let found : Attached :=
      match s.wls.find? fun x => x.2.record = target.1 with
      | some x => .done x.1 s
      | none => s.attachHere target.2 target.1
    match found with
    | .waits => (s, [0])
    | .failed c v s =>
      let inside := target.1 ≤ v.toNat && v.toNat < target.1 + 256
      (s, [4, c.zeroExtend 8, if inside then 1 else 0] ++ toBytes 8 (if inside then v.toNat - target.1 else v.toNat))
    | .done wid t =>
      match t.wl? wid with
      | none => (s, [0])
      | some w =>
        if w.kinds.length ≤ e.kind then (gone t, [3])
        else match w.place.findSome? fun q => t.wlEnter wid q e with
          | none => (t, [2])
          | some u => ((gone u).onWl wid fun w => { w.lowered (w.bucket e) with dclaim := w.dclaim + 1 }, [1])
/-- A write covers some bytes of an uncorrectable double at its home and not all of them (05, R134). -/
def State.mergesBad (s : State) (h pa n : Nat) : Bool :=
  (doublesOf pa n).any fun d => partOf pa n d && s.badHome none h d
/-- A request of device `src` performed as `.unc` at the line's home, with its answer (15, R401; 07, R184). -/
def State.performRemote (s : State) (src bind pa : Nat) (op : RemoteOp) : State × Reply :=
  let h := s.homeBinding bind pa
  let poison := s.anyBad (.hbm pa bind) (RemoteOp.size op)
  match op with
  | .read n => if poison then (s, .poison) else let (t, bs) := s.uncLoad h pa n; (t, .data bs)
  | .write bs =>
    if s.mergesBad h pa bs.length then (s, .poison)
    else (s.uncStore h none pa (bs.map fun b => ⟨b.1, b.2⟩), .ack)
  | .atomic k w v expected =>
    if poison then (s, .poison)
    else
      let op := AmoOp.ofCode k
      let cell : Cell := if w = 4 then .word else .double
      let t := s.recallCopies h none (pa / 16 * 16) 16
      let old := t.homeBytes h pa (amoSize op cell)
      let (new, f) := amoBytes op cell old v expected
      (match new with | some bs => t.homeStore h none pa (storeBytes bs) true | none => t, .data (old ++ [f.zeroExtend 8]))
  | .donate i slot bs =>
    if poison then (s, .poison)
    else match s.ringAt src slot 16 with
      | .ok p => let (t, k) := s.donateAt bind pa i p bs; (t, .data [BitVec.ofNat 8 k])
      | .error k => (s, .nak k)
  | .claim i slot target =>
    if poison then (s, .poison)
    else match s.ringAt src slot 16, s.ringAt src target 256 with
      | .ok p, .ok g => let (t, bs) := s.claimAt bind pa i p g; (t, .data bs)
      | .error k, _ | _, .error k => (s, .nak k)
/-- The granules of a request that it has to wait for: it takes its turn in their queues in bank order (07, R177). -/
def State.remoteGranules (s : State) (b pa n : Nat) : List Place := s.granulesAt (.hbm pa b) n
/-- The request of packet `pid` of a device may be performed now: every granule of it is free and its turn has come, no copy
engine owns a line of it, and its stack is trained. -/
def State.remoteFree (s : State) (src pid b pa n : Nat) : Bool :=
  let p := Place.hbm pa b
  !s.owned p n && !s.untrained p && (s.remoteGranules b pa n).all fun g => (s.granule g).turnOf (.remote src pid)
/-- A request that has to wait stands in the queues of its granules. -/
def State.remoteWaits (s : State) (src pid b pa n : Nat) : State :=
  (s.joinAll (.remote src pid) (s.remoteGranules b pa n)).getD s
/-- Flits of an answer (15, Table 15.4). -/
def Reply.flits : Reply → Nat | .data bs => if 16 < bs.length then (bs.length + 79) / 48 else 1 | _ => 1
/-- A packet is answered and its buffer frees. -/
def State.answer (s : State) (p : Packet) (r : Reply) : State :=
  let t := s.post p.source 1 (Reply.flits r)
  let f := t.fabric.release p.source p.pid
  { t with fabric := { f with answers := f.answers ++ [(p.source, p.pid, r)] } }
/-- The payload of a packet as its buffer holds it, or as it comes with its event; none while flits of it are missing. -/
def State.payloadOf (s : State) (src pid : Nat) (bytes : List Byte) : Option (List Byte) :=
  match s.fabric.buffers.find? fun b => b.src = src && b.pid = pid with
  | some b => b.payload
  | none => some bytes
/-- `REMOTE_PACKET_ARRIVAL` of request `turn.packet`, whose last flit has come. A bad CRC-32 is answered with a CRC NAK, reason
0 here. A request that has to wait joins the queues of its granules. -/
def execRemotePacketArrival (s : State) : Host.Outcome State Fault Refusal :=
  match s.turn.packet with
  | none => .next s
  | some p =>
    match s.payloadOf p.source p.pid p.payload with
    | none => .next s
    | some bytes =>
      if !crcHolds p.source p.pid bytes then .next (s.answer p (.nak 0))
      else if !s.fabricOn then .next (s.answer p (.nak 5))
      else match canonical p.addr with
        | none => .next (s.answer p (.nak 4))
        | some a =>
          -- a request that waits has been decided under the tables as it found them (15, R407)
          match (if s.turn.again then match s.turn.list with | b :: _ => .ok b | [] => s.permitted p.source a p.op
                 else s.permitted p.source a p.op : Except Nat Nat) with
          | .error k => .next (s.answer p (.nak k))
          | .ok b =>
            let n := RemoteOp.size p.op
            if s.remoteFree p.source p.pid b a n then
              let (t, r) := s.performRemote p.source b a p.op
              .next ((t.leaves (.remote p.source p.pid)).answer p r)
            else
              let t := s.remoteWaits p.source p.pid b a n
              .next (({ t with turn := { t.turn with list := [b] } } : State).hold .remotePacketArrival)

/-! ### Answers at the requester (15, R400, R402, R404) -/

/-- Who asked: a context, a copy engine's command, a sweep, or the balancer. -/
def State.onRemote (s : State) (f : Remote → Remote) : State :=
  let t := s.turn
  match t.unit with
  | 0 => s.onCore t.core fun c =>
      { c with ctxs := c.ctxs.set t.ctx { c.ctxs[t.ctx] with remote := c.ctxs[t.ctx].remote.map f } }
  | 1 => s.onQuire (quireOf t.core) fun q =>
      { q with cmds := q.cmds.map fun c => if c.seq = t.index then { c with remote := c.remote.map f } else c }
  | _ => s
/-- A CRC NAK sends a part of the request again, up to three times; the fourth is a timeout. -/
def Remote.again (r : Remote) (part : Nat) : Remote :=
  let n := mapGet r.tries part 0
  if 3 ≤ n then { r with late := true, part := part } else { r with tries := mapPut r.tries part (n + 1) }
/-- The request that an answer is about, and the class of its packets. -/
def State.asked (s : State) : Option (Remote × Nat) :=
  let t := s.turn
  match t.unit with
  | 0 => (s.core t.core).ctxs[t.ctx].remote.map fun r => (r, 2)
  | 1 => (((s.quire (quireOf t.core)).cmds.find? fun c => c.seq = t.index).bind fun c => c.remote).map fun r => (r, 3)
  | _ => none
/-- The part of a request that failed its CRC at the target goes out again (15, R400). -/
def State.sendAgain (s : State) : State :=
  let wid := s.turn.core
  match s.turn.unit with
  | 2 =>
    match s.wl? wid with
    | none => s
    | some w =>
      match w.asks[s.turn.index]? with
      | none => s
      | some a =>
        if 3 ≤ a.tries then s.partnerSilent wid a.partner
        else (s.setWl wid { w with asks := w.asks.set s.turn.index { a with tries := a.tries + 1 } }).post
          (w.pq.getD a.partner (0, 0)).1 2 1
  | 3 =>
    match s.wl? wid with
    | none => s
    | some w =>
      match w.offer with
      | none => s
      | some (goal, _) =>
        if 3 ≤ w.offerTries then s.giveLost wid
        else (s.setWl wid { w with offerTries := w.offerTries + 1 }).post (w.pq.getD goal (0, 0)).1 2 1
  | _ =>
    match s.asked with
    | none => s
    | some (q, cls) =>
      let k := s.turn.list.headD 0
      let u := s.onRemote fun r => r.again k
      match q.parts[k]? with
      | some x => if 3 ≤ mapGet q.tries k 0 then u else u.post q.dev cls (RemoteOp.flits x.2)
      | none => u
/-- A worklist's sweep or balancer takes an answer: `turn.index` names the read. -/
def State.listAnswer (s : State) (r : Reply) : State :=
  let wid := s.turn.core
  match s.turn.unit, r with
  | 2, .data bs => match (s.wl? wid).bind fun w => w.asks[s.turn.index]? with
    | some a => s.sweepAnswer wid a bs
    | none => s
  | 3, .data bs => s.giveAnswer wid (if ofBytes bs = 0 then none else some (ofBytes bs - 1))
  | 3, _ => s.giveLost wid
  | _, _ => s
/-- A token's answer from a device: for a context, or for a handshake that the part makes for its core. -/
def State.tokenAnswer (s : State) (d : Nat) (forPart : Bool) : State :=
  let t := s.turn
  let less (h : Hand) : Hand := { h with left := h.left.filter fun e => e ≠ d }
  s.onCore t.core fun c =>
    if forPart then { c with peerHand := c.peerHand.map less }
    else { c with ctxs := c.ctxs.set t.ctx { c.ctxs[t.ctx] with hand := c.ctxs[t.ctx].hand.map less } }
/-- `REMOTE_REPLY_ARRIVAL` of answer `turn.reply`: to the request of context `turn.ctx` of core `turn.core`
(`turn.unit` 0), of command `turn.index` of the core's engine (1), of read `turn.index` of worklist `turn.core`'s sweep
(2) or its offer (3), or a token's answer from device `turn.index` for the context (4), or for the part (5). The buffer of
packet `turn.packet` frees, whose CRC-32 is checked first; `turn.addr` says how it was where there is none: 0 good, 1 bad in
the reply. 2 is a CRC NAK: it was bad at the target. `turn.list` names the part of a NAK. -/
def execRemoteReplyArrival (s : State) : Host.Outcome State Fault Refusal :=
  let t := s.turn
  let bad : Bool := t.addr = 1 || match t.packet with
    | some p => (match (s.fabric.buffers.find? fun b => b.src = p.source && b.pid = p.pid).bind fun b => b.payload with
        | some bytes => !crcHolds p.source p.pid bytes
        | none => false)
    | none => false
  let s : State := match t.packet with | some p => { s with fabric := s.fabric.release p.source p.pid } | none => s
  match t.reply with
  | none => .next s
  | some r =>
    if t.addr = 2 && !bad then .next s.sendAgain
    else
      -- a bad reply is uncorrectable data; a bad acknowledgement has not arrived
      let got : Option Reply := if bad then (match r with | .data _ => some .poison | _ => none) else some r
      match got with
      | none => .next s
      | some r =>
        let fill (x : Remote) : Remote :=
          if x.answer.isNone && !x.late then { x with answer := some r, part := t.list.headD 0 } else x
        match t.unit with
        | 0 | 1 => .next (s.onRemote fill)
        | 4 | 5 => .next (match r with | .ack => s.tokenAnswer t.index (t.unit = 5) | _ => s)
        | _ => .next (s.listAnswer r)
/-- `FABRIC_TIMEOUT`: the fabric timeout of the request that `turn` names, as in `REMOTE_REPLY_ARRIVAL`, has run out;
`turn.list` names its part (05, R124, R131). -/
def execFabricTimeout (s : State) : Host.Outcome State Fault Refusal :=
  match s.turn.unit with
  | 0 | 1 => .next (s.onRemote fun x =>
      if x.answer.isNone then { x with late := true, part := s.turn.list.headD 0 } else x)
  | 3 => .next (s.giveLost s.turn.core)
  | _ => .next s
/-- `FENCE_TOKEN`: a token of device `turn.index` with packet number `turn.addr` arrives and is answered (15, R404); while the
fabric is out of service it is NAKed (15, R402). -/
def execFenceToken (s : State) : Host.Outcome State Fault Refusal :=
  let t := s.post s.turn.index 0 1
  let r : Reply := if s.fabricOn then .ack else .nak 5
  .next { t with fabric := { t.fabric with answers := t.fabric.answers ++ [(s.turn.index, s.turn.addr, r)] } }
/-- `FENCE_HANDSHAKE_TIMEOUT`: the handshake of context `turn.ctx` of core `turn.core` ends, or with `turn.flag` that of the
part for the core (07, R174). -/
def execFenceHandshakeTimeout (s : State) : Host.Outcome State Fault Refusal :=
  let late (h : Hand) : Hand := { h with late := true }
  .next (s.onCore s.turn.core fun c =>
    if s.turn.flag then { c with peerHand := c.peerHand.map late }
    else { c with ctxs := c.ctxs.set s.turn.ctx { c.ctxs[s.turn.ctx] with hand := c.ctxs[s.turn.ctx].hand.map late } })

/-! ### Contact and losses (15, R397, R403) -/

/-- `NEIGHBOUR_SILENCE`: the neighbour at port `turn.unit` has given no answer on any lane for a fabric timeout. A loss
notice for it goes to every valid device. -/
def execNeighbourSilence (s : State) : Host.Outcome State Fault Refusal :=
  let d := s.neighbour s.turn.unit
  if !s.ports.contains s.turn.unit then .next s
  else
    let t : State := { s with reports := s.reports ++ [(4, d)] }
    .next ((s.otherDevices.foldl (fun t e => t.post e 0 1) t).loseDevice d)
/-- A packet of the control class that comes while the fabric is out of service is answered with a NAK, reason 5, and has no
effect (15, R402). -/
def State.turnedAway (s : State) (src pid : Nat) : State :=
  let t := s.post src 0 1
  { t with fabric := { t.fabric with answers := t.fabric.answers ++ [(src, pid, .nak 5)] } }
/-- `LOSS_NOTICE` for device `turn.index`, from device `turn.unit` in packet `turn.addr`: it also leaves the count of an open
system barrier (07, R192). -/
def execLossNotice (s : State) : Host.Outcome State Fault Refusal :=
  .next (if !s.fabricOn then s.turnedAway s.turn.unit s.turn.addr
    else if s.deviceValid s.turn.index then s.loseDevice s.turn.index else s)
/-- `LOST_SET_CLEAR` of device `turn.index`. -/
def execLostSetClear (s : State) : Host.Outcome State Fault Refusal :=
  .next { s with lost := s.lost.filter fun d => d ≠ s.turn.index }
/-- `KEEPALIVE`: an idle lane of port `turn.unit` sends one, or with `turn.flag` takes one in that carries its sender's time
`turn.value` (17, R445). -/
def execKeepalive (s : State) : Host.Outcome State Fault Refusal :=
  let d := s.neighbour s.turn.unit
  .next (if !s.ports.contains s.turn.unit then s
    else if s.turn.flag then
      { s with fabric := { s.fabric with times := (d, s.turn.value, s.gtime) :: s.fabric.times.filter fun x => x.1 ≠ d } }
    else s.post d 0 1)

/-! ### The system barrier (15, R405) -/

/-- `BARRIER_SYS_PACKET` from device `turn.index` in packet `turn.addr`: the arrivals below it have risen from it, or, with
`turn.flag`, the release has come down and goes on to the devices below. -/
def execBarrierSysPacket (s : State) : Host.Outcome State Fault Refusal :=
  .next (if !s.fabricOn then s.turnedAway s.turn.index s.turn.addr
    else if s.turn.flag then s.releaseDown
    else { s with fabric := { s.fabric with risen := insertNat s.turn.index s.fabric.risen } })

end Sys2Proof.Machine
end

