-- ==== Sys2Proof/Machine/Home.lean ====
section
/-! DEFINITION. Steps of walkers, of home slices and of the on-die networks
(12, R322 to R326; 15, R384 to R393; 16, R414 to R422). -/

namespace Sys2Proof.Machine

/-! ### Translation (16) -/

/-- `TRANSLATION_WALK`: core `turn.core`'s access at `turn.value` is translated, a fetch where `turn.flag` is set. A
walk that ends in an upcall leaves nothing but its count of a malformed entry; the access that asked takes the
upcall. With `turn.index` the entries cached for the address have left the TLBs and the node cache before (16, R420, R421,
R432), so that it is walked afresh. -/
def execTranslationWalk (s : State) : Host.Outcome State Fault Refusal :=
  let s := if s.turn.index = 0 then s else s.invalidate s.turn.core (some s.turn.value)
  .next (s.acting s.turn.core 0 fun t =>
    match translate t.turn.value t.turn.value t.turn.flag t with
    | .ok (_, u) => u
    | .error (.badWalk _) => t.countMalformed
    | .error (.exc _) | .error (.done _) => t)

/-- Every core of a quire is idle with an empty inbox, and none of its contexts is saved out (16, R414). -/
def State.quiet (s : State) (q : Nat) : Bool :=
  !s.service.contains q ||
    (((quireMembers q).all fun c => s.idle c && (s.core c).inbox.isEmpty && (s.core c).overflow.isNone)
      && !(s.mgmt.savedOut.any fun x => x.2 = q))
/-- Every TLB and node cache of a quire emptied. -/
def State.emptyTlbs (s : State) (q : Nat) : State :=
  (quireMembers q).foldl (fun t c => t.onCore c fun k => { k with itlb := [], dtlb := [] })
    (s.onQuire q fun x => { x with tlb2 := [], nodes := [] })
/-- `QASR_WRITE`: the management core writes `turn.value` to QASR of quire `turn.unit`, which waits until the quire is
quiet. -/
def execQasrWrite (s : State) : Host.Outcome State Fault Refusal :=
  let q := s.turn.unit
  if s.behind .qasrWrite || !s.quiet q then .next (s.hold .qasrWrite)
  else .next ((s.emptyTlbs q).onQuire q fun x => { x with qasr := s.turn.value &&& 0xFFFF3FFFFFFFF001 })
/-- `REMOTE_INVALIDATION` of address `turn.opt`, or of all, on the quires `turn.list`. It is complete, and reported,
once no store to HBM or to another device remains in a store buffer there (16, R422). -/
def execRemoteInvalidation (s : State) : Host.Outcome State Fault Refusal :=
  let cores := s.turn.list.flatMap quireMembers
  let t := if s.turn.again then s else cores.foldl (fun t c => t.invalidate c s.turn.opt) s
  let left := cores.any fun c => (t.core c).sb.any fun x => x.parts.any fun p =>
    match p.place with | .hbm _ _ | .remote _ _ => true | _ => false
  .next (if left then t.hold .remoteInvalidation else { t with reports := t.reports ++ [(6, s.turn.list.length)] })

/-! ### Requests at a home slice (12, R323) -/

/-- The home answers a fill of a quire's line: its bytes are on their way on the reply network. -/
def State.sendFill (s : State) (h : Nat) (r : BindRec) (req : Request) : State :=
  let q := s.turn.unit
  let base := s.turn.addr / r.line * r.line
  let (t, data, bad) := s.lineAt h base r.line
  let home := match t.slice h base with | some (k, _, _, _) => k | none => q
  let f : Fill := { quire := q, binding := t.turn.index, base := base, req := req, data := data, bad := bad
                    lease := if req = .si then some (t.leaseNow r) else none, waits := [], probed := false
                    way := t.startWay .reply home q (netFlits r.line) }
  { t.counted with noc := { t.counted.noc with fills := t.noc.fills ++ [f] } }
/-- The home may serve a fill of the line: no granule of it is granted, no copy engine owns it, and no fill of it is on its
way. -/
def State.mayFill (s : State) (h : Nat) (r : BindRec) : Bool :=
  let base := s.turn.addr / r.line * r.line
  !s.lineGranted h base r.line && !s.owned (.hbm base h) r.line
/-- The record of the instance of a near binding that quire `turn.unit` has for address `turn.addr`, where the home may serve
a fill of it now. -/
def State.nearRec (s : State) : Option BindRec :=
  let b := s.binding s.turn.index
  if b.rec'.home then none
  else match b.instanceFor s.turn.unit s.turn.addr with
    | some (r, _) => if s.mayFill 0 r then some r else none
    | none => none
/-- `HOME_PLAIN_FILL`: the home answers a fill of the line at `turn.addr` for quire `turn.unit`'s instance of near
binding `turn.index`. -/
def execHomePlainFill (s : State) : Host.Outcome State Fault Refusal :=
  .next (match s.nearRec with | some r => s.sendFill 0 r .dflt | none => s)
/-- `HOME_OWN_FILL`: every copy that another quire holds is recalled first. -/
def execHomeOwnFill (s : State) : Host.Outcome State Fault Refusal :=
  .next (match s.nearRec with
    | some r => (s.recallCopies 0 (some s.turn.unit) (s.turn.addr / r.line * r.line) r.line).sendFill 0 r .own
    | none => s)
/-- `HOME_SI_FILL`: doubles that another quire owns are recalled first; without a lease there is no fill (R326). -/
def execHomeSiFill (s : State) : Host.Outcome State Fault Refusal :=
  let b := s.binding s.turn.index
  let go (h : Nat) (r : BindRec) : State :=
    if r.lease = 0 then s
    else ((if h = 0 then s.settleHome s.turn.unit (s.turn.addr / r.line * r.line) r.line else s).recallOwned h (some s.turn.unit) (s.turn.addr / r.line * r.line) r.line).sendFill h r .si
  .next (if b.rec'.home then
      let h := s.homeBinding s.turn.index s.turn.addr
      match b.homeRec s.turn.addr with
      | some (r, _) => if h = s.turn.index && s.mayFill h r then go h r else s
      | none => s
    else match s.nearRec with | some r => go 0 r | none => s)
/-- `HOME_WRITE_BACK`: quire `turn.unit` writes back the written doubles of the line at `turn.addr`; with `turn.flag` it
is an eviction and the line leaves. -/
def execHomeWriteBack (s : State) : Host.Outcome State Fault Refusal :=
  .next (s.sweepLines s.turn.unit (fun l => overlaps l.base l.data.length s.turn.addr 1)
    allDoubles fun l => if s.turn.flag then none else some (l.cleaned fun _ => true))
/-- The oldest store of a core goes to homes with one of the given request types. -/
def State.headRequest (s : State) (core : Nat) (p : Request → Bool) : Bool :=
  match (s.core core).sb with
  | x :: _ => x.parts.all fun y => (match y.place with | .hbm _ _ => true | _ => false) && p y.req
  | [] => false
/-- `HOME_WT_STORE`: the oldest store that quire `turn.unit` forwards is performed at its home (11, R295); with `turn.flag`
core `turn.core`'s oldest store, `.wt` or `.si`, is. -/
def execHomeWtStore (s : State) : Host.Outcome State Fault Refusal :=
  .next (if s.turn.flag then
      if s.headRequest s.turn.core fun r => r = .wt || r = .si then s.drainOne s.turn.core else s
    else s.forwardOne s.turn.unit)
/-- `HOME_UNC_ACCESS`: core `turn.core`'s oldest store, `.unc`, is performed. -/
def execHomeUncAccess (s : State) : Host.Outcome State Fault Refusal :=
  .next (if s.headRequest s.turn.core fun r => r = .unc then s.drainOne s.turn.core else s)

/-! ### Probes and replies (15, R389) -/

/-- A fill on its way to a quire brings the line that holds an address. -/
def Fill.meets (f : Fill) (q a : Nat) : Bool := f.quire = q && f.base ≤ a && a < f.base + f.data.length
/-- A probe applied: the line's written doubles are written back and the copy goes, from the lease store too (12, R325). -/
def State.probeNow (s : State) (q a : Nat) : State :=
  (s.dropLines q fun l => overlaps l.base l.data.length a 1).dropLeases q fun l => overlaps l.base l.data.length a 1
/-- Probes that a quire holds: a home keeps at most 32 outstanding to any one requester (15, R387). -/
def State.heldProbes (s : State) (q : Nat) : Nat := (s.noc.fills.filter fun f => f.quire = q && f.probed).length
/-- `PROBE_ARRIVAL`: a recall of the line at `turn.addr` reaches quire `turn.unit`, and is held while the quire awaits
a reply for the line. -/
def execProbeArrival (s : State) : Host.Outcome State Fault Refusal :=
  let q := s.turn.unit
  let a := s.turn.addr
  if s.noc.fills.any fun f => f.meets q a then
    if 32 ≤ s.heldProbes q then .next (s.hold .probeArrival)
    else .next { s with noc := { s.noc with
      fills := s.noc.fills.map fun f => if f.meets q a then { f with probed := true } else f } }
  else .next (s.probeNow q a)
/-- A fill's line is installed where its quire still has a place for it. -/
def State.install (s : State) (f : Fill) : State :=
  let b := s.binding f.binding
  if b.rec'.home then s.installLease f.quire f.binding f.base f.data f.bad f.lease
  else match b.instanceFor f.quire f.base with
    | some (r, m) =>
      if r.line = f.data.length then s.installLine f.quire f.binding r m f.base f.data f.bad (f.req = .own) f.lease else s
    | none => s
/-- The loads that waited for a fill have its bytes. One whose bytes are uncorrectable is made again, and finds the error
where the line stands (16, R435). -/
def State.serveWaits (s : State) (f : Fill) : State :=
  f.waits.foldl (fun t x =>
    t.onCore x.agent.core fun c =>
      let k := c.ctxs[x.agent.ctx]
      if k.waiting && !((doublesOf x.addr x.bytes).any fun d => f.bad.getD (d - f.base / 8) false) then
        { c with ctxs := c.ctxs.set x.agent.ctx { k with got := (x.key, (f.data.drop (x.addr - f.base)).take x.bytes) :: k.got } }
      else c) s
/-- The stores of a quire that waited for a fill of their line at the head of their buffers are performed. -/
def State.serveStores (s : State) (f : Fill) : State :=
  (quireMembers f.quire).foldl (fun t c =>
    match (t.core c).sb with
    | x :: _ => if x.parts.all fun p => f.serves f.quire p.place p.bytes.length then t.drainOne c else t
    | [] => t) s
/-- `DATA_REPLY_ARRIVAL`: reply `turn.index` installs its line, the accesses that asked for it are performed with its bytes,
and a probe held for it is applied. -/
def execDataReplyArrival (s : State) : Host.Outcome State Fault Refusal :=
  match s.noc.fills[s.turn.index]? with
  | none => .next s
  | some f =>
    if !s.arrived f.way then .next s
    else
      let t : State := { s with noc := { s.noc with fills := s.noc.fills.eraseIdx s.turn.index } }
      let u := ((t.install f).serveWaits f).serveStores f
      .next (if f.probed then u.probeNow f.quire f.base else u)

/-! ### Links, boundaries and drains (15, R391, R393) -/

/-- A die's routes change and its clock follows its thermal step (15, R391; 17, R444, R447). -/
def State.drainDie (s : State) (d : Nat) (gated : List Nat) : State :=
  let half : Bool := !(s.imago || s.mgmt.walking) || s.thermal.toList.getD d 0 ≥ 3
  { s with
    noc := { s.noc with gated := (s.noc.gated.filter fun q => quireDie q ≠ d) ++ gated
                        draining := s.noc.draining.filter fun x => x.1 ≠ d }
    mgmt := { s.mgmt with half := Vector.ofFn fun i => if i.val = d then half else s.mgmt.half[i] } }
/-- A die begins to drain: nothing is injected there, and its routes change once its networks are empty (15, R391). -/
def State.beginDrain (s : State) (d : Nat) (gated : List Nat) : State :=
  if s.dieEmpty d then s.drainDie d gated
  else { s with noc := { s.noc with draining := (d, gated) :: s.noc.draining.filter fun x => x.1 ≠ d } }
/-- A die that drains, and whose networks are empty now, goes on with its new routes. -/
def State.drainEnd (s : State) (d : Nat) : Option State :=
  match s.noc.draining.find? fun x => x.1 = d with
  | some x => if s.dieEmpty d then some (s.drainDie d x.2) else none
  | none => none
/-- The management core may gate a quire's router: the quire is out of service, or its cores are all idle (15, R391). -/
def State.gateable (s : State) (q : Nat) : Bool := !s.service.contains q || (quireMembers q).all fun c => s.idle c
/-- `DIE_DRAIN` of die `turn.unit`, after which the routers of quires `turn.list` are gated. Traffic in flight goes on
in its order and nothing is lost. -/
def execDieDrain (s : State) : Host.Outcome State Fault Refusal :=
  .next (s.beginDrain s.turn.unit (s.turn.list.filter fun q => quireDie q = s.turn.unit && s.gateable q))
/-- `LINK_FLIT_REPLAY` on link `turn.unit`; with `turn.flag` the replay fails too. -/
def execLinkFlitReplay (s : State) : Host.Outcome State Fault Refusal :=
  let k := s.turn.unit
  let n := mapGet s.noc.replays k 0
  .next { s with noc := { s.noc with replays := mapPut s.noc.replays k (if s.turn.flag then n + 1 else 0) } }
/-- `BOUNDARY_RETRAIN` of link `turn.unit` after 8 failed replays of a flit; with `turn.flag` it fails. -/
def execBoundaryRetrain (s : State) : Host.Outcome State Fault Refusal :=
  let k := s.turn.unit
  if mapGet s.noc.replays k 0 < 8 then .next s
  else
    let n := mapGet s.noc.retrains k 0
    let noc := { s.noc with retrains := mapPut s.noc.retrains k (if s.turn.flag then n + 1 else 0)
                            replays := if s.turn.flag then s.noc.replays else mapPut s.noc.replays k 0 }
    .next { s with noc := noc }
/-- Every core of the part stops, and LSTAT.FAULT is set (01, R16; 15, R393; 17, R447). -/
def State.stopAll (s : State) : State :=
  let t := (s.service.flatMap quireMembers).foldl (fun t c => t.onCore c Core.stop) s
  { t with mgmt := { t.mgmt with fault := true, stuck := true } }
/-- Every die can be reached from every other (15, R393). -/
def State.allReached (s : State) : Bool :=
  (List.range 4).all fun d => (List.range 4).all fun e => (diePaths d e).any fun p => pathUp s.noc.down d p
/-- `BOUNDARY_DOWN`: boundary `turn.unit`, after three failed retrainings, is marked down and every die drains. Where
a die can no longer be reached, every core stops. -/
def execBoundaryDown (s : State) : Host.Outcome State Fault Refusal :=
  let k := s.turn.unit
  if k < 4 && 3 ≤ mapGet s.noc.retrains k 0 then
    let t : State := { s with noc := { s.noc with down := insertNat k s.noc.down } }
    let t := (List.range 4).foldl (fun t d => t.beginDrain d (t.noc.gated.filter fun q => quireDie q = d)) t
    .next (if t.allReached then t else t.stopAll)
  else .next s

end Sys2Proof.Machine
end

