-- ==== Sys2Proof/Machine/Message.lean ====
section
/-! DEFINITION. Page 1: messages and helpers (01, R36; 06, R152 to R159; 16, R435). -/

namespace Sys2Proof.Machine

/-! ### Sending (06, R152, R153) -/

/-- A logical core operand: trap 0x01 for a number out of range or of a core out of service (06, R137). -/
def coreOperand (x : Word) : M Nat := do
  need (x.toNat ≤ 18431 && (← get).inService x.toNat) (.trap 0x01 x)
  return x.toNat
/-- The message at a local address, ready for the send queue. -/
def takeMessage (a b : Reg) (reply : Bool) : M Msg := do
  let dest ← coreOperand (← readW a)
  let off ← localOperand (← readW b) 32 32
  let bs ← readOwn off 32
  let ket := BitVec.ofNat 32 (fieldAt bs 0 4)
  need (!hasV ket || kettleOk ket) (.trap 0x01 (ket.zeroExtend 64))
  let me := (← get).cur
  return ⟨dest, me, reply, bs.take 4 ++ toBytes 2 me ++ [if reply then 1 else 0] ++ bs.drop 7, false⟩
def enqueue (m : Msg) : M Unit := do
  release (scopeOf m.src m.dest)
  modify fun s => s.onMe fun c => { c with sendq := c.sendq ++ [m] }
/-- `SEND` (R152). Copy a request message into the send queue; trap 0x08 with 6 or more queued. -/
def execSend (a b : Reg) (s : State) := M.run (do
  barPhase
  let m ← takeMessage a b false
  need ((← get).me.sendq.length < 6) (.trap 0x08 (← readW a))
  enqueue m) s
/-- `REPLY` (R153). Copy a reply message into the send queue, waiting for a free entry. -/
def execReply (a b : Reg) (s : State) := M.run (do
  barPhase
  let m ← takeMessage a b true
  if 8 ≤ (← get).me.sendq.length then waitHere
  enqueue m) s
/-- `MESSAGE_DEPART`: the oldest message of a class, a reply where `turn.flag` is set, leaves the send queue of core
`turn.core` (06, R153). -/
def execMessageDepart (s : State) : Host.Outcome State Fault Refusal :=
  let c := s.core s.turn.core
  match c.sendq.findIdx? fun m => m.reply = s.turn.flag with
  | none => .next s
  | some i =>
    match c.sendq[i]? with
    | none => .next s
    | some m =>
      let t := s.onCore s.turn.core fun c => { c with sendq := c.sendq.eraseIdx i }
      let way := t.startWay (if m.reply then .reply else .request) (quireOf s.turn.core) (quireOf m.dest) 1
      .next { t.counted with net := t.net ++ [(way, m)] }

/-! ### Arriving (06, R154) -/

/-- A message that stands in the network has room at its core: at most 12 requests, and 16 messages with one reply
beyond them (06, R154). -/
def Core.accepts (c : Core) (m : Msg) : Bool :=
  if m.reply then c.inbox.length < 16 || c.overflow.isNone
  else c.inbox.length < 16 && (c.inbox.filter fun x => !x.reply).length < 12 && c.overflow.isNone
/-- A message written into the inbox, or into the overflow slot when the inbox is full. -/
def Core.take (c : Core) (m : Msg) : Core :=
  if c.inbox.length < 16 then { c with inbox := c.inbox ++ [m] }.stir else { c with overflow := some m }.stir
/-- A message comes to its core: it is written, its kettle takes the sender's decrement, and it is visible; none while
it has no room or the sender's stores are not performed. A host notice's sender is the host (15, R410). -/
def State.messageIn (s : State) (m : Msg) : Option State :=
  if !(s.core m.dest).accepts m then none
  else
    let ket := BitVec.ofNat 32 (fieldAt m.bytes 0 4)
    let fromHost := m.src = 0xFFFF
    let t := s.onCore m.dest fun c => c.take m
    if !hasV ket || !kettleOk ket then some t
    else
      let sc := t.decScope ket (if fromHost then m.dest else m.src) []
      let sc := if fromHost then Scope.wider sc .dev else sc
      let u := if fromHost then some t else t.releaseFor m.src sc
      u.map fun u => (u.decrement ket m.dest .message sc []).1
/-- The handshake that a message's decrement waits for begins (06, R149; 07, R174). -/
def State.messageAsk (s : State) (m : Msg) : State :=
  let ket := BitVec.ofNat 32 (fieldAt m.bytes 0 4)
  if m.src = 0xFFFF || !hasV ket || !kettleOk ket || !(s.core m.dest).accepts m then s
  else s.askPeers m.src (s.decScope ket m.src [])
/-- A message has come to its core's quire, and no message of its sender and class for the core stands before it
(06, R153; 15, R388). -/
def State.firstInNet (s : State) (i : Nat) (x : Transit × Msg) : Bool :=
  s.arrived x.1
    && !((s.net.take i).any fun y => y.2.dest = x.2.dest && y.2.src = x.2.src && y.2.reply = x.2.reply)
/-- A reply that its core accepts and whose decrement has still to wait leaves the network's buffer: no reply holds up another
(15, R387). -/
def State.landReply (s : State) (i : Nat) (x : Transit × Msg) : State :=
  if x.2.reply && (s.core x.2.dest).accepts x.2 then { s with net := s.net.set i ({ x.1 with port := .landed }, x.2) } else s
/-- `MESSAGE_ARRIVAL`: message `turn.index` of the network arrives. -/
def execMessageArrival (s : State) : Host.Outcome State Fault Refusal :=
  match s.net[s.turn.index]? with
  | none => .next s
  | some m =>
    if !s.firstInNet s.turn.index m then .next s
    else .next (({ s with net := s.net.eraseIdx s.turn.index }.messageIn m.2).getD ((s.landReply s.turn.index m).messageAsk m.2))

/-! ### Taking (06, R155, R156) -/

def passes (f : Filter) (m : Msg) : Bool := match f with | .any => true | .request => !m.reply | .reply => m.reply
/-- Uncorrectable messages are discarded and reported (16, R435). -/
def Core.dropBadMessages (c : Core) : Core :=
  let held := c.inbox ++ c.overflow.toList
  { c with inbox := c.inbox.filter fun m => !m.bad, overflow := c.overflow.filter fun m => !m.bad
           impErr := c.impErr ++ (held.filter fun m => m.bad).map fun _ => 1 }
/-- The message of the overflow slot joins the inbox as soon as there is room (06, R154). -/
def Core.settleInbox (c : Core) : Core :=
  match c.overflow with
  | some m => if c.inbox.length < 16 then { c with inbox := c.inbox ++ [m], overflow := none } else c
  | none => c
/-- `RECV` (R155). Take the oldest inbox message passing the class filter, or mark none. -/
def execRecv (f : Filter) (a : Reg) (s : State) := M.run (do
  barPhase
  let off ← localOperand (← readW a) 32 32
  modify fun s => s.onMe fun c => c.dropBadMessages.settleInbox
  let s ← get
  match s.me.inbox.find? (passes f) with
  | none => storeOwn (off + 6) [0xFF]
  | some m => do
    set (s.onMe fun c => { c with inbox := c.inbox.erase m }.settleInbox)
    acquire (if m.src = 0xFFFF then .dev else scopeOf m.src s.cur)
    storeOwn off m.bytes) s
/-- `WMSG` (R156). Wait until the inbox holds a message passing the filter. -/
def execWmsg (f : Filter) (s : State) := M.run (do
  barPhase
  modify fun s => s.onMe fun c => c.dropBadMessages.settleInbox
  if (← get).me.inbox.any (passes f) then pure () else holdHere) s

/-! ### Helpers (06, R157 to R159) -/

/-- The lowest helper that is not live. -/
def Core.freeHelper (c : Core) : Option (Fin 11) :=
  (List.finRange 11).find? fun h => h ≠ 0 && c.ctxs[h].hstat ≠ 1
/-- `HSTART` (R157). Start the lowest free helper context. -/
def execHstart (d a b : Reg) (s : State) := M.run (do
  controlOnly
  barPhase
  let pc ← readW a
  let x ← readW b
  need (!pc.getLsbD 0) (.trap 0x03 pc)
  let s ← get
  match s.me.preempt, s.me.freeHelper with
  | none, some h => do
    let fresh : Ctx := { Ctx.reset with
      pc := pc, hstat := 1, mode := s.csr.mode
      w := ((Vector.replicate 32 (0 : Word)).set 0 x).set 13 (s.w 13) }
    set (s.onMe fun c => { c with ctxs := c.ctxs.set h fresh })
    writeW d (BitVec.ofNat 64 h.val)
  | _, _ => writeW d 0) s
/-- `HEND` (R158). End the executing helper cleanly. -/
def execHend (s : State) := M.run (do
  barPhase
  let s ← get
  if s.ctx = 0 then illegal
  else do
    set (((s.loseResv s.agent).onMyCtx fun c => { c with hstat := 2, waiting := false, resv := none }).tellStop s.cur)
    finish) s
/-- The helpers that bits [10:1] of an operand name. -/
def named (x : Word) (h : Fin 11) : Bool := h ≠ 0 && x.getLsbD h.val
/-- `HJOIN` (R159). Wait until the named helpers are not live and report faulted ones. -/
def execHjoin (d a : Reg) (s : State) := M.run (do
  controlOnly
  barPhase
  let x ← readW a
  let c := (← get).me
  if (List.finRange 11).any fun h => named x h && c.ctxs[h].hstat = 1 then holdHere
  let bad := ((List.finRange 11).filter fun h => named x h && c.ctxs[h].hstat = 3).map fun h => 2 ^ h.val
  let clear (k : Ctx) (h : Fin 11) : Ctx := if named x h then { k with hstat := 0 } else k
  modify fun s => s.onMe fun c => { c with ctxs := Vector.ofFn fun h => clear c.ctxs[h] h }
  writeW d (BitVec.ofNat 64 (bad.foldl (· + ·) 0))) s

end Sys2Proof.Machine
end

