-- ==== Sys2Proof/Machine/HostLink.lean ====
section
/-! DEFINITION. The host's frames over the Ohmov link (13, R336, R337; 15, R408 to R413). -/

namespace Sys2Proof.Machine

def State.toHost (s : State) (f : Frame) : State := { s with link := { s.link with out := s.link.out ++ [f] } }
/-- A frame that, while it waits, holds every later frame: frames are taken in the order of their arrival, and only one
that waits under R154 or R337 lets frames of other kinds pass (15, R408, R409). -/
def holdsFrames (i : Instr) : Bool := i = .hostRead || i = .hostWrite || i = .hostFence
/-- A new frame has to wait behind the frames that are held. -/
def State.frameBehind (s : State) (i : Instr) : Bool := !s.turn.again && s.held.any fun x => x.1 = i || holdsFrames x.1
/-- A held event keeps a later one of its kind waiting, but a packet of another device no other packet, and one of the
link's frames that holds later frames any of them. -/
def holdsUp (i j : Instr) : Bool :=
  (i = j && i ≠ .remotePacketArrival) || (holdsFrames i && (holdsFrames j || j = .launch || j = .hostNotice || j = .lstatRead))
/-- LSTAT (15, Table 15.9). -/
def State.lstat (s : State) : Word :=
  let bit (b : Bool) (i : Nat) : Nat := if b then 2 ^ i else 0
  BitVec.ofNat 64 (bit s.link.up 0 + bit s.mgmt.ready 1 + bit s.imago 2 + bit s.mgmt.fault 3 + bit s.fabricOn 4)

/-- A launch message (13, Table 13.1), 32 bytes. -/
structure LaunchMsg where
  root  : Nat
  flags : Nat
  pc    : Word
  arg   : Word
  tag   : Word
  deriving DecidableEq, Repr
def LaunchMsg.ofBytes (b : List Byte) : LaunchMsg :=
  ⟨fieldAt b 0 4, fieldAt b 4 4, BitVec.ofNat 64 (fieldAt b 8 8), BitVec.ofNat 64 (fieldAt b 16 8), BitVec.ofNat 64 (fieldAt b 24 8)⟩
/-- The lowest-numbered status whose conditions a launch meets (13, Table 13.2). -/
def State.launchStatus (s : State) (m : LaunchMsg) : Nat :=
  if !(m.root < 18432 && s.inService m.root) then 1
  else if m.pc.getLsbD 0 || 2 ^ 56 ≤ m.pc.toNat then 2
  else if m.flags % 2 = 0 && (s.core m.root).undelivered then 3
  else if 2 ≤ m.flags then 4
  else 0
/-- `LAUNCH`: launch message `turn.bytes`. One that may wait, to a root that holds an undelivered launch, is held. -/
def execLaunch (s : State) : Host.Outcome State Fault Refusal :=
  let m := LaunchMsg.ofBytes s.turn.bytes
  if s.frameBehind .launch then .next (s.hold .launch)
  else match s.launchStatus m with
    | 0 =>
      if (s.core m.root).undelivered then .next (s.hold .launch)
      else .next ((s.deliverLaunch m.root m.pc m.arg .dev).toHost (.launched m.tag 0))
    | k => .next (s.toHost (.launched m.tag k))

/-- `HOST_NOTICE` to core `turn.index` with message `turn.bytes`; it waits while the inbox holds 12 requests. -/
def execHostNotice (s : State) : Host.Outcome State Fault Refusal :=
  let n := s.turn.index
  let b := s.turn.bytes
  let ket := BitVec.ofNat 32 (fieldAt b 0 4)
  if s.frameBehind .hostNotice then .next (s.hold .hostNotice)
  else if !(n < 18432 && s.inService n) || (hasV ket && !kettleOk ket) then .next (s.toHost (.notice false))
  else
    let m : Msg := ⟨n, 0xFFFF, false, b.take 4 ++ toBytes 2 0xFFFF ++ [0] ++ (b.take 32).drop 7, false⟩
    match s.messageIn m with
    | some t => .next (t.toHost (.notice true))
    | none => .next (s.hold .hostNotice)

/-- A host access of 1 to 256 bytes at a canonical address, naturally aligned (15, Table 15.8). -/
def hostAccessOk (a n : Nat) : Bool := 1 ≤ n && n ≤ 256 && 2 ^ Nat.log2 n = n && a % n = 0 && a + n ≤ 0x6000000000
/-- The host in the queues of granules: a number that no device has; its reads are 0 there and its writes 1. -/
def hostDev : Nat := 262144
/-- A host access may be performed now, or it waits for its turn at the granules' banks. -/
def State.hostFree (s : State) (k a n : Nat) : Bool := s.remoteFree hostDev k 0 a n
/-- `HOST_READ` of `turn.index` bytes at `turn.addr`, as `.unc` at the home in binding 0. -/
def execHostRead (s : State) : Host.Outcome State Fault Refusal :=
  let a := s.turn.addr
  let n := s.turn.index
  if !hostAccessOk a n then .next { s with reports := s.reports ++ [(5, a)] }
  else if s.frameBehind .hostRead then .next (s.hold .hostRead)
  else if !s.hostFree 0 a n then .next ((s.remoteWaits hostDev 0 0 a n).hold .hostRead)
  else
    let (t, bs) := (s.leaves (.remote hostDev 0)).partLoad 0 a n
    let bs := if s.anyBad (.hbm a 0) n then (List.range n).map (Config.hostByte s.tick) else bs
    let u : State := { t with
      tick := t.tick + 1
      link := { t.link with cached := (lineBases 128 a n).foldl (fun l x => insertNat x l) t.link.cached } }
    .next (u.toHost (.data bs))
/-- `HOST_WRITE` of `turn.bytes` at `turn.addr`, as `.unc` at the home in binding 0. -/
def execHostWrite (s : State) : Host.Outcome State Fault Refusal :=
  let a := s.turn.addr
  let n := s.turn.bytes.length
  if !hostAccessOk a n then .next { s with reports := s.reports ++ [(5, a)] }
  else if s.frameBehind .hostWrite then .next (s.hold .hostWrite)
  else if !s.hostFree 1 a n then .next ((s.remoteWaits hostDev 1 0 a n).hold .hostWrite)
  else .next (((s.leaves (.remote hostDev 1)).partStore 0 a s.turn.bytes).toHost .ack)
/-- `HOST_FENCE`: answered once every earlier host write has been performed. -/
def execHostFence (s : State) : Host.Outcome State Fault Refusal :=
  .next (if s.frameBehind .hostFence then s.hold .hostFence else s.toHost .ack)
/-- The management core's own registers as the side-band reads them: LSTAT, FABCTL, PRCTL, and its counts of dropped flits, of
malformed entries and of corrected errors (15, R396, R402, R406, R413; 16, R418, R434; log 94). -/
def State.ownRegister (s : State) (k : Nat) : Word :=
  match k with
  | 0 => s.lstat
  | 1 => s.fabctl
  | 2 => s.prctl
  | 3 => BitVec.ofNat 64 s.fabric.dropped
  | 4 => BitVec.ofNat 64 s.mgmt.malformed
  | _ => BitVec.ofNat 64 ((s.mgmt.corrected.map fun x => x.2).foldl (· + ·) 0)
/-- `LSTAT_READ` over the link, or with `turn.flag` of register `turn.index` of the management core over SMBus. -/
def execLstatRead (s : State) : Host.Outcome State Fault Refusal :=
  .next (if s.turn.flag then
      { s with mgmt := { s.mgmt with smbus := s.mgmt.smbus ++ [toBytes 8 (s.ownRegister s.turn.index).toNat] } }
    else if s.frameBehind .lstatRead then s.hold .lstatRead
    else s.toHost (.lstat s.lstat))
/-- `OHMOV_RETRAIN`: the link is down, or with `turn.flag` trained again (16, Table 16.8). -/
def execOhmovRetrain (s : State) : Host.Outcome State Fault Refusal :=
  .next { s with link := { s.link with up := s.turn.flag } }

end Sys2Proof.Machine
end

