-- ==== Sys2Proof/Machine/Hash.lean ====
section
/-! DEFINITION. The named algorithms of bring-up and attestation: SHAKE256 and SLH-DSA-SHAKE-256s (17, R439, R448, R449;
log 47). -/

namespace Sys2Proof.Machine

/-! ### SHAKE256 -/

/-- The 25 lanes of the permutation's state, lane `x + 5 y`. -/
abbrev Lanes := List Word
def Lanes.at (a : Lanes) (i : Nat) : Word := a.getD i 0
/-- The rotations of the step ρ, by lane. -/
def rhoTable : List Nat :=
  [0, 1, 62, 28, 27, 36, 44, 6, 55, 20, 3, 10, 43, 25, 39, 41, 45, 15, 21, 8, 18, 2, 61, 56, 14]
/-- The constants of the step ι, by round. -/
def iotaTable : List Word :=
  [0x0000000000000001, 0x0000000000008082, 0x800000000000808A, 0x8000000080008000, 0x000000000000808B, 0x0000000080000001
   , 0x8000000080008081, 0x8000000000008009, 0x000000000000008A, 0x0000000000000088, 0x0000000080008009, 0x000000008000000A
   , 0x000000008000808B, 0x800000000000008B, 0x8000000000008089, 0x8000000000008003, 0x8000000000008002, 0x8000000000000080
   , 0x000000000000800A, 0x800000008000000A, 0x8000000080008081, 0x8000000000008080, 0x0000000080000001, 0x8000000080008008]
/-- One round: θ, ρ and π, χ, ι. -/
def keccakRound (a : Lanes) (k : Word) : Lanes :=
  let c := (List.range 5).map fun x => a.at x ^^^ a.at (x + 5) ^^^ a.at (x + 10) ^^^ a.at (x + 15) ^^^ a.at (x + 20)
  let d := (List.range 5).map fun x => c.getD ((x + 4) % 5) 0 ^^^ (c.getD ((x + 1) % 5) 0).rotateLeft 1
  let t : Lanes := a.zipIdx.map fun (v, i) => v ^^^ d.getD (i % 5) 0
  let b : Lanes := (List.range 25).map fun j =>
    let i := (j % 5 + 3 * (j / 5)) % 5 + 5 * (j % 5)
    (t.at i).rotateLeft (rhoTable.getD i 0)
  (List.range 25).map fun j =>
    let row := j / 5 * 5
    let v := b.at j ^^^ (~~~(b.at (row + (j + 1) % 5)) &&& b.at (row + (j + 2) % 5))
    if j = 0 then v ^^^ k else v
def keccak (a : Lanes) : Lanes := iotaTable.foldl keccakRound a
/-- A block of 136 bytes taken into the state. -/
def absorb (a : Lanes) (block : List Byte) : Lanes :=
  keccak (a.zipIdx.map fun (v, i) => if i < 17 then v ^^^ wordOf ((block.drop (8 * i)).take 8) else v)
/-- `n` blocks of a padded string taken in. -/
def absorbAll : Nat → Lanes → List Byte → Lanes
  | 0, a, _ => a
  | n + 1, a, bs => absorbAll n (absorb a (bs.take 136)) (bs.drop 136)
/-- `n` blocks of output. -/
def squeeze : Nat → Lanes → List Byte
  | 0, _ => []
  | n + 1, a => ((a.take 17).flatMap fun v => toBytes 8 v.toNat) ++ squeeze n (keccak a)
/-- SHAKE256 of a byte string, to `n` bytes. -/
def shake256 (bs : List Byte) (n : Nat) : List Byte :=
  let pad := 136 - bs.length % 136
  let tail : List Byte := if pad = 1 then [0x9F] else 0x1F :: (List.replicate (pad - 2) 0 ++ [0x80])
  let full := bs ++ tail
  (squeeze ((n + 135) / 136) (absorbAll (full.length / 136) (List.replicate 25 0) full)).take n

/-! ### SLH-DSA-SHAKE-256s: n 32, h 64, d 8, h′ 8, a 14, k 22, w 16, m 47 -/

/-- Big-endian bytes of a number, and the number of big-endian bytes. -/
def bigBytes (n v : Nat) : List Byte := (toBytes n v).reverse
def ofBig (bs : List Byte) : Nat := ofBytes bs.reverse
/-- `n` digits of `b` bits of a string, the most significant first. -/
def digitsOf (b n : Nat) (bs : List Byte) : List Nat :=
  (List.range n).map fun i => ofBig bs / 2 ^ (8 * bs.length - b * (i + 1)) % 2 ^ b
/-- An address: layer, tree, type, and three words of its type. -/
structure Adrs where
  layer : Nat
  tree  : Nat
  kind  : Nat
  a     : Nat
  b     : Nat
  c     : Nat
  deriving DecidableEq, Repr
def Adrs.bytes (x : Adrs) : List Byte :=
  bigBytes 4 x.layer ++ bigBytes 12 x.tree ++ bigBytes 4 x.kind ++ bigBytes 4 x.a ++ bigBytes 4 x.b ++ bigBytes 4 x.c
/-- A key pair's seeds: the public one, the secret one, and that of the message's randomiser. -/
structure Seeds where
  pub  : List Byte
  sec  : List Byte
  prf  : List Byte
  deriving DecidableEq, Repr
/-- The hash of bytes at an address. -/
def hashAt (pub : List Byte) (x : Adrs) (m : List Byte) : List Byte := shake256 (pub ++ x.bytes ++ m) 32
/-- A chain's value from step `i` on, `n` steps further. -/
def chainFrom (pub : List Byte) (x : Adrs) (m : List Byte) (i : Nat) : Nat → List Byte
  | 0 => m
  | n + 1 => hashAt pub { x with kind := 0, c := i + n } (chainFrom pub x m i n)
/-- The 67 digits of a 32-byte message with its checksum. -/
def wotsDigits (m : List Byte) : List Nat :=
  let ds := digitsOf 4 64 m
  ds ++ digitsOf 4 3 (bigBytes 2 ((ds.map fun d => 15 - d).foldl (· + ·) 0 * 16))
/-- The secret value of a chain; `x` holds layer, tree and key pair. -/
def wotsSecret (k : Seeds) (x : Adrs) (i : Nat) : List Byte := hashAt k.pub { x with kind := 5, b := i, c := 0 } k.sec
/-- The public value from the ends of the 67 chains. -/
def wotsRoot (pub : List Byte) (x : Adrs) (ends : List Byte) : List Byte := hashAt pub { x with kind := 1, b := 0, c := 0 } ends
def wotsPublic (k : Seeds) (x : Adrs) : List Byte :=
  wotsRoot k.pub x ((List.range 67).flatMap fun i => chainFrom k.pub { x with b := i } (wotsSecret k x i) 0 15)
def wotsSign (k : Seeds) (x : Adrs) (m : List Byte) : List Byte :=
  (wotsDigits m).zipIdx.flatMap fun (d, i) => chainFrom k.pub { x with b := i } (wotsSecret k x i) 0 d
def wotsFrom (pub : List Byte) (x : Adrs) (sig m : List Byte) : List Byte :=
  wotsRoot pub x ((wotsDigits m).zipIdx.flatMap fun (d, i) =>
    chainFrom pub { x with b := i } ((sig.drop (32 * i)).take 32) d (15 - d))
/-- Node `i` at height `z` of a tree whose leaves and inner addresses are given. -/
def nodeOf (pub : List Byte) (leaf : Nat → List Byte) (inner : Nat → Nat → Adrs) : Nat → Nat → List Byte
  | 0, i => leaf i
  | z + 1, i =>
    hashAt pub (inner (z + 1) i) (nodeOf pub leaf inner z (2 * i) ++ nodeOf pub leaf inner z (2 * i + 1))
/-- The root over a leaf by its path upwards. -/
def rootBy (pub : List Byte) (inner : Nat → Nat → Adrs) : List (List Byte) → Nat → Nat → List Byte → List Byte
  | [], _, _, node => node
  | s :: r, z, i, node =>
    rootBy pub inner r (z + 1) (i / 2)
      (hashAt pub (inner (z + 1) (i / 2)) (if i % 2 = 0 then node ++ s else s ++ node))
def pathOf (bs : List Byte) (n : Nat) : List (List Byte) := (List.range n).map fun i => (bs.drop (32 * i)).take 32
/-- A tree of the hypertree. -/
def xmssInner (layer tree z i : Nat) : Adrs := ⟨layer, tree, 2, 0, z, i⟩
def xmssNode (k : Seeds) (layer tree z i : Nat) : List Byte :=
  nodeOf k.pub (fun j => wotsPublic k ⟨layer, tree, 0, j, 0, 0⟩) (xmssInner layer tree) z i
def xmssSign (k : Seeds) (layer tree leaf : Nat) (m : List Byte) : List Byte :=
  wotsSign k ⟨layer, tree, 0, leaf, 0, 0⟩ m
    ++ (List.range 8).flatMap fun j => xmssNode k layer tree j ((leaf / 2 ^ j) ^^^ 1)
def xmssRoot (pub : List Byte) (layer tree leaf : Nat) (sig m : List Byte) : List Byte :=
  rootBy pub (xmssInner layer tree) (pathOf (sig.drop 2144) 8) 0 leaf (wotsFrom pub ⟨layer, tree, 0, leaf, 0, 0⟩ sig m)
/-- The signature by the trees from a layer up. -/
def treesSign (k : Seeds) : Nat → Nat → Nat → Nat → List Byte → List Byte
  | 0, _, _, _, _ => []
  | n + 1, layer, tree, leaf, m =>
    let sig := xmssSign k layer tree leaf m
    sig ++ treesSign k n (layer + 1) (tree / 256) (tree % 256) (xmssRoot k.pub layer tree leaf sig m)
def treesRoot (pub : List Byte) : Nat → Nat → Nat → Nat → List Byte → List Byte → List Byte
  | 0, _, _, _, _, m => m
  | n + 1, layer, tree, leaf, sig, m =>
    treesRoot pub n (layer + 1) (tree / 256) (tree % 256) (sig.drop 2400) (xmssRoot pub layer tree leaf (sig.take 2400) m)
/-- The few-time signature at a leaf of the lowest layer. -/
def forsInner (tree leaf z i : Nat) : Adrs := ⟨0, tree, 3, leaf, z, i⟩
def forsSecret (k : Seeds) (tree leaf i : Nat) : List Byte := hashAt k.pub ⟨0, tree, 6, leaf, 0, i⟩ k.sec
def forsNode (k : Seeds) (tree leaf z i : Nat) : List Byte :=
  nodeOf k.pub (fun j => hashAt k.pub (forsInner tree leaf 0 j) (forsSecret k tree leaf j)) (forsInner tree leaf) z i
def forsSign (k : Seeds) (tree leaf : Nat) (md : List Byte) : List Byte :=
  (digitsOf 14 22 md).zipIdx.flatMap fun (d, t) =>
    forsSecret k tree leaf (t * 2 ^ 14 + d)
      ++ (List.range 14).flatMap fun j => forsNode k tree leaf j (t * 2 ^ (14 - j) + ((d / 2 ^ j) ^^^ 1))
def forsRoot (pub : List Byte) (tree leaf : Nat) (sig md : List Byte) : List Byte :=
  hashAt pub ⟨0, tree, 4, leaf, 0, 0⟩ ((digitsOf 14 22 md).zipIdx.flatMap fun (d, t) =>
    let own := sig.drop (480 * t)
    let i := t * 2 ^ 14 + d
    rootBy pub (forsInner tree leaf) (pathOf (own.drop 32) 14) 0 i (hashAt pub (forsInner tree leaf 0 i) (own.take 32)))
/-- The message as it is signed, with an empty context. -/
def framed (m : List Byte) : List Byte := 0 :: 0 :: m
/-- The digest of a message: the few-time part, the tree and the leaf. -/
def digestOf (r pub root m : List Byte) : List Byte × Nat × Nat :=
  let h := shake256 (r ++ pub ++ root ++ framed m) 47
  (h.take 39, ofBig ((h.drop 39).take 7), ofBig (h.drop 46))
def slhRoot (k : Seeds) : List Byte := xmssNode k 7 0 8 0
/-- The public key of a key pair: its public seed and its root. -/
def slhPublic (k : Seeds) : List Byte := k.pub ++ slhRoot k
/-- A signature of 29,792 bytes; `rnd` is the signer's fresh randomness. -/
def slhSign (k : Seeds) (rnd m : List Byte) : List Byte :=
  let root := slhRoot k
  let r := shake256 (k.prf ++ rnd ++ framed m) 32
  let (md, tree, leaf) := digestOf r k.pub root m
  let fors := forsSign k tree leaf md
  r ++ fors ++ treesSign k 8 0 tree leaf (forsRoot k.pub tree leaf fors md)
/-- A signature fits a message and a public key. -/
def slhVerify (key m sig : List Byte) : Bool :=
  let pub := key.take 32
  let root := (key.drop 32).take 32
  let (md, tree, leaf) := digestOf (sig.take 32) pub root m
  key.length = 64 && sig.length = 29792
    && treesRoot pub 8 0 tree leaf (sig.drop 10592) (forsRoot pub tree leaf ((sig.drop 32).take 10560) md) = root
/-- The seeds of a key pair from 96 bytes: the secret one, that of the randomiser, and the public one. -/
def seedsOf (bs : List Byte) : Seeds := ⟨(bs.drop 64).take 32, bs.take 32, (bs.drop 32).take 32⟩

end Sys2Proof.Machine
end

