-- ==== Sys2Proof/Machine/Manage.lean ====
section
/-! DEFINITION. The management core: bring-up, imago entry, resets, temperature, attestation (16, R434 to R438; 17). -/

namespace Sys2Proof.Machine

/-! ### The configuration blob (17, R439, R440) -/

/-- `BLOB_WRITE`: the host writes `turn.bytes` at offset `turn.addr` of the flash. -/
def execBlobWrite (s : State) : Host.Outcome State Fault Refusal :=
  if s.turn.addr + s.turn.bytes.length ≤ 2 ^ 24 then
    .next { s with mgmt := { s.mgmt with flash := Memory.write s.mgmt.flash s.turn.addr s.turn.bytes } }
  else .next s
def flashField (f : Memory) (a n : Nat) : Nat := ofBytes (Memory.read f a n)
/-- Positions of failed bits. -/
def failedCount (m : BitVec 100) : Nat := ((List.range 100).filter fun i => m.getLsbD i).length
/-- The logical-to-physical table around a failed mask: unfailed positions in increasing order (16, R436). -/
def goodPositions (m : BitVec 100) : List Nat := ((List.range 100).filter fun i => !m.getLsbD i).take 96
/-- Entry `q` of the quire table: the table and the mask; none for one that breaks R436. A mask of more than four bits
puts the quire out of service. -/
def quireEntry (f : Memory) (qtab q : Nat) : Option (List Nat × BitVec 100) :=
  let at' := qtab + 128 * q
  let mask := flashField f (at' + 96) 13
  let m := BitVec.ofNat 100 mask
  let tab := (List.range 96).map fun i => flashField f (at' + i) 1
  if 4 < failedCount m then some (tab, m)
  else
    let rising := (tab.zip tab.tail).all fun x => decide (x.1 < x.2)
    let good := tab.all fun p => p < 100 && !m.getLsbD p
    if mask < 2 ^ 100 && flashField f (at' + 109) 19 = 0 && rising && good then some (tab, m) else none
/-- What bring-up takes from a blob. -/
structure Config0 where
  devid   : Nat
  extents : Nat × Nat × Nat
  blob    : Blob
  qtab    : List (Nat × List Nat)
  failed  : List (Nat × BitVec 100)
  seeds   : List Byte
  deriving DecidableEq, Repr
/-- The blob in flash, if every condition of R439, R440 and R448 holds. -/
def readBlob (f : Memory) : Option Config0 :=
  let u (a n : Nat) : Nat := flashField f a n
  let len := u 8 8
  let devid := u 0x10 4
  let ext := u 0x14 4
  let (x, y, z) := (ext % 64 + 1, ext / 64 % 64 + 1, ext / 4096 % 64 + 1)
  let key := Memory.read f 0x80 64
  let pubid := Memory.read f 0x40 64
  -- the identity key, expanded from the corrected start-up pattern (R448)
  let seeds := shake256 (Config.startPattern (Memory.read f (u 0x30 8) 2048)) 96
  let valid := devid % 64 < x && devid / 64 % 64 < y && devid / 4096 < z
  if u 0 4 ≠ 0x4C424D34 || u 0x38 8 ≠ 0 || 2 ^ 18 ≤ devid || 2 ^ 19 ≤ ext || 2 ^ 24 < len || len < 29792 then none
  else if shake256 key 32 ≠ Config.keyHash then none
  else if !slhVerify key (Memory.read f 0 (len - 29792)) (Memory.read f (len - 29792) 29792) then none
  else if !valid || slhPublic (seedsOf seeds) ≠ pubid then none
  else
    let es := (List.range 192).map fun q => (q, quireEntry f (u 0x18 8) q)
    if es.any fun e => e.2.isNone then none
    else
      let good := es.filterMap fun e => e.2.map fun x => (e.1, x)
      some {
        devid := devid
        extents := (x, y, z)
        blob := ⟨u 4 4, ext / 2 ^ 18 % 2 = 1, pubid, shake256 (Memory.read f 0 len) 32,
          (good.filter fun e => 4 < failedCount e.2.2).map fun e => e.1⟩
        qtab := good.map fun e => (e.1, e.2.1)
        failed := good.map fun e => (e.1, e.2.2)
        seeds := seeds }

/-! ### Bring-up (17, R441) -/

/-- Chrysalis service with a blob: quires 0 to 11 that are in service. -/
def State.chrysalis (c : Config0) : State :=
  let r := State.reset
  let quires := chrysalisQuires.filter fun q => !c.blob.outQ.contains q
  { r with
    devid := c.devid, extents := c.extents, service := quires
    bindings := [(0, ⟨.active, binding0 quires, none, []⟩)]
    mgmt := { r.mgmt with blob := c.blob, qtab := c.qtab, failed := c.failed, seeds := c.seeds } }
/-- No service: LSTAT.FAULT is set, the link is trained or not, and no later step runs. -/
def State.noService (up : Bool) : State :=
  let r := State.reset
  { r with service := [], bindings := [], link := { r.link with up := up }, mgmt := { r.mgmt with fault := true, stuck := true } }
/-- `POWER_GOOD`: steps 1 to 6; `turn.index` is the step that fails by itself, 0 for none. The flash, the events that
are still to come and the model's own counter stay. `gtime` has counted since step 4. -/
def execPowerGood (s : State) : Host.Outcome State Fault Refusal :=
  let k := s.turn.index
  let t := match readBlob s.mgmt.flash with
    | none => State.noService false
    | some c => if 1 ≤ k && k ≤ 3 then State.noService false else if k = 4 || k = 5 then State.noService true
                else { State.chrysalis c with gtime := Config.bootTime s.tick }
  .next { t with tick := s.tick, inputs := s.inputs, mgmt := { t.mgmt with flash := s.mgmt.flash } }
/-- The part stays in chrysalis: FAULT is set and no later step of bring-up runs (17, Table 17.2). -/
def State.stayBehind (s : State) : State := { s with mgmt := { s.mgmt with fault := true, stuck := true } }
/-- `DIES_READY`: step 7, or with `turn.flag` its failure; it comes once, and not after a step that failed. -/
def execDiesReady (s : State) : Host.Outcome State Fault Refusal :=
  .next (if s.mgmt.stuck || s.trained then s else if s.turn.flag then s.stayBehind else { s with trained := true })

/-! ### Imago entry (17, R444, R445) -/

/-- A barrier of die or device level is open on die 0. -/
def State.barsOpen (s : State) : Bool := s.episodes.any fun e => (e.level = .die && e.domain = 0) || e.level = .dev
/-- Actions 2 to 4: every quire in service enters service, and binding 0 is resized to them. -/
def State.enterService (s : State) : State :=
  let quires := (List.range 192).filter fun q => !s.mgmt.blob.outQ.contains q
  let fresh := quires.filter fun q => !s.service.contains q
  let old := (s.binding 0).rec'
  let t : State := { s with
    service := quires
    mgmt := { s.mgmt with walking := true, holdBars := false } }
  let t := (List.range 4).foldl (fun t d => t.beginDrain d (t.noc.gated.filter fun q => quireDie q = d)) t
  let t := (fresh.flatMap fun q => (List.range 16).map fun i => q * 96 + i).foldl
    (fun t c => t.onCore c fun k => { k with shares := k.shares.set 30 (.held 0) }) t
  t.setBinding 0 ⟨.resizing, binding0 quires, some old, old.count.map fun x => (x.1, 0)⟩
/-- The time that the lowest-numbered live neighbour counts now, by the last keepalive that came from it; none while no
neighbour has been heard (17, R445; log 94). -/
def State.neighbourTime (s : State) : Option Word :=
  let live := (s.ports.map s.neighbour).filterMap fun d =>
    if s.lost.contains d then none else (s.fabric.times.find? fun x => x.1 = d)
  let least (b : Option (Nat × Word × Word)) (x : Nat × Word × Word) : Option (Nat × Word × Word) :=
    match b with | some y => if x.1 < y.1 then some x else b | none => some x
  (live.foldl least none).map fun x => x.2.1 + (s.gtime - x.2.2)
/-- Alignment to a neighbour's time: a counter that is ahead holds until that time catches up, one behind steps once. -/
def State.alignTime (s : State) (other : Option Word) : State :=
  match other with
  | some t =>
    if s.gtime.ult t then { s with gtime := t }
    else { s with mgmt := { s.mgmt with gtHold := (s.gtime - t).toNat } }
  | none => s
/-- Actions 5 and 6: the fabric opens, and READY and IMAGO are set in one write. -/
def State.enterImago (s : State) : State :=
  let fab := s.mgmt.blob.fab
  let t := if fab then s.alignTime s.neighbourTime else s
  { t with
    fabctl := (t.fabctl &&& 0xFFFFF) ||| (if fab then 0x100000 else 0)
    imago := true
    mgmt := { t.mgmt with ready := true, walking := false } }
/-- `IMAGO_ENTRY`: step 8, or with `turn.flag` its failure before it has changed anything. It goes on as its waits end: for open
barriers, while arrivals that would open another are held back, for die 0 to drain, and for the walk of binding 0. It does not
begin, or go on, after a step that failed (17, R441), or once every core has been stopped (R447). -/
def execImagoEntry (s : State) : Host.Outcome State Fault Refusal :=
  if s.imago || !s.trained || s.mgmt.stuck then .next s
  else if s.turn.flag && !s.mgmt.walking && !s.mgmt.holdBars then .next s.stayBehind
  else if s.mgmt.walking then
    .next (if (s.binding 0).state = .active then s.enterImago else s.hold .imagoEntry)
  else if s.barsOpen then .next (({ s with mgmt := { s.mgmt with holdBars := true } } : State).hold .imagoEntry)
  else if !s.dieEmpty 0 then
    let t : State := { s with mgmt := { s.mgmt with holdBars := true } }
    .next ((t.beginDrain 0 (t.noc.gated.filter fun q => quireDie q = 0)).hold .imagoEntry)
  else .next (s.enterService.hold .imagoEntry)

/-! ### Resets (16, R437, R438; 17, R446) -/

/-- A core after a core reset. -/
def Core.restart (c : Core) (fresh : Core) : Core :=
  let ctx (x : Ctx) : Ctx :=
    { x.forget with hstat := 0, hcause := 0, resv := none, watch := none, woken := false, waiting := false, yields := false }
  { c with
    ctxs := c.ctxs.map ctx
    csr := { fresh.csr with table := c.csr.table }
    deque := fresh.deque, ready := [], inbox := [], overflow := none, sendq := [], next := none, recruit := none
    peerHand := none, unacked := []
    grammar := Grammar.reset, gwork := none, phase := none, rep := none, hold := []
    barPass := none, barWait := none, wake := false, called := false, run := .asleep }
/-- `CORE_RESET` of core `turn.core`; of a core that runs, and at thermal step 4, which only a power cycle ends, it is refused
(17, R446, R447). It is counted among the members of a level once no barrier of the level that is open now is (01, R23). -/
def execCoreReset (s : State) : Host.Outcome State Fault Refusal :=
  let n := s.turn.core
  if (s.core n).run ≠ .stopped || s.thermal.toList.contains 4 then .next { s with reports := s.reports ++ [(7, n)] }
  else
    let t := (List.finRange 11).foldl (fun t i => t.loseResv ⟨n, i⟩) (s.withdraw n)
    let left (e : Episode) : Episode := if domainOf n e.level = e.domain then { e with out := insertNat n e.out } else e
    .next (({ t with episodes := t.episodes.map left } : State).onCore n fun c => c.restart (Core.reset n))
/-- The scratchpads, kettle store, TLBs and worklist slots of a quire emptied. Its forwarded stores are performed first, and
the lines of its instances and of its home slices, which stand in shares of the scratchpads, are written back (log 50). -/
def State.zeroQuire (s : State) (q : Nat) : State :=
  let t := ((s.flush q).dropLines q fun _ => true).evictHome q fun _ => true
  let t := t.emptyTlbs q
  let t := (quireMembers q).foldl (fun t c => t.onCore c fun k => { k with spad := [], bad := [] }) t
  let t := t.onQuire q fun x => { x with kettles := [], kaux := [], badKettles := [], leases := [] }
  { t with wls := t.wls.map fun w =>
      (w.1, { w.2 with slots := w.2.slots.map fun x => if x.1 = q then (x.1, { x.2 with entries := [], spill := [] }) else x }) }
/-- `QUIRE_RESET` of quire `turn.unit`, once it is quiet. -/
def execQuireReset (s : State) : Host.Outcome State Fault Refusal :=
  let q := s.turn.unit
  if s.behind .quireReset || !s.quiet q then .next (s.hold .quireReset)
  else
    let m := mapGet s.mgmt.failed q 0
    let t := s.zeroQuire q
    let out := 4 < failedCount m
    .next { t with
      service := if out then t.service.filter fun x => x ≠ q else t.service
      mgmt := { t.mgmt with
        qtab := if out then t.mgmt.qtab else mapPut t.mgmt.qtab q (goodPositions m)
        errWords := t.mgmt.errWords.filter fun x => quireOf x.1 ≠ q
        blob := { t.mgmt.blob with outQ := if out then insertNat q t.mgmt.blob.outQ else t.mgmt.blob.outQ } } }

/-! ### Temperature, power and errors (16, R434; 17, R447) -/

/-- The threshold of a step: temperature in °C, and power in W above which it holds. -/
def thermalRow (k : Nat) : Nat × Option Nat :=
  match k with | 1 => (85, some 2000) | 2 => (92, some 2100) | 3 => (98, some 2200) | _ => (105, none)
/-- The condition of a row holds: the temperature's, or that of the mean of the power readings. -/
def rowHolds (k temp : Nat) (power : List Nat) : Bool :=
  (thermalRow k).1 ≤ temp ||
    match (thermalRow k).2 with | some p => decide (p * power.length < power.foldl (· + ·) 0) | none => false
/-- The highest row whose condition holds. -/
def rowNow (temp : Nat) (power : List Nat) : Nat := ([4, 3, 2, 1].find? fun k => rowHolds k temp power).getD 0
/-- A die's next step and how many readings it has been below its step. -/
def nextStep (step cool temp : Nat) (power : List Nat) : Nat × Nat :=
  let now := rowNow temp power
  if step = 4 then (4, 0)
  else if step < now then (now, 0)
  else if step = 0 || rowHolds step temp power || (thermalRow step).1 < temp + 5 then (step, 0)
  else if cool + 1 < 100 then (step, cool + 1)
  else (step - 1, 0)
/-- `THERMAL_SAMPLE`, once a millisecond: `turn.list` holds the hottest sensor of each die in °C and then the module's power in
W, which goes into the mean of the last 10 ms. -/
def execThermalSample (s : State) : Host.Outcome State Fault Refusal :=
  let power := (s.turn.list.getD 4 0 :: s.mgmt.powers).take 10
  let next (d : Fin 4) : Nat × Nat := nextStep s.thermal[d] s.mgmt.cool[d] (s.turn.list.getD d.val 0) power
  let t : State := { s with
    thermal := Vector.ofFn fun d => (next d).1
    mgmt := { s.mgmt with cool := Vector.ofFn fun d => (next d).2, powers := power } }
  let budget (x : Quire) (q : Nat) : Quire :=
    let b := Nat.min x.govAsked (budgetCeiling (t.thermal.toList.getD (quireDie q) 0))
    { x with govNext := (x.govNext &&& 0x1E00) ||| BitVec.ofNat 64 b }
  let u := (List.range 192).foldl (fun u q => u.onQuire q fun x => budget x q) t
  .next (if u.thermal.toList.contains 4 then u.stopAll else u)
/-- `HBM_PATROL`: `turn.index` errors of bank `turn.unit` of a memory have been corrected, and the management core counts
them: of HBM stack `turn.addr`, of the kettle store of quire `turn.addr` where `turn.list` is not empty, or with `turn.flag` of
core `turn.core`'s SRAM, where the errors came within a second: 64 of them mark the core as failing (16, R437). -/
def execHbmPatrol (s : State) : Host.Outcome State Fault Refusal :=
  let ram : Ram := if s.turn.flag then .core s.turn.core else if s.turn.list.isEmpty then .stack s.turn.addr else .kettles s.turn.addr
  let k := (ram, s.turn.unit)
  let old := ((s.mgmt.corrected.find? fun x => x.1 = k).map fun x => x.2).getD 0
  let t : State := { s with mgmt := { s.mgmt with
    corrected := (k, old + s.turn.index) :: s.mgmt.corrected.filter fun x => x.1 ≠ k } }
  .next (if s.turn.flag && 64 ≤ s.turn.index then t.failing s.turn.core else t)

/-! ### Attestation (17, R449) -/

/-- The report of Table 17.4. -/
def State.attestation (s : State) (nonce : List Byte) : List Byte :=
  let b := s.mgmt.blob
  (nonce ++ List.replicate 32 0).take 32 ++ (b.hash ++ List.replicate 32 0).take 32 ++ toBytes 4 b.version
    ++ toBytes 4 s.devid ++ toBytes 8 s.lstat.toNat ++ toBytes 8 s.gtime.toNat
    ++ (b.pubid ++ List.replicate 64 0).take 64 ++ List.replicate 40 0
/-- `ATTESTATION_REQUEST` with nonce `turn.bytes`: the report and its signature under the identity key (17, R448, R449). -/
def execAttestationRequest (s : State) : Host.Outcome State Fault Refusal :=
  let r := s.attestation s.turn.bytes
  let sig := slhSign (seedsOf s.mgmt.seeds) (bigBytes 32 (Config.signRandom s.tick).toNat) r
  .next { s with tick := s.tick + 1, mgmt := { s.mgmt with smbus := s.mgmt.smbus ++ [r ++ sig] } }

/-! ### Words that are no instruction (02, R55 to R57) -/

/-- `ILLEGAL_ENCODING`: `tval` is the address of the word at which decoding failed. -/
def execIllegalEncoding (s : State) : Host.Outcome State Fault Refusal := M.run illegal s

end Sys2Proof.Machine
end

