-- ==== Sys2Proof/Machine/Agents.lean ====
section
/-! DEFINITION. The agents of the device: what each may do next, and how time goes on (11, R291; 13, R342; log 3, log 4). -/

namespace Sys2Proof.Machine

/-- Something that the device may do in a step. -/
inductive Action where
  /-- A step of the part that comes about by itself. -/
  | event (i : Instr) (t : Turn)
  /-- A context issues. -/
  | issue (a : Agent)
  /-- The sequencer of a core issues (09, R257). -/
  | reissue (core : Nat)
  /-- The oldest event from outside is performed. -/
  | input
  /-- A core's fetch unit takes in a word (02, R61). -/
  | ahead (core : Nat)
  /-- A held event is tried again. -/
  | retry (k : Nat)
  /-- A packet of the on-die networks moves on (15, R385, R386). -/
  | hop (t : Transit)
  /-- The arrivals at the system barrier rise (15, R405). -/
  | rise
  /-- A die that drains, and whose networks are empty, goes on with its new routes (15, R391). -/
  | drained (die : Nat)
  deriving DecidableEq, Repr

/-- An action where its condition holds. -/
def actIf (c : Bool) (a : Action) : List Action := if c then [a] else []
/-- A step of the part on core `n`. -/
def coreEvent (c : Bool) (i : Instr) (n : Nat) : List Action := actIf c (.event i { core := n })
/-- The step that takes a boundary event (16, R428). -/
def Boundary.step : Boundary → Instr
  | .imprecise => .impreciseErrorEvent | .sequence => .repSequenceFault | .overrun => .phaseOverrun
  | .handle => .badDequeHandle | .inbox => .inboxOverflow | .breakpoint => .breakpoint | .preempt => .preemptionSave
/-- What the contexts of a core may do. -/
def State.contextActions (s : State) (n : Nat) : List Action :=
  (List.finRange 11).flatMap fun x =>
    let a : Agent := ⟨n, x⟩
    let k := s.context a
    let on (c : Bool) (i : Instr) : List Action := actIf c (.event i { core := n, ctx := x })
    actIf (s.hasTurn n x) (.issue a)
      ++ on (k.queued.isSome && (s.joinQueue a).isSome) .reservationRequest
      ++ on (s.amoWrite a).isSome .reservationWriteBack
      ++ on (s.wrsWoken a) .wrsWake ++ on k.waitWoken .waitaddrRead
/-- What a core may do between and beside its instructions. -/
def State.coreActions (s : State) (n : Nat) : List Action :=
  let c := s.core n
  let free := c.recruit.isNone && !s.restoreReady n
  (match s.boundary n with | some b => coreEvent true b.step n | none => [])
    ++ s.contextActions n
    ++ actIf (c.run == .task) (.ahead n)
    ++ actIf (c.repeating && c.reissued.isSome) (.reissue n)
    ++ coreEvent (c.repeating && c.reissued.isNone) .repReissue n
    ++ coreEvent (s.canDrain n) .storeBufferDrain n
    ++ actIf (c.sendq.any fun m => !m.reply) (.event .messageDepart { core := n })
    ++ actIf (c.sendq.any fun m => m.reply) (.event .messageDepart { core := n, flag := true })
    ++ coreEvent (c.run == .seeking && free) .nextWorkSelect n
    ++ coreEvent (c.run == .probing && free) .stealProbe n
    ++ coreEvent (c.run == .asleep && c.wake && free) .coreWake n
    ++ coreEvent (c.recruit.isSome && c.run != .task) .recruitStart n
    ++ coreEvent (s.restoreReady n) .preemptionRestore n
    ++ coreEvent (s.holdOver n) .preemptionHoldTimeout n
    ++ coreEvent (s.matrixStart n).isSome .matrixOperationStart n
    ++ coreEvent (s.matrixDone n).isSome .matrixOperationComplete n
    ++ coreEvent (s.expirePhase n).isSome .phaseLengthExpiry n
    ++ coreEvent (s.accept n).isSome .copyCommandAccept n
    ++ coreEvent (s.complete n).isSome .copyCompletionWrite n
/-- What the engines and the fabric of a quire may do. -/
def State.quireActions (s : State) (q : Nat) : List Action :=
  let x := s.quire q
  actIf (s.latch q).isSome (.event .receiveRegisterLatch { unit := q })
    ++ actIf (s.windowDue q) (.event .governorWindow { unit := q })
    ++ actIf (s.canForward q) (.event .homeWtStore { unit := q })
    ++ actIf (s.exchange q).isSome (.event .mrectCheckExchange { unit := q })
    ++ x.cmds.flatMap fun c =>
      actIf c.held (.event .combineHoldExpiry { unit := q, index := c.seq })
        ++ actIf (s.moveLine q c.seq).isSome (.event .copyLineMove { unit := q, index := c.seq })
/-- What the networks, banks, worklists, bindings and grammar units may do. -/
def State.partActions (s : State) : List Action :=
  (s.kops.zipIdx.flatMap fun (k, i) => actIf (s.kopReady i k) (.event .kettleOperation { index := i }))
    ++ (s.net.zipIdx.flatMap fun (m, i) =>
      actIf (s.firstInNet i m && (s.core m.2.dest).accepts m.2) (.event .messageArrival { index := i }))
    ++ (s.noc.fills.zipIdx.flatMap fun (f, i) => actIf (s.arrived f.way) (.event .dataReplyArrival { index := i }))
    ++ (s.transits.flatMap fun t => actIf (s.nextMove t).isSome (.hop t))
    ++ ((List.range 4).flatMap fun d => actIf (s.drainEnd d).isSome (.drained d))
    ++ actIf s.riseDue .rise
    ++ (s.tree.flatMap fun m => (List.range (m.hi - m.lo)).flatMap fun i =>
      coreEvent (!(s.core (m.lo + i)).undelivered) .launchTreeDelivery (m.lo + i))
    ++ (s.granules.zipIdx.flatMap fun (g, i) =>
      actIf (s.grantHead g).isSome (.event .reservationGrant { index := i })
        ++ actIf (s.revoke g).isSome (.event .reservationRevoke { index := i }))
    ++ (s.episodes.zipIdx.flatMap fun (e, i) => actIf (s.complete? e) (.event .barrierRelease { index := i }))
    ++ (s.wls.flatMap fun w => (s.lowsDue w.1).map fun q => .event .lowLoweringBroadcast { unit := w.1, index := q })
    ++ (s.bindings.flatMap fun b =>
      (match b.2.old with
        | some o => o.count.flatMap fun c =>
            actIf (s.walkerStep b.1 c.1).isSome (.event .resizeSetMove { unit := b.1, index := c.1 })
        | none => [])
        ++ actIf (s.walkEnd b.1).isSome (.event .resizeWalkEnd { unit := b.1 }))
    ++ ((List.finRange 4).flatMap fun d => actIf (s.grammarNext d).isSome (.event .grammarUnitServe { unit := d.val }))
/-- Events from outside: the oldest that has come, and of those that are held the ones that nothing before them holds up. -/
def State.outsideActions (s : State) : List Action :=
  actIf (!s.inputs.isEmpty) .input
    ++ s.held.zipIdx.flatMap fun (h, i) => actIf (!((s.held.take i).any fun y => holdsUp y.1 h.1)) (.retry i)
/-- Everything that the device may do next. Cores and quires that are not listed are as at reset, and do nothing. -/
def State.enabled (s : State) : List Action :=
  s.outsideActions ++ s.partActions ++ (s.cores.flatMap fun c => s.coreActions c.1)
    ++ s.quires.flatMap fun q => s.quireActions q.1
/-- What comes next: the context that is chosen, if it may issue; else one of what is enabled (log 3). -/
def State.nextAction (s : State) : Option Action :=
  let free : Option Action := match s.enabled with
    | [] => none
    | [a] => some a
    | l => l[Config.pick s.tick % l.length]?
  match s.chosen with
  | some a => if s.mayIssue a.core a.ctx then some (.issue a) else free
  | none => free
/-- Time goes on (01, Table 1.4; 17, R445). -/
def State.timeOn (s : State) : State :=
  let d := Config.gtimeStep s.tick
  let h := Nat.min d s.mgmt.gtHold
  { s with
    tick := s.tick + 1
    grain := Config.grain s.tick
    gtime := s.gtime + BitVec.ofNat 64 (d - h)
    mgmt := { s.mgmt with gtHold := s.mgmt.gtHold - h } }
/-- A step of the part, as opposed to an instruction of a program: it has no encoding. -/
def isStep (i : Instr) : Bool := (encodeChain i).isNone

end Sys2Proof.Machine
end

