-- ==== Sys2Proof/Machine/Control.lean ====
section
/-! DEFINITION. Page 0: branches and jumps (05, R117 to R120). -/

namespace Sys2Proof.Machine

/-- A target of a half-word offset from the instruction's first word (05, R117, R118). -/
def target (pc : Word) (off : Word) : Word := pc + (off <<< 1)
/-- `br.cc`: taken when the relation holds. -/
def branch (p : Word → Word → Bool) (a b : Reg) (k : BitVec 11) : M Unit := do
  if p (← readW a) (← readW b) then modify fun s => s.setNext (target s.issue.pc (k.signExtend 64))
/-- `BR_EQ` (R117). Branch when wa = wb. -/
def execBrEq (a b : Reg) (k : BitVec 11) (s : State) := M.run (branch (fun x y => x == y) a b k) s
/-- `BR_NE` (R117). Branch when wa differs from wb. -/
def execBrNe (a b : Reg) (k : BitVec 11) (s : State) := M.run (branch (fun x y => x != y) a b k) s
/-- `BR_LT` (R117). Branch when wa < wb signed. -/
def execBrLt (a b : Reg) (k : BitVec 11) (s : State) := M.run (branch (fun x y => x.slt y) a b k) s
/-- `BR_GE` (R117). Branch when wa >= wb signed. -/
def execBrGe (a b : Reg) (k : BitVec 11) (s : State) := M.run (branch (fun x y => !x.slt y) a b k) s
/-- `BR_LTN` (R117). Branch when wa < wb unsigned. -/
def execBrLtn (a b : Reg) (k : BitVec 11) (s : State) := M.run (branch (fun x y => x.ult y) a b k) s
/-- `BR_GEN` (R117). Branch when wa >= wb unsigned. -/
def execBrGen (a b : Reg) (k : BitVec 11) (s : State) := M.run (branch (fun x y => !x.ult y) a b k) s
/-- The link register w14 (05, R118). -/
def linkReg : Reg := 14
/-- `JMP` (R118). Jump by a signed half-word offset. -/
def execJmp (k : BitVec 21) (s : State) := M.run (modify fun s => s.setNext (target s.issue.pc (k.signExtend 64))) s
/-- The link is the address of the next instruction (05, R118). -/
def execJal (k : BitVec 21) (s : State) := M.run (modify fun s =>
  (s.setW linkReg s.issue.next).setNext (target s.issue.pc (k.signExtend 64))) s
/-- A jump through a register: an odd target raises trap 0x03 in the jump (02, R58). -/
def jumpTo (a : Word) : M Unit := do
  need (!a.getLsbD 0) (.trap 0x03 a)
  modify fun s => s.setNext a
/-- `JR` (R119). Jump to the address in wa. -/
def execJr (a : Reg) (s : State) := M.run (do jumpTo (← readW a)) s
/-- `RET` (R119). Jump to w14. -/
def execRet (s : State) := M.run (do jumpTo (← readW linkReg)) s

end Sys2Proof.Machine
end

