-- ==== Sys2Proof/Machine/VectorMem.lean ====
section
/-! DEFINITION. Page 2: vector loads and stores, gathers and scatters (08, R214 to R218, R220). -/

namespace Sys2Proof.Machine

/-! ### Parts of a contiguous access (08, R217) -/

/-- Where byte `j` of an access lies: the first byte of its 64-byte line within the access. -/
def partStart (va : Word) (j : Nat) : Nat :=
  let first := 64 - va.toNat % 64
  if j < first then 0 else first + (j - first) / 64 * 64
/-- Runs of consecutive bytes for which the condition holds, cut at the parts: start and length. -/
def runsFrom (va : Word) (p : Nat → Bool) : Nat → Nat → Option (Nat × Nat) → List (Nat × Nat)
  | 0, _, run => run.toList
  | n + 1, j, run =>
    match p j, run with
    | false, none => runsFrom va p n (j + 1) none
    | false, some r => r :: runsFrom va p n (j + 1) none
    | true, none => runsFrom va p n (j + 1) (some (j, 1))
    | true, some (a, k) =>
      if partStart va j = partStart va a then runsFrom va p n (j + 1) (some (a, k + 1))
      else (a, k) :: runsFrom va p n (j + 1) (some (j, 1))
/-- Byte `j` of a raw access belongs to an active lane. -/
def byteActive (on : List Bool) (w j : Nat) : Bool :=
  if w = 4 then on.getD (2 * j) false || on.getD (2 * j + 1) false else on.getD (8 * j / w) false
/-- A phase bars the access when an active part lies outside the own scratchpad (08, R220). -/
def phaseParts (vas : List Word) : M Unit := do
  let s ← get
  if s.csr.ph && vas.any fun a => !phaseAllows s a then trap 0x07 0
/-- The raw checks of one part whose first byte is `va`. Alignment is asked of win0 and of translated memory; a raw
access through another window is trap 0x04 (08, R214, R215). -/
def checkRawPart (aligned : Bool) (va : Word) (n : Nat) (kind : Access) : M Place := do
  let r ← liftE (checkRegion (← get) va va)
  match r with
  | .loc win slot _ => do
    if win ≠ 0 then trap 0x04 va
    need aligned (.trap 0x03 va)
    if slot = 127 then trap 0x04 va
    checkPart r va n kind
  | _ => do
    need aligned (.trap 0x03 va)
    checkPart r va n kind
/-- The checks of the active runs, part by part: each run's place, its part's first byte, its start and its length. -/
def checkRuns (va : Word) (kind : Access) : List (Nat × Nat) → Option (Nat × Place) → M (List (Place × Word × Nat × Nat))
  | [], _ => return []
  | (j, n) :: r, seen => do
    let st := partStart va j
    let head := va + BitVec.ofNat 64 st
    let p ← match seen with
      | some (k, p) => if k = st then pure p else checkRawPart (va.toNat % 128 = 0) head 64 kind
      | none => checkRawPart (va.toNat % 128 = 0) head 64 kind
    return (p.add (j - st), head, j, n) :: (← checkRuns va kind r (some (st, p)))
/-- Bytes of runs put back at their places in the access. -/
def spreadRuns : List (Nat × Nat) → List Byte → List (Nat × Byte)
  | [], _ => []
  | (j, n) :: r, bs => ((bs.take n).zipIdx.map fun (b, i) => (j + i, b)) ++ spreadRuns r (bs.drop n)

/-! ### Elements through a decoding window -/

/-- One element that a vector access reads through a window: the part that each byte of its code belongs to, and its
number. -/
structure ElemRead where
  part : Nat → Word
  elem : Int
/-- The part in which a failing check stands. -/
def Exc.part : Exc → Word | .trap _ v => v | .upcall _ v => v | .wait _ => 0
/-- The first failing check of the first failing 64-byte line of a contiguous access (08, R217). -/
def firstOfLines (faults : List (List Exc)) : Option Exc :=
  match faults.flatten with
  | [] => none
  | e :: r => lowest (e :: r.filter fun f => f.part = e.part)
/-- The first failing check of the first failing lane of a gather (08, R217). -/
def firstOfLanes (faults : List (List Exc)) : Option Exc :=
  (faults.find? fun f => !f.isEmpty).bind lowest
/-- The values of elements of a window, rounded to FP32 with their flags (04, R94): all of a contiguous access read at
one point, those of a gather lane by lane (08, R217, R218). -/
def readElems (gather : Bool) (core : Nat) (x : Win) (k : Codes) (es : List (Option ElemRead)) : M (List (Option Nat)) := do
  let s ← get
  let faults := (es.filterMap id).map fun e => elemFaults s core x k e.elem e.part
  match if gather then firstOfLanes faults else firstOfLines faults with
  | some e => elemFails core x k (es.filterMap fun y => y.map fun z => z.elem) e
  | none => do
    let at' := (es.filterMap id).map fun e => (e.part 0, elemAt core x k e.elem.toNat)
    let vs ← if gather then readInOrder x k at' else readAll x k at'
    let out := vs.map fun (v, sc) => scaledFp32 v sc
    modify fun s => s.raise (unionFlags (out.map fun y => y.2))
    let put (acc : List (Option Nat) × List (Nat × Flags)) (c : Option ElemRead) : List (Option Nat) × List (Nat × Flags) :=
      match c with
      | some _ => (acc.1 ++ [some (acc.2.headD (0, 0)).1], acc.2.drop 1)
      | none => (acc.1 ++ [none], acc.2)
    return (es.foldl put ([], out)).1

/-! ### vld and vst (08, R214, R215) -/

def vectorAddr (a : Reg) (off : BitVec 11) : M Word := do
  return (← readW a) + BitVec.ofInt 64 (off.toInt * 128)
/-- The window of a local address. -/
def windowOf (va : Word) : Nat := match regionOf va with | .loc win _ _ => win | _ => 0
/-- `vld` through win1 to win5: FP32 values of 32 elements (08, R215). -/
def loadWindow (t : IntTy) (d : VReg) (va : Word) (win slot off : Nat) (on : List Bool) : M Unit := do
  let s ← get
  let at' (w i : Nat) : Word := va + BitVec.ofNat 64 (partStart va (i * w / 8))
  let first := on.findIdx id
  match s.csr.winCodes win with
  | none => trap 0x04 va
  | some k => do
    let x := s.csr.window win
    let gap : Int := ((off : Int) - x.ebase) * 8
    let tv := at' k.width first
    if k.valid then need (gap % k.width = 0 && gap / k.width % 16 = 0) (.trap 0x03 tv)
    need (t = .i32 || t = .n32) (.trap 0x04 tv)
    let (core, _, _) ← liftE (checkDecode s win slot tv)
    let part (i j : Nat) : Word := va + BitVec.ofNat 64 (partStart va (i * k.width / 8 + j))
    let es := on.zipIdx.map fun (a, i) => if a then some (⟨part i, gap / k.width + i⟩ : ElemRead) else none
    let out ← readElems false core x k es
    writeV d (mergeLanes (s.v d) 32 out)
/-- A span cut at every double, each single-copy atomic on its own (08, R218). -/
def doubleSpans (x : Span) : List Span :=
  (lineBases 8 x.1.offset x.2.2).map fun a =>
    let (o, bs) := cutRun x.1.offset (List.replicate x.2.2 ()) a 8
    (x.1.add (o - x.1.offset), x.2.1, bs.length)
/-- `vld` of raw bytes: the active lanes of 128 bytes. -/
def loadRaw (t : IntTy) (d : VReg) (va : Word) (on : List Bool) (runs : List (Nat × Nat)) : M Unit := do
  let ps ← checkRuns va .load runs none
  let spans : List Span := ps.map fun x => (x.1, x.2.1, x.2.2.2)
  let whole := (← get).seenWhole (spans.map fun x => ⟨x.1, x.2.1, .dflt, []⟩)
  let bs ← if whole || spans.any fun x => (remoteDev x.1).isSome then loadSpans 0 spans .dflt
    else List.flatten <$> loadPieces 0 .dflt ((spans.flatMap doubleSpans).map fun x => [x])
  let all := spreadRuns runs bs
  let whole := ofLanes 8 ((List.range 128).map fun j => ((all.find? fun x => x.1 = j).map fun x => x.2.toNat).getD 0)
  let old ← readV d
  writeV d (mergeLanes old t.lane (on.zipIdx.map fun (x, i) => if x then some (laneU t whole i) else none))
/-- `VLD` (R214). Contiguous vector load of active lanes. -/
def execVld (t : IntTy) (v : VReg) (a : Reg) (off : BitVec 11) (m : MReg) (s : State) := M.run (do
  controlOnly
  let va ← vectorAddr a off
  let s ← get
  let on := activeLanes s m t.lane
  if on.all fun x => !x then pure ()
  else
    let win := windowOf va
    let runs := runsFrom va (byteActive on t.lane) 128 0 none
    match regionOf va with
    | .loc _ slot o =>
      if 1 ≤ win ∧ win ≤ 5 then do
        -- the active parts are the codes' lines in the window's own core
        phaseParts [va]
        loadWindow t v va win slot o on
      else do
        phaseParts (runs.map fun r => va + BitVec.ofNat 64 r.1)
        loadRaw t v va on runs
    | _ => do
      phaseParts (runs.map fun r => va + BitVec.ofNat 64 r.1)
      loadRaw t v va on runs) s
/-- One byte of a store: a nibble of an inactive 4-bit lane is not written (08, R214). -/
def storeLaneByte (on : List Bool) (t : IntTy) (x : VecReg) (j : Nat) : StoreByte :=
  let w := t.lane
  let low := w ≠ 4 || on.getD (2 * j) false
  let high := w ≠ 4 || on.getD (2 * j + 1) false
  ⟨BitVec.ofNat 8 (if t.bits = 6 then laneU t x j else lane x 8 j), (if low then 0x0F else 0) ||| (if high then 0xF0 else 0)⟩
/-- `VST` (R214). Contiguous vector store of active lanes. -/
def execVst (t : IntTy) (v : VReg) (a : Reg) (off : BitVec 11) (m : MReg) (s : State) := M.run (do
  controlOnly
  let va ← vectorAddr a off
  let s ← get
  let on := activeLanes s m t.lane
  if on.all fun x => !x then pure ()
  else
    let runs := runsFrom va (byteActive on t.lane) 128 0 none
    phaseParts (runs.map fun r => va + BitVec.ofNat 64 r.1)
    let ps ← checkRuns va .store runs none
    let x := s.v v
    let parts : List StorePart := ps.map fun (p, _, j, n) =>
      ⟨p, va + BitVec.ofNat 64 j, .dflt, (List.range n).map fun i => storeLaneByte on t x (j + i)⟩
    -- beyond the quire and in home bindings each aligned double stands alone (R218)
    if (← get).seenWhole parts then storeAt parts else storeParts (parts.flatMap StorePart.doubles)) s

/-! ### Gather and scatter (08, R216 to R218) -/

/-- The raw addresses of the active lanes in lane order. -/
def indexedLanes (t : IntTy) (va : Word) (x : VecReg) (on : List Bool) : List (Nat × Word) :=
  on.zipIdx.filterMap fun (y, i) => if y then some (i, va + BitVec.ofInt 64 (laneI t x i * (t.lane / 8))) else none
/-- The raw checks of each active lane, in increasing lane order: all of Table 5.7, the rows of the target included. A
store to another device is asked about by a write of no bits, before any lane has an effect (08, R217). -/
def checkLanes (n : Nat) (kind : Access) : Nat → List (Nat × Word) → M (List (Nat × Word × Place))
  | _, [] => return []
  | k, (i, va) :: r => do
    let p ← checkRawPart (va.toNat % n = 0) va n kind
    match p, kind with
    | .remote dev pa, .store =>
      if ((← get).myCtx.piece k).isNone then
        let _ ← remoteAsk k dev [(va, pa, .write (List.replicate n (0, 0)))]
        modify fun s => s.onMyCtx fun c => { c with got := (k, []) :: c.got }
    | _, _ => pure ()
    return (i, va, p) :: (← checkLanes n kind (k + 1) r)
/-- The lanes of a gather, each checked and then read by itself, in lane order (08, R217, R218). Where `grain` says so
another agent comes in after a lane. -/
def gatherLanes (n : Nat) : Nat → List (Nat × Word) → M (List (Nat × Nat))
  | _, [] => return []
  | k, (i, va) :: r => do
    if ((← get).myCtx.piece k).isNone then
      let p ← checkRawPart (va.toNat % n = 0) va n .load
      readPiece .dflt k [(p, va, n)]
      if (← get).grain.isSome && !r.isEmpty then holdHere
    let bs := ((← get).myCtx.piece k).getD []
    return (i, ofBytes bs) :: (← gatherLanes n (k + 1) r)
/-- A gather of raw bytes. -/
def gatherRaw (t : IntTy) (d : VReg) (on : List Bool) (raw : List (Nat × Word)) : M Unit := do
  phaseParts (raw.map fun y => y.2)
  let got ← gatherLanes (t.lane / 8) 0 raw
  let old ← readV d
  writeV d (mergeLanes old t.lane (on.zipIdx.map fun (_, i) =>
    (got.find? fun g => g.1 = i).map fun g => g.2 % 2 ^ t.bits))
/-- `VLDX` (R216). Gather load by an index vector. -/
def execVldx (t : IntTy) (v : VReg) (a : Reg) (x : VReg) (m : MReg) (s : State) := M.run (do
  controlOnly
  if t.lane = 4 then illegal
  let va ← readW a
  let s ← get
  let on := activeLanes s m t.lane
  let idx := s.v x
  if on.all fun y => !y then pure ()
  else
    let win := windowOf va
    let raw := indexedLanes t va idx on
    match regionOf va with
    | .loc _ slot off =>
      if 1 ≤ win ∧ win ≤ 5 then
        phaseParts [va]
        match s.csr.winCodes win with
        | none => trap 0x04 va
        | some k => do
          let w := s.csr.window win
          let gap : Int := ((off : Int) - w.ebase) * 8
          let at' (i : Nat) : Word := va + BitVec.ofInt 64 ((laneI t idx i * k.width).fdiv 8)
          let tv := at' (on.findIdx id)
          if k.valid then need (gap % k.width = 0) (.trap 0x03 tv)
          need (t = .i32 || t = .n32) (.trap 0x04 tv)
          let (core, _, _) ← liftE (checkDecode s win slot tv)
          let es := on.zipIdx.map fun (y, i) =>
            if y then some (⟨fun _ => at' i, gap / k.width + laneI t idx i⟩ : ElemRead) else none
          let out ← readElems true core w k es
          writeV v (mergeLanes (s.v v) 32 out)
      else gatherRaw t v on raw
    | _ => gatherRaw t v on raw) s
/-- The stores of a scatter; one to another device waits for its acknowledgement (08, R216, R218; 05, R126). -/
def storeLanes : Nat → List (Word × Place × List Byte) → M Unit
  | _, [] => pure ()
  | k, (va, p, bs) :: r => do
    if ((← get).myCtx.piece k).isNone then
      match p with
      | .remote dev pa => do
        let _ ← remoteAsk k dev [(va, pa, .write (bs.map fun b => (b, 0xFF)))]
      | q => storeAt [⟨q, va, .dflt, storeBytes bs⟩]
      modify fun s => s.onMyCtx fun c => { c with got := (k, []) :: c.got }
    storeLanes (k + 1) r
/-- `VSTX` (R216). Scatter store by an index vector. -/
def execVstx (t : IntTy) (v : VReg) (a : Reg) (x : VReg) (m : MReg) (s : State) := M.run (do
  controlOnly
  if t.lane = 4 then illegal
  let va ← readW a
  let s ← get
  let on := activeLanes s m t.lane
  if on.all fun y => !y then pure ()
  else
    let raw := indexedLanes t va (s.v x) on
    phaseParts (raw.map fun y => y.2)
    let n := t.lane / 8
    let ps ← checkLanes n .store 0 raw
    let data := ps.map fun (i, va, p) => (va, p, toBytes n (laneU t (s.v v) i))
    let away (x : Word × Place × List Byte) : Bool := (remoteDev x.2.1).isSome
    storeLanes 1000 (data.filter away ++ data.filter fun x => !away x)) s

end Sys2Proof.Machine
end

