-- ==== Sys2Proof/Machine/Dispatch.lean ====
section
/-! DEFINITION. One arm for each row of the opcode table. -/

namespace Sys2Proof.Machine

/-- The meaning of every instruction and every step of the part. -/
def exec (i : Instr) (s : State) : Host.Outcome State Fault Refusal :=
  match i with
  | .nop => Sys2Proof.Machine.execNop s
  | .add d a b => Sys2Proof.Machine.execAdd d a b s
  | .sub d a b => Sys2Proof.Machine.execSub d a b s
  | .mul d a b => Sys2Proof.Machine.execMul d a b s
  | .mulh d a b => Sys2Proof.Machine.execMulh d a b s
  | .mulhn d a b => Sys2Proof.Machine.execMulhn d a b s
  | .div d a b => Sys2Proof.Machine.execDiv d a b s
  | .divn d a b => Sys2Proof.Machine.execDivn d a b s
  | .rem d a b => Sys2Proof.Machine.execRem d a b s
  | .remn d a b => Sys2Proof.Machine.execRemn d a b s
  | .and d a b => Sys2Proof.Machine.execAnd d a b s
  | .or d a b => Sys2Proof.Machine.execOr d a b s
  | .xor d a b => Sys2Proof.Machine.execXor d a b s
  | .andn d a b => Sys2Proof.Machine.execAndn d a b s
  | .shl d a b => Sys2Proof.Machine.execShl d a b s
  | .shr d a b => Sys2Proof.Machine.execShr d a b s
  | .sra d a b => Sys2Proof.Machine.execSra d a b s
  | .rotl d a b => Sys2Proof.Machine.execRotl d a b s
  | .min d a b => Sys2Proof.Machine.execMin d a b s
  | .max d a b => Sys2Proof.Machine.execMax d a b s
  | .minn d a b => Sys2Proof.Machine.execMinn d a b s
  | .maxn d a b => Sys2Proof.Machine.execMaxn d a b s
  | .slt d a b => Sys2Proof.Machine.execSlt d a b s
  | .sltn d a b => Sys2Proof.Machine.execSltn d a b s
  | .sel d a b => Sys2Proof.Machine.execSel d a b s
  | .setEq d a b => Sys2Proof.Machine.execSetEq d a b s
  | .setNe d a b => Sys2Proof.Machine.execSetNe d a b s
  | .setLt d a b => Sys2Proof.Machine.execSetLt d a b s
  | .setGe d a b => Sys2Proof.Machine.execSetGe d a b s
  | .setLtn d a b => Sys2Proof.Machine.execSetLtn d a b s
  | .setGen d a b => Sys2Proof.Machine.execSetGen d a b s
  | .mov d a => Sys2Proof.Machine.execMov d a s
  | .clz d a => Sys2Proof.Machine.execClz d a s
  | .ctz d a => Sys2Proof.Machine.execCtz d a s
  | .ffs d a => Sys2Proof.Machine.execFfs d a s
  | .pop d a => Sys2Proof.Machine.execPop d a s
  | .sextB d a => Sys2Proof.Machine.execSextB d a s
  | .sextH d a => Sys2Proof.Machine.execSextH d a s
  | .sextW d a => Sys2Proof.Machine.execSextW d a s
  | .bswap d a => Sys2Proof.Machine.execBswap d a s
  | .zextB d a => Sys2Proof.Machine.execZextB d a s
  | .zextH d a => Sys2Proof.Machine.execZextH d a s
  | .zextW d a => Sys2Proof.Machine.execZextW d a s
  | .bext d a b => Sys2Proof.Machine.execBext d a b s
  | .bextImm d a k => Sys2Proof.Machine.execBextImm d a k s
  | .bins d a b => Sys2Proof.Machine.execBins d a b s
  | .binsImm d a k => Sys2Proof.Machine.execBinsImm d a k s
  | .addi d a k => Sys2Proof.Machine.execAddi d a k s
  | .li d k => Sys2Proof.Machine.execLi d k s
  | .lix d k => Sys2Proof.Machine.execLix d k s
  | .shli d a k => Sys2Proof.Machine.execShli d a k s
  | .shri d a k => Sys2Proof.Machine.execShri d a k s
  | .srai d a k => Sys2Proof.Machine.execSrai d a k s
  | .brEq a b k => Sys2Proof.Machine.execBrEq a b k s
  | .brNe a b k => Sys2Proof.Machine.execBrNe a b k s
  | .brLt a b k => Sys2Proof.Machine.execBrLt a b k s
  | .brGe a b k => Sys2Proof.Machine.execBrGe a b k s
  | .brLtn a b k => Sys2Proof.Machine.execBrLtn a b k s
  | .brGen a b k => Sys2Proof.Machine.execBrGen a b k s
  | .jmp k => Sys2Proof.Machine.execJmp k s
  | .jal k => Sys2Proof.Machine.execJal k s
  | .jr a => Sys2Proof.Machine.execJr a s
  | .ret => Sys2Proof.Machine.execRet s
  | .ld sz d b off req => Sys2Proof.Machine.execLd sz d b off req s
  | .ldn sz d b off req => Sys2Proof.Machine.execLdn sz d b off req s
  | .st sz d b off req => Sys2Proof.Machine.execSt sz d b off req s
  | .ldx sz d b c req => Sys2Proof.Machine.execLdx sz d b c req s
  | .ldxn sz d b c req => Sys2Proof.Machine.execLdxn sz d b c req s
  | .stx sz d b c req => Sys2Proof.Machine.execStx sz d b c req s
  | .lea d b off => Sys2Proof.Machine.execLea d b off s
  | .leaIndexed sz d b c off => Sys2Proof.Machine.execLeaIndexed sz d b c off s
  | .pref b off => Sys2Proof.Machine.execPref b off s
  | .cflush b off => Sys2Proof.Machine.execCflush b off s
  | .ldpk f d b off req => Sys2Proof.Machine.execLdpk f d b off req s
  | .stpk f d b off req => Sys2Proof.Machine.execStpk f d b off req s
  | .tend => Sys2Proof.Machine.execTend s
  | .yield => Sys2Proof.Machine.execYield s
  | .pubf => Sys2Proof.Machine.execPubf s
  | .hend => Sys2Proof.Machine.execHend s
  | .spawn a => Sys2Proof.Machine.execSpawn a s
  | .sync k => Sys2Proof.Machine.execSync k s
  | .rfork d a b c => Sys2Proof.Machine.execRfork d a b c s
  | .tfanDie a b => Sys2Proof.Machine.execTfanDie a b s
  | .tfanQuire a b => Sys2Proof.Machine.execTfanQuire a b s
  | .tfanCore a b => Sys2Proof.Machine.execTfanCore a b s
  | .kinitCont k a b sc => Sys2Proof.Machine.execKinitCont k a b sc s
  | .kinitReady k a b home sc => Sys2Proof.Machine.execKinitReady k a b home sc s
  | .kdec k => Sys2Proof.Machine.execKdec k s
  | .kadd k a => Sys2Proof.Machine.execKadd k a s
  | .send a b => Sys2Proof.Machine.execSend a b s
  | .reply a b => Sys2Proof.Machine.execReply a b s
  | .recv f a => Sys2Proof.Machine.execRecv f a s
  | .wmsg f => Sys2Proof.Machine.execWmsg f s
  | .hstart d a b => Sys2Proof.Machine.execHstart d a b s
  | .hjoin d a => Sys2Proof.Machine.execHjoin d a s
  | .wlPush q a b => Sys2Proof.Machine.execWlPush q a b s
  | .wlPop d q => Sys2Proof.Machine.execWlPop d q s
  | .wlLow d q => Sys2Proof.Machine.execWlLow d q s
  | .wlDone q k => Sys2Proof.Machine.execWlDone q k s
  | .donate q a => Sys2Proof.Machine.execDonate q a s
  | .claim d q => Sys2Proof.Machine.execClaim d q s
  | .cinc a b => Sys2Proof.Machine.execCinc a b s
  | .csnap a => Sys2Proof.Machine.execCsnap a s
  | .csnapClr a => Sys2Proof.Machine.execCsnapClr a s
  | .amoAdd sz ord sc d a b => Sys2Proof.Machine.execAmoAdd sz ord sc d a b s
  | .amoAnd sz ord sc d a b => Sys2Proof.Machine.execAmoAnd sz ord sc d a b s
  | .amoOr sz ord sc d a b => Sys2Proof.Machine.execAmoOr sz ord sc d a b s
  | .amoXor sz ord sc d a b => Sys2Proof.Machine.execAmoXor sz ord sc d a b s
  | .amoMin sz ord sc d a b => Sys2Proof.Machine.execAmoMin sz ord sc d a b s
  | .amoMax sz ord sc d a b => Sys2Proof.Machine.execAmoMax sz ord sc d a b s
  | .amoMinn sz ord sc d a b => Sys2Proof.Machine.execAmoMinn sz ord sc d a b s
  | .amoMaxn sz ord sc d a b => Sys2Proof.Machine.execAmoMaxn sz ord sc d a b s
  | .amoSwap sz ord sc d a b => Sys2Proof.Machine.execAmoSwap sz ord sc d a b s
  | .amoCas sz ord sc d a b => Sys2Proof.Machine.execAmoCas sz ord sc d a b s
  | .amoFadd ord sc d a b => Sys2Proof.Machine.execAmoFadd ord sc d a b s
  | .amoXadd ord sc d a b => Sys2Proof.Machine.execAmoXadd ord sc d a b s
  | .lrD ord sc d a => Sys2Proof.Machine.execLrD ord sc d a s
  | .lrW ord sc d a => Sys2Proof.Machine.execLrW ord sc d a s
  | .scD ord sc d a b => Sys2Proof.Machine.execScD ord sc d a b s
  | .scW ord sc d a b => Sys2Proof.Machine.execScW ord sc d a b s
  | .fence status sc => Sys2Proof.Machine.execFence status sc s
  | .fenceAcq status sc => Sys2Proof.Machine.execFenceAcq status sc s
  | .fenceRel status sc => Sys2Proof.Machine.execFenceRel status sc s
  | .wrs => Sys2Proof.Machine.execWrs s
  | .waitaddr a b => Sys2Proof.Machine.execWaitaddr a b s
  | .barQuire => Sys2Proof.Machine.execBarQuire s
  | .barDie => Sys2Proof.Machine.execBarDie s
  | .barDev => Sys2Proof.Machine.execBarDev s
  | .barSys => Sys2Proof.Machine.execBarSys s
  | .vadd t d a b m => Sys2Proof.Machine.execVadd t d a b m s
  | .vsub t d a b m => Sys2Proof.Machine.execVsub t d a b m s
  | .vmul t d a b m => Sys2Proof.Machine.execVmul t d a b m s
  | .vmulh t d a b m => Sys2Proof.Machine.execVmulh t d a b m s
  | .vadds t d a b m => Sys2Proof.Machine.execVadds t d a b m s
  | .vsubs t d a b m => Sys2Proof.Machine.execVsubs t d a b m s
  | .vabs t d b m => Sys2Proof.Machine.execVabs t d b m s
  | .vneg t d b m => Sys2Proof.Machine.execVneg t d b m s
  | .vmin t d a b m => Sys2Proof.Machine.execVmin t d a b m s
  | .vmax t d a b m => Sys2Proof.Machine.execVmax t d a b m s
  | .vmac t d a b m => Sys2Proof.Machine.execVmac t d a b m s
  | .vmacs t d a b m => Sys2Proof.Machine.execVmacs t d a b m s
  | .vshl t d a b m => Sys2Proof.Machine.execVshl t d a b m s
  | .vshr t d a b m => Sys2Proof.Machine.execVshr t d a b m s
  | .vsra t d a b m => Sys2Proof.Machine.execVsra t d a b m s
  | .vrotl t d a b m => Sys2Proof.Machine.execVrotl t d a b m s
  | .vand t d a b m => Sys2Proof.Machine.execVand t d a b m s
  | .vor t d a b m => Sys2Proof.Machine.execVor t d a b m s
  | .vxor t d a b m => Sys2Proof.Machine.execVxor t d a b m s
  | .vandn t d a b m => Sys2Proof.Machine.execVandn t d a b m s
  | .vnot t d b m => Sys2Proof.Machine.execVnot t d b m s
  | .vmov t d b m => Sys2Proof.Machine.execVmov t d b m s
  | .vbcast t d a m => Sys2Proof.Machine.execVbcast t d a m s
  | .vsel t d a b z m => Sys2Proof.Machine.execVsel t d a b z m s
  | .vclz t d b m => Sys2Proof.Machine.execVclz t d b m s
  | .vctz t d b m => Sys2Proof.Machine.execVctz t d b m s
  | .vffs t d b m => Sys2Proof.Machine.execVffs t d b m s
  | .vpop t d b m => Sys2Proof.Machine.execVpop t d b m s
  | .vcmpEq t d a b m => Sys2Proof.Machine.execVcmpEq t d a b m s
  | .vcmpNe t d a b m => Sys2Proof.Machine.execVcmpNe t d a b m s
  | .vcmpLt t d a b m => Sys2Proof.Machine.execVcmpLt t d a b m s
  | .vcmpGe t d a b m => Sys2Proof.Machine.execVcmpGe t d a b m s
  | .vext t d b k => Sys2Proof.Machine.execVext t d b k s
  | .vins t d a k => Sys2Proof.Machine.execVins t d a k s
  | .vperm t d a x m => Sys2Proof.Machine.execVperm t d a x m s
  | .vslide t d a b k m => Sys2Proof.Machine.execVslide t d a b k m s
  | .vredsum t d b m => Sys2Proof.Machine.execVredsum t d b m s
  | .vredmin t d b m => Sys2Proof.Machine.execVredmin t d b m s
  | .vredmax t d b m => Sys2Proof.Machine.execVredmax t d b m s
  | .vscan t d b m => Sys2Proof.Machine.execVscan t d b m s
  | .vld t v a off m => Sys2Proof.Machine.execVld t v a off m s
  | .vst t v a off m => Sys2Proof.Machine.execVst t v a off m s
  | .vldx t v a x m => Sys2Proof.Machine.execVldx t v a x m s
  | .vstx t v a x m => Sys2Proof.Machine.execVstx t v a x m s
  | .mand d a b => Sys2Proof.Machine.execMand d a b s
  | .mor d a b => Sys2Proof.Machine.execMor d a b s
  | .mxor d a b => Sys2Proof.Machine.execMxor d a b s
  | .mandn d a b => Sys2Proof.Machine.execMandn d a b s
  | .mnot d b => Sys2Proof.Machine.execMnot d b s
  | .mmov d b => Sys2Proof.Machine.execMmov d b s
  | .mpop t d b => Sys2Proof.Machine.execMpop t d b s
  | .mffs t d b => Sys2Proof.Machine.execMffs t d b s
  | .vfadd t d a b m rm => Sys2Proof.Machine.execVfadd t d a b m rm s
  | .vfsub t d a b m rm => Sys2Proof.Machine.execVfsub t d a b m rm s
  | .vfmul t d a b m rm => Sys2Proof.Machine.execVfmul t d a b m rm s
  | .vfdiv t d a b m rm => Sys2Proof.Machine.execVfdiv t d a b m rm s
  | .vfma t d a b c m rm => Sys2Proof.Machine.execVfma t d a b c m rm s
  | .vfms t d a b c m rm => Sys2Proof.Machine.execVfms t d a b c m rm s
  | .vfnma t d a b c m rm => Sys2Proof.Machine.execVfnma t d a b c m rm s
  | .vfnms t d a b c m rm => Sys2Proof.Machine.execVfnms t d a b c m rm s
  | .vfmin t d a b m => Sys2Proof.Machine.execVfmin t d a b m s
  | .vfmax t d a b m => Sys2Proof.Machine.execVfmax t d a b m s
  | .vfabs t d b m => Sys2Proof.Machine.execVfabs t d b m s
  | .vfneg t d b m => Sys2Proof.Machine.execVfneg t d b m s
  | .vfsqrt t d b m rm => Sys2Proof.Machine.execVfsqrt t d b m rm s
  | .vfrcp t d b m rm => Sys2Proof.Machine.execVfrcp t d b m rm s
  | .vfcmpEq t d a b m => Sys2Proof.Machine.execVfcmpEq t d a b m s
  | .vfcmpLt t d a b m => Sys2Proof.Machine.execVfcmpLt t d a b m s
  | .vfcmpLe t d a b m => Sys2Proof.Machine.execVfcmpLe t d a b m s
  | .vfcmpUn t d a b m => Sys2Proof.Machine.execVfcmpUn t d a b m s
  | .vfredsum t d b m rm => Sys2Proof.Machine.execVfredsum t d b m rm s
  | .vfredmin t d b m rm => Sys2Proof.Machine.execVfredmin t d b m rm s
  | .vfredmax t d b m rm => Sys2Proof.Machine.execVfredmax t d b m rm s
  | .vfscan t d b m rm => Sys2Proof.Machine.execVfscan t d b m rm s
  | .vcvtFf t src d b m rm => Sys2Proof.Machine.execVcvtFf t src d b m rm s
  | .vcvtFi t src d b m rm => Sys2Proof.Machine.execVcvtFi t src d b m rm s
  | .vcvtIf t src d b m rm => Sys2Proof.Machine.execVcvtIf t src d b m rm s
  | .vpack t d a b rm => Sys2Proof.Machine.execVpack t d a b rm s
  | .vunpack t d a b rm => Sys2Proof.Machine.execVunpack t d a b rm s
  | .vrng d b m => Sys2Proof.Machine.execVrng d b m s
  | .mcfg a => Sys2Proof.Machine.execMcfg a s
  | .mzero c => Sys2Proof.Machine.execMzero c s
  | .mmac c a b => Sys2Proof.Machine.execMmac c a b s
  | .msmac c a b => Sys2Proof.Machine.execMsmac c a b s
  | .mrect c a => Sys2Proof.Machine.execMrect c a s
  | .mrowRd v a c => Sys2Proof.Machine.execMrowRd v a c s
  | .mrowWr v a c => Sys2Proof.Machine.execMrowWr v a c s
  | .mscale c a => Sys2Proof.Machine.execMscale c a s
  | .mstat d => Sys2Proof.Machine.execMstat d s
  | .cp a => Sys2Proof.Machine.execCp a s
  | .cpm a => Sys2Proof.Machine.execCpm a s
  | .cpc a => Sys2Proof.Machine.execCpc a s
  | .cpw a => Sys2Proof.Machine.execCpw a s
  | .cpfence => Sys2Proof.Machine.execCpfence s
  | .cdcfgConfigure c a => Sys2Proof.Machine.execCdcfgConfigure c a s
  | .cdcfgWaitFull c a => Sys2Proof.Machine.execCdcfgWaitFull c a s
  | .cdcfgPop c a => Sys2Proof.Machine.execCdcfgPop c a s
  | .cdcfgWaitFree c a => Sys2Proof.Machine.execCdcfgWaitFree c a s
  | .cdcfgPush c a => Sys2Proof.Machine.execCdcfgPush c a s
  | .cdcfgReset c a => Sys2Proof.Machine.execCdcfgReset c a s
  | .rep a n => Sys2Proof.Machine.execRep a n s
  | .repx a n => Sys2Proof.Machine.execRepx a n s
  | .repReissue => Sys2Proof.Machine.execRepReissue s
  | .phBegin a => Sys2Proof.Machine.execPhBegin a s
  | .phEnd => Sys2Proof.Machine.execPhEnd s
  | .tx a p => Sys2Proof.Machine.execTx a p s
  | .mux o p => Sys2Proof.Machine.execMux o p s
  | .rxw d p => Sys2Proof.Machine.execRxw d p s
  | .gload a => Sys2Proof.Machine.execGload a s
  | .gstep d a => Sys2Proof.Machine.execGstep d a s
  | .gmask a b => Sys2Proof.Machine.execGmask a b s
  | .gstate d => Sys2Proof.Machine.execGstate d s
  | .sampF32 d a => Sys2Proof.Machine.execSampF32 d a s
  | .sampBf16 d a => Sys2Proof.Machine.execSampBf16 d a s
  | .rti => Sys2Proof.Machine.execRti s
  | .upret => Sys2Proof.Machine.execUpret s
  | .idle => Sys2Proof.Machine.execIdle s
  | .halt => Sys2Proof.Machine.execHalt s
  | .trap k => Sys2Proof.Machine.execTrap k s
  | .csrr d n => Sys2Proof.Machine.execCsrr d n s
  | .csrw a n => Sys2Proof.Machine.execCsrw a n s
  | .csrs a n => Sys2Proof.Machine.execCsrs a n s
  | .csrc a n => Sys2Proof.Machine.execCsrc a n s
  | .tlbinvAll => Sys2Proof.Machine.execTlbinvAll s
  | .tlbinvVa a => Sys2Proof.Machine.execTlbinvVa a s
  | .bdef a b => Sys2Proof.Machine.execBdef a b s
  | .bshare a b => Sys2Proof.Machine.execBshare a b s
  | .bresize a b => Sys2Proof.Machine.execBresize a b s
  | .bquery d a => Sys2Proof.Machine.execBquery d a s
  | .csrWrite => Sys2Proof.Machine.execCsrWrite s
  | .wincfgWrite => Sys2Proof.Machine.execWincfgWrite s
  | .decodeTableLoad => Sys2Proof.Machine.execDecodeTableLoad s
  | .dmemWrite => Sys2Proof.Machine.execDmemWrite s
  | .dqlocalWrite => Sys2Proof.Machine.execDqlocalWrite s
  | .bindselRecordStore => Sys2Proof.Machine.execBindselRecordStore s
  | .storeBufferDrain => Sys2Proof.Machine.execStoreBufferDrain s
  | .impreciseErrorEvent => Sys2Proof.Machine.execImpreciseErrorEvent s
  | .repSequenceFault => Sys2Proof.Machine.execRepSequenceFault s
  | .phaseLengthExpiry => Sys2Proof.Machine.execPhaseLengthExpiry s
  | .phaseOverrun => Sys2Proof.Machine.execPhaseOverrun s
  | .badDequeHandle => Sys2Proof.Machine.execBadDequeHandle s
  | .inboxOverflow => Sys2Proof.Machine.execInboxOverflow s
  | .breakpoint => Sys2Proof.Machine.execBreakpoint s
  | .breakpointSet => Sys2Proof.Machine.execBreakpointSet s
  | .preemptionRequest => Sys2Proof.Machine.execPreemptionRequest s
  | .preemptionHoldTimeout => Sys2Proof.Machine.execPreemptionHoldTimeout s
  | .preemptionSave => Sys2Proof.Machine.execPreemptionSave s
  | .preemptionRestore => Sys2Proof.Machine.execPreemptionRestore s
  | .reservationRequest => Sys2Proof.Machine.execReservationRequest s
  | .reservationGrant => Sys2Proof.Machine.execReservationGrant s
  | .reservationRevoke => Sys2Proof.Machine.execReservationRevoke s
  | .reservationWriteBack => Sys2Proof.Machine.execReservationWriteBack s
  | .wrsWake => Sys2Proof.Machine.execWrsWake s
  | .waitaddrRead => Sys2Proof.Machine.execWaitaddrRead s
  | .barrierRelease => Sys2Proof.Machine.execBarrierRelease s
  | .barrierMemberLost => Sys2Proof.Machine.execBarrierMemberLost s
  | .kettleOperation => Sys2Proof.Machine.execKettleOperation s
  | .messageDepart => Sys2Proof.Machine.execMessageDepart s
  | .messageArrival => Sys2Proof.Machine.execMessageArrival s
  | .nextWorkSelect => Sys2Proof.Machine.execNextWorkSelect s
  | .stealProbe => Sys2Proof.Machine.execStealProbe s
  | .coreWake => Sys2Proof.Machine.execCoreWake s
  | .launch => Sys2Proof.Machine.execLaunch s
  | .launchTreeDelivery => Sys2Proof.Machine.execLaunchTreeDelivery s
  | .recruitStart => Sys2Proof.Machine.execRecruitStart s
  | .lowLoweringBroadcast => Sys2Proof.Machine.execLowLoweringBroadcast s
  | .worklistEpoch => Sys2Proof.Machine.execWorklistEpoch s
  | .worklistSweep => Sys2Proof.Machine.execWorklistSweep s
  | .partnerReadTimeout => Sys2Proof.Machine.execPartnerReadTimeout s
  | .governorWindow => Sys2Proof.Machine.execGovernorWindow s
  | .govctlWrite => Sys2Proof.Machine.execGovctlWrite s
  | .matrixOperationStart => Sys2Proof.Machine.execMatrixOperationStart s
  | .matrixOperationComplete => Sys2Proof.Machine.execMatrixOperationComplete s
  | .mrectCheckExchange => Sys2Proof.Machine.execMrectCheckExchange s
  | .copyCommandAccept => Sys2Proof.Machine.execCopyCommandAccept s
  | .combineHoldExpiry => Sys2Proof.Machine.execCombineHoldExpiry s
  | .copyLineMove => Sys2Proof.Machine.execCopyLineMove s
  | .copyCompletionWrite => Sys2Proof.Machine.execCopyCompletionWrite s
  | .grammarUnitServe => Sys2Proof.Machine.execGrammarUnitServe s
  | .translationWalk => Sys2Proof.Machine.execTranslationWalk s
  | .remoteInvalidation => Sys2Proof.Machine.execRemoteInvalidation s
  | .qasrWrite => Sys2Proof.Machine.execQasrWrite s
  | .resizeSetMove => Sys2Proof.Machine.execResizeSetMove s
  | .resizeWalkEnd => Sys2Proof.Machine.execResizeWalkEnd s
  | .homePlainFill => Sys2Proof.Machine.execHomePlainFill s
  | .homeOwnFill => Sys2Proof.Machine.execHomeOwnFill s
  | .homeWriteBack => Sys2Proof.Machine.execHomeWriteBack s
  | .homeWtStore => Sys2Proof.Machine.execHomeWtStore s
  | .homeSiFill => Sys2Proof.Machine.execHomeSiFill s
  | .homeUncAccess => Sys2Proof.Machine.execHomeUncAccess s
  | .probeArrival => Sys2Proof.Machine.execProbeArrival s
  | .dataReplyArrival => Sys2Proof.Machine.execDataReplyArrival s
  | .dieDrain => Sys2Proof.Machine.execDieDrain s
  | .linkFlitReplay => Sys2Proof.Machine.execLinkFlitReplay s
  | .boundaryRetrain => Sys2Proof.Machine.execBoundaryRetrain s
  | .boundaryDown => Sys2Proof.Machine.execBoundaryDown s
  | .remotePacketArrival => Sys2Proof.Machine.execRemotePacketArrival s
  | .remoteReplyArrival => Sys2Proof.Machine.execRemoteReplyArrival s
  | .refusal => Sys2Proof.Machine.execRefusal s
  | .refusalReservationTimeout => Sys2Proof.Machine.execRefusalReservationTimeout s
  | .fabricTimeout => Sys2Proof.Machine.execFabricTimeout s
  | .fenceToken => Sys2Proof.Machine.execFenceToken s
  | .fenceHandshakeTimeout => Sys2Proof.Machine.execFenceHandshakeTimeout s
  | .neighbourSilence => Sys2Proof.Machine.execNeighbourSilence s
  | .lossNotice => Sys2Proof.Machine.execLossNotice s
  | .lostSetClear => Sys2Proof.Machine.execLostSetClear s
  | .keepalive => Sys2Proof.Machine.execKeepalive s
  | .barrierSysPacket => Sys2Proof.Machine.execBarrierSysPacket s
  | .fabctlWrite => Sys2Proof.Machine.execFabctlWrite s
  | .prctlWrite => Sys2Proof.Machine.execPrctlWrite s
  | .hostNotice => Sys2Proof.Machine.execHostNotice s
  | .hostRead => Sys2Proof.Machine.execHostRead s
  | .hostWrite => Sys2Proof.Machine.execHostWrite s
  | .hostFence => Sys2Proof.Machine.execHostFence s
  | .lstatRead => Sys2Proof.Machine.execLstatRead s
  | .ohmovRetrain => Sys2Proof.Machine.execOhmovRetrain s
  | .blobWrite => Sys2Proof.Machine.execBlobWrite s
  | .attestationRequest => Sys2Proof.Machine.execAttestationRequest s
  | .powerGood => Sys2Proof.Machine.execPowerGood s
  | .diesReady => Sys2Proof.Machine.execDiesReady s
  | .imagoEntry => Sys2Proof.Machine.execImagoEntry s
  | .thermalSample => Sys2Proof.Machine.execThermalSample s
  | .hbmPatrol => Sys2Proof.Machine.execHbmPatrol s
  | .quireReset => Sys2Proof.Machine.execQuireReset s
  | .coreReset => Sys2Proof.Machine.execCoreReset s
  | .illegalEncoding => Sys2Proof.Machine.execIllegalEncoding s
  | .receiveRegisterLatch => Sys2Proof.Machine.execReceiveRegisterLatch s
  | .waitaddrRemotePoll => Sys2Proof.Machine.execWaitaddrRemotePoll s
  | .planeRouterCycle => Sys2Proof.Machine.execPlaneRouterCycle s
  | .permittedRangeTableWrite => Sys2Proof.Machine.execPermittedRangeTableWrite s

end Sys2Proof.Machine
end

