-- ==== Sys2Proof/Machine/Step.lean ====
section
/-! DEFINITION. One step of the device. -/

namespace Sys2Proof.Machine

/-- The outcome with something done to a next state. -/
def thenNext (f : State → State) : Host.Outcome State Fault Refusal → Host.Outcome State Fault Refusal
  | .next t => .next (f t)
  | .fault e => .fault e
  | .refused r => .refused r
/-- A planned instruction runs. -/
def runPlan : Plan → Host.Outcome State Fault Refusal
  | .stop t => .next t
  | .run i u => thenNext (fun t => u.after t i) (exec i u)
/-- The sequencer of a core issues its next body instruction (09, R257). -/
def reissue (s : State) (n : Nat) : Host.Outcome State Fault Refusal :=
  match (s.core n).reissued with
  | none => .next s
  | some (x, ch) =>
    let u := s.enterReissue n x ch
    match decodeChain ch with
    | some i => thenNext State.leaveReissue (exec i u)
    | none => .next (u.deliver (.trap 0x01 x.wordPc)).leaveReissue
/-- An event is performed; a program's instruction is none. -/
def perform (s : State) (i : Instr) (t : Turn) : Host.Outcome State Fault Refusal :=
  if isStep i then exec i { s with turn := t } else .next s
/-- An action is performed. -/
def act (s : State) : Action → Host.Outcome State Fault Refusal
  | .event i t => perform s i t
  | .issue a => runPlan (s.plan a.core a.ctx)
  | .reissue n => reissue s n
  | .ahead n => .next (s.fetchAhead n)
  | .input =>
    match s.inputs with
    | (i, t) :: r => perform { s with inputs := r } i t
    | [] => .next s
  | .retry k =>
    match s.held[k]? with
    | some (i, t) => thenNext (fun u => u.reseat k s.held.length) (perform { s with held := s.held.eraseIdx k } i t)
    | none => .next s
  | .hop t => .next (s.move t)
  | .rise => .next (if s.riseDue then s.rise else s)
  | .drained d => .next ((s.drainEnd d).getD s)
/-- One step: time goes on, and one thing happens, if there is anything to happen. -/
def step (s : State) : Host.Outcome State Fault Refusal :=
  let t := s.timeOn
  match t.nextAction with
  | some a => act { t with chosen := none } a
  | none => .next t

/-- Core 0 runs a task whose next instruction stands at the beginning of its scratchpad: the words of an opcode-table
row. No program comes to run from reset without a launch (log 5), for which this stands. -/
def State.withFetchWord (s : State) (nbits w : Nat) : State :=
  let bytes := (tableWords nbits w).flatMap fun x => toBytes 2 x.toNat
  let t := s.onCore 0 fun c =>
    { c with
      run := .task, fetched := [], spad := Memory.write c.spad 0 bytes
      ctxs := c.ctxs.set 0 { c.ctxs[0] with pc := BitVec.ofNat 64 localBase, waiting := false } }
  { t with chosen := some ⟨0, 0⟩ }

end Sys2Proof.Machine
end

