-- ==== Sys2Proof/Safety.lean ====
section
/-! DEFINITION. What claims about the machine are made of: the bytes of its memories, what an instruction may leave
unchanged, the canonical form of the memories, and when a run is safe. -/

namespace Sys2Proof.Machine

/-! ### Bytes -/

/-- The byte that a memory of this device holds at a place, for HBM the byte at its home (12, R322). -/
def State.byteAt (s : State) (p : Place) : Byte :=
  match p with
  | .spad c off => Memory.get (s.core c).spad off
  | .kettle q off => Memory.get (s.quire q).kettles off
  | .hbm pa b => (s.homeCell (s.homeBinding b pa) pa).1
  | .remote _ _ => 0
/-- The byte that a core reads at a place of this device: its own waiting stores lie over the memory (01, R11). -/
def State.seen (s : State) (n : Nat) (p : Place) : Byte := (forward (s.core n).sb p [s.byteAt p]).headD 0
/-- No byte of any memory differs. -/
def SameBytes (s t : State) : Prop := ∀ p, t.byteAt p = s.byteAt p

/-! ### Frames -/

/-- The context that issues has gone on to the next instruction. -/
def WentOn (s t : State) : Prop := t.myCtx.pc = s.issue.next ∧ t.myCtx.waiting = false
/-- Only the issuing context's own fields differ: every other context, the vector, mask and system registers, every
memory, and every other core and unit are as before. -/
def OnlyMyCtx (s t : State) : Prop := t = s.onMyCtx fun _ => t.myCtx
/-- Only the issuing core differs. -/
def OnlyMyCore (s t : State) : Prop := t = s.setMe t.me
/-- Of the general registers only `d` may differ. -/
def OnlyW (s t : State) (d : Reg) : Prop := ∀ r, r ≠ d → t.w r = s.w r
/-- No general register differs. -/
def SameW (s t : State) : Prop := ∀ r, t.w r = s.w r

/-- The instruction completes: `exec` answers a next state in which register `d` holds `x`, no other general
register has changed, the context has gone on, and nothing outside the context differs. -/
def Computes (i : Instr) (s : State) (d : Reg) (x : Word) : Prop :=
  ∃ t, exec i s = .next t ∧ t.w d = x ∧ OnlyW s t d ∧ WentOn s t ∧ OnlyMyCtx s t
/-- The instruction completes and only moves the program counter to `a`. -/
def GoesTo (i : Instr) (s : State) (a : Word) : Prop :=
  ∃ t, exec i s = .next t ∧ SameW s t ∧ t.myCtx.pc = a ∧ t.myCtx.waiting = false ∧ t.issue.next = a ∧
    OnlyMyCtx { s with issue := t.issue } t

/-! ### Accesses -/

/-- `n` bytes at `va` are offset `off` on of the issuing core's own scratchpad, reached through slot 0 and win0, and an
access of them passes every check of Table 5.7 of 05 that a local access makes, alignment to `al` among them; no
copy engine owns a line of them and no byte of them is uncorrectable. -/
def OwnBytes (s : State) (va : Word) (n al off : Nat) : Prop :=
  va = localAddr off ∧ off + n ≤ 0x40000 ∧ off % al = 0 ∧ sharesOwn s.me off n = true ∧
    s.owned (.spad s.cur off) n = false ∧ s.anyBad (.spad s.cur off) n = false
/-- The bytes that the issuing core reads from offset `off` of its own scratchpad on. -/
def State.ownBytes (s : State) (off n : Nat) : List Byte := (List.range n).map fun i => s.seen s.cur (.spad s.cur (off + i))
/-- A store of the issuing core to `bs.length` bytes from offset `off` of its own scratchpad on has entered its store
buffer and the instruction has completed: the core reads the bytes stored; every byte outside them reads as before; the memories themselves,
the registers and everything outside the core are as before. -/
def OwnStored (s t : State) (off : Nat) (bs : List Byte) : Prop :=
  t.ownBytes off bs.length = bs ∧
  (∀ p, (∀ i, i < bs.length → p ≠ .spad s.cur (off + i)) → t.seen s.cur p = s.seen s.cur p) ∧
  SameBytes s t ∧ SameW s t ∧ WentOn s t ∧
  t = (s.onMe fun c => { c with sb := t.me.sb }).onMyCtx fun _ => t.myCtx

/-! ### Who may run an instruction, and what an exception leaves -/

/-- The control context issues an instruction in at least the given mode, outside a phase and as itself. -/
def CtlReady (s : State) (least : Nat) : Prop :=
  s.ctx = 0 ∧ s.issue.reissue = false ∧ s.issue.stay = false ∧ s.csr.ph = false ∧ least ≤ s.mode
/-- Nothing of the issuing core is on its way: no store, no entry to publish, no hold, no peer, no handshake, no kettle
operation. -/
def NothingPending (s : State) : Prop :=
  s.me.sb = [] ∧ s.me.deque = ⟨[], 0, [], 0, []⟩ ∧ s.me.hold = [] ∧ s.me.peers = [] ∧
    s.myCtx.hand = none ∧ s.me.peerHand = none ∧ s.kops = []
/-- Every core but one is as before. -/
def OtherCoresSame (s t : State) (n : Nat) : Prop := ∀ k, k ≠ n → t.core k = s.core k
/-- Registers of the core other than those of its control context, and every byte, are as before. -/
def RegistersSame (s t : State) : Prop := SameW s t ∧ t.me.v = s.me.v ∧ t.me.m = s.me.m ∧ t.me.acc = s.me.acc ∧ SameBytes s t
/-- The control context has taken a trap (01, Table 1.3): the saved registers, the status, the handler's address, and
nothing else of the registers and of memory. -/
def TrapTaken (s t : State) (cause : BitVec 6) (tval epc : Word) : Prop :=
  t.csr = { s.csr with
    status := t.csr.status, tcause := cause.zeroExtend 64, tval := tval, epc := epc } ∧
  t.csr.mode = 2 ∧ t.csr.pmode = s.csr.status.extractLsb' 0 2 ∧ t.csr.tk = true ∧ t.csr.pe = s.csr.pe ∧
  t.csr.ph = s.csr.ph ∧ t.csr.status.extractLsb' 7 57 = 0 ∧
  t.myCtx.pc = s.csr.tvec &&& ~~~(1#64) ∧ t.myCtx.waiting = false ∧ RegistersSame s t ∧ OtherCoresSame s t s.cur
/-- The control context has taken an upcall (01, Table 1.3). -/
def UpcallTaken (s t : State) (kind : BitVec 6) (val pc : Word) : Prop :=
  t.csr = { s.csr with
    status := t.csr.status, upcause := kind.zeroExtend 64, upval := val, upepc := pc } ∧
  t.csr.mode = 1 ∧ t.csr.pmode = s.csr.pmode ∧ t.csr.tk = s.csr.tk ∧ t.csr.pe = s.csr.pe ∧ t.csr.ph = s.csr.ph ∧
  t.myCtx.pc = s.csr.upvec &&& ~~~(1#64) ∧ t.myCtx.waiting = false ∧ RegistersSame s t ∧ OtherCoresSame s t s.cur

/-- Core `n` has taken a trap between two instructions (16, R428): `epc` is its next instruction. -/
def BoundaryTaken (s t : State) (n : Nat) (cause : BitVec 6) (tval : Word) : Prop :=
  let old := s.core n
  let new := t.core n
  new.csr = { old.csr with
    status := new.csr.status, tcause := cause.zeroExtend 64, tval := tval, epc := old.ctxs[0].pc } ∧
  new.csr.mode = 2 ∧ new.csr.pmode = old.csr.status.extractLsb' 0 2 ∧ new.csr.tk = true ∧ new.csr.pe = old.csr.pe ∧
  new.csr.ph = old.csr.ph ∧ new.ctxs[0].pc = old.csr.tvec &&& ~~~(1#64) ∧ new.ctxs[0].waiting = false ∧
  new.ctxs[0].w = old.ctxs[0].w ∧ new.v = old.v ∧ new.m = old.m ∧ new.acc = old.acc ∧ SameBytes s t ∧ OtherCoresSame s t n

/-- The registers that take a written value in the bits that they define, with no rule of their own. -/
def plainRegister (n : Nat) : Bool :=
  [0x01, 0x02, 0x03, 0x04, 0x08, 0x09, 0x0A, 0x0B, 0x14, 0x18, 0x20, 0x21, 0x22, 0x2A, 0x30, 0x31, 0x32, 0x33].contains n

/-- The bytes of a kettle after it has been armed (01, Table 1.11). -/
def armedBytes (n cont : Word) (home mode : Nat) (sc : Scope) (old : List Byte) : List Byte :=
  toBytes 4 n.toNat ++ toBytes 4 (cont.toNat % 2 ^ 32) ++ toBytes 2 home ++
    [BitVec.ofNat 8 mode, BitVec.ofNat 8 (1 + 4 * sc.code.toNat)] ++ old.drop 12

/-! ### The canonical form of memory -/

/-- Every memory is in its canonical form: addresses rise strictly and no zero byte is listed. -/
def State.memWf (s : State) : Prop :=
  Memory.wf s.hbm = true ∧ Memory.wf s.mgmt.flash = true ∧
    (∀ n, Memory.wf (s.core n).spad = true) ∧ ∀ q, Memory.wf (s.quire q).kettles = true

/-- Lines are whole numbers of 64-byte chunks: those that stand in instances and home slices, and those that the records of
bindings make (12, R315). -/
def State.linesOk (s : State) : Prop :=
  (∀ b, (s.binding b).rec'.line % 64 = 0 ∧ ∀ o, (s.binding b).old = some o → o.line % 64 = 0) ∧
    ∀ q l, l ∈ (s.quire q).lines ∨ l ∈ (s.quire q).slices → l.base % 64 = 0 ∧ l.data.length % 64 = 0

/-! ### Vectors -/

/-- Lane `i` of width `w` is active: there is no mask, or its governing bit is set (08, R196). -/
def Active (s : State) (m : MReg) (w i : Nat) : Prop := m = 0 ∨ (s.m m).getLsbD (i * w / 4) = true
/-- Of a vector register `old`, `new` differs in its active lanes only, which hold the values given. -/
def LanesWritten (s : State) (old new : VecReg) (m : MReg) (w : Nat) (f : Nat → Nat) : Prop :=
  ∀ i, i < 1024 / w → (Active s m w i → lane new w i = f i) ∧ (¬Active s m w i → lane new w i = lane old w i)
/-- Nothing but vector, mask and system registers of the issuing core differs, and the issuing context. -/
def OnlyVector (s t : State) : Prop :=
  t = (s.onMe fun c => { c with v := t.me.v, m := t.me.m, csr := t.csr }).onMyCtx fun _ => t.myCtx
/-- Of the system registers only the sticky flags differ, by those that some active lane raises. -/
def FlagsOf (s t : State) (m : MReg) (w n : Nat) (f : Nat → Flags) : Prop :=
  ∃ g : Flags, t.csr = { s.csr with aflags := s.csr.aflags ||| g.zeroExtend 64 } ∧
    ∀ b, g.getLsbD b = true ↔ ∃ i, i < n ∧ Active s m w i ∧ (f i).getLsbD b = true
/-- The instruction completes: the active lanes of vector register `d` hold the values given, the flags of those lanes
are raised, and no other register, and nothing outside the context, differs. -/
def VectorDone (i : Instr) (s : State) (d : VReg) (m : MReg) (w : Nat) (f : Nat → Nat × Flags) : Prop :=
  ∃ t, exec i s = .next t ∧ LanesWritten s (s.v d) (t.v d) m w (fun i => (f i).1) ∧
    FlagsOf s t m w (1024 / w) (fun i => (f i).2) ∧ (∀ r, r ≠ d → t.v r = s.v r) ∧ t.me.m = s.me.m ∧
    SameW s t ∧ WentOn s t ∧ OnlyVector s t
/-- The instruction completes: every mask bit of an active lane of `d` tells whether the relation holds of the lane, the
others are as before, and nothing else differs. -/
def MaskDone (i : Instr) (s : State) (d m : MReg) (w : Nat) (p : Nat → Prop) : Prop :=
  ∃ t, exec i s = .next t ∧
    (∀ j, j < 256 → (Active s m w (j * 4 / w) → ((t.m d).getLsbD j = true ↔ p (j * 4 / w))) ∧
      (¬Active s m w (j * 4 / w) → (t.m d).getLsbD j = (s.m d).getLsbD j)) ∧
    (∀ r, r ≠ d → t.m r = s.m r) ∧ t.me.v = s.me.v ∧ t.csr = s.csr ∧ SameW s t ∧ WentOn s t ∧ OnlyVector s t

/-! ### Atomic accesses -/

/-- An atomic access of the issuing context to its core's own scratchpad that no one stands in the way of. -/
def AtomicReady (s : State) (va : Word) (n o : Nat) : Prop :=
  s.csr.ph = false ∧ s.issue.stay = false ∧ s.me.sb = [] ∧ s.me.peers = [] ∧ s.granules = [] ∧ s.watches = [] ∧ s.memWf ∧
    s.myCtx.amo = none ∧ s.myCtx.queued = none ∧ s.myCtx.granted = none ∧ s.myCtx.remote = none ∧ OwnBytes s va n n o ∧
    s.owned (.spad s.cur (o / 16 * 16)) 16 = false
/-- An `amo` has left `new` at its place, if it writes, and `res` in its destination. -/
def AmoDone (i : Instr) (s : State) (d : Reg) (o n : Nat) (new : Option (List Byte)) (res : Word) : Prop :=
  let old := Memory.read s.me.spad o n
  ∃ t, exec i s = .next t ∧ t.w d = res ∧ OnlyW s t d ∧ WentOn s t ∧ t.granules = [] ∧
    Memory.read t.me.spad o n = new.getD old ∧
    ∀ c a, (c ≠ s.cur ∨ a < o ∨ o + n ≤ a) → t.byteAt (.spad c a) = s.byteAt (.spad c a)

/-! ### Words and instructions -/

/-- The instruction that the words of `i` decode to: `cdcfg` has one encoding, and takes its operation from a register
when it issues (09, Table 9.7). -/
def asWritten (i : Instr) : Instr :=
  match i with
  | .cdcfgWaitFull k a | .cdcfgPop k a | .cdcfgWaitFree k a | .cdcfgPush k a | .cdcfgReset k a => .cdcfgConfigure k a
  | j => j
/-- The words of a chain as they stand in memory: 16 bits each, little-endian (02, R37). -/
def wordBytes (c : Chain) : List Byte := (Chain.words c).flatMap fun w => toBytes 2 w.toNat

/-! ### Safe runs -/

/-- A state after some steps. -/
inductive Reaches : State → State → Prop where
  | refl (s : State) : Reaches s s
  | step {s t u : State} : step s = .next t → Reaches t u → Reaches s u
/-- A run is safe where no step of it stops. -/
def State.Safe (s : State) : Prop := ∀ t, Reaches s t → ∃ u, step t = .next u

end Sys2Proof.Machine
end

