-- ==== Sys2Proof/Certificates/Slice0/Obligations.lean ====
section
/-! DEFINITION. The statements about the model, each a proposition over its definitions. -/

open Sys2Proof Sys2Proof.Machine

/-! ### Page 0: integer instructions -/

/-- R105 and R106: the arithmetic forms compute what Tables 5.1 and 5.2 of 05 give, over the integers, for every pair
of operands and every destination, and change nothing else. -/
def Obligations.ArithmeticComputesOverTheIntegers : Prop :=
  ∀ (s : State) (d a b : Reg), s.issue.stay = false →
    let x := s.w a
    let y := s.w b
    let m1 := BitVec.allOnes 64
    let q := if y = 0 then m1 else if x.toInt = -2 ^ 63 ∧ y.toInt = -1 then x else BitVec.ofInt 64 (x.toInt.tdiv y.toInt)
    let r := if y = 0 then x else if x.toInt = -2 ^ 63 ∧ y.toInt = -1 then 0
      else BitVec.ofInt 64 (x.toInt - x.toInt.tdiv y.toInt * y.toInt)
    let qn := if y = 0 then m1 else BitVec.ofNat 64 (x.toNat / y.toNat)
    let rn := if y = 0 then x else BitVec.ofNat 64 (x.toNat - x.toNat / y.toNat * y.toNat)
    Computes (.add d a b) s d (BitVec.ofInt 64 (x.toInt + y.toInt)) ∧
    Computes (.sub d a b) s d (BitVec.ofInt 64 (x.toInt - y.toInt)) ∧
    Computes (.mul d a b) s d (BitVec.ofInt 64 (x.toInt * y.toInt)) ∧
    Computes (.mulh d a b) s d (BitVec.ofInt 64 (x.toInt * y.toInt / 2 ^ 64)) ∧
    Computes (.mulhn d a b) s d (BitVec.ofNat 64 (x.toNat * y.toNat / 2 ^ 64)) ∧
    Computes (.div d a b) s d q ∧ Computes (.rem d a b) s d r ∧
    Computes (.divn d a b) s d qn ∧ Computes (.remn d a b) s d rn ∧
    x = q * y + r ∧ x = qn * y + rn

/-- R107 to R109: the logic, shift, compare and select forms compute what Table 5.3 of 05 gives; a register shift
amount is the low six bits of wb, and the immediate shifts are those by their amount. -/
def Claims.LogicShiftCompareSelect : Prop :=
  ∀ (s : State) (d a b : Reg) (k : BitVec 6), s.issue.stay = false →
    let x := s.w a
    let y := s.w b
    let n := y.toNat % 64
    let mask (p : Prop) [Decidable p] : Word := if p then BitVec.allOnes 64 else 0
    let one (p : Prop) [Decidable p] : Word := if p then 1 else 0
    Computes (.and d a b) s d (x &&& y) ∧ Computes (.or d a b) s d (x ||| y) ∧
    Computes (.xor d a b) s d (x ^^^ y) ∧ Computes (.andn d a b) s d (x &&& ~~~y) ∧
    Computes (.shl d a b) s d (BitVec.ofNat 64 (x.toNat * 2 ^ n)) ∧
    Computes (.shr d a b) s d (BitVec.ofNat 64 (x.toNat / 2 ^ n)) ∧
    Computes (.sra d a b) s d (BitVec.ofInt 64 (x.toInt / 2 ^ n)) ∧
    Computes (.rotl d a b) s d (BitVec.ofNat 64 (x.toNat * 2 ^ n + x.toNat / 2 ^ (64 - n))) ∧
    Computes (.min d a b) s d (if x.toInt ≤ y.toInt then x else y) ∧
    Computes (.max d a b) s d (if x.toInt ≤ y.toInt then y else x) ∧
    Computes (.minn d a b) s d (if x.toNat ≤ y.toNat then x else y) ∧
    Computes (.maxn d a b) s d (if x.toNat ≤ y.toNat then y else x) ∧
    Computes (.slt d a b) s d (mask (x.toInt < y.toInt)) ∧ Computes (.sltn d a b) s d (mask (x.toNat < y.toNat)) ∧
    Computes (.setEq d a b) s d (one (x = y)) ∧ Computes (.setNe d a b) s d (one (x ≠ y)) ∧
    Computes (.setLt d a b) s d (one (x.toInt < y.toInt)) ∧ Computes (.setGe d a b) s d (one (y.toInt ≤ x.toInt)) ∧
    Computes (.setLtn d a b) s d (one (x.toNat < y.toNat)) ∧ Computes (.setGen d a b) s d (one (y.toNat ≤ x.toNat)) ∧
    Computes (.sel d a b) s d (if s.w d ≠ 0 then x else y) ∧
    Computes (.shli d a k) s d (BitVec.ofNat 64 (x.toNat * 2 ^ k.toNat)) ∧
    Computes (.shri d a k) s d (BitVec.ofNat 64 (x.toNat / 2 ^ k.toNat)) ∧
    Computes (.srai d a k) s d (BitVec.ofInt 64 (x.toInt / 2 ^ k.toNat))

/-- R110 to R113 and R128: moves, constants and address arithmetic; `nop` changes nothing but the program counter. -/
def Claims.MovesConstantsAndAddresses : Prop :=
  ∀ (s : State) (d a c : Reg) (k : BitVec 17) (off : BitVec 11) (sz : Size), s.issue.stay = false →
    Computes (.mov d a) s d (s.w a) ∧
    Computes (.li d k) s d (BitVec.ofInt 64 k.toInt) ∧
    Computes (.addi d a k) s d (BitVec.ofInt 64 ((s.w a).toInt + k.toInt)) ∧
    Computes (.lix d k) s d (BitVec.ofNat 64 ((s.w d).toNat * 2 ^ 17 + k.toNat)) ∧
    Computes (.lea d a off) s d (BitVec.ofInt 64 ((s.w a).toInt + off.toInt)) ∧
    Computes (.leaIndexed sz d a c off) s d
      (BitVec.ofInt 64 ((s.w a).toInt + (s.w c).toInt * sizeBytes sz + off.toInt)) ∧
    ∃ t, exec .nop s = .next t ∧ SameW s t ∧ WentOn s t ∧ OnlyMyCtx s t

/-- R114: the counting forms. `clz` and `ctz` give a number r of zero bits at the top and at the bottom, behind which a set
bit stands unless r is 64; `ffs` gives one more than the index of the lowest set bit, or 0; `pop` counts the set bits. -/
def Claims.CountingForms : Prop :=
  ∀ (s : State) (d a : Reg), s.issue.stay = false →
    let x := s.w a
    (∃ r : Nat, Computes (.clz d a) s d (BitVec.ofNat 64 r) ∧ r ≤ 64 ∧
      (∀ i, 64 - r ≤ i → x.getLsbD i = false) ∧ (r < 64 → x.getLsbD (63 - r) = true)) ∧
    (∃ r : Nat, Computes (.ctz d a) s d (BitVec.ofNat 64 r) ∧ r ≤ 64 ∧
      (∀ i, i < r → x.getLsbD i = false) ∧ (r < 64 → x.getLsbD r = true)) ∧
    (∃ r : Nat, Computes (.ffs d a) s d (BitVec.ofNat 64 r) ∧ r ≤ 64 ∧
      (∀ i, i + 1 < r → x.getLsbD i = false) ∧ (r = 0 → x = 0) ∧ (0 < r → x.getLsbD (r - 1) = true)) ∧
    Computes (.pop d a) s d (BitVec.ofNat 64 ((List.range 64).countP fun i => x.getLsbD i))

/-- R115: sign extension, zero extension and the reversal of the eight bytes. -/
def Claims.ExtensionsAndByteSwap : Prop :=
  ∀ (s : State) (d a : Reg), s.issue.stay = false →
    let x := s.w a
    Computes (.sextB d a) s d (BitVec.ofInt 64 ((x.toInt).bmod (2 ^ 8))) ∧
    Computes (.sextH d a) s d (BitVec.ofInt 64 ((x.toInt).bmod (2 ^ 16))) ∧
    Computes (.sextW d a) s d (BitVec.ofInt 64 ((x.toInt).bmod (2 ^ 32))) ∧
    Computes (.zextB d a) s d (BitVec.ofNat 64 (x.toNat % 2 ^ 8)) ∧
    Computes (.zextH d a) s d (BitVec.ofNat 64 (x.toNat % 2 ^ 16)) ∧
    Computes (.zextW d a) s d (BitVec.ofNat 64 (x.toNat % 2 ^ 32)) ∧
    (∃ z, Computes (.bswap d a) s d z ∧ ∀ i, i < 8 → z.extractLsb' (8 * i) 8 = x.extractLsb' (8 * (7 - i)) 8) ∧
    (d.val < 16 → a.val < 16 → let word (op f : Nat) : List Base := [BitVec.ofNat 16 (op * 2 ^ 10 + d.val * 2 ^ 6 + a.val * 2 ^ 2 + f)]
      decodeWords (word 0x0A 0) = some (.sextB d a, 1) ∧ decodeWords (word 0x0A 1) = some (.sextH d a, 1) ∧
      decodeWords (word 0x0A 2) = some (.sextW d a, 1) ∧ decodeWords (word 0x0A 3) = some (.bswap d a, 1) ∧
      decodeWords (word 0x0B 0) = some (.zextB d a, 1) ∧ decodeWords (word 0x0B 1) = some (.zextH d a, 1) ∧
      decodeWords (word 0x0B 2) = some (.zextW d a, 1))

/-- R116: bit i of an extracted field is bit pos + i of wa for i below min(len, 64 − pos), and an insertion replaces
those bits of the old wd, with position and length from a register or from the eleven bits of IX. -/
def Claims.BitFieldExtractAndInsert : Prop :=
  ∀ (s : State) (d a b : Reg) (k : BitVec 11), s.issue.stay = false →
    let x := s.w a
    let cut (pos len : Nat) : Nat := if len ≤ 64 - pos then len else 64 - pos
    let ext (pos len : Nat) : Word := BitVec.ofNat 64 (x.toNat / 2 ^ pos % 2 ^ cut pos len)
    let isIns (z : Word) (pos len : Nat) : Prop := ∀ i, i < 64 →
      z.getLsbD i = if pos ≤ i ∧ i < pos + cut pos len then x.getLsbD (i - pos) else (s.w d).getLsbD i
    let pos := (s.w b).toNat % 64
    let len := (s.w b).toNat / 256 % 64 + 1
    let ipos := k.toNat % 64
    let ilen := k.toNat / 64 + 1
    Computes (.bext d a b) s d (ext pos len) ∧ Computes (.bextImm d a k) s d (ext ipos ilen) ∧
    (∃ z, Computes (.bins d a b) s d z ∧ isIns z pos len) ∧
    ∃ z, Computes (.binsImm d a k) s d z ∧ isIns z ipos ilen

/-! ### Page 0: control flow -/

/-- R117 to R119: a branch goes to its target where its relation holds and on where it does not; a jump goes to its
target; `jal` leaves the next instruction's address in w14; a jump through a register goes to an even address. -/
def Obligations.BranchesAndJumps : Prop :=
  ∀ (s : State) (a b : Reg) (k : BitVec 11) (j : BitVec 21), s.issue.stay = false →
    let x := s.w a
    let y := s.w b
    let br (p : Prop) [Decidable p] : Word :=
      if p then BitVec.ofInt 64 (s.issue.pc.toInt + 2 * k.toInt) else s.issue.next
    let dest := BitVec.ofInt 64 (s.issue.pc.toInt + 2 * j.toInt)
    GoesTo (.brEq a b k) s (br (x = y)) ∧ GoesTo (.brNe a b k) s (br (x ≠ y)) ∧
    GoesTo (.brLt a b k) s (br (x.toInt < y.toInt)) ∧ GoesTo (.brGe a b k) s (br (y.toInt ≤ x.toInt)) ∧
    GoesTo (.brLtn a b k) s (br (x.toNat < y.toNat)) ∧ GoesTo (.brGen a b k) s (br (y.toNat ≤ x.toNat)) ∧
    GoesTo (.jmp j) s dest ∧
    (∃ t, exec (.jal j) s = .next t ∧ t.w 14 = s.issue.next ∧ OnlyW s t 14 ∧ t.myCtx.pc = dest ∧
      t.myCtx.waiting = false ∧ OnlyMyCtx { s with issue := t.issue } t) ∧
    (x.toNat % 2 = 0 → GoesTo (.jr a) s x) ∧ (x.toNat % 2 = 1 → exec (.jr a) s = .next (s.deliver (.trap 0x03 x))) ∧
    ((s.w 14).toNat % 2 = 0 → GoesTo .ret s (s.w 14)) ∧
    ((s.w 14).toNat % 2 = 1 → exec .ret s = .next (s.deliver (.trap 0x03 (s.w 14)))) ∧ exec (.jr 14) s = exec .ret s ∧
    (a.val < 16 → decodeWords [BitVec.ofNat 16 (0x17 * 2 ^ 10 + a.val * 2 ^ 6)] = some (.jr a, 1)) ∧
    decodeWords [0b010111_0000_000001#16] = some (.ret, 1)

/-! ### Page 0: memory -/

/-- R121, R122, R127: an aligned scalar load from the core's own scratchpad gives the little-endian value of its bytes as
the core reads them, its own waiting stores in front, sign-extended or zero-extended, and changes no other register
and no memory. -/
def Claims.ScalarLoadsOfTheOwnScratchpad : Prop :=
  ∀ (s : State) (sz : Size) (d b c : Reg) (off : BitVec 11) (req : Request) (o : Nat), s.issue.stay = false →
    let n := sizeBytes sz
    let v := ofBytes (s.ownBytes o n)
    let signed := BitVec.ofInt 64 ((v : Int).bmod (2 ^ (8 * n)))
    (OwnBytes s (s.w b + BitVec.ofInt 64 (off.toInt * n)) n n o →
      Computes (.ld sz d b off req) s d signed ∧ Computes (.ldn sz d b off req) s d (BitVec.ofNat 64 v)) ∧
    (OwnBytes s (s.w b + BitVec.ofInt 64 ((s.w c).toInt * n)) n n o →
      Computes (.ldx sz d b c req) s d signed ∧ Computes (.ldxn sz d b c req) s d (BitVec.ofNat 64 v))

/-- R121, R127, R11: an aligned scalar store to the core's own scratchpad enters the store buffer with the low bytes of
the register at the address that the form computes. -/
def Claims.ScalarStoresToTheOwnScratchpad : Prop :=
  ∀ (s : State) (sz : Size) (d b c : Reg) (off : BitVec 11) (req : Request) (o : Nat), s.issue.stay = false →
    let n := sizeBytes sz
    let bytes := toBytes n ((s.w d).toNat % 256 ^ n)
    (OwnBytes s (s.w b + BitVec.ofInt 64 (off.toInt * n)) n n o →
      ∃ t, exec (.st sz d b off req) s = .next t ∧ OwnStored s t o bytes) ∧
    (OwnBytes s (s.w b + BitVec.ofInt 64 ((s.w c).toInt * n)) n n o →
      ∃ t, exec (.stx sz d b c req) s = .next t ∧ OwnStored s t o bytes)

/-- R121, R123, R124: where the checks of Table 5.7 give a place of HBM behind a home binding, and no quire holds a copy of
a line, a default load gives the bytes that stand at the home, the core's waiting stores in front, and changes no byte and
no other register; a store enters the store buffer for that place. Where it rests on a choice of the model: log 7. -/
def Obligations.ScalarAccessesBehindAHomeBinding : Prop :=
  ∀ (s u : State) (sz : Size) (d b : Reg) (off : BitVec 11) (req : Request) (pa bd : Nat), s.issue.stay = false →
    let n := sizeBytes sz
    let va := s.w b + BitVec.ofInt 64 (off.toInt * n)
    s.csr.ph = false → regionOf va = .user → s.trained = true →
    (checkAccess va n .load s = .ok (.hbm pa bd, u) → (u.binding bd).rec'.home = true → u.noc.fills = [] → u.myCtx.got = [] →
      (∀ q, (u.quire q).lines = [] ∧ (u.quire q).slices = [] ∧ (u.quire q).forwards = []) → u.badHbm = [] →
      u.owned (.hbm pa bd) n = false → u.forwardStuck u.myQuire (.hbm pa bd) n = false →
      let v := ofBytes ((List.range n).map fun i => u.seen s.cur (.hbm (pa + i) bd))
      ∃ t, exec (.ldn sz d b off .dflt) s = .next t ∧ t.w d = BitVec.ofNat 64 v ∧ OnlyW s t d ∧ WentOn s t ∧ t.hbm = s.hbm ∧
        SameBytes u t) ∧
    (checkAccess va n .store s = .ok (.hbm pa bd, u) →
      let x : StorePart := ⟨.hbm pa bd, va, req, storeBytes (toBytes n (s.w d).toNat)⟩
      ∃ t, exec (.st sz d b off req) s = .next t ∧ t.me.sb = u.me.sb ++ [⟨s.ctx, [x]⟩] ∧ t.hbm = s.hbm ∧
        t.cur = s.cur ∧ SameW s t ∧ WentOn s t)

/-- R122 and R124: an access that is not aligned to its size raises trap 0x03 with its address, in the local region and
in the user half, and has no effect before the trap. -/
def Claims.MisalignedAccessTraps : Prop :=
  ∀ (s : State) (sz : Size) (d b : Reg) (off : BitVec 11) (req : Request),
    let n := sizeBytes sz
    let va := s.w b + BitVec.ofInt 64 (off.toInt * n)
    s.csr.ph = false → (regionOf va = .user ∨ ∃ o, regionOf va = .loc 0 0 o) → va.toNat % n ≠ 0 →
    exec (.ld sz d b off req) s = .next (s.deliver (.trap 0x03 va)) ∧
    exec (.ldn sz d b off req) s = .next (s.deliver (.trap 0x03 va)) ∧
    exec (.st sz d b off req) s = .next (s.deliver (.trap 0x03 va))

/-- R124, rows 1 and 2 of Table 5.7: an address that is reserved or not canonical is upcall 0x20, and the supervisor half
below supervisor mode is trap 0x02, whatever else is wrong with the access. -/
def Claims.RegionChecksComeFirst : Prop :=
  ∀ (s : State) (sz : Size) (d b : Reg) (off : BitVec 11) (req : Request),
    let va := s.w b + BitVec.ofInt 64 (off.toInt * sizeBytes sz)
    s.csr.ph = false →
    (regionOf va = .bad →
      exec (.ld sz d b off req) s = .next (s.deliver (.upcall 0x20 va)) ∧
      exec (.st sz d b off req) s = .next (s.deliver (.upcall 0x20 va))) ∧
    (regionOf va = .super → s.mode ≠ 2 →
      exec (.ld sz d b off req) s = .next (s.deliver (.trap 0x02 va)) ∧
      exec (.st sz d b off req) s = .next (s.deliver (.trap 0x02 va)))

/-- R11 and R294: the oldest store of a core's buffer, where nothing holds it up and it covers no uncorrectable double,
is performed: its bytes stand in the scratchpad, every other byte of the scratchpads is as before, and it has left
the buffer. -/
def Obligations.StoreBufferDrainPerformsTheOldestStore : Prop :=
  ∀ (s : State) (o : Nat) (x : Fin 11) (va : Word) (bs : List Byte) (req : Request) (rest : List Store),
    let n := s.turn.core
    let part : StorePart := ⟨.spad n o, va, req, storeBytes bs⟩
    s.memWf → (s.core n).sb = ⟨x, [part]⟩ :: rest → s.storeReady n ⟨x, [part]⟩ = true → (s.core n).bad = [] →
    s.granules = [] → s.watches = [] →
    ∃ t, exec .storeBufferDrain s = .next t ∧ (t.core n).sb = rest ∧
      (∀ i, i < bs.length → t.byteAt (.spad n (o + i)) = bs.getD i 0) ∧
      (∀ p, (∀ i, i < bs.length → p ≠ .spad n (o + i)) → t.byteAt p = s.byteAt p)

/-! ### Exceptions, returns and system registers -/

/-- R15 and Table 1.3 of 01: what taking a trap writes, for any cause; `epc` is the instruction, or the next one for causes
0x13 and 0x14; while TK is set, or where `tvec` is zero, the control context stops with its state intact (R16). -/
def Claims.TakingATrap : Prop :=
  ∀ (s : State) (cause : BitVec 6) (tval : Word), s.ctx = 0 → s.issue.reissue = false →
    let t := s.deliver (.trap cause tval)
    (s.csr.tk = false → s.csr.tvec ≠ 0 →
      TrapTaken s t cause tval (if cause = 0x13 ∨ cause = 0x14 then s.issue.next else s.issue.pc)) ∧
    (s.csr.tk = true ∨ s.csr.tvec = 0 →
      t.me.run = .stopped ∧ t.csr = s.csr ∧ t.myCtx.pc = s.myCtx.pc ∧ RegistersSame s t ∧ OtherCoresSame s t s.cur)

/-- R15 and Table 1.3 of 01: what taking an upcall writes; outside user mode, or where `upvec` is zero, it is taken as the
trap of its cause. -/
def Claims.TakingAnUpcall : Prop :=
  ∀ (s : State) (kind : BitVec 6) (val : Word), s.ctx = 0 → s.issue.reissue = false →
    let t := s.deliver (.upcall kind val)
    (s.csr.mode = 0 → s.csr.upvec ≠ 0 → UpcallTaken s t kind val s.issue.pc) ∧
    (s.csr.mode ≠ 0 ∨ s.csr.upvec = 0 → s.csr.tk = false → s.csr.tvec ≠ 0 → TrapTaken s t kind val s.issue.pc)

/-- R10 of 01: a helper that faults ends: its fields of `hstat` and `hcause` record it, its reservation is lost, and no
trap is delivered to the control context. -/
def Claims.AFaultEndsAHelper : Prop :=
  ∀ (s : State) (cause : BitVec 6) (tval : Word), s.ctx ≠ 0 → s.issue.reissue = false →
    let t := s.deliver (.trap cause tval)
    t.myCtx.hstat = 3 ∧ t.myCtx.hcause = cause ∧ t.csr = s.csr ∧ t.me.ctxs[0] = s.me.ctxs[0] ∧
      (∀ r, t.myCtx.resv = some r → r.state ≠ .held) ∧ RegistersSame s t ∧ OtherCoresSame s t s.cur

/-- R279: `trap code` takes trap 0x14 with the code, and saves the next instruction's address; while TK is set it is a
double trap; its code is K6, or K11 and K6 behind an IX prefix, zero-extended. -/
def Claims.TrapInstruction : Prop :=
  ∀ (s : State) (k : BitVec 17), CtlReady s 0 →
    exec (.trap k) s = .next (s.deliver (.trap 0x14 (k.zeroExtend 64))) ∧
    (s.csr.tk = false → s.csr.tvec ≠ 0 →
      ∃ t, exec (.trap k) s = .next t ∧ TrapTaken s t 0x14 (k.zeroExtend 64) s.issue.next) ∧
    (s.csr.tk = true → ∃ t, exec (.trap k) s = .next t ∧ t.me.run = .stopped ∧ t.csr = s.csr ∧ t.myCtx.pc = s.myCtx.pc ∧
      RegistersSame s t ∧ OtherCoresSame s t s.cur) ∧
    ∀ (hi : BitVec 11) (lo : BitVec 6), let word : Base := BitVec.ofNat 16 (1 * 2 ^ 10 + lo.toNat)
      decodeWords [0b111_10_0000_0000_110#16, word] = some (.trap (lo.zeroExtend 17), 2) ∧
      decodeWords [0b111_10_0000_0000_110#16, BitVec.ofNat 16 (0b111_00 * 2 ^ 11 + hi.toNat), word] = some (.trap (hi ++ lo), 3)

/-- R15 and R280: `rti` gives back the mode that PMODE holds, clears TK and goes to `epc`; `upret` gives user mode back and
goes to `upepc`; both change nothing else of the status. An odd target is trap 0x03, `rti` below supervisor mode and
`upret` in user mode are trap 0x02, and `upret` in supervisor mode is trap 0x01. -/
def Claims.ReturnsFromExceptions : Prop :=
  ∀ (s : State),
    (CtlReady s 2 → s.csr.epc.getLsbD 0 = false → s.csr.pmode ≠ 3 →
      ∃ t, exec .rti s = .next t ∧ t.csr = { s.csr with status := t.csr.status } ∧
        t.csr.mode = s.csr.pmode.toNat ∧ t.csr.pmode = s.csr.pmode ∧ t.csr.tk = false ∧ t.csr.pe = s.csr.pe ∧
        t.myCtx.pc = s.csr.epc ∧ RegistersSame s t ∧ OtherCoresSame s t s.cur) ∧
    (CtlReady s 1 → s.mode = 1 → s.csr.upepc.getLsbD 0 = false →
      ∃ t, exec .upret s = .next t ∧ t.csr = { s.csr with status := t.csr.status } ∧
        t.csr.mode = 0 ∧ t.csr.pmode = s.csr.pmode ∧ t.csr.tk = s.csr.tk ∧ t.csr.pe = s.csr.pe ∧
        t.myCtx.pc = s.csr.upepc ∧ RegistersSame s t ∧ OtherCoresSame s t s.cur) ∧
    (CtlReady s 2 → s.csr.epc.getLsbD 0 = false → ∃ t, exec .rti s = .next t ∧ t.csr.tk = false ∧ t.myCtx.pc = s.csr.epc) ∧
    (CtlReady s 2 → s.csr.epc.getLsbD 0 = true → exec .rti s = .next (s.deliver (.trap 0x03 s.csr.epc))) ∧
    (CtlReady s 1 → s.mode = 1 → s.csr.upepc.getLsbD 0 = true → exec .upret s = .next (s.deliver (.trap 0x03 s.csr.upepc))) ∧
    (CtlReady s 0 → s.mode < 2 → exec .rti s = .next (s.deliver (.trap 0x02 0))) ∧
    (CtlReady s 0 → s.mode = 0 → exec .upret s = .next (s.deliver (.trap 0x02 0))) ∧
    (CtlReady s 0 → s.mode = 2 → exec .upret s = .next (s.deliver (.trap 0x01 s.issue.wordPc)))

/-- R281 and Table 1.4 of 01: `csrr` reads any register of the table in a mode that may read it; `csrw`, `csrs` and `csrc`
write, set and clear bits of a register without a rule of its own, and no other register changes but through the
selection that `winsel` makes. -/
def Claims.SystemRegisterAccess : Prop :=
  ∀ (s : State) (d : Reg) (n : BitVec 6) (r : Nat) (w : Option Nat), regModes n.toNat = some (r, w) →
    let i := n.toNat
    let old := s.register s.cur i
    let writes (op : Instr) (x : Word) : Prop :=
      ∃ t, exec op s = .next t ∧ t.register s.cur i = x &&& definedBits i ∧
        (∀ m, m ≠ i → ¬(i = 0x18 ∧ m = 0x19) → t.register s.cur m = s.register s.cur m) ∧
        WentOn s t ∧ RegistersSame s t ∧ OtherCoresSame s t s.cur
    (CtlReady s r → Computes (.csrr d n) s d old) ∧
    (∀ k, w = some k → CtlReady s k → plainRegister i = true →
      writes (.csrw d n) (s.w d) ∧ writes (.csrs d n) (old ||| s.w d) ∧ writes (.csrc d n) (old &&& ~~~(s.w d)))

/-- R18, R278 and R281: below a register's least mode the access is trap 0x02 and a number that the table does not have is,
outside a phase, trap 0x01, each with the register's number, and nothing is read or written. A write that would change a bit which is
read-only in every mode is trap 0x01 with the number, and one that leaves those bits alone is accepted. -/
def Claims.SystemRegisterPrivilege : Prop :=
  ∀ (s : State) (d : Reg) (n : BitVec 6), s.ctx = 0 →
    let num := n.zeroExtend 64
    let all (e : Exc) : Prop := exec (.csrw d n) s = .next (s.deliver e) ∧ exec (.csrs d n) s = .next (s.deliver e) ∧
      exec (.csrc d n) s = .next (s.deliver e)
    (regModes n.toNat = none → s.csr.ph = false → exec (.csrr d n) s = .next (s.deliver (.trap 0x01 num)) ∧ all (.trap 0x01 num)) ∧
    (∀ r w, regModes n.toNat = some (r, w) →
      (s.mode < r → exec (.csrr d n) s = .next (s.deliver (.trap 0x02 num))) ∧
      (∀ k, w = some k → s.mode < k → all (.trap 0x02 num))) ∧
    ∀ op x, let i := n.toNat
      let old := s.register s.cur i
      let same := (x ^^^ old) &&& (if i = 0 then 0x43 else definedBits i) = 0
      (op, x) ∈ [(Instr.csrw d n, s.w d), (Instr.csrs d n, old ||| s.w d), (Instr.csrc d n, old &&& ~~~(s.w d))] →
      (CtlReady s 2 ∧ i = 0) ∨ (CtlReady s 0 ∧ ∃ r, regModes i = some (r, none)) →
      (¬same → exec op s = .next (s.deliver (.trap 0x01 num))) ∧
      (same → ∃ t, exec op s = .next t ∧ WentOn s t ∧ RegistersSame s t ∧ OtherCoresSame s t s.cur ∧
        t.csr = if i = 0 then { s.csr with status := x &&& definedBits 0 } else s.csr)

/-- R18, R19, R23, R35, R88 and R321: the writes of system registers as steps of the part, on core `turn.core`. -/
def Claims.SystemRegisterWriteSteps : Prop :=
  ∀ (s : State),
    let n := s.turn.core
    let x := s.turn.value
    let c := s.core n
    let kept (t : State) : Prop := t.cur = s.cur ∧ t.ctx = s.ctx ∧ t.issue = s.issue ∧ OtherCoresSame s t n
    (plainRegister s.turn.index = true → ∃ t, exec .csrWrite s = .next t ∧ kept t ∧
      t.register n s.turn.index = x &&& definedBits s.turn.index) ∧
    (c.csr.selWin ≠ 5 → ∃ t, exec .wincfgWrite s = .next t ∧ kept t ∧
      t.register n 0x19 = x &&& windowBits c.csr.selWin.val c.csr.selHigh) ∧
    (s.episodes = [] → ∃ t, exec .dmemWrite s = .next t ∧ kept t ∧ t.register n 0x10 = x &&& 0x7F) ∧
    (x.getLsbD 0 = false → c.deque.l = [] → ∃ t, exec .dqlocalWrite s = .next t ∧ kept t ∧
      t.register n 0x29 = x &&& 0x3E001) ∧
    (∀ base, base = (x.extractLsb' 36 18).toNat → base % 4 = 0 → base ≤ 0x3FC00 → c.sb = [] → c.bad = [] → s.owned (.spad n base) 1024 = false →
      (∀ k : Fin 32, c.shares[k] = .own) →
      ∃ t, exec .decodeTableLoad s = .next t ∧ kept t ∧
        ∀ i : Fin 256, (t.core n).csr.table[i].toNat = ofBytes (Memory.read c.spad (base + 4 * i.val) 4) % 2 ^ 19) ∧
    (x.getLsbD 6 = false → ∃ t, exec .bindselRecordStore s = .next t ∧ kept t ∧
      t.register n 0x1A = x &&& definedBits 0x1A) ∧
    (∀ off, x.getLsbD 6 = true → x &&& 0xFFFFFFFFFFFFFF00 = localAddr off → off + 256 ≤ 0x40000 → s.memWf →
      c.ctxs[0].got = [] → c.sb = [] → c.bad = [] → s.granules = [] → s.watches = [] → c.mops = [] → s.owned (.spad n off) 256 = false →
      (∀ k : Fin 32, c.shares[k] = .own) →
      ∃ t, exec .bindselRecordStore s = .next t ∧ kept t ∧ t.register n 0x1A = x &&& definedBits 0x1A ∧
        ∀ i, i < 256 → t.byteAt (.spad n (off + i)) = (s.liveRecord (x.extractLsb' 0 6).toNat).getD i 0)

/-- R282 to R284: `idle` ends when something has stirred the core and waits while nothing has; `halt` stops the control
context once its stores and requests are done; `tlbinv` removes the translations of one canonical address, or all. -/
def Obligations.IdleHaltAndTlbInvalidation : Prop :=
  ∀ (s : State) (a : Reg), CtlReady s 2 →
    let x := s.w a
    let q (t : State) : Quire := t.quire s.myQuire
    (s.me.stirred = true → ∃ t, exec .idle s = .next t ∧ WentOn s t ∧ t.me.called = false ∧ RegistersSame s t) ∧
    (s.me.stirred = false → ∃ t, exec .idle s = .next t ∧ t.myCtx.waiting = true ∧ t.myCtx.pc = s.myCtx.pc) ∧
    (NothingPending s → s.inFlight s.cur = 0 → ∃ t, exec .halt s = .next t ∧ t.me.run = .stopped ∧
      t.myCtx.pc = s.myCtx.pc ∧ t.csr = s.csr ∧ RegistersSame s t) ∧
    (∃ t, exec .tlbinvAll s = .next t ∧ WentOn s t ∧ t.me.itlb = [] ∧ t.me.dtlb = [] ∧ (q t).tlb2 = [] ∧
      (q t).nodes = [] ∧ RegistersSame s t) ∧
    (isCanonical x = true → ∃ t, exec (.tlbinvVa a) s = .next t ∧ WentOn s t ∧ RegistersSame s t ∧
      (∀ e, e ∈ t.me.itlb ↔ e ∈ s.me.itlb ∧ e.covers x = false) ∧
      (∀ e, e ∈ t.me.dtlb ↔ e ∈ s.me.dtlb ∧ e.covers x = false) ∧
      (∀ e, e ∈ (q t).tlb2 ↔ e ∈ (q s).tlb2 ∧ e.covers x = false) ∧
      ∀ e, e ∈ (q t).nodes ↔ e ∈ (q s).nodes ∧ e.covers x = false)

/-! ### Tasks and kettles -/

/-- R139, R140, R142 and R143: `spawn` puts a private handle behind the tail, of a folio without a kettle or with a valid one;
`pubf` publishes every entry that its folio lets be stolen; `tend` ends the task and decrements the kettle of its folio, where
that names one; `yield` ends the task and leaves its own folio published before the head of a deque that lies in H. Where
it rests on a choice of the model: log 51. -/
def Obligations.SpawnPublishYieldAndEnd : Prop :=
  ∀ (s : State) (a : Reg) (o : Nat), CtlReady s 0 → s.me.run = .task → s.me.sb = [] → s.me.peers = [] →
    s.forwardsHeld s.myQuire = false →
    let f := s.ownBytes o 64
    let named := BitVec.ofNat 32 (fieldAt f 0x10 4)
    let k := BitVec.ofNat 32 (ofBytes (s.ownBytes (s.me.folio + 0x10) 4))
    let open' (e : DqEntry) : Prop := stealScope (s.folioBytes (folioCore e.handle) (folioOff e.handle)) ≠ 3
    let ended (t : State) : Prop := t.me.run = .seeking ∧ t.me.hold = [] ∧ t.myCtx.resv = none ∧ SameW s t
    (OwnBytes s (s.w a) 64 64 o → tileOk (fieldAt f 0x20 8) = true → tileOk (fieldAt f 0x28 8) = true →
      hasV named = false ∨ kettleOk named = true → s.me.deque.h.length < 64 → s.me.deque.m = [] →
      ∃ t, exec (.spawn a) s = .next t ∧ WentOn s t ∧ RegistersSame s t ∧
        t.me.deque = { s.me.deque with h := s.me.deque.h ++ [⟨folioHandle s.cur o, false, .core, f, false⟩] }) ∧
    (∃ t, exec .pubf s = .next t ∧ WentOn s t ∧ SameW s t ∧
      t.me.deque.h.map (fun e => e.handle) = s.me.deque.h.map (fun e => e.handle) ∧
      ∀ e, e ∈ t.me.deque.h → open' e → e.pub = true) ∧
    (NothingPending s → OwnBytes s (localAddr (s.me.folio + 0x10)) 4 1 (s.me.folio + 0x10) → hasV k = false →
      ∃ t, exec .tend s = .next t ∧ ended t ∧ RegistersSame s t ∧ OtherCoresSame s t s.cur) ∧
    (NothingPending s → OwnBytes s (localAddr (s.me.folio + 0x10)) 4 1 (s.me.folio + 0x10) → s.memWf → hasV k = true →
      kettleOk k = true → (s.quire (kettleQuire k)).badKettles = [] → kArmed (s.kettleBytes k) = true →
      (s.kettleAux k).holds = [] → 1 ≤ kCount (s.kettleBytes k) →
      ∃ t, exec .tend s = .next t ∧ ended t ∧ kCount (t.kettleBytes k) + 1 = kCount (s.kettleBytes k)) ∧
    (s.me.hold = [] → OwnBytes s (localAddr s.me.folio) 64 64 s.me.folio → s.me.folio < popFolio →
      s.me.deque.h.length < 64 → s.me.deque.l = [] → s.me.deque.m = [] →
      ∃ t rest, exec .yield s = .next t ∧ ended t ∧
        t.me.deque = { s.me.deque with
          h := ⟨folioHandle s.cur s.me.folio, true, stealRelease (stealScope (s.ownBytes s.me.folio 64)), [], false⟩ :: rest } ∧
        rest.map (fun e => e.handle) = s.me.deque.h.map (fun e => e.handle) ∧
        (∀ e, e ∈ rest → open' e → e.pub = true) ∧ ((∀ e, e ∈ s.me.deque.h → e.pub = true) → rest = s.me.deque.h))

/-- R147 and R148, Table 1.11 of 01: arming a kettle that is not armed writes its fields; `kdec` and `kadd` send one
operation to the kettle store and go on, and nothing is sent for a handle with V = 0. -/
def Claims.KettleInstructions : Prop :=
  ∀ (s : State) (k a b : Reg) (home : BitVec 7) (sc : Scope), CtlReady s 0 → s.memWf → s.kops = [] →
    let h := (s.w k).extractLsb' 0 32
    let n := s.w a
    let x := s.w b
    let old := s.kettleBytes h
    let unarmed := hasV h = true ∧ kettleOk h = true ∧ (s.quire (kettleQuire h)).badKettles = [] ∧
      (kState old).extractLsb' 0 2 ≠ 1#2 ∧ 1 ≤ n.toNat ∧ n.toNat < 2 ^ 32 ∧
      (hasV (x.extractLsb' 0 32) = false ∨ folioOk (x.extractLsb' 0 32) = true)
    let way := if kettleQuire h = s.myQuire then none else some (s.startWay .request s.myQuire (kettleQuire h) 1)
    let sent (i : Instr) (op : KettleOp) : Prop :=
      (hasV h = true → kettleOk h = true →
        ∃ t, exec i s = .next t ∧ t.kops = [⟨s.agent, h, op, way⟩] ∧ WentOn s t ∧ RegistersSame s t) ∧
      (hasV h = false → ∃ t, exec i s = .next t ∧ t.kops = [] ∧ WentOn s t ∧ RegistersSame s t)
    (unarmed → ∃ t, exec (.kinitCont k a b sc) s = .next t ∧ WentOn s t ∧ SameW s t ∧
      t.kettleBytes h = armedBytes n x (if kettleQuire h = s.myQuire then qcoreOf s.cur else 0) 0 sc old) ∧
    (unarmed → home.toNat ≤ 95 → ∃ t, exec (.kinitReady k a b home sc) s = .next t ∧ WentOn s t ∧ SameW s t ∧
      t.kettleBytes h = armedBytes n x home.toNat 1 sc old) ∧
    sent (.kdec k) .dec ∧ sent (.kadd k a) (.add (n.extractLsb' 0 32))

/-- R33, R144, R149 and R349: at an armed kettle a decrement that does not reach zero lowers the count by one, by `sync`
as by a decrement that has come to the kettle's quire, and an addition raises it; `sync` ends its task. -/
def Claims.KettleCounts : Prop :=
  ∀ (s : State) (k : Reg) (a : Agent) (h g : W32) (m : W32) (way : Option Transit), s.memWf →
    (∀ x, way = some x → s.arrived x = true) →
    let good (h : W32) : Prop := hasV h = true ∧ kettleOk h = true ∧ (s.quire (kettleQuire h)).badKettles = [] ∧
      kArmed (s.kettleBytes h) = true ∧ (s.kettleAux h).holds = []
    (CtlReady s 0 → NothingPending s → s.forwardsHeld s.myQuire = false → h = (s.w k).extractLsb' 0 32 → good h → 2 ≤ kCount (s.kettleBytes h) →
      ∃ t, exec (.sync k) s = .next t ∧ kCount (t.kettleBytes h) + 1 = kCount (s.kettleBytes h) ∧
        t.me.run = .seeking ∧ t.myCtx.resv = none ∧ SameW s t) ∧
    (s.turn.index = 0 → s.kops = [⟨a, g, .dec, way⟩] → (s.core a.core).sb = [] → (s.core a.core).peers = [] →
      (s.core a.core).peerHand = none → s.forwardsHeld (quireOf a.core) = false → good g → 2 ≤ kCount (s.kettleBytes g) →
      ∃ t, exec .kettleOperation s = .next t ∧ t.kops = [] ∧ kCount (t.kettleBytes g) + 1 = kCount (s.kettleBytes g)) ∧
    (s.turn.index = 0 → s.kops = [⟨a, g, .add m, way⟩] → good g → kCount (s.kettleBytes g) + m.toNat < 2 ^ 32 →
      ∃ t, exec .kettleOperation s = .next t ∧ t.kops = [] ∧
        kCount (t.kettleBytes g) = kCount (s.kettleBytes g) + m.toNat)

/-- R33, R144 and R150: the decrement that takes the count from 1 to 0 leaves the kettle FIRED with count 0 and places its
continuation as Table 6.4 says: with `sync`, in continue mode, as the core's next task; with `kdec`, in continue mode, as the
core's next task, or on its ready list where it has one; in ready mode on HOME's ready list, in the order of PRI. A kettle
without a continuation places nothing. -/
def Claims.KettleFires : Prop :=
  ∀ (s : State) (k : Reg) (c : Nat) (x : Fin 11) (h : W32) (way : Option Transit), s.memWf →
    (∀ x, way = some x → s.arrived x = true) →
    let old := s.kettleBytes h
    let cont := kCont old
    let home := kettleQuire h * 96 + kHome old
    let last := hasV h = true ∧ kettleOk h = true ∧ (s.quire (kettleQuire h)).badKettles = [] ∧ kArmed old = true ∧
      (s.kettleAux h).holds = [] ∧ kCount old = 1 ∧ kHome old ≤ 95 ∧ kMode old ≤ 1 ∧
      (hasV cont = false ∨ folioOk cont = true)
    let bySync := CtlReady s 0 ∧ NothingPending s ∧ s.forwardsHeld s.myQuire = false ∧ h = (s.w k).extractLsb' 0 32 ∧ last
    let byDec := s.turn.index = 0 ∧ s.kops = [⟨⟨c, x⟩, h, .dec, way⟩] ∧ (s.core c).sb = [] ∧ (s.core c).peers = [] ∧
      (s.core c).peerHand = none ∧ s.forwardsHeld (quireOf c) = false ∧ last
    let fired (t : State) : Prop := kCount (t.kettleBytes h) = 0 ∧ (kState (t.kettleBytes h)).extractLsb' 0 2 = 2#2
    let task (p : Pending) : Prop := p.handle = cont ∧ p.cont = true ∧
      p.pri = fieldAt (s.folioBytes (folioCore cont) (folioOff cont)) 0x18 4 ∧ ∃ sc, p.acq = some sc
    let next (t : State) (n : Nat) : Prop := ∃ p, (t.core n).next = some p ∧ task p
    let listed (t : State) (n : Nat) : Prop := ∃ p l r, task p ∧ (t.core n).ready = l ++ p :: r ∧ (s.core n).ready = l ++ r ∧
      (∀ y, y ∈ l → y.pri ≤ p.pri) ∧ ∀ y, r.head? = some y → p.pri < y.pri
    (bySync → ∃ t, exec (.sync k) s = .next t ∧ fired t ∧ t.me.run = .seeking ∧ SameW s t ∧
      (hasV cont = true → kMode old = 0 → next t s.cur) ∧ (hasV cont = true → kMode old = 1 → listed t home) ∧
      (hasV cont = false → ∀ n, (t.core n).next = (s.core n).next ∧ (t.core n).ready = (s.core n).ready)) ∧
    (byDec → ∃ t, exec .kettleOperation s = .next t ∧ fired t ∧ t.kops = [] ∧
      (hasV cont = true → kMode old = 0 → (s.core c).next = none → next t c) ∧
      (hasV cont = true → kMode old = 0 → (s.core c).next ≠ none → (t.core c).next = (s.core c).next ∧ listed t c) ∧
      (hasV cont = true → kMode old = 1 → listed t home) ∧
      (hasV cont = false → ∀ n, (t.core n).next = (s.core n).next ∧ (t.core n).ready = (s.core n).ready))

/-- R145 and R350: `rfork` raises the count of the folio's kettle by the number of its recruits, gives each recruit its folio
with its part of the range, and returns how many there are; with nothing to divide it returns 0; a recruit starts from
its folio. -/
def Claims.Forks : Prop :=
  ∀ (s : State) (d a b c : Reg) (o : Nat), s.memWf → s.me.sb = [] → s.me.peers = [] → s.forwardsHeld s.myQuire = false →
    let f := s.ownBytes o 64
    let ket := BitVec.ofNat 32 (fieldAt f 0x10 4)
    let total := (s.w a).toNat
    let g := Nat.max 1 (s.w b).toNat
    let rs := s.recruits f ((total + g - 1) / g)
    let n := s.turn.core
    let r := s.folioBytes n forkFolio
    (CtlReady s 0 → OwnBytes s (s.w c) 64 64 o → s.w a = 0 → Computes (.rfork d a b c) s d 0) ∧
    (CtlReady s 0 → OwnBytes s (s.w c) 64 64 o → s.w a ≠ 0 → hasV ket = true → kettleOk ket = true → s.kops = [] →
      (s.quire (kettleQuire ket)).badKettles = [] → kArmed (s.kettleBytes ket) = true →
      ∃ t, exec (.rfork d a b c) s = .next t ∧ t.w d = BitVec.ofNat 64 rs.length ∧ OnlyW s t d ∧ WentOn s t ∧
        (kCount (s.kettleBytes ket) + rs.length < 2 ^ 32 →
          kCount (t.kettleBytes ket) = kCount (s.kettleBytes ket) + rs.length) ∧
        (∀ k, k ∈ rs → (t.core k).recruit.isSome = true) ∧
        (s.granules = [] → s.watches = [] → folioTiles f = [] → (∀ k, k ∈ rs → (s.core k).bad = []) →
          ∀ i, i < rs.length → let k := rs.getD i 0
            let p := t.folioBytes k forkFolio
            p.take 0x1C = f.take 0x1C ∧ fieldAt p 0x30 8 = i * total / rs.length % 2 ^ 64 ∧
            fieldAt p 0x38 8 = (i + 1) * total / rs.length % 2 ^ 64)) ∧
    (∀ sc, (s.core n).recruit = some sc →
      ∃ t, exec .recruitStart s = .next t ∧ (t.core n).run = .task ∧ (t.core n).recruit = none ∧
        (t.core n).folio = folioOff (folioHandle n forkFolio) ∧
        (t.core n).ctxs[0].pc = wordOf (r.take 8) &&& ~~~(1#64) ∧
        (t.core n).ctxs[0].w[0] = wordOf ((r.drop 8).take 8) ∧ (t.core n).ctxs[0].w[12] = localAddr forkFolio)

/-- R339, R340, R346 and R282: a core without a task starts the task that runs next; it goes to its steal probe when
it has none. A probe sequence draws its first victim from the LFSR once; of the first victim that has something to give it
steals the oldest published entry that the stage admits, and goes on to the next probe where it cannot place that entry; it
sleeps when no victim is left, and looks for work again when it is woken. Where it rests on a choice of the model: log 23,
log 36 (the cleared bit 0 of a program counter), log 55, log 56, log 97. -/
def Obligations.FindingWork : Prop :=
  ∀ (s : State) (p : Pending),
    let n := s.turn.core
    let c := s.core n
    let off := folioOff p.handle
    let f := forward c.sb (.spad n off) (s.folioBytes n off)
    let starts (t : State) (f : List Byte) (off : Nat) : Prop := (t.core n).run = .task ∧ (t.core n).folio = off ∧
      (t.core n).ctxs[0].pc = wordOf (f.take 8) &&& ~~~(1#64) ∧ (t.core n).ctxs[0].w[0] = wordOf ((f.drop 8).take 8) ∧
      (t.core n).ctxs[0].w[12] = localAddr off
    let drawn := lfsrStep c.lfsr
    let u := if c.probes.isSome then s else s.onCore n fun c => { c with lfsr := drawn }
    let left := c.probes.getD (probeOrder n ((drawn.extractLsb' 0 7).toNat % 96))
    (c.run = .seeking → c.next = some p → p.bad = false → p.cont = false → folioCore p.handle = n →
      ∃ t, exec .nextWorkSelect s = .next t ∧ starts t f off ∧ (t.core n).next = none) ∧
    (c.run = .seeking → c.next = none → c.deque = ⟨[], 0, [], 0, []⟩ → c.ready = [] → s.wls = [] →
      ∃ t, exec .nextWorkSelect s = .next t ∧ (t.core n).run = .probing ∧ (t.core n).probes = none ∧ OtherCoresSame s t n) ∧
    (c.run = .probing → s.readyRings = .ok s → u.nextProbe n left = none →
      ∃ t, exec .stealProbe s = .next t ∧ (t.core n).run = .asleep ∧ (t.core n).probes = none ∧
        (t.core n).lfsr = (u.core n).lfsr ∧ OtherCoresSame s t n) ∧
    (∀ k most e rest more, c.run = .probing → s.readyRings = .ok s → u.nextProbe n left = some ((k, most), more) → k ≠ n →
      (s.core k).deque = ⟨e :: rest, 0, [], 0, []⟩ → e.pub = true → s.admits e.handle most = true → e.bad = false → e.old = [] →
      (folioCore e.handle = n →
        ∃ t, exec .stealProbe s = .next t ∧ (t.core k).deque.h = rest ∧ (t.core n).run = .task ∧ (t.core n).probes = none) ∧
      (s.placeable n e.handle = false →
        ∃ t, exec .stealProbe s = .next t ∧ (t.core k).deque.h = e :: rest ∧ (t.core n).run = .probing ∧
          (t.core n).probes = some more)) ∧
    (c.run = .asleep → c.wake = true → s.turn.flag = false →
      ∃ t, exec .coreWake s = .next t ∧ (t.core n).run = .seeking ∧ (t.core n).wake = false ∧ OtherCoresSame s t n) ∧
    (s.turn.flag = true → ∃ t, exec .coreWake s = .next t ∧ (t.core n).called = true ∧ (t.core n).wake = true)

/-! ### Messages and helpers -/

/-- R152 to R156 and R36: `send` and `reply` put the message of the operand into the send queue with their own SRC and
CLS; it departs, arrives in the inbox of its core, and `recv` takes the oldest that passes its filter; `wmsg` goes on
when there is one and waits while there is none. -/
def Claims.MessageInstructions : Prop :=
  ∀ (s : State) (a b : Reg) (f : Filter) (o : Nat), s.issue.stay = false → s.csr.ph = false → s.me.sb = [] →
    s.me.peers = [] → s.forwardsHeld s.myQuire = false → s.me.overflow = none → (∀ m, m ∈ s.me.inbox → m.bad = false) →
    let bs := s.ownBytes o 32
    let dest := (s.w a).toNat
    let sent (i : Instr) (r : Bool) : Prop :=
      OwnBytes s (s.w b) 32 32 o → dest ≤ 18431 → s.inService dest = true → hasV (BitVec.ofNat 32 (fieldAt bs 0 4)) = false →
      ∃ t, exec i s = .next t ∧ WentOn s t ∧ SameW s t ∧
        t.me.sendq = s.me.sendq ++
          [⟨dest, s.cur, r, bs.take 4 ++ toBytes 2 s.cur ++ [if r then 1 else 0] ++ bs.drop 7, false⟩]
    (s.me.sendq.length < 6 → sent (.send a b) false) ∧ (s.me.sendq.length < 8 → sent (.reply a b) true) ∧
    (∀ m, OwnBytes s (s.w a) 32 32 o → s.me.inbox.find? (passes f) = some m →
      ∃ t, exec (.recv f a) s = .next t ∧ WentOn s t ∧ SameW s t ∧ t.me.inbox = s.me.inbox.erase m ∧
        t.me.sb = [⟨s.ctx, [⟨.spad s.cur o, localAddr o, .dflt, storeBytes m.bytes⟩]⟩]) ∧
    (OwnBytes s (s.w a) 32 32 o → s.me.inbox.find? (passes f) = none →
      ∃ t, exec (.recv f a) s = .next t ∧ WentOn s t ∧ SameW s t ∧ t.me.inbox = s.me.inbox ∧
        t.me.sb = [⟨s.ctx, [⟨.spad s.cur (o + 6), localAddr (o + 6), .dflt, storeBytes [0xFF]⟩]⟩]) ∧
    (s.me.inbox.any (passes f) = true → ∃ t, exec (.wmsg f) s = .next t ∧ WentOn s t ∧ RegistersSame s t) ∧
    (s.me.inbox.any (passes f) = false → ∃ t, exec (.wmsg f) s = .next t ∧ t.myCtx.waiting = true ∧
      t.myCtx.pc = s.myCtx.pc)

/-- R153, R154 and R385: the oldest message of a class leaves the send queue for the network of its class, at its core's
router, and a message that has come to its core's router enters the inbox where that has room. -/
def Claims.MessageTransport : Prop :=
  ∀ (s : State) (m : Msg) (w : Transit) (queue : List Msg) (rest : List (Transit × Msg)),
    (∀ n, n = s.turn.core → (s.core n).sendq = m :: queue → m.reply = s.turn.flag →
      ∃ t, exec .messageDepart s = .next t ∧ (t.core n).sendq = queue ∧ OtherCoresSame s t n ∧
        t.net = s.net ++ [(s.startWay (if m.reply then .reply else .request) (quireOf n) (quireOf m.dest) 1, m)]) ∧
    (s.turn.index = 0 → s.net = (w, m) :: rest → s.arrived w = true → (s.core m.dest).accepts m = true → (s.core m.dest).inbox.length < 16 →
      hasV (BitVec.ofNat 32 (fieldAt m.bytes 0 4)) = false →
      ∃ t, exec .messageArrival s = .next t ∧ t.net = rest ∧ (t.core m.dest).inbox = (s.core m.dest).inbox ++ [m] ∧
        (t.core m.dest).wake = true ∧ OtherCoresSame s t m.dest)

/-- R157 to R159: `hstart` starts the lowest helper that is not live with its pc, w0 and w13 and returns its number, or 0;
`hend` ends the helper that executes it; `hjoin` waits while a named helper is live, and else reports and clears the
named ones. Where it rests on a choice of the model: log 36 (the cleared bit 0 of a program counter). -/
def Obligations.HelperInstructions : Prop :=
  ∀ (s : State) (d a b : Reg), s.csr.ph = false → s.issue.stay = false → s.issue.reissue = false →
    let x := s.w a
    let y := s.w b
    (∀ h, s.ctx = 0 → x.getLsbD 0 = false → s.me.preempt = none → s.me.freeHelper = some h → h ≠ 0 →
      ∃ t, exec (.hstart d a b) s = .next t ∧ t.w d = BitVec.ofNat 64 h.val ∧ OnlyW s t d ∧ WentOn s t ∧
        t.me.ctxs[h].pc = x ∧ t.me.ctxs[h].hstat = 1 ∧ t.me.ctxs[h].w[0] = y ∧ t.me.ctxs[h].w[13] = s.w 13 ∧
        ∀ k : Fin 11, k ≠ h → k ≠ 0 → t.me.ctxs[k] = s.me.ctxs[k]) ∧
    (s.ctx = 0 → x.getLsbD 0 = false → s.me.freeHelper = none → Computes (.hstart d a b) s d 0) ∧
    (s.ctx ≠ 0 → ∃ t, exec .hend s = .next t ∧ t.myCtx.hstat = 2 ∧ t.myCtx.resv = none ∧ RegistersSame s t ∧
      ∀ k : Fin 11, k ≠ s.ctx → t.me.ctxs[k] = s.me.ctxs[k]) ∧
    (s.ctx = 0 → (∃ h : Fin 11, named x h = true ∧ s.me.ctxs[h].hstat = 1) →
      ∃ t, exec (.hjoin d a) s = .next t ∧ t.myCtx.waiting = true ∧ t.myCtx.pc = s.myCtx.pc ∧ SameW s t) ∧
    (s.ctx = 0 → (∀ h : Fin 11, named x h = true → s.me.ctxs[h].hstat ≠ 1) →
      ∃ t, exec (.hjoin d a) s = .next t ∧ OnlyW s t d ∧ WentOn s t ∧
        (∀ h : Fin 11, h ≠ 0 → t.me.ctxs[h].hstat = if named x h then 0 else s.me.ctxs[h].hstat) ∧
        ∀ h : Fin 11, (t.w d).getLsbD h.val = (named x h && decide (s.me.ctxs[h].hstat = 3)))

/-! ### Worklists, donation queues and routing counters -/

/-- R161 to R164, R357 and R359: on a worklist that the operand names, a push into an empty slot stands there, is counted
and goes on where the agents' V lie at or below it; a pop takes the entry that the search finds, ends the task and makes the
entry's task the core's next one, or returns the code of its failure; `wl.low` reads V at the core's quire; `wl.done`
registers a kettle, from which the sweeps are compared anew, or detaches. -/
def Claims.WorklistInstructions : Prop :=
  ∀ (s u : State) (d q a b : Reg) (wid : Nat) (w : Worklist), CtlReady s 0 → s.memWf → NothingPending s →
    worklist (s.w q) s = .ok (wid, u) → u.wl? wid = some w → NothingPending u → u.cur = s.cur → u.ctx = s.ctx →
    u.memWf → u.myCtx = s.myCtx → u.issue = s.issue → u.csr = s.csr → u.forwardsHeld u.myQuire = false →
    let mine := w.slotOf s.myQuire
    let e : Entry := ⟨(s.w a).toNat % 2 ^ 32, (s.w a).toNat / 2 ^ 32, s.w b⟩
    let h := (s.w a).extractLsb' 0 32
    (s.myCtx.posted = none → e.kind < w.kinds.length → w.slot mine = ⟨(w.slot mine).wb, [], []⟩ →
      (∀ r, r ∈ u.service → ∃ v, w.view r = some v ∧ v ≤ w.bucket e) →
      ∃ t, exec (.wlPush q a b) s = .next t ∧ WentOn s t ∧ SameW s t ∧
        ∃ x, t.wl? wid = some x ∧ x.pushed = w.pushed + 1 ∧ (x.slot mine).entries = [(w.born, e)] ∧
          (x.slot mine).wb = w.bucket e) ∧
    (u.search w s.myQuire = none →
      ∃ t, exec (.wlPop d q) s = .next t ∧ OnlyW s t d ∧ WentOn s t ∧
        t.w d = if u.entriesOf w ≠ [] then 2 else if w.status = 1 then 3 else 1) ∧
    (∀ r k, u.search w s.myQuire = some (r, k) → (w.slot r).spill = [] → u.me.bad = [] →
      OwnBytes u (localAddr (u.me.folio + 0x10)) 4 1 (u.me.folio + 0x10) →
      hasV (BitVec.ofNat 32 (ofBytes (u.ownBytes (u.me.folio + 0x10) 4))) = false →
      ∃ t, exec (.wlPop d q) s = .next t ∧ t.me.run = .seeking ∧
        t.folioBytes s.cur popFolio = folioImage (w.kinds.getD k.2.kind 0) k.2.arg k.2.pri 0xB ∧
        (∃ p, t.me.next = some p ∧ p.handle = folioHandle s.cur popFolio ∧ p.pri = k.2.pri ∧ p.holds = [(wid, w.bucket k.2)]) ∧
        ∃ x, t.wl? wid = some x ∧ x.taken = w.taken + 1) ∧
    (∃ t, exec (.wlLow d q) s = .next t ∧ OnlyW s t d ∧ WentOn s t ∧
      t.w d = match w.view s.myQuire with | some v => BitVec.ofNat 64 v | none => BitVec.allOnes 64) ∧
    (hasV h = true → kettleOk h = true → w.regs.length < 4 →
      ∃ t x, exec (.wlDone q a) s = .next t ∧ WentOn s t ∧ SameW s t ∧ t.wl? wid = some x ∧ x.regs = w.regs ++ [h] ∧
        x.last = none ∧ x.slots = w.slots ∧ x.status = w.status) ∧
    (hasV h = false → w.status = 1 → ∃ t, exec (.wlDone q a) s = .next t ∧ WentOn s t ∧ t.wl? wid = none)

/-- R165 to R167: `donate` appends its entry to a queue that is homed here, at TAIL, and moves TAIL; `claim` finds an empty
queue empty, and of another takes the entry at HEAD into its target worklist and moves HEAD. -/
def Claims.DonationQueues : Prop :=
  ∀ (s s1 u v : State) (d q a : Reg) (o pa bd slot sb : Nat) (ds : Desc), s.ctx = 0 → s.csr.ph = false → s.issue.stay = false →
    NothingPending s → s.memWf → s.myCtx.remote = none → s.myCtx.posted = none → s.myCtx.got = [] →
    (∀ q, (s.quire q).lines = [] ∧ (s.quire q).slices = [] ∧ (s.quire q).forwards = []) →
    ds.sizeOk = true → ds.base.toNat % 16 = 0 →
    (OwnBytes s (s.w a) 16 16 o → checkAccess (s.w q) 8 .store s = .ok (.hbm pa bd, s1) →
      readDesc (s.w q) s1 = .ok ((.hbm pa bd, ds), u) → ds.full = false →
      ringPlace (.hbm pa bd) (ds.slot ds.tail) u = .ok ((slot, sb), v) → homeFree [(slot, sb, 16), (pa, bd, 64)] v = .ok ((), v) → slot + 16 ≤ pa ∨ pa + 64 ≤ slot →
      ∃ t, exec (.donate q a) s = .next t ∧ WentOn s t ∧ SameW s t ∧
        (∀ i, i < 16 → t.byteAt (.hbm (slot + i) sb) = (s.ownBytes o 16).getD i 0) ∧
        ∀ i, i < 8 → t.byteAt (.hbm (pa + 8 + i) bd) = (toBytes 8 (ds.tail + 1)).getD i 0) ∧
    (readDesc (s.w q) s = .ok ((.hbm pa bd, ds), u) → ds.empty = true →
      ∃ t, exec (.claim d q) s = .next t ∧ t.w d = 0 ∧ OnlyW s t d ∧ WentOn s t ∧ t.hbm = s.hbm) ∧
    (∀ wid x y z w eb, readDesc (s.w q) s = .ok ((.hbm pa bd, ds), u) → ds.empty = false →
      ringPlace (.hbm pa bd) (ds.slot ds.head) u = .ok ((slot, sb), v) → worklist ds.target v = .ok (wid, x) →
      homeFree [(pa, bd, 64)] x = .ok ((), x) →
      readHome (ds.slot ds.head) slot sb 16 x = .ok (eb, y) → y.wl? wid = some w →
      let e := Entry.ofBytes eb
      e.kind < w.kinds.length → y.wlEnter wid y.myQuire e = some z →
      (∀ r, r ∈ y.service → ∃ b, w.view r = some b ∧ b ≤ w.bucket e) →
      (∀ q, (z.quire q).lines = [] ∧ (z.quire q).slices = []) →
      ∃ t k, exec (.claim d q) s = .next t ∧ t.w d = 1 ∧ OnlyW s t d ∧ WentOn s t ∧
        t.wl? wid = some k ∧ k.pushed = w.pushed + 1 ∧ k.dclaim = w.dclaim + 1 ∧
        ∀ i, i < 8 → t.byteAt (.hbm (pa + i) bd) = (toBytes 8 (ds.head + 1)).getD i 0)

/-- R146: `tfan` sends one launch for each quire of its domain, to all its cores; a launch that reaches a core stands on its
ready list with its folio, and goes on to the rest. -/
def Claims.LaunchTrees : Prop :=
  ∀ (s : State) (a b : Reg), s.memWf → s.me.sb = [] → s.me.peers = [] → s.forwardsHeld s.myQuire = false →
    let fan (i : Instr) (l : Level) (sc : Scope) : Prop := (s.w a).getLsbD 0 = false →
      ∃ t, exec i s = .next t ∧ WentOn s t ∧ SameW s t ∧
        t.tree = s.tree ++ (s.treeQuires l).map fun q => ⟨q * 96, q * 96 + 96, s.w a, s.w b, sc⟩
    let n := s.turn.core
    (CtlReady s 0 → fan (.tfanDie a b) .dev .dev ∧ fan (.tfanQuire a b) .die .die ∧ fan (.tfanCore a b) .quire .quire) ∧
    (∀ m, s.tree = [m] → m.lo ≤ n → n < m.hi → (s.core n).ready = [] → (s.core n).bad = [] → s.granules = [] →
      s.watches = [] →
      ∃ t, exec .launchTreeDelivery s = .next t ∧ t.folioBytes n launchFolio = folioImage m.pc m.arg 0 3 ∧
        (∃ p, (t.core n).ready = [p] ∧ p.launch = true ∧ p.handle = folioHandle n launchFolio ∧ p.acq = some m.acq) ∧
        t.tree = [{ m with hi := n }, { m with lo := n + 1 }].filter fun x => x.lo < x.hi)

/-- R168: `cinc` adds to one routing counter of its quire, and the snapshots store all 64 and clear them where they say so. -/
def Claims.RoutingCounters : Prop :=
  ∀ (s : State) (a b : Reg) (o : Nat), s.me.sb = [] →
    let k := (s.w a).toNat
    let cs := (s.quire s.myQuire).counters
    let snap (t : State) : Prop := WentOn s t ∧ SameW s t ∧
      t.me.sb = [⟨s.ctx, [⟨.spad s.cur o, localAddr o, .dflt, storeBytes (cs.toList.flatMap fun c => toBytes 8 c.toNat)⟩]⟩]
    (s.csr.ph = false → s.issue.stay = false →
      (∀ h : k < 64, ∃ t, exec (.cinc a b) s = .next t ∧ WentOn s t ∧ RegistersSame s t ∧
        (t.quire s.myQuire).counters = cs.set k (cs[k] + s.w b)) ∧
      (OwnBytes s (s.w a) 512 8 o → ∃ t, exec (.csnap a) s = .next t ∧ snap t ∧ (t.quire s.myQuire).counters = cs) ∧
      (OwnBytes s (s.w a) 512 8 o → ∃ t, exec (.csnapClr a) s = .next t ∧ snap t ∧
        ∀ i : Fin 64, (t.quire s.myQuire).counters[i] = 0))

/-! ### Atomics, fences, sleeping and barriers -/

/-- R181 and Table 7.2: each integer `amo` on a double or a word of the own scratchpad, whatever its ordering and scope,
replaces the old value as its row says and returns the old value. -/
def Obligations.AtomicIntegerOperations : Prop :=
  ∀ (s : State) (ord : Ord) (sc : Scope) (d a b : Reg) (o : Nat),
    let r (n : Nat) : List Byte := Memory.read s.me.spad o n
    let x := BitVec.ofNat 64 (ofBytes (r 8))
    let y := s.w b
    let x4 := BitVec.ofNat 32 (ofBytes (r 4))
    let y4 := BitVec.ofNat 32 (s.w b).toNat
    let d8 (i : Cell → Instr) (new : Option Word) : Prop :=
      AmoDone (i .double) s d o 8 (new.map fun z => toBytes 8 z.toNat) x
    let d4 (i : Cell → Instr) (new : Option W32) (signed : Bool) : Prop :=
      AmoDone (i .word) s d o 4 (new.map fun z => toBytes 4 z.toNat)
        (if signed then BitVec.ofInt 64 x4.toInt else BitVec.ofNat 64 x4.toNat)
    (AtomicReady s (s.w a) 8 o →
      d8 (.amoAdd · ord sc d a b) (some (x + y)) ∧ d8 (.amoAnd · ord sc d a b) (some (x &&& y)) ∧
      d8 (.amoOr · ord sc d a b) (some (x ||| y)) ∧ d8 (.amoXor · ord sc d a b) (some (x ^^^ y)) ∧
      d8 (.amoMin · ord sc d a b) (some (if x.toInt ≤ y.toInt then x else y)) ∧
      d8 (.amoMax · ord sc d a b) (some (if x.toInt ≤ y.toInt then y else x)) ∧
      d8 (.amoMinn · ord sc d a b) (some (if x.toNat ≤ y.toNat then x else y)) ∧
      d8 (.amoMaxn · ord sc d a b) (some (if x.toNat ≤ y.toNat then y else x)) ∧
      d8 (.amoSwap · ord sc d a b) (some y) ∧
      d8 (.amoCas · ord sc d a b) (if x = s.w d then some y else none)) ∧
    (AtomicReady s (s.w a) 4 o →
      d4 (.amoAdd · ord sc d a b) (some (x4 + y4)) true ∧ d4 (.amoAnd · ord sc d a b) (some (x4 &&& y4)) true ∧
      d4 (.amoOr · ord sc d a b) (some (x4 ||| y4)) true ∧ d4 (.amoXor · ord sc d a b) (some (x4 ^^^ y4)) true ∧
      d4 (.amoMin · ord sc d a b) (some (if x4.toInt ≤ y4.toInt then x4 else y4)) true ∧
      d4 (.amoMax · ord sc d a b) (some (if x4.toInt ≤ y4.toInt then y4 else x4)) true ∧
      d4 (.amoMinn · ord sc d a b) (some (if x4.toNat ≤ y4.toNat then x4 else y4)) false ∧
      d4 (.amoMaxn · ord sc d a b) (some (if x4.toNat ≤ y4.toNat then y4 else x4)) false ∧
      d4 (.amoSwap · ord sc d a b) (some y4) true ∧
      d4 (.amoCas · ord sc d a b) (if x4 = BitVec.ofNat 32 (s.w d).toNat then some y4 else none) true)

/-- R102, R182, R185 and R186: `amo.fadd` adds by the FP32 addition of the model's float operations and `amo.xadd` adds a
contribution to a cell; `lr` reads and takes the granule's reservation; `sc` stores and gives 0 while the context holds
that reservation, and gives 3 without one; neither leaves a reservation behind. Where it rests on a choice of the model:
log 78, log 82. -/
def Obligations.AtomicFloatsAndReservations : Prop :=
  ∀ (s : State) (ord : Ord) (sc : Scope) (d a b : Reg) (o : Nat),
    let va := s.w a
    let r (n : Nat) : List Byte := Memory.read s.me.spad o n
    let q := (BitVec.ofNat 128 (ofBytes (r 16))).toInt
    let sum := (cellAdd q (cellContribution (BitVec.ofNat 32 (s.w b).toNat)).1).1
    let held (wide : Bool) : Prop := s.myCtx.resv = some ⟨.spad s.cur o, va, wide, .held⟩ ∧
      s.granules = [⟨.spad s.cur (o / 16 * 16), some (s.agent, true), []⟩]
    let stored (i : Instr) (n : Nat) : Prop := ∃ t, exec i s = .next t ∧ t.w d = 0 ∧ OnlyW s t d ∧ WentOn s t ∧
      t.myCtx.resv = none ∧ t.granules = [] ∧ Memory.read t.me.spad o n = toBytes n ((s.w b).toNat % 256 ^ n)
    let failed (i : Instr) : Prop := ∃ t, exec i s = .next t ∧ t.w d = 3 ∧ OnlyW s t d ∧ WentOn s t ∧
      t.myCtx.resv = none ∧ t.me.spad = s.me.spad
    let loaded (i : Instr) (wide : Bool) (x : Word) : Prop := ∃ t, exec i s = .next t ∧ t.w d = x ∧ OnlyW s t d ∧
      WentOn s t ∧ t.myCtx.resv = some ⟨.spad s.cur o, va, wide, .held⟩ ∧ t.me.spad = s.me.spad ∧
      t.granules = [⟨.spad s.cur (o / 16 * 16), some (s.agent, true), []⟩]
    (AtomicReady s va 4 o → AmoDone (.amoFadd ord sc d a b) s d o 4
      (some (toBytes 4 (addFp32 (BitVec.ofNat 32 (ofBytes (r 4))) (BitVec.ofNat 32 (s.w b).toNat)).1.toNat))
      (BitVec.ofNat 64 (ofBytes (r 4)))) ∧
    (AtomicReady s va 16 o → AmoDone (.amoXadd ord sc d a b) s d o 16
      (some (toBytes 16 (BitVec.ofInt 128 sum).toNat)) ((cellFp32 q).zeroExtend 64)) ∧
    (AtomicReady s va 8 o → loaded (.lrD ord sc d a) true (BitVec.ofNat 64 (ofBytes (r 8))) ∧
      (s.myCtx.resv = none → failed (.scD ord sc d a b))) ∧
    (AtomicReady s va 4 o → loaded (.lrW ord sc d a) false (BitVec.ofInt 64 (BitVec.ofNat 32 (ofBytes (r 4))).toInt) ∧
      (s.myCtx.resv = none → failed (.scW ord sc d a b))) ∧
    (AtomicReady { s with granules := [] } va 8 o → held true → stored (.scD ord sc d a b) 8) ∧
    (AtomicReady { s with granules := [] } va 4 o → held false → stored (.scW ord sc d a b) 4)

/-- R173 and R175: without waiting stores and peers the fences complete, their status word is 0; a release of die scope or
wider leaves no dirty line in the quire, and an acquire leaves only dirty and leased lines, which serve leases and
their own written bytes only. Where it rests on a choice of the model: log 54, log 77. -/
def Obligations.FencesReleaseAndAcquire : Prop :=
  ∀ (s : State) (st : Option Reg) (sc : Scope), s.csr.ph = false → s.issue.stay = false → s.me.sb = [] → s.me.peers = [] →
    s.myCtx.hand = none → s.forwardsHeld s.myQuire = false →
    let lines (t : State) : List Line := (t.quire s.myQuire).lines
    let done (t : State) : Prop := WentOn s t ∧
      match st with | some d => t.w d = 0 ∧ OnlyW s t d | none => SameW s t
    let wide : Prop := sc = .die ∨ sc = .dev ∨ sc = .sys
    (∃ t, exec (.fence st sc) s = .next t ∧ done t ∧ (wide → ∀ l, l ∈ lines t → l.dirty = false ∧ l.leaseOnly = true)) ∧
    (∃ t, exec (.fenceAcq st sc) s = .next t ∧ done t ∧ t.hbm = s.hbm ∧
      (wide → ∀ l, l ∈ lines t → l.leaseOnly = true ∧ (l.dirty = true ∨ s.leased s.myQuire l = true))) ∧
    (∃ t, exec (.fenceRel st sc) s = .next t ∧ done t ∧ (wide → ∀ l, l ∈ lines t → l.dirty = false))

/-- R187 and R188: `wrs` goes on without a reservation, and with one registers a watch and sleeps; `waitaddr` goes on when
the double reads the value, and else sleeps on its granule. -/
def Claims.SleepingOnMemory : Prop :=
  ∀ (s : State) (a b : Reg) (o : Nat), AtomicReady s (s.w a) 8 o →
    let g : Place := .spad s.cur (o / 16 * 16)
    let x := wordOf (Memory.read s.me.spad o 8)
    let sleeps (t : State) (any : Bool) : Prop := t.myCtx.watch = some (g, any) ∧ t.myCtx.waiting = true ∧
      t.myCtx.pc = s.myCtx.pc ∧ t.watches = [⟨g, s.agent, any⟩] ∧ SameW s t
    (s.myCtx.resv = none → ∃ t, exec .wrs s = .next t ∧ WentOn s t ∧ RegistersSame s t) ∧
    (s.myCtx.resv = some ⟨.spad s.cur o, s.w a, true, .held⟩ → ∃ t, exec .wrs s = .next t ∧ sleeps t false) ∧
    (x = s.w b → ∃ t, exec (.waitaddr a b) s = .next t ∧ WentOn s t ∧ RegistersSame s t) ∧
    (x ≠ s.w b → ∃ t, exec (.waitaddr a b) s = .next t ∧ sleeps t true)

/-- R22 and R189 to R192: a `bar` of a level that the core is no member of completes as a fence; a member's first one counts
its arrival and waits, and one that the completed barrier has let go completes; the barrier completes when every member
has arrived that was not reset while it was open (17, R446), the one that spans devices with the release from the tree; a lost
member device is no longer counted at the system barrier, whose members then leave with its number. Where it rests on a
choice of the model: log 45, log 91. -/
def Obligations.DomainBarriers : Prop :=
  ∀ (s : State) (i : Instr) (l : Level), (i, l) ∈ [(Instr.barQuire, Level.quire), (.barDie, .die), (.barDev, .dev), (.barSys, .sys)] →
    let dom := domainOf s.cur l
    let ready := CtlReady s 0 ∧ s.me.sb = [] ∧ s.me.peers = [] ∧ s.myCtx.hand = none ∧ s.me.preempt = none ∧ s.mgmt.holdBars = false ∧
      s.forwardsHeld s.myQuire = false
    (ready → s.me.barPass = none → s.me.barWait = none → s.csr.member l = false →
      ∃ t, exec i s = .next t ∧ WentOn s t ∧ SameW s t ∧ t.episodes = s.episodes) ∧
    (ready → s.me.barPass = none → s.me.barWait = none → s.csr.member l = true →
      (∀ e, s.episode l dom = some e → s.cur ∉ e.out) →
      ∃ t, exec i s = .next t ∧ t.myCtx.waiting = true ∧ t.myCtx.pc = s.myCtx.pc ∧ SameW s t ∧
        t.me.barWait = some l ∧ ∃ e, t.episode l dom = some e ∧ s.cur ∈ e.arrived) ∧
    (ready → s.me.barPass = some (l, none) → ∃ t, exec i s = .next t ∧ WentOn s t ∧ SameW s t ∧ t.me.barPass = none ∧
      t.me.barWait = none) ∧
    (∀ e rest, s.turn.index = 0 → s.episodes = e :: rest → (∀ c, c ∈ s.members e.level e.domain → c ∈ e.arrived ∨ c ∈ e.out) →
      e.level ≠ .sys ∨ e.alone = true ∨ e.released = true →
      ∃ t, exec .barrierRelease s = .next t ∧ t.episode e.level e.domain = none ∧
        ∀ c, c ∈ e.arrived → (t.core c).barPass = some (e.level, if e.lost then s.lost.head? else none)) ∧
    (∀ e, s.episode .sys 0 = some e → e.alone = false → e.arrived ≠ [] → s.turn.index ∈ s.lost →
      ∃ t x, exec .barrierMemberLost s = .next t ∧ t.cores = s.cores ∧ t.episode .sys 0 = some x ∧ x.lost = true ∧
        x.arrived = e.arrived) ∧
    (s.turn.index ∉ s.lost → exec .barrierMemberLost s = .next s)

/-- R177, R178, R181, R187 and R188: the steps of banks and sleepers: a request joins its granule's queue; the head of the
queue of a free granule comes to hold it; a bank takes an `lr` reservation back; the holder of a queued `amo` writes back
and releases; a woken sleeper goes on. -/
def Claims.BankAndSleeperSteps : Prop :=
  ∀ (s : State) (g : Granule) (b : Agent) (isLr : Bool) (c o : Nat),
    let a : Agent := ⟨s.turn.core, s.turn.ctx⟩
    let k := s.context a
    let p : Place := .spad c (o / 16 * 16)
    let awake (i : Instr) : Prop := ∃ t, exec i s = .next t ∧ (t.context a).watch = none ∧ (t.context a).woken = false ∧
      (t.context a).pc = k.pc ∧ ∀ w, w ∈ t.watches → w.agent ≠ a
    (k.queued = some (p, isLr) → s.granules = [] →
      ∃ t, exec .reservationRequest s = .next t ∧ t.granules = [⟨p, none, [.request a isLr]⟩]) ∧
    (s.turn.index = 0 → s.granules = [g] → g = ⟨p, none, [.request b isLr]⟩ → s.owned p 16 = false →
      ∃ t, exec .reservationGrant s = .next t ∧ t.granules = [⟨p, some (b, isLr), []⟩] ∧ (t.context b).queued = none ∧
        (t.context b).granted = some p) ∧
    (s.turn.index = 0 → s.granules = [g] → g.holder = some (b, true) → (s.context b).granted ≠ some g.place →
      ∃ t, exec .reservationRevoke s = .next t ∧ (∀ x, x ∈ t.granules → x.holder = none) ∧
        ∀ r, (t.context b).resv = some r → r.state = .revoked) ∧
    (∀ bs old, k.amo = some (.computed (.spad c o) bs old) → bs ≠ [] → s.memWf → s.watches = [] →
      s.granules = [⟨p, some (a, false), []⟩] →
      ∃ t, exec .reservationWriteBack s = .next t ∧ Memory.read (t.core c).spad o bs.length = bs ∧ t.granules = [] ∧
        (t.context a).amo = some (.written old)) ∧
    (s.wrsWoken a = true → awake .wrsWake) ∧ (k.waitWoken = true → awake .waitaddrRead) ∧
    (k.polls = true → awake .waitaddrRemotePoll)

/-! ### Page 2: vectors of integers -/

/-- R195, R196 and R198: each active lane of vd takes the value of Table 8.2, modulo 2^v or clamped to the type's range with
OF raised where an active lane was clamped; every other lane, register and flag is unchanged. -/
def Claims.VectorIntegerLanes : Prop :=
  ∀ (s : State) (t : IntTy) (d a b : VReg) (m : MReg), s.ctx = 0 → s.issue.stay = false →
    let v := t.bits
    let xu (i : Nat) : Nat := lane (s.v a) t.lane i % 2 ^ v
    let yu (i : Nat) : Nat := lane (s.v b) t.lane i % 2 ^ v
    let num (u : Nat) : Int := if t.signed = true ∧ 2 ^ (v - 1) ≤ u then (u : Int) - 2 ^ v else u
    let x (i : Nat) : Int := num (xu i)
    let y (i : Nat) : Int := num (yu i)
    let z (i : Nat) : Int := num (lane (s.v d) t.lane i % 2 ^ v)
    let lo : Int := if t.signed then -(2 ^ (v - 1)) else 0
    let hi : Int := if t.signed then 2 ^ (v - 1) - 1 else 2 ^ v - 1
    let wraps (op : Instr) (f : Nat → Int) : Prop := VectorDone op s d m t.lane fun i => ((f i % 2 ^ v).toNat, 0)
    let clamps (op : Instr) (f : Nat → Int) : Prop := VectorDone op s d m t.lane fun i =>
      ((max lo (min hi (f i)) % 2 ^ v).toNat, if lo ≤ f i ∧ f i ≤ hi then 0 else flagOF)
    wraps (.vadd t d a b m) (fun i => x i + y i) ∧ wraps (.vsub t d a b m) (fun i => x i - y i) ∧
    wraps (.vmul t d a b m) (fun i => x i * y i) ∧ wraps (.vmulh t d a b m) (fun i => x i * y i / 2 ^ v) ∧
    wraps (.vmin t d a b m) (fun i => min (x i) (y i)) ∧ wraps (.vmax t d a b m) (fun i => max (x i) (y i)) ∧
    wraps (.vmac t d a b m) (fun i => z i + x i * y i) ∧ clamps (.vmacs t d a b m) (fun i => z i + x i * y i) ∧
    clamps (.vadds t d a b m) (fun i => x i + y i) ∧ clamps (.vsubs t d a b m) (fun i => x i - y i) ∧
    (t.signed = true → clamps (.vabs t d b m) (fun i => ((y i).natAbs : Int)) ∧ clamps (.vneg t d b m) (fun i => -y i)) ∧
    (t.signed = false → exec (.vabs t d b m) s = .next (s.deliver (.trap 0x01 s.issue.wordPc)) ∧
      exec (.vneg t d b m) s = .next (s.deliver (.trap 0x01 s.issue.wordPc)))

/-- R195, R196 and R198: the shift, logic, move and counting forms of Table 8.2 on the value bits of each active lane. -/
def Claims.VectorLogicShiftsAndCounts : Prop :=
  ∀ (s : State) (t : IntTy) (d a b : VReg) (m : MReg), s.ctx = 0 → s.issue.stay = false →
    let v := t.bits
    let x (i : Nat) : Nat := lane (s.v a) t.lane i % 2 ^ v
    let y (i : Nat) : Nat := lane (s.v b) t.lane i % 2 ^ v
    let fill (u : Nat) : Int := if 2 ^ (v - 1) ≤ u then (u : Int) - 2 ^ v else u
    let gives (op : Instr) (f : Nat → Nat) : Prop := VectorDone op s d m t.lane fun i => (f i, 0)
    gives (.vshl t d a b m) (fun i => x i * 2 ^ (y i % v) % 2 ^ v) ∧
    gives (.vshr t d a b m) (fun i => x i / 2 ^ (y i % v)) ∧
    gives (.vsra t d a b m) (fun i => (fill (x i) / 2 ^ (y i % v) % 2 ^ v).toNat) ∧
    gives (.vrotl t d a b m) (fun i => (x i * 2 ^ (y i % v) + x i / 2 ^ (v - y i % v)) % 2 ^ v) ∧
    gives (.vand t d a b m) (fun i => x i &&& y i) ∧ gives (.vor t d a b m) (fun i => x i ||| y i) ∧
    gives (.vxor t d a b m) (fun i => x i ^^^ y i) ∧ gives (.vandn t d a b m) (fun i => x i ^^^ (x i &&& y i)) ∧
    gives (.vnot t d b m) (fun i => 2 ^ v - 1 - y i) ∧ gives (.vmov t d b m) y ∧
    gives (.vpop t d b m) (fun i => (List.range v).countP fun j => (y i).testBit j) ∧
    (∃ f, gives (.vclz t d b m) f ∧ ∀ i, f i ≤ v ∧ y i < 2 ^ (v - f i) ∧ (f i < v → 2 ^ (v - 1 - f i) ≤ y i)) ∧
    (∃ f, gives (.vctz t d b m) f ∧ ∀ i, f i ≤ v ∧ y i % 2 ^ f i = 0 ∧ (f i < v → (y i).testBit (f i) = true)) ∧
    ∃ f, gives (.vffs t d b m) f ∧ ∀ i, f i ≤ v ∧ (f i = 0 ↔ y i = 0) ∧
      (0 < f i → y i % 2 ^ (f i - 1) = 0 ∧ (y i).testBit (f i - 1) = true)

/-- R199: the movement forms of Table 8.3; a lane number or a slide that is too large is trap 0x01. Where it rests on a
choice of the model: log 11 (the `tval` of a trap 0x01 whose rule states none). -/
def Obligations.VectorLaneMovement : Prop :=
  ∀ (s : State) (t : IntTy) (d a b : VReg) (r : Reg) (z m : MReg) (k : BitVec 11), s.ctx = 0 → s.issue.stay = false →
    let v := t.bits
    let n := 1024 / t.lane
    let at' (q : VReg) (i : Nat) : Nat := lane (s.v q) t.lane i % 2 ^ v
    let sh := k.toInt
    let gives (op : Instr) (m : MReg) (f : Nat → Nat) : Prop := VectorDone op s d m t.lane fun i => (f i, 0)
    let traps (op : Instr) : Prop := exec op s = .next (s.deliver (.trap 0x01 s.issue.wordPc))
    gives (.vbcast t d r m) m (fun _ => (s.w r).toNat % 2 ^ v) ∧
    gives (.vsel t d a b z m) m (fun i => if (s.m z).getLsbD (i * t.lane / 4) then at' a i else at' b i) ∧
    gives (.vperm t d a b m) m (fun i => if at' b i < n then at' a (at' b i) else 0) ∧
    (k.toNat < n → Computes (.vext t r b k) s r
      (if t.signed then BitVec.ofInt 64 (Int.bmod (at' b k.toNat) (2 ^ v)) else BitVec.ofNat 64 (at' b k.toNat))) ∧
    (k.toNat < n → gives (.vins t d r k) 0
      (fun i => if i = k.toNat then (s.w r).toNat % 2 ^ v else lane (s.v d) t.lane i)) ∧
    (n ≤ k.toNat → traps (.vext t r b k) ∧ traps (.vins t d r k)) ∧
    (sh.natAbs ≤ n → gives (.vslide t d a b k m) m (fun i =>
      let j := (i : Int) + sh
      if 0 ≤ sh then if j < n then at' a j.toNat else at' b (j - n).toNat
      else if 0 ≤ j then at' a j.toNat else at' b (n + j).toNat)) ∧
    (n < sh.natAbs → traps (.vslide t d a b k m))

/-- R200: the reductions and the prefix sum over the active lanes; an inactive lane counts as the identity. -/
def Claims.VectorReductionsAndScan : Prop :=
  ∀ (s : State) (t : IntTy) (d : Reg) (e b : VReg) (m : MReg), s.ctx = 0 → s.issue.stay = false →
    let v := t.bits
    let n := 1024 / t.lane
    let u (i : Nat) : Nat := lane (s.v b) t.lane i % 2 ^ v
    let x (i : Nat) : Int := if t.signed = true ∧ 2 ^ (v - 1) ≤ u i then (u i : Int) - 2 ^ v else u i
    let least : Int := if t.signed then -(2 ^ (v - 1)) else 0
    let most : Int := if t.signed then 2 ^ (v - 1) - 1 else 2 ^ v - 1
    let on (i : Nat) : Bool := active s m t.lane i
    let sum (k : Nat) : Int := ((List.range k).map fun i => if on i then x i else 0).sum
    Computes (.vredsum t d b m) s d (BitVec.ofInt 64 (sum n)) ∧
    (∃ r : Int, Computes (.vredmin t d b m) s d (BitVec.ofInt 64 r) ∧ r ≤ most ∧
      (∀ i, i < n → on i = true → r ≤ x i) ∧ (r = most ∨ ∃ i, i < n ∧ on i = true ∧ r = x i)) ∧
    (∃ r : Int, Computes (.vredmax t d b m) s d (BitVec.ofInt 64 r) ∧ least ≤ r ∧
      (∀ i, i < n → on i = true → x i ≤ r) ∧ (r = least ∨ ∃ i, i < n ∧ on i = true ∧ r = x i)) ∧
    VectorDone (.vscan t e b m) s e m t.lane (fun i => ((sum (i + 1) % 2 ^ v).toNat, 0))

/-- R201 and R202: comparisons set every mask bit of each active lane; the mask forms act on all 256 bits, and `mpop`
and `mffs` count and find governing bits. -/
def Claims.VectorComparisonsAndMasks : Prop :=
  ∀ (s : State) (t : IntTy) (q : Reg) (d ma mb m : MReg) (a b : VReg), s.ctx = 0 → s.issue.stay = false →
    let v := t.bits
    let n := 1024 / t.lane
    let num (u : Nat) : Int := if t.signed = true ∧ 2 ^ (v - 1) ≤ u then (u : Int) - 2 ^ v else u
    let x (i : Nat) : Int := num (lane (s.v a) t.lane i % 2 ^ v)
    let y (i : Nat) : Int := num (lane (s.v b) t.lane i % 2 ^ v)
    let bits (op : Instr) (z : MaskReg) : Prop := ∃ u, exec op s = .next u ∧ u.m d = z ∧ (∀ r, r ≠ d → u.m r = s.m r) ∧
      u.me.v = s.me.v ∧ u.csr = s.csr ∧ SameW s u ∧ WentOn s u ∧ OnlyVector s u
    let g (i : Nat) : Bool := (s.m mb).getLsbD (i * t.lane / 4)
    MaskDone (.vcmpEq t d a b m) s d m t.lane (fun i => x i = y i) ∧
    MaskDone (.vcmpNe t d a b m) s d m t.lane (fun i => x i ≠ y i) ∧
    MaskDone (.vcmpLt t d a b m) s d m t.lane (fun i => x i < y i) ∧
    MaskDone (.vcmpGe t d a b m) s d m t.lane (fun i => y i ≤ x i) ∧
    bits (.mand d ma mb) (s.m ma &&& s.m mb) ∧ bits (.mor d ma mb) (s.m ma ||| s.m mb) ∧
    bits (.mxor d ma mb) (s.m ma ^^^ s.m mb) ∧ bits (.mandn d ma mb) (s.m ma &&& ~~~s.m mb) ∧
    bits (.mnot d mb) (~~~s.m mb) ∧ bits (.mmov d mb) (s.m mb) ∧
    Computes (.mpop t q mb) s q (BitVec.ofNat 64 ((List.range n).countP g)) ∧
    ∃ r : Nat, Computes (.mffs t q mb) s q (BitVec.ofNat 64 r) ∧ r ≤ n ∧ (∀ i, i + 1 < r → g i = false) ∧
      (r = 0 → ∀ i, i < n → g i = false) ∧ (0 < r → g (r - 1) = true)

/-- R214 and R218: `vld` gives each active lane its bits of the 128 bytes as the core reads them, and `vst` changes the bits
of active lanes only, in one entry of the store buffer; an unmasked access that is not aligned to 128 is trap 0x03. -/
def Claims.VectorLoadsAndStores : Prop :=
  ∀ (s : State) (t : IntTy) (v : VReg) (a : Reg) (off : BitVec 11) (m : MReg) (o : Nat), s.ctx = 0 → s.issue.stay = false →
    let va := s.w a + BitVec.ofInt 64 (off.toInt * 128)
    let w := t.lane
    let image (u : State) : VecReg := BitVec.ofNat 1024 (ofBytes (u.ownBytes o 128))
    (OwnBytes s va 128 128 o →
      VectorDone (.vld t v a off m) s v m w (fun i => (lane (image s) w i % 2 ^ t.bits, 0)) ∧
      ∃ u, exec (.vst t v a off m) s = .next u ∧
        LanesWritten s (image s) (image u) m w (fun i => lane (s.v v) w i % 2 ^ t.bits) ∧
        (∀ p, (∀ i, i < 128 → p ≠ .spad s.cur (o + i)) → u.seen s.cur p = s.seen s.cur p) ∧
        ((∃ i, i < 1024 / w ∧ Active s m w i) → u.me.sb.length = s.me.sb.length + 1) ∧
        SameBytes s u ∧ SameW s u ∧ WentOn s u ∧
        u = (s.onMe fun c => { c with sb := u.me.sb }).onMyCtx fun _ => u.myCtx) ∧
    (∀ x, s.csr.ph = false → regionOf va = .loc 0 0 x → va.toNat % 128 ≠ 0 →
      exec (.vld t v a off 0) s = .next (s.deliver (.trap 0x03 va)) ∧
      exec (.vst t v a off 0) s = .next (s.deliver (.trap 0x03 va)))

/-- R216 and R218: a gather of raw elements reads each active lane at wa plus its index times the lane's bytes, and a
scatter stores each active lane there, one store per lane in increasing lane order; 4-bit types are trap 0x01. -/
def Claims.VectorGatherAndScatter : Prop :=
  ∀ (s : State) (t : IntTy) (v x : VReg) (a : Reg) (m : MReg) (o : Nat → Nat), s.ctx = 0 → s.issue.stay = false →
    s.grain = none → s.myCtx.got = [] →
    let w := t.lane
    let n := w / 8
    let u (i : Nat) : Nat := lane (s.v x) w i % 2 ^ t.bits
    let idx (i : Nat) : Int := if t.signed = true ∧ 2 ^ (t.bits - 1) ≤ u i then (u i : Int) - 2 ^ t.bits else u i
    let at' (i : Nat) : Word := s.w a + BitVec.ofInt 64 (idx i * n)
    (w = 4 → exec (.vldx t v a x m) s = .next (s.deliver (.trap 0x01 s.issue.wordPc)) ∧
      exec (.vstx t v a x m) s = .next (s.deliver (.trap 0x01 s.issue.wordPc))) ∧
    (8 ≤ w → (∃ base, base < 0x40000 ∧ s.w a = localAddr base) →
      (∀ i, i < 1024 / w → Active s m w i → OwnBytes s (at' i) n n (o i)) →
      VectorDone (.vldx t v a x m) s v m w (fun i => (ofBytes (s.ownBytes (o i) n) % 2 ^ t.bits, 0)) ∧
      ∃ z, exec (.vstx t v a x m) s = .next z ∧ SameBytes s z ∧ SameW s z ∧ WentOn s z ∧
        z = (s.onMe fun c => { c with sb := z.me.sb }).onMyCtx (fun _ => z.myCtx) ∧
        z.me.sb = s.me.sb ++ ((List.range (1024 / w)).filter fun i => active s m w i).map fun i =>
          ⟨s.ctx, [⟨.spad s.cur (o i), at' i, .dflt, storeBytes (toBytes n (lane (s.v v) w i % 2 ^ t.bits))⟩]⟩)

/-- R130, R131 and R129: a packed block of the own scratchpad moves as Table 5.9 gives, also across a 64-byte boundary; a
block that is not aligned to 4 is trap 0x03; `pref` raises no fault and changes no register; `cflush` waits for no other
store and has every kept instruction word of its line dropped at the next control transfer. Where it rests on a choice of
the model: log 19. -/
def Obligations.PackedBlocksAndHints : Prop :=
  ∀ (s : State) (f : Block) (d b : Reg) (off : BitVec 11) (req : Request) (o : Nat), s.issue.stay = false →
    let n : Nat := match f with | .c4 => 8 | .c6 => 12 | .c8 => 16
    let va := s.w b + BitVec.ofInt 64 (off.toInt * n)
    let bs := s.ownBytes o n
    let h := s.w b + off.signExtend 64
    (OwnBytes s va n 4 o → (f ≠ .c4 → d.val % 2 = 0) →
      (∃ t, exec (.ldpk f d b off req) s = .next t ∧ t.w d = BitVec.ofNat 64 (ofBytes (bs.take 8)) ∧
        (f ≠ .c4 → t.w (d + 1) = BitVec.ofNat 64 (ofBytes (bs.drop 8))) ∧
        (∀ r, r ≠ d → (f ≠ .c4 → r ≠ d + 1) → t.w r = s.w r) ∧ WentOn s t ∧ OnlyMyCtx s t) ∧
      ∃ t, exec (.stpk f d b off req) s = .next t ∧
        OwnStored s t o ((toBytes 8 (s.w d).toNat ++ toBytes 8 (s.w (d + 1)).toNat).take n)) ∧
    (∀ x, s.csr.ph = false → regionOf va = .loc 0 0 x → va.toNat % 4 ≠ 0 →
      exec (.ldpk f d b off req) s = .next (s.deliver (.trap 0x03 va)) ∧
      exec (.stpk f d b off req) s = .next (s.deliver (.trap 0x03 va))) ∧
    (s.csr.ph = false → ∃ t, exec (.pref b off) s = .next t ∧ WentOn s t ∧ SameW s t ∧ t.csr = s.csr ∧
      (∀ win slot x, regionOf h = .loc win slot x → OnlyMyCtx s t)) ∧
    (OwnBytes s h 1 1 o → sbTouches s.me.sb (.spad s.cur (o / 64 * 64)) 64 = false →
      ∃ t, exec (.cflush b off) s = .next t ∧ WentOn s t ∧ RegistersSame s t ∧ t.csr = s.csr ∧
        t.me.fetched.length = s.me.fetched.length ∧
        ∀ x w named, (Place.spad s.cur x, w, named) ∈ t.me.fetched → o / 64 * 64 ≤ x → x < o / 64 * 64 + 64 → named = true)

/-! ### Page 3: vectors of floats -/

/-- R203 to R206: each active lane of a rounding form is the exact result of Table 8.4 on the decoded operands, encoded
once in the mode of R204 with the lane's halfword of v31, and the flags of every such encoding are raised; `vfabs` and
`vfneg` use nearest-even; `vfmin` and `vfmax` write the chosen code unchanged. -/
def Claims.VectorFloatArithmetic : Prop :=
  ∀ (s : State) (t : FloatTy) (d a b c : VReg) (m : MReg) (rm : Option Rounding) (q : Mode), s.ctx = 0 →
    s.issue.stay = false → (∀ j, t = .fm j → (s.csr.format j.val).valid = true) →
    let k := s.csr.codesOf t
    let w := k.lane
    let num (r : VReg) (i : Nat) : Val := k.decode s.csr.table (lane (s.v r) w i % 2 ^ k.width)
    let x := num a
    let y := num b
    let z := num c
    let enc (mode : Mode) (r : Nat → Val × Flags) (i : Nat) : Nat × Flags :=
      let e := k.encode s.csr.table s.csr.tableOrder mode (lane (s.v 31) 16 (i % 64)) (r i).1
      (e.1 % 2 ^ w, e.2 ||| (r i).2)
    let gives (op : Instr) (r : Nat → Val × Flags) : Prop := VectorDone op s d m w (enc q r)
    let picks (op : Instr) (first : Nat → Bool) : Prop := VectorDone op s d m w fun i =>
      if (x i).isNan || (y i).isNan then enc .nearest (fun _ => (.nan, 0)) i
      else (lane (s.v (if first i then a else b)) w i % 2 ^ k.width, 0)
    ((rm = some q ∨ rm = none ∧ (s.csr.actl.extractLsb' 0 2).toNat = (match q with | .nearest => 0 | .zero => 1 | .stochastic => 2)) →
      gives (.vfadd t d a b m rm) (fun i => (x i).add (y i)) ∧ gives (.vfsub t d a b m rm) (fun i => (x i).sub (y i)) ∧
      gives (.vfmul t d a b m rm) (fun i => (x i).mul (y i)) ∧ gives (.vfdiv t d a b m rm) (fun i => (x i).div (y i)) ∧
      gives (.vfma t d a b c m rm) (fun i => Val.fused false false (x i) (y i) (z i)) ∧
      gives (.vfms t d a b c m rm) (fun i => Val.fused false true (x i) (y i) (z i)) ∧
      gives (.vfnma t d a b c m rm) (fun i => Val.fused true true (x i) (y i) (z i)) ∧
      gives (.vfnms t d a b c m rm) (fun i => Val.fused true false (x i) (y i) (z i)) ∧
      gives (.vfsqrt t d b m rm) (fun i => (y i).sqrt) ∧
      gives (.vfrcp t d b m rm) (fun i => (Val.ofInt 1).div (y i))) ∧
    VectorDone (.vfabs t d b m) s d m w (enc .nearest fun i => ((y i).abs, 0)) ∧
    VectorDone (.vfneg t d b m) s d m w (enc .nearest fun i => ((y i).negate, 0)) ∧
    picks (.vfmin t d a b m) (fun i => (x i).firstIsLess (y i)) ∧
    picks (.vfmax t d a b m) (fun i => !(x i).firstIsLess (y i))

/-- R203, R204: a rounding mode of 3 in `actl` is trap 0x01 and an invalid format register trap 0x04 with `tval` 0, with no
effect; `vfabs`, `vfneg`, `vfmin` and `vfmax` never consult the mode. -/
def Claims.VectorFloatTraps : Prop :=
  ∀ (s : State) (t : FloatTy) (d a b c : VReg) (p : MReg) (m : MReg), s.ctx = 0 → s.issue.stay = false →
    let all (f : Option Rounding → Instr → Prop) (rm : Option Rounding) : Prop :=
      ∀ i, i ∈ [Instr.vfadd t d a b m rm, .vfsub t d a b m rm, .vfmul t d a b m rm, .vfdiv t d a b m rm,
        .vfma t d a b c m rm, .vfms t d a b c m rm, .vfnma t d a b c m rm, .vfnms t d a b c m rm,
        .vfsqrt t d b m rm, .vfrcp t d b m rm, .vfscan t d b m rm] → f rm i
    let quiet := [Instr.vfabs t d b m, .vfneg t d b m, .vfmin t d a b m, .vfmax t d a b m, .vfcmpEq t p a b m,
      .vfcmpLt t p a b m, .vfcmpLe t p a b m, .vfcmpUn t p a b m]
    ((s.csr.actl.extractLsb' 0 2).toNat = 3 →
      all (fun _ i => exec i s = .next (s.deliver (.trap 0x01 s.issue.wordPc))) none) ∧
    (∀ j, t = .fm j → (s.csr.format j.val).valid = false →
      all (fun _ i => exec i s = .next (s.deliver (.trap 0x04 0))) (some .nearest) ∧
      ∀ i, i ∈ quiet → exec i s = .next (s.deliver (.trap 0x04 0)))

/-- R207 to R209: comparisons of exact values, in which −0 equals +0 and NaN is unordered; the pairwise tree of the
reductions, whose inactive lanes are the identity, and the running sum of `vfscan`. Where it rests on a choice of the
model: log 26. -/
def Obligations.VectorFloatComparesAndReductions : Prop :=
  ∀ (s : State) (t : FloatTy) (d : Reg) (e a b : VReg) (p m : MReg) (rm : Option Rounding) (q : Mode), s.ctx = 0 →
    s.issue.stay = false → (∀ j, t = .fm j → (s.csr.format j.val).valid = true) →
    let k := s.csr.codesOf t
    let w := k.lane
    let num (r : VReg) (i : Nat) : Val := k.decode s.csr.table (lane (s.v r) w i % 2 ^ k.width)
    let x := num a
    let y := num b
    let nan (i : Nat) : Prop := (x i).isNan = true ∨ (y i).isNan = true
    let lanes (ident : Val) : List Val := (List.range (1024 / w)).map fun i => if active s m w i then y i else ident
    let mode := rm = some q ∨ rm = none ∧ (s.csr.actl.extractLsb' 0 2).toNat = (match q with | .nearest => 0 | .zero => 1 | .stochastic => 2)
    let reduces (op : Instr) (r : Val × Flags) : Prop := ∃ u, exec op s = .next u ∧
      u.w d = BitVec.ofNat 64 (fp32.encode .nearest 0 r.1).1 ∧ OnlyW s u d ∧ WentOn s u ∧
      u.csr = { s.csr with aflags := s.csr.aflags ||| r.2.zeroExtend 64 } ∧ u.me.v = s.me.v ∧ u.me.m = s.me.m
    let least (a b : Val) : Val := if a.isNan || b.isNan then .nan else if a.firstIsLess b then a else b
    let most (a b : Val) : Val := if a.isNan || b.isNan then .nan else if a.firstIsLess b then b else a
    MaskDone (.vfcmpEq t p a b m) s p m w (fun i => (x i).same (y i) = true) ∧
    MaskDone (.vfcmpLt t p a b m) s p m w (fun i => (x i).less (y i) = true) ∧
    MaskDone (.vfcmpLe t p a b m) s p m w (fun i => (x i).less (y i) = true ∨ (x i).same (y i) = true) ∧
    MaskDone (.vfcmpUn t p a b m) s p m w nan ∧
    (∀ i, nan i → (x i).same (y i) = false ∧ (x i).less (y i) = false) ∧
    (mode → reduces (.vfredsum t d b m rm) (treeFold
      (fun j u v => round32 q (lane (s.v 31) 16 (j % 64)) (u.add v)) 8 0 (lanes (.fin true Mag.zero)))) ∧
    reduces (.vfredmin t d b m rm) (treeFold (fun _ u v => (least u v, 0)) 8 0 (lanes (.inf false))) ∧
    reduces (.vfredmax t d b m rm) (treeFold (fun _ u v => (most u v, 0)) 8 0 (lanes (.inf true))) ∧
    (mode → let run := scanLanes s k q (s.v b) ((List.range (1024 / w)).map fun i => (active s m w i, i)) (.fin true Mag.zero)
      VectorDone (.vfscan t e b m rm) s e m w fun i => match run.getD i none with | some r => (r.1 % 2 ^ w, r.2) | none => (0, 0))

/-- R210 to R212: a conversion writes element i, read from source lane i and rounded once, into active destination lane i,
and zeros past the last element; `vpack` encodes 64 FP32 values side by side and `vunpack` decodes them; a t of `.f32` is
trap 0x01. -/
def Claims.ConversionsAndPacking : Prop :=
  ∀ (s : State) (t src : FloatTy) (it : IntTy) (d a b : VReg) (m : MReg) (rm : Option Rounding) (q : Mode), s.ctx = 0 →
    s.issue.stay = false → (∀ j, t = .fm j ∨ src = .fm j → (s.csr.format j.val).valid = true) →
    (rm = some q ∨ rm = none ∧ (s.csr.actl.extractLsb' 0 2).toNat = (match q with | .nearest => 0 | .zero => 1 | .stochastic => 2)) →
    let k := s.csr.codesOf t
    let j := s.csr.codesOf src
    let tab := s.csr.table
    let rnd (i : Nat) : Nat := lane (s.v 31) 16 (i % 64)
    let into (i : Nat) (v : Val) : Nat × Flags := k.encode tab s.csr.tableOrder q (rnd i) v
    let fval (i : Nat) : Val := j.decode tab (lane (s.v b) j.lane i % 2 ^ j.width)
    let ival (i : Nat) : Val := Val.ofInt (laneI it (s.v b) i)
    let f32 (r : VReg) (i : Nat) : Val := fp32.decode (lane (s.v r) 32 i)
    let done (u : State) : Prop := u.me.m = s.me.m ∧ SameW s u ∧ WentOn s u ∧ OnlyVector s u
    let converts (op : Instr) (ws wd : Nat) (f : Nat → Nat × Flags) : Prop := ∃ u, exec op s = .next u ∧ done u ∧
      (∀ i, i < 1024 / wd → lane (u.v d) wd i =
        if 1024 / max ws wd ≤ i then 0 else if active s m wd i then (f i).1 % 2 ^ wd else lane (s.v d) wd i) ∧
      FlagsOf s u m wd (1024 / max ws wd) (fun i => (f i).2) ∧ ∀ r, r ≠ d → u.v r = s.v r
    let part (i : Nat) : Val := if i < 32 then f32 a i else f32 b (i - 32)
    let code (i : Nat) : Nat := (bitsFp32 (k.decode tab (lane (s.v b) k.width i))).toNat
    let traps (op : Instr) : Prop := exec op s = .next (s.deliver (.trap 0x01 s.issue.wordPc))
    converts (.vcvtFf t src d b m rm) j.lane k.lane (fun i => into i (fval i)) ∧
    converts (.vcvtFi it src d b m rm) j.lane it.lane (fun i => (intFmt it).encode q (rnd i) (fval i)) ∧
    converts (.vcvtIf t it d b m rm) it.lane k.lane (fun i => into i (ival i)) ∧
    (t ≠ .f32 → ∃ u, exec (.vpack t d a b rm) s = .next u ∧ done u ∧
      (∀ i, i < 64 → lane (u.v d) k.width i = (into i (part i)).1 % 2 ^ k.width) ∧ (u.v d).toNat < 2 ^ (64 * k.width) ∧
      FlagsOf s u 0 16 64 (fun i => (into i (part i)).2) ∧ ∀ r, r ≠ d → u.v r = s.v r) ∧
    (t ≠ .f32 → ∃ u, exec (.vunpack t d a b rm) s = .next u ∧ done u ∧ u.csr = s.csr ∧
      (∀ i, i < 32 → lane (u.v d) 32 i = code i) ∧ (a ≠ d → ∀ i, i < 32 → lane (u.v a) 32 i = code (32 + i)) ∧
      ∀ r, r ≠ d → r ≠ a → u.v r = s.v r) ∧
    (t = .f32 → traps (.vpack t d a b rm) ∧ traps (.vunpack t d a b rm))

/-- R213: `vrng` writes the ten-round Philox output of each active counter lane and adds 1 to that counter modulo 2^128;
equal registers are trap 0x01. One round is spelled out over the integers. -/
def Claims.RandomNumbers : Prop :=
  ∀ (s : State) (d b : VReg) (m : MReg), s.ctx = 0 → s.issue.stay = false →
    (d ≠ b → ∃ t, exec (.vrng d b m) s = .next t ∧
      LanesWritten s (s.v d) (t.v d) m 128 (fun i => philoxLane s.csr.rngkey (lane (s.v b) 128 i)) ∧
      LanesWritten s (s.v b) (t.v b) m 128 (fun i => (lane (s.v b) 128 i + 1) % 2 ^ 128) ∧
      (∀ r, r ≠ d → r ≠ b → t.v r = s.v r) ∧ t.csr = s.csr ∧ t.me.m = s.me.m ∧ SameW s t ∧ WentOn s t ∧ OnlyVector s t) ∧
    (d = b → exec (.vrng d b m) s = .next (s.deliver (.trap 0x01 s.issue.wordPc))) ∧
    (∀ (key c : W32 × W32 × W32 × W32), let r := philoxRound (key.1, key.2.1) c
      let p := 0xD2511F53 * c.1.toNat
      let q := 0xCD9E8D57 * c.2.2.1.toNat
      r.1.toNat = (q / 2 ^ 32) ^^^ c.2.1.toNat ^^^ key.1.toNat ∧ r.2.1.toNat = q % 2 ^ 32 ∧
      r.2.2.1.toNat = (p / 2 ^ 32) ^^^ c.2.2.2.toNat ^^^ key.2.1.toNat ∧ r.2.2.2.toNat = p % 2 ^ 32)

/-! ### Page 4: matrix unit, governor and conduits -/

/-- R223, R224, R233 to R235: `mcfg` loads a valid image and raises trap 0x0F for an invalid one; `mzero`, `mrow.rd`,
`mrow.wr` and `mscale` act on an accumulator that no operation uses; a row above 63 is trap 0x01; `mstat` reads Table 9.4
and clears the counts. Where it rests on a choice of the model: log 30. -/
def Obligations.MatrixConfigurationAndAccumulators : Prop :=
  ∀ (s : State) (c : AReg) (a d : Reg) (v : VReg) (o : Nat), CtlReady s 0 →
    let x := s.w a
    let img := BitVec.ofNat 512 (ofBytes (s.ownBytes o 64))
    let busy : Prop := ∃ op, op ∈ s.me.mops ∧ op.acc = c
    let elem (t : State) (m : Fin 64) (n : Nat) : W32 := BitVec.ofNat 32 (lane (t.me.acc[c][m]) 32 n)
    let kept (t : State) : Prop := WentOn s t ∧ SameW s t ∧ t.csr = s.csr ∧ SameBytes s t ∧ OnlyMyCore s t
    let others (t : State) : Prop := ∀ k, k ≠ c → t.me.acc[k] = s.me.acc[k]
    let factor := valFp32 (x.extractLsb' 0 32)
    let status := s.me.nanc + s.me.infc * 2 ^ 16 + s.me.repk * 2 ^ 32 + (if s.me.repf then 2 ^ 48 else 0) +
      (if s.me.mops = [] then 0 else 2 ^ 49)
    (OwnBytes s x 64 64 o → s.me.mops = [] → mcfgValid img = true →
      ∃ t, exec (.mcfg a) s = .next t ∧ kept t ∧ t.me.mcfg = img ∧ t.me.acc = s.me.acc ∧ t.me.v = s.me.v) ∧
    (OwnBytes s x 64 64 o → s.me.mops = [] → mcfgValid img = false →
      exec (.mcfg a) s = .next (s.deliver (.trap 0x0F x))) ∧
    (¬busy → ∃ t, exec (.mzero c) s = .next t ∧ kept t ∧ others t ∧ t.me.v = s.me.v ∧
      ∀ m n, n < 32 → elem t m n = 0) ∧
    (¬busy → ∀ h : x.toNat < 64, ∃ t, exec (.mrowRd v a c) s = .next t ∧ kept t ∧ t.me.acc = s.me.acc ∧
      t.v v = s.me.acc[c][(⟨x.toNat, h⟩ : Fin 64)] ∧ ∀ r, r ≠ v → t.v r = s.v r) ∧
    (¬busy → ∀ h : x.toNat < 64, ∃ t, exec (.mrowWr v a c) s = .next t ∧ kept t ∧ others t ∧ t.me.v = s.me.v ∧
      ∀ m : Fin 64, t.me.acc[c][m] = if m = ⟨x.toNat, h⟩ then s.v v else s.me.acc[c][m]) ∧
    (64 ≤ x.toNat → exec (.mrowRd v a c) s = .next (s.deliver (.trap 0x01 x)) ∧
      exec (.mrowWr v a c) s = .next (s.deliver (.trap 0x01 x))) ∧
    (¬busy → ∃ t, exec (.mscale c a) s = .next t ∧ kept t ∧ others t ∧ t.me.v = s.me.v ∧
      ∀ m n, n < 32 → elem t m n = bitsFp32 ((valFp32 (elem s m n)).mul factor).1) ∧
    (∃ t, exec (.mstat d) s = .next t ∧ t.w d = BitVec.ofNat 64 status ∧ OnlyW s t d ∧ WentOn s t ∧
      t.me.nanc = 0 ∧ t.me.infc = 0 ∧ t.me.repk = 0 ∧ t.me.repf = false ∧ t.me.acc = s.me.acc ∧ SameBytes s t ∧
      OnlyMyCore s t)

/-- R224 to R230, R374: a matrix product whose configuration, operands and masks pass their checks enters the unit and the
instruction goes on; an invalid configuration, or one of the other kind, is trap 0x0F with `tval` 0; the unit's oldest
operation starts, and completes by adding its blocks of 16 in increasing K to each element of its own accumulator. Where
it rests on a choice of the model: log 20, log 29, log 30. -/
def Obligations.MatrixProducts : Prop :=
  ∀ (s : State) (c : AReg) (a b : Reg) (sparse : Bool) (ra rb : List (Nat × Nat)), CtlReady s 0 →
    let i := if sparse then Instr.msmac c a b else .mmac c a b
    let cfg := s.me.mcfg
    let n := s.turn.core
    let x := s.core n
    let ready := mcfgValid cfg = true ∧ mAcd cfg = 0 ∧ mBcd cfg = 0 ∧ s.me.mops.length < 2 ∧ (mN cfg ≠ 0 ↔ sparse = true) ∧
      rangesA s.csr cfg s.cur (s.w a) = .ok ra ∧ checkRanges s.me ra (s.w a) = .ok () ∧
      rangesB s.csr cfg s.cur (s.w b) = .ok rb ∧ checkRanges s.me (rb ++ rangesMask cfg) (s.w b) = .ok ()
    (ready → (∀ q, q ∈ s.quires → q.2.cmds = []) → s.me.bad = [] → badMask (s.lineImage s.cur (rangeLines (rangesMask cfg))) cfg = none →
      ∃ t op, exec i s = .next t ∧ t.me.mops = s.me.mops ++ [op] ∧ op.acc = c ∧ op.cfg = cfg ∧ op.aAddr = s.w a ∧
        op.bAddr = s.w b ∧ op.rect = false ∧ op.started = false ∧ op.planes = planesOf cfg ∧
        t.me.acc = s.me.acc ∧ t.csr = s.csr ∧ SameW s t ∧ t.me.v = s.me.v ∧ SameBytes s t ∧ WentOn s t ∧ OnlyMyCore s t) ∧
    (s.me.mops.length < 2 → mcfgValid cfg = false ∨ ¬(mN cfg ≠ 0 ↔ sparse = true) →
      exec i s = .next (s.deliver (.trap 0x0F 0))) ∧
    (∀ op rest, x.mops = op :: rest → op.aCond = none → op.bCond = none →
      (op.started = false → ∃ t op2, exec .matrixOperationStart s = .next t ∧ (t.core n).mops = op2 :: rest ∧
        op2.started = true ∧ op2.acc = op.acc ∧ op2.cfg = op.cfg ∧ (t.core n).acc = x.acc ∧ OtherCoresSame s t n) ∧
      (op.started = true → op.todo = [] → op.bad = none → op.ready + op.planes ≤ 256 →
        op.rect = true ∨ 256 ≤ x.allowance ∨ x.govUsed + op.planes ≤ x.allowance →
        ∃ t, exec .matrixOperationComplete s = .next t ∧ (t.core n).mops = rest ∧ OtherCoresSame s t n ∧
          (t.core n).govUsed = x.govUsed + op.planes ∧ (∀ k, k ≠ op.acc → (t.core n).acc[k] = x.acc[k]) ∧
          ∀ (m : Fin 64) (j : Nat), j < 32 → lane ((t.core n).acc[op.acc][m]) 32 j =
            (accumulate (mW op.cfg) (mP op.cfg) ((List.range (mK op.cfg / 16)).map (blockA op n m.val))
              ((List.range (mK op.cfg / 16)).map (blockB op n j)) (BitVec.ofNat 32 (lane (x.acc[op.acc][m]) 32 j))).toNat))

/-- R377 to R379: a window boundary puts the last GOVCTL write into force, sets every core's allowance from BUDGET and
RAMP, counts the plane issues that its oldest operation has made in the window, and adds to `mgov.stall` the cycles for which
a ready one was held, one that waited for its operands being ready so many cycles later; a write waits for the boundary,
and a thermal step caps its BUDGET (17, Table 17.3). Where it rests on a choice of the model: log 18. -/
def Obligations.GovernorWindowsAndWrites : Prop :=
  ∀ (s : State),
    let q := s.turn.unit
    let g := (s.quire q).govNext
    let budget := min 256 (g.toNat % 512)
    let ramp := g.toNat / 512 % 16
    let cap : Nat := match (s.thermal.toList.getD (q / 48) 0) with | 0 => 256 | 1 => 192 | 2 => 96 | _ => 32
    (∃ t, exec .governorWindow s = .next t ∧ (t.quire q).govctl = g ∧
      ∀ i, i < 96 → let old := s.core (q * 96 + i)
        let new := t.core (q * 96 + i)
        new.govUsed = 0 ∧ new.acc = old.acc ∧ new.v = old.v ∧ new.ctxs = old.ctxs ∧
        new.allowance = (if ramp = 0 then budget else min budget (new.govLast + 16 * ramp)) ∧
        (old.mops = [] → new.govLast = old.govUsed ∧ new.csr = old.csr) ∧
        ∀ op rest, old.mops = op :: rest → op.started = true →
          let since := op.ready + s.lateCycles (q * 96 + i)
          let room := min op.planes (256 - since)
          let made := if op.rect = true ∨ 256 ≤ old.allowance then room else min room (old.allowance - old.govUsed)
          let held := if op.rect = false ∧ old.allowance < 256 ∧ made < op.planes then 256 - since - made else 0
          new.govLast = old.govUsed + made ∧ new.csr = { old.csr with mgovStall := old.csr.mgovStall + BitVec.ofNat 64 held } ∧
          ∃ z, new.mops = z :: rest ∧ z.planes = op.planes - made ∧ z.acc = op.acc ∧ z.cfg = op.cfg) ∧
    ∃ t, exec .govctlWrite s = .next t ∧ (t.quire q).govctl = (s.quire q).govctl ∧
      (t.quire q).govNext.toNat % 512 = min (s.turn.value.toNat % 512) cap ∧
      (t.quire q).govNext.toNat / 512 = s.turn.value.toNat / 512 % 16 ∧ t.cores = s.cores ∧ t.hbm = s.hbm

/-- R246 and R247: configure and reset load and clear a conduit that nothing names; a pop frees the head entry and a push
fills the tail entry; the waits go on when there is an entry and wait while there is none; a pop of an empty conduit
and a push into a full one are trap 0x01. Where it rests on a choice of the model: log 11 (the `tval` of a trap 0x01 whose
rule states none), log 28, log 68. -/
def Obligations.ConduitOperations : Prop :=
  ∀ (s : State) (k : Cd) (a : Reg) (o : Nat), CtlReady s 0 →
    let x := s.w a
    let c := s.me.conduits[k]
    let bs := s.ownBytes o 16
    let changed (op : Instr) (y : Conduit) : Prop := ∃ t, exec op s = .next t ∧ WentOn s t ∧ RegistersSame s t ∧ t.csr = s.csr ∧
      t.me.conduits[k] = y ∧ (∀ j, j ≠ k → t.me.conduits[j] = s.me.conduits[j]) ∧ OtherCoresSame s t s.cur
    let waits (op : Instr) : Prop := ∃ t, exec op s = .next t ∧ t.myCtx.waiting = true ∧ t.myCtx.pc = s.myCtx.pc ∧
      t.me.conduits = s.me.conduits ∧ RegistersSame s t
    let traps (op : Instr) : Prop := exec op s = .next (s.deliver (.trap 0x01 s.issue.wordPc))
    (∀ y, x.toNat % 16 = 0 → OwnBytes s x 16 16 o → s.conduitBusy s.cur k = false → conduitOf bs = some y →
      y.base + y.esize * y.count ≤ 0x3FF40 → sharesOwn s.me y.base (y.esize * y.count) = true →
      s.csr.dqlocal.getLsbD 0 = false → changed (.cdcfgConfigure k a) y ∧ y.head = 0 ∧ y.tail = 0 ∧ y.free = y.count ∧
        y.base = ofBytes (bs.take 4) ∧ y.esize = ofBytes ((bs.drop 4).take 2) ∧ y.count = ofBytes ((bs.drop 6).take 2)) ∧
    (x.toNat % 16 = 0 → OwnBytes s x 16 16 o → s.conduitBusy s.cur k = false → conduitOf bs = none →
      traps (.cdcfgConfigure k a)) ∧
    (6 ≤ x.toNat % 16 → traps (.cdcfgConfigure k a)) ∧
    (s.conduitBusy s.cur k = false → changed (.cdcfgReset k a) { c with head := 0, tail := 0, free := c.count }) ∧
    (s.conduitBusy s.cur k = true → waits (.cdcfgReset k a)) ∧
    (c.count ≠ 0 → c.cons = false →
      (c.head < c.tail → changed (.cdcfgWaitFull k a) c ∧
        changed (.cdcfgPop k a) { c with head := c.head + 1, free := c.free + 1 }) ∧
      (c.tail ≤ c.head → waits (.cdcfgWaitFull k a) ∧ traps (.cdcfgPop k a))) ∧
    (c.count ≠ 0 → c.prod = false →
      (0 < c.free → changed (.cdcfgWaitFree k a) c ∧
        changed (.cdcfgPush k a) { c with tail := c.tail + 1, free := c.free - 1 }) ∧
      (c.free = 0 → waits (.cdcfgWaitFree k a) ∧ traps (.cdcfgPush k a))) ∧
    (c.count ≠ 0 → c.cons = true → traps (.cdcfgWaitFull k a) ∧ traps (.cdcfgPop k a)) ∧
    (c.count ≠ 0 → c.prod = true → traps (.cdcfgWaitFree k a) ∧ traps (.cdcfgPush k a))

/-! ### Pages 4 and 5: repetition, sewing and rectangles -/

/-- R257 and R47: `rep` and `repx` begin to record the next n instructions, 1 to 16, for max(wa, 1) executions, and a count above 4,096
is trap 0x01; the recording ends with the n-th instruction, and the sequencer then begins an iteration of its own. Where
it rests on a choice of the model: log 11 (the `tval` of a trap 0x01 whose rule states none), log 33, log 92. -/
def Obligations.RepetitionSequences : Prop :=
  ∀ (s : State) (a : Reg) (k : BitVec 6), CtlReady s 0 →
    let x := (s.w a).toNat
    let begins (i : Instr) (alone : Bool) : Prop := ∃ t r, exec i s = .next t ∧ t.me.rep = some r ∧ r.alone = alone ∧
      r.n = k.toNat ∧ r.total = max x 1 ∧ r.body = [] ∧ r.expect = s.issue.next ∧ WentOn s t ∧ RegistersSame s t ∧
      t.csr = s.csr ∧ OtherCoresSame s t s.cur
    (1 ≤ k.toNat → k.toNat ≤ 16 → x ≤ 4096 → begins (.rep a k) false ∧ begins (.repx a k) true) ∧
    (4096 < x → exec (.rep a k) s = .next (s.deliver (.trap 0x01 s.issue.wordPc)) ∧
      exec (.repx a k) s = .next (s.deliver (.trap 0x01 s.issue.wordPc))) ∧
    (∀ r, s.me.rep = some r →
      (r.body.length + 1 < r.n → ∃ q, s.record.me.rep = some q ∧ q.body.length = r.body.length + 1 ∧
        q.total = r.total ∧ q.expect = s.issue.next) ∧
      (r.body.length + 1 = r.n → r.total = 1 → s.record.me.rep = none) ∧
      (r.body.length + 1 = r.n → r.total ≠ 1 → ∃ q, s.record.me.rep = some q ∧ q.recorded = true ∧ q.k = 1 ∧ q.idx = none)) ∧
    (∀ r, (s.core s.turn.core).rep = some r → r.recorded = true → r.idx = none →
      ∃ t, exec .repReissue s = .next t ∧ (t.core s.turn.core).rep = some { r with idx := some 0 } ∧
        OtherCoresSame s t s.turn.core ∧ SameBytes s t ∧
        (t.core s.turn.core).reissued = (r.body[0]?).map fun i => (i, i.chain.advance r.k))

/-- R237 to R241: `ph.begin` right after the member's quire barrier opens a phase and clears the receive registers, and `ph.end`
closes it and keeps them; in a phase `tx` drives its value in its cycle and goes on once no other driver is known to
meet it, `mux` sets or removes a route, `rxw` reads a receive register; outside the rules each is trap 0x07 with
`tval` 0. -/
def Claims.SewingInstructions : Prop :=
  ∀ (s : State) (a d : Reg) (p o i : Port) (ph : Phase), s.ctx = 0 → s.issue.stay = false → s.issue.reissue = false →
    let x := s.w a
    let traps (op : Instr) : Prop := exec op s = .next (s.deliver (.trap 0x07 0))
    let inside : Prop := s.csr.ph = true ∧ s.me.phase = some ph
    let sentNone : State := s.onMe fun c => { c with phase := some { ph with sent := none } }
    let keeps (t : State) : Prop := RegistersSame s t ∧ t.csr = s.csr ∧ OtherCoresSame s t s.cur
    (s.csr.ph = false → s.me.afterBar = true →
      (1 ≤ x.toNat → x.toNat ≤ 4096 → ∃ t q, exec (.phBegin a) s = .next t ∧ WentOn s t ∧ t.csr.status = s.csr.status ||| 0x40 ∧
        (∀ r : Fin 6, t.me.recv[r] = 0) ∧ t.me.phase = some q ∧ q.len = x.toNat ∧ q.cycle = 0 ∧ q.routes = [] ∧
        RegistersSame s t ∧ OtherCoresSame s t s.cur) ∧
      (x.toNat = 0 ∨ 4096 < x.toNat → exec (.phBegin a) s = .next (s.deliver (.trap 0x01 x)))) ∧
    (s.csr.ph = true ∨ s.me.afterBar = false → traps (.phBegin a)) ∧
    (s.csr.ph = true → ∃ t, exec .phEnd s = .next t ∧ WentOn s t ∧ t.csr.status = s.csr.status &&& ~~~(0x40#64) ∧
      t.me.phase = none ∧ t.me.recv = s.me.recv ∧ RegistersSame s t ∧ OtherCoresSame s t s.cur) ∧
    (s.csr.ph = false → traps .phEnd ∧ traps (.tx a p) ∧ traps (.mux o i) ∧ traps (.rxw d p)) ∧
    (inside → Computes (.rxw d p) s d s.me.recv[Port.index p]) ∧
    (inside → ∃ t q, exec (.mux o i) s = .next t ∧ WentOn s t ∧ keeps t ∧ t.me.phase = some q ∧
      ∀ r, r ∈ q.routes ↔ (r.1 ≠ o ∧ r ∈ ph.routes) ∨ (i ≠ o ∧ r = (o, i, ph.cycle))) ∧
    (inside → ph.sent = none → ∃ t q, exec (.tx a p) s = .next t ∧ t.myCtx.waiting = true ∧ t.myCtx.pc = s.myCtx.pc ∧ keeps t ∧
      t.me.phase = some q ∧ q.sent = some ph.cycle ∧ q.cycle = ph.cycle + 1 ∧
      (t.quire s.myQuire).drives = (s.quire s.myQuire).drives ++ [⟨ph.cycle, s.cur, p, x, true⟩]) ∧
    (∀ c, inside → ph.sent = some c → s.settled s.myQuire c = true →
      ((s.quire s.myQuire).conflict ⟨c, s.cur, p, 0, true⟩ = false →
        ∃ t, exec (.tx a p) s = .next t ∧ WentOn s t ∧ keeps t ∧ ∃ q, t.me.phase = some q ∧ q.sent = none) ∧
      ((s.quire s.myQuire).conflict ⟨c, s.cur, p, 0, true⟩ = true →
        exec (.tx a p) s = .next (sentNone.deliver (.trap 0x07 0))))

/-- R236, R239 and R241: a value driven east reaches the neighbour's west register one cycle later and a value on a row bus
every other core of the row three cycles later; nothing else is latched; a phase that comes to its length is closed and the overrun is pending. -/
def Claims.SewingSteps : Prop :=
  ∀ (s : State) (d : Drive) (ph : Phase),
    let n := d.core
    let q := n / 96
    let c := n % 96
    let x := s.quire q
    let m := s.turn.core
    let inGrid (k : Nat) : Prop := k / 96 = q
    (s.turn.unit = q → x.drives = [d] → x.rects = [] → x.holds = [] →
      (∃ k, k ∈ quireMembers q ∧ (s.core k).inPhase.isSome = true) → s.phasesAt q x.sewClk = true →
      (d.port = .east → x.sewClk = d.cycle + 1 → ∃ t, exec .receiveRegisterLatch s = .next t ∧
        (t.quire q).sewClk = x.sewClk + 1 ∧
        (c % 12 < 11 → (t.core (n + 1)).recv = (s.core (n + 1)).recv.set 3 d.value) ∧
        ∀ k, (c % 12 < 11 → k ≠ n + 1) → t.core k = s.core k) ∧
      (d.port = .rowBus → x.sewClk = d.cycle + 3 → ∃ t, exec .receiveRegisterLatch s = .next t ∧
        ∀ k, inGrid k → (k ≠ n ∧ k % 96 / 12 = c / 12 → t.core k = { s.core k with recv := (s.core k).recv.set 4 d.value }) ∧
          (¬(k ≠ n ∧ k % 96 / 12 = c / 12) → t.core k = s.core k))) ∧
    ((s.core m).run = .task → (s.core m).phase = some ph → ph.sent = none → ph.len ≤ ph.cycle →
      ∃ t, exec .phaseLengthExpiry s = .next t ∧ (t.core m).csr.status = (s.core m).csr.status &&& ~~~(0x40#64) ∧
        (t.core m).phase = none ∧ (t.core m).recv = (s.core m).recv ∧ (t.core m).overrun = some ph.len ∧ OtherCoresSame s t m)

/-- R243 to R245 and R450: `mrect` outside a phase is trap 0x07; one whose own checks pass in a core that is neither in the
first row nor in the first column joins the exchange and waits; agreement puts its product into the matrix unit, and the
instruction goes on; where a core of the rectangle is missing it raises trap 0x07. Where it rests on a choice of the
model: log 32. -/
def Obligations.RectangleOperations : Prop :=
  ∀ (s : State) (acc : AReg) (a : Reg) (o : Nat) (ph : Phase) (r : Rect) (part : RectPart), s.ctx = 0 → s.issue.stay = false →
    s.issue.reissue = false →
    let cfg := s.me.mcfg
    let q := s.myQuire
    let inside : Prop := s.csr.ph = true ∧ s.me.phase = some ph
    let back : State := (s.onQuire q fun x => { x with rects := [] }).onMe fun c => { c with phase := some { ph with sent := none } }
    let n := part.core
    let u := s.turn.unit
    (s.csr.ph = false → exec (.mrect acc a) s = .next (s.deliver (.trap 0x07 0))) ∧
    (inside → ph.sent = none → OwnBytes s (s.w a) 64 64 o → s.me.mops.length < 2 → mcfgValid cfg = true → mAcd cfg = 0 →
      mBcd cfg = 0 → rectOf (s.ownBytes o 64) = some r → r.holds s.cur = true → ph.cycle + 23 + planesOf cfg + 1 ≤ ph.len →
      (s.quire q).holds = [] → gridCol s.cur ≠ r.col0 → gridRow s.cur ≠ r.row0 → checkMaskAddr s.me cfg = .ok () →
      ∃ t, exec (.mrect acc a) s = .next t ∧ t.myCtx.waiting = true ∧ t.myCtx.pc = s.myCtx.pc ∧ RegistersSame s t ∧ t.csr = s.csr ∧
        (t.quire q).rects = (s.quire q).rects ++ [⟨s.cur, ph.cycle, s.ownBytes o 64, cfg, acc, planesOf cfg, none⟩]) ∧
    (∀ c, inside → ph.sent = some c → (s.quire q).rects = [part] → n = s.cur →
      (part.verdict = some true → ∃ t, exec (.mrect acc a) s = .next t ∧ WentOn s t ∧ RegistersSame s t ∧
        (t.quire q).rects = [] ∧ t.me.mops = s.me.mops) ∧
      (part.verdict = some false → exec (.mrect acc a) s = .next (back.deliver (.trap 0x07 0)))) ∧
    ((s.quire u).rects = [part] → part.verdict = none → rectOf part.desc = some r → s.panelsFree part = true →
      s.phasesAt u (part.cycle + 1) = true →
      (r.members u = [n] → ∃ t op, exec .mrectCheckExchange s = .next t ∧ (t.quire u).rects = [{ part with verdict := some true }] ∧
        (t.core n).mops = (s.core n).mops ++ [op] ∧ op.acc = part.acc ∧ op.cfg = part.cfg ∧ op.rect = true ∧
        OtherCoresSame s t n) ∧
      ((∃ c, c ∈ r.members u ∧ c ≠ n) → ∃ t, exec .mrectCheckExchange s = .next t ∧
        (t.quire u).rects = [{ part with verdict := some false }] ∧ ∀ k, t.core k = s.core k))

/-! ### Page 4: the copy engine -/

/-- R248, R250 and R256: a copy form whose descriptor passes the checks of R250 sends its command and waits; once the engine
has accepted it the form goes on; a failing check is its trap with nothing sent; a seventeenth command waits;
`cpfence` goes on when every earlier command has completed. -/
def Claims.CopyInstructions : Prop :=
  ∀ (s : State) (a : Reg) (k : CopyKind) (i : Instr) (o : Nat), CtlReady s 0 →
    (k, i) ∈ [(CopyKind.cp, Instr.cp a), (.cpm, .cpm a), (.cpc, .cpc a), (.cpw, .cpw a)] →
    let wa := s.w a
    let d := s.ownBytes o 64
    let x := copyDesc d
    let waits (t : State) : Prop := t.myCtx.waiting = true ∧ t.myCtx.pc = s.myCtx.pc ∧ RegistersSame s t ∧ t.csr = s.csr
    (s.me.copyOk = true → ∃ t, exec i s = .next t ∧ WentOn s t ∧ RegistersSame s t ∧ t.me.copyOk = false ∧ OtherCoresSame s t s.cur) ∧
    (s.me.copyOk = false → s.me.copyReq = none → OwnBytes s wa 64 64 o →
      (16 ≤ s.inFlight s.cur → ∃ t, exec i s = .next t ∧ waits t ∧ t.me.copyReq = none) ∧
      (s.inFlight s.cur < 16 →
        (∀ e, planCopy s k wa d = .error e → exec i s = .next (s.deliver e)) ∧
        ((copyFieldsOk k d x = false ∨ copyLengthOk s.me k x = false) → exec i s = .next (s.deliver (.trap 0x01 wa))) ∧
        (∀ cmd word, s.me.sb = [] → planCopy s k wa d = .ok (cmd, word) → x.len = 0 →
          ∃ t, exec i s = .next t ∧ waits t ∧ t.me.copyReq = some (cmd, ⟨s.cur, 0, word, x.cval⟩)))) ∧
    (s.inFlight s.cur = 0 → ∃ t, exec .cpfence s = .next t ∧ WentOn s t ∧ RegistersSame s t ∧ t.csr = s.csr) ∧
    (0 < s.inFlight s.cur → ∃ t, exec .cpfence s = .next t ∧ waits t)

/-- R250 to R255, R366 and R370: the engine's steps on one command: acceptance gives it its number and frees the core's
form; a group leaves the combining node; a source line is read once into the command; a piece's payload bytes are
written at its place and nothing else is; the completion word takes CVAL, or the error value, when the command has ended. -/
def Claims.CopyEngineSteps : Prop :=
  ∀ (s : State) (x : Quire) (c : CopyCmd) (comp : Completion) (k n o : Nat) (va dst : Word) (p : Piece),
    let u := s.turn.unit
    let m := s.turn.core
    let alone : Prop := s.quires = [(u, x)] ∧ x.cmds = [c] ∧ s.granules = [] ∧ s.watches = [] ∧ s.memWf ∧
      (s.core k).bad = [] ∧ c.remote = none ∧ s.wayShut (.quire u) (.quire (quireOf k)) = false
    let payload := (List.range n).map fun i => cacheByte c.cache (c.source.byteVa i)
    ((s.core m).copyReq = some (c, comp) → c.pieces = [] → c.gapVas = [] → c.gaps = [] → c.key = none →
      ∃ t, exec .copyCommandAccept s = .next t ∧ (t.core m).copyReq = none ∧ (t.core m).copyOk = true ∧
        (t.quire (m / 96)).accepted = (s.quire (m / 96)).accepted + 1 ∧ OtherCoresSame s t m ∧
        (t.quire (m / 96)).comps = (s.quire (m / 96)).comps ++ [{ comp with seq := (s.quire (m / 96)).accepted + 1 }]) ∧
    (alone → c.seq = s.turn.index → c.held = true → ∃ t y d, exec .combineHoldExpiry s = .next t ∧ t.quires = [(u, y)] ∧
      y.cmds = [d] ∧ d.held = false ∧ d.pieces = c.pieces ∧ (∀ j, t.core j = s.core j)) ∧
    (alone → c.seq = s.turn.index → c.active = true → c.done = false → c.conduit = none → c.pieces = [p] →
      p.fault = none → c.missing p = some va → s.sourcePlace c va = (.ok (.spad k o), s) →
      ∃ t y, exec .copyLineMove s = .next t ∧ t.quires = [(u, y)] ∧
        y.cmds = [c.keep va (Memory.read (s.core k).spad o 64)] ∧ ∀ j, t.core j = s.core j) ∧
    (alone → c.seq = s.turn.index → c.active = true → c.done = false → c.conduit = none → c.form = .bytes →
      p = ⟨[0], [⟨dst, n, [.spad k o]⟩], none⟩ → c.pieces = [p] → c.missing p = none →
      ∃ t y d, exec .copyLineMove s = .next t ∧ t.quires = [(u, y)] ∧ y.cmds = [d] ∧ d.done = true ∧ d.pieces = [] ∧
        (t.core k).spad = Memory.write (s.core k).spad o payload ∧ Memory.read (t.core k).spad o n = payload ∧
        ∀ j, j ≠ k → (t.core j).spad = (s.core j).spad) ∧
    (alone → u = m / 96 → x.comps = [comp] → comp.core = m → comp.seq = c.seq → comp.word = some (.spad k o) → c.done = true →
      ∃ t y, exec .copyCompletionWrite s = .next t ∧ t.quires = [(u, y)] ∧ y.comps = [] ∧ y.cmds = [] ∧
        Memory.read (t.core k).spad o 8 = toBytes 8 (c.err.getD comp.val).toNat ∧
        (∀ i, i < o ∨ o + 8 ≤ i → t.byteAt (.spad k i) = s.byteAt (.spad k i))) ∧
    (c.stop 0x0D va).err = some (0x8000000000000000#64 ||| (0x0D#64 <<< 48) ||| (va >>> 12)) ∧ (c.stop 0x0D va).pieces = []

/-! ### Events between instructions and pre-emption -/

/-- R428, R429, R239, R259, R344, R154 and Table 16.6: each boundary event that is the first to be taken is a trap with its
cause and value, and `epc` is the next instruction. Where it rests on a choice of the model: log 36 (the cleared bit 0 of
a program counter). -/
def Obligations.BoundaryEventsTrap : Prop :=
  ∀ (s : State), let n := s.turn.core
    let c := s.core n
    let gives (i : Instr) (b : Boundary) (cause : BitVec 6) (tval : Word) : Prop :=
      s.boundary n = some b → c.csr.tvec ≠ 0 → ∃ t, exec i s = .next t ∧ BoundaryTaken s t n cause tval
    (∀ v r, c.impErr = v :: r → gives .impreciseErrorEvent .imprecise 0x0E v) ∧
    (∀ cause v, c.repFault = some (cause, v) → gives .repSequenceFault .sequence cause v) ∧
    (∀ l, c.overrun = some l → gives .phaseOverrun .overrun 0x07 (BitVec.ofNat 64 l)) ∧
    (∀ v r, c.badHandle = v :: r → gives .badDequeHandle .handle 0x0A v) ∧
    (gives .inboxOverflow .inbox 0x09 17) ∧
    (∀ v, c.bpHit = some v → gives .breakpoint .breakpoint 0x13 v) ∧
    (c.csr.tk = true → s.boundary n = none) ∧
    ∃ t, exec .breakpointSet s = .next t ∧ (t.core n).bps[Fin.ofNat 4 s.turn.index] = s.turn.opt ∧ OtherCoresSame s t n ∧
      SameBytes s t

/-- R24, R430 and R431: a request with well-formed addresses is recorded, with the level that holds it as LVL stands when it
arrives, and is free at once where none does or where the core waits in a barrier of that level, whose arrival is withdrawn; and one with an ill-formed address is reported and nothing else; a hold ends after 1 ms; a save leaves the core without its task and, where nothing of the area stands in a cache, the area reads as Table 16.7 lays it
out, the valid word among it; a restore takes the saved context, or refuses an area that is not valid, with a report. -/
def Claims.PreemptionSteps : Prop :=
  ∀ (s : State), let n := s.turn.core
    let c := s.core n
    let back : Option Word := if s.turn.flag then some s.turn.value else none
    let met : Bool := c.csr.heldLevel.isSome && c.barWait = c.csr.heldLevel && c.barPass.isNone && !s.arrivalStands n
    (∀ a, c.run ≠ .stopped → s.turn.opt = some a → saveAddrOk (some a) = true → saveAddrOk back = true →
      ∃ t, exec .preemptionRequest s = .next t ∧ OtherCoresSame s t n ∧ SameBytes s t ∧ t.reports = s.reports ∧
        (t.core n).preempt = some ⟨a, back, s.gtime, c.csr.heldLevel, c.csr.heldLevel.isNone || met⟩ ∧
        (met = true → (t.core n).barWait = none ∧ ∀ e, e ∈ t.episodes → n ∉ e.arrived)) ∧
    (c.run ≠ .stopped → s.turn.opt = none → saveAddrOk back = true →
      ∃ t, exec .preemptionRequest s = .next t ∧ (t.core n).restore = back ∧ OtherCoresSame s t n ∧ SameBytes s t) ∧
    (c.run = .stopped ∨ saveAddrOk s.turn.opt = false ∨ saveAddrOk back = false →
      exec .preemptionRequest s = .next { s with reports := s.reports ++ [(2, n)] }) ∧
    (∀ p, c.preempt = some p → p.free = false → 1000000 ≤ (s.gtime - p.came).toNat →
      ∃ t, exec .preemptionHoldTimeout s = .next t ∧ (t.core n).preempt = some { p with level := none, free := true } ∧ OtherCoresSame s t n) ∧
    (∀ p, s.boundary n = some .preempt → c.preempt = some p → s.save n ≠ none →
      ∃ t, exec .preemptionSave s = .next t ∧ (t.core n).run = .seeking ∧ (t.core n).preempt = none ∧
        (t.core n).restore = p.back ∧ (t.core n).hold = [] ∧
        (c.sb = [] → s.memWf → saveAddrOk (some p.save) = true →
          (∀ q, (s.quire q).lines = [] ∧ (s.quire q).slices = [] ∧ (s.quire q).forwards = []) →
          let img := (t.physLoad p.save.toNat saveLength 16).2
          let f := s.savedFolio n
          img.length = saveLength ∧ fieldAt img 0 4 = 1 ∧
          fieldAt img 4 4 = ((s.quire (n / 96)).qasr.extractLsb' 48 16).toNat ∧ fieldAt img 8 8 = s.gtime.toNat ∧
          fieldAt img 0x10 4 = n % 2 ^ 32 ∧ fieldAt img 0x14 4 = 0 ∧ (img.drop 0x18).take 8 = toBytes 8 (holdWord c.hold) ∧
          (img.drop 0x40).take 0x97C0 = c.contextBytes ∧ (img.drop 0x9800).take 64 = f ∧
          ∀ x, x ∈ [(0x20, 0xA000), (0x28, 0xC000)] → ∀ o m, tileRange (fieldAt f x.1 8) = some (o, m) → m ≤ 0x2000 →
            (img.drop x.2).take m = Memory.read c.spad o m)) ∧
    (∀ a, c.restore = some a → s.restoreReady n = true → let img := (s.physLoad a.toNat saveLength 16).2
      (fieldAt img 0 4 ≠ 1 → ∃ t, exec .preemptionRestore s = .next t ∧ (t.core n).restore = none ∧ (t.core n).run = c.run ∧
        t.reports.getLast? = some (3, n)) ∧
      (fieldAt img 0 4 = 1 → fieldAt img 4 4 = ((s.quire (n / 96)).qasr.extractLsb' 48 16).toNat →
        restorable c ((img.drop 0x9800).take 64) = true →
        ((physPieces a.toNat saveLength).any fun p => s.anyBad p 4096) = false → (s.physLoad a.toNat saveLength 16).1 = s →
        ∃ t, exec .preemptionRestore s = .next t ∧ (t.core n).run = .task ∧ (t.core n).restore = none ∧
          (t.core n).folio = fieldAt img 0x9814 4 ∧ (t.core n).ctxs[0].pc = BitVec.ofNat 64 (fieldAt img 0x40 8) &&& ~~~(1#64) ∧
          (∀ r : Reg, (t.core n).ctxs[0].w[r] = BitVec.ofNat 64 (fieldAt img (0x80 + 8 * r.val) 8)) ∧
          (t.core n).csr.epc = BitVec.ofNat 64 (fieldAt img 0x50 8) ∧ t.reports = s.reports))

/-- R430, R431 and Table 16.7: what a save writes of a context is what a restore takes from it. -/
def Claims.SavedContextIsRestored : Prop :=
  ∀ (c d : Core) (head rest : List Byte) (free : Nat), head.length = 0x40 → c.ctxs[0].pc.getLsbD 0 = false →
    let x := d.loadContext (head ++ c.contextBytes ++ rest) free
    x.ctxs[0].pc = c.ctxs[0].pc ∧ x.ctxs[0].w = c.ctxs[0].w ∧ x.v = c.v ∧ x.m = c.m ∧ x.acc = c.acc ∧ x.mcfg = c.mcfg ∧
      x.csr.epc = c.csr.epc ∧ x.csr.upepc = c.csr.upepc ∧ x.csr.upvec = c.csr.upvec ∧ x.csr.rngkey = c.csr.rngkey ∧
      x.run = .task ∧ x.csr.tvec = d.csr.tvec

/-! ### Page 5: grammar and sampling -/

/-- R267 to R271: `gload` of 0 clears the configuration, a misaligned image is trap 0x03 after the acquire, and an image whose fields are
well formed is kept with the automata at their start, `R` being the states in which its reads leave the machine; `gstep` and `gmask` ask the grammar unit and wait, take its
answer, and refuse bad operands; a mask's bits are written in order with zeros above; `gstate` reads Table 10.8. -/
def Claims.GrammarInstructions : Prop :=
  ∀ (s : State) (d a b : Reg) (img : Word → Nat → Nat) (off : Nat) (R : State → Prop), CtlReady s 0 → s.me.grammar.bad = false →
    let g := s.me.grammar
    let x := s.w a
    let y := s.w b
    let first := y.toNat % 2 ^ 32
    let count := y.toNat / 2 ^ 32
    let n := (count + 63) / 64 * 8
    let u := s.acquire s.cur .dev
    let at' (p : Word) (o : Nat) : Word := p + BitVec.ofNat 64 o
    let lexer := BitVec.ofNat 64 (img x 8)
    let pda := BitVec.ofNat 64 (img (at' x 8) 8)
    let fields : List (Word × Nat) := [(x, 8), (at' x 8, 8), (at' x 0x10, 4), (at' x 0x14, 4), (at' x 0x18, 8), (lexer, 8),
      (at' lexer 8, 4), (at' lexer 0xC, 2), (at' lexer 0xE, 2), (at' lexer 0x10, 8), (at' lexer 0x18, 8), (at' lexer 0x20, 8),
      (at' lexer 0x28, 8), (at' lexer 0x30, 8), (at' lexer 0x38, 8), (pda, 2), (at' pda 2, 2), (at' pda 4, 4), (at' pda 8, 8),
      (at' pda 0x10, 8), (at' pda 0x18, 8), (at' pda 0x20, 8), (at' pda 0x28, 8), (at' pda 0x30, 8), (at' pda 0x38, 8)]
    let zeros : List Word := [at' x 0x18, at' lexer 0x20, at' lexer 0x28, at' lexer 0x30, at' lexer 0x38, at' pda 0x10,
      at' pda 0x18, at' pda 0x20, at' pda 0x28, at' pda 0x30, at' pda 0x38]
    let kept (t : State) : Prop := t.csr = s.csr ∧ t.me.v = s.me.v ∧ t.me.m = s.me.m ∧ t.me.acc = s.me.acc
    let still (v : State) : Prop := v.cur = s.cur ∧ v.ctx = s.ctx ∧ v.issue = s.issue ∧ v.myCtx = s.myCtx ∧ kept v ∧ SameW s v
    let waits (t : State) : Prop := t.myCtx.waiting = true ∧ t.myCtx.pc = s.myCtx.pc ∧ RegistersSame s t ∧ kept t ∧ t.me.grammar = g
    (x = 0 → ∃ t, exec (.gload a) s = .next t ∧ WentOn s t ∧ RegistersSame s t ∧ kept t ∧ t.me.grammar = Grammar.reset) ∧
    (x ≠ 0 → x.toNat % 8 ≠ 0 → exec (.gload a) s = .next (u.deliver (.trap 0x03 x))) ∧
    (x ≠ 0 → x.toNat % 8 = 0 → R u → (∀ v, R v → still v ∧ ∀ f, f ∈ fields → ∃ z, imageAt f.1 f.2 v = .ok (img f.1 f.2, z) ∧ R z) → (∀ z, z ∈ zeros → img z 8 = 0) →
      lexer.toNat % 64 = 0 → pda.toNat % 64 = 0 → img (at' x 0x14) 4 ≤ 1 → img lexer 8 % 8 = 0 → img lexer 8 < 2 ^ 64 →
      1 ≤ img (at' lexer 8) 4 → img (at' lexer 8) 4 ≤ 262144 → 1 ≤ img (at' lexer 0xC) 2 → img (at' lexer 0xC) 2 ≤ 65534 →
      1 ≤ img (at' lexer 0xE) 2 → img (at' lexer 0xE) 2 ≤ 4096 → 1 ≤ img pda 2 → img (at' pda 2) 2 ≤ 1024 →
      img (at' pda 4) 4 = 0 → img (at' x 0x10) 4 < img (at' lexer 8) 4 →
      ∃ t, exec (.gload a) s = .next t ∧ WentOn s t ∧ SameW s t ∧ kept t ∧ t.me.grammar = { Grammar.reset with
        loaded := true, image := x, fallback := BitVec.ofNat 32 (img (at' x 0x10) 4), fb := img (at' x 0x14) 4 = 1,
        vocab := BitVec.ofNat 64 (img lexer 8), ntok := img (at' lexer 8) 4, nlex := img (at' lexer 0xC) 2,
        nterm := img (at' lexer 0xE) 2, nextt := BitVec.ofNat 64 (img (at' lexer 0x10) 8),
        accept := BitVec.ofNat 64 (img (at' lexer 0x18) 8), npda := img pda 2, stackmax := img (at' pda 2) 2,
        act := BitVec.ofNat 64 (img (at' pda 8) 8) }) ∧
    (s.me.gwork = none → g.loaded = false → Computes (.gstep d a) s d 4) ∧
    (s.me.gwork = none → g.loaded = true → g.ntok ≤ x.toNat → ∃ t, exec (.gstep d a) s = .next t ∧ t.w d = 3 ∧ OnlyW s t d ∧
      WentOn s t ∧ kept t ∧ t.me.grammar = { g with loop := false }) ∧
    (s.me.gwork = none → g.loaded = true → x.toNat < g.ntok → ∃ t, exec (.gstep d a) s = .next t ∧ waits t ∧
      t.me.gwork = some (.step x none)) ∧
    (∀ k st, s.me.gwork = some (.step k (some (.inl st))) → ∃ t, exec (.gstep d a) s = .next t ∧ t.w d = BitVec.ofNat 64 st ∧
      OnlyW s t d ∧ WentOn s t ∧ kept t ∧ t.me.grammar = g ∧ t.me.gwork = none) ∧
    (first % 64 ≠ 0 ∨ count = 0 ∨ 262144 < count → exec (.gmask a b) s = .next (s.deliver (.trap 0x01 y))) ∧
    (first % 64 = 0 → 1 ≤ count → count ≤ 262144 → OwnBytes s x n 8 off → off + n ≤ 0x3FF40 →
      (g.loaded = false → exec (.gmask a b) s = .next (s.deliver (.trap 0x11 0))) ∧
      (g.loaded = true → g.ntok < first + count → exec (.gmask a b) s = .next (s.deliver (.trap 0x01 y))) ∧
      (g.loaded = true → first + count ≤ g.ntok → s.me.gwork = none → s.maskBuffers (dieOf s.cur) < 4 →
        ∃ t, exec (.gmask a b) s = .next t ∧ waits t ∧ t.me.gwork = some (.mask first count [] false none)) ∧
      (∀ bits loop, g.loaded = true → first + count ≤ g.ntok → s.me.gwork = some (.mask first count bits loop none) →
        bits.length = count → s.me.sb = [] → s.granules = [] → s.watches = [] → s.me.mops = [] → s.memWf →
        ∃ t, exec (.gmask a b) s = .next t ∧ WentOn s t ∧ SameW s t ∧ kept t ∧ t.me.gwork = none ∧
          t.me.grammar = { g with loop := loop } ∧
          (∀ i, i < 8 * n → (t.byteAt (.spad s.cur (off + i / 8))).getLsbD (i % 8) = bits.getD i false) ∧
          ∀ c i, (c ≠ s.cur ∨ i < off ∨ off + n ≤ i) → t.byteAt (.spad c i) = s.byteAt (.spad c i))) ∧
    Computes (.gstate d) s d (BitVec.ofNat 64 (g.q + g.s * 2 ^ 16 + g.stack.length * 2 ^ 32 + (if g.loaded then 2 ^ 48 else 0) +
      (if g.ended then 2 ^ 49 else 0) + (if g.loop then 2 ^ 50 else 0)))

/-- R268, R269 and R383: the unit of a die serves the next core that waits after the one it served last: a step's answer is
what R264's procedures give; after the end of the input a step is refused and every bit of a batch of at most 64 is zero. -/
def Claims.GrammarUnitServes : Prop :=
  ∀ (s v : State) (n : Nat), let die := Fin.ofNat 4 s.turn.unit
    let c := s.core n
    let g := c.grammar
    let served (t : State) (h : Grammar) (w : GrammarWork) : Prop := exec .grammarUnitServe s = .next t ∧ t.gramLast[die] = n ∧
      (t.core n).grammar = h ∧ (t.core n).gwork = some w ∧ (t.core n).ctxs[0].w = c.ctxs[0].w ∧ OtherCoresSame s t n ∧ t.cur = s.cur
    (s.grammarNext die = none → exec .grammarUnitServe s = .next s) ∧
    (s.grammarNext die = some n →
      (∀ k st h, c.gwork = some (.step k none) →
        serveStep g k.toNat { s with cur := n, ctx := 0 } = .ok ((st, h), v) → v.cur = n →
        ∃ t, exec .grammarUnitServe s = .next t ∧ t.gramLast[die] = n ∧ (t.core n).grammar = h ∧ (t.core n).gwork = some (.step k (some (.inl st))) ∧
          (t.core n).ctxs = (v.core n).ctxs ∧ OtherCoresSame v t n ∧ t.cur = s.cur) ∧
      (∀ k, c.gwork = some (.step k none) → g.ended = true → ∃ t, served t { g with loop := false } (.step k (some (.inl 1)))) ∧
      (∀ first m bits loop, c.gwork = some (.mask first m bits loop none) → g.ended = true →
        ∃ t, served t g (.mask first m (bits ++ List.replicate (if m - bits.length ≤ 64 then m - bits.length else 64) false) loop none)))

/-- R272 to R277: with no mask, the greedy form gives the lowest index of a largest logit, and a drawn one the lowest index
whose running sum of weights passes draw × total / 2^32, the draw supplied or Philox's, whose counter goes on by 1; where
every logit is NaN and no grammar is loaded the answer is 0xFFFF_FFFF with NLT, or trap 0x12 where `actl` asks for it; the
weights' table is 2^(30 − j/256) rounded. Where it rests on a choice of the model: log 69, log 76. -/
def Obligations.SamplingInstructions : Prop :=
  (∀ j, j ≤ 256 → (2 * weightTable j - 1) ^ 256 ≤ 2 ^ (7936 - j) ∧ 2 ^ (7936 - j) < (2 * weightTable j + 1) ^ 256) ∧
  ∀ (s : State) (wide : Bool) (d a : Reg) (o lo : Nat), CtlReady s 0 → s.me.grammar.bad = false → s.myCtx.remote = none →
    s.grain = none → s.myCtx.got = [] →
    OwnBytes s (s.w a) 64 64 o →
    let ds := s.ownBytes o 64
    let i := if wide then Instr.sampF32 d a else Instr.sampBf16 d a
    let size := if wide then 4 else 2
    let first := fieldAt ds 0x10 4
    let count := fieldAt ds 0x14 4
    let scale := valFp32 (BitVec.ofNat 32 (fieldAt ds 0x18 4))
    let flags := fieldAt ds 0x1C 4
    let x (k : Nat) : Val := (if wide then fp32 else bfloat16).decode (fieldAt (s.ownBytes lo (count * size)) (k * size) size)
    1 ≤ count → count ≤ 262144 → first + count ≤ 262144 → (∃ m, scale = .fin false m ∧ m.num ≠ 0) → flags < 4 →
    zeroAt ds 0x34 12 = true → fieldAt ds 8 8 = 0 → OwnBytes s (BitVec.ofNat 64 (fieldAt ds 0 8)) (count * size) size lo →
    let noNumber : Prop := ∀ k, k < count → (x k).isNan = true
    ((∃ k, k < count ∧ (x k).isNan = false) →
      (flags % 2 = 1 → ∃ k, k < count ∧ Computes i s d (BitVec.ofNat 64 (first + k)) ∧ (x k).isNan = false ∧
        (∀ j, j < count → (x k).less (x j) = false) ∧ ∀ j, j < k → (x j).isNan = false → (x j).less (x k) = true) ∧
      (flags % 2 = 0 → ∃ max, (∃ k, k < count ∧ x k = max ∧ ∀ j, j < count → max.less (x j) = false) ∧
        let w (k : Nat) : Nat := if (x k).isNan then 0 else weight max scale (x k)
        let sum (k : Nat) : Nat := ((List.range k).map w).foldl (· + ·) 0
        let ctr := fieldAt ds 0x20 16
        let draw := if flags = 2 then fieldAt ds 0x30 4 else philoxLane s.csr.rngkey ctr % 2 ^ 32
        let point := draw * sum count / 2 ^ 32
        ∃ k t, sum k ≤ point ∧ point < sum (k + 1) ∧ exec i s = .next t ∧ t.w d = BitVec.ofNat 64 (first + k) ∧
          OnlyW s t d ∧ WentOn s t ∧ t.csr = s.csr ∧ SameBytes s t ∧
          t.ownBytes (o + 0x20) 16 = if flags = 2 then (ds.drop 0x20).take 16 else toBytes 16 (ctr + 1))) ∧
    (noNumber → s.me.grammar.loaded = false →
      let u := s.raise flagNLT
      (s.csr.actl.getLsbD 2 = false → ∃ t, exec i s = .next t ∧ t.w d = 0xFFFFFFFF ∧ OnlyW s t d ∧ WentOn s t ∧
        t.csr = u.csr ∧ SameBytes s t) ∧
      (s.csr.actl.getLsbD 2 = true → exec i s = .next (u.deliver (.trap 0x12 (s.w a))))) ∧
    (noNumber → s.me.grammar.loaded = true → s.me.grammar.fb = true →
      Computes i s d (s.me.grammar.fallback.zeroExtend 64))

/-! ### Page 6: bindings -/

/-- R286 to R289, R309, R315, R316, R333: `bshare` offers own shares to a pool or takes them back, or is trap 0x05 at the
first share that it may not move, share 31 among them; `bdef` defines an undefined or retired binding from a well-formed record and pooled shares, and
`bresize` starts the walk of an active one; outside imago, in another state, or with too small a pool each is trap 0x06;
`bquery` reads the state, the shares, the pool and the progress. -/
def Claims.BindingInstructions : Prop :=
  ∀ (s u : State) (d a b : Reg) (r : BindRec), CtlReady s 2 → OnlyMyCtx s u → SameW s u →
    let x := s.w a
    let y := s.w b
    let id := x.toNat
    let cur := s.binding id
    let same (t : State) : Prop := WentOn s t ∧ SameW s t ∧ t.csr = s.csr ∧ SameBytes s t
    -- a binding's own home slices begin empty, so that its bytes are those of HBM then
    let defined (t : State) : Prop := WentOn s t ∧ SameW s t ∧ t.csr = s.csr ∧ t.hbm = s.hbm ∧
      ∀ p, (∀ pa, p ≠ .hbm pa id) → t.byteAt p = s.byteAt p
    let started (t : State) : Prop := WentOn s t ∧ SameW s t ∧ t.csr = s.csr ∧ t.hbm = s.hbm ∧ t.quires = s.quires ∧
      ∀ c o, t.byteAt (.spad c o) = s.byteAt (.spad c o)
    let mine (t : State) (k : Fin 32) : Share := t.me.shares[k]
    let moved (t : State) (before after : Share) : Prop := ∀ c (k : Fin 32), (t.core c).shares[k] = (s.core c).shares[k] ∨
      ((s.core c).shares[k] = before ∧ (t.core c).shares[k] = after)
    let code : Nat := match cur.state with | .undefined => 0 | .active => 1 | .resizing => 2 | .draining => 3 | .retired => 4
    let held := ((List.range 192).map cur.rec'.shares).foldl (· + ·) 0
    let refused (cause : BitVec 6) (v : Word) : Prop :=
      exec (.bdef a b) s = .next (s.deliver (.trap cause v)) ∧ exec (.bresize a b) s = .next (s.deliver (.trap cause v))
    (64 ≤ id → refused 0x01 x) ∧
    (id < 64 → y.toNat % 64 ≠ 0 → refused 0x03 y) ∧
    (id < 64 → y.toNat % 64 = 0 → s.imago = false → refused 0x06 x) ∧
    (id < 64 → y.toNat % 64 = 0 → s.imago = true → cur.state = .undefined ∨ cur.state = .retired →
      exec (.bresize a b) s = .next (s.deliver (.trap 0x06 x)) ∧
      (∀ e, readRecord y none s = .error (.exc e) → exec (.bdef a b) s = .next (s.deliver e)) ∧
      (readRecord y none s = .ok (r, u) →
        (∀ q, u.shortQuire id r none = some q → exec (.bdef a b) s = .next (s.deliver (.trap 0x06 (y + BitVec.ofNat 64 (0x40 + q))))) ∧
        (u.shortQuire id r none = none → ∃ t, exec (.bdef a b) s = .next t ∧ defined t ∧ t.binding id = ⟨.active, r, none, []⟩ ∧
          (∀ i, i ≠ id → t.binding i = s.binding i) ∧ moved t (.pooled id) (.held id) ∧
          (∀ q l, l ∈ (t.quire q).lines → l ∈ (s.quire q).lines ∧ l.binding ≠ id) ∧
          ∀ q l, l ∈ (t.quire q).slices → l ∈ (s.quire q).slices ∧ l.binding ≠ id))) ∧
    (id < 64 → y.toNat % 64 = 0 → s.imago = true → cur.state = .active →
      exec (.bdef a b) s = .next (s.deliver (.trap 0x06 x)) ∧
      (readRecord y (some cur.rec') s = .ok (r, u) →
        (id = 0 → r.count = [] → exec (.bresize a b) s = .next (s.deliver (.trap 0x06 x))) ∧
        (u.shortQuire id r (some cur.rec') = none → r.count ≠ [] ∨ id ≠ 0 → ∃ t, exec (.bresize a b) s = .next t ∧ started t ∧
          t.binding id = ⟨if r.count = [] then .draining else .resizing, r, some cur.rec', cur.rec'.count.map fun c => (c.1, 0)⟩ ∧
          (∀ i, i ≠ id → t.binding i = s.binding i) ∧ moved t (.pooled id) (.held id)))) ∧
    (128 ≤ id → exec (.bshare a b) s = .next (s.deliver (.trap 0x01 x))) ∧
    (id < 64 → y.toNat < 2 ^ 32 → s.me.sb = [] → (∀ k, k < 32 → y.getLsbD k = true → s.shareBusy k = false) →
        s.storesComing s.cur ((List.finRange 32).filter fun k => y.getLsbD k.val) = false →
      ((∀ k : Fin 32, y.getLsbD k = true → s.me.refuses k = false) → ∃ t, exec (.bshare a b) s = .next t ∧ same t ∧
        OtherCoresSame s t s.cur ∧ ∀ k : Fin 32, mine t k = if y.getLsbD k then .pooled id else mine s k) ∧
      (∀ k : Fin 32, y.getLsbD k = true → s.me.refuses k = true → (∀ j : Fin 32, j < k → y.getLsbD j = true → s.me.refuses j = false) →
        exec (.bshare a b) s = .next (s.deliver (.trap 0x05 (BitVec.ofNat 64 (0xFFFFF00000000000 + 0x2000 * k.val)))))) ∧
    (64 ≤ id → id < 128 → y.toNat < 2 ^ 31 →
      ((∀ k : Fin 32, y.getLsbD k = true → mine s k = .pooled (id - 64)) → ∃ t, exec (.bshare a b) s = .next t ∧ same t ∧
        OtherCoresSame s t s.cur ∧ ∀ k : Fin 32, mine t k = if y.getLsbD k then .own else mine s k) ∧
      (∀ k : Fin 32, y.getLsbD k = true → mine s k ≠ .pooled (id - 64) →
        (∀ j : Fin 32, j < k → y.getLsbD j = true → mine s j = .pooled (id - 64)) →
        exec (.bshare a b) s = .next (s.deliver (.trap 0x05 (BitVec.ofNat 64 (0xFFFFF00000000000 + 0x2000 * k.val)))))) ∧
    (id < 64 → cur.old = none → Computes (.bquery d a) s d
      (BitVec.ofNat 64 (code + held * 2 ^ 8 + (s.pool (s.cur / 96) id).length * 2 ^ 28)))

/-- R328 to R332: a walker passes one set at a time, in rising order, while the set is free; an empty set leaves
everything as it was, a line of a home slice or of an instance goes to its place under the new record with its bytes and its
marks, and a drain writes the written bytes of a home slice's line to HBM. When every old set has been passed the walk ends: the binding is active, or retired where
its record places nothing, and in a quire whose share count falls the highest shares go back zero-filled. -/
def Claims.ResizeWalks : Prop :=
  ∀ (s : State) (o : BindRec), let id := s.turn.unit
    let q := s.turn.index
    let x := s.binding id
    let n := mapGet x.passed q 0
    let mine (l : Line) : Prop := l.binding = id ∧ l.set = n ∧ l.moved = false
    x.old = some o →
    (n < o.sets q → s.setBusy id q n o = false → ∃ t, exec .resizeSetMove s = .next t ∧
      t.binding id = { x with passed := mapPut x.passed q (n + 1) } ∧ (∀ i, i ≠ id → t.binding i = s.binding i) ∧
      ((∀ l, l ∈ (if o.home then (s.quire q).slices else (s.quire q).lines) → ¬mine l) → x.rec'.count ≠ [] →
        (∀ k, t.core k = s.core k) ∧ t.quires = s.quires ∧ t.hbm = s.hbm) ∧
      (∀ l p g, o.home = true → (s.quire q).slices = [l] → mine l → l.way < o.ways → x.rec'.homeSlice l.base = some (p, g) →
        (p ≠ q → (s.quire p).slices = []) → ∃ w, (t.quire p).slices = [{ l with set := g, way := w, moved := true }] ∧
          (p ≠ q → (t.quire q).slices = []) ∧ t.hbm = s.hbm ∧ ∀ k, t.core k = s.core k) ∧
      (∀ l, o.home = false → 0 < x.rec'.shares q → (s.quire q).lines = [l] → mine l → l.way < o.ways →
        ∃ w, (t.quire q).lines = [{ l with set := x.rec'.nearSet q l.base, way := w, moved := true }] ∧ t.hbm = s.hbm ∧
          ∀ k, t.core k = s.core k) ∧
      (∀ l, o.home = true → x.rec'.count = [] → (s.quire q).slices = [l] → mine l → l.way < o.ways → s.memWf →
        l.written.length = l.data.length → (t.quire q).slices = [] ∧ ∀ i, i < l.data.length →
          Memory.get t.hbm (l.base + i) = if l.written.getD i false then l.data.getD i 0 else Memory.get s.hbm (l.base + i))) ∧
    (o.sets q ≤ n ∨ s.setBusy id q n o = true → exec .resizeSetMove s = .next s) ∧
    ((∃ c, c ∈ o.count ∧ mapGet x.passed c.1 0 < o.sets c.1) → exec .resizeWalkEnd s = .next s) ∧
    (∀ k, s.memWf → o.count = [(q, k)] → o.sets q ≤ n → ∃ t, exec .resizeWalkEnd s = .next t ∧
      t.binding id = ⟨if x.rec'.count = [] then .retired else .active, x.rec', none, []⟩ ∧
      (∀ c (j : Fin 32), let back := (c, j) ∈ (s.heldShares q id).take (k - x.rec'.shares q)
        (t.core c).shares[j] = (if back then .own else (s.core c).shares[j]) ∧
        ∀ i, i < 0x2000 → t.byteAt (.spad c (j.val * 0x2000 + i)) = if back then 0 else s.byteAt (.spad c (j.val * 0x2000 + i))))

/-! ### Translation -/

/-- R414 to R422: a walk takes one entry at each level, from the root in QASR down, and ends in the leaf's translation, or
in the upcall of Table 16.4 at the level that fails; what it found enters the TLBs, and only a malformed entry leaves a
count. An entry that has left the TLBs before is walked afresh. A cleared QASR makes every address an upcall 0x20. -/
def Claims.TranslationWalks : Prop :=
  ∀ (s : State) (va : Word) (ent : Nat → Word) (l : Nat),
    let q := s.quire s.myQuire
    let bits := 12 + 9 * l
    let node (k : Nat) : Nat := if k = 4 then (q.qasr.extractLsb' 12 34).toNat * 4096 else Pte.pa (ent (k + 1))
    let pointer (k : Nat) : Prop := Pte.v (ent k) = true ∧ Pte.leaf (ent k) = false ∧ malformed s k va (ent k) = false ∧
      Pte.mig (ent k) = false ∧ Pte.rmt (ent k) = false
    let e := ent l
    let good := Pte.v e = true ∧ malformed s l va e = false
    let up (k : BitVec 6) : Except Stop Walked := .error (.exc (.upcall k va))
    let n := s.turn.core
    let v := s.turn.value
    let s0 : State := if s.turn.index = 0 then s else s.invalidate n (some v)
    let t0 : State := { s0 with cur := n, ctx := 0 }
    let regs (t : State) : Prop := (t.core n).ctxs = (s.core n).ctxs ∧ (t.core n).csr = (s.core n).csr ∧ OtherCoresSame s t n ∧
      SameBytes s t ∧ t.cur = s.cur ∧ t.ctx = s.ctx ∧ t.issue = s.issue
    (q.qasr.getLsbD 0 = false → walk s va va = up 0x20) ∧
    (q.qasr.getLsbD 0 = true → canonical ((q.qasr.extractLsb' 12 34).toNat * 4096) ≠ none → l ≤ 4 →
      (∀ k, k ≤ 4 → q.nodes.find? (fun c => c.level = k && c.vaPart = va.toNat / 2 ^ (12 + 9 * k)) = none) →
      (∀ k, l ≤ k → k ≤ 4 → readEntry s (node k) (va.toNat / 2 ^ (12 + 9 * k) % 512) = .ok (some (ent k))) → (∀ k, l < k → k ≤ 4 → pointer k) →
      (good → Pte.leaf e = true → Pte.mig e = false → Pte.g64 e = false →
        ∃ nodes, walk s va va = .ok ⟨⟨va.toNat / 2 ^ bits * 2 ^ bits, bits, e⟩, nodes⟩) ∧
      (Pte.v e = false → walk s va va = up (if Pte.leaf e = true ∧ 0 < l then 0x22 else 0x20)) ∧
      (Pte.v e = true → malformed s l va e = true → walk s va va = .error (.badWalk (.upcall 0x20 va))) ∧
      (good → Pte.mig e = true → walk s va va = up 0x24) ∧
      (good → Pte.mig e = false → Pte.leaf e = false → Pte.rmt e = true → walk s va va = up 0x23)) ∧
    (∀ f u, translate v v s.turn.flag t0 = .ok (f, u) → ∃ t, exec .translationWalk s = .next t ∧ regs t ∧
      (if s.turn.flag then (t.core n).itlb else (t.core n).dtlb).any (fun x => x.covers v) = true) ∧
    (∀ c, translate v v s.turn.flag t0 = .error (.exc c) → exec .translationWalk s = .next s0) ∧
    (∀ c, translate v v s.turn.flag t0 = .error (.badWalk c) →
      exec .translationWalk s = .next { s0 with mgmt := { s.mgmt with malformed := s.mgmt.malformed + 1 } }) ∧
    (s.turn.index ≠ 0 → v.toNat < 2 ^ 56 → ∀ x, x ∈ (s0.core n).dtlb → x.covers v = false)

/-- R414, R421 and R422: the management core's invalidation of everything empties the TLBs and node caches of the quires
that it names, and of one address removes what covers it; it is complete when no store to HBM or to a device is left in
a store buffer there, and waits till then. A write of QASR waits until its quire is quiet, and empties the TLBs. -/
def Claims.AddressSpaceManagement : Prop :=
  ∀ (s : State), let qs := s.turn.list
    let member (c : Nat) : Prop := ∃ q, q ∈ qs ∧ c / 96 = q
    let left : Prop := ∃ c, member c ∧ ∃ x, x ∈ (s.core c).sb ∧ ∃ p, p ∈ x.parts ∧
      ((∃ pa b, p.place = .hbm pa b) ∨ ∃ d pa, p.place = .remote d pa)
    let q := s.turn.unit
    let x := s.quire q
    (s.turn.again = false → ∃ t, exec .remoteInvalidation s = .next t ∧
      (∀ c, member c → (t.core c).itlb = (s.core c).itlb.filter (fun e => match s.turn.opt with | some a => !isCanonical a || !e.covers a | none => false) ∧
        (t.core c).dtlb = (s.core c).dtlb.filter (fun e => match s.turn.opt with | some a => !isCanonical a || !e.covers a | none => false)) ∧
      (∀ k, k ∈ qs → s.turn.opt = none → (t.quire k).tlb2 = [] ∧ (t.quire k).nodes = []) ∧
      (∀ c, ¬member c → t.core c = s.core c) ∧ (∀ c, (t.core c).ctxs = (s.core c).ctxs) ∧ SameBytes s t ∧
      (left → t.reports = s.reports ∧ ∃ h, h ∈ t.held ∧ h.1 = .remoteInvalidation) ∧
      (¬left → t.reports = s.reports ++ [(6, qs.length)] ∧ t.held = s.held)) ∧
    (s.quiet q = true → s.behind .qasrWrite = false → ∃ t, exec .qasrWrite s = .next t ∧
      (t.quire q).qasr = s.turn.value &&& 0xFFFF3FFFFFFFF001 ∧ (t.quire q).tlb2 = [] ∧ (t.quire q).nodes = [] ∧
      (∀ k, k ≠ q → t.quire k = s.quire k) ∧ (∀ c, c / 96 = q → (t.core c).itlb = [] ∧ (t.core c).dtlb = []) ∧
      (∀ c, c / 96 ≠ q → t.core c = s.core c) ∧ (∀ c, (t.core c).ctxs = (s.core c).ctxs ∧ (t.core c).csr = (s.core c).csr) ∧ SameBytes s t) ∧
    (s.quiet q = false → ∃ t, exec .qasrWrite s = .next t ∧ t.quire q = x ∧ ∃ h, h ∈ t.held ∧ h.1 = .qasrWrite ∧ h.2.unit = q)

/-! ### Steps of worklists, and launches -/

/-- R358 to R365: a lowering that reaches a quire's agent makes V there the lesser of V and the least contribution; an epoch
makes V the least contribution at every agent and, where that is a rise, wakes the idle cores of the placed quires; a sweep of a worklist without partners counts, and
when two in a row agree and are quiet marks it quiet, and writes STATUS; a partner that does not answer is lost. -/
def Claims.WorklistSteps : Prop :=
  ∀ (s : State) (w : Worklist), let id := s.turn.unit
    let q := s.turn.index
    let cs := s.contributions id
    let kept (t : State) : Prop := ∀ c (x : Fin 11), (t.core c).ctxs[x].w = (s.core c).ctxs[x].w ∧ (t.core c).ctxs[x].pc = (s.core c).ctxs[x].pc ∧
      (t.core c).csr = (s.core c).csr ∧ (t.core c).run = (s.core c).run
    let quiet : Prop := w.status ≠ 2 ∧ s.countsZero id = true ∧ w.pushed = w.taken ∧ ∃ old, w.last = some old ∧ old.quiet = true ∧
      old.pushed = w.pushed ∧ old.taken = w.taken
    let ended : Prop := w.sys = false ∧ w.pq = [] ∧ w.found = none ∧ w.regs = []
    s.wl? id = some w →
    (∀ m, m ∈ cs → (∀ b, b ∈ cs → m ≤ b) → ∃ t x, exec .lowLoweringBroadcast s = .next t ∧
      t.wl? id = some x ∧ x.view q = some (match w.view q with | some v => if v ≤ m then v else m | none => m) ∧
      (∀ k, k ≠ q → x.view k = w.view k) ∧ x = { w with lows := x.lows } ∧
      (∀ k, k ≠ id → t.wl? k = s.wl? k) ∧ t.cores = s.cores ∧ t.hbm = s.hbm) ∧
    (cs = [] → exec .lowLoweringBroadcast s = .next s) ∧
    (w.pq = [] → (cs = [] → ∃ t, exec .worklistEpoch s = .next t ∧ t.wl? id = some { w with low := none, lows := [] } ∧ kept t ∧ t.hbm = s.hbm) ∧
      (∀ m, m ∈ cs → (∀ b, b ∈ cs → m ≤ b) → ∃ t, exec .worklistEpoch s = .next t ∧ t.wl? id = some { w with low := some m, lows := [] } ∧ kept t ∧
        t.hbm = s.hbm ∧ ((∀ k v, k ∈ s.service → w.view k = some v → m ≤ v) → (∀ c, c ∈ s.cores → ∀ x : Fin 11, c.2.ctxs[x].posted = none) → t.cores = s.cores) ∧
        ∀ k v c, k ∈ s.service → w.view k = some v → v < m → w.place = [c / 96] → s.idle c = true → (t.core c).wake = true)) ∧
    (w.found.isSome = true → exec .worklistSweep s = .next s) ∧
    (ended → s.memWf → s.quires = [] → ∃ t u, exec .worklistSweep s = .next t ∧ t.wl? id = some u ∧ u.sweeps = w.sweeps + 1 ∧
      u.found = none ∧ u.pushed = w.pushed ∧ u.taken = w.taken ∧ u.slots = w.slots ∧ (quiet → u.status = 1) ∧ (¬quiet → u.status = w.status) ∧
      (∃ x, u.last = some x ∧ x.pushed = w.pushed ∧ x.taken = w.taken ∧ (x.quiet = true ↔ s.countsZero id = true)) ∧ kept t ∧
      Memory.read t.hbm (w.record + 0x80) 0x30 = toBytes 8 w.pushed ++ toBytes 8 w.taken ++ toBytes 8 w.dsent ++ toBytes 8 w.dclaim ++
        toBytes 4 (if cs = [] then 0xFFFFFFFF else (s.leastView w).getD 0xFFFFFFFF) ++ toBytes 1 u.status ++ toBytes 1 id ++ toBytes 2 0 ++ toBytes 8 (w.sweeps + 1) ∧
      ∀ a, (a < w.record + 0x80 ∨ w.record + 0x100 ≤ a) → t.byteAt (.hbm a 0) = s.byteAt (.hbm a 0)) ∧
    ((∃ a, a ∈ w.asks ∧ a.partner = s.turn.index) → ∃ t u, exec .partnerReadTimeout s = .next t ∧ t.wl? id = some u ∧ u.status = 2 ∧
      u.asks = w.asks.filter (fun a => a.partner ≠ s.turn.index) ∧ kept t ∧
      u.donated = w.donated.filter (fun d => d.1 ≠ (w.pq.getD s.turn.index (0, 0)).1)) ∧
    ((∀ a, a ∈ w.asks → a.partner ≠ s.turn.index) → exec .partnerReadTimeout s = .next s)

/-- R336, R337 and R408 to R412: a launch that meets a status above 0 is answered with the lowest such status and does
nothing else, one that must wait is held, and another is answered with 0 and stands on its root's ready list with its
folio; a notice is refused, or delivered as a request message, or held while the inbox is full. -/
def Claims.LaunchesAndNotices : Prop :=
  ∀ (s : State), let t0 := s.turn
    let b := t0.bytes
    let m := LaunchMsg.ofBytes b
    let n := m.root
    let free := s.frameBehind .launch = false
    let busy := (s.core n).undelivered
    let wrong (k : Nat) : Prop := match k with
      | 1 => 18432 ≤ n ∨ s.service.contains (n / 96) = false
      | 2 => m.pc.getLsbD 0 = true ∨ 2 ^ 56 ≤ m.pc.toNat
      | 3 => m.flags % 2 = 0 ∧ busy = true
      | 4 => 2 ≤ m.flags
      | _ => False
    let told (t : State) (f : Frame) : Prop := t.link.out = s.link.out ++ [f]
    let dest := t0.index
    let ket := BitVec.ofNat 32 (fieldAt b 0 4)
    let bad : Prop := 18432 ≤ dest ∨ s.service.contains (dest / 96) = false ∨ (hasV ket = true ∧ kettleOk ket = false)
    let msg : Msg := ⟨dest, 0xFFFF, false, b.take 4 ++ [0xFF, 0xFF, 0] ++ b.drop 7, false⟩
    let noticeFree := s.frameBehind .hostNotice = false
    (¬free → ∃ t, exec .launch s = .next t ∧ t.cores = s.cores ∧ t.link = s.link ∧ ∃ h, h ∈ t.held ∧ h.1 = .launch ∧ h.2.bytes = b) ∧
    (free →
      (∀ k, wrong k → (∀ j, j < k → ¬wrong j) → ∃ t, exec .launch s = .next t ∧ told t (.launched m.tag k) ∧ t.cores = s.cores ∧ SameBytes s t) ∧
      ((∀ k, ¬wrong k) → busy = true → ∃ t, exec .launch s = .next t ∧ t.cores = s.cores ∧ t.link = s.link ∧
        ∃ h, h ∈ t.held ∧ h.1 = .launch ∧ h.2.bytes = b) ∧
      ((∀ k, ¬wrong k) → (s.core n).ready = [] → (s.core n).bad = [] → s.granules = [] → s.watches = [] → s.memWf →
        ∃ t, exec .launch s = .next t ∧ told t (.launched m.tag 0) ∧ t.folioBytes n launchFolio = folioImage m.pc m.arg 0 3 ∧
          (∃ p, (t.core n).ready = [p] ∧ p.launch = true ∧ p.handle = folioHandle n launchFolio ∧ p.acq = some .dev ∧ p.pri = 0) ∧
          (t.core n).wake = true ∧ OtherCoresSame s t n)) ∧
    (noticeFree → b.length = 32 →
      (bad → ∃ t, exec .hostNotice s = .next t ∧ told t (.notice false) ∧ t.cores = s.cores ∧ SameBytes s t) ∧
      (¬bad → ∀ u, s.messageIn msg = some u → ∃ t, exec .hostNotice s = .next t ∧ t.link.out = u.link.out ++ [.notice true] ∧ t.cores = u.cores) ∧
      (¬bad → s.messageIn msg = none → ∃ t, exec .hostNotice s = .next t ∧ t.cores = s.cores ∧ t.link = s.link ∧
        ∃ h, h ∈ t.held ∧ h.1 = .hostNotice ∧ h.2.index = dest))

/-- R409, R411 and R412: the host's accesses of 1 to 256 bytes are performed at the bytes' home, give the bytes that stand
there or leave those that came, and are answered; one that cannot be performed yet, or that comes behind frames that wait,
waits; another size is reported and does nothing; a fence is answered when no
earlier write waits; LSTAT shows the state of the part; the side-band
reads it, FABCTL and PRCTL under the numbers 0 to 2, which are the model's choice (log 94); the link goes down and comes up. -/
def Claims.HostAccesses : Prop :=
  ∀ (s : State), let a := s.turn.addr
    let b := s.turn.bytes
    let ok (n : Nat) : Prop := 1 ≤ n ∧ n ≤ 256 ∧ (∃ k, n = 2 ^ k) ∧ a % n = 0 ∧ a + n ≤ 0x6000000000
    let told (t : State) (f : Frame) : Prop := t.link.out = s.link.out ++ [f]
    -- the access waits: no byte differs, and nothing is answered
    let queued (t : State) : Prop := SameBytes s t ∧ t.cores = s.cores ∧ t.link = s.link
    let n := s.turn.index
    let bit (x : Bool) (i : Nat) : Nat := if x then 2 ^ i else 0
    let lstat : Word := BitVec.ofNat 64 (bit s.link.up 0 + bit s.mgmt.ready 1 + bit s.imago 2 + bit s.mgmt.fault 3 + bit (s.fabctl.getLsbD 20) 4)
    (¬ok n → exec .hostRead s = .next { s with reports := s.reports ++ [(5, a)] }) ∧
    (¬ok b.length → exec .hostWrite s = .next { s with reports := s.reports ++ [(5, a)] }) ∧
    (ok n → s.frameBehind .hostRead = false → s.hostFree 0 a n = true → s.quires = [] → s.badHbm = [] → ∃ t, exec .hostRead s = .next t ∧
      told t (.data (Memory.read s.hbm a n)) ∧ (∀ i, i < n → (a + i) / 128 * 128 ∈ t.link.cached) ∧ t.cores = s.cores ∧ SameBytes s t) ∧
    (ok b.length → s.frameBehind .hostWrite = false → s.hostFree 1 a b.length = true → s.quires = [] → s.link.cached = [] → s.watches = [] → s.memWf →
      ∃ t, exec .hostWrite s = .next t ∧ told t .ack ∧ Memory.read t.hbm a b.length = b ∧ t.cores = s.cores ∧
        ∀ i, (i < a ∨ a + b.length ≤ i) → t.byteAt (.hbm i 0) = s.byteAt (.hbm i 0)) ∧
    (ok n → s.frameBehind .hostRead = true → exec .hostRead s = .next (s.hold .hostRead)) ∧
    (ok n → s.frameBehind .hostRead = false → s.hostFree 0 a n = false → ∃ t, exec .hostRead s = .next t ∧ queued t ∧
      ∃ h, h ∈ t.held ∧ h.1 = .hostRead ∧ h.2.addr = a) ∧
    (ok b.length → s.frameBehind .hostWrite = true → exec .hostWrite s = .next (s.hold .hostWrite)) ∧
    (ok b.length → s.frameBehind .hostWrite = false → s.hostFree 1 a b.length = false → ∃ t, exec .hostWrite s = .next t ∧ queued t ∧
      ∃ h, h ∈ t.held ∧ h.1 = .hostWrite ∧ h.2.bytes = b) ∧
    (s.frameBehind .hostFence = false → ∃ t, exec .hostFence s = .next t ∧ told t .ack ∧ t.cores = s.cores ∧ SameBytes s t) ∧
    (s.frameBehind .hostFence = true → exec .hostFence s = .next (s.hold .hostFence)) ∧
    (s.turn.flag = false → s.frameBehind .lstatRead = true → exec .lstatRead s = .next (s.hold .lstatRead)) ∧
    (s.turn.flag = false → s.frameBehind .lstatRead = false → ∃ t, exec .lstatRead s = .next t ∧ told t (.lstat lstat) ∧ t.cores = s.cores ∧ SameBytes s t) ∧
    (s.turn.flag = true → ∃ t, exec .lstatRead s = .next t ∧ (n = 0 → t.mgmt.smbus = s.mgmt.smbus ++ [toBytes 8 lstat.toNat]) ∧
      (n = 1 → t.mgmt.smbus = s.mgmt.smbus ++ [toBytes 8 s.fabctl.toNat]) ∧ (n = 2 → t.mgmt.smbus = s.mgmt.smbus ++ [toBytes 8 s.prctl.toNat]) ∧
      t.cores = s.cores ∧ t.link = s.link ∧ SameBytes s t) ∧
    exec .ohmovRetrain s = .next { s with link := { s.link with up := s.turn.flag } }

/-! ### Home slices and the on-die networks -/

/-- R322, R323, R325, R326, R387, R389: what a home does for each request: a fill's answer goes on its way with the line's
bytes, an ownership fill recalls every other quire's copies and a `.si` fill the doubles that others own; written bytes
merge at the home; a core's `.wt`, `.si` or `.unc` store to a home binding, and a store that a quire forwards, are performed
there. A recall that meets an awaited reply is held for it, another is applied; a reply installs its line, gives the
accesses that wait for it their bytes, and then applies a recall held for it. -/
def Claims.HomeRequestsAndReplies : Prop :=
  ∀ (s : State) (r : BindRec) (m : Bool), let u := s.turn.unit
    let i := s.turn.index
    let a := s.turn.addr
    let bd := s.binding i
    let near : Prop := bd.rec'.home = false ∧ bd.instanceFor u a = some (r, m) ∧ s.mayFill 0 r = true
    let homed : Prop := bd.rec'.home = true ∧ s.homeBinding i a = i ∧ bd.homeRec a = some (r, m) ∧ s.mayFill i r = true
    let base := a / r.line * r.line
    let fills (t : State) (req : Request) (p : Fill → Prop) : Prop := ∃ f, t.noc.fills = s.noc.fills ++ [f] ∧ f.quire = u ∧
      f.binding = i ∧ f.base = base ∧ f.req = req ∧ f.data.length = r.line ∧ f.waits = [] ∧ f.probed = false ∧ p f
    let n := s.turn.core
    let meets (f : Fill) : Prop := f.quire = u ∧ f.base ≤ a ∧ a < f.base + f.data.length
    let still : Prop := s.memWf ∧ s.granules = [] ∧ s.watches = [] ∧ s.linesOk
    let stored (j : Instr) (reqs : List Request) : Prop := ∀ x va pa b req bs rest,
      (s.core n).sb = ⟨x, [⟨.hbm pa b, va, req, storeBytes bs⟩]⟩ :: rest → req ∈ reqs → still → (s.binding b).rec'.home = true →
      pa % 8 + bs.length ≤ 8 → (∀ d, s.hurtDouble (quireOf n) (.hbm pa b) req d = false) →
      s.storeReady n ⟨x, [⟨.hbm pa b, va, req, storeBytes bs⟩]⟩ = true →
      ∃ t, exec j s = .next t ∧ (t.core n).sb = rest ∧ ∀ k, k < bs.length → t.byteAt (.hbm (pa + k) b) = bs.getD k 0
    (near → ∃ t, exec .homePlainFill s = .next t ∧ t.cores = s.cores ∧ (∀ q, (t.quire q).lines = (s.quire q).lines) ∧
      fills t .dflt fun f => (∀ q, (s.quire q).slices = []) → f.data = Memory.read s.hbm base r.line) ∧
    (near → ∃ t, exec .homeOwnFill s = .next t ∧ fills t .own (fun _ => True) ∧
      ∀ q l, q ≠ u → l ∈ (t.quire q).lines → overlaps l.base l.data.length base r.line = false) ∧
    (near → 0 < r.lease → ∃ t, exec .homeSiFill s = .next t ∧ fills t .si (fun f => f.lease.isSome = true) ∧
      ∀ q l, q ≠ u → l ∈ (t.quire q).lines → l.ownsAny base r.line = false) ∧
    (homed → 0 < r.lease → ∃ t, exec .homeSiFill s = .next t ∧ fills t .si fun f => f.lease.isSome = true) ∧
    (near ∨ homed → r.lease = 0 → exec .homeSiFill s = .next s) ∧
    (∀ x l, s.quires = [(u, x)] → x.lines = [l] → x.slices = [] → x.forwards = [] → overlaps l.base l.data.length a 1 = true →
      l.written.length = l.data.length → still → ∃ t, exec .homeWriteBack s = .next t ∧
        (t.quire u).lines = (if s.turn.flag then [] else [l.cleaned fun _ => true]) ∧
        ∀ k, k < l.data.length →
          t.byteAt (.hbm (l.base + k) 0) = if l.written.getD k false then l.data.getD k 0 else s.byteAt (.hbm (l.base + k) 0)) ∧
    (s.turn.flag = true → stored .homeWtStore [.wt, .si]) ∧ stored .homeUncAccess [.unc] ∧
    (∀ f rest, s.turn.flag = false → (s.quire u).forwards = f :: rest → s.forwardWaits u f = false → still →
      (∃ k, f.pa % 8 + f.bytes.length ≤ 8 ∧ f.bytes = storeBytes k) →
      ∃ t, exec .homeWtStore s = .next t ∧ (t.quire u).forwards = rest ∧
        ∀ k, k < f.bytes.length → some (t.byteAt (.hbm (f.pa + k) 0)) = (f.bytes[k]?).map fun b => b.value) ∧
    ((∃ f, f ∈ s.noc.fills ∧ meets f) → s.heldProbes u < 32 → ∃ t, exec .probeArrival s = .next t ∧ t.quires = s.quires ∧
      t.hbm = s.hbm ∧ t.noc.fills.length = s.noc.fills.length ∧ ∀ f, f ∈ t.noc.fills → meets f → f.probed = true) ∧
    ((∃ f, f ∈ s.noc.fills ∧ meets f) → 32 ≤ s.heldProbes u → exec .probeArrival s = .next (s.hold .probeArrival)) ∧
    ((∀ f, f ∈ s.noc.fills → ¬meets f) → ∃ t, exec .probeArrival s = .next t ∧ t.noc = s.noc ∧
      ∀ l, l ∈ (t.quire u).lines → overlaps l.base l.data.length a 1 = false) ∧
    (∀ f, s.noc.fills[i]? = some f → s.arrived f.way = false → exec .dataReplyArrival s = .next s) ∧
    (∀ f, s.noc.fills[i]? = some f → s.arrived f.way = true → ∃ t, exec .dataReplyArrival s = .next t ∧
      t.noc.fills.length = (s.noc.fills.eraseIdx i).length ∧ ((∀ c, (s.core c).sb = []) → t.noc.fills = s.noc.fills.eraseIdx i) ∧
      (f.probed = true → ∀ l, l ∈ (t.quire f.quire).lines → overlaps l.base l.data.length f.base 1 = false) ∧
      (f.probed = false → (∀ c, (s.core c).sb = []) →
        (∀ b, (s.binding f.binding).rec'.home = false → (s.binding f.binding).instanceFor f.quire f.base = some (b, m) →
          b.line = f.data.length → (s.quire f.quire).line f.binding f.base = none → (s.quire f.quire).forwards = [] →
          ∃ l, l ∈ (t.quire f.quire).lines ∧ l.binding = f.binding ∧ l.base = f.base ∧ l.data = f.data) ∧
        ∀ w, f.waits = [w] → (s.context w.agent).waiting = true → (∀ x, x ∈ f.bad → x = false) →
          (t.context w.agent).got = (w.key, (f.data.drop (w.addr - f.base)).take w.bytes) :: (s.context w.agent).got))

/-- R385, R391 to R393, R447: the way on a die's torus goes along the row ring and then along the column ring, each in its
shorter direction, to its target; on the bypass ring it passes the attachments in increasing order; between dies that differ
in both bits it prefers the XOR 1 boundary, and goes round a boundary that is down. A drain changes the gated routers and
the clock of its die alone, once the die's networks are empty; a replayed flit counts until it goes
through; after 8 failed replays the link retrains, and after three failed retrainings a boundary goes down; with two
boundaries down every core stops and LSTAT.FAULT is set. -/
def Claims.LinksAndBoundaries : Prop :=
  ∀ (s : State) (d : Fin 4) (a b : Nat), let k := s.turn.unit
    let cols := (routerCol b + 8 - routerCol a) % 8
    let rows := (routerRow b + 6 - routerRow a) % 6
    let may := s.turn.list.filter fun q => quireDie q = k && s.gateable q
    let drained (t : State) (qs : List Nat) : Prop := t.cores = s.cores ∧ SameBytes s t ∧
      t.mgmt.half[d] = (!(s.imago || s.mgmt.walking) || decide (s.thermal[d] ≥ 3)) ∧
      (∀ e, e ≠ d → t.mgmt.half[e] = s.mgmt.half[e]) ∧
      ∀ q, q ∈ t.noc.gated ↔ (q / 48 ≠ k ∧ q ∈ s.noc.gated) ∨ q ∈ qs
    let rep := mapGet s.noc.replays k 0
    let ret := mapGet s.noc.retrains k 0
    (a / 48 = b / 48 → a ≠ b → let w := torusWay a b
      (w.getLast?.map fun x => x.1) = some b ∧ w.length = min cols (8 - cols) + min rows (6 - rows) ∧
      (cols ≠ 0 → (w.head?.map fun x => x.2) = some (if cols ≤ 4 then .rowUp else .rowDown)) ∧
      (cols = 0 → (w.head?.map fun x => x.2) = some (if rows ≤ 3 then .colUp else .colDown)) ∧
      ((bypassWay a b).getLast?.map fun x => x.1) = some b ∧
      ((bypassWay a b).head?.map fun x => x.1) = some (a / 48 * 48 + (a % 48 + 1) % 48) ∧
      ((s.noc.gated.contains a = true ∨ ∃ x, x ∈ w ∧ s.noc.gated.contains x.1 = true) → s.dieWay a b = bypassWay a b) ∧
      (s.noc.gated = [] → s.dieWay a b = w)) ∧
    (∀ e f : Fin 4, e ≠ f →
      (s.noc.down = [] → s.nextDie e.val f.val = some (if e.val ^^^ f.val = 2 then f.val else e.val ^^^ 1)) ∧
      ∀ j, s.noc.down = [j] → ∃ g, s.nextDie e.val f.val = some g ∧ boundaryOf e.val g ≠ j ∧ (g = e.val ^^^ 1 ∨ g = e.val ^^^ 2)) ∧
    (k = d.val → s.dieEmpty k = true → ∃ t, exec .dieDrain s = .next t ∧ drained t may) ∧
    (k = d.val → s.dieEmpty k = false → ∃ t, exec .dieDrain s = .next t ∧ (k, may) ∈ t.noc.draining ∧ t.noc.gated = s.noc.gated ∧
      t.mgmt = s.mgmt ∧ t.cores = s.cores ∧ SameBytes s t) ∧
    (∀ x, k = d.val → s.noc.draining = [x] → x.1 = k → s.dieEmpty k = true →
      ∃ t, s.drainEnd k = some t ∧ drained t x.2 ∧ t.noc.draining = []) ∧
    (∃ t, exec .linkFlitReplay s = .next t ∧ mapGet t.noc.replays k 0 = (if s.turn.flag then rep + 1 else 0) ∧
      (∀ j, j ≠ k → mapGet t.noc.replays j 0 = mapGet s.noc.replays j 0) ∧ t.noc.down = s.noc.down ∧ t.cores = s.cores) ∧
    (rep < 8 → exec .boundaryRetrain s = .next s) ∧
    (8 ≤ rep → ∃ t, exec .boundaryRetrain s = .next t ∧ t.cores = s.cores ∧ t.noc.down = s.noc.down ∧
      mapGet t.noc.retrains k 0 = (if s.turn.flag then ret + 1 else 0) ∧
      mapGet t.noc.replays k 0 = if s.turn.flag then rep else 0) ∧
    (4 ≤ k ∨ ret < 3 → exec .boundaryDown s = .next s) ∧
    (k < 4 → 3 ≤ ret → s.noc.down = [] → ∃ t, exec .boundaryDown s = .next t ∧ t.noc.down = [k] ∧ t.cores = s.cores ∧ SameBytes s t) ∧
    (∀ j, k < 4 → j < 4 → 3 ≤ ret → s.noc.down = [j] → j ≠ k → ∃ t, exec .boundaryDown s = .next t ∧ k ∈ t.noc.down ∧ j ∈ t.noc.down ∧
      t.mgmt.fault = true ∧ SameBytes s t ∧ ∀ c, s.service.contains (c / 96) = true → (t.core c).run = .stopped)

/-! ### The gutter fabric -/

/-- R397, R400, R401, R406 and R407: a request packet whose last 4 payload bytes are not its CRC-32, or from a closed fabric, or with an address in no view, or
without a permitted range, is answered with the NAK of that reason and does nothing; another is performed at the line's
home and answered: a read with the bytes, a write with an acknowledgement, an atomic with the old bytes and its flags;
one whose line is in use joins the queues of its granules and is held; one with flits missing has not arrived. The class map and the ranges are written at their home. -/
def Claims.RemoteRequestsAtTheTarget : Prop :=
  ∀ (s : State) (p : Packet) (payload : List Byte), s.turn.packet = some p →
    let came : Prop := s.payloadOf p.source p.pid p.payload = some payload
    let holds : Bool := crcHolds p.source p.pid payload
    let answered (t : State) (r : Reply) : Prop := t.fabric.answers = s.fabric.answers ++ [(p.source, p.pid, r)]
    let nak (k : Nat) : Prop := ∃ t, exec .remotePacketArrival s = .next t ∧ answered t (.nak k) ∧ t.cores = s.cores ∧ SameBytes s t
    let good : Prop := came ∧ holds = true ∧ s.fabctl.getLsbD 20 = true
    let rest (t : State) (a n : Nat) : Prop := ∀ i, (i < a ∨ a + n ≤ i) → t.byteAt (.hbm i 0) = s.byteAt (.hbm i 0)
    let bs := s.turn.bytes
    let w := s.turn.addr
    let first := (s.prctl.extractLsb' 20 19).toNat * 2 ^ 20
    -- a request that waits has been decided under the tables as it found them
    let decided (a : Nat) : Except Nat Nat := match s.turn.again, s.turn.list with
      | true, b :: _ => .ok b
      | _, _ => s.permitted p.source a p.op
    let inTables : Prop := first ≤ w ∧ w + bs.length ≤ first + 0x40000 + 1024 * 255 ∧ w + bs.length ≤ 0x6000000000
    (s.payloadOf p.source p.pid p.payload = none → exec .remotePacketArrival s = .next s) ∧
    (came → holds = false → nak 0) ∧ (came → holds = true → s.fabctl.getLsbD 20 = false → nak 5) ∧
    (good → canonical p.addr = none → nak 4) ∧
    (∀ a, good → s.turn.again = false → canonical p.addr = some a → s.prctl.getLsbD 39 = false ∨ s.byteAt (.hbm (first + p.source) 0) = 255 → nak 1) ∧
    (∀ a k, good → canonical p.addr = some a → decided a = .error k → nak k) ∧
    (∀ a b, good → canonical p.addr = some a → decided a = .ok b → s.memWf → s.quires = [] → s.badHbm = [] → s.watches = [] →
      (s.remoteFree p.source p.pid b a (RemoteOp.size p.op) = false → exec .remotePacketArrival s =
        .next (let t := s.remoteWaits p.source p.pid b a (RemoteOp.size p.op)
          ({ t with turn := { t.turn with list := [b] } } : State).hold .remotePacketArrival)) ∧
      (s.remoteFree p.source p.pid b a (RemoteOp.size p.op) = true →
        (∀ n, p.op = .read n → ∃ t, exec .remotePacketArrival s = .next t ∧ answered t (.data (Memory.read s.hbm a n)) ∧ t.cores = s.cores ∧
          SameBytes s t) ∧
        (∀ ds, p.op = .write ds → ∃ t, exec .remotePacketArrival s = .next t ∧ answered t .ack ∧ rest t a ds.length ∧
          ∀ i d m, ds[i]? = some (d, m) → t.byteAt (.hbm (a + i) 0) = (d &&& m) ||| (s.byteAt (.hbm (a + i) 0) &&& ~~~m)) ∧
        (∀ k v e, p.op = .atomic k 8 v e → s.granules = [] →
          let n := amoSize (AmoOp.ofCode k) .double
          let old := Memory.read s.hbm a n
          let x := amoBytes (AmoOp.ofCode k) .double old v e
          ∃ t, exec .remotePacketArrival s = .next t ∧ answered t (.data (old ++ [x.2.zeroExtend 8])) ∧ rest t a n ∧
            Memory.read t.hbm a n = x.1.getD old))) ∧
    (inTables → s.memWf → s.quires = [] → s.watches = [] → ∃ t, exec .permittedRangeTableWrite s = .next t ∧ Memory.read t.hbm w bs.length = bs ∧
      rest t w bs.length ∧ t.cores = s.cores) ∧
    (¬inTables → exec .permittedRangeTableWrite s = .next s)

/-- R400, R402 and R404: the first answer that comes to a context's request before its timeout is kept for the instruction; a reply
with a bad CRC counts as uncorrectable data and a bad acknowledgement as none; a CRC NAK sends the part that it names again,
three times; a timeout marks the request late, and names the part whose answer is missing; a fence token is acknowledged, or NAKed while the fabric is out of service, its
answer is taken off the handshake, and a handshake ends by its timeout. -/
def Claims.RemoteAnswers : Prop :=
  ∀ (s : State) (q : Remote) (r : Reply), let n := s.turn.core
    let x := s.turn.ctx
    let k := (s.core n).ctxs[x]
    let gives (i : Instr) (z : Option Remote) : Prop := ∃ t, exec i s = .next t ∧ (t.core n).ctxs[x].remote = z ∧
      (t.core n).ctxs[x].w = k.w ∧ (t.core n).ctxs[x].pc = k.pc ∧ (t.core n).csr = (s.core n).csr ∧ OtherCoresSame s t n ∧ SameBytes s t
    let part := s.turn.list.headD 0
    let again : Remote := if 3 ≤ mapGet q.tries part 0 then { q with late := true, part := part }
      else { q with tries := mapPut q.tries part (mapGet q.tries part 0 + 1) }
    (s.turn.unit = 0 → s.turn.packet = none → k.remote = some q → s.turn.reply = some r →
      (s.turn.addr = 0 → gives .remoteReplyArrival (some (if q.answer = none ∧ q.late = false
        then { q with answer := some r, part := part } else q))) ∧
      (s.turn.addr = 1 → ∀ bs, r = .data bs → gives .remoteReplyArrival (some (if q.answer = none ∧ q.late = false
        then { q with answer := some .poison, part := part } else q))) ∧
      (s.turn.addr = 1 → r = .ack → gives .remoteReplyArrival (some q)) ∧
      (s.turn.addr = 2 → gives .remoteReplyArrival (some again) ∧ (∀ x, q.parts[part]? = some x → mapGet q.tries part 0 < 3 →
        ∃ t, exec .remoteReplyArrival s = .next t ∧ t.fabric.nextPid = (s.fabric.nextPid % 65536 + 1) % 65536 ∧
          ∃ (p : Fin 8) (f : Flit), f ∈ t.fabric.planes[p].inject ∧ f.dst = q.dev ∧ f.src = s.devid ∧ f.cls = 2 ∧ f.seq = 0))) ∧
    (s.turn.unit = 0 → k.remote = some q → gives .fabricTimeout (some (if q.answer = none then { q with late := true, part := part } else q))) ∧
    (∀ h, k.hand = some h →
      (s.turn.unit = 4 → s.turn.packet = none → s.turn.reply = some r → r = .ack → s.turn.addr = 0 → ∃ t, exec .remoteReplyArrival s = .next t ∧
        (t.core n).ctxs[x].hand = some { h with left := h.left.filter fun d => d ≠ s.turn.index } ∧ OtherCoresSame s t n ∧ SameBytes s t) ∧
      (s.turn.flag = false → ∃ t, exec .fenceHandshakeTimeout s = .next t ∧ (t.core n).ctxs[x].hand = some { h with late := true } ∧
        OtherCoresSame s t n ∧ SameBytes s t)) ∧
    (∀ h, (s.core n).peerHand = some h →
      (s.turn.unit = 5 → s.turn.packet = none → s.turn.reply = some r → r = .ack → s.turn.addr = 0 → ∃ t, exec .remoteReplyArrival s = .next t ∧
        (t.core n).peerHand = some { h with left := h.left.filter fun d => d ≠ s.turn.index } ∧ OtherCoresSame s t n ∧ SameBytes s t) ∧
      (s.turn.flag = true → ∃ t, exec .fenceHandshakeTimeout s = .next t ∧ (t.core n).peerHand = some { h with late := true } ∧
        OtherCoresSame s t n ∧ SameBytes s t)) ∧
    ∃ t, exec .fenceToken s = .next t ∧ t.fabric.answers = s.fabric.answers ++
      [(s.turn.index, s.turn.addr, if s.fabctl.getLsbD 20 = true then .ack else .nak 5)] ∧ t.cores = s.cores ∧ SameBytes s t

/-- R398 and R399: a flit for another device leaves by its first productive port; of two that want the same one the one
that comes first in the arbitration order takes it, and the other leaves by the lowest free port with its AGE one
higher; one that waits injects where a port is free, and takes its STAMP then; no port sends two; a bad flit is dropped and
counted; a reply for this device enters a buffer. A refused packet is sent again with
AGE 255 and TRY one higher, its STAMP kept; a buffer held for a refused packet frees after a fabric timeout. Where it
rests on a choice of the model: log 24. -/
def Obligations.RoutersAndRefusals : Prop :=
  ∀ (s : State) (x y : Flit) (xs ys : List Byte) (a b p p2 : Nat) (k : Fin 8) (rest : List Flit) (z : Refused),
    let on : Prop := s.turn.unit = k.val
    let here := s.devid
    let pl := s.fabric.planes[k]
    let cycle (t : State) (out : List (Nat × Flit)) : Prop := exec .planeRouterCycle s = .next t ∧ t.fabric.planes[k].out = out ∧
      t.cores = s.cores ∧ SameBytes s t ∧ ∀ j, j ≠ k → t.fabric.planes[j] = s.fabric.planes[j]
    let fine (f : Flit) : Prop := s.deviceValid f.dst = true ∧ f.zero = 0 ∧ f.dst ≠ here
    let q := s.turn.index
    let again : List Flit := (x :: rest).map fun f => { f with age := 255, tries := (f.tries + 1) % 4 }
    (on → ∃ t, exec .planeRouterCycle s = .next t ∧ t.cores = s.cores ∧ SameBytes s t ∧
      (∀ o, o ∈ t.fabric.planes[k].out → o.1 ∈ s.ports) ∧ (t.fabric.planes[k].out.map fun o => o.1).Nodup) ∧
    (on → pl.inject = x :: rest → s.turn.flits = [] → x.dst ≠ here → s.ports.find? (s.productive x.dst) = some p →
      ∃ t, cycle t [(p, if x.fresh = true then { x with stamp := s.gtime.extractLsb' 0 32, fresh := false } else x)] ∧
        t.fabric.planes[k].inject = rest) ∧
    (on → pl.inject = [] → s.turn.flits = [(a, xs)] → flitOf xs = x →
      (fine x → s.ports.find? (s.productive x.dst) = some p → ∃ t, cycle t [(p, x)] ∧ t.fabric.buffers = s.fabric.buffers) ∧
      (x.zero ≠ 0 ∨ s.deviceValid x.dst = false → ∃ t, cycle t [] ∧ t.fabric.dropped = s.fabric.dropped + 1) ∧
      (s.deviceValid x.dst = true → x.zero = 0 → x.dst = here → x.cls = 1 → pl.discard = [] → (∀ f, f ∈ s.fabric.buffers → f.holds x = false) →
        ∃ t, cycle t [] ∧ t.fabric.buffers = s.fabric.buffers ++ [⟨x.src, x.pid, x.tries, x.last, 1, false, [(x.seq, x.payload)]⟩])) ∧
    (on → pl.inject = [] → s.turn.flits = [(a, ys), (b, xs)] → flitOf xs = x → flitOf ys = y → fine x → fine y → x.before y = true → y.before x = false →
      s.ports.find? (s.productive x.dst) = some p → (∀ j, j ∈ s.ports → s.productive y.dst j = true → j = p) →
      (s.ports.erase p).head? = some p2 → s.ports.Nodup → ∃ t, cycle t [(p, x), (p2, { y with age := if y.age < 255 then y.age + 1 else 255 })]) ∧
    (mapGet s.fabric.sent q [] = x :: rest → x.dst = s.turn.unit → x.tries = s.turn.addr → x.plane < 8 →
      (s.gtime.extractLsb' 0 32 - x.stamp).toNat < s.timeout → ∃ t, exec .refusal s = .next t ∧ mapGet t.fabric.sent q [] = again ∧
        (t.fabric.plane x.plane).inject = (s.fabric.plane x.plane).inject ++ again ∧ t.cores = s.cores ∧ SameBytes s t) ∧
    (mapGet s.fabric.sent q [] = x :: rest → s.timeout ≤ (s.gtime.extractLsb' 0 32 - x.stamp).toNat → exec .refusal s = .next s) ∧
    (on → pl.refused[q]? = some z →
      (z.given = true → s.timeout ≤ (s.gtime - z.since).toNat → ∃ t, exec .refusalReservationTimeout s = .next t ∧
        t.fabric.planes[k].refused.length + 1 = pl.refused.length ∧ t.cores = s.cores ∧ SameBytes s t) ∧
      (z.given = false ∨ (s.gtime - z.since).toNat < s.timeout → exec .refusalReservationTimeout s = .next s))

/-- R394, R397, R402, R403, R405, R406 and R445: a silent neighbour enters the lost set, is reported, and a notice goes to every
other device; a notice enters a valid device into the lost set and the management core takes one out; an idle lane of a
port in use sends a keepalive, and one that comes leaves its sender's time; an arrival at the system barrier from a device below is
kept; once those of every member here and of every device below have come they rise to the device above, and at the top
the release goes down; a device without members passes on the arrivals below it; a release that comes goes on to the devices
below and ends the waits; while the fabric is closed notices and barrier packets are NAKed; the management core's registers
take the bits that they define. The tree's own form is the model's choice (log 91). Where it rests on a choice of the
model: log 45, log 74. -/
def Obligations.ContactLossesAndSystemBarrier : Prop :=
  ∀ (s : State), let d := s.neighbour s.turn.unit
    let e := s.turn.index
    let on : Bool := s.fabctl.getLsbD 20
    let kept (t : State) : Prop := t.cores = s.cores ∧ SameBytes s t
    let sent (t : State) (dev : Nat) : Prop := ∃ (k : Fin 8) (f : Flit), f ∈ t.fabric.planes[k].inject ∧ f.dst = dev ∧ f.src = s.devid ∧ f.cls = 0 ∧ f.age = 0
    let below : Prop := ∀ x, x ∈ s.treeChildren → x ∈ s.fabric.risen
    let complete (p : Episode) : Prop := p.alone = false ∧ p.released = false ∧ ∀ c, c ∈ s.members .sys 0 → c ∈ p.arrived ∨ c ∈ p.out
    let freed (p : Episode) : Episode := if p.level = .sys ∧ p.alone = false then { p with released := true } else p
    let goesDown (t : State) : Prop := kept t ∧ t.fabric.risen = [] ∧ t.fabric.rose = false ∧ t.episodes = s.episodes.map freed ∧
      ∀ x, x ∈ s.treeChildren → sent t x
    let rises : Prop :=
      (∀ up, s.treeParent s.devid = some up → ∃ t, act s .rise = .next t ∧ kept t ∧ sent t up ∧ t.fabric.rose = true ∧ t.episodes = s.episodes) ∧
      (s.treeParent s.devid = none → ∃ t, act s .rise = .next t ∧ goesDown t)
    let turned (i : Instr) (src : Nat) : Prop := ∃ t, exec i s = .next t ∧ kept t ∧ t.lost = s.lost ∧ t.episodes = s.episodes ∧
      t.fabric.risen = s.fabric.risen ∧ t.fabric.answers = s.fabric.answers ++ [(src, s.turn.addr, .nak 5)]
    let port : Prop := s.turn.unit < 6 ∧ 1 < s.extent (s.turn.unit / 2)
    (port → ∃ t, exec .neighbourSilence s = .next t ∧ kept t ∧ (∀ x, x ∈ t.lost ↔ x = d ∨ x ∈ s.lost) ∧ t.reports = s.reports ++ [(4, d)] ∧
      ∀ x, s.deviceValid x = true → x ≠ s.devid → sent t x) ∧
    (¬port → exec .neighbourSilence s = .next s ∧ exec .keepalive s = .next s) ∧
    (port → s.turn.flag = false → ∃ t, exec .keepalive s = .next t ∧ kept t ∧ sent t d) ∧
    (port → s.turn.flag = true → ∃ t, exec .keepalive s = .next t ∧ kept t ∧ (d, s.turn.value, s.gtime) ∈ t.fabric.times) ∧
    (on = false → turned .lossNotice s.turn.unit ∧ turned .barrierSysPacket e) ∧
    (on = true → s.deviceValid e = true → ∃ t, exec .lossNotice s = .next t ∧ kept t ∧ ∀ x, x ∈ t.lost ↔ x = e ∨ x ∈ s.lost) ∧
    (on = true → s.deviceValid e = false → exec .lossNotice s = .next s) ∧
    (∃ t, exec .lostSetClear s = .next t ∧ kept t ∧ ∀ x, x ∈ t.lost ↔ x ≠ e ∧ x ∈ s.lost) ∧
    (on = true → s.turn.flag = false → ∃ t, exec .barrierSysPacket s = .next t ∧ kept t ∧ t.episodes = s.episodes ∧
      ∀ x, x ∈ t.fabric.risen ↔ x = e ∨ x ∈ s.fabric.risen) ∧
    (on = true → s.turn.flag = true → ∃ t, exec .barrierSysPacket s = .next t ∧ goesDown t) ∧
    (∀ p, on = true → s.fabric.rose = false → s.episode .sys 0 = some p → complete p → below → rises) ∧
    (on = true → s.fabric.rose = false → s.episode .sys 0 = none → s.members .sys 0 = [] → below → (∃ up, s.treeParent s.devid = some up) → rises) ∧
    (on = false ∨ s.fabric.rose = true ∨ ¬below ∨ (∃ p, s.episode .sys 0 = some p ∧ ¬complete p) → act s .rise = .next s) ∧
    exec .fabctlWrite s = .next { s with fabctl := s.turn.value &&& 0x1FFFFF } ∧
    exec .prctlWrite s = .next { s with prctl := s.turn.value &&& 0xFFFFF00000 }


/-! ### The management core -/

/-- R439, R441, R442, R444 and R445: power-good without a valid blob leaves the part without service and with LSTAT.FAULT, and with one
leaves chrysalis service over the quires that are not out of service, every core at reset and the flash as it was;
step 7 trains the other dies; a step that fails sets LSTAT.FAULT and leaves the part as it is, and no later step runs; imago entry waits for open barriers, for die 0 to drain and for the walk of binding 0, brings every good
quire into service, aligns `gtime` to a neighbour's time, and then sets IMAGO and READY. A blob is written to the flash within its size. -/
def Claims.BringUpAndImagoEntry : Prop :=
  ∀ (s : State), let k := s.turn.index
    let kept (t : State) : Prop := t.mgmt.flash = s.mgmt.flash ∧ t.tick = s.tick ∧ t.inputs = s.inputs ∧ (∀ n, t.core n = Core.reset n) ∧
      (∀ q, t.quire q = Quire.reset) ∧ t.hbm = [] ∧ t.imago = false ∧ t.trained = false
    let a := s.turn.addr
    let b := s.turn.bytes
    let walk := s.binding 0
    let held (t : State) : Prop := ∃ h, h ∈ t.held ∧ h.1 = .imagoEntry
    let fails (i : Instr) : Prop := exec i s = .next { s with mgmt := { s.mgmt with fault := true, stuck := true } }
    let bars : Prop := ∃ e, e ∈ s.episodes ∧ ((e.level = .die ∧ e.domain = 0) ∨ e.level = .dev)
    (readBlob s.mgmt.flash = none → ∃ t, exec .powerGood s = .next t ∧ kept t ∧ t.service = [] ∧ t.mgmt.fault = true ∧ t.mgmt.stuck = true ∧ t.link.up = false) ∧
    (∀ c, readBlob s.mgmt.flash = some c →
      (1 ≤ k → k ≤ 5 → ∃ t, exec .powerGood s = .next t ∧ kept t ∧ t.service = [] ∧ t.mgmt.fault = true ∧ t.mgmt.stuck = true ∧ t.link.up = decide (4 ≤ k)) ∧
      (k = 0 → ∃ t, exec .powerGood s = .next t ∧ kept t ∧ t.mgmt.fault = false ∧ t.mgmt.stuck = false ∧ t.link.up = true ∧ t.gtime = Config.bootTime s.tick ∧ t.devid = c.devid ∧
        t.extents = c.extents ∧ t.mgmt.blob = c.blob ∧ (∀ q, q ∈ t.service ↔ q < 12 ∧ q ∉ c.blob.outQ) ∧
        (t.binding 0).state = .active ∧ (t.binding 0).rec'.count = t.service.map fun q => (q, 16))) ∧
    (s.mgmt.stuck = true ∨ s.trained = true → exec .diesReady s = .next s) ∧
    (s.mgmt.stuck = false → s.trained = false → s.turn.flag = false → exec .diesReady s = .next { s with trained := true }) ∧
    (s.mgmt.stuck = false → s.trained = false → s.turn.flag = true → fails .diesReady) ∧
    (s.imago = true ∨ s.trained = false ∨ s.mgmt.stuck = true → exec .imagoEntry s = .next s) ∧
    (s.imago = false → s.trained = true → s.mgmt.stuck = false → s.turn.flag = true → s.mgmt.walking = false → s.mgmt.holdBars = false →
      fails .imagoEntry) ∧
    (s.imago = false → s.trained = true → s.mgmt.stuck = false → s.turn.flag = false ∨ s.mgmt.walking = true ∨ s.mgmt.holdBars = true →
      (s.mgmt.walking = true → walk.state = .active → ∃ t, exec .imagoEntry s = .next t ∧ t.imago = true ∧ t.mgmt.ready = true ∧
        t.mgmt.walking = false ∧ t.fabctl = (s.fabctl &&& 0xFFFFF) ||| (if s.mgmt.blob.fab then 0x100000 else 0) ∧ t.cores = s.cores ∧ SameBytes s t ∧
        (s.mgmt.blob.fab = false → t.gtime = s.gtime) ∧ (∀ o, s.mgmt.blob.fab = true → s.neighbourTime = some o →
          (s.gtime.toNat < o.toNat → t.gtime = o) ∧
          (o.toNat ≤ s.gtime.toNat → t.gtime = s.gtime ∧ t.mgmt.gtHold = s.gtime.toNat - o.toNat))) ∧
      (s.mgmt.walking = true → walk.state ≠ .active → ∃ t, exec .imagoEntry s = .next t ∧ held t ∧ t.imago = false ∧ t.cores = s.cores) ∧
      (s.mgmt.walking = false → bars → ∃ t, exec .imagoEntry s = .next t ∧ held t ∧ t.mgmt.holdBars = true ∧ t.service = s.service) ∧
      (s.mgmt.walking = false → ¬bars → s.dieEmpty 0 = false → ∃ t, exec .imagoEntry s = .next t ∧ held t ∧ t.mgmt.holdBars = true ∧
        (∃ x, x ∈ t.noc.draining ∧ x.1 = 0) ∧ t.service = s.service ∧ t.cores = s.cores) ∧
      (s.mgmt.walking = false → ¬bars → s.dieEmpty 0 = true → ∃ t, exec .imagoEntry s = .next t ∧ held t ∧ t.mgmt.walking = true ∧ t.mgmt.holdBars = false ∧
        (∀ q, q ∈ t.service ↔ q < 192 ∧ q ∉ s.mgmt.blob.outQ) ∧ (t.binding 0).state = .resizing ∧ (t.binding 0).old = some walk.rec' ∧
        (t.binding 0).rec'.count = (t.service.map fun q => (q, 16)) ∧ t.hbm = s.hbm ∧
        (walk.state = .active → walk.old = none → (∀ pa, (walk.rec'.homeSlice pa).isSome = true) → SameBytes s t))) ∧
    (a + b.length ≤ 2 ^ 24 → Memory.wf s.mgmt.flash = true → ∃ t, exec .blobWrite s = .next t ∧ Memory.read t.mgmt.flash a b.length = b ∧
      (∀ i, (i < a ∨ a + b.length ≤ i) → Memory.get t.mgmt.flash i = Memory.get s.mgmt.flash i) ∧ t.cores = s.cores ∧ t.hbm = s.hbm) ∧
    (2 ^ 24 < a + b.length → exec .blobWrite s = .next s)

/-- R434, R447 and R449: a die's thermal step rises at once to the highest row of Table 17.3 that holds, falls by one after 100
readings that are cool enough, and stays at 4; the quires' budgets take the ceiling of their die, and step 4 stops every
core with LSTAT.FAULT; the patrol counts the errors that it corrected, by memory and bank; an attestation report holds the nonce, the hash
of the blob, the device and its state, signed under the identity key with a random number that nothing constrains. -/
def Claims.TemperaturePatrolAndAttestation : Prop :=
  ∀ (s : State) (d : Fin 4), let temp := s.turn.list.getD d.val 0
    -- the mean of the module's power over the last 10 readings, one a millisecond
    let readings := (s.turn.list.getD 4 0 :: s.mgmt.powers).take 10
    let mean (p : Nat) : Prop := p * readings.length < readings.foldl (· + ·) 0
    let hot (step : Nat) : Prop := match step with
      | 1 => 85 ≤ temp ∨ mean 2000 | 2 => 92 ≤ temp ∨ mean 2100 | 3 => 98 ≤ temp ∨ mean 2200 | 4 => 105 ≤ temp | _ => False
    let limit (step : Nat) : Nat := match step with | 1 => 85 | 2 => 92 | 3 => 98 | _ => 105
    let old := s.thermal[d]
    let cool := s.mgmt.cool[d]
    let now (t : State) (step cool : Nat) : Prop := t.thermal[d] = step ∧ t.mgmt.cool[d] = cool
    let count (t : State) (k : Ram × Nat) : Nat := ((t.mgmt.corrected.find? fun x => x.1 = k).map fun x => x.2).getD 0
    let counted (t : State) (m : Ram) : Prop := ∀ k, count t k = count s k + if k = (m, s.turn.unit) then s.turn.index else 0
    let nonce := (s.turn.bytes ++ List.replicate 32 0).take 32
    let b := s.mgmt.blob
    let report := nonce ++ (b.hash ++ List.replicate 32 0).take 32 ++ toBytes 4 b.version ++ toBytes 4 s.devid ++ toBytes 8 s.lstat.toNat ++
      toBytes 8 s.gtime.toNat ++ (b.pubid ++ List.replicate 64 0).take 64 ++ List.replicate 40 0
    (old ≤ 4 → ∃ t, exec .thermalSample s = .next t ∧ SameBytes s t ∧ t.mgmt.powers = readings ∧
      (old = 4 → now t 4 0) ∧
      (∀ k, old < k → k ≤ 4 → hot k → (∀ j, k < j → j ≤ 4 → ¬hot j) → now t k 0) ∧
      (0 < old → old < 4 → (∀ j, old ≤ j → j ≤ 4 → ¬hot j) → temp + 5 ≤ limit old →
        (cool + 1 < 100 → now t old (cool + 1)) ∧ (100 ≤ cool + 1 → now t (old - 1) 0)) ∧
      (0 < old → old < 4 → (∀ j, old < j → j ≤ 4 → ¬hot j) → hot old ∨ limit old < temp + 5 → now t old 0) ∧
      (old = 0 → (∀ j, 1 ≤ j → j ≤ 4 → ¬hot j) → now t 0 0) ∧
      (∀ q, q < 192 → q / 48 = d.val → (t.quire q).govNext = ((s.quire q).govNext &&& 0x1E00) ||| BitVec.ofNat 64
        (min (s.quire q).govAsked (match t.thermal[d] with | 0 => 256 | 1 => 192 | 2 => 96 | _ => 32))) ∧
      (t.thermal[d] = 4 → t.mgmt.fault = true ∧ t.mgmt.stuck = true ∧ ∀ c, s.service.contains (c / 96) = true → (t.core c).run = .stopped) ∧
      ((∀ e : Fin 4, t.thermal[e] ≠ 4) → t.cores = s.cores ∧ t.mgmt.fault = s.mgmt.fault)) ∧
    (s.turn.flag = false → ∃ t, exec .hbmPatrol s = .next t ∧
      counted t (if s.turn.list = [] then .stack s.turn.addr else .kettles s.turn.addr) ∧
      t.mgmt.failed = s.mgmt.failed ∧ t.cores = s.cores ∧ SameBytes s t) ∧
    (s.turn.flag = true → ∃ t, exec .hbmPatrol s = .next t ∧ counted t (.core s.turn.core) ∧
      mapGet t.mgmt.failed (s.turn.core / 96) 0 = (if 64 ≤ s.turn.index then (1#100 <<< s.position s.turn.core) else 0) |||
        mapGet s.mgmt.failed (s.turn.core / 96) 0 ∧
      (∀ q, q ≠ s.turn.core / 96 → mapGet t.mgmt.failed q 0 = mapGet s.mgmt.failed q 0) ∧ t.mgmt.qtab = s.mgmt.qtab ∧
      t.cores = s.cores ∧ SameBytes s t) ∧
    ∃ t z, exec .attestationRequest s = .next t ∧ t.mgmt.smbus = s.mgmt.smbus ++ [report ++ slhSign (seedsOf s.mgmt.seeds) (bigBytes 32 z) report] ∧
      t.cores = s.cores ∧ SameBytes s t

/-- R437, R438 and R446: a core reset of a stopped core leaves its system registers at their reset values but for the decode table,
its deque, lists and inbox empty and the core asleep, and its general registers and its scratchpad as they were; of another core,
and at thermal step 4 (R447), it is reported; a quire reset of a quiet quire zero-fills it and maps it around its failed positions, or takes it out
of service, and waits while the quire is not quiet. Where it rests on a choice of the model: log 49, log 50. -/
def Obligations.CoreAndQuireReset : Prop :=
  ∀ (s : State), let n := s.turn.core
    let c := s.core n
    let q := s.turn.unit
    let m := mapGet s.mgmt.failed q 0
    let bad := (List.range 100).countP fun i => m.getLsbD i
    (c.run ≠ .stopped ∨ (4 ∈ s.thermal.toList) → exec .coreReset s = .next { s with reports := s.reports ++ [(7, n)] }) ∧
    (c.run = .stopped → 4 ∉ s.thermal.toList → s.episodes = [] → ∃ t, exec .coreReset s = .next t ∧
      (t.core n).csr = { Csr.reset with table := c.csr.table } ∧ (t.core n).run = .asleep ∧ (t.core n).deque = ⟨[], 0, [], 0, []⟩ ∧
      (t.core n).ready = [] ∧ (t.core n).inbox = [] ∧ (t.core n).overflow = none ∧ (t.core n).sendq = [] ∧ (t.core n).next = none ∧
      (t.core n).grammar = Grammar.reset ∧ (t.core n).phase = none ∧ (t.core n).rep = none ∧ (t.core n).hold = [] ∧
      (∀ x : Fin 11, (t.core n).ctxs[x].hstat = 0 ∧ (t.core n).ctxs[x].resv = none ∧ (t.core n).ctxs[x].w = c.ctxs[x].w) ∧
      (t.core n).v = c.v ∧ (t.core n).spad = c.spad ∧ SameBytes s t ∧ OtherCoresSame s t n) ∧
    -- it rejoins the barriers that open from then on
    (c.run = .stopped → 4 ∉ s.thermal.toList → ∃ t, exec .coreReset s = .next t ∧
      ∀ e, e ∈ t.episodes → n ∉ e.arrived ∧ (domainOf n e.level = e.domain → n ∉ t.awaited' e)) ∧
    (s.quiet q = false → ∃ t, exec .quireReset s = .next t ∧ t.cores = s.cores ∧ SameBytes s t ∧ ∃ h, h ∈ t.held ∧ h.1 = .quireReset ∧ h.2.unit = q) ∧
    (s.quiet q = true → s.behind .quireReset = false → ∃ t, exec .quireReset s = .next t ∧
      (∀ k a, k / 96 = q → t.byteAt (.spad k a) = 0) ∧ (∀ a, t.byteAt (.kettle q a) = 0) ∧ (t.quire q).lines = [] ∧ (t.quire q).tlb2 = [] ∧
      (∀ k a, k / 96 ≠ q → t.byteAt (.spad k a) = s.byteAt (.spad k a)) ∧
      (bad ≤ 4 → t.service = s.service ∧ mapGet t.mgmt.qtab q [] = ((List.range 100).filter fun i => !m.getLsbD i).take 96) ∧
      (4 < bad → ∀ k, k ∈ t.service ↔ k ≠ q ∧ k ∈ s.service))

/-! ### Reset, fetching and steps -/

/-- R17, R22 and R441: the register values that 01 gives for reset, supervisor mode, empty memories in their canonical form,
chrysalis service of quires 0 to 11, with the fabric closed. Where it rests on a choice of the model: log 2, log 5, log
21. -/
def Obligations.ResetState : Prop :=
  let s := State.reset
  (∀ n, (s.core n).csr.mode = 2 ∧ (s.core n).csr.tk = false ∧ (s.core n).csr.pe = false ∧ (s.core n).csr.ph = false ∧
    s.register n 0x00 = 2 ∧ s.register n 0x10 = 0x17 ∧ s.register n 0x13 = 0 ∧
    (∀ k, k ∈ [0x01, 0x02, 0x03, 0x04, 0x08, 0x09, 0x0A, 0x0B, 0x12, 0x14, 0x18, 0x19, 0x1A, 0x20, 0x21, 0x22, 0x24, 0x25, 0x28, 0x29, 0x2A,
      0x30, 0x31, 0x32, 0x33] → s.register n k = 0) ∧
    (s.core n).run = .asleep ∧ (s.core n).lfsr = 0xACE1#16 ^^^ BitVec.ofNat 16 n) ∧
  (∀ n k, n < 18432 → (s.register n 0x11 = BitVec.ofNat 64 k ↔ k % 2 ^ 64 = n % 2 ^ 15 + n % 96 * 2 ^ 16 + n / 96 * 2 ^ 24 + n / 4608 * 2 ^ 32)) ∧
  s.memWf ∧ (∀ p, s.byteAt p = 0) ∧ s.imago = false ∧ (∀ q, q ∈ s.service ↔ q < 12) ∧
  s.fabctl = 4000 ∧ s.prctl = 0 ∧ s.lost = [] ∧ ∀ q, (s.quire q).qasr = 0 ∧ (s.quire q).govctl = 256

/-- R37, R56, R60 and R61: where a context is chosen to issue and may, a step fetches at its program counter and runs `exec` of
the instruction that the words hold; an instruction that waits goes on as the words that it was fetched as; words of a well-formed instruction in the core's own scratchpad are fetched as
that instruction, behind which the next one begins; what a step adds behind `exec` changes no register and no memory.
Where it rests on a choice of the model: log 3, log 19, log 71. -/
def Obligations.StepRunsTheDecodedInstruction : Prop :=
  (∀ (s : State) (a : Agent), s.chosen = some a → s.timeOn.mayIssue a.core a.ctx = true →
    let k := (s.core a.core).ctxs[a.ctx]
    let u : State := { s.timeOn with chosen := none, cur := a.core, ctx := a.ctx, issue := Issue.at k.pc }
    (∀ i v, k.kept = none → fetchInstr u = .ok (i, v) → v.repGate i = .run i v → step s = thenNext (fun t => v.after t i) (exec i v)) ∧
    (∀ e, k.kept = none → fetchInstr u = .error (.exc e) → (∀ on, e ≠ .wait on) → step s = .next (u.deliver e)) ∧
    (∀ y i v, k.kept = some y → (State.repGate { u with issue := y } (State.formOf { u with issue := y } y.chain)) = .run i v →
      step s = thenNext (fun t => v.after t i) (exec i v)) ∧
    (∀ i c o, i.wellFormed = true → encodeChain i = some c → k.pc = localAddr o → o % 2 = 0 → o + 2 * (Chain.words c).length ≤ 0x40000 →
      k.kept = none → (a.ctx ≠ 0 → helperMay c = true) → sharesOwn u.me o (2 * (Chain.words c).length) = true → u.me.fetched = [] → u.me.bad = [] →
      u.owned (.spad a.core o) (2 * (Chain.words c).length) = false → u.me.phase = none → u.me.rep = none →
      Memory.read u.me.spad o (2 * (Chain.words c).length) = wordBytes c →
      let j := conduitForm (asWritten i) u.w
      ∃ v, step s = thenNext (fun t => v.after t j) (exec j v) ∧ v.issue.pc = k.pc ∧
        v.issue.next = k.pc + BitVec.ofNat 64 (2 * (Chain.words c).length) ∧ v.issue.chain = c ∧ v.issue.stay = false ∧
        v = { u with cores := v.cores, issue := v.issue } ∧ v.me = { u.me with fetched := v.me.fetched } ∧ OtherCoresSame u v a.core)) ∧
  ∀ (v t : State) (i : Instr), let r := v.after t i
    (∀ c (x : Fin 11), (r.core c).ctxs[x].w = (t.core c).ctxs[x].w ∧ (r.core c).ctxs[x].pc = (t.core c).ctxs[x].pc ∧
      (r.core c).ctxs[x].waiting = (t.core c).ctxs[x].waiting) ∧
    (∀ c, (r.core c).csr = (t.core c).csr ∧ (r.core c).v = (t.core c).v ∧ (r.core c).m = (t.core c).m ∧ (r.core c).acc = (t.core c).acc ∧
      (r.core c).sb = (t.core c).sb ∧ (r.core c).run = (t.core c).run) ∧ SameBytes t r

/-- R37 to R42, R70: every well-formed instruction has words, and with every operand at every value that its encoding admits they
decode to that instruction and to no more words than its own. The five operations of `cdcfg` have one encoding, since a register
names the operation: their words decode to the configuring form (log 68). -/
def Obligations.EncodedWordsDecode : Prop :=
  (∀ (i : Instr) (rest : List Base), i.wellFormed = true →
    ∃ ws, encode i = some ws ∧ decodeWords (ws ++ rest) = some (asWritten i, ws.length)) ∧
  ∀ (i : Instr), asWritten i = match i with
    | .cdcfgWaitFull k a | .cdcfgPop k a | .cdcfgWaitFree k a | .cdcfgPush k a | .cdcfgReset k a => .cdcfgConfigure k a
    | j => j

/-- R331 and R441, with log 2: the memories keep their canonical form in every step from every state. -/
def Obligations.EveryStepKeepsMemoryCanonical : Prop :=
  ∀ (s t : State), s.memWf → step s = .next t → t.memWf

/-- Every step of the device goes on to a next state: no meaning ends in a fault or a refusal. Where it rests on a choice
of the model: log 71. -/
def Obligations.EveryStepGoesOn : Prop :=
  ∀ (s : State), ∃ t, step s = .next t

/-- R55 to R57: a word chain that is no instruction takes trap 0x01 with the address of the word at which decoding failed;
the control context's saved address is that of the first word. -/
def Claims.IllegalEncodings : Prop :=
  ∀ (s : State), exec .illegalEncoding s = .next (s.deliver (.trap 0x01 s.issue.wordPc)) ∧
    (s.ctx = 0 → s.issue.reissue = false → s.csr.tk = false → s.csr.tvec ≠ 0 →
      ∃ t, exec .illegalEncoding s = .next t ∧ TrapTaken s t 0x01 s.issue.wordPc s.issue.pc)

/-- R37 to R60: the worked encodings of 02 decode to the instructions that they stand for, and the words that 02 names as none
to none. -/
def Obligations.WorkedEncodingsDecode : Prop :=
  decodeWords [0b000001_0011_0101_00#16] = some (.add 3 3 5, 1) ∧
  decodeWords [0b111_01_1_0_0_10001_000#16, 0b000001_0100_0101_00#16] = some (.add 20 17 5, 2) ∧
  decodeWords [0b111_00_11111111010#16, 0b010011_0011_0000_01#16] = some (.brNe 3 0 0x7FA, 2) ∧
  decodeWords [0b111_10_1011_0000_001#16, 0b111_01_0_0_0_01001_000#16, 0b011000_0010_1000_11#16] =
    some (.amoXadd .ar .dev 2 8 9, 3) ∧
  decodeWords [0b111_01_0_0_0_01001_000#16, 0b111_10_1011_0000_001#16, 0b011000_0010_1000_11#16] =
    some (.amoXadd .ar .dev 2 8 9, 3) ∧
  decodeWords [0xE001#16, 0xE005#16, 0x04D4#16] = none ∧ decodeWords [0x0000#16] = none ∧ decodeWords [0xFFFF#16] = none

/-! ### Where instructions may not run, and what they may not touch -/

/-- R278 and R10: a form of page 6 that its Modes column gives to supervisor mode is trap 0x02 with `tval` 0 below it, whatever
its operands are, and in a helper it ends the helper with cause 0x01. Bit 0 of the handler's address is clear (log 36). -/
def Claims.PrivilegedForms : Prop :=
  ∀ (s : State) (a b : Reg) (i : Instr),
    i ∈ [Instr.rti, .idle, .halt, .tlbinvAll, .tlbinvVa a, .bdef a b, .bshare a b, .bresize a b] →
    (s.ctx = 0 → s.mode < 2 → exec i s = .next (s.deliver (.trap 0x02 0))) ∧
    (s.ctx = 0 → s.issue.reissue = false → s.mode < 2 → s.csr.tk = false → s.csr.tvec ≠ 0 →
      ∃ t, exec i s = .next t ∧ TrapTaken s t 0x02 0 s.issue.pc) ∧
    (s.ctx ≠ 0 → exec i s = .next (s.deliver (.trap 0x01 s.issue.wordPc)))

/-- R193, R220 and R240: while a phase is open every form of Table 9.5 is trap 0x07 with `tval` 0: of page 1 every form but a fence
of `.core` scope, of page 6 every form whose mode is right, and of pages 0 and 2 to 5 the forms that the table names. -/
def Claims.FormsBarredInAPhase : Prop :=
  ∀ (s : State) (i : Instr) (c : Chain), s.ctx = 0 → s.csr.ph = true → encodeChain i = some c →
    let barred : Prop := exec i s = .next (s.deliver (.trap 0x07 0))
    (c.page = 0 → (∃ va, s.dataAddr i = some va ∧ phaseAllows s va = false) → barred) ∧
    (c.page = 1 → (match i with | .fence _ .core | .fenceAcq _ .core | .fenceRel _ .core => False | _ => True) → barred) ∧
    (match i with
      | .vld _ _ a off m | .vst _ _ a off m => m = 0 → phaseAllows s (s.w a + BitVec.ofInt 64 (off.toInt * 128)) = false → barred
      | .vldx t _ a x m | .vstx t _ a x m => m = 0 → t.lane ≠ 4 → s.v x = 0 → phaseAllows s (s.w a) = false → barred
      | .cp _ | .cpm _ | .cpc _ | .cpw _ | .cpfence | .cdcfgWaitFull _ _ | .cdcfgWaitFree _ _ | .cdcfgReset _ _ => barred
      | .cdcfgConfigure _ a => s.w a &&& 0xF = 0 → barred
      | .mmac _ _ _ | .msmac _ _ _ => mAcd s.me.mcfg ≠ 0 ∨ mBcd s.me.mcfg ≠ 0 → barred
      | .phBegin _ | .gload _ | .gstep _ _ | .gmask _ _ | .gstate _ | .sampF32 _ _ | .sampBf16 _ _ => barred
      | _ => True) ∧
    (c.page = 6 → s.lacksMode i = false → barred)

/-- R172 and R124: an atomic, an `lr`, an `sc` or a `waitaddr` whose address is not aligned to its size is trap 0x03, in every window; an
aligned one in a window other than win0, or in slot 127, is trap 0x04; a failed check leaves
the registers and every byte as they were. -/
def Claims.AtomicAccessChecks : Prop :=
  ∀ (s : State) (i : Instr) (n : Nat) (a : Reg), s.csr.ph = false →
    (match i with
      | .amoAdd z _ _ _ x _ | .amoAnd z _ _ _ x _ | .amoOr z _ _ _ x _ | .amoXor z _ _ _ x _ | .amoMin z _ _ _ x _
      | .amoMax z _ _ _ x _ | .amoMinn z _ _ _ x _ | .amoMaxn z _ _ _ x _ | .amoSwap z _ _ _ x _ | .amoCas z _ _ _ x _ =>
        a = x ∧ n = if z = .word then 4 else 8
      | .amoFadd _ _ _ x _ | .lrW _ _ _ x | .scW _ _ _ x _ => a = x ∧ n = 4
      | .lrD _ _ _ x | .scD _ _ _ x _ | .waitaddr x _ => a = x ∧ n = 8
      | .amoXadd _ _ _ x _ => a = x ∧ n = 16
      | _ => False) →
    let va := s.w a
    let fails (e : Exc) : Prop := ∃ t, exec i s = .next t ∧ t = s.deliver e ∧ SameW s t ∧ SameBytes s t
    (regionOf va = .bad → fails (.upcall 0x20 va)) ∧
    (regionOf va = .super → s.mode ≠ 2 → fails (.trap 0x02 va)) ∧
    (regionOf va ≠ .bad → (regionOf va = .super → s.mode = 2) → va.toNat % n ≠ 0 → fails (.trap 0x03 va)) ∧
    (∀ win slot o, regionOf va = .loc win slot o → va.toNat % n = 0 → win ≠ 0 ∨ slot = 127 → fails (.trap 0x04 va))

/-- R88 and R89: `csrw`, `csrs` and `csrc` of `wincfg` with the low half of win5 selected: ORD 3, or TLOAD with a TBASE that is no
multiple of 4 or passes 0x3_FC00, is trap 0x04 with the value that the form would write, and TLOAD over a donated share trap
0x05 with the address of the first byte in it; nothing is written then. Else the half is written, TLOAD reads as 0, and with
TLOAD the 256 entries of the decode table are loaded from the own scratchpad. -/
def Claims.DecodeTableWrites : Prop :=
  ∀ (s : State) (d : Reg) (op : Instr) (x : Word), CtlReady s 0 → s.csr.selWin = 5 → s.csr.selHigh = false →
    let old := s.register s.cur 0x19
    (op, x) ∈ [(Instr.csrw d 0x19, s.w d), (Instr.csrs d 0x19, old ||| s.w d), (Instr.csrc d 0x19, old &&& ~~~(s.w d))] →
    let base := (x.extractLsb' 36 18).toNat
    let load := x.getLsbD 35
    let inRange : Prop := base % 4 = 0 ∧ base ≤ 0x3FC00
    let donated (o : Nat) : Prop := ∃ k : Fin 32, k.val = o / 0x2000 ∧ s.me.shares[k] ≠ .own
    let written (t : State) : Prop := WentOn s t ∧ RegistersSame s t ∧ OtherCoresSame s t s.cur ∧
      t.csr = { s.csr with table := t.csr.table, wins := s.csr.wins.set 5 { s.csr.wins[5] with lo := x &&& 0x3FFFF7FFFFFFFF } } ∧
      t.register s.cur 0x19 = x &&& 0x3FFFF7FFFFFFFF
    (x.extractLsb' 33 2 = 3#2 ∨ (load = true ∧ ¬inRange) → exec op s = .next (s.deliver (.trap 0x04 x))) ∧
    (∀ o, x.extractLsb' 33 2 ≠ 3#2 → load = true → inRange → base ≤ o → o < base + 1024 → donated o →
      (∀ j, base ≤ j → j < o → ¬donated j) → exec op s = .next (s.deliver (.trap 0x05 (localAddr o)))) ∧
    (x.extractLsb' 33 2 ≠ 3#2 → load = false → ∃ t, exec op s = .next t ∧ written t ∧ t.csr.table = s.csr.table) ∧
    (x.extractLsb' 33 2 ≠ 3#2 → load = true → inRange → (∀ o, base ≤ o → o < base + 1024 → ¬donated o) → s.me.sb = [] → s.me.bad = [] →
      s.owned (.spad s.cur base) 1024 = false → ∃ t, exec op s = .next t ∧ written t ∧
        ∀ i : Fin 256, t.csr.table[i].toNat = ofBytes (Memory.read s.me.spad (base + 4 * i.val) 4) % 2 ^ 19)

/-! ### Statements in several parts -/

/-- R114 to R116: counting, extension, byte reversal and bit fields. -/
def Obligations.IntegerBitForms : Prop :=
  Claims.CountingForms ∧ Claims.ExtensionsAndByteSwap ∧ Claims.BitFieldExtractAndInsert

/-- R107 to R113 and R128: logic, shifts, compares, selects, moves, constants and address arithmetic. -/
def Obligations.LogicMovesAndConstants : Prop :=
  Claims.LogicShiftCompareSelect ∧ Claims.MovesConstantsAndAddresses

/-- R121, R122 and R127: scalar loads and stores of the own scratchpad. -/
def Obligations.ScalarLoadsAndStores : Prop :=
  Claims.ScalarLoadsOfTheOwnScratchpad ∧ Claims.ScalarStoresToTheOwnScratchpad

/-- R122, R124 and R172: alignment, and the region checks that come before it, for loads and stores and for atomics. -/
def Obligations.AccessChecks : Prop :=
  Claims.MisalignedAccessTraps ∧ Claims.RegionChecksComeFirst ∧ Claims.AtomicAccessChecks

/-- R15, R16, R10 and Table 1.3: taking a trap, taking an upcall, and the end of a helper that faults. Where it rests on a
choice of the model: log 36 (the cleared bit 0 of a program counter). -/
def Obligations.TakingAnException : Prop :=
  Claims.TakingATrap ∧ Claims.TakingAnUpcall ∧ Claims.AFaultEndsAHelper

/-- R15, R55 to R58, R193, R220, R240 and R278 to R280: the trap instruction, returns from exceptions, words that are no
instruction, and forms that the mode or an open phase bars. Where it rests on a choice of the model: log 36 (the cleared
bit 0 of a program counter), log 95. -/
def Obligations.TrapsReturnsAndIllegalEncodings : Prop :=
  Claims.TrapInstruction ∧ Claims.ReturnsFromExceptions ∧ Claims.IllegalEncodings ∧ Claims.PrivilegedForms ∧ Claims.FormsBarredInAPhase

/-- R17 to R19, R23, R35, R88, R89, R278, R281 and R321: reading and writing system registers, who may, and the writes as
steps. Where it rests on a choice of the model: log 38, log 39, log 40. -/
def Obligations.SystemRegisters : Prop :=
  Claims.SystemRegisterAccess ∧ Claims.SystemRegisterPrivilege ∧ Claims.SystemRegisterWriteSteps ∧ Claims.DecodeTableWrites

/-- R33, R144, R147 to R150 and R349: kettle instructions, the counts that they leave, and a kettle that fires. Where it
rests on a choice of the model: log 36 (the cleared bit 0 of a program counter), log 54, log 80. -/
def Obligations.Kettles : Prop :=
  Claims.KettleInstructions ∧ Claims.KettleCounts ∧ Claims.KettleFires

/-- R36 and R152 to R156: message instructions and how messages travel. Where it rests on a choice of the model: log 54. -/
def Obligations.Messages : Prop :=
  Claims.MessageInstructions ∧ Claims.MessageTransport

/-- R195, R196 and R198: integer and logic lanes. Where it rests on a choice of the model: log 11 (the `tval` of a trap
0x01 whose rule states none), log 26. -/
def Obligations.VectorIntegerAndLogicLanes : Prop :=
  Claims.VectorIntegerLanes ∧ Claims.VectorLogicShiftsAndCounts

/-- R200 to R202: reductions, scans, comparisons and masks. -/
def Obligations.VectorReductionsMasksAndCompares : Prop :=
  Claims.VectorReductionsAndScan ∧ Claims.VectorComparisonsAndMasks

/-- R145, R146 and R350: forks, and launches that go to all cores of a domain. Where it rests on a choice of the model:
log 36 (the cleared bit 0 of a program counter), log 53, log 56, log 84. -/
def Obligations.ForksAndLaunchTrees : Prop :=
  Claims.Forks ∧ Claims.LaunchTrees

/-- R165 to R168: donation queues, and routing counters. Where it rests on a choice of the model: log 8, log 58, log 85,
log 86, log 87. -/
def Obligations.QueuesAndCounters : Prop :=
  Claims.DonationQueues ∧ Claims.RoutingCounters

/-- R177, R178, R181, R187 and R188: sleeping on memory, and the steps of banks and sleepers. Where it rests on a choice
of the model: log 3, log 59, log 78, log 93. -/
def Obligations.SleepersAndBanks : Prop :=
  Claims.SleepingOnMemory ∧ Claims.BankAndSleeperSteps

/-- R322, R323, R325, R326, R385, R387, R389, R391 to R393 and R447: homes, probes, replies, links and boundaries. Where
it rests on a choice of the model: log 7, log 48, log 65, log 66, log 88, log 89, log 98. -/
def Obligations.HomesAndOnDieNetworks : Prop :=
  Claims.HomeRequestsAndReplies ∧ Claims.LinksAndBoundaries

/-- R214, R216 and R218: vector loads, stores, gathers and scatters. Where it rests on a choice of the model: log 11 (the
`tval` of a trap 0x01 whose rule states none), log 25, log 27, log 76. -/
def Obligations.VectorMemory : Prop :=
  Claims.VectorLoadsAndStores ∧ Claims.VectorGatherAndScatter

/-- R203 to R206: float arithmetic lanes, and where it traps. Where it rests on a choice of the model: log 12. -/
def Obligations.VectorFloatArithmeticAndTraps : Prop :=
  Claims.VectorFloatArithmetic ∧ Claims.VectorFloatTraps

/-- R210 to R213: conversions, packing and random numbers. Where it rests on a choice of the model: log 11 (the `tval` of
a trap 0x01 whose rule states none), log 12, log 13, log 26, log 81, log 83. -/
def Obligations.ConversionsAndRandomNumbers : Prop :=
  Claims.ConversionsAndPacking ∧ Claims.RandomNumbers

/-- R236 to R241: sewing instructions and the steps of the fabric. Where it rests on a choice of the model: log 20. -/
def Obligations.SewingFabric : Prop :=
  Claims.SewingInstructions ∧ Claims.SewingSteps

/-- R248, R250 to R256, R366 and R370: copy instructions and the steps of the engine. Where it rests on a choice of the
model: log 31. -/
def Obligations.CopyEngine : Prop :=
  Claims.CopyInstructions ∧ Claims.CopyEngineSteps

/-- R267 to R271 and R383: grammar instructions and the grammar unit. Where it rests on a choice of the model: log 34, log
35. -/
def Obligations.Grammar : Prop :=
  Claims.GrammarInstructions ∧ Claims.GrammarUnitServes

/-- R286 to R289, R315, R316 and R328 to R332: binding instructions and resize walks. Where it rests on a choice of the
model: log 41, log 42, log 67, log 79. -/
def Obligations.Bindings : Prop :=
  Claims.BindingInstructions ∧ Claims.ResizeWalks

/-- R414 to R422: walks, TLBs and address spaces. Where it rests on a choice of the model: log 17. -/
def Obligations.TranslationAndAddressSpaces : Prop :=
  Claims.TranslationWalks ∧ Claims.AddressSpaceManagement

/-- R336, R337 and R408 to R412: launches, notices, and the host's accesses. Where it rests on a choice of the model: log
46, log 60, log 94, log 98. -/
def Obligations.HostLink : Prop :=
  Claims.LaunchesAndNotices ∧ Claims.HostAccesses

/-- R400 to R402, R404, R406 and R407: requests at their target and answers at the requester. Where it rests on a choice
of the model: log 8, log 61, log 87, log 90. -/
def Obligations.RemoteRequestsAndAnswers : Prop :=
  Claims.RemoteRequestsAtTheTarget ∧ Claims.RemoteAnswers

/-- R24, R430 and R431: pre-emption, saves and restores. Where it rests on a choice of the model: log 36 (the cleared bit
0 of a program counter), log 43, log 44. -/
def Obligations.Preemption : Prop :=
  Claims.PreemptionSteps ∧ Claims.SavedContextIsRestored

/-- R161 to R164 and R357 to R365: worklist instructions and the steps of worklists. Where it rests on a choice of the
model: log 6, log 57, log 58. -/
def Obligations.OrderedWorklists : Prop :=
  Claims.WorklistInstructions ∧ Claims.WorklistSteps

/-- R434, R439, R441, R442, R444, R447 and R449: bring-up, imago entry, temperature, patrol and attestation. Where it
rests on a choice of the model: log 47, log 63, log 64, log 70, log 94. -/
def Obligations.BringUpImagoAndTemperature : Prop :=
  Claims.BringUpAndImagoEntry ∧ Claims.TemperaturePatrolAndAttestation
end

