-- ==== Sys2Proof/Laws/Memory.lean ====
section
/-! SUPPORT. Memory as data: what a byte reads after a write, and that every operation keeps the canonical form. -/

namespace Sys2Proof.Machine

/-! ### Sparse tables -/

theorem mapGet_mapPut_same {α : Type} (m : List (Nat × α)) (k : Nat) (v d : α) : mapGet (mapPut m k v) k d = v := by
  induction m with
  | nil => simp [mapPut, mapGet]
  | cons x r ih =>
    obtain ⟨j, u⟩ := x
    simp only [mapPut]
    split
    · simp [mapGet]
    · split
      · simp [mapGet]
      · simp only [mapGet]; rw [if_neg ‹_›, ih]

theorem mapGet_mapPut_ne {α : Type} (m : List (Nat × α)) (k j : Nat) (v d : α) (h : j ≠ k) :
    mapGet (mapPut m k v) j d = mapGet m j d := by
  induction m with
  | nil => simp [mapPut, mapGet, Ne.symm h]
  | cons x r ih =>
    obtain ⟨i, u⟩ := x
    have h' : k ≠ j := Ne.symm h
    simp only [mapPut]
    split
    · subst_vars; simp [mapGet, h']
    · split <;> simp [mapGet, h', ih]

/-! ### One byte -/

/-- An address below every listed one. -/
def Memory.below (a : Nat) (m : Memory) : Prop := ∀ x ∈ m, a < x.1

theorem Memory.wf_cons (k : Nat) (b : Byte) (r : Memory) :
    Memory.wf ((k, b) :: r) = true ↔ b ≠ 0 ∧ Memory.below k r ∧ Memory.wf r = true := by
  induction r generalizing k b with
  | nil => simp [Memory.wf, Memory.below]
  | cons x r ih =>
    obtain ⟨j, c⟩ := x
    have := ih j c
    simp only [Memory.wf, Bool.and_eq_true, bne_iff_ne, decide_eq_true_eq] at this ⊢
    constructor
    · rintro ⟨⟨hb, hk⟩, hw⟩
      refine ⟨hb, ?_, hw⟩
      intro y hy
      rcases List.mem_cons.1 hy with rfl | hy
      · exact hk
      · exact Nat.lt_trans hk ((this.1 hw).2.1 y hy)
    · rintro ⟨hb, hk, hw⟩
      exact ⟨⟨hb, hk (j, c) (by simp)⟩, hw⟩

theorem Memory.get_below {a : Nat} {m : Memory} (h : Memory.below a m) : Memory.get m a = 0 := by
  induction m with
  | nil => rfl
  | cons x r ih =>
    obtain ⟨j, c⟩ := x
    have hj : a < j := h (j, c) (by simp)
    have : Memory.get r a = 0 := ih fun y hy => h y (by simp [hy])
    simp only [Memory.get, mapGet] at this ⊢
    rw [if_neg (by omega)]; exact this

theorem Memory.below_set {k a : Nat} {m : Memory} {b : Byte} (h : Memory.below k m) (ha : k < a) :
    Memory.below k (Memory.set m a b) := by
  induction m with
  | nil => simp only [Memory.set]; split <;> simp_all [Memory.below]
  | cons x r ih =>
    obtain ⟨j, c⟩ := x
    have hj : k < j := h (j, c) (by simp)
    have hr : Memory.below k r := fun y hy => h y (by simp [hy])
    simp only [Memory.set]
    split
    · split
      · exact hr
      · intro y hy
        rcases List.mem_cons.1 hy with rfl | hy
        · exact ha
        · exact hr y hy
    · split
      · split
        · exact h
        · intro y hy
          rcases List.mem_cons.1 hy with rfl | hy
          · exact ha
          · exact h y hy
      · intro y hy
        rcases List.mem_cons.1 hy with rfl | hy
        · exact hj
        · exact ih hr y hy

/-- A store of a byte keeps the canonical form. -/
theorem Memory.set_wf {m : Memory} (h : Memory.wf m = true) (a : Nat) (b : Byte) : Memory.wf (Memory.set m a b) = true := by
  induction m with
  | nil => simp only [Memory.set]; split <;> simp_all [Memory.wf]
  | cons x r ih =>
    obtain ⟨j, c⟩ := x
    obtain ⟨hc, hj, hr⟩ := (Memory.wf_cons j c r).1 h
    simp only [Memory.set]
    split
    · subst_vars
      split
      · exact hr
      · exact (Memory.wf_cons _ _ _).2 ⟨‹_›, hj, hr⟩
    · split
      · split
        · exact h
        · refine (Memory.wf_cons _ _ _).2 ⟨‹_›, ?_, h⟩
          intro y hy
          rcases List.mem_cons.1 hy with rfl | hy
          · assumption
          · exact Nat.lt_trans ‹_› (hj y hy)
      · exact (Memory.wf_cons _ _ _).2 ⟨hc, Memory.below_set hj (by omega), ih hr⟩

/-- The byte stored reads back. -/
theorem Memory.get_set_same {m : Memory} (h : Memory.wf m = true) (a : Nat) (b : Byte) :
    Memory.get (Memory.set m a b) a = b := by
  induction m with
  | nil => simp only [Memory.set]; split <;> simp_all [Memory.get, mapGet]
  | cons x r ih =>
    obtain ⟨j, c⟩ := x
    obtain ⟨hc, hj, hr⟩ := (Memory.wf_cons j c r).1 h
    simp only [Memory.set]
    split
    · subst_vars
      split
      · subst_vars; exact Memory.get_below hj
      · simp [Memory.get, mapGet]
    · split
      · split
        · subst_vars
          refine Memory.get_below ?_
          intro y hy
          rcases List.mem_cons.1 hy with rfl | hy
          · assumption
          · exact Nat.lt_trans ‹_› (hj y hy)
        · simp [Memory.get, mapGet]
      · have := ih hr
        simp only [Memory.get, mapGet] at this ⊢
        rw [if_neg ‹_›]; exact this

/-- No other byte is touched. -/
theorem Memory.get_set_ne (m : Memory) (a k : Nat) (b : Byte) (h : k ≠ a) :
    Memory.get (Memory.set m a b) k = Memory.get m k := by
  have h' : a ≠ k := Ne.symm h
  induction m with
  | nil => simp only [Memory.set]; split <;> simp [Memory.get, mapGet, h']
  | cons x r ih =>
    obtain ⟨j, c⟩ := x
    simp only [Memory.get] at ih
    simp only [Memory.set]
    split
    · subst_vars
      split <;> simp [Memory.get, mapGet, h']
    · split
      · split <;> simp [Memory.get, mapGet, h']
      · have ih' : mapGet (Memory.set r a b) k (0 : Byte) = mapGet r k 0 := ih
        show (if j = k then c else mapGet (Memory.set r a b) k 0) = if j = k then c else mapGet r k 0
        rw [ih']

/-! ### Runs of bytes -/

theorem Memory.write_wf (bs : List Byte) : ∀ {m : Memory} (_ : Memory.wf m = true) (a : Nat), Memory.wf (Memory.write m a bs) = true := by
  induction bs with
  | nil => intro m h a; exact h
  | cons b r ih => intro m h a; exact ih (Memory.set_wf h a b) (a + 1)

theorem Memory.merge_wf (bs : List StoreByte) : ∀ {m : Memory} (_ : Memory.wf m = true) (a : Nat), Memory.wf (Memory.merge m a bs) = true := by
  induction bs with
  | nil => intro m h a; exact h
  | cons b r ih => intro m h a; exact ih (Memory.set_wf h a _) (a + 1)

theorem Memory.clear_wf {m : Memory} (h : Memory.wf m = true) (a n : Nat) : Memory.wf (Memory.clear m a n) = true :=
  Memory.write_wf _ h a

theorem Memory.write_outside (bs : List Byte) : ∀ (m : Memory) (a k : Nat), k < a ∨ a + bs.length ≤ k →
    Memory.get (Memory.write m a bs) k = Memory.get m k := by
  induction bs with
  | nil => intro m a k _; rfl
  | cons b r ih =>
    intro m a k h
    simp only [List.length_cons] at h
    rw [Memory.write, ih _ _ _ (by omega), Memory.get_set_ne _ _ _ _ (by omega)]

theorem Memory.merge_outside (bs : List StoreByte) : ∀ (m : Memory) (a k : Nat), k < a ∨ a + bs.length ≤ k →
    Memory.get (Memory.merge m a bs) k = Memory.get m k := by
  induction bs with
  | nil => intro m a k _; rfl
  | cons b r ih =>
    intro m a k h
    simp only [List.length_cons] at h
    rw [Memory.merge, ih _ _ _ (by omega), Memory.get_set_ne _ _ _ _ (by omega)]

theorem Memory.read_length (m : Memory) (a n : Nat) : (Memory.read m a n).length = n := by
  induction n generalizing a with
  | zero => rfl
  | succ n ih => simp [Memory.read, ih]

/-- What is written reads back. -/
theorem Memory.read_write (bs : List Byte) : ∀ {m : Memory} (_ : Memory.wf m = true) (a : Nat),
    Memory.read (Memory.write m a bs) a bs.length = bs := by
  induction bs with
  | nil => intro m _ a; rfl
  | cons b r ih =>
    intro m h a
    have hs := Memory.set_wf h a b
    simp only [List.length_cons, Memory.read, Memory.write, ih hs (a + 1)]
    rw [Memory.write_outside _ _ _ _ (by omega), Memory.get_set_same h]

/-! ### Little-endian numbers -/

theorem toBytes_length (n v : Nat) : (toBytes n v).length = n := by
  induction n generalizing v with
  | zero => rfl
  | succ n ih => simp [toBytes, ih]

theorem ofBytes_toBytes (n v : Nat) : ofBytes (toBytes n v) = v % 256 ^ n := by
  induction n generalizing v with
  | zero => simp [toBytes, ofBytes, Nat.mod_one]
  | succ n ih =>
    simp only [toBytes, ofBytes, ih, BitVec.toNat_ofNat]
    show v % 256 + 256 * (v / 256 % 256 ^ n) = v % 256 ^ (n + 1)
    have e : 256 ^ (n + 1) = 256 * 256 ^ n := Nat.pow_succ'
    rw [e]; exact (Nat.mod_mul ..).symm

end Sys2Proof.Machine
end

