-- ==== Sys2Proof/Laws/State.lean ====
section
/-! SUPPORT. What each update of the state leaves as it was, field by field, and what a read gives after a write. -/

namespace Sys2Proof.Machine

/-! ### Cores, quires and bindings -/

@[simp] theorem State.core_setCore_same (s : State) (n : Nat) (c : Core) : (s.setCore n c).core n = c :=
  mapGet_mapPut_same ..
theorem State.core_setCore_ne (s : State) (n k : Nat) (c : Core) (h : k ≠ n) : (s.setCore n c).core k = s.core k :=
  mapGet_mapPut_ne _ _ _ _ _ h
@[simp] theorem State.core_onCore_same (s : State) (n : Nat) (f : Core → Core) : (s.onCore n f).core n = f (s.core n) :=
  mapGet_mapPut_same ..
theorem State.core_onCore_ne (s : State) (n k : Nat) (f : Core → Core) (h : k ≠ n) : (s.onCore n f).core k = s.core k :=
  mapGet_mapPut_ne _ _ _ _ _ h
@[simp] theorem State.quire_setQuire_same (s : State) (q : Nat) (x : Quire) : (s.setQuire q x).quire q = x :=
  mapGet_mapPut_same ..
theorem State.quire_setQuire_ne (s : State) (q k : Nat) (x : Quire) (h : k ≠ q) : (s.setQuire q x).quire k = s.quire k :=
  mapGet_mapPut_ne _ _ _ _ _ h
@[simp] theorem State.quire_onQuire_same (s : State) (q : Nat) (f : Quire → Quire) : (s.onQuire q f).quire q = f (s.quire q) :=
  mapGet_mapPut_same ..
theorem State.quire_onQuire_ne (s : State) (q k : Nat) (f : Quire → Quire) (h : k ≠ q) : (s.onQuire q f).quire k = s.quire k :=
  mapGet_mapPut_ne _ _ _ _ _ h
@[simp] theorem State.binding_setBinding_same (s : State) (b : Nat) (x : Binding) : (s.setBinding b x).binding b = x :=
  mapGet_mapPut_same ..
theorem State.binding_setBinding_ne (s : State) (b k : Nat) (x : Binding) (h : k ≠ b) :
    (s.setBinding b x).binding k = s.binding k :=
  mapGet_mapPut_ne _ _ _ _ _ h

/-! ### The issuing core and context -/

@[simp] theorem State.me_setMe (s : State) (c : Core) : (s.setMe c).me = c := mapGet_mapPut_same ..
@[simp] theorem State.me_onMe (s : State) (f : Core → Core) : (s.onMe f).me = f s.me := mapGet_mapPut_same ..
@[simp] theorem State.csr_onCsr (s : State) (f : Csr → Csr) : (s.onCsr f).csr = f s.csr := by
  simp [State.csr, State.onCsr]
@[simp] theorem State.me_onMyCtx (s : State) (f : Ctx → Ctx) :
    (s.onMyCtx f).me = { s.me with ctxs := s.me.ctxs.set s.ctx (f s.me.ctxs[s.ctx]) } := mapGet_mapPut_same ..
@[simp] theorem State.myCtx_onMyCtx (s : State) (f : Ctx → Ctx) : (s.onMyCtx f).myCtx = f s.myCtx := by
  show (s.onMyCtx f).me.ctxs[s.ctx] = f s.me.ctxs[s.ctx]
  simp
@[simp] theorem State.csr_onMyCtx (s : State) (f : Ctx → Ctx) : (s.onMyCtx f).csr = s.csr := by simp [State.csr]
@[simp] theorem State.v_onMyCtx (s : State) (f : Ctx → Ctx) (r : VReg) : (s.onMyCtx f).v r = s.v r := by simp [State.v]
@[simp] theorem State.m_onMyCtx (s : State) (f : Ctx → Ctx) (r : MReg) : (s.onMyCtx f).m r = s.m r := by simp [State.m]
theorem State.myCtx_onMe (s : State) (f : Core → Core) : (s.onMe f).myCtx = (f s.me).ctxs[s.ctx] := by
  show (s.onMe f).me.ctxs[s.ctx] = (f s.me).ctxs[s.ctx]
  simp
@[simp] theorem State.myCtx_onCsr (s : State) (f : Csr → Csr) : (s.onCsr f).myCtx = s.myCtx := State.myCtx_onMe s _
@[simp] theorem State.w_onCsr (s : State) (f : Csr → Csr) (r : Reg) : (s.onCsr f).w r = s.w r := by simp [State.w]
@[simp] theorem State.w_setW_same (s : State) (r : Reg) (x : Word) : (s.setW r x).w r = x := by
  simp [State.w, State.setW]
theorem State.w_setW (s : State) (r k : Reg) (x : Word) : (s.setW r x).w k = if k = r then x else s.w k := by
  by_cases h : k = r
  · subst h; simp
  · have : r ≠ k := Ne.symm h
    have hv : r.val ≠ k.val := fun e => this (Fin.ext e)
    simp [State.w, State.setW, h, Vector.getElem_set_ne, hv]
@[simp] theorem State.v_setW (s : State) (r : Reg) (x : Word) (k : VReg) : (s.setW r x).v k = s.v k := by simp [State.setW]
@[simp] theorem State.m_setW (s : State) (r : Reg) (x : Word) (k : MReg) : (s.setW r x).m k = s.m k := by simp [State.setW]
@[simp] theorem State.csr_setW (s : State) (r : Reg) (x : Word) : (s.setW r x).csr = s.csr := by simp [State.setW]
@[simp] theorem State.myCtx_setV (s : State) (r : VReg) (x : VecReg) : (s.setV r x).myCtx = s.myCtx := State.myCtx_onMe s _
@[simp] theorem State.w_setV (s : State) (r : VReg) (x : VecReg) (k : Reg) : (s.setV r x).w k = s.w k := by simp [State.w]
@[simp] theorem State.csr_setV (s : State) (r : VReg) (x : VecReg) : (s.setV r x).csr = s.csr := by
  simp [State.csr, State.setV]
@[simp] theorem State.m_setV (s : State) (r : VReg) (x : VecReg) (k : MReg) : (s.setV r x).m k = s.m k := by
  simp [State.m, State.setV]
theorem State.v_setV (s : State) (r k : VReg) (x : VecReg) : (s.setV r x).v k = if k = r then x else s.v k := by
  by_cases h : k = r
  · subst h; simp [State.v, State.setV]
  · have hv : r.val ≠ k.val := fun e => h (Fin.ext e.symm)
    simp [State.v, State.setV, h, Vector.getElem_set_ne, hv]
@[simp] theorem State.myCtx_setM (s : State) (r : MReg) (x : MaskReg) : (s.setM r x).myCtx = s.myCtx := State.myCtx_onMe s _
@[simp] theorem State.w_setM (s : State) (r : MReg) (x : MaskReg) (k : Reg) : (s.setM r x).w k = s.w k := by simp [State.w]
@[simp] theorem State.csr_setM (s : State) (r : MReg) (x : MaskReg) : (s.setM r x).csr = s.csr := by
  simp [State.csr, State.setM]
@[simp] theorem State.v_setM (s : State) (r : MReg) (x : MaskReg) (k : VReg) : (s.setM r x).v k = s.v k := by
  simp [State.v, State.setM]
theorem State.m_setM (s : State) (r k : MReg) (x : MaskReg) : (s.setM r x).m k = if k = r then x else s.m k := by
  by_cases h : k = r
  · subst h; simp [State.m, State.setM]
  · have hv : r.val ≠ k.val := fun e => h (Fin.ext e.symm)
    simp [State.m, State.setM, h, Vector.getElem_set_ne, hv]
@[simp] theorem Ctx.endWait_pc (c : Ctx) (a : Word) : (c.endWait a).pc = a := rfl
@[simp] theorem Ctx.endWait_w (c : Ctx) (a : Word) : (c.endWait a).w = c.w := rfl
@[simp] theorem Ctx.endWait_mode (c : Ctx) (a : Word) : (c.endWait a).mode = c.mode := rfl
@[simp] theorem Ctx.endWait_hstat (c : Ctx) (a : Word) : (c.endWait a).hstat = c.hstat := rfl
@[simp] theorem Ctx.endWait_hcause (c : Ctx) (a : Word) : (c.endWait a).hcause = c.hcause := rfl
@[simp] theorem Ctx.endWait_resv (c : Ctx) (a : Word) : (c.endWait a).resv = c.resv := rfl
@[simp] theorem Ctx.endWait_watch (c : Ctx) (a : Word) : (c.endWait a).watch = c.watch := rfl
@[simp] theorem Ctx.endWait_woken (c : Ctx) (a : Word) : (c.endWait a).woken = c.woken := rfl
@[simp] theorem Ctx.endWait_waiting (c : Ctx) (a : Word) : (c.endWait a).waiting = false := rfl
@[simp] theorem Ctx.endWait_yields (c : Ctx) (a : Word) : (c.endWait a).yields = c.yields := rfl
@[simp] theorem Ctx.forget_pc (c : Ctx) : c.forget.pc = c.pc := rfl
@[simp] theorem Ctx.forget_w (c : Ctx) : c.forget.w = c.w := rfl
@[simp] theorem Ctx.forget_mode (c : Ctx) : c.forget.mode = c.mode := rfl
@[simp] theorem Ctx.forget_hstat (c : Ctx) : c.forget.hstat = c.hstat := rfl
@[simp] theorem Ctx.forget_hcause (c : Ctx) : c.forget.hcause = c.hcause := rfl
@[simp] theorem Ctx.forget_resv (c : Ctx) : c.forget.resv = c.resv := rfl
@[simp] theorem Ctx.forget_watch (c : Ctx) : c.forget.watch = c.watch := rfl
@[simp] theorem Ctx.forget_woken (c : Ctx) : c.forget.woken = c.woken := rfl
@[simp] theorem Ctx.forget_waiting (c : Ctx) : c.forget.waiting = c.waiting := rfl
@[simp] theorem Ctx.forget_yields (c : Ctx) : c.forget.yields = c.yields := rfl
@[simp] theorem State.myCtx_advance (s : State) : s.advance.myCtx =
    (if s.issue.stay then { s.myCtx with waiting := true, wants := [] } else s.myCtx.endWait s.issue.next) :=
  State.myCtx_onMyCtx ..
@[simp] theorem State.w_advance (s : State) (r : Reg) : s.advance.w r = s.w r := by
  simp only [State.w, State.myCtx_advance]; split <;> rfl
@[simp] theorem State.v_advance (s : State) (r : VReg) : s.advance.v r = s.v r := State.v_onMyCtx ..
@[simp] theorem State.m_advance (s : State) (r : MReg) : s.advance.m r = s.m r := State.m_onMyCtx ..
@[simp] theorem State.csr_advance (s : State) : s.advance.csr = s.csr := State.csr_onMyCtx ..

/-! ### Fields that an update does not touch -/

@[simp] theorem State.setCore_tick (s : State) (n : Nat) (c : Core) : (s.setCore n c).tick = s.tick := rfl
@[simp] theorem State.setCore_gtime (s : State) (n : Nat) (c : Core) : (s.setCore n c).gtime = s.gtime := rfl
@[simp] theorem State.setCore_cur (s : State) (n : Nat) (c : Core) : (s.setCore n c).cur = s.cur := rfl
@[simp] theorem State.setCore_ctx (s : State) (n : Nat) (c : Core) : (s.setCore n c).ctx = s.ctx := rfl
@[simp] theorem State.setCore_issue (s : State) (n : Nat) (c : Core) : (s.setCore n c).issue = s.issue := rfl
@[simp] theorem State.setCore_grain (s : State) (n : Nat) (c : Core) : (s.setCore n c).grain = s.grain := rfl
@[simp] theorem State.setCore_turn (s : State) (n : Nat) (c : Core) : (s.setCore n c).turn = s.turn := rfl
@[simp] theorem State.setCore_chosen (s : State) (n : Nat) (c : Core) : (s.setCore n c).chosen = s.chosen := rfl
@[simp] theorem State.setCore_inputs (s : State) (n : Nat) (c : Core) : (s.setCore n c).inputs = s.inputs := rfl
@[simp] theorem State.setCore_held (s : State) (n : Nat) (c : Core) : (s.setCore n c).held = s.held := rfl
@[simp] theorem State.setCore_quires (s : State) (n : Nat) (c : Core) : (s.setCore n c).quires = s.quires := rfl
@[simp] theorem State.setCore_hbm (s : State) (n : Nat) (c : Core) : (s.setCore n c).hbm = s.hbm := rfl
@[simp] theorem State.setCore_badHbm (s : State) (n : Nat) (c : Core) : (s.setCore n c).badHbm = s.badHbm := rfl
@[simp] theorem State.setCore_bindings (s : State) (n : Nat) (c : Core) : (s.setCore n c).bindings = s.bindings := rfl
@[simp] theorem State.setCore_wls (s : State) (n : Nat) (c : Core) : (s.setCore n c).wls = s.wls := rfl
@[simp] theorem State.setCore_kops (s : State) (n : Nat) (c : Core) : (s.setCore n c).kops = s.kops := rfl
@[simp] theorem State.setCore_parked (s : State) (n : Nat) (c : Core) : (s.setCore n c).parked = s.parked := rfl
@[simp] theorem State.setCore_granules (s : State) (n : Nat) (c : Core) : (s.setCore n c).granules = s.granules := rfl
@[simp] theorem State.setCore_watches (s : State) (n : Nat) (c : Core) : (s.setCore n c).watches = s.watches := rfl
@[simp] theorem State.setCore_episodes (s : State) (n : Nat) (c : Core) : (s.setCore n c).episodes = s.episodes := rfl
@[simp] theorem State.setCore_net (s : State) (n : Nat) (c : Core) : (s.setCore n c).net = s.net := rfl
@[simp] theorem State.setCore_tree (s : State) (n : Nat) (c : Core) : (s.setCore n c).tree = s.tree := rfl
@[simp] theorem State.setCore_devid (s : State) (n : Nat) (c : Core) : (s.setCore n c).devid = s.devid := rfl
@[simp] theorem State.setCore_extents (s : State) (n : Nat) (c : Core) : (s.setCore n c).extents = s.extents := rfl
@[simp] theorem State.setCore_imago (s : State) (n : Nat) (c : Core) : (s.setCore n c).imago = s.imago := rfl
@[simp] theorem State.setCore_service (s : State) (n : Nat) (c : Core) : (s.setCore n c).service = s.service := rfl
@[simp] theorem State.setCore_thermal (s : State) (n : Nat) (c : Core) : (s.setCore n c).thermal = s.thermal := rfl
@[simp] theorem State.setCore_gramLast (s : State) (n : Nat) (c : Core) : (s.setCore n c).gramLast = s.gramLast := rfl
@[simp] theorem State.setCore_reports (s : State) (n : Nat) (c : Core) : (s.setCore n c).reports = s.reports := rfl
@[simp] theorem State.setCore_trained (s : State) (n : Nat) (c : Core) : (s.setCore n c).trained = s.trained := rfl
@[simp] theorem State.setCore_fabctl (s : State) (n : Nat) (c : Core) : (s.setCore n c).fabctl = s.fabctl := rfl
@[simp] theorem State.setCore_prctl (s : State) (n : Nat) (c : Core) : (s.setCore n c).prctl = s.prctl := rfl
@[simp] theorem State.setCore_lost (s : State) (n : Nat) (c : Core) : (s.setCore n c).lost = s.lost := rfl
@[simp] theorem State.setCore_fabric (s : State) (n : Nat) (c : Core) : (s.setCore n c).fabric = s.fabric := rfl
@[simp] theorem State.setCore_noc (s : State) (n : Nat) (c : Core) : (s.setCore n c).noc = s.noc := rfl
@[simp] theorem State.setCore_link (s : State) (n : Nat) (c : Core) : (s.setCore n c).link = s.link := rfl
@[simp] theorem State.setCore_mgmt (s : State) (n : Nat) (c : Core) : (s.setCore n c).mgmt = s.mgmt := rfl
@[simp] theorem State.onCore_tick (s : State) (n : Nat) (f : Core → Core) : (s.onCore n f).tick = s.tick := rfl
@[simp] theorem State.onCore_gtime (s : State) (n : Nat) (f : Core → Core) : (s.onCore n f).gtime = s.gtime := rfl
@[simp] theorem State.onCore_cur (s : State) (n : Nat) (f : Core → Core) : (s.onCore n f).cur = s.cur := rfl
@[simp] theorem State.onCore_ctx (s : State) (n : Nat) (f : Core → Core) : (s.onCore n f).ctx = s.ctx := rfl
@[simp] theorem State.onCore_issue (s : State) (n : Nat) (f : Core → Core) : (s.onCore n f).issue = s.issue := rfl
@[simp] theorem State.onCore_grain (s : State) (n : Nat) (f : Core → Core) : (s.onCore n f).grain = s.grain := rfl
@[simp] theorem State.onCore_turn (s : State) (n : Nat) (f : Core → Core) : (s.onCore n f).turn = s.turn := rfl
@[simp] theorem State.onCore_chosen (s : State) (n : Nat) (f : Core → Core) : (s.onCore n f).chosen = s.chosen := rfl
@[simp] theorem State.onCore_inputs (s : State) (n : Nat) (f : Core → Core) : (s.onCore n f).inputs = s.inputs := rfl
@[simp] theorem State.onCore_held (s : State) (n : Nat) (f : Core → Core) : (s.onCore n f).held = s.held := rfl
@[simp] theorem State.onCore_quires (s : State) (n : Nat) (f : Core → Core) : (s.onCore n f).quires = s.quires := rfl
@[simp] theorem State.onCore_hbm (s : State) (n : Nat) (f : Core → Core) : (s.onCore n f).hbm = s.hbm := rfl
@[simp] theorem State.onCore_badHbm (s : State) (n : Nat) (f : Core → Core) : (s.onCore n f).badHbm = s.badHbm := rfl
@[simp] theorem State.onCore_bindings (s : State) (n : Nat) (f : Core → Core) : (s.onCore n f).bindings = s.bindings := rfl
@[simp] theorem State.onCore_wls (s : State) (n : Nat) (f : Core → Core) : (s.onCore n f).wls = s.wls := rfl
@[simp] theorem State.onCore_kops (s : State) (n : Nat) (f : Core → Core) : (s.onCore n f).kops = s.kops := rfl
@[simp] theorem State.onCore_parked (s : State) (n : Nat) (f : Core → Core) : (s.onCore n f).parked = s.parked := rfl
@[simp] theorem State.onCore_granules (s : State) (n : Nat) (f : Core → Core) : (s.onCore n f).granules = s.granules := rfl
@[simp] theorem State.onCore_watches (s : State) (n : Nat) (f : Core → Core) : (s.onCore n f).watches = s.watches := rfl
@[simp] theorem State.onCore_episodes (s : State) (n : Nat) (f : Core → Core) : (s.onCore n f).episodes = s.episodes := rfl
@[simp] theorem State.onCore_net (s : State) (n : Nat) (f : Core → Core) : (s.onCore n f).net = s.net := rfl
@[simp] theorem State.onCore_tree (s : State) (n : Nat) (f : Core → Core) : (s.onCore n f).tree = s.tree := rfl
@[simp] theorem State.onCore_devid (s : State) (n : Nat) (f : Core → Core) : (s.onCore n f).devid = s.devid := rfl
@[simp] theorem State.onCore_extents (s : State) (n : Nat) (f : Core → Core) : (s.onCore n f).extents = s.extents := rfl
@[simp] theorem State.onCore_imago (s : State) (n : Nat) (f : Core → Core) : (s.onCore n f).imago = s.imago := rfl
@[simp] theorem State.onCore_service (s : State) (n : Nat) (f : Core → Core) : (s.onCore n f).service = s.service := rfl
@[simp] theorem State.onCore_thermal (s : State) (n : Nat) (f : Core → Core) : (s.onCore n f).thermal = s.thermal := rfl
@[simp] theorem State.onCore_gramLast (s : State) (n : Nat) (f : Core → Core) : (s.onCore n f).gramLast = s.gramLast := rfl
@[simp] theorem State.onCore_reports (s : State) (n : Nat) (f : Core → Core) : (s.onCore n f).reports = s.reports := rfl
@[simp] theorem State.onCore_trained (s : State) (n : Nat) (f : Core → Core) : (s.onCore n f).trained = s.trained := rfl
@[simp] theorem State.onCore_fabctl (s : State) (n : Nat) (f : Core → Core) : (s.onCore n f).fabctl = s.fabctl := rfl
@[simp] theorem State.onCore_prctl (s : State) (n : Nat) (f : Core → Core) : (s.onCore n f).prctl = s.prctl := rfl
@[simp] theorem State.onCore_lost (s : State) (n : Nat) (f : Core → Core) : (s.onCore n f).lost = s.lost := rfl
@[simp] theorem State.onCore_fabric (s : State) (n : Nat) (f : Core → Core) : (s.onCore n f).fabric = s.fabric := rfl
@[simp] theorem State.onCore_noc (s : State) (n : Nat) (f : Core → Core) : (s.onCore n f).noc = s.noc := rfl
@[simp] theorem State.onCore_link (s : State) (n : Nat) (f : Core → Core) : (s.onCore n f).link = s.link := rfl
@[simp] theorem State.onCore_mgmt (s : State) (n : Nat) (f : Core → Core) : (s.onCore n f).mgmt = s.mgmt := rfl
@[simp] theorem State.setMe_tick (s : State) (c : Core) : (s.setMe c).tick = s.tick := rfl
@[simp] theorem State.setMe_gtime (s : State) (c : Core) : (s.setMe c).gtime = s.gtime := rfl
@[simp] theorem State.setMe_cur (s : State) (c : Core) : (s.setMe c).cur = s.cur := rfl
@[simp] theorem State.setMe_ctx (s : State) (c : Core) : (s.setMe c).ctx = s.ctx := rfl
@[simp] theorem State.setMe_issue (s : State) (c : Core) : (s.setMe c).issue = s.issue := rfl
@[simp] theorem State.setMe_grain (s : State) (c : Core) : (s.setMe c).grain = s.grain := rfl
@[simp] theorem State.setMe_turn (s : State) (c : Core) : (s.setMe c).turn = s.turn := rfl
@[simp] theorem State.setMe_chosen (s : State) (c : Core) : (s.setMe c).chosen = s.chosen := rfl
@[simp] theorem State.setMe_inputs (s : State) (c : Core) : (s.setMe c).inputs = s.inputs := rfl
@[simp] theorem State.setMe_held (s : State) (c : Core) : (s.setMe c).held = s.held := rfl
@[simp] theorem State.setMe_quires (s : State) (c : Core) : (s.setMe c).quires = s.quires := rfl
@[simp] theorem State.setMe_hbm (s : State) (c : Core) : (s.setMe c).hbm = s.hbm := rfl
@[simp] theorem State.setMe_badHbm (s : State) (c : Core) : (s.setMe c).badHbm = s.badHbm := rfl
@[simp] theorem State.setMe_bindings (s : State) (c : Core) : (s.setMe c).bindings = s.bindings := rfl
@[simp] theorem State.setMe_wls (s : State) (c : Core) : (s.setMe c).wls = s.wls := rfl
@[simp] theorem State.setMe_kops (s : State) (c : Core) : (s.setMe c).kops = s.kops := rfl
@[simp] theorem State.setMe_parked (s : State) (c : Core) : (s.setMe c).parked = s.parked := rfl
@[simp] theorem State.setMe_granules (s : State) (c : Core) : (s.setMe c).granules = s.granules := rfl
@[simp] theorem State.setMe_watches (s : State) (c : Core) : (s.setMe c).watches = s.watches := rfl
@[simp] theorem State.setMe_episodes (s : State) (c : Core) : (s.setMe c).episodes = s.episodes := rfl
@[simp] theorem State.setMe_net (s : State) (c : Core) : (s.setMe c).net = s.net := rfl
@[simp] theorem State.setMe_tree (s : State) (c : Core) : (s.setMe c).tree = s.tree := rfl
@[simp] theorem State.setMe_devid (s : State) (c : Core) : (s.setMe c).devid = s.devid := rfl
@[simp] theorem State.setMe_extents (s : State) (c : Core) : (s.setMe c).extents = s.extents := rfl
@[simp] theorem State.setMe_imago (s : State) (c : Core) : (s.setMe c).imago = s.imago := rfl
@[simp] theorem State.setMe_service (s : State) (c : Core) : (s.setMe c).service = s.service := rfl
@[simp] theorem State.setMe_thermal (s : State) (c : Core) : (s.setMe c).thermal = s.thermal := rfl
@[simp] theorem State.setMe_gramLast (s : State) (c : Core) : (s.setMe c).gramLast = s.gramLast := rfl
@[simp] theorem State.setMe_reports (s : State) (c : Core) : (s.setMe c).reports = s.reports := rfl
@[simp] theorem State.setMe_trained (s : State) (c : Core) : (s.setMe c).trained = s.trained := rfl
@[simp] theorem State.setMe_fabctl (s : State) (c : Core) : (s.setMe c).fabctl = s.fabctl := rfl
@[simp] theorem State.setMe_prctl (s : State) (c : Core) : (s.setMe c).prctl = s.prctl := rfl
@[simp] theorem State.setMe_lost (s : State) (c : Core) : (s.setMe c).lost = s.lost := rfl
@[simp] theorem State.setMe_fabric (s : State) (c : Core) : (s.setMe c).fabric = s.fabric := rfl
@[simp] theorem State.setMe_noc (s : State) (c : Core) : (s.setMe c).noc = s.noc := rfl
@[simp] theorem State.setMe_link (s : State) (c : Core) : (s.setMe c).link = s.link := rfl
@[simp] theorem State.setMe_mgmt (s : State) (c : Core) : (s.setMe c).mgmt = s.mgmt := rfl
@[simp] theorem State.onMe_tick (s : State) (f : Core → Core) : (s.onMe f).tick = s.tick := rfl
@[simp] theorem State.onMe_gtime (s : State) (f : Core → Core) : (s.onMe f).gtime = s.gtime := rfl
@[simp] theorem State.onMe_cur (s : State) (f : Core → Core) : (s.onMe f).cur = s.cur := rfl
@[simp] theorem State.onMe_ctx (s : State) (f : Core → Core) : (s.onMe f).ctx = s.ctx := rfl
@[simp] theorem State.onMe_issue (s : State) (f : Core → Core) : (s.onMe f).issue = s.issue := rfl
@[simp] theorem State.onMe_grain (s : State) (f : Core → Core) : (s.onMe f).grain = s.grain := rfl
@[simp] theorem State.onMe_turn (s : State) (f : Core → Core) : (s.onMe f).turn = s.turn := rfl
@[simp] theorem State.onMe_chosen (s : State) (f : Core → Core) : (s.onMe f).chosen = s.chosen := rfl
@[simp] theorem State.onMe_inputs (s : State) (f : Core → Core) : (s.onMe f).inputs = s.inputs := rfl
@[simp] theorem State.onMe_held (s : State) (f : Core → Core) : (s.onMe f).held = s.held := rfl
@[simp] theorem State.onMe_quires (s : State) (f : Core → Core) : (s.onMe f).quires = s.quires := rfl
@[simp] theorem State.onMe_hbm (s : State) (f : Core → Core) : (s.onMe f).hbm = s.hbm := rfl
@[simp] theorem State.onMe_badHbm (s : State) (f : Core → Core) : (s.onMe f).badHbm = s.badHbm := rfl
@[simp] theorem State.onMe_bindings (s : State) (f : Core → Core) : (s.onMe f).bindings = s.bindings := rfl
@[simp] theorem State.onMe_wls (s : State) (f : Core → Core) : (s.onMe f).wls = s.wls := rfl
@[simp] theorem State.onMe_kops (s : State) (f : Core → Core) : (s.onMe f).kops = s.kops := rfl
@[simp] theorem State.onMe_parked (s : State) (f : Core → Core) : (s.onMe f).parked = s.parked := rfl
@[simp] theorem State.onMe_granules (s : State) (f : Core → Core) : (s.onMe f).granules = s.granules := rfl
@[simp] theorem State.onMe_watches (s : State) (f : Core → Core) : (s.onMe f).watches = s.watches := rfl
@[simp] theorem State.onMe_episodes (s : State) (f : Core → Core) : (s.onMe f).episodes = s.episodes := rfl
@[simp] theorem State.onMe_net (s : State) (f : Core → Core) : (s.onMe f).net = s.net := rfl
@[simp] theorem State.onMe_tree (s : State) (f : Core → Core) : (s.onMe f).tree = s.tree := rfl
@[simp] theorem State.onMe_devid (s : State) (f : Core → Core) : (s.onMe f).devid = s.devid := rfl
@[simp] theorem State.onMe_extents (s : State) (f : Core → Core) : (s.onMe f).extents = s.extents := rfl
@[simp] theorem State.onMe_imago (s : State) (f : Core → Core) : (s.onMe f).imago = s.imago := rfl
@[simp] theorem State.onMe_service (s : State) (f : Core → Core) : (s.onMe f).service = s.service := rfl
@[simp] theorem State.onMe_thermal (s : State) (f : Core → Core) : (s.onMe f).thermal = s.thermal := rfl
@[simp] theorem State.onMe_gramLast (s : State) (f : Core → Core) : (s.onMe f).gramLast = s.gramLast := rfl
@[simp] theorem State.onMe_reports (s : State) (f : Core → Core) : (s.onMe f).reports = s.reports := rfl
@[simp] theorem State.onMe_trained (s : State) (f : Core → Core) : (s.onMe f).trained = s.trained := rfl
@[simp] theorem State.onMe_fabctl (s : State) (f : Core → Core) : (s.onMe f).fabctl = s.fabctl := rfl
@[simp] theorem State.onMe_prctl (s : State) (f : Core → Core) : (s.onMe f).prctl = s.prctl := rfl
@[simp] theorem State.onMe_lost (s : State) (f : Core → Core) : (s.onMe f).lost = s.lost := rfl
@[simp] theorem State.onMe_fabric (s : State) (f : Core → Core) : (s.onMe f).fabric = s.fabric := rfl
@[simp] theorem State.onMe_noc (s : State) (f : Core → Core) : (s.onMe f).noc = s.noc := rfl
@[simp] theorem State.onMe_link (s : State) (f : Core → Core) : (s.onMe f).link = s.link := rfl
@[simp] theorem State.onMe_mgmt (s : State) (f : Core → Core) : (s.onMe f).mgmt = s.mgmt := rfl
@[simp] theorem State.onMyCtx_tick (s : State) (f : Ctx → Ctx) : (s.onMyCtx f).tick = s.tick := rfl
@[simp] theorem State.onMyCtx_gtime (s : State) (f : Ctx → Ctx) : (s.onMyCtx f).gtime = s.gtime := rfl
@[simp] theorem State.onMyCtx_cur (s : State) (f : Ctx → Ctx) : (s.onMyCtx f).cur = s.cur := rfl
@[simp] theorem State.onMyCtx_ctx (s : State) (f : Ctx → Ctx) : (s.onMyCtx f).ctx = s.ctx := rfl
@[simp] theorem State.onMyCtx_issue (s : State) (f : Ctx → Ctx) : (s.onMyCtx f).issue = s.issue := rfl
@[simp] theorem State.onMyCtx_grain (s : State) (f : Ctx → Ctx) : (s.onMyCtx f).grain = s.grain := rfl
@[simp] theorem State.onMyCtx_turn (s : State) (f : Ctx → Ctx) : (s.onMyCtx f).turn = s.turn := rfl
@[simp] theorem State.onMyCtx_chosen (s : State) (f : Ctx → Ctx) : (s.onMyCtx f).chosen = s.chosen := rfl
@[simp] theorem State.onMyCtx_inputs (s : State) (f : Ctx → Ctx) : (s.onMyCtx f).inputs = s.inputs := rfl
@[simp] theorem State.onMyCtx_held (s : State) (f : Ctx → Ctx) : (s.onMyCtx f).held = s.held := rfl
@[simp] theorem State.onMyCtx_quires (s : State) (f : Ctx → Ctx) : (s.onMyCtx f).quires = s.quires := rfl
@[simp] theorem State.onMyCtx_hbm (s : State) (f : Ctx → Ctx) : (s.onMyCtx f).hbm = s.hbm := rfl
@[simp] theorem State.onMyCtx_badHbm (s : State) (f : Ctx → Ctx) : (s.onMyCtx f).badHbm = s.badHbm := rfl
@[simp] theorem State.onMyCtx_bindings (s : State) (f : Ctx → Ctx) : (s.onMyCtx f).bindings = s.bindings := rfl
@[simp] theorem State.onMyCtx_wls (s : State) (f : Ctx → Ctx) : (s.onMyCtx f).wls = s.wls := rfl
@[simp] theorem State.onMyCtx_kops (s : State) (f : Ctx → Ctx) : (s.onMyCtx f).kops = s.kops := rfl
@[simp] theorem State.onMyCtx_parked (s : State) (f : Ctx → Ctx) : (s.onMyCtx f).parked = s.parked := rfl
@[simp] theorem State.onMyCtx_granules (s : State) (f : Ctx → Ctx) : (s.onMyCtx f).granules = s.granules := rfl
@[simp] theorem State.onMyCtx_watches (s : State) (f : Ctx → Ctx) : (s.onMyCtx f).watches = s.watches := rfl
@[simp] theorem State.onMyCtx_episodes (s : State) (f : Ctx → Ctx) : (s.onMyCtx f).episodes = s.episodes := rfl
@[simp] theorem State.onMyCtx_net (s : State) (f : Ctx → Ctx) : (s.onMyCtx f).net = s.net := rfl
@[simp] theorem State.onMyCtx_tree (s : State) (f : Ctx → Ctx) : (s.onMyCtx f).tree = s.tree := rfl
@[simp] theorem State.onMyCtx_devid (s : State) (f : Ctx → Ctx) : (s.onMyCtx f).devid = s.devid := rfl
@[simp] theorem State.onMyCtx_extents (s : State) (f : Ctx → Ctx) : (s.onMyCtx f).extents = s.extents := rfl
@[simp] theorem State.onMyCtx_imago (s : State) (f : Ctx → Ctx) : (s.onMyCtx f).imago = s.imago := rfl
@[simp] theorem State.onMyCtx_service (s : State) (f : Ctx → Ctx) : (s.onMyCtx f).service = s.service := rfl
@[simp] theorem State.onMyCtx_thermal (s : State) (f : Ctx → Ctx) : (s.onMyCtx f).thermal = s.thermal := rfl
@[simp] theorem State.onMyCtx_gramLast (s : State) (f : Ctx → Ctx) : (s.onMyCtx f).gramLast = s.gramLast := rfl
@[simp] theorem State.onMyCtx_reports (s : State) (f : Ctx → Ctx) : (s.onMyCtx f).reports = s.reports := rfl
@[simp] theorem State.onMyCtx_trained (s : State) (f : Ctx → Ctx) : (s.onMyCtx f).trained = s.trained := rfl
@[simp] theorem State.onMyCtx_fabctl (s : State) (f : Ctx → Ctx) : (s.onMyCtx f).fabctl = s.fabctl := rfl
@[simp] theorem State.onMyCtx_prctl (s : State) (f : Ctx → Ctx) : (s.onMyCtx f).prctl = s.prctl := rfl
@[simp] theorem State.onMyCtx_lost (s : State) (f : Ctx → Ctx) : (s.onMyCtx f).lost = s.lost := rfl
@[simp] theorem State.onMyCtx_fabric (s : State) (f : Ctx → Ctx) : (s.onMyCtx f).fabric = s.fabric := rfl
@[simp] theorem State.onMyCtx_noc (s : State) (f : Ctx → Ctx) : (s.onMyCtx f).noc = s.noc := rfl
@[simp] theorem State.onMyCtx_link (s : State) (f : Ctx → Ctx) : (s.onMyCtx f).link = s.link := rfl
@[simp] theorem State.onMyCtx_mgmt (s : State) (f : Ctx → Ctx) : (s.onMyCtx f).mgmt = s.mgmt := rfl
@[simp] theorem State.onCsr_tick (s : State) (f : Csr → Csr) : (s.onCsr f).tick = s.tick := rfl
@[simp] theorem State.onCsr_gtime (s : State) (f : Csr → Csr) : (s.onCsr f).gtime = s.gtime := rfl
@[simp] theorem State.onCsr_cur (s : State) (f : Csr → Csr) : (s.onCsr f).cur = s.cur := rfl
@[simp] theorem State.onCsr_ctx (s : State) (f : Csr → Csr) : (s.onCsr f).ctx = s.ctx := rfl
@[simp] theorem State.onCsr_issue (s : State) (f : Csr → Csr) : (s.onCsr f).issue = s.issue := rfl
@[simp] theorem State.onCsr_grain (s : State) (f : Csr → Csr) : (s.onCsr f).grain = s.grain := rfl
@[simp] theorem State.onCsr_turn (s : State) (f : Csr → Csr) : (s.onCsr f).turn = s.turn := rfl
@[simp] theorem State.onCsr_chosen (s : State) (f : Csr → Csr) : (s.onCsr f).chosen = s.chosen := rfl
@[simp] theorem State.onCsr_inputs (s : State) (f : Csr → Csr) : (s.onCsr f).inputs = s.inputs := rfl
@[simp] theorem State.onCsr_held (s : State) (f : Csr → Csr) : (s.onCsr f).held = s.held := rfl
@[simp] theorem State.onCsr_quires (s : State) (f : Csr → Csr) : (s.onCsr f).quires = s.quires := rfl
@[simp] theorem State.onCsr_hbm (s : State) (f : Csr → Csr) : (s.onCsr f).hbm = s.hbm := rfl
@[simp] theorem State.onCsr_badHbm (s : State) (f : Csr → Csr) : (s.onCsr f).badHbm = s.badHbm := rfl
@[simp] theorem State.onCsr_bindings (s : State) (f : Csr → Csr) : (s.onCsr f).bindings = s.bindings := rfl
@[simp] theorem State.onCsr_wls (s : State) (f : Csr → Csr) : (s.onCsr f).wls = s.wls := rfl
@[simp] theorem State.onCsr_kops (s : State) (f : Csr → Csr) : (s.onCsr f).kops = s.kops := rfl
@[simp] theorem State.onCsr_parked (s : State) (f : Csr → Csr) : (s.onCsr f).parked = s.parked := rfl
@[simp] theorem State.onCsr_granules (s : State) (f : Csr → Csr) : (s.onCsr f).granules = s.granules := rfl
@[simp] theorem State.onCsr_watches (s : State) (f : Csr → Csr) : (s.onCsr f).watches = s.watches := rfl
@[simp] theorem State.onCsr_episodes (s : State) (f : Csr → Csr) : (s.onCsr f).episodes = s.episodes := rfl
@[simp] theorem State.onCsr_net (s : State) (f : Csr → Csr) : (s.onCsr f).net = s.net := rfl
@[simp] theorem State.onCsr_tree (s : State) (f : Csr → Csr) : (s.onCsr f).tree = s.tree := rfl
@[simp] theorem State.onCsr_devid (s : State) (f : Csr → Csr) : (s.onCsr f).devid = s.devid := rfl
@[simp] theorem State.onCsr_extents (s : State) (f : Csr → Csr) : (s.onCsr f).extents = s.extents := rfl
@[simp] theorem State.onCsr_imago (s : State) (f : Csr → Csr) : (s.onCsr f).imago = s.imago := rfl
@[simp] theorem State.onCsr_service (s : State) (f : Csr → Csr) : (s.onCsr f).service = s.service := rfl
@[simp] theorem State.onCsr_thermal (s : State) (f : Csr → Csr) : (s.onCsr f).thermal = s.thermal := rfl
@[simp] theorem State.onCsr_gramLast (s : State) (f : Csr → Csr) : (s.onCsr f).gramLast = s.gramLast := rfl
@[simp] theorem State.onCsr_reports (s : State) (f : Csr → Csr) : (s.onCsr f).reports = s.reports := rfl
@[simp] theorem State.onCsr_trained (s : State) (f : Csr → Csr) : (s.onCsr f).trained = s.trained := rfl
@[simp] theorem State.onCsr_fabctl (s : State) (f : Csr → Csr) : (s.onCsr f).fabctl = s.fabctl := rfl
@[simp] theorem State.onCsr_prctl (s : State) (f : Csr → Csr) : (s.onCsr f).prctl = s.prctl := rfl
@[simp] theorem State.onCsr_lost (s : State) (f : Csr → Csr) : (s.onCsr f).lost = s.lost := rfl
@[simp] theorem State.onCsr_fabric (s : State) (f : Csr → Csr) : (s.onCsr f).fabric = s.fabric := rfl
@[simp] theorem State.onCsr_noc (s : State) (f : Csr → Csr) : (s.onCsr f).noc = s.noc := rfl
@[simp] theorem State.onCsr_link (s : State) (f : Csr → Csr) : (s.onCsr f).link = s.link := rfl
@[simp] theorem State.onCsr_mgmt (s : State) (f : Csr → Csr) : (s.onCsr f).mgmt = s.mgmt := rfl
@[simp] theorem State.setW_tick (s : State) (r : Reg) (x : Word) : (s.setW r x).tick = s.tick := rfl
@[simp] theorem State.setW_gtime (s : State) (r : Reg) (x : Word) : (s.setW r x).gtime = s.gtime := rfl
@[simp] theorem State.setW_cur (s : State) (r : Reg) (x : Word) : (s.setW r x).cur = s.cur := rfl
@[simp] theorem State.setW_ctx (s : State) (r : Reg) (x : Word) : (s.setW r x).ctx = s.ctx := rfl
@[simp] theorem State.setW_issue (s : State) (r : Reg) (x : Word) : (s.setW r x).issue = s.issue := rfl
@[simp] theorem State.setW_grain (s : State) (r : Reg) (x : Word) : (s.setW r x).grain = s.grain := rfl
@[simp] theorem State.setW_turn (s : State) (r : Reg) (x : Word) : (s.setW r x).turn = s.turn := rfl
@[simp] theorem State.setW_chosen (s : State) (r : Reg) (x : Word) : (s.setW r x).chosen = s.chosen := rfl
@[simp] theorem State.setW_inputs (s : State) (r : Reg) (x : Word) : (s.setW r x).inputs = s.inputs := rfl
@[simp] theorem State.setW_held (s : State) (r : Reg) (x : Word) : (s.setW r x).held = s.held := rfl
@[simp] theorem State.setW_quires (s : State) (r : Reg) (x : Word) : (s.setW r x).quires = s.quires := rfl
@[simp] theorem State.setW_hbm (s : State) (r : Reg) (x : Word) : (s.setW r x).hbm = s.hbm := rfl
@[simp] theorem State.setW_badHbm (s : State) (r : Reg) (x : Word) : (s.setW r x).badHbm = s.badHbm := rfl
@[simp] theorem State.setW_bindings (s : State) (r : Reg) (x : Word) : (s.setW r x).bindings = s.bindings := rfl
@[simp] theorem State.setW_wls (s : State) (r : Reg) (x : Word) : (s.setW r x).wls = s.wls := rfl
@[simp] theorem State.setW_kops (s : State) (r : Reg) (x : Word) : (s.setW r x).kops = s.kops := rfl
@[simp] theorem State.setW_parked (s : State) (r : Reg) (x : Word) : (s.setW r x).parked = s.parked := rfl
@[simp] theorem State.setW_granules (s : State) (r : Reg) (x : Word) : (s.setW r x).granules = s.granules := rfl
@[simp] theorem State.setW_watches (s : State) (r : Reg) (x : Word) : (s.setW r x).watches = s.watches := rfl
@[simp] theorem State.setW_episodes (s : State) (r : Reg) (x : Word) : (s.setW r x).episodes = s.episodes := rfl
@[simp] theorem State.setW_net (s : State) (r : Reg) (x : Word) : (s.setW r x).net = s.net := rfl
@[simp] theorem State.setW_tree (s : State) (r : Reg) (x : Word) : (s.setW r x).tree = s.tree := rfl
@[simp] theorem State.setW_devid (s : State) (r : Reg) (x : Word) : (s.setW r x).devid = s.devid := rfl
@[simp] theorem State.setW_extents (s : State) (r : Reg) (x : Word) : (s.setW r x).extents = s.extents := rfl
@[simp] theorem State.setW_imago (s : State) (r : Reg) (x : Word) : (s.setW r x).imago = s.imago := rfl
@[simp] theorem State.setW_service (s : State) (r : Reg) (x : Word) : (s.setW r x).service = s.service := rfl
@[simp] theorem State.setW_thermal (s : State) (r : Reg) (x : Word) : (s.setW r x).thermal = s.thermal := rfl
@[simp] theorem State.setW_gramLast (s : State) (r : Reg) (x : Word) : (s.setW r x).gramLast = s.gramLast := rfl
@[simp] theorem State.setW_reports (s : State) (r : Reg) (x : Word) : (s.setW r x).reports = s.reports := rfl
@[simp] theorem State.setW_trained (s : State) (r : Reg) (x : Word) : (s.setW r x).trained = s.trained := rfl
@[simp] theorem State.setW_fabctl (s : State) (r : Reg) (x : Word) : (s.setW r x).fabctl = s.fabctl := rfl
@[simp] theorem State.setW_prctl (s : State) (r : Reg) (x : Word) : (s.setW r x).prctl = s.prctl := rfl
@[simp] theorem State.setW_lost (s : State) (r : Reg) (x : Word) : (s.setW r x).lost = s.lost := rfl
@[simp] theorem State.setW_fabric (s : State) (r : Reg) (x : Word) : (s.setW r x).fabric = s.fabric := rfl
@[simp] theorem State.setW_noc (s : State) (r : Reg) (x : Word) : (s.setW r x).noc = s.noc := rfl
@[simp] theorem State.setW_link (s : State) (r : Reg) (x : Word) : (s.setW r x).link = s.link := rfl
@[simp] theorem State.setW_mgmt (s : State) (r : Reg) (x : Word) : (s.setW r x).mgmt = s.mgmt := rfl
@[simp] theorem State.setV_tick (s : State) (r : VReg) (x : VecReg) : (s.setV r x).tick = s.tick := rfl
@[simp] theorem State.setV_gtime (s : State) (r : VReg) (x : VecReg) : (s.setV r x).gtime = s.gtime := rfl
@[simp] theorem State.setV_cur (s : State) (r : VReg) (x : VecReg) : (s.setV r x).cur = s.cur := rfl
@[simp] theorem State.setV_ctx (s : State) (r : VReg) (x : VecReg) : (s.setV r x).ctx = s.ctx := rfl
@[simp] theorem State.setV_issue (s : State) (r : VReg) (x : VecReg) : (s.setV r x).issue = s.issue := rfl
@[simp] theorem State.setV_grain (s : State) (r : VReg) (x : VecReg) : (s.setV r x).grain = s.grain := rfl
@[simp] theorem State.setV_turn (s : State) (r : VReg) (x : VecReg) : (s.setV r x).turn = s.turn := rfl
@[simp] theorem State.setV_chosen (s : State) (r : VReg) (x : VecReg) : (s.setV r x).chosen = s.chosen := rfl
@[simp] theorem State.setV_inputs (s : State) (r : VReg) (x : VecReg) : (s.setV r x).inputs = s.inputs := rfl
@[simp] theorem State.setV_held (s : State) (r : VReg) (x : VecReg) : (s.setV r x).held = s.held := rfl
@[simp] theorem State.setV_quires (s : State) (r : VReg) (x : VecReg) : (s.setV r x).quires = s.quires := rfl
@[simp] theorem State.setV_hbm (s : State) (r : VReg) (x : VecReg) : (s.setV r x).hbm = s.hbm := rfl
@[simp] theorem State.setV_badHbm (s : State) (r : VReg) (x : VecReg) : (s.setV r x).badHbm = s.badHbm := rfl
@[simp] theorem State.setV_bindings (s : State) (r : VReg) (x : VecReg) : (s.setV r x).bindings = s.bindings := rfl
@[simp] theorem State.setV_wls (s : State) (r : VReg) (x : VecReg) : (s.setV r x).wls = s.wls := rfl
@[simp] theorem State.setV_kops (s : State) (r : VReg) (x : VecReg) : (s.setV r x).kops = s.kops := rfl
@[simp] theorem State.setV_parked (s : State) (r : VReg) (x : VecReg) : (s.setV r x).parked = s.parked := rfl
@[simp] theorem State.setV_granules (s : State) (r : VReg) (x : VecReg) : (s.setV r x).granules = s.granules := rfl
@[simp] theorem State.setV_watches (s : State) (r : VReg) (x : VecReg) : (s.setV r x).watches = s.watches := rfl
@[simp] theorem State.setV_episodes (s : State) (r : VReg) (x : VecReg) : (s.setV r x).episodes = s.episodes := rfl
@[simp] theorem State.setV_net (s : State) (r : VReg) (x : VecReg) : (s.setV r x).net = s.net := rfl
@[simp] theorem State.setV_tree (s : State) (r : VReg) (x : VecReg) : (s.setV r x).tree = s.tree := rfl
@[simp] theorem State.setV_devid (s : State) (r : VReg) (x : VecReg) : (s.setV r x).devid = s.devid := rfl
@[simp] theorem State.setV_extents (s : State) (r : VReg) (x : VecReg) : (s.setV r x).extents = s.extents := rfl
@[simp] theorem State.setV_imago (s : State) (r : VReg) (x : VecReg) : (s.setV r x).imago = s.imago := rfl
@[simp] theorem State.setV_service (s : State) (r : VReg) (x : VecReg) : (s.setV r x).service = s.service := rfl
@[simp] theorem State.setV_thermal (s : State) (r : VReg) (x : VecReg) : (s.setV r x).thermal = s.thermal := rfl
@[simp] theorem State.setV_gramLast (s : State) (r : VReg) (x : VecReg) : (s.setV r x).gramLast = s.gramLast := rfl
@[simp] theorem State.setV_reports (s : State) (r : VReg) (x : VecReg) : (s.setV r x).reports = s.reports := rfl
@[simp] theorem State.setV_trained (s : State) (r : VReg) (x : VecReg) : (s.setV r x).trained = s.trained := rfl
@[simp] theorem State.setV_fabctl (s : State) (r : VReg) (x : VecReg) : (s.setV r x).fabctl = s.fabctl := rfl
@[simp] theorem State.setV_prctl (s : State) (r : VReg) (x : VecReg) : (s.setV r x).prctl = s.prctl := rfl
@[simp] theorem State.setV_lost (s : State) (r : VReg) (x : VecReg) : (s.setV r x).lost = s.lost := rfl
@[simp] theorem State.setV_fabric (s : State) (r : VReg) (x : VecReg) : (s.setV r x).fabric = s.fabric := rfl
@[simp] theorem State.setV_noc (s : State) (r : VReg) (x : VecReg) : (s.setV r x).noc = s.noc := rfl
@[simp] theorem State.setV_link (s : State) (r : VReg) (x : VecReg) : (s.setV r x).link = s.link := rfl
@[simp] theorem State.setV_mgmt (s : State) (r : VReg) (x : VecReg) : (s.setV r x).mgmt = s.mgmt := rfl
@[simp] theorem State.setM_tick (s : State) (r : MReg) (x : MaskReg) : (s.setM r x).tick = s.tick := rfl
@[simp] theorem State.setM_gtime (s : State) (r : MReg) (x : MaskReg) : (s.setM r x).gtime = s.gtime := rfl
@[simp] theorem State.setM_cur (s : State) (r : MReg) (x : MaskReg) : (s.setM r x).cur = s.cur := rfl
@[simp] theorem State.setM_ctx (s : State) (r : MReg) (x : MaskReg) : (s.setM r x).ctx = s.ctx := rfl
@[simp] theorem State.setM_issue (s : State) (r : MReg) (x : MaskReg) : (s.setM r x).issue = s.issue := rfl
@[simp] theorem State.setM_grain (s : State) (r : MReg) (x : MaskReg) : (s.setM r x).grain = s.grain := rfl
@[simp] theorem State.setM_turn (s : State) (r : MReg) (x : MaskReg) : (s.setM r x).turn = s.turn := rfl
@[simp] theorem State.setM_chosen (s : State) (r : MReg) (x : MaskReg) : (s.setM r x).chosen = s.chosen := rfl
@[simp] theorem State.setM_inputs (s : State) (r : MReg) (x : MaskReg) : (s.setM r x).inputs = s.inputs := rfl
@[simp] theorem State.setM_held (s : State) (r : MReg) (x : MaskReg) : (s.setM r x).held = s.held := rfl
@[simp] theorem State.setM_quires (s : State) (r : MReg) (x : MaskReg) : (s.setM r x).quires = s.quires := rfl
@[simp] theorem State.setM_hbm (s : State) (r : MReg) (x : MaskReg) : (s.setM r x).hbm = s.hbm := rfl
@[simp] theorem State.setM_badHbm (s : State) (r : MReg) (x : MaskReg) : (s.setM r x).badHbm = s.badHbm := rfl
@[simp] theorem State.setM_bindings (s : State) (r : MReg) (x : MaskReg) : (s.setM r x).bindings = s.bindings := rfl
@[simp] theorem State.setM_wls (s : State) (r : MReg) (x : MaskReg) : (s.setM r x).wls = s.wls := rfl
@[simp] theorem State.setM_kops (s : State) (r : MReg) (x : MaskReg) : (s.setM r x).kops = s.kops := rfl
@[simp] theorem State.setM_parked (s : State) (r : MReg) (x : MaskReg) : (s.setM r x).parked = s.parked := rfl
@[simp] theorem State.setM_granules (s : State) (r : MReg) (x : MaskReg) : (s.setM r x).granules = s.granules := rfl
@[simp] theorem State.setM_watches (s : State) (r : MReg) (x : MaskReg) : (s.setM r x).watches = s.watches := rfl
@[simp] theorem State.setM_episodes (s : State) (r : MReg) (x : MaskReg) : (s.setM r x).episodes = s.episodes := rfl
@[simp] theorem State.setM_net (s : State) (r : MReg) (x : MaskReg) : (s.setM r x).net = s.net := rfl
@[simp] theorem State.setM_tree (s : State) (r : MReg) (x : MaskReg) : (s.setM r x).tree = s.tree := rfl
@[simp] theorem State.setM_devid (s : State) (r : MReg) (x : MaskReg) : (s.setM r x).devid = s.devid := rfl
@[simp] theorem State.setM_extents (s : State) (r : MReg) (x : MaskReg) : (s.setM r x).extents = s.extents := rfl
@[simp] theorem State.setM_imago (s : State) (r : MReg) (x : MaskReg) : (s.setM r x).imago = s.imago := rfl
@[simp] theorem State.setM_service (s : State) (r : MReg) (x : MaskReg) : (s.setM r x).service = s.service := rfl
@[simp] theorem State.setM_thermal (s : State) (r : MReg) (x : MaskReg) : (s.setM r x).thermal = s.thermal := rfl
@[simp] theorem State.setM_gramLast (s : State) (r : MReg) (x : MaskReg) : (s.setM r x).gramLast = s.gramLast := rfl
@[simp] theorem State.setM_reports (s : State) (r : MReg) (x : MaskReg) : (s.setM r x).reports = s.reports := rfl
@[simp] theorem State.setM_trained (s : State) (r : MReg) (x : MaskReg) : (s.setM r x).trained = s.trained := rfl
@[simp] theorem State.setM_fabctl (s : State) (r : MReg) (x : MaskReg) : (s.setM r x).fabctl = s.fabctl := rfl
@[simp] theorem State.setM_prctl (s : State) (r : MReg) (x : MaskReg) : (s.setM r x).prctl = s.prctl := rfl
@[simp] theorem State.setM_lost (s : State) (r : MReg) (x : MaskReg) : (s.setM r x).lost = s.lost := rfl
@[simp] theorem State.setM_fabric (s : State) (r : MReg) (x : MaskReg) : (s.setM r x).fabric = s.fabric := rfl
@[simp] theorem State.setM_noc (s : State) (r : MReg) (x : MaskReg) : (s.setM r x).noc = s.noc := rfl
@[simp] theorem State.setM_link (s : State) (r : MReg) (x : MaskReg) : (s.setM r x).link = s.link := rfl
@[simp] theorem State.setM_mgmt (s : State) (r : MReg) (x : MaskReg) : (s.setM r x).mgmt = s.mgmt := rfl
@[simp] theorem State.raise_tick (s : State) (f : Flags) : (s.raise f).tick = s.tick := rfl
@[simp] theorem State.raise_gtime (s : State) (f : Flags) : (s.raise f).gtime = s.gtime := rfl
@[simp] theorem State.raise_cur (s : State) (f : Flags) : (s.raise f).cur = s.cur := rfl
@[simp] theorem State.raise_ctx (s : State) (f : Flags) : (s.raise f).ctx = s.ctx := rfl
@[simp] theorem State.raise_issue (s : State) (f : Flags) : (s.raise f).issue = s.issue := rfl
@[simp] theorem State.raise_grain (s : State) (f : Flags) : (s.raise f).grain = s.grain := rfl
@[simp] theorem State.raise_turn (s : State) (f : Flags) : (s.raise f).turn = s.turn := rfl
@[simp] theorem State.raise_chosen (s : State) (f : Flags) : (s.raise f).chosen = s.chosen := rfl
@[simp] theorem State.raise_inputs (s : State) (f : Flags) : (s.raise f).inputs = s.inputs := rfl
@[simp] theorem State.raise_held (s : State) (f : Flags) : (s.raise f).held = s.held := rfl
@[simp] theorem State.raise_quires (s : State) (f : Flags) : (s.raise f).quires = s.quires := rfl
@[simp] theorem State.raise_hbm (s : State) (f : Flags) : (s.raise f).hbm = s.hbm := rfl
@[simp] theorem State.raise_badHbm (s : State) (f : Flags) : (s.raise f).badHbm = s.badHbm := rfl
@[simp] theorem State.raise_bindings (s : State) (f : Flags) : (s.raise f).bindings = s.bindings := rfl
@[simp] theorem State.raise_wls (s : State) (f : Flags) : (s.raise f).wls = s.wls := rfl
@[simp] theorem State.raise_kops (s : State) (f : Flags) : (s.raise f).kops = s.kops := rfl
@[simp] theorem State.raise_parked (s : State) (f : Flags) : (s.raise f).parked = s.parked := rfl
@[simp] theorem State.raise_granules (s : State) (f : Flags) : (s.raise f).granules = s.granules := rfl
@[simp] theorem State.raise_watches (s : State) (f : Flags) : (s.raise f).watches = s.watches := rfl
@[simp] theorem State.raise_episodes (s : State) (f : Flags) : (s.raise f).episodes = s.episodes := rfl
@[simp] theorem State.raise_net (s : State) (f : Flags) : (s.raise f).net = s.net := rfl
@[simp] theorem State.raise_tree (s : State) (f : Flags) : (s.raise f).tree = s.tree := rfl
@[simp] theorem State.raise_devid (s : State) (f : Flags) : (s.raise f).devid = s.devid := rfl
@[simp] theorem State.raise_extents (s : State) (f : Flags) : (s.raise f).extents = s.extents := rfl
@[simp] theorem State.raise_imago (s : State) (f : Flags) : (s.raise f).imago = s.imago := rfl
@[simp] theorem State.raise_service (s : State) (f : Flags) : (s.raise f).service = s.service := rfl
@[simp] theorem State.raise_thermal (s : State) (f : Flags) : (s.raise f).thermal = s.thermal := rfl
@[simp] theorem State.raise_gramLast (s : State) (f : Flags) : (s.raise f).gramLast = s.gramLast := rfl
@[simp] theorem State.raise_reports (s : State) (f : Flags) : (s.raise f).reports = s.reports := rfl
@[simp] theorem State.raise_trained (s : State) (f : Flags) : (s.raise f).trained = s.trained := rfl
@[simp] theorem State.raise_fabctl (s : State) (f : Flags) : (s.raise f).fabctl = s.fabctl := rfl
@[simp] theorem State.raise_prctl (s : State) (f : Flags) : (s.raise f).prctl = s.prctl := rfl
@[simp] theorem State.raise_lost (s : State) (f : Flags) : (s.raise f).lost = s.lost := rfl
@[simp] theorem State.raise_fabric (s : State) (f : Flags) : (s.raise f).fabric = s.fabric := rfl
@[simp] theorem State.raise_noc (s : State) (f : Flags) : (s.raise f).noc = s.noc := rfl
@[simp] theorem State.raise_link (s : State) (f : Flags) : (s.raise f).link = s.link := rfl
@[simp] theorem State.raise_mgmt (s : State) (f : Flags) : (s.raise f).mgmt = s.mgmt := rfl
@[simp] theorem State.advance_tick (s : State) : (s.advance).tick = s.tick := rfl
@[simp] theorem State.advance_gtime (s : State) : (s.advance).gtime = s.gtime := rfl
@[simp] theorem State.advance_cur (s : State) : (s.advance).cur = s.cur := rfl
@[simp] theorem State.advance_ctx (s : State) : (s.advance).ctx = s.ctx := rfl
@[simp] theorem State.advance_issue (s : State) : (s.advance).issue = s.issue := rfl
@[simp] theorem State.advance_grain (s : State) : (s.advance).grain = s.grain := rfl
@[simp] theorem State.advance_turn (s : State) : (s.advance).turn = s.turn := rfl
@[simp] theorem State.advance_chosen (s : State) : (s.advance).chosen = s.chosen := rfl
@[simp] theorem State.advance_inputs (s : State) : (s.advance).inputs = s.inputs := rfl
@[simp] theorem State.advance_held (s : State) : (s.advance).held = s.held := rfl
@[simp] theorem State.advance_quires (s : State) : (s.advance).quires = s.quires := rfl
@[simp] theorem State.advance_hbm (s : State) : (s.advance).hbm = s.hbm := rfl
@[simp] theorem State.advance_badHbm (s : State) : (s.advance).badHbm = s.badHbm := rfl
@[simp] theorem State.advance_bindings (s : State) : (s.advance).bindings = s.bindings := rfl
@[simp] theorem State.advance_wls (s : State) : (s.advance).wls = s.wls := rfl
@[simp] theorem State.advance_kops (s : State) : (s.advance).kops = s.kops := rfl
@[simp] theorem State.advance_parked (s : State) : (s.advance).parked = s.parked := rfl
@[simp] theorem State.advance_granules (s : State) : (s.advance).granules = s.granules := rfl
@[simp] theorem State.advance_watches (s : State) : (s.advance).watches = s.watches := rfl
@[simp] theorem State.advance_episodes (s : State) : (s.advance).episodes = s.episodes := rfl
@[simp] theorem State.advance_net (s : State) : (s.advance).net = s.net := rfl
@[simp] theorem State.advance_tree (s : State) : (s.advance).tree = s.tree := rfl
@[simp] theorem State.advance_devid (s : State) : (s.advance).devid = s.devid := rfl
@[simp] theorem State.advance_extents (s : State) : (s.advance).extents = s.extents := rfl
@[simp] theorem State.advance_imago (s : State) : (s.advance).imago = s.imago := rfl
@[simp] theorem State.advance_service (s : State) : (s.advance).service = s.service := rfl
@[simp] theorem State.advance_thermal (s : State) : (s.advance).thermal = s.thermal := rfl
@[simp] theorem State.advance_gramLast (s : State) : (s.advance).gramLast = s.gramLast := rfl
@[simp] theorem State.advance_reports (s : State) : (s.advance).reports = s.reports := rfl
@[simp] theorem State.advance_trained (s : State) : (s.advance).trained = s.trained := rfl
@[simp] theorem State.advance_fabctl (s : State) : (s.advance).fabctl = s.fabctl := rfl
@[simp] theorem State.advance_prctl (s : State) : (s.advance).prctl = s.prctl := rfl
@[simp] theorem State.advance_lost (s : State) : (s.advance).lost = s.lost := rfl
@[simp] theorem State.advance_fabric (s : State) : (s.advance).fabric = s.fabric := rfl
@[simp] theorem State.advance_noc (s : State) : (s.advance).noc = s.noc := rfl
@[simp] theorem State.advance_link (s : State) : (s.advance).link = s.link := rfl
@[simp] theorem State.advance_mgmt (s : State) : (s.advance).mgmt = s.mgmt := rfl
@[simp] theorem State.setQuire_tick (s : State) (q : Nat) (x : Quire) : (s.setQuire q x).tick = s.tick := rfl
@[simp] theorem State.setQuire_gtime (s : State) (q : Nat) (x : Quire) : (s.setQuire q x).gtime = s.gtime := rfl
@[simp] theorem State.setQuire_cur (s : State) (q : Nat) (x : Quire) : (s.setQuire q x).cur = s.cur := rfl
@[simp] theorem State.setQuire_ctx (s : State) (q : Nat) (x : Quire) : (s.setQuire q x).ctx = s.ctx := rfl
@[simp] theorem State.setQuire_issue (s : State) (q : Nat) (x : Quire) : (s.setQuire q x).issue = s.issue := rfl
@[simp] theorem State.setQuire_grain (s : State) (q : Nat) (x : Quire) : (s.setQuire q x).grain = s.grain := rfl
@[simp] theorem State.setQuire_turn (s : State) (q : Nat) (x : Quire) : (s.setQuire q x).turn = s.turn := rfl
@[simp] theorem State.setQuire_chosen (s : State) (q : Nat) (x : Quire) : (s.setQuire q x).chosen = s.chosen := rfl
@[simp] theorem State.setQuire_inputs (s : State) (q : Nat) (x : Quire) : (s.setQuire q x).inputs = s.inputs := rfl
@[simp] theorem State.setQuire_held (s : State) (q : Nat) (x : Quire) : (s.setQuire q x).held = s.held := rfl
@[simp] theorem State.setQuire_cores (s : State) (q : Nat) (x : Quire) : (s.setQuire q x).cores = s.cores := rfl
@[simp] theorem State.setQuire_hbm (s : State) (q : Nat) (x : Quire) : (s.setQuire q x).hbm = s.hbm := rfl
@[simp] theorem State.setQuire_badHbm (s : State) (q : Nat) (x : Quire) : (s.setQuire q x).badHbm = s.badHbm := rfl
@[simp] theorem State.setQuire_bindings (s : State) (q : Nat) (x : Quire) : (s.setQuire q x).bindings = s.bindings := rfl
@[simp] theorem State.setQuire_wls (s : State) (q : Nat) (x : Quire) : (s.setQuire q x).wls = s.wls := rfl
@[simp] theorem State.setQuire_kops (s : State) (q : Nat) (x : Quire) : (s.setQuire q x).kops = s.kops := rfl
@[simp] theorem State.setQuire_parked (s : State) (q : Nat) (x : Quire) : (s.setQuire q x).parked = s.parked := rfl
@[simp] theorem State.setQuire_granules (s : State) (q : Nat) (x : Quire) : (s.setQuire q x).granules = s.granules := rfl
@[simp] theorem State.setQuire_watches (s : State) (q : Nat) (x : Quire) : (s.setQuire q x).watches = s.watches := rfl
@[simp] theorem State.setQuire_episodes (s : State) (q : Nat) (x : Quire) : (s.setQuire q x).episodes = s.episodes := rfl
@[simp] theorem State.setQuire_net (s : State) (q : Nat) (x : Quire) : (s.setQuire q x).net = s.net := rfl
@[simp] theorem State.setQuire_tree (s : State) (q : Nat) (x : Quire) : (s.setQuire q x).tree = s.tree := rfl
@[simp] theorem State.setQuire_devid (s : State) (q : Nat) (x : Quire) : (s.setQuire q x).devid = s.devid := rfl
@[simp] theorem State.setQuire_extents (s : State) (q : Nat) (x : Quire) : (s.setQuire q x).extents = s.extents := rfl
@[simp] theorem State.setQuire_imago (s : State) (q : Nat) (x : Quire) : (s.setQuire q x).imago = s.imago := rfl
@[simp] theorem State.setQuire_service (s : State) (q : Nat) (x : Quire) : (s.setQuire q x).service = s.service := rfl
@[simp] theorem State.setQuire_thermal (s : State) (q : Nat) (x : Quire) : (s.setQuire q x).thermal = s.thermal := rfl
@[simp] theorem State.setQuire_gramLast (s : State) (q : Nat) (x : Quire) : (s.setQuire q x).gramLast = s.gramLast := rfl
@[simp] theorem State.setQuire_reports (s : State) (q : Nat) (x : Quire) : (s.setQuire q x).reports = s.reports := rfl
@[simp] theorem State.setQuire_trained (s : State) (q : Nat) (x : Quire) : (s.setQuire q x).trained = s.trained := rfl
@[simp] theorem State.setQuire_fabctl (s : State) (q : Nat) (x : Quire) : (s.setQuire q x).fabctl = s.fabctl := rfl
@[simp] theorem State.setQuire_prctl (s : State) (q : Nat) (x : Quire) : (s.setQuire q x).prctl = s.prctl := rfl
@[simp] theorem State.setQuire_lost (s : State) (q : Nat) (x : Quire) : (s.setQuire q x).lost = s.lost := rfl
@[simp] theorem State.setQuire_fabric (s : State) (q : Nat) (x : Quire) : (s.setQuire q x).fabric = s.fabric := rfl
@[simp] theorem State.setQuire_noc (s : State) (q : Nat) (x : Quire) : (s.setQuire q x).noc = s.noc := rfl
@[simp] theorem State.setQuire_link (s : State) (q : Nat) (x : Quire) : (s.setQuire q x).link = s.link := rfl
@[simp] theorem State.setQuire_mgmt (s : State) (q : Nat) (x : Quire) : (s.setQuire q x).mgmt = s.mgmt := rfl
@[simp] theorem State.onQuire_tick (s : State) (q : Nat) (f : Quire → Quire) : (s.onQuire q f).tick = s.tick := rfl
@[simp] theorem State.onQuire_gtime (s : State) (q : Nat) (f : Quire → Quire) : (s.onQuire q f).gtime = s.gtime := rfl
@[simp] theorem State.onQuire_cur (s : State) (q : Nat) (f : Quire → Quire) : (s.onQuire q f).cur = s.cur := rfl
@[simp] theorem State.onQuire_ctx (s : State) (q : Nat) (f : Quire → Quire) : (s.onQuire q f).ctx = s.ctx := rfl
@[simp] theorem State.onQuire_issue (s : State) (q : Nat) (f : Quire → Quire) : (s.onQuire q f).issue = s.issue := rfl
@[simp] theorem State.onQuire_grain (s : State) (q : Nat) (f : Quire → Quire) : (s.onQuire q f).grain = s.grain := rfl
@[simp] theorem State.onQuire_turn (s : State) (q : Nat) (f : Quire → Quire) : (s.onQuire q f).turn = s.turn := rfl
@[simp] theorem State.onQuire_chosen (s : State) (q : Nat) (f : Quire → Quire) : (s.onQuire q f).chosen = s.chosen := rfl
@[simp] theorem State.onQuire_inputs (s : State) (q : Nat) (f : Quire → Quire) : (s.onQuire q f).inputs = s.inputs := rfl
@[simp] theorem State.onQuire_held (s : State) (q : Nat) (f : Quire → Quire) : (s.onQuire q f).held = s.held := rfl
@[simp] theorem State.onQuire_cores (s : State) (q : Nat) (f : Quire → Quire) : (s.onQuire q f).cores = s.cores := rfl
@[simp] theorem State.onQuire_hbm (s : State) (q : Nat) (f : Quire → Quire) : (s.onQuire q f).hbm = s.hbm := rfl
@[simp] theorem State.onQuire_badHbm (s : State) (q : Nat) (f : Quire → Quire) : (s.onQuire q f).badHbm = s.badHbm := rfl
@[simp] theorem State.onQuire_bindings (s : State) (q : Nat) (f : Quire → Quire) : (s.onQuire q f).bindings = s.bindings := rfl
@[simp] theorem State.onQuire_wls (s : State) (q : Nat) (f : Quire → Quire) : (s.onQuire q f).wls = s.wls := rfl
@[simp] theorem State.onQuire_kops (s : State) (q : Nat) (f : Quire → Quire) : (s.onQuire q f).kops = s.kops := rfl
@[simp] theorem State.onQuire_parked (s : State) (q : Nat) (f : Quire → Quire) : (s.onQuire q f).parked = s.parked := rfl
@[simp] theorem State.onQuire_granules (s : State) (q : Nat) (f : Quire → Quire) : (s.onQuire q f).granules = s.granules := rfl
@[simp] theorem State.onQuire_watches (s : State) (q : Nat) (f : Quire → Quire) : (s.onQuire q f).watches = s.watches := rfl
@[simp] theorem State.onQuire_episodes (s : State) (q : Nat) (f : Quire → Quire) : (s.onQuire q f).episodes = s.episodes := rfl
@[simp] theorem State.onQuire_net (s : State) (q : Nat) (f : Quire → Quire) : (s.onQuire q f).net = s.net := rfl
@[simp] theorem State.onQuire_tree (s : State) (q : Nat) (f : Quire → Quire) : (s.onQuire q f).tree = s.tree := rfl
@[simp] theorem State.onQuire_devid (s : State) (q : Nat) (f : Quire → Quire) : (s.onQuire q f).devid = s.devid := rfl
@[simp] theorem State.onQuire_extents (s : State) (q : Nat) (f : Quire → Quire) : (s.onQuire q f).extents = s.extents := rfl
@[simp] theorem State.onQuire_imago (s : State) (q : Nat) (f : Quire → Quire) : (s.onQuire q f).imago = s.imago := rfl
@[simp] theorem State.onQuire_service (s : State) (q : Nat) (f : Quire → Quire) : (s.onQuire q f).service = s.service := rfl
@[simp] theorem State.onQuire_thermal (s : State) (q : Nat) (f : Quire → Quire) : (s.onQuire q f).thermal = s.thermal := rfl
@[simp] theorem State.onQuire_gramLast (s : State) (q : Nat) (f : Quire → Quire) : (s.onQuire q f).gramLast = s.gramLast := rfl
@[simp] theorem State.onQuire_reports (s : State) (q : Nat) (f : Quire → Quire) : (s.onQuire q f).reports = s.reports := rfl
@[simp] theorem State.onQuire_trained (s : State) (q : Nat) (f : Quire → Quire) : (s.onQuire q f).trained = s.trained := rfl
@[simp] theorem State.onQuire_fabctl (s : State) (q : Nat) (f : Quire → Quire) : (s.onQuire q f).fabctl = s.fabctl := rfl
@[simp] theorem State.onQuire_prctl (s : State) (q : Nat) (f : Quire → Quire) : (s.onQuire q f).prctl = s.prctl := rfl
@[simp] theorem State.onQuire_lost (s : State) (q : Nat) (f : Quire → Quire) : (s.onQuire q f).lost = s.lost := rfl
@[simp] theorem State.onQuire_fabric (s : State) (q : Nat) (f : Quire → Quire) : (s.onQuire q f).fabric = s.fabric := rfl
@[simp] theorem State.onQuire_noc (s : State) (q : Nat) (f : Quire → Quire) : (s.onQuire q f).noc = s.noc := rfl
@[simp] theorem State.onQuire_link (s : State) (q : Nat) (f : Quire → Quire) : (s.onQuire q f).link = s.link := rfl
@[simp] theorem State.onQuire_mgmt (s : State) (q : Nat) (f : Quire → Quire) : (s.onQuire q f).mgmt = s.mgmt := rfl
@[simp] theorem State.setBinding_tick (s : State) (b : Nat) (x : Binding) : (s.setBinding b x).tick = s.tick := rfl
@[simp] theorem State.setBinding_gtime (s : State) (b : Nat) (x : Binding) : (s.setBinding b x).gtime = s.gtime := rfl
@[simp] theorem State.setBinding_cur (s : State) (b : Nat) (x : Binding) : (s.setBinding b x).cur = s.cur := rfl
@[simp] theorem State.setBinding_ctx (s : State) (b : Nat) (x : Binding) : (s.setBinding b x).ctx = s.ctx := rfl
@[simp] theorem State.setBinding_issue (s : State) (b : Nat) (x : Binding) : (s.setBinding b x).issue = s.issue := rfl
@[simp] theorem State.setBinding_grain (s : State) (b : Nat) (x : Binding) : (s.setBinding b x).grain = s.grain := rfl
@[simp] theorem State.setBinding_turn (s : State) (b : Nat) (x : Binding) : (s.setBinding b x).turn = s.turn := rfl
@[simp] theorem State.setBinding_chosen (s : State) (b : Nat) (x : Binding) : (s.setBinding b x).chosen = s.chosen := rfl
@[simp] theorem State.setBinding_inputs (s : State) (b : Nat) (x : Binding) : (s.setBinding b x).inputs = s.inputs := rfl
@[simp] theorem State.setBinding_held (s : State) (b : Nat) (x : Binding) : (s.setBinding b x).held = s.held := rfl
@[simp] theorem State.setBinding_cores (s : State) (b : Nat) (x : Binding) : (s.setBinding b x).cores = s.cores := rfl
@[simp] theorem State.setBinding_quires (s : State) (b : Nat) (x : Binding) : (s.setBinding b x).quires = s.quires := rfl
@[simp] theorem State.setBinding_hbm (s : State) (b : Nat) (x : Binding) : (s.setBinding b x).hbm = s.hbm := rfl
@[simp] theorem State.setBinding_badHbm (s : State) (b : Nat) (x : Binding) : (s.setBinding b x).badHbm = s.badHbm := rfl
@[simp] theorem State.setBinding_wls (s : State) (b : Nat) (x : Binding) : (s.setBinding b x).wls = s.wls := rfl
@[simp] theorem State.setBinding_kops (s : State) (b : Nat) (x : Binding) : (s.setBinding b x).kops = s.kops := rfl
@[simp] theorem State.setBinding_parked (s : State) (b : Nat) (x : Binding) : (s.setBinding b x).parked = s.parked := rfl
@[simp] theorem State.setBinding_granules (s : State) (b : Nat) (x : Binding) : (s.setBinding b x).granules = s.granules := rfl
@[simp] theorem State.setBinding_watches (s : State) (b : Nat) (x : Binding) : (s.setBinding b x).watches = s.watches := rfl
@[simp] theorem State.setBinding_episodes (s : State) (b : Nat) (x : Binding) : (s.setBinding b x).episodes = s.episodes := rfl
@[simp] theorem State.setBinding_net (s : State) (b : Nat) (x : Binding) : (s.setBinding b x).net = s.net := rfl
@[simp] theorem State.setBinding_tree (s : State) (b : Nat) (x : Binding) : (s.setBinding b x).tree = s.tree := rfl
@[simp] theorem State.setBinding_devid (s : State) (b : Nat) (x : Binding) : (s.setBinding b x).devid = s.devid := rfl
@[simp] theorem State.setBinding_extents (s : State) (b : Nat) (x : Binding) : (s.setBinding b x).extents = s.extents := rfl
@[simp] theorem State.setBinding_imago (s : State) (b : Nat) (x : Binding) : (s.setBinding b x).imago = s.imago := rfl
@[simp] theorem State.setBinding_service (s : State) (b : Nat) (x : Binding) : (s.setBinding b x).service = s.service := rfl
@[simp] theorem State.setBinding_thermal (s : State) (b : Nat) (x : Binding) : (s.setBinding b x).thermal = s.thermal := rfl
@[simp] theorem State.setBinding_gramLast (s : State) (b : Nat) (x : Binding) : (s.setBinding b x).gramLast = s.gramLast := rfl
@[simp] theorem State.setBinding_reports (s : State) (b : Nat) (x : Binding) : (s.setBinding b x).reports = s.reports := rfl
@[simp] theorem State.setBinding_trained (s : State) (b : Nat) (x : Binding) : (s.setBinding b x).trained = s.trained := rfl
@[simp] theorem State.setBinding_fabctl (s : State) (b : Nat) (x : Binding) : (s.setBinding b x).fabctl = s.fabctl := rfl
@[simp] theorem State.setBinding_prctl (s : State) (b : Nat) (x : Binding) : (s.setBinding b x).prctl = s.prctl := rfl
@[simp] theorem State.setBinding_lost (s : State) (b : Nat) (x : Binding) : (s.setBinding b x).lost = s.lost := rfl
@[simp] theorem State.setBinding_fabric (s : State) (b : Nat) (x : Binding) : (s.setBinding b x).fabric = s.fabric := rfl
@[simp] theorem State.setBinding_noc (s : State) (b : Nat) (x : Binding) : (s.setBinding b x).noc = s.noc := rfl
@[simp] theorem State.setBinding_link (s : State) (b : Nat) (x : Binding) : (s.setBinding b x).link = s.link := rfl
@[simp] theorem State.setBinding_mgmt (s : State) (b : Nat) (x : Binding) : (s.setBinding b x).mgmt = s.mgmt := rfl
@[simp] theorem State.setNext_tick (s : State) (a : Word) : (s.setNext a).tick = s.tick := rfl
@[simp] theorem State.setNext_gtime (s : State) (a : Word) : (s.setNext a).gtime = s.gtime := rfl
@[simp] theorem State.setNext_cur (s : State) (a : Word) : (s.setNext a).cur = s.cur := rfl
@[simp] theorem State.setNext_ctx (s : State) (a : Word) : (s.setNext a).ctx = s.ctx := rfl
@[simp] theorem State.setNext_grain (s : State) (a : Word) : (s.setNext a).grain = s.grain := rfl
@[simp] theorem State.setNext_turn (s : State) (a : Word) : (s.setNext a).turn = s.turn := rfl
@[simp] theorem State.setNext_chosen (s : State) (a : Word) : (s.setNext a).chosen = s.chosen := rfl
@[simp] theorem State.setNext_inputs (s : State) (a : Word) : (s.setNext a).inputs = s.inputs := rfl
@[simp] theorem State.setNext_held (s : State) (a : Word) : (s.setNext a).held = s.held := rfl
@[simp] theorem State.setNext_cores (s : State) (a : Word) : (s.setNext a).cores = s.cores := rfl
@[simp] theorem State.setNext_quires (s : State) (a : Word) : (s.setNext a).quires = s.quires := rfl
@[simp] theorem State.setNext_hbm (s : State) (a : Word) : (s.setNext a).hbm = s.hbm := rfl
@[simp] theorem State.setNext_badHbm (s : State) (a : Word) : (s.setNext a).badHbm = s.badHbm := rfl
@[simp] theorem State.setNext_bindings (s : State) (a : Word) : (s.setNext a).bindings = s.bindings := rfl
@[simp] theorem State.setNext_wls (s : State) (a : Word) : (s.setNext a).wls = s.wls := rfl
@[simp] theorem State.setNext_kops (s : State) (a : Word) : (s.setNext a).kops = s.kops := rfl
@[simp] theorem State.setNext_parked (s : State) (a : Word) : (s.setNext a).parked = s.parked := rfl
@[simp] theorem State.setNext_granules (s : State) (a : Word) : (s.setNext a).granules = s.granules := rfl
@[simp] theorem State.setNext_watches (s : State) (a : Word) : (s.setNext a).watches = s.watches := rfl
@[simp] theorem State.setNext_episodes (s : State) (a : Word) : (s.setNext a).episodes = s.episodes := rfl
@[simp] theorem State.setNext_net (s : State) (a : Word) : (s.setNext a).net = s.net := rfl
@[simp] theorem State.setNext_tree (s : State) (a : Word) : (s.setNext a).tree = s.tree := rfl
@[simp] theorem State.setNext_devid (s : State) (a : Word) : (s.setNext a).devid = s.devid := rfl
@[simp] theorem State.setNext_extents (s : State) (a : Word) : (s.setNext a).extents = s.extents := rfl
@[simp] theorem State.setNext_imago (s : State) (a : Word) : (s.setNext a).imago = s.imago := rfl
@[simp] theorem State.setNext_service (s : State) (a : Word) : (s.setNext a).service = s.service := rfl
@[simp] theorem State.setNext_thermal (s : State) (a : Word) : (s.setNext a).thermal = s.thermal := rfl
@[simp] theorem State.setNext_gramLast (s : State) (a : Word) : (s.setNext a).gramLast = s.gramLast := rfl
@[simp] theorem State.setNext_reports (s : State) (a : Word) : (s.setNext a).reports = s.reports := rfl
@[simp] theorem State.setNext_trained (s : State) (a : Word) : (s.setNext a).trained = s.trained := rfl
@[simp] theorem State.setNext_fabctl (s : State) (a : Word) : (s.setNext a).fabctl = s.fabctl := rfl
@[simp] theorem State.setNext_prctl (s : State) (a : Word) : (s.setNext a).prctl = s.prctl := rfl
@[simp] theorem State.setNext_lost (s : State) (a : Word) : (s.setNext a).lost = s.lost := rfl
@[simp] theorem State.setNext_fabric (s : State) (a : Word) : (s.setNext a).fabric = s.fabric := rfl
@[simp] theorem State.setNext_noc (s : State) (a : Word) : (s.setNext a).noc = s.noc := rfl
@[simp] theorem State.setNext_link (s : State) (a : Word) : (s.setNext a).link = s.link := rfl
@[simp] theorem State.setNext_mgmt (s : State) (a : Word) : (s.setNext a).mgmt = s.mgmt := rfl
@[simp] theorem State.stay_tick (s : State) : (s.stay).tick = s.tick := rfl
@[simp] theorem State.stay_gtime (s : State) : (s.stay).gtime = s.gtime := rfl
@[simp] theorem State.stay_cur (s : State) : (s.stay).cur = s.cur := rfl
@[simp] theorem State.stay_ctx (s : State) : (s.stay).ctx = s.ctx := rfl
@[simp] theorem State.stay_grain (s : State) : (s.stay).grain = s.grain := rfl
@[simp] theorem State.stay_turn (s : State) : (s.stay).turn = s.turn := rfl
@[simp] theorem State.stay_chosen (s : State) : (s.stay).chosen = s.chosen := rfl
@[simp] theorem State.stay_inputs (s : State) : (s.stay).inputs = s.inputs := rfl
@[simp] theorem State.stay_held (s : State) : (s.stay).held = s.held := rfl
@[simp] theorem State.stay_cores (s : State) : (s.stay).cores = s.cores := rfl
@[simp] theorem State.stay_quires (s : State) : (s.stay).quires = s.quires := rfl
@[simp] theorem State.stay_hbm (s : State) : (s.stay).hbm = s.hbm := rfl
@[simp] theorem State.stay_badHbm (s : State) : (s.stay).badHbm = s.badHbm := rfl
@[simp] theorem State.stay_bindings (s : State) : (s.stay).bindings = s.bindings := rfl
@[simp] theorem State.stay_wls (s : State) : (s.stay).wls = s.wls := rfl
@[simp] theorem State.stay_kops (s : State) : (s.stay).kops = s.kops := rfl
@[simp] theorem State.stay_parked (s : State) : (s.stay).parked = s.parked := rfl
@[simp] theorem State.stay_granules (s : State) : (s.stay).granules = s.granules := rfl
@[simp] theorem State.stay_watches (s : State) : (s.stay).watches = s.watches := rfl
@[simp] theorem State.stay_episodes (s : State) : (s.stay).episodes = s.episodes := rfl
@[simp] theorem State.stay_net (s : State) : (s.stay).net = s.net := rfl
@[simp] theorem State.stay_tree (s : State) : (s.stay).tree = s.tree := rfl
@[simp] theorem State.stay_devid (s : State) : (s.stay).devid = s.devid := rfl
@[simp] theorem State.stay_extents (s : State) : (s.stay).extents = s.extents := rfl
@[simp] theorem State.stay_imago (s : State) : (s.stay).imago = s.imago := rfl
@[simp] theorem State.stay_service (s : State) : (s.stay).service = s.service := rfl
@[simp] theorem State.stay_thermal (s : State) : (s.stay).thermal = s.thermal := rfl
@[simp] theorem State.stay_gramLast (s : State) : (s.stay).gramLast = s.gramLast := rfl
@[simp] theorem State.stay_reports (s : State) : (s.stay).reports = s.reports := rfl
@[simp] theorem State.stay_trained (s : State) : (s.stay).trained = s.trained := rfl
@[simp] theorem State.stay_fabctl (s : State) : (s.stay).fabctl = s.fabctl := rfl
@[simp] theorem State.stay_prctl (s : State) : (s.stay).prctl = s.prctl := rfl
@[simp] theorem State.stay_lost (s : State) : (s.stay).lost = s.lost := rfl
@[simp] theorem State.stay_fabric (s : State) : (s.stay).fabric = s.fabric := rfl
@[simp] theorem State.stay_noc (s : State) : (s.stay).noc = s.noc := rfl
@[simp] theorem State.stay_link (s : State) : (s.stay).link = s.link := rfl
@[simp] theorem State.stay_mgmt (s : State) : (s.stay).mgmt = s.mgmt := rfl

/-! ### Reads across an update of the instruction in flight -/

@[simp] theorem State.core_setNext (s : State) (a : Word) (n : Nat) : (s.setNext a).core n = s.core n := rfl
@[simp] theorem State.me_setNext (s : State) (a : Word) : (s.setNext a).me = s.me := rfl
@[simp] theorem State.myCtx_setNext (s : State) (a : Word) : (s.setNext a).myCtx = s.myCtx := rfl
@[simp] theorem State.w_setNext (s : State) (a : Word) (r : Reg) : (s.setNext a).w r = s.w r := rfl
@[simp] theorem State.issue_setNext (s : State) (a : Word) : (s.setNext a).issue = { s.issue with next := a, jumped := true } := rfl
@[simp] theorem State.core_setQuire (s : State) (q n : Nat) (x : Quire) : (s.setQuire q x).core n = s.core n := rfl
@[simp] theorem State.core_onQuire (s : State) (q n : Nat) (f : Quire → Quire) : (s.onQuire q f).core n = s.core n := rfl
@[simp] theorem State.quire_setCore (s : State) (n q : Nat) (c : Core) : (s.setCore n c).quire q = s.quire q := rfl
@[simp] theorem State.quire_onCore (s : State) (n q : Nat) (f : Core → Core) : (s.onCore n f).quire q = s.quire q := rfl
@[simp] theorem State.quire_onMe (s : State) (f : Core → Core) (q : Nat) : (s.onMe f).quire q = s.quire q := rfl
@[simp] theorem State.binding_setCore (s : State) (n b : Nat) (c : Core) : (s.setCore n c).binding b = s.binding b := rfl
@[simp] theorem State.binding_setQuire (s : State) (q b : Nat) (x : Quire) : (s.setQuire q x).binding b = s.binding b := rfl

end Sys2Proof.Machine
end

