-- ==== Sys2Proof/Laws/Frames.lean ====
section
/-! SUPPORT. The frames of the shared operations that end an instruction. -/

namespace Sys2Proof.Machine

theorem mapPut_mapPut {α : Type} (m : List (Nat × α)) (k : Nat) (u v : α) : mapPut (mapPut m k u) k v = mapPut m k v := by
  induction m with
  | nil => simp [mapPut]
  | cons x r ih =>
    obtain ⟨j, w⟩ := x
    simp only [mapPut]
    split
    · simp [mapPut]
    · split
      · simp [mapPut]
      · simp only [mapPut]; rw [if_neg ‹_›, if_neg ‹_›, ih]

theorem State.setCore_setCore (s : State) (n : Nat) (c d : Core) : (s.setCore n c).setCore n d = s.setCore n d := by
  simp [State.setCore, mapPut_mapPut]
theorem State.setMe_setMe (s : State) (c d : Core) : (s.setMe c).setMe d = s.setMe d := State.setCore_setCore ..
theorem State.setMe_onMe (s : State) (f : Core → Core) (c : Core) : (s.onMe f).setMe c = s.setMe c :=
  State.setCore_setCore ..
theorem State.onMe_onMe (s : State) (f g : Core → Core) : (s.onMe f).onMe g = s.onMe fun c => g (f c) := by
  show (s.onMe f).setMe (g (s.onMe f).me) = _
  rw [State.setMe_onMe, State.me_onMe]; rfl
theorem State.onMyCtx_onMyCtx (s : State) (f g : Ctx → Ctx) : (s.onMyCtx f).onMyCtx g = s.onMyCtx fun c => g (f c) := by
  show (s.onMe _).onMe _ = _
  rw [State.onMe_onMe]
  simp [State.onMyCtx]
theorem State.onMyCtx_const (s : State) (f : Ctx → Ctx) : s.onMyCtx f = s.onMyCtx fun _ => f s.myCtx := rfl

theorem onlyMyCtx_onMyCtx (s : State) (f : Ctx → Ctx) : OnlyMyCtx s (s.onMyCtx f) := by
  unfold OnlyMyCtx; rw [State.myCtx_onMyCtx]; rfl
theorem onlyMyCore_onMe (s : State) (f : Core → Core) : OnlyMyCore s (s.onMe f) := by
  unfold OnlyMyCore; rw [State.me_onMe]; rfl
theorem OnlyMyCtx.trans {s t u : State} (h : OnlyMyCtx s t) (g : OnlyMyCtx t u) : OnlyMyCtx s u := by
  have key : ∀ x y : Ctx, (s.onMyCtx fun _ => x).onMyCtx (fun _ => y) = s.onMyCtx fun _ => y :=
    fun x y => State.onMyCtx_onMyCtx ..
  unfold OnlyMyCtx at h g
  have e : u = (s.onMyCtx fun _ => t.myCtx).onMyCtx fun _ => u.myCtx := by rw [← h]; exact g
  unfold OnlyMyCtx; rw [e, key, State.myCtx_onMyCtx]
theorem OnlyMyCore.trans {s t u : State} (h : OnlyMyCore s t) (g : OnlyMyCore t u) : OnlyMyCore s u := by
  unfold OnlyMyCore at h g
  have e : u = (s.setMe t.me).setMe u.me := by rw [← h]; exact g
  have hu : u.me = u.me := rfl
  unfold OnlyMyCore; rw [State.setMe_setMe] at e; exact e
theorem OnlyMyCtx.onlyMyCore {s t : State} (h : OnlyMyCtx s t) : OnlyMyCore s t := by
  unfold OnlyMyCtx at h; rw [h]; exact onlyMyCore_onMe ..

/-- A register write that ends the instruction. -/
theorem onlyMyCtx_setW_advance (s : State) (d : Reg) (x : Word) : OnlyMyCtx s (s.setW d x).advance :=
  (onlyMyCtx_onMyCtx s _).trans (onlyMyCtx_onMyCtx _ _)
theorem wentOn_advance (s t : State) (h : s.issue.stay = false) (e : t.issue = s.issue) : WentOn s t.advance := by
  simp [WentOn, e, h]

/-- A computation that only writes a register computes what it writes. -/
theorem computes_of {i : Instr} {s : State} {d : Reg} {x : Word} (hs : s.issue.stay = false)
    (h : exec i s = .next (s.setW d x).advance) : Computes i s d x := by
  refine ⟨_, h, ?_, ?_, wentOn_advance s (s.setW d x) hs rfl, onlyMyCtx_setW_advance s d x⟩
  · simp
  · intro r hr; simp [State.w_setW, hr]
/-- A computation that only says where the context goes on. -/
theorem goesTo_of {i : Instr} {s : State} {a : Word} (hs : s.issue.stay = false)
    (h : exec i s = .next (s.setNext a).advance) : GoesTo i s a := by
  refine ⟨_, h, ?_, ?_, ?_, rfl, onlyMyCtx_onMyCtx _ _⟩
  · intro r; simp
  all_goals simp [State.setNext, hs, State.advance]

end Sys2Proof.Machine
end

