-- ==== Sys2Proof/Laws/Runs.lean ====
section
/-! SUPPORT. How the computations of a meaning run: one equation for each way to put them together. -/

namespace Sys2Proof.Machine

theorem M.bind_run {α β : Type} (x : M α) (f : α → M β) (s : State) :
    (x >>= f) s = match x s with | .ok (a, t) => f a t | .error e => .error e := by
  show (StateT.bind x f) s = _
  simp only [StateT.bind, bind, Except.bind]
  cases x s <;> rfl
/-- A computation after one that goes on. -/
theorem M.bind_ok {α β : Type} {x : M α} {f : α → M β} {s t : State} {a : α} (h : x s = .ok (a, t)) :
    (x >>= f) s = f a t := by rw [M.bind_run, h]
/-- A computation that ends early ends everything after it. -/
theorem M.bind_error {α β : Type} {x : M α} {f : α → M β} {s : State} {e : Stop} (h : x s = .error e) :
    (x >>= f) s = .error e := by rw [M.bind_run, h]

theorem M.map_run {α β : Type} (g : α → β) (x : M α) (s : State) :
    (g <$> x) s = match x s with | .ok (a, t) => .ok (g a, t) | .error e => .error e := by
  show (StateT.map g x) s = _
  simp only [StateT.map, bind, Except.bind]
  cases x s <;> rfl
@[simp] theorem M.pure_run {α : Type} (a : α) (s : State) : (pure a : M α) s = .ok (a, s) := rfl
@[simp] theorem M.get_run (s : State) : (get : M State) s = .ok (s, s) := rfl
@[simp] theorem M.set_run (s t : State) : (set t : M PUnit) s = .ok ((), t) := rfl
@[simp] theorem M.modify_run (f : State → State) (s : State) : (modify f : M PUnit) s = .ok ((), f s) := rfl
@[simp] theorem M.throw_run {α : Type} (e : Stop) (s : State) : (throw e : M α) s = .error e := rfl
@[simp] theorem raiseExc_run {α : Type} (e : Exc) (s : State) : (raiseExc e : M α) s = .error (.exc e) := rfl
@[simp] theorem trap_run {α : Type} (c : BitVec 6) (v : Word) (s : State) :
    (trap c v : M α) s = .error (.exc (.trap c v)) := rfl
@[simp] theorem upcall_run {α : Type} (c : BitVec 6) (v : Word) (s : State) :
    (upcall c v : M α) s = .error (.exc (.upcall c v)) := rfl
@[simp] theorem waitHere_run {α : Type} (s : State) : (waitHere : M α) s = .error (.exc (.wait [])) := rfl
@[simp] theorem illegal_run {α : Type} (s : State) :
    (illegal : M α) s = .error (.exc (.trap 0x01 s.issue.wordPc)) := rfl
@[simp] theorem readW_run (r : Reg) (s : State) : readW r s = .ok (s.w r, s) := rfl
@[simp] theorem writeW_run (r : Reg) (x : Word) (s : State) : writeW r x s = .ok ((), s.setW r x) := rfl
@[simp] theorem readV_run (r : VReg) (s : State) : readV r s = .ok (s.v r, s) := rfl
@[simp] theorem writeV_run (r : VReg) (x : VecReg) (s : State) : writeV r x s = .ok ((), s.setV r x) := rfl
@[simp] theorem freeIndex_run (s : State) : freeIndex s = .ok (s.tick, { s with tick := s.tick + 1 }) := rfl
@[simp] theorem thenTake_run {α : Type} (e : Exc) (s : State) : (thenTake e : M α) s = .error (.done (s.deliver e)) := rfl
@[simp] theorem holdHere_run {α : Type} (s : State) : (holdHere : M α) s = .error (.done s.stay.advance) := rfl
@[simp] theorem finish_run {α : Type} (s : State) : (finish : M α) s = .error (.done s) := rfl
theorem need_run (ok : Bool) (e : Exc) (s : State) :
    need ok e s = if ok then .ok ((), s) else .error (.exc e) := by cases ok <;> rfl
@[simp] theorem liftE_ok {α : Type} (a : α) (s : State) : liftE (.ok a) s = .ok (a, s) := rfl
@[simp] theorem liftE_error {α : Type} (e : Exc) (s : State) : liftE (.error e : Except Exc α) s = .error (.exc e) := rfl
theorem controlOnly_run {s : State} (h : s.ctx = 0) : controlOnly s = .ok ((), s) := by
  simp [controlOnly, M.bind_run, h]
theorem needMode_run {s : State} {n : Nat} (v : Word) (h : n ≤ s.mode) : needMode n v s = .ok ((), s) := by
  simp [needMode, M.bind_run, h]
theorem barPhase_run {s : State} (h : s.csr.ph = false) : barPhase s = .ok ((), s) := by
  simp [barPhase, M.bind_run, h]

/-- What an instruction comes to, by what its computation ends in. -/
theorem M.run_ok {x : M Unit} {s t : State} (h : x s = .ok ((), t)) : M.run x s = .next t.advance := by
  simp [M.run, h]
theorem M.run_exc {x : M Unit} {s : State} {e : Exc} (h : x s = .error (.exc e)) : M.run x s = .next (s.deliver e) := by
  simp [M.run, h]
theorem M.run_badWalk {x : M Unit} {s : State} {e : Exc} (h : x s = .error (.badWalk e)) :
    M.run x s = .next (s.countMalformed.deliver e) := by simp [M.run, h]
theorem M.run_done {x : M Unit} {s t : State} (h : x s = .error (.done t)) : M.run x s = .next t := by simp [M.run, h]
/-- No computation stops the machine. -/
theorem M.run_next (x : M Unit) (s : State) : ∃ t, M.run x s = .next t := by
  unfold M.run
  split <;> exact ⟨_, rfl⟩

end Sys2Proof.Machine
end

