-- ==== Sys2Proof/Laws/Access.lean ====
section
/-! SUPPORT. Accesses to the issuing core's own scratchpad: the checks, the bytes that are read, and stores. -/

namespace Sys2Proof.Machine

theorem localAddr_toNat {off : Nat} (h : off < 0x40000) : (localAddr off).toNat = localBase + off := by
  simp only [localAddr, localBase, BitVec.toNat_ofNat]
  omega
theorem regionOf_localAddr {off : Nat} (h : off < 0x40000) : regionOf (localAddr off) = .loc 0 0 off := by
  have e := localAddr_toNat h
  have x (a n : Nat) : ((localAddr off).extractLsb' a n).toNat = (localBase + off) / 2 ^ a % 2 ^ n := by
    rw [BitVec.extractLsb'_toNat, e, Nat.shiftRight_eq_div_pow]
  have l : localBase = 0xFFFFF00000000000 := rfl
  simp only [regionOf, e, x]
  rw [if_neg (by omega), if_neg (by omega), if_neg (by omega), if_pos (by omega)]
  congr 1 <;> omega

theorem OwnBytes.small {s : State} {va : Word} {n al o : Nat} (h : OwnBytes s va n al o) (hn : 0 < n) : o < 0x40000 := by
  have := h.2.1; omega
/-- A local access of the issuing core passes the checks. -/
theorem checkPart_own {s : State} {va : Word} {n al o : Nat} (kind : Access) (h : OwnBytes s va n al o) :
    checkPart (.loc 0 0 o) va n kind s = .ok (.spad s.cur o, s) := by
  obtain ⟨_, hle, _, hsh, _⟩ := h
  have : ¬ 0x40000 < o + n := by omega
  have hsh' : sharesOwn (s.core s.cur) o n = true := hsh
  simp [checkPart, M.bind_run, checkLocal, slotCore, this, hsh']
theorem checkAccess_own {s : State} {va : Word} {n o : Nat} (kind : Access) (hn : n ∣ 8) (h : OwnBytes s va n n o) :
    checkAccess va n kind s = .ok (.spad s.cur o, s) := by
  have hpos : 0 < n := Nat.pos_of_dvd_of_pos hn (by decide)
  have hr : regionOf va = .loc 0 0 o := by rw [h.1]; exact regionOf_localAddr (h.small hpos)
  have ha : va.toNat % n = 0 := by
    rw [h.1, localAddr_toNat (h.small hpos), Nat.add_mod, h.2.2.1]
    have : localBase % n = 0 := Nat.mod_eq_zero_of_dvd (Nat.dvd_trans hn (by decide))
    simp [this]
  have e : checkRegion s va va = .ok (.loc 0 0 o) := by simp [checkRegion, hr]
  simp [checkAccess, M.bind_run, e, checkAlign, ha, checkPart_own kind h]
theorem phaseAccess_own {s : State} {va : Word} {o : Nat} (h : regionOf va = .loc 0 0 o) :
    phaseAccess va s = .ok ((), s) := by
  simp [phaseAccess, M.bind_run, phaseAllows, h, slotCore]

/-- Laying stores over bytes goes byte by byte. -/
theorem StorePart.over_getElem (x : StorePart) (c off : Nat) (bs : List Byte) (i : Nat) :
    (x.over (.spad c off) bs)[i]? = (bs[i]?).bind fun b => (x.over (.spad c (off + i)) [b])[0]? := by
  have e : x.place.sameMemory (.spad c (off + i)) = x.place.sameMemory (.spad c off) := by
    cases x.place <;> rfl
  simp only [StorePart.over, e]
  split
  · simp only [List.getElem?_map, List.getElem?_zipIdx]
    have o : Place.offset (.spad c (off + i)) = Place.offset (.spad c off) + i := rfl
    cases bs[i]? <;> simp [o]
  · cases bs[i]? <;> simp
theorem forward_parts_getElem (ps : List StorePart) (c off : Nat) : ∀ (bs : List Byte) (i : Nat),
    (ps.foldl (fun bs y => y.over (.spad c off) bs) bs)[i]? =
      (bs[i]?).bind fun b => (ps.foldl (fun bs y => y.over (.spad c (off + i)) bs) [b])[0]? := by
  induction ps with
  | nil => intro bs i; simp
  | cons x r ih =>
    intro bs i
    simp only [List.foldl_cons]
    rw [ih, StorePart.over_getElem]
    cases bs[i]? with
    | none => rfl
    | some b =>
      have one : ∃ z, x.over (.spad c (off + i)) [b] = [z] := by
        simp only [StorePart.over]; split
        · exact ⟨_, rfl⟩
        · exact ⟨b, rfl⟩
      obtain ⟨z, hz⟩ := one
      simp [hz]
theorem StorePart.over_one (x : StorePart) (p : Place) (b : Byte) : ∃ z, x.over p [b] = [z] := by
  simp only [StorePart.over]; split
  · exact ⟨_, rfl⟩
  · exact ⟨b, rfl⟩
theorem parts_one (ps : List StorePart) (p : Place) : ∀ b, ∃ z, ps.foldl (fun bs y => y.over p bs) [b] = [z] := by
  induction ps with
  | nil => intro b; exact ⟨b, rfl⟩
  | cons x r ih => intro b; obtain ⟨z, hz⟩ := x.over_one p b; simp only [List.foldl_cons, hz]; exact ih z
theorem forward_one (sb : List Store) (p : Place) : ∀ b, ∃ z, forward sb p [b] = [z] := by
  unfold forward
  induction sb with
  | nil => intro b; exact ⟨b, rfl⟩
  | cons x r ih => intro b; obtain ⟨z, hz⟩ := parts_one x.parts p b; simp only [List.foldl_cons, hz]; exact ih z
theorem forward_getElem (sb : List Store) (c off : Nat) : ∀ (bs : List Byte) (i : Nat),
    (forward sb (.spad c off) bs)[i]? = (bs[i]?).bind fun b => (forward sb (.spad c (off + i)) [b])[0]? := by
  unfold forward
  induction sb with
  | nil => intro bs i; simp
  | cons x r ih =>
    intro bs i
    simp only [List.foldl_cons]
    rw [ih, forward_parts_getElem]
    cases bs[i]? with
    | none => rfl
    | some b => obtain ⟨z, hz⟩ := parts_one x.parts (.spad c (off + i)) b; simp [hz]
theorem Memory.read_getElem (m : Memory) (a n i : Nat) : (Memory.read m a n)[i]? = if i < n then some (Memory.get m (a + i)) else none := by
  induction n generalizing a i with
  | zero => simp [Memory.read]
  | succ n ih =>
    cases i with
    | zero => simp [Memory.read]
    | succ i =>
      simp only [Memory.read, List.getElem?_cons_succ, ih]
      have : a + 1 + i = a + (i + 1) := by omega
      simp [this]
/-- What the issuing core reads of its own scratchpad, byte by byte. -/
theorem forward_ownBytes (s : State) (o n : Nat) :
    forward s.me.sb (.spad s.cur o) (Memory.read (s.core s.cur).spad o n) = s.ownBytes o n := by
  apply List.ext_getElem?
  intro i
  rw [forward_getElem, Memory.read_getElem]
  simp only [State.ownBytes, List.getElem?_map]
  by_cases h : i < n
  · obtain ⟨z, hz⟩ := forward_one s.me.sb (.spad s.cur (o + i)) (Memory.get (s.core s.cur).spad (o + i))
    have hz' : forward (s.core s.cur).sb (.spad s.cur (o + i)) [s.byteAt (.spad s.cur (o + i))] = [z] := hz
    simp [h, hz, State.seen, hz']
  · simp [h]

/-- Where no byte of a run of a scratchpad is uncorrectable a load of it finds no error. -/
theorem hurts_of_anyBad {s : State} {c o n : Nat} (q : Nat) (sb : List Store) (req : Request)
    (h : s.anyBad (.spad c o) n = false) : s.hurts q sb (.spad c o) n req = false := by
  simp only [State.anyBad, List.any_eq_false, overlaps, Bool.and_eq_true, decide_eq_true_eq] at h
  simp only [State.hurts, List.any_eq_false, List.mem_range, State.badByte, Bool.and_eq_true, List.contains_iff_mem]
  intro i hi hb
  exact h _ hb.1 ⟨by omega, by omega⟩
/-- A load of the issuing core's own bytes gives them and changes nothing. -/
theorem loadAt_own {s : State} {va : Word} {n al o : Nat} (req : Request) (h : OwnBytes s va n al o) :
    loadAt (.spad s.cur o) va n req s = .ok (s.ownBytes o n, s) := by
  obtain ⟨_, _, _, _, ho, hb⟩ := h
  have e := forward_ownBytes s o n
  simp only [State.me] at e
  have hh := hurts_of_anyBad s.myQuire (s.core s.cur).sb req hb
  simp [loadAt, loadSpans, M.bind_run, State.untrained, State.forwardStuck, ho, hh, State.loadPlace, State.me, e, M.map_run]
/-- A store of the issuing core to its own scratchpad enters its store buffer. -/
theorem storeAt_own {s : State} (va : Word) (o : Nat) (req : Request) (bs : List StoreByte) :
    storeAt [⟨.spad s.cur o, va, req, bs⟩] s =
      .ok ((), s.onMe fun c => { c with sb := c.sb ++ [⟨s.ctx, [⟨.spad s.cur o, va, req, bs⟩]⟩] }) := by
  simp [storeAt, M.bind_run, State.untrained]

theorem checkDoubles_own {s : State} : ∀ (n o : Nat), (∀ i, i < n → OwnBytes s (localAddr (o + 8 * i)) 8 8 (o + 8 * i)) →
    checkDoubles (localAddr o) n s = .ok ((List.range n).map fun i => [(.spad s.cur (o + 8 * i), localAddr (o + 8 * i), 8)], s)
  | 0, _, _ => rfl
  | n + 1, o, h => by
    have h0 := checkAccess_own .load (by decide) (h 0 (by omega))
    have ha : localAddr o + 8 = localAddr (o + 8) := by simp [localAddr, BitVec.ofNat_add]; ac_rfl
    have ih := checkDoubles_own n (o + 8) fun i hi => by
      have := h (i + 1) (by omega)
      have e : o + 8 * (i + 1) = o + 8 + 8 * i := by omega
      rwa [e] at this
    have e : ∀ i, o + 8 * (i + 1) = o + 8 + 8 * i := fun i => by omega
    simp only [Nat.mul_zero, Nat.add_zero] at h0
    simp only [checkDoubles, M.bind_run, h0, ha, ih]
    simp [List.range_succ_eq_map, Function.comp_def, e]

end Sys2Proof.Machine
end

