-- ==== Sys2Proof/Laws/PerInstr.lean ====
section
/-! SUPPORT. Facts about every instruction as syntax, one for each constructor. -/

namespace Sys2Proof.Laws.Encode

/-- An instruction has an encoding exactly where it is no step of the part (02, R55; 03, R70). -/
def Statement (i : Instr) : Prop := (encodeChain i).isSome = i.encodable

theorem nop : Statement .nop := rfl
theorem add (d a b : Reg) : Statement (.add d a b) := rfl
theorem sub (d a b : Reg) : Statement (.sub d a b) := rfl
theorem mul (d a b : Reg) : Statement (.mul d a b) := rfl
theorem mulh (d a b : Reg) : Statement (.mulh d a b) := rfl
theorem mulhn (d a b : Reg) : Statement (.mulhn d a b) := rfl
theorem div (d a b : Reg) : Statement (.div d a b) := rfl
theorem divn (d a b : Reg) : Statement (.divn d a b) := rfl
theorem rem (d a b : Reg) : Statement (.rem d a b) := rfl
theorem remn (d a b : Reg) : Statement (.remn d a b) := rfl
theorem and (d a b : Reg) : Statement (.and d a b) := rfl
theorem or (d a b : Reg) : Statement (.or d a b) := rfl
theorem xor (d a b : Reg) : Statement (.xor d a b) := rfl
theorem andn (d a b : Reg) : Statement (.andn d a b) := rfl
theorem shl (d a b : Reg) : Statement (.shl d a b) := rfl
theorem shr (d a b : Reg) : Statement (.shr d a b) := rfl
theorem sra (d a b : Reg) : Statement (.sra d a b) := rfl
theorem rotl (d a b : Reg) : Statement (.rotl d a b) := rfl
theorem min (d a b : Reg) : Statement (.min d a b) := rfl
theorem max (d a b : Reg) : Statement (.max d a b) := rfl
theorem minn (d a b : Reg) : Statement (.minn d a b) := rfl
theorem maxn (d a b : Reg) : Statement (.maxn d a b) := rfl
theorem slt (d a b : Reg) : Statement (.slt d a b) := rfl
theorem sltn (d a b : Reg) : Statement (.sltn d a b) := rfl
theorem sel (d a b : Reg) : Statement (.sel d a b) := rfl
theorem setEq (d a b : Reg) : Statement (.setEq d a b) := rfl
theorem setNe (d a b : Reg) : Statement (.setNe d a b) := rfl
theorem setLt (d a b : Reg) : Statement (.setLt d a b) := rfl
theorem setGe (d a b : Reg) : Statement (.setGe d a b) := rfl
theorem setLtn (d a b : Reg) : Statement (.setLtn d a b) := rfl
theorem setGen (d a b : Reg) : Statement (.setGen d a b) := rfl
theorem mov (d a : Reg) : Statement (.mov d a) := rfl
theorem clz (d a : Reg) : Statement (.clz d a) := rfl
theorem ctz (d a : Reg) : Statement (.ctz d a) := rfl
theorem ffs (d a : Reg) : Statement (.ffs d a) := rfl
theorem pop (d a : Reg) : Statement (.pop d a) := rfl
theorem sextB (d a : Reg) : Statement (.sextB d a) := rfl
theorem sextH (d a : Reg) : Statement (.sextH d a) := rfl
theorem sextW (d a : Reg) : Statement (.sextW d a) := rfl
theorem bswap (d a : Reg) : Statement (.bswap d a) := rfl
theorem zextB (d a : Reg) : Statement (.zextB d a) := rfl
theorem zextH (d a : Reg) : Statement (.zextH d a) := rfl
theorem zextW (d a : Reg) : Statement (.zextW d a) := rfl
theorem bext (d a b : Reg) : Statement (.bext d a b) := rfl
theorem bextImm (d a : Reg) (k : BitVec 11) : Statement (.bextImm d a k) := rfl
theorem bins (d a b : Reg) : Statement (.bins d a b) := rfl
theorem binsImm (d a : Reg) (k : BitVec 11) : Statement (.binsImm d a k) := rfl
theorem addi (d a : Reg) (k : BitVec 17) : Statement (.addi d a k) := rfl
theorem li (d : Reg) (k : BitVec 17) : Statement (.li d k) := rfl
theorem lix (d : Reg) (k : BitVec 17) : Statement (.lix d k) := rfl
theorem shli (d a : Reg) (k : BitVec 6) : Statement (.shli d a k) := rfl
theorem shri (d a : Reg) (k : BitVec 6) : Statement (.shri d a k) := rfl
theorem srai (d a : Reg) (k : BitVec 6) : Statement (.srai d a k) := rfl
theorem brEq (a b : Reg) (k : BitVec 11) : Statement (.brEq a b k) := rfl
theorem brNe (a b : Reg) (k : BitVec 11) : Statement (.brNe a b k) := rfl
theorem brLt (a b : Reg) (k : BitVec 11) : Statement (.brLt a b k) := rfl
theorem brGe (a b : Reg) (k : BitVec 11) : Statement (.brGe a b k) := rfl
theorem brLtn (a b : Reg) (k : BitVec 11) : Statement (.brLtn a b k) := rfl
theorem brGen (a b : Reg) (k : BitVec 11) : Statement (.brGen a b k) := rfl
theorem jmp (k : BitVec 21) : Statement (.jmp k) := rfl
theorem jal (k : BitVec 21) : Statement (.jal k) := rfl
theorem jr (a : Reg) : Statement (.jr a) := rfl
theorem ret : Statement .ret := rfl
theorem ld (sz : Size) (d b : Reg) (off : BitVec 11) (req : Request) : Statement (.ld sz d b off req) := rfl
theorem ldn (sz : Size) (d b : Reg) (off : BitVec 11) (req : Request) : Statement (.ldn sz d b off req) := rfl
theorem st (sz : Size) (d b : Reg) (off : BitVec 11) (req : Request) : Statement (.st sz d b off req) := rfl
theorem ldx (sz : Size) (d b c : Reg) (req : Request) : Statement (.ldx sz d b c req) := rfl
theorem ldxn (sz : Size) (d b c : Reg) (req : Request) : Statement (.ldxn sz d b c req) := rfl
theorem stx (sz : Size) (d b c : Reg) (req : Request) : Statement (.stx sz d b c req) := rfl
theorem lea (d b : Reg) (off : BitVec 11) : Statement (.lea d b off) := rfl
theorem leaIndexed (sz : Size) (d b c : Reg) (off : BitVec 11) : Statement (.leaIndexed sz d b c off) := rfl
theorem pref (b : Reg) (off : BitVec 11) : Statement (.pref b off) := rfl
theorem cflush (b : Reg) (off : BitVec 11) : Statement (.cflush b off) := rfl
theorem ldpk (f : Block) (d b : Reg) (off : BitVec 11) (req : Request) : Statement (.ldpk f d b off req) := rfl
theorem stpk (f : Block) (d b : Reg) (off : BitVec 11) (req : Request) : Statement (.stpk f d b off req) := rfl
theorem tend : Statement .tend := rfl
theorem yield : Statement .yield := rfl
theorem pubf : Statement .pubf := rfl
theorem hend : Statement .hend := rfl
theorem spawn (a : Reg) : Statement (.spawn a) := rfl
theorem sync (k : Reg) : Statement (.sync k) := rfl
theorem rfork (d a b c : Reg) : Statement (.rfork d a b c) := rfl
theorem tfanDie (a b : Reg) : Statement (.tfanDie a b) := rfl
theorem tfanQuire (a b : Reg) : Statement (.tfanQuire a b) := rfl
theorem tfanCore (a b : Reg) : Statement (.tfanCore a b) := rfl
theorem kinitCont (k a b : Reg) (sc : Scope) : Statement (.kinitCont k a b sc) := rfl
theorem kinitReady (k a b : Reg) (home : BitVec 7) (sc : Scope) : Statement (.kinitReady k a b home sc) := rfl
theorem kdec (k : Reg) : Statement (.kdec k) := rfl
theorem kadd (k a : Reg) : Statement (.kadd k a) := rfl
theorem send (a b : Reg) : Statement (.send a b) := rfl
theorem reply (a b : Reg) : Statement (.reply a b) := rfl
theorem recv (f : Filter) (a : Reg) : Statement (.recv f a) := rfl
theorem wmsg (f : Filter) : Statement (.wmsg f) := rfl
theorem hstart (d a b : Reg) : Statement (.hstart d a b) := rfl
theorem hjoin (d a : Reg) : Statement (.hjoin d a) := rfl
theorem wlPush (q a b : Reg) : Statement (.wlPush q a b) := rfl
theorem wlPop (d q : Reg) : Statement (.wlPop d q) := rfl
theorem wlLow (d q : Reg) : Statement (.wlLow d q) := rfl
theorem wlDone (q k : Reg) : Statement (.wlDone q k) := rfl
theorem donate (q a : Reg) : Statement (.donate q a) := rfl
theorem claim (d q : Reg) : Statement (.claim d q) := rfl
theorem cinc (a b : Reg) : Statement (.cinc a b) := rfl
theorem csnap (a : Reg) : Statement (.csnap a) := rfl
theorem csnapClr (a : Reg) : Statement (.csnapClr a) := rfl
theorem amoAdd (sz : Cell) (ord : Ord) (sc : Scope) (d a b : Reg) : Statement (.amoAdd sz ord sc d a b) := rfl
theorem amoAnd (sz : Cell) (ord : Ord) (sc : Scope) (d a b : Reg) : Statement (.amoAnd sz ord sc d a b) := rfl
theorem amoOr (sz : Cell) (ord : Ord) (sc : Scope) (d a b : Reg) : Statement (.amoOr sz ord sc d a b) := rfl
theorem amoXor (sz : Cell) (ord : Ord) (sc : Scope) (d a b : Reg) : Statement (.amoXor sz ord sc d a b) := rfl
theorem amoMin (sz : Cell) (ord : Ord) (sc : Scope) (d a b : Reg) : Statement (.amoMin sz ord sc d a b) := rfl
theorem amoMax (sz : Cell) (ord : Ord) (sc : Scope) (d a b : Reg) : Statement (.amoMax sz ord sc d a b) := rfl
theorem amoMinn (sz : Cell) (ord : Ord) (sc : Scope) (d a b : Reg) : Statement (.amoMinn sz ord sc d a b) := rfl
theorem amoMaxn (sz : Cell) (ord : Ord) (sc : Scope) (d a b : Reg) : Statement (.amoMaxn sz ord sc d a b) := rfl
theorem amoSwap (sz : Cell) (ord : Ord) (sc : Scope) (d a b : Reg) : Statement (.amoSwap sz ord sc d a b) := rfl
theorem amoCas (sz : Cell) (ord : Ord) (sc : Scope) (d a b : Reg) : Statement (.amoCas sz ord sc d a b) := rfl
theorem amoFadd (ord : Ord) (sc : Scope) (d a b : Reg) : Statement (.amoFadd ord sc d a b) := rfl
theorem amoXadd (ord : Ord) (sc : Scope) (d a b : Reg) : Statement (.amoXadd ord sc d a b) := rfl
theorem lrD (ord : Ord) (sc : Scope) (d a : Reg) : Statement (.lrD ord sc d a) := rfl
theorem lrW (ord : Ord) (sc : Scope) (d a : Reg) : Statement (.lrW ord sc d a) := rfl
theorem scD (ord : Ord) (sc : Scope) (d a b : Reg) : Statement (.scD ord sc d a b) := rfl
theorem scW (ord : Ord) (sc : Scope) (d a b : Reg) : Statement (.scW ord sc d a b) := rfl
theorem fence (status : Option Reg) (sc : Scope) : Statement (.fence status sc) := rfl
theorem fenceAcq (status : Option Reg) (sc : Scope) : Statement (.fenceAcq status sc) := rfl
theorem fenceRel (status : Option Reg) (sc : Scope) : Statement (.fenceRel status sc) := rfl
theorem wrs : Statement .wrs := rfl
theorem waitaddr (a b : Reg) : Statement (.waitaddr a b) := rfl
theorem barQuire : Statement .barQuire := rfl
theorem barDie : Statement .barDie := rfl
theorem barDev : Statement .barDev := rfl
theorem barSys : Statement .barSys := rfl
theorem vadd (t : IntTy) (d a b : VReg) (m : MReg) : Statement (.vadd t d a b m) := rfl
theorem vsub (t : IntTy) (d a b : VReg) (m : MReg) : Statement (.vsub t d a b m) := rfl
theorem vmul (t : IntTy) (d a b : VReg) (m : MReg) : Statement (.vmul t d a b m) := rfl
theorem vmulh (t : IntTy) (d a b : VReg) (m : MReg) : Statement (.vmulh t d a b m) := rfl
theorem vadds (t : IntTy) (d a b : VReg) (m : MReg) : Statement (.vadds t d a b m) := rfl
theorem vsubs (t : IntTy) (d a b : VReg) (m : MReg) : Statement (.vsubs t d a b m) := rfl
theorem vabs (t : IntTy) (d b : VReg) (m : MReg) : Statement (.vabs t d b m) := rfl
theorem vneg (t : IntTy) (d b : VReg) (m : MReg) : Statement (.vneg t d b m) := rfl
theorem vmin (t : IntTy) (d a b : VReg) (m : MReg) : Statement (.vmin t d a b m) := rfl
theorem vmax (t : IntTy) (d a b : VReg) (m : MReg) : Statement (.vmax t d a b m) := rfl
theorem vmac (t : IntTy) (d a b : VReg) (m : MReg) : Statement (.vmac t d a b m) := rfl
theorem vmacs (t : IntTy) (d a b : VReg) (m : MReg) : Statement (.vmacs t d a b m) := rfl
theorem vshl (t : IntTy) (d a b : VReg) (m : MReg) : Statement (.vshl t d a b m) := rfl
theorem vshr (t : IntTy) (d a b : VReg) (m : MReg) : Statement (.vshr t d a b m) := rfl
theorem vsra (t : IntTy) (d a b : VReg) (m : MReg) : Statement (.vsra t d a b m) := rfl
theorem vrotl (t : IntTy) (d a b : VReg) (m : MReg) : Statement (.vrotl t d a b m) := rfl
theorem vand (t : IntTy) (d a b : VReg) (m : MReg) : Statement (.vand t d a b m) := rfl
theorem vor (t : IntTy) (d a b : VReg) (m : MReg) : Statement (.vor t d a b m) := rfl
theorem vxor (t : IntTy) (d a b : VReg) (m : MReg) : Statement (.vxor t d a b m) := rfl
theorem vandn (t : IntTy) (d a b : VReg) (m : MReg) : Statement (.vandn t d a b m) := rfl
theorem vnot (t : IntTy) (d b : VReg) (m : MReg) : Statement (.vnot t d b m) := rfl
theorem vmov (t : IntTy) (d b : VReg) (m : MReg) : Statement (.vmov t d b m) := rfl
theorem vbcast (t : IntTy) (d : VReg) (a : Reg) (m : MReg) : Statement (.vbcast t d a m) := rfl
theorem vsel (t : IntTy) (d a b : VReg) (z m : MReg) : Statement (.vsel t d a b z m) := rfl
theorem vclz (t : IntTy) (d b : VReg) (m : MReg) : Statement (.vclz t d b m) := rfl
theorem vctz (t : IntTy) (d b : VReg) (m : MReg) : Statement (.vctz t d b m) := rfl
theorem vffs (t : IntTy) (d b : VReg) (m : MReg) : Statement (.vffs t d b m) := rfl
theorem vpop (t : IntTy) (d b : VReg) (m : MReg) : Statement (.vpop t d b m) := rfl
theorem vcmpEq (t : IntTy) (d : MReg) (a b : VReg) (m : MReg) : Statement (.vcmpEq t d a b m) := rfl
theorem vcmpNe (t : IntTy) (d : MReg) (a b : VReg) (m : MReg) : Statement (.vcmpNe t d a b m) := rfl
theorem vcmpLt (t : IntTy) (d : MReg) (a b : VReg) (m : MReg) : Statement (.vcmpLt t d a b m) := rfl
theorem vcmpGe (t : IntTy) (d : MReg) (a b : VReg) (m : MReg) : Statement (.vcmpGe t d a b m) := rfl
theorem vext (t : IntTy) (d : Reg) (b : VReg) (k : BitVec 11) : Statement (.vext t d b k) := rfl
theorem vins (t : IntTy) (d : VReg) (a : Reg) (k : BitVec 11) : Statement (.vins t d a k) := rfl
theorem vperm (t : IntTy) (d a x : VReg) (m : MReg) : Statement (.vperm t d a x m) := rfl
theorem vslide (t : IntTy) (d a b : VReg) (k : BitVec 11) (m : MReg) : Statement (.vslide t d a b k m) := rfl
theorem vredsum (t : IntTy) (d : Reg) (b : VReg) (m : MReg) : Statement (.vredsum t d b m) := rfl
theorem vredmin (t : IntTy) (d : Reg) (b : VReg) (m : MReg) : Statement (.vredmin t d b m) := rfl
theorem vredmax (t : IntTy) (d : Reg) (b : VReg) (m : MReg) : Statement (.vredmax t d b m) := rfl
theorem vscan (t : IntTy) (d b : VReg) (m : MReg) : Statement (.vscan t d b m) := rfl
theorem vld (t : IntTy) (v : VReg) (a : Reg) (off : BitVec 11) (m : MReg) : Statement (.vld t v a off m) := rfl
theorem vst (t : IntTy) (v : VReg) (a : Reg) (off : BitVec 11) (m : MReg) : Statement (.vst t v a off m) := rfl
theorem vldx (t : IntTy) (v : VReg) (a : Reg) (x : VReg) (m : MReg) : Statement (.vldx t v a x m) := rfl
theorem vstx (t : IntTy) (v : VReg) (a : Reg) (x : VReg) (m : MReg) : Statement (.vstx t v a x m) := rfl
theorem mand (d a b : MReg) : Statement (.mand d a b) := rfl
theorem mor (d a b : MReg) : Statement (.mor d a b) := rfl
theorem mxor (d a b : MReg) : Statement (.mxor d a b) := rfl
theorem mandn (d a b : MReg) : Statement (.mandn d a b) := rfl
theorem mnot (d b : MReg) : Statement (.mnot d b) := rfl
theorem mmov (d b : MReg) : Statement (.mmov d b) := rfl
theorem mpop (t : IntTy) (d : Reg) (b : MReg) : Statement (.mpop t d b) := rfl
theorem mffs (t : IntTy) (d : Reg) (b : MReg) : Statement (.mffs t d b) := rfl
theorem vfadd (t : FloatTy) (d a b : VReg) (m : MReg) (rm : Option Rounding) : Statement (.vfadd t d a b m rm) := rfl
theorem vfsub (t : FloatTy) (d a b : VReg) (m : MReg) (rm : Option Rounding) : Statement (.vfsub t d a b m rm) := rfl
theorem vfmul (t : FloatTy) (d a b : VReg) (m : MReg) (rm : Option Rounding) : Statement (.vfmul t d a b m rm) := rfl
theorem vfdiv (t : FloatTy) (d a b : VReg) (m : MReg) (rm : Option Rounding) : Statement (.vfdiv t d a b m rm) := rfl
theorem vfma (t : FloatTy) (d a b c : VReg) (m : MReg) (rm : Option Rounding) : Statement (.vfma t d a b c m rm) := rfl
theorem vfms (t : FloatTy) (d a b c : VReg) (m : MReg) (rm : Option Rounding) : Statement (.vfms t d a b c m rm) := rfl
theorem vfnma (t : FloatTy) (d a b c : VReg) (m : MReg) (rm : Option Rounding) : Statement (.vfnma t d a b c m rm) := rfl
theorem vfnms (t : FloatTy) (d a b c : VReg) (m : MReg) (rm : Option Rounding) : Statement (.vfnms t d a b c m rm) := rfl
theorem vfmin (t : FloatTy) (d a b : VReg) (m : MReg) : Statement (.vfmin t d a b m) := rfl
theorem vfmax (t : FloatTy) (d a b : VReg) (m : MReg) : Statement (.vfmax t d a b m) := rfl
theorem vfabs (t : FloatTy) (d b : VReg) (m : MReg) : Statement (.vfabs t d b m) := rfl
theorem vfneg (t : FloatTy) (d b : VReg) (m : MReg) : Statement (.vfneg t d b m) := rfl
theorem vfsqrt (t : FloatTy) (d b : VReg) (m : MReg) (rm : Option Rounding) : Statement (.vfsqrt t d b m rm) := rfl
theorem vfrcp (t : FloatTy) (d b : VReg) (m : MReg) (rm : Option Rounding) : Statement (.vfrcp t d b m rm) := rfl
theorem vfcmpEq (t : FloatTy) (d : MReg) (a b : VReg) (m : MReg) : Statement (.vfcmpEq t d a b m) := rfl
theorem vfcmpLt (t : FloatTy) (d : MReg) (a b : VReg) (m : MReg) : Statement (.vfcmpLt t d a b m) := rfl
theorem vfcmpLe (t : FloatTy) (d : MReg) (a b : VReg) (m : MReg) : Statement (.vfcmpLe t d a b m) := rfl
theorem vfcmpUn (t : FloatTy) (d : MReg) (a b : VReg) (m : MReg) : Statement (.vfcmpUn t d a b m) := rfl
theorem vfredsum (t : FloatTy) (d : Reg) (b : VReg) (m : MReg) (rm : Option Rounding) : Statement (.vfredsum t d b m rm) := rfl
theorem vfredmin (t : FloatTy) (d : Reg) (b : VReg) (m : MReg) (rm : Option Rounding) : Statement (.vfredmin t d b m rm) := rfl
theorem vfredmax (t : FloatTy) (d : Reg) (b : VReg) (m : MReg) (rm : Option Rounding) : Statement (.vfredmax t d b m rm) := rfl
theorem vfscan (t : FloatTy) (d b : VReg) (m : MReg) (rm : Option Rounding) : Statement (.vfscan t d b m rm) := rfl
theorem vcvtFf (t src : FloatTy) (d b : VReg) (m : MReg) (rm : Option Rounding) : Statement (.vcvtFf t src d b m rm) := rfl
theorem vcvtFi (t : IntTy) (src : FloatTy) (d b : VReg) (m : MReg) (rm : Option Rounding) : Statement (.vcvtFi t src d b m rm) := rfl
theorem vcvtIf (t : FloatTy) (src : IntTy) (d b : VReg) (m : MReg) (rm : Option Rounding) : Statement (.vcvtIf t src d b m rm) := rfl
theorem vpack (t : FloatTy) (d a b : VReg) (rm : Option Rounding) : Statement (.vpack t d a b rm) := rfl
theorem vunpack (t : FloatTy) (d a b : VReg) (rm : Option Rounding) : Statement (.vunpack t d a b rm) := rfl
theorem vrng (d b : VReg) (m : MReg) : Statement (.vrng d b m) := rfl
theorem mcfg (a : Reg) : Statement (.mcfg a) := rfl
theorem mzero (c : AReg) : Statement (.mzero c) := rfl
theorem mmac (c : AReg) (a b : Reg) : Statement (.mmac c a b) := rfl
theorem msmac (c : AReg) (a b : Reg) : Statement (.msmac c a b) := rfl
theorem mrect (c : AReg) (a : Reg) : Statement (.mrect c a) := rfl
theorem mrowRd (v : VReg) (a : Reg) (c : AReg) : Statement (.mrowRd v a c) := rfl
theorem mrowWr (v : VReg) (a : Reg) (c : AReg) : Statement (.mrowWr v a c) := rfl
theorem mscale (c : AReg) (a : Reg) : Statement (.mscale c a) := rfl
theorem mstat (d : Reg) : Statement (.mstat d) := rfl
theorem cp (a : Reg) : Statement (.cp a) := rfl
theorem cpm (a : Reg) : Statement (.cpm a) := rfl
theorem cpc (a : Reg) : Statement (.cpc a) := rfl
theorem cpw (a : Reg) : Statement (.cpw a) := rfl
theorem cpfence : Statement .cpfence := rfl
theorem cdcfgConfigure (c : Cd) (a : Reg) : Statement (.cdcfgConfigure c a) := rfl
theorem cdcfgWaitFull (c : Cd) (a : Reg) : Statement (.cdcfgWaitFull c a) := rfl
theorem cdcfgPop (c : Cd) (a : Reg) : Statement (.cdcfgPop c a) := rfl
theorem cdcfgWaitFree (c : Cd) (a : Reg) : Statement (.cdcfgWaitFree c a) := rfl
theorem cdcfgPush (c : Cd) (a : Reg) : Statement (.cdcfgPush c a) := rfl
theorem cdcfgReset (c : Cd) (a : Reg) : Statement (.cdcfgReset c a) := rfl
theorem rep (a : Reg) (n : BitVec 6) : Statement (.rep a n) := rfl
theorem repx (a : Reg) (n : BitVec 6) : Statement (.repx a n) := rfl
theorem repReissue : Statement .repReissue := rfl
theorem phBegin (a : Reg) : Statement (.phBegin a) := rfl
theorem phEnd : Statement .phEnd := rfl
theorem tx (a : Reg) (p : Port) : Statement (.tx a p) := rfl
theorem mux (o i : Port) : Statement (.mux o i) := rfl
theorem rxw (d : Reg) (p : Port) : Statement (.rxw d p) := rfl
theorem gload (a : Reg) : Statement (.gload a) := rfl
theorem gstep (d a : Reg) : Statement (.gstep d a) := rfl
theorem gmask (a b : Reg) : Statement (.gmask a b) := rfl
theorem gstate (d : Reg) : Statement (.gstate d) := rfl
theorem sampF32 (d a : Reg) : Statement (.sampF32 d a) := rfl
theorem sampBf16 (d a : Reg) : Statement (.sampBf16 d a) := rfl
theorem rti : Statement .rti := rfl
theorem upret : Statement .upret := rfl
theorem idle : Statement .idle := rfl
theorem halt : Statement .halt := rfl
theorem trap (k : BitVec 17) : Statement (.trap k) := rfl
theorem csrr (d : Reg) (n : BitVec 6) : Statement (.csrr d n) := rfl
theorem csrw (a : Reg) (n : BitVec 6) : Statement (.csrw a n) := rfl
theorem csrs (a : Reg) (n : BitVec 6) : Statement (.csrs a n) := rfl
theorem csrc (a : Reg) (n : BitVec 6) : Statement (.csrc a n) := rfl
theorem tlbinvAll : Statement .tlbinvAll := rfl
theorem tlbinvVa (a : Reg) : Statement (.tlbinvVa a) := rfl
theorem bdef (a b : Reg) : Statement (.bdef a b) := rfl
theorem bshare (a b : Reg) : Statement (.bshare a b) := rfl
theorem bresize (a b : Reg) : Statement (.bresize a b) := rfl
theorem bquery (d a : Reg) : Statement (.bquery d a) := rfl
theorem csrWrite : Statement .csrWrite := rfl
theorem wincfgWrite : Statement .wincfgWrite := rfl
theorem decodeTableLoad : Statement .decodeTableLoad := rfl
theorem dmemWrite : Statement .dmemWrite := rfl
theorem dqlocalWrite : Statement .dqlocalWrite := rfl
theorem bindselRecordStore : Statement .bindselRecordStore := rfl
theorem storeBufferDrain : Statement .storeBufferDrain := rfl
theorem impreciseErrorEvent : Statement .impreciseErrorEvent := rfl
theorem repSequenceFault : Statement .repSequenceFault := rfl
theorem phaseLengthExpiry : Statement .phaseLengthExpiry := rfl
theorem phaseOverrun : Statement .phaseOverrun := rfl
theorem badDequeHandle : Statement .badDequeHandle := rfl
theorem inboxOverflow : Statement .inboxOverflow := rfl
theorem breakpoint : Statement .breakpoint := rfl
theorem breakpointSet : Statement .breakpointSet := rfl
theorem preemptionRequest : Statement .preemptionRequest := rfl
theorem preemptionHoldTimeout : Statement .preemptionHoldTimeout := rfl
theorem preemptionSave : Statement .preemptionSave := rfl
theorem preemptionRestore : Statement .preemptionRestore := rfl
theorem reservationRequest : Statement .reservationRequest := rfl
theorem reservationGrant : Statement .reservationGrant := rfl
theorem reservationRevoke : Statement .reservationRevoke := rfl
theorem reservationWriteBack : Statement .reservationWriteBack := rfl
theorem wrsWake : Statement .wrsWake := rfl
theorem waitaddrRead : Statement .waitaddrRead := rfl
theorem barrierRelease : Statement .barrierRelease := rfl
theorem barrierMemberLost : Statement .barrierMemberLost := rfl
theorem kettleOperation : Statement .kettleOperation := rfl
theorem messageDepart : Statement .messageDepart := rfl
theorem messageArrival : Statement .messageArrival := rfl
theorem nextWorkSelect : Statement .nextWorkSelect := rfl
theorem stealProbe : Statement .stealProbe := rfl
theorem coreWake : Statement .coreWake := rfl
theorem launch : Statement .launch := rfl
theorem launchTreeDelivery : Statement .launchTreeDelivery := rfl
theorem recruitStart : Statement .recruitStart := rfl
theorem lowLoweringBroadcast : Statement .lowLoweringBroadcast := rfl
theorem worklistEpoch : Statement .worklistEpoch := rfl
theorem worklistSweep : Statement .worklistSweep := rfl
theorem partnerReadTimeout : Statement .partnerReadTimeout := rfl
theorem governorWindow : Statement .governorWindow := rfl
theorem govctlWrite : Statement .govctlWrite := rfl
theorem matrixOperationStart : Statement .matrixOperationStart := rfl
theorem matrixOperationComplete : Statement .matrixOperationComplete := rfl
theorem mrectCheckExchange : Statement .mrectCheckExchange := rfl
theorem copyCommandAccept : Statement .copyCommandAccept := rfl
theorem combineHoldExpiry : Statement .combineHoldExpiry := rfl
theorem copyLineMove : Statement .copyLineMove := rfl
theorem copyCompletionWrite : Statement .copyCompletionWrite := rfl
theorem grammarUnitServe : Statement .grammarUnitServe := rfl
theorem translationWalk : Statement .translationWalk := rfl
theorem remoteInvalidation : Statement .remoteInvalidation := rfl
theorem qasrWrite : Statement .qasrWrite := rfl
theorem resizeSetMove : Statement .resizeSetMove := rfl
theorem resizeWalkEnd : Statement .resizeWalkEnd := rfl
theorem homePlainFill : Statement .homePlainFill := rfl
theorem homeOwnFill : Statement .homeOwnFill := rfl
theorem homeWriteBack : Statement .homeWriteBack := rfl
theorem homeWtStore : Statement .homeWtStore := rfl
theorem homeSiFill : Statement .homeSiFill := rfl
theorem homeUncAccess : Statement .homeUncAccess := rfl
theorem probeArrival : Statement .probeArrival := rfl
theorem dataReplyArrival : Statement .dataReplyArrival := rfl
theorem dieDrain : Statement .dieDrain := rfl
theorem linkFlitReplay : Statement .linkFlitReplay := rfl
theorem boundaryRetrain : Statement .boundaryRetrain := rfl
theorem boundaryDown : Statement .boundaryDown := rfl
theorem remotePacketArrival : Statement .remotePacketArrival := rfl
theorem remoteReplyArrival : Statement .remoteReplyArrival := rfl
theorem refusal : Statement .refusal := rfl
theorem refusalReservationTimeout : Statement .refusalReservationTimeout := rfl
theorem fabricTimeout : Statement .fabricTimeout := rfl
theorem fenceToken : Statement .fenceToken := rfl
theorem fenceHandshakeTimeout : Statement .fenceHandshakeTimeout := rfl
theorem neighbourSilence : Statement .neighbourSilence := rfl
theorem lossNotice : Statement .lossNotice := rfl
theorem lostSetClear : Statement .lostSetClear := rfl
theorem keepalive : Statement .keepalive := rfl
theorem barrierSysPacket : Statement .barrierSysPacket := rfl
theorem fabctlWrite : Statement .fabctlWrite := rfl
theorem prctlWrite : Statement .prctlWrite := rfl
theorem hostNotice : Statement .hostNotice := rfl
theorem hostRead : Statement .hostRead := rfl
theorem hostWrite : Statement .hostWrite := rfl
theorem hostFence : Statement .hostFence := rfl
theorem lstatRead : Statement .lstatRead := rfl
theorem ohmovRetrain : Statement .ohmovRetrain := rfl
theorem blobWrite : Statement .blobWrite := rfl
theorem attestationRequest : Statement .attestationRequest := rfl
theorem powerGood : Statement .powerGood := rfl
theorem diesReady : Statement .diesReady := rfl
theorem imagoEntry : Statement .imagoEntry := rfl
theorem thermalSample : Statement .thermalSample := rfl
theorem hbmPatrol : Statement .hbmPatrol := rfl
theorem quireReset : Statement .quireReset := rfl
theorem coreReset : Statement .coreReset := rfl
theorem illegalEncoding : Statement .illegalEncoding := rfl
theorem receiveRegisterLatch : Statement .receiveRegisterLatch := rfl
theorem waitaddrRemotePoll : Statement .waitaddrRemotePoll := rfl
theorem planeRouterCycle : Statement .planeRouterCycle := rfl
theorem permittedRangeTableWrite : Statement .permittedRangeTableWrite := rfl

end Sys2Proof.Laws.Encode
end

