-- ==== Sys2Proof/Tests/Slice0.lean ====
section
/-! SUPPORT. Tests: words written out from the tables of 02, terms that are not well formed, single steps on small
states, and for each statement states that meet its hypotheses. -/

namespace Sys2Proof.Tests

open Sys2Proof Sys2Proof.Machine

set_option Elab.async false

/-! ### Small states -/

/-- An instruction or a step answers a next state of which `p` holds. -/
def nextIs (o : Host.Outcome State Fault Refusal) (p : State → Bool) : Bool :=
  match o with
  | .next t => p t
  | .fault _ => false
  | .refused _ => false
/-- A computation answers a value and a state of which `p` holds. -/
def okIs {α : Type} (x : Except Stop (α × State)) (p : α → State → Bool) : Bool :=
  match x with
  | .ok (a, u) => p a u
  | .error _ => false
/-- Core 0 runs a task in supervisor mode and issues at 0x1000; w1, w2 and w3 hold the values given; the first page of the
user half is mapped to the beginning of HBM. -/
def at0 (a b c : Word) : State :=
  let t := State.reset.onCore 0 fun k =>
    { k with run := .task, csr := { k.csr with tvec := 0x8000, upvec := 0x9000 }, dtlb := [⟨0, 12, 0x1F⟩] }
  ((({ t with trained := true
              issue := { Issue.reset with pc := 0x1000, wordPc := 0x1000, next := 0x1002 } }).setW 1 a).setW 2 b).setW 3 c
/-- The same in user mode. -/
def inUser (a b c : Word) : State := (at0 a b c).onCsr fun k => { k with status := 0 }
/-- The same with bytes in the scratchpad of core 0. -/
def withBytes (s : State) (off : Nat) (bs : List Byte) : State := s.onCore 0 fun c => { c with spad := Memory.write c.spad off bs }
/-- The same with bytes in HBM. -/
def withHbm (s : State) (pa : Nat) (bs : List Byte) : State := { s with hbm := Memory.write s.hbm pa bs }
/-- A helper issues. -/
def asHelper (s : State) (h : Fin 11) : State := { s with ctx := h }
/-- An address of core 0's own scratchpad. -/
abbrev L (off : Nat) : Word := localAddr off

theorem memWf_of (s : State)
    (h : (Memory.wf s.hbm && Memory.wf s.mgmt.flash && (s.cores.all fun c => Memory.wf c.2.spad) &&
      s.quires.all fun q => Memory.wf q.2.kettles) = true) : s.memWf := by
  simp only [Bool.and_eq_true, List.all_eq_true] at h
  obtain ⟨⟨⟨h1, h2⟩, h3⟩, h4⟩ := h
  have look : ∀ {α : Type} (f : α → Memory) (d : α) (k : Nat) (l : List (Nat × α)),
      (∀ x ∈ l, Memory.wf (f x.2) = true) → Memory.wf (f d) = true → Memory.wf (f (mapGet l k d)) = true := by
    intro α f d k l
    induction l with
    | nil => intro _ hd; simpa [mapGet] using hd
    | cons x r ih =>
      intro hx hd
      obtain ⟨j, v⟩ := x
      simp only [mapGet]
      split
      · exact hx (j, v) List.mem_cons_self
      · exact ih (fun y hy => hx y (List.mem_cons_of_mem _ hy)) hd
  exact ⟨h1, h2, fun n => look Core.spad (Core.reset n) n s.cores h3 rfl,
    fun q => look Quire.kettles Quire.reset q s.quires h4 rfl⟩
/-! ### Computations that answer -/

/-- A computation that answers, with what holds of its answer. -/
theorem okIs_some {α : Type} {x : Except Stop (α × State)} {p : α → State → Bool} (h : okIs x p = true) :
    ∃ a u, x = .ok (a, u) ∧ p a u = true := by
  cases x with
  | error e => cases h
  | ok y => exact ⟨y.1, y.2, rfl, h⟩
/-- The computation answers as `p` says. -/
def Ok {α : Type} (x : Except Stop (α × State)) (p : α → State → Bool) : Prop := ∃ a u, x = .ok (a, u) ∧ p a u = true
/-- A quire that is not listed is as at reset: it holds no lines and forwards nothing. -/
theorem no_lines {s : State} (h : s.quires = []) (q : Nat) :
    (s.quire q).lines = [] ∧ (s.quire q).slices = [] ∧ (s.quire q).forwards = [] := by
  simp [State.quire, h, mapGet, Quire.reset]
/-- An atomic access that no one stands in the way of, from memories in canonical form and the rest. -/
theorem ready_of {s : State} {va : Word} {n o : Nat} (m : s.memWf)
    (r : (s.csr.ph = false ∧ s.issue.stay = false ∧ s.me.sb = [] ∧ s.me.peers = [] ∧ s.granules = [] ∧ s.watches = []) ∧
      (s.myCtx.amo = none ∧ s.myCtx.queued = none ∧ s.myCtx.granted = none ∧ s.myCtx.remote = none) ∧
      OwnBytes s va n n o ∧ s.owned (.spad s.cur (o / 16 * 16)) 16 = false) : AtomicReady s va n o := by
  obtain ⟨⟨a, b, c, d, e, f⟩, ⟨g, h, i, j⟩, k, l⟩ := r
  exact ⟨a, b, c, d, e, f, m, g, h, i, j, k, l⟩

/-! ### Terms that are not well formed -/

theorem test_ill_formed_steps : Instr.wellFormed .powerGood = false ∧ Instr.wellFormed .repReissue = false ∧ Instr.wellFormed .illegalEncoding = false := by decide
theorem test_ill_formed_block : Instr.wellFormed (.ldpk .c6 3 0 0 .dflt) = false ∧ Instr.wellFormed (.stpk .c8 5 0 0 .dflt) = false ∧
    Instr.wellFormed (.ldpk .c4 3 0 0 .dflt) = true := by decide
theorem test_ill_formed_home : Instr.wellFormed (.kinitReady 1 2 3 96 .quire) = false ∧ Instr.wellFormed (.kinitReady 1 2 3 95 .quire) = true := by decide
theorem test_ill_formed_sign : Instr.wellFormed (.vabs .n8 1 2 0) = false ∧ Instr.wellFormed (.vneg .n32 1 2 0) = false := by decide
theorem test_ill_formed_lane : Instr.wellFormed (.vext .i32 1 2 32) = false ∧ Instr.wellFormed (.vins .i64 1 2 16) = false ∧
    Instr.wellFormed (.vslide .i64 1 2 3 17 0) = false ∧ Instr.wellFormed (.vext .i32 1 2 31) = true := by decide
theorem test_ill_formed_index : Instr.wellFormed (.vldx .i4 1 2 3 0) = false ∧ Instr.wellFormed (.vstx .n4 1 2 3 0) = false := by decide
theorem test_ill_formed_rep : Instr.wellFormed (.rep 1 0) = false ∧ Instr.wellFormed (.repx 1 17) = false ∧ Instr.wellFormed (.rep 1 16) = true := by decide

theorem test_ill_formed_narrow : Instr.wellFormed (.vpack .f32 1 2 3 none) = false ∧ Instr.wellFormed (.vunpack .f32 1 2 3 none) = false ∧
    Instr.wellFormed (.vrng 2 2 0) = false := by decide

/-! ### Rows of the opcode table, decoded and stepped from reset -/

theorem test_table_add : decodeTableWord 16 0b000001_0011_0101_00 = some (.add 3 3 5) := by decide
theorem test_step_from_reset : nextIs (step (State.reset.withFetchWord 16 0b000001_0011_0101_00)) (fun t => ((t.core 0).ctxs[0]).pc = L 2) = true := by
  decide +kernel

/-! ### Words of every family -/

theorem test_decode_integer_1 :
    decodeWords [0b000000_0000000001#16] = some (.nop, 1) ∧
    decodeWords [0b111_01_1_1_0_10001_000#16, 0b000001_0100_0101_00#16] = some (.add 20 17 21, 2) ∧
    decodeWords [0b111_01_1_1_0_10001_000#16, 0b000001_0100_0101_01#16] = some (.sub 20 17 21, 2) ∧
    decodeWords [0b111_01_1_1_0_10001_000#16, 0b000001_0100_0101_10#16] = some (.mul 20 17 21, 2) ∧
    decodeWords [0b111_01_1_1_0_10001_000#16, 0b000001_0100_0101_11#16] = some (.mulh 20 17 21, 2) ∧
    decodeWords [0b111_01_1_1_0_10001_000#16, 0b000010_0100_0101_00#16] = some (.mulhn 20 17 21, 2) ∧
    decodeWords [0b111_01_1_1_0_10001_000#16, 0b000010_0100_0101_01#16] = some (.div 20 17 21, 2) ∧
    decodeWords [0b111_01_1_1_0_10001_000#16, 0b000010_0100_0101_10#16] = some (.divn 20 17 21, 2) ∧
    decodeWords [0b111_01_1_1_0_10001_000#16, 0b000010_0100_0101_11#16] = some (.rem 20 17 21, 2) ∧
    decodeWords [0b111_01_1_1_0_10001_000#16, 0b000011_0100_0101_00#16] = some (.remn 20 17 21, 2) ∧
    decodeWords [0b111_01_1_1_0_10001_000#16, 0b000011_0100_0101_01#16] = some (.and 20 17 21, 2) ∧
    decodeWords [0b111_01_1_1_0_10001_000#16, 0b000011_0100_0101_10#16] = some (.or 20 17 21, 2) ∧
    decodeWords [0b111_01_1_1_0_10001_000#16, 0b000011_0100_0101_11#16] = some (.xor 20 17 21, 2) ∧
    decodeWords [0b111_01_1_1_0_10001_000#16, 0b000100_0100_0101_00#16] = some (.andn 20 17 21, 2) := by decide
theorem test_decode_integer_2 :
    decodeWords [0b111_01_1_1_0_10001_000#16, 0b000100_0100_0101_01#16] = some (.shl 20 17 21, 2) ∧
    decodeWords [0b111_01_1_1_0_10001_000#16, 0b000100_0100_0101_10#16] = some (.shr 20 17 21, 2) ∧
    decodeWords [0b111_01_1_1_0_10001_000#16, 0b000100_0100_0101_11#16] = some (.sra 20 17 21, 2) ∧
    decodeWords [0b111_01_1_1_0_10001_000#16, 0b000101_0100_0101_00#16] = some (.rotl 20 17 21, 2) ∧
    decodeWords [0b111_01_1_1_0_10001_000#16, 0b000101_0100_0101_01#16] = some (.min 20 17 21, 2) ∧
    decodeWords [0b111_01_1_1_0_10001_000#16, 0b000101_0100_0101_10#16] = some (.max 20 17 21, 2) ∧
    decodeWords [0b111_01_1_1_0_10001_000#16, 0b000101_0100_0101_11#16] = some (.minn 20 17 21, 2) ∧
    decodeWords [0b111_01_1_1_0_10001_000#16, 0b000110_0100_0101_00#16] = some (.maxn 20 17 21, 2) ∧
    decodeWords [0b111_01_1_1_0_10001_000#16, 0b000110_0100_0101_01#16] = some (.slt 20 17 21, 2) ∧
    decodeWords [0b111_01_1_1_0_10001_000#16, 0b000110_0100_0101_10#16] = some (.sltn 20 17 21, 2) ∧
    decodeWords [0b111_01_1_1_0_10001_000#16, 0b000110_0100_0101_11#16] = some (.sel 20 17 21, 2) ∧
    decodeWords [0b000111_0011_0101_00#16] = some (.setEq 3 3 5, 1) ∧
    decodeWords [0b000111_0011_0101_01#16] = some (.setNe 3 3 5, 1) ∧
    decodeWords [0b000111_0011_0101_10#16] = some (.setLt 3 3 5, 1) := by decide
theorem test_decode_integer_3 :
    decodeWords [0b000111_0011_0101_11#16] = some (.setGe 3 3 5, 1) ∧
    decodeWords [0b001000_0011_0101_00#16] = some (.setLtn 3 3 5, 1) ∧
    decodeWords [0b001000_0011_0101_01#16] = some (.setGen 3 3 5, 1) := by decide
theorem test_decode_unary_1 :
    decodeWords [0b001000_0011_0101_10#16] = some (.mov 3 5, 1) ∧
    decodeWords [0b111_01_1_0_0_00000_000#16, 0b001001_0011_0110_00#16] = some (.clz 19 6, 2) ∧
    decodeWords [0b111_01_1_0_0_00000_000#16, 0b001001_0011_0110_01#16] = some (.ctz 19 6, 2) ∧
    decodeWords [0b111_01_1_0_0_00000_000#16, 0b001001_0011_0110_10#16] = some (.ffs 19 6, 2) ∧
    decodeWords [0b111_01_1_0_0_00000_000#16, 0b001001_0011_0110_11#16] = some (.pop 19 6, 2) ∧
    decodeWords [0b111_01_1_0_0_00000_000#16, 0b001010_0011_0110_00#16] = some (.sextB 19 6, 2) ∧
    decodeWords [0b111_01_1_0_0_00000_000#16, 0b001010_0011_0110_01#16] = some (.sextH 19 6, 2) ∧
    decodeWords [0b111_01_1_0_0_00000_000#16, 0b001010_0011_0110_10#16] = some (.sextW 19 6, 2) ∧
    decodeWords [0b111_01_1_0_0_00000_000#16, 0b001010_0011_0110_11#16] = some (.bswap 19 6, 2) ∧
    decodeWords [0b111_01_1_0_0_00000_000#16, 0b001011_0011_0110_00#16] = some (.zextB 19 6, 2) ∧
    decodeWords [0b111_01_1_0_0_00000_000#16, 0b001011_0011_0110_01#16] = some (.zextH 19 6, 2) ∧
    decodeWords [0b111_01_1_0_0_00000_000#16, 0b001011_0011_0110_10#16] = some (.zextW 19 6, 2) ∧
    decodeWords [0b111_01_1_1_0_10001_000#16, 0b001100_0100_0101_00#16] = some (.bext 20 17 21, 2) ∧
    decodeWords [0b001100_0100_0101_01#16] = some (.bins 4 4 5, 1) := by decide
theorem test_decode_unary_2 :
    decodeWords [0b111_01_1_0_0_10001_000#16, 0b111_00_10101000011#16, 0b001100_0100_0000_00#16] = some (.bextImm 20 17 0x543, 3) ∧
    decodeWords [0b111_00_11101100101#16, 0b001100_0100_0000_01#16] = some (.binsImm 4 4 0x765, 2) ∧
    decodeWords [0b111_01_1_0_0_10001_000#16, 0b111_00_11111111010#16, 0b001101_0100_101101#16] = some (.addi 20 17 0x1FEAD, 3) ∧
    decodeWords [0b001101_0100_111111#16] = some (.addi 4 4 0x1FFFF, 1) ∧
    decodeWords [0b001110_1001_011111#16] = some (.li 9 0x1F, 1) ∧
    decodeWords [0b001111_1001_111111#16] = some (.lix 9 0x3F, 1) ∧
    decodeWords [0b111_01_1_0_0_10001_000#16, 0b010000_0100_101010#16] = some (.shli 20 17 0x2A, 2) ∧
    decodeWords [0b111_01_1_0_0_10001_000#16, 0b010001_0100_101010#16] = some (.shri 20 17 0x2A, 2) ∧
    decodeWords [0b111_01_1_0_0_10001_000#16, 0b010010_0100_101010#16] = some (.srai 20 17 0x2A, 2) := by decide
theorem test_decode_control :
    decodeWords [0b111_00_11111111010#16, 0b010011_0011_0000_00#16] = some (.brEq 3 0 0x7FA, 2) ∧
    decodeWords [0b111_00_11111111010#16, 0b010011_0011_0000_01#16] = some (.brNe 3 0 0x7FA, 2) ∧
    decodeWords [0b111_00_11111111010#16, 0b010011_0011_0000_10#16] = some (.brLt 3 0 0x7FA, 2) ∧
    decodeWords [0b111_00_11111111010#16, 0b010011_0011_0000_11#16] = some (.brGe 3 0 0x7FA, 2) ∧
    decodeWords [0b111_00_11111111010#16, 0b010100_0011_0000_00#16] = some (.brLtn 3 0 0x7FA, 2) ∧
    decodeWords [0b111_00_11111111010#16, 0b010100_0011_0000_01#16] = some (.brGen 3 0 0x7FA, 2) ∧
    decodeWords [0b010101_1111111110#16] = some (.jmp 0x1FFFFE, 1) ∧
    decodeWords [0b111_00_00100100011#16, 0b010110_0101010101#16] = some (.jal 0x48D55, 2) ∧
    decodeWords [0b111_01_1_0_0_00000_000#16, 0b010111_1110_000000#16] = some (.jr 30, 2) ∧
    decodeWords [0b010111_0000_000001#16] = some (.ret, 1) := by decide
theorem test_decode_memory :
    decodeWords [0b111_01_1_1_0_00000_000#16, 0b111_00_11111111111#16, 0b011000_0100_0101_00#16] = some (.ld .b 20 21 0x7FF .dflt, 3) ∧
    decodeWords [0b111_01_1_1_0_00000_001#16, 0b111_00_11111111111#16, 0b011001_0100_0101_01#16] = some (.ldn .h 20 21 0x7FF .own, 3) ∧
    decodeWords [0b111_01_1_1_0_00000_010#16, 0b111_00_11111111111#16, 0b011010_0100_0101_10#16] = some (.st .w 20 21 0x7FF .wt, 3) ∧
    decodeWords [0b111_01_1_1_0_10001_011#16, 0b011011_0100_0101_11#16] = some (.ldx .d 20 21 17 .si, 2) ∧
    decodeWords [0b111_01_1_1_0_10001_100#16, 0b011100_0100_0101_10#16] = some (.ldxn .w 20 21 17 .unc, 2) ∧
    decodeWords [0b111_01_1_1_0_10001_000#16, 0b011101_0100_0101_01#16] = some (.stx .h 20 21 17 .dflt, 2) ∧
    decodeWords [0b111_00_10000000000#16, 0b011110_0100_0101_00#16] = some (.lea 4 5 0x400, 2) ∧
    decodeWords [0b111_01_0_0_0_01001_001#16, 0b111_00_00000000101#16, 0b011110_0100_0101_10#16] = some (.leaIndexed .w 4 5 9 5, 3) ∧
    decodeWords [0b111_00_00000000001#16, 0b011111_0000_0101_00#16] = some (.pref 5 1, 2) ∧
    decodeWords [0b111_01_0_1_0_00000_000#16, 0b011111_0000_1001_01#16] = some (.cflush 25 0, 2) ∧
    decodeWords [0b111_01_1_0_0_00000_100#16, 0b111_00_11111111110#16, 0b100000_0100_0101_01#16] = some (.ldpk .c6 20 5 0x7FE .unc, 3) ∧
    decodeWords [0b100001_0100_0101_10#16] = some (.stpk .c8 4 5 0 .dflt, 1) := by decide
theorem test_decode_tasks_1 :
    decodeWords [0b111_10_0000_0000_001#16, 0b000000_0000000000#16] = some (.tend, 2) ∧
    decodeWords [0b111_10_0000_0000_001#16, 0b000000_0000000001#16] = some (.yield, 2) ∧
    decodeWords [0b111_10_0000_0000_001#16, 0b000000_0000000010#16] = some (.pubf, 2) ∧
    decodeWords [0b111_10_0000_0000_001#16, 0b000000_0000000011#16] = some (.hend, 2) ∧
    decodeWords [0b111_10_0000_0000_001#16, 0b000001_0111_000000#16] = some (.spawn 7, 2) ∧
    decodeWords [0b111_10_0000_0000_001#16, 0b000001_0111_000001#16] = some (.sync 7, 2) ∧
    decodeWords [0b111_10_0000_1001_001#16, 0b111_01_1_1_1_10001_000#16, 0b000010_0100_0101_00#16] = some (.rfork 20 21 25 17, 3) ∧
    decodeWords [0b111_10_0000_0000_001#16, 0b000011_0011_0101_00#16] = some (.tfanDie 3 5, 2) ∧
    decodeWords [0b111_10_0000_0000_001#16, 0b000011_0011_0101_01#16] = some (.tfanQuire 3 5, 2) ∧
    decodeWords [0b111_10_0000_0000_001#16, 0b000011_0011_0101_10#16] = some (.tfanCore 3 5, 2) ∧
    decodeWords [0b111_10_0000_0000_001#16, 0b111_01_1_1_0_10001_011#16, 0b000100_0100_0101_00#16] = some (.kinitCont 20 21 17 .die, 3) ∧
    decodeWords [0b111_10_0000_0000_001#16, 0b111_01_1_1_0_10001_010#16, 0b111_00_00001011111#16, 0b000100_0100_0101_01#16] = some (.kinitReady 20 21 17 95 .quire, 4) ∧
    decodeWords [0b111_10_0000_0000_001#16, 0b000101_0011_0000_00#16] = some (.kdec 3, 2) ∧
    decodeWords [0b111_10_0000_0000_001#16, 0b000101_0011_0101_01#16] = some (.kadd 3 5, 2) := by decide
theorem test_decode_tasks_2 :
    decodeWords [0b111_10_0000_0000_001#16, 0b001000_0011_0101_00#16] = some (.send 3 5, 2) ∧
    decodeWords [0b111_10_0000_0000_001#16, 0b001000_0011_0101_01#16] = some (.reply 3 5, 2) ∧
    decodeWords [0b111_10_0000_0000_001#16, 0b001001_0011_0000_01#16] = some (.recv .request 3, 2) ∧
    decodeWords [0b111_10_0000_0000_001#16, 0b001010_0000_0000_10#16] = some (.wmsg .reply, 2) ∧
    decodeWords [0b111_10_0000_0000_001#16, 0b111_01_1_1_0_10001_000#16, 0b001100_0100_0101_00#16] = some (.hstart 20 21 17, 3) ∧
    decodeWords [0b111_10_0000_0000_001#16, 0b001101_0011_0101_00#16] = some (.hjoin 3 5, 2) ∧
    decodeWords [0b111_10_0000_0000_001#16, 0b111_01_1_1_0_10001_000#16, 0b010000_0100_0101_00#16] = some (.wlPush 20 21 17, 3) ∧
    decodeWords [0b111_10_0000_0000_001#16, 0b010000_0011_0101_01#16] = some (.wlPop 3 5, 2) ∧
    decodeWords [0b111_10_0000_0000_001#16, 0b010000_0011_0101_10#16] = some (.wlLow 3 5, 2) ∧
    decodeWords [0b111_10_0000_0000_001#16, 0b010000_0011_0101_11#16] = some (.wlDone 3 5, 2) ∧
    decodeWords [0b111_10_0000_0000_001#16, 0b010001_0011_0101_00#16] = some (.donate 3 5, 2) ∧
    decodeWords [0b111_10_0000_0000_001#16, 0b010001_0011_0101_01#16] = some (.claim 3 5, 2) ∧
    decodeWords [0b111_10_0000_0000_001#16, 0b010010_0011_0101_00#16] = some (.cinc 3 5, 2) ∧
    decodeWords [0b111_10_0000_0000_001#16, 0b010010_0011_0000_01#16] = some (.csnap 3, 2) := by decide
theorem test_decode_tasks_3 :
    decodeWords [0b111_10_0000_0000_001#16, 0b010010_0011_0000_10#16] = some (.csnapClr 3, 2) := by decide
theorem test_decode_atomics_1 :
    decodeWords [0b111_10_0000_0000_001#16, 0b111_01_1_1_0_10001_000#16, 0b011000_0100_0101_00#16] = some (.amoAdd .double .relaxed .dev 20 21 17, 3) ∧
    decodeWords [0b111_10_0001_0000_001#16, 0b111_01_1_1_0_10001_001#16, 0b011001_0100_0101_01#16] = some (.amoAnd .word .acq .core 20 21 17, 3) ∧
    decodeWords [0b111_10_0010_0000_001#16, 0b111_01_1_1_0_10001_010#16, 0b011000_0100_0101_10#16] = some (.amoOr .double .rel .quire 20 21 17, 3) ∧
    decodeWords [0b111_10_0011_0000_001#16, 0b111_01_1_1_0_10001_011#16, 0b011001_0100_0101_11#16] = some (.amoXor .word .ar .die 20 21 17, 3) ∧
    decodeWords [0b111_10_0100_0000_001#16, 0b111_01_1_1_0_10001_100#16, 0b011000_0100_0101_00#16] = some (.amoMin .double .relaxed .sys 20 21 17, 3) ∧
    decodeWords [0b111_10_0101_0000_001#16, 0b111_01_1_1_0_10001_000#16, 0b011001_0100_0101_01#16] = some (.amoMax .word .acq .dev 20 21 17, 3) ∧
    decodeWords [0b111_10_0110_0000_001#16, 0b111_01_1_1_0_10001_001#16, 0b011000_0100_0101_10#16] = some (.amoMinn .double .rel .core 20 21 17, 3) ∧
    decodeWords [0b111_10_0111_0000_001#16, 0b111_01_1_1_0_10001_010#16, 0b011001_0100_0101_11#16] = some (.amoMaxn .word .ar .quire 20 21 17, 3) ∧
    decodeWords [0b111_10_1000_0000_001#16, 0b111_01_1_1_0_10001_011#16, 0b011000_0100_0101_00#16] = some (.amoSwap .double .relaxed .die 20 21 17, 3) ∧
    decodeWords [0b111_10_1001_0000_001#16, 0b111_01_1_1_0_10001_100#16, 0b011001_0100_0101_01#16] = some (.amoCas .word .acq .sys 20 21 17, 3) ∧
    decodeWords [0b111_10_1010_0000_001#16, 0b111_01_0_0_0_01001_001#16, 0b011001_0010_1000_01#16] = some (.amoFadd .acq .core 2 8 9, 3) ∧
    decodeWords [0b111_10_1011_0000_001#16, 0b111_01_0_0_0_01001_000#16, 0b011000_0010_1000_11#16] = some (.amoXadd .ar .dev 2 8 9, 3) ∧
    decodeWords [0b111_10_0001_0000_001#16, 0b011010_0011_0101_00#16] = some (.lrD .acq .dev 3 5, 2) ∧
    decodeWords [0b111_10_0010_0000_001#16, 0b111_01_0_0_0_00000_100#16, 0b011010_0011_0101_01#16] = some (.lrW .rel .sys 3 5, 3) := by decide
theorem test_decode_atomics_2 :
    decodeWords [0b111_10_0011_0000_001#16, 0b111_01_0_0_0_01001_010#16, 0b011010_0011_0101_10#16] = some (.scD .ar .quire 3 5 9, 3) ∧
    decodeWords [0b111_10_0000_0000_001#16, 0b111_01_0_0_0_01001_000#16, 0b011010_0011_0101_11#16] = some (.scW .relaxed .dev 3 5 9, 3) ∧
    decodeWords [0b111_10_0000_0000_001#16, 0b011011_0000_0000_00#16] = some (.fence none .dev, 2) ∧
    decodeWords [0b111_10_0000_0000_001#16, 0b111_01_1_0_0_00000_100#16, 0b011011_0100_0001_01#16] = some (.fenceAcq (some 20) .sys, 3) ∧
    decodeWords [0b111_10_0000_0000_001#16, 0b111_01_0_0_0_00000_011#16, 0b011011_0000_0000_10#16] = some (.fenceRel none .die, 3) ∧
    decodeWords [0b111_10_0000_0000_001#16, 0b011100_0000_0000_00#16] = some (.wrs, 2) ∧
    decodeWords [0b111_10_0000_0000_001#16, 0b011100_0011_0101_01#16] = some (.waitaddr 3 5, 2) ∧
    decodeWords [0b111_10_0000_0000_001#16, 0b011101_0000_0000_00#16] = some (.barQuire, 2) ∧
    decodeWords [0b111_10_0000_0000_001#16, 0b011101_0000_0000_01#16] = some (.barDie, 2) ∧
    decodeWords [0b111_10_0000_0000_001#16, 0b011101_0000_0000_10#16] = some (.barDev, 2) ∧
    decodeWords [0b111_10_0000_0000_001#16, 0b011101_0000_0000_11#16] = some (.barSys, 2) := by decide
theorem test_decode_vectorInt_1 :
    decodeWords [0b111_10_0000_0000_010#16, 0b111_01_1_1_0_10001_101#16, 0b000000_0100_0101_00#16] = some (.vadd .i4 20 17 21 5, 3) ∧
    decodeWords [0b111_10_0001_0000_010#16, 0b111_01_1_1_0_10001_101#16, 0b000000_0100_0101_01#16] = some (.vsub .n4 20 17 21 5, 3) ∧
    decodeWords [0b111_10_0010_0000_010#16, 0b111_01_1_1_0_10001_101#16, 0b000000_0100_0101_10#16] = some (.vmul .i6 20 17 21 5, 3) ∧
    decodeWords [0b111_10_0011_0000_010#16, 0b111_01_1_1_0_10001_101#16, 0b000000_0100_0101_11#16] = some (.vmulh .n6 20 17 21 5, 3) ∧
    decodeWords [0b111_10_0100_0000_010#16, 0b111_01_1_1_0_10001_101#16, 0b000001_0100_0101_00#16] = some (.vadds .i8 20 17 21 5, 3) ∧
    decodeWords [0b111_10_0101_0000_010#16, 0b111_01_1_1_0_10001_101#16, 0b000001_0100_0101_01#16] = some (.vsubs .n8 20 17 21 5, 3) ∧
    decodeWords [0b111_10_0110_0000_010#16, 0b111_01_1_1_0_00000_101#16, 0b000001_0100_0101_10#16] = some (.vabs .i16 20 21 5, 3) ∧
    decodeWords [0b111_10_1000_0000_010#16, 0b111_01_1_1_0_00000_101#16, 0b000001_0100_0101_11#16] = some (.vneg .i32 20 21 5, 3) ∧
    decodeWords [0b111_10_0110_0000_010#16, 0b111_01_1_1_0_10001_101#16, 0b000010_0100_0101_00#16] = some (.vmin .i16 20 17 21 5, 3) ∧
    decodeWords [0b111_10_0111_0000_010#16, 0b111_01_1_1_0_10001_101#16, 0b000010_0100_0101_01#16] = some (.vmax .n16 20 17 21 5, 3) ∧
    decodeWords [0b111_10_1000_0000_010#16, 0b111_01_1_1_0_10001_101#16, 0b000010_0100_0101_10#16] = some (.vmac .i32 20 17 21 5, 3) ∧
    decodeWords [0b111_10_1001_0000_010#16, 0b111_01_1_1_0_10001_101#16, 0b000010_0100_0101_11#16] = some (.vmacs .n32 20 17 21 5, 3) ∧
    decodeWords [0b111_10_1010_0000_010#16, 0b111_01_1_1_0_10001_101#16, 0b000011_0100_0101_00#16] = some (.vshl .i64 20 17 21 5, 3) ∧
    decodeWords [0b111_10_1011_0000_010#16, 0b111_01_1_1_0_10001_101#16, 0b000011_0100_0101_01#16] = some (.vshr .n64 20 17 21 5, 3) := by decide
theorem test_decode_vectorInt_2 :
    decodeWords [0b111_10_0000_0000_010#16, 0b111_01_1_1_0_10001_101#16, 0b000011_0100_0101_10#16] = some (.vsra .i4 20 17 21 5, 3) ∧
    decodeWords [0b111_10_0001_0000_010#16, 0b111_01_1_1_0_10001_101#16, 0b000011_0100_0101_11#16] = some (.vrotl .n4 20 17 21 5, 3) ∧
    decodeWords [0b111_10_0010_0000_010#16, 0b111_01_1_1_0_10001_101#16, 0b000100_0100_0101_00#16] = some (.vand .i6 20 17 21 5, 3) ∧
    decodeWords [0b111_10_0011_0000_010#16, 0b111_01_1_1_0_10001_101#16, 0b000100_0100_0101_01#16] = some (.vor .n6 20 17 21 5, 3) ∧
    decodeWords [0b111_10_0100_0000_010#16, 0b111_01_1_1_0_10001_101#16, 0b000100_0100_0101_10#16] = some (.vxor .i8 20 17 21 5, 3) ∧
    decodeWords [0b111_10_0101_0000_010#16, 0b111_01_1_1_0_10001_101#16, 0b000100_0100_0101_11#16] = some (.vandn .n8 20 17 21 5, 3) ∧
    decodeWords [0b111_10_0110_0000_010#16, 0b111_01_1_1_0_00000_101#16, 0b000101_0100_0101_00#16] = some (.vnot .i16 20 21 5, 3) ∧
    decodeWords [0b111_10_0111_0000_010#16, 0b111_01_1_1_0_00000_101#16, 0b000101_0100_0101_01#16] = some (.vmov .n16 20 21 5, 3) := by decide
theorem test_decode_vectorMove_1 :
    decodeWords [0b111_10_1000_0000_010#16, 0b111_01_1_1_0_00000_101#16, 0b000101_0100_0101_10#16] = some (.vbcast .i32 20 21 5, 3) ∧
    decodeWords [0b111_10_1000_0110_010#16, 0b111_01_1_1_0_10001_101#16, 0b000101_0100_0101_11#16] = some (.vsel .i32 20 17 21 6 5, 3) ∧
    decodeWords [0b111_10_0000_0000_010#16, 0b111_01_1_1_0_00000_101#16, 0b000110_0100_0101_00#16] = some (.vclz .i4 20 21 5, 3) ∧
    decodeWords [0b111_10_0011_0000_010#16, 0b111_01_1_1_0_00000_101#16, 0b000110_0100_0101_01#16] = some (.vctz .n6 20 21 5, 3) ∧
    decodeWords [0b111_10_0110_0000_010#16, 0b111_01_1_1_0_00000_101#16, 0b000110_0100_0101_10#16] = some (.vffs .i16 20 21 5, 3) ∧
    decodeWords [0b111_10_1001_0000_010#16, 0b111_01_1_1_0_00000_101#16, 0b000110_0100_0101_11#16] = some (.vpop .n32 20 21 5, 3) ∧
    decodeWords [0b111_10_0000_0000_010#16, 0b111_01_0_1_0_10001_101#16, 0b000111_0111_0101_00#16] = some (.vcmpEq .i4 7 17 21 5, 3) ∧
    decodeWords [0b111_10_0001_0000_010#16, 0b111_01_0_1_0_10001_101#16, 0b000111_0111_0101_01#16] = some (.vcmpNe .n4 7 17 21 5, 3) ∧
    decodeWords [0b111_10_0010_0000_010#16, 0b111_01_0_1_0_10001_101#16, 0b000111_0111_0101_10#16] = some (.vcmpLt .i6 7 17 21 5, 3) ∧
    decodeWords [0b111_10_0011_0000_010#16, 0b111_01_0_1_0_10001_101#16, 0b000111_0111_0101_11#16] = some (.vcmpGe .n6 7 17 21 5, 3) ∧
    decodeWords [0b111_10_1000_0000_010#16, 0b111_00_00000011111#16, 0b001000_0011_0101_00#16] = some (.vext .i32 3 5 31, 3) ∧
    decodeWords [0b111_10_1000_0000_010#16, 0b111_00_00000011111#16, 0b001000_0011_0101_01#16] = some (.vins .i32 3 5 31, 3) ∧
    decodeWords [0b111_10_1000_0000_010#16, 0b111_01_1_1_0_10001_101#16, 0b001000_0100_0101_10#16] = some (.vperm .i32 20 17 21 5, 3) ∧
    decodeWords [0b111_10_1000_0000_010#16, 0b111_01_1_1_0_10001_101#16, 0b111_00_11111100000#16, 0b001000_0100_0101_11#16] = some (.vslide .i32 20 17 21 0x7E0 5, 4) := by decide
theorem test_decode_vectorMove_2 :
    decodeWords [0b111_10_0100_0000_010#16, 0b111_01_1_1_0_00000_101#16, 0b001001_0100_0101_00#16] = some (.vredsum .i8 20 21 5, 3) ∧
    decodeWords [0b111_10_0101_0000_010#16, 0b111_01_1_1_0_00000_101#16, 0b001001_0100_0101_01#16] = some (.vredmin .n8 20 21 5, 3) ∧
    decodeWords [0b111_10_0110_0000_010#16, 0b111_01_1_1_0_00000_101#16, 0b001001_0100_0101_10#16] = some (.vredmax .i16 20 21 5, 3) ∧
    decodeWords [0b111_10_0111_0000_010#16, 0b111_01_1_1_0_00000_101#16, 0b001001_0100_0101_11#16] = some (.vscan .n16 20 21 5, 3) ∧
    decodeWords [0b111_10_1011_0000_010#16, 0b111_01_1_1_0_00000_101#16, 0b111_00_11111111111#16, 0b001100_0100_0101_00#16] = some (.vld .n64 20 21 0x7FF 5, 4) ∧
    decodeWords [0b111_10_0000_0000_010#16, 0b001100_0100_0101_01#16] = some (.vst .i4 4 5 0 0, 2) ∧
    decodeWords [0b111_10_1010_0000_010#16, 0b111_01_1_1_0_10001_101#16, 0b001100_0100_0101_10#16] = some (.vldx .i64 20 21 17 5, 3) ∧
    decodeWords [0b111_10_0101_0000_010#16, 0b111_01_1_1_0_10001_101#16, 0b001100_0100_0101_11#16] = some (.vstx .n8 20 21 17 5, 3) ∧
    decodeWords [0b111_10_0000_0000_010#16, 0b111_01_0_0_0_00011_000#16, 0b001101_0000_0111_00#16] = some (.mand 0 3 7, 3) ∧
    decodeWords [0b111_10_0000_0000_010#16, 0b111_01_0_0_0_00011_000#16, 0b001101_0000_0111_01#16] = some (.mor 0 3 7, 3) ∧
    decodeWords [0b111_10_0000_0000_010#16, 0b111_01_0_0_0_00011_000#16, 0b001101_0000_0111_10#16] = some (.mxor 0 3 7, 3) ∧
    decodeWords [0b111_10_0000_0000_010#16, 0b111_01_0_0_0_00011_000#16, 0b001101_0000_0111_11#16] = some (.mandn 0 3 7, 3) ∧
    decodeWords [0b111_10_0000_0000_010#16, 0b001110_0001_0110_00#16] = some (.mnot 1 6, 2) ∧
    decodeWords [0b111_10_0000_0000_010#16, 0b001110_0001_0110_01#16] = some (.mmov 1 6, 2) := by decide
theorem test_decode_vectorMove_3 :
    decodeWords [0b111_10_0110_0000_010#16, 0b111_01_1_0_0_00000_000#16, 0b001110_0100_0110_10#16] = some (.mpop .i16 20 6, 3) ∧
    decodeWords [0b111_10_0110_0000_010#16, 0b111_01_1_0_0_00000_000#16, 0b001110_0100_0110_11#16] = some (.mffs .i16 20 6, 3) := by decide
theorem test_decode_float_1 :
    decodeWords [0b111_10_0000_0000_011#16, 0b111_01_1_1_0_10001_101#16, 0b111_00_00000000000#16, 0b000000_0100_0101_00#16] = some (.vfadd .f32 20 17 21 5 (some .nearest), 4) ∧
    decodeWords [0b111_10_0001_0000_011#16, 0b111_01_1_1_0_10001_101#16, 0b111_00_00000000001#16, 0b000000_0100_0101_01#16] = some (.vfsub .bf16 20 17 21 5 (some .zero), 4) ∧
    decodeWords [0b111_10_0010_0000_011#16, 0b111_01_1_1_0_10001_101#16, 0b111_00_00000000010#16, 0b000000_0100_0101_10#16] = some (.vfmul .f16 20 17 21 5 (some .stochastic), 4) ∧
    decodeWords [0b111_10_0011_0000_011#16, 0b111_01_1_1_0_10001_101#16, 0b111_00_00000000000#16, 0b000000_0100_0101_11#16] = some (.vfdiv (.fm 0) 20 17 21 5 (some .nearest), 4) ∧
    decodeWords [0b111_10_0000_1001_011#16, 0b111_01_1_1_1_10001_101#16, 0b000001_0100_0101_00#16] = some (.vfma .f32 20 17 21 25 5 none, 3) ∧
    decodeWords [0b111_10_0001_1001_011#16, 0b111_01_1_1_1_10001_101#16, 0b000001_0100_0101_01#16] = some (.vfms .bf16 20 17 21 25 5 none, 3) ∧
    decodeWords [0b111_10_0010_1001_011#16, 0b111_01_1_1_1_10001_101#16, 0b000001_0100_0101_10#16] = some (.vfnma .f16 20 17 21 25 5 none, 3) ∧
    decodeWords [0b111_10_0011_1001_011#16, 0b111_01_1_1_1_10001_101#16, 0b000001_0100_0101_11#16] = some (.vfnms (.fm 0) 20 17 21 25 5 none, 3) ∧
    decodeWords [0b111_10_0100_0000_011#16, 0b111_01_1_1_0_10001_101#16, 0b000010_0100_0101_00#16] = some (.vfmin (.fm 1) 20 17 21 5, 3) ∧
    decodeWords [0b111_10_0101_0000_011#16, 0b111_01_1_1_0_10001_101#16, 0b000010_0100_0101_01#16] = some (.vfmax (.fm 2) 20 17 21 5, 3) ∧
    decodeWords [0b111_10_0110_0000_011#16, 0b111_01_1_1_0_00000_101#16, 0b000010_0100_0101_10#16] = some (.vfabs (.fm 3) 20 21 5, 3) ∧
    decodeWords [0b111_10_0111_0000_011#16, 0b111_01_1_1_0_00000_101#16, 0b000010_0100_0101_11#16] = some (.vfneg .tb 20 21 5, 3) ∧
    decodeWords [0b111_10_0000_0000_011#16, 0b111_01_1_1_0_00000_101#16, 0b111_00_00000000010#16, 0b000011_0100_0101_00#16] = some (.vfsqrt .f32 20 21 5 (some .stochastic), 4) ∧
    decodeWords [0b111_10_0001_0000_011#16, 0b111_01_1_1_0_00000_101#16, 0b111_00_00000000000#16, 0b000011_0100_0101_01#16] = some (.vfrcp .bf16 20 21 5 (some .nearest), 4) := by decide
theorem test_decode_float_2 :
    decodeWords [0b111_10_0000_0000_011#16, 0b111_01_0_1_0_10001_101#16, 0b000100_0111_0101_00#16] = some (.vfcmpEq .f32 7 17 21 5, 3) ∧
    decodeWords [0b111_10_0001_0000_011#16, 0b111_01_0_1_0_10001_101#16, 0b000100_0111_0101_01#16] = some (.vfcmpLt .bf16 7 17 21 5, 3) ∧
    decodeWords [0b111_10_0010_0000_011#16, 0b111_01_0_1_0_10001_101#16, 0b000100_0111_0101_10#16] = some (.vfcmpLe .f16 7 17 21 5, 3) ∧
    decodeWords [0b111_10_0011_0000_011#16, 0b111_01_0_1_0_10001_101#16, 0b000100_0111_0101_11#16] = some (.vfcmpUn (.fm 0) 7 17 21 5, 3) ∧
    decodeWords [0b111_10_0010_0000_011#16, 0b111_01_1_1_0_00000_101#16, 0b111_00_00000000001#16, 0b000101_0100_0101_00#16] = some (.vfredsum .f16 20 21 5 (some .zero), 4) ∧
    decodeWords [0b111_10_0011_0000_011#16, 0b111_01_1_1_0_00000_101#16, 0b111_00_00000000010#16, 0b000101_0100_0101_01#16] = some (.vfredmin (.fm 0) 20 21 5 (some .stochastic), 4) ∧
    decodeWords [0b111_10_0100_0000_011#16, 0b111_01_1_1_0_00000_101#16, 0b111_00_00000000000#16, 0b000101_0100_0101_10#16] = some (.vfredmax (.fm 1) 20 21 5 (some .nearest), 4) ∧
    decodeWords [0b111_10_0101_0000_011#16, 0b111_01_1_1_0_00000_101#16, 0b111_00_00000000001#16, 0b000101_0100_0101_11#16] = some (.vfscan (.fm 2) 20 21 5 (some .zero), 4) ∧
    decodeWords [0b111_10_0001_0011_011#16, 0b111_01_1_1_0_00000_101#16, 0b000110_0100_0101_00#16] = some (.vcvtFf .bf16 (.fm 0) 20 21 5 none, 3) ∧
    decodeWords [0b111_10_0110_0010_011#16, 0b111_01_1_1_0_00000_101#16, 0b111_00_00000000001#16, 0b000110_0100_0101_01#16] = some (.vcvtFi .i16 .f16 20 21 5 (some .zero), 4) ∧
    decodeWords [0b111_10_0010_0110_011#16, 0b111_01_1_1_0_00000_101#16, 0b000110_0100_0101_10#16] = some (.vcvtIf .f16 .i16 20 21 5 none, 3) ∧
    decodeWords [0b111_10_0001_0000_011#16, 0b111_01_1_1_0_10001_000#16, 0b000111_0100_0101_00#16] = some (.vpack .bf16 20 17 21 none, 3) ∧
    decodeWords [0b111_10_0011_0000_011#16, 0b111_01_1_1_0_10001_000#16, 0b000111_0100_0101_01#16] = some (.vunpack (.fm 0) 20 17 21 none, 3) ∧
    decodeWords [0b111_10_0000_0000_011#16, 0b111_01_1_1_0_00000_101#16, 0b001000_0100_0101_00#16] = some (.vrng 20 21 5, 3) := by decide
theorem test_decode_matrix_1 :
    decodeWords [0b111_10_0000_0000_100#16, 0b000000_0101_0000_00#16] = some (.mcfg 5, 2) ∧
    decodeWords [0b111_10_0000_0000_100#16, 0b000001_0011_0000_00#16] = some (.mzero 3, 2) ∧
    decodeWords [0b111_10_0000_0000_100#16, 0b111_01_0_1_0_10001_000#16, 0b000010_0010_0101_00#16] = some (.mmac 2 17 21, 3) ∧
    decodeWords [0b111_10_0000_0000_100#16, 0b111_01_0_1_0_10001_000#16, 0b000010_0010_0101_01#16] = some (.msmac 2 17 21, 3) ∧
    decodeWords [0b111_10_0000_0000_100#16, 0b000011_0001_0101_00#16] = some (.mrect 1 5, 2) ∧
    decodeWords [0b111_10_0000_0011_100#16, 0b111_01_1_1_0_00000_000#16, 0b000100_0100_0101_00#16] = some (.mrowRd 20 21 3, 3) ∧
    decodeWords [0b111_10_0000_0011_100#16, 0b111_01_1_1_0_00000_000#16, 0b000100_0100_0101_01#16] = some (.mrowWr 20 21 3, 3) ∧
    decodeWords [0b111_10_0000_0000_100#16, 0b000101_0010_0101_00#16] = some (.mscale 2 5, 2) ∧
    decodeWords [0b111_10_0000_0000_100#16, 0b000101_0110_0000_01#16] = some (.mstat 6, 2) ∧
    decodeWords [0b111_10_0000_0000_100#16, 0b001000_0110_0000_00#16] = some (.cp 6, 2) ∧
    decodeWords [0b111_10_0000_0000_100#16, 0b001000_0110_0000_01#16] = some (.cpm 6, 2) ∧
    decodeWords [0b111_10_0000_0000_100#16, 0b001000_0110_0000_10#16] = some (.cpc 6, 2) ∧
    decodeWords [0b111_10_0000_0000_100#16, 0b001000_0110_0000_11#16] = some (.cpw 6, 2) ∧
    decodeWords [0b111_10_0000_0000_100#16, 0b001001_0000000000#16] = some (.cpfence, 2) := by decide
theorem test_decode_matrix_2 :
    decodeWords [0b111_10_0000_0000_100#16, 0b001010_0010_0110_00#16] = some (.cdcfgConfigure 2 6, 2) ∧
    decodeWords [0b111_10_0000_0000_100#16, 0b001100_0101_010000#16] = some (.rep 5 16, 2) ∧
    decodeWords [0b111_10_0000_0000_100#16, 0b001101_0101_010000#16] = some (.repx 5 16, 2) := by decide
theorem test_decode_sewing :
    decodeWords [0b111_10_0000_0000_101#16, 0b000000_0101_0000_00#16] = some (.phBegin 5, 2) ∧
    decodeWords [0b111_10_0000_0000_101#16, 0b000000_0000_0000_01#16] = some (.phEnd, 2) ∧
    decodeWords [0b111_10_0000_0000_101#16, 0b111_01_1_0_0_00000_000#16, 0b000001_0101_0100_00#16] = some (.tx 21 .rowBus, 3) ∧
    decodeWords [0b111_10_0000_0000_101#16, 0b000001_0101_0011_01#16] = some (.mux .colBus .west, 2) ∧
    decodeWords [0b111_10_0000_0000_101#16, 0b000001_0110_0010_10#16] = some (.rxw 6 .south, 2) ∧
    decodeWords [0b111_10_0000_0000_101#16, 0b000100_0101_0000_00#16] = some (.gload 5, 2) ∧
    decodeWords [0b111_10_0000_0000_101#16, 0b000100_0101_0110_01#16] = some (.gstep 5 6, 2) ∧
    decodeWords [0b111_10_0000_0000_101#16, 0b000100_0101_0110_10#16] = some (.gmask 5 6, 2) ∧
    decodeWords [0b111_10_0000_0000_101#16, 0b000100_0101_0000_11#16] = some (.gstate 5, 2) ∧
    decodeWords [0b111_10_0000_0000_101#16, 0b000101_0101_0110_00#16] = some (.sampF32 5 6, 2) ∧
    decodeWords [0b111_10_0000_0000_101#16, 0b000101_0101_0110_01#16] = some (.sampBf16 5 6, 2) := by decide
theorem test_decode_system_1 :
    decodeWords [0b111_10_0000_0000_110#16, 0b000000_0000000001#16] = some (.rti, 2) ∧
    decodeWords [0b111_10_0000_0000_110#16, 0b000000_0000000010#16] = some (.upret, 2) ∧
    decodeWords [0b111_10_0000_0000_110#16, 0b000000_0000000011#16] = some (.idle, 2) ∧
    decodeWords [0b111_10_0000_0000_110#16, 0b000000_0000000100#16] = some (.halt, 2) ∧
    decodeWords [0b111_10_0000_0000_110#16, 0b111_00_11111111111#16, 0b000001_0000_111111#16] = some (.trap 0x1FFFF, 3) ∧
    decodeWords [0b111_10_0000_0000_110#16, 0b111_01_1_0_0_00000_000#16, 0b000010_0100_110011#16] = some (.csrr 20 0x33, 3) ∧
    decodeWords [0b111_10_0000_0000_110#16, 0b111_01_1_0_0_00000_000#16, 0b000011_0100_110011#16] = some (.csrw 20 0x33, 3) ∧
    decodeWords [0b111_10_0000_0000_110#16, 0b111_01_1_0_0_00000_000#16, 0b000100_0100_110011#16] = some (.csrs 20 0x33, 3) ∧
    decodeWords [0b111_10_0000_0000_110#16, 0b111_01_1_0_0_00000_000#16, 0b000101_0100_110011#16] = some (.csrc 20 0x33, 3) ∧
    decodeWords [0b111_10_0000_0000_110#16, 0b000110_0000_0000_00#16] = some (.tlbinvAll, 2) ∧
    decodeWords [0b111_10_0000_0000_110#16, 0b111_01_0_1_0_00000_000#16, 0b000110_0000_0101_01#16] = some (.tlbinvVa 21, 3) ∧
    decodeWords [0b111_10_0000_0000_110#16, 0b001000_0101_0110_00#16] = some (.bdef 5 6, 2) ∧
    decodeWords [0b111_10_0000_0000_110#16, 0b001000_0101_0110_01#16] = some (.bshare 5 6, 2) ∧
    decodeWords [0b111_10_0000_0000_110#16, 0b001000_0101_0110_10#16] = some (.bresize 5 6, 2) := by decide
theorem test_decode_system_2 :
    decodeWords [0b111_10_0000_0000_110#16, 0b001000_0101_0110_11#16] = some (.bquery 5 6, 2) := by decide
/-- zero word; SC version 3; two IX; page 0 named; page 7; nop with RX; add with IX; mov with C; branch without IX; function 3 of 0x08; unassigned 0x22: no instruction. -/
theorem test_decode_refused_1 :
    decodeWords [0b000000_0000_0000_00#16] = none ∧
    decodeWords [0b111_11_11_111111111#16] = none ∧
    decodeWords [0b111_00_00000000001#16, 0b111_00_00000000101#16, 0b000001_0011_0101_00#16] = none ∧
    decodeWords [0b111_10_0000_0000_000#16, 0b000001_0011_0101_00#16] = none ∧
    decodeWords [0b111_10_0000_0000_111#16, 0b000001_0011_0101_00#16] = none ∧
    decodeWords [0b111_01_0_0_0_00000_000#16, 0b000000_0000000001#16] = none ∧
    decodeWords [0b111_00_00000000001#16, 0b000001_0011_0101_00#16] = none ∧
    decodeWords [0b111_01_0_0_0_00001_000#16, 0b001000_0011_0101_10#16] = none ∧
    decodeWords [0b010011_0011_0000_00#16] = none ∧
    decodeWords [0b001000_0011_0101_11#16] = none ∧
    decodeWords [0b100010_0000_0000_00#16] = none := by decide
/-- request 5; odd register of a 12-byte block; fadd on a double; scope 5; type 12; mask m8; rounding 3; acc4; rep of 17; port 6; home 96: no instruction. -/
theorem test_decode_refused_2 :
    decodeWords [0b111_01_0_0_0_00000_101#16, 0b011000_0011_0101_00#16] = none ∧
    decodeWords [0b100000_0011_0101_01#16] = none ∧
    decodeWords [0b111_10_1010_0000_001#16, 0b111_01_0_0_0_01001_000#16, 0b011000_0010_1000_00#16] = none ∧
    decodeWords [0b111_10_0000_0000_001#16, 0b111_01_0_0_0_00000_101#16, 0b011011_0000_0000_00#16] = none ∧
    decodeWords [0b111_10_1100_0000_010#16, 0b000000_0011_0101_00#16] = none ∧
    decodeWords [0b111_10_0000_0000_010#16, 0b111_01_0_0_0_00001_000#16, 0b001101_1000_0001_00#16] = none ∧
    decodeWords [0b111_10_0000_0000_011#16, 0b111_00_00000000011#16, 0b000000_0011_0101_00#16] = none ∧
    decodeWords [0b111_10_0000_0000_100#16, 0b000001_0100_0000_00#16] = none ∧
    decodeWords [0b111_10_0000_0000_100#16, 0b001100_0101_010001#16] = none ∧
    decodeWords [0b111_10_0000_0000_101#16, 0b000001_0110_0110_10#16] = none ∧
    decodeWords [0b111_10_0000_0000_001#16, 0b111_01_1_1_0_10001_010#16, 0b111_00_00001100000#16, 0b000100_0100_0101_01#16] = none := by decide

/-! ### Statements about page 0 and exceptions -/

theorem test_witness_ArithmeticComputesOverTheIntegers :
    (at0 0x8000000000000000 (-1) 7).issue.stay = false ∧
    nextIs (exec (.div 4 1 2) (at0 0x8000000000000000 (-1) 7)) (fun t => t.w 4 = 0x8000000000000000) = true ∧
    nextIs (exec (.rem 4 3 5) (at0 0x8000000000000000 (-1) 7)) (fun t => t.w 4 = 7) = true ∧
    nextIs (exec (.mulh 4 1 2) (at0 0x8000000000000000 (-1) 7)) (fun t => t.w 4 = 0) = true := by decide
theorem test_witness_IntegerBitForms :
    (at0 0x00F0 0x0704 0).issue.stay = false ∧
    nextIs (exec (.bext 4 1 2) (at0 0x00F0 0x0704 0)) (fun t => t.w 4 = 0xF) = true ∧
    nextIs (exec (.clz 4 3) (at0 0x00F0 0x0704 0)) (fun t => t.w 4 = 64) = true ∧
    nextIs (exec (.sextB 4 1) (at0 0x00F0 0x0704 0)) (fun t => t.w 4 = 0xFFFFFFFFFFFFFFF0) = true := by decide
theorem test_witness_LogicMovesAndConstants :
    (at0 0x8000000000000000 0x41 0).issue.stay = false ∧
    nextIs (exec (.sra 4 1 2) (at0 0x8000000000000000 0x41 0)) (fun t => t.w 4 = 0xC000000000000000) = true ∧
    nextIs (exec (.slt 4 1 2) (at0 0x8000000000000000 0x41 0)) (fun t => t.w 4 = BitVec.allOnes 64) = true ∧
    nextIs (exec (.lix 2 3) (at0 0x8000000000000000 0x41 0)) (fun t => t.w 2 = 0x820003) = true := by decide
theorem test_witness_BranchesAndJumps :
    (at0 0x2000 0 0).issue.stay = false ∧ ((at0 0x2000 0 0).w 1).toNat % 2 = 0 ∧ ((at0 0x2000 0 0).w 14).toNat % 2 = 0 ∧
    nextIs (exec (.brLt 2 1 0x7FF) (at0 0x2000 0 0)) (fun t => t.myCtx.pc = 0xFFE) = true ∧
    nextIs (exec (.jal 0x1FFFFF) (at0 0x2000 0 0)) (fun t => t.w 14 = 0x1002 && t.myCtx.pc = 0xFFE) = true := by decide
theorem test_witness_ScalarLoadsAndStores :
    let s := withBytes (at0 (L 0x3FFF8) 0 0x1234) 0x3FFF8 [0x80, 0xFF, 0, 0, 0, 0, 0, 0x81]
    s.issue.stay = false ∧ OwnBytes s (s.w 1 + BitVec.ofInt 64 ((0 : BitVec 11).toInt * 8)) 8 8 0x3FFF8 ∧
    OwnBytes s (s.w 1 + BitVec.ofInt 64 ((s.w 2).toInt * 2)) 2 2 0x3FFF8 ∧
    nextIs (exec (.ld .h 4 1 0 .dflt) s) (fun t => t.w 4 = 0xFFFFFFFFFFFFFF80) = true ∧
    nextIs (exec (.ldxn .h 4 1 2 .wt) s) (fun t => t.w 4 = 0xFF80) = true ∧
    nextIs (exec (.st .h 3 1 0 .dflt) s) (fun t => t.ownBytes 0x3FFF8 3 = [0x34, 0x12, 0]) = true := by
  simp only [OwnBytes]; decide
theorem test_witness_ScalarAccessesBehindAHomeBinding :
    let s := withHbm ((at0 0x800 0 0x55).onCsr fun c => { c with status := 0 }) 0x800 [1, 2]
    let va := s.w 1 + BitVec.ofInt 64 ((0 : BitVec 11).toInt * 2)
    s.issue.stay = false ∧ s.csr.ph = false ∧ regionOf va = .user ∧ s.trained = true ∧
    Ok (checkAccess va 2 .load s) (fun p u => p = .hbm 0x800 0 && (u.binding 0).rec'.home && u.noc.fills = [] && u.myCtx.got = [] &&
      u.quires = [] && u.badHbm = [] && !u.owned (.hbm 0x800 0) 2) ∧ Ok (checkAccess va 2 .store s) (fun p _ => p = .hbm 0x800 0) ∧
    nextIs (exec (.ldn .h 4 1 0 .dflt) s) (fun t => t.w 4 = 0x201) = true :=
  ⟨by decide, by decide, by decide, by decide, okIs_some (by decide +kernel), okIs_some (by decide +kernel), by decide +kernel⟩
theorem test_witness_AccessChecks :
    let s := at0 (L 0x101) 0x801 0x0100000000000000
    let u := inUser 0xFF00000000000000 0 0
    s.csr.ph = false ∧ regionOf (s.w 1) = .loc 0 0 0x101 ∧ regionOf (s.w 2) = .user ∧ (s.w 1).toNat % 2 ≠ 0 ∧
    (s.w 2).toNat % 8 ≠ 0 ∧ regionOf (s.w 3) = .bad ∧ u.csr.ph = false ∧ regionOf (u.w 1) = .super ∧ u.mode ≠ 2 ∧
    nextIs (exec (.ld .d 4 2 0 .dflt) s) (fun t => t.csr.tcause = 3 && t.csr.tval = 0x801) = true ∧
    nextIs (exec (.ld .d 4 1 0 .dflt) u) (fun t => t.csr.tcause = 2 && t.csr.tval = 0xFF00000000000000) = true := by decide
/-- A store of two bytes waits in the buffer of core 0. -/
def draining : State :=
  let s := (at0 0 0 0).onCore 0 fun c => { c with sb := [⟨0, [⟨.spad 0 0x40, L 0x40, .dflt, storeBytes [7, 0]⟩]⟩] }
  { withBytes s 0x41 [9] with turn := { core := 0 } }
theorem test_witness_StoreBufferDrainPerformsTheOldestStore :
    draining.memWf ∧ (draining.core 0).sb = [⟨0, [⟨.spad 0 0x40, L 0x40, .dflt, storeBytes [7, 0]⟩]⟩] ∧
    draining.storeReady 0 ⟨0, [⟨.spad 0 0x40, L 0x40, .dflt, storeBytes [7, 0]⟩]⟩ = true ∧ (draining.core 0).bad = [] ∧
    draining.granules = [] ∧ draining.watches = [] ∧
    nextIs (exec .storeBufferDrain draining) (fun t => (t.core 0).spad = [(0x40, 7)] && (t.core 0).sb = []) = true :=
  ⟨memWf_of _ (by decide), by decide, by decide, by decide, by decide, by decide, by decide⟩
theorem test_witness_TakingAnException :
    let s := inUser 0 0 0
    let d := s.onCsr fun c => { c with status := 0x10 }
    let z := s.onCsr fun c => { c with tvec := 0, upvec := 0 }
    let u := at0 0 0 0
    let h := asHelper s 3
    s.ctx = 0 ∧ s.issue.reissue = false ∧ s.csr.tk = false ∧ s.csr.tvec ≠ 0 ∧ d.csr.tk = true ∧ z.csr.tvec = 0 ∧
    s.csr.mode = 0 ∧ s.csr.upvec ≠ 0 ∧ u.csr.mode ≠ 0 ∧ z.csr.upvec = 0 ∧ u.csr.tk = false ∧ u.csr.tvec ≠ 0 ∧ h.ctx ≠ 0 ∧
    (s.deliver (.trap 0x13 5)).csr.epc = 0x1002 ∧ (s.deliver (.trap 1 5)).csr.epc = 0x1000 ∧
    (s.deliver (.trap 1 5)).csr.status = 0x12 ∧ (s.deliver (.upcall 0x21 5)).csr.status = 1 ∧
    (d.deliver (.trap 1 5)).me.run = .stopped ∧ (h.deliver (.trap 1 5)).myCtx.hstat = 3 := by decide
theorem test_witness_TrapsReturnsAndIllegalEncodings_returns :
    let s := inUser 0 0 0
    let r := s.onCsr fun c => { c with status := 0x36, epc := 0x4000 }
    let u := s.onCsr fun c => { c with status := 0x15, upepc := 0x6000 }
    CtlReady s 0 ∧ s.csr.tk = false ∧ s.csr.tvec ≠ 0 ∧ s.mode ≠ 2 ∧
    CtlReady r 2 ∧ r.csr.epc.getLsbD 0 = false ∧ r.csr.pmode ≠ 3 ∧
    CtlReady u 1 ∧ u.mode = 1 ∧ u.csr.upepc.getLsbD 0 = false ∧
    nextIs (exec (.trap 0x1ABCD) s) (fun t => t.csr.tval = 0x1ABCD && t.csr.epc = 0x1002) = true ∧
    nextIs (exec .rti r) (fun t => t.csr.status = 0x25 && t.myCtx.pc = 0x4000) = true ∧
    nextIs (exec .upret u) (fun t => t.csr.status = 0x14 && t.myCtx.pc = 0x6000) = true := by
  simp only [CtlReady]; decide
theorem test_witness_SystemRegisters_access :
    let s := at0 0x8001 0 0
    CtlReady s 2 ∧ regModes 0x01 = some (2, some 2) ∧ plainRegister 0x01 = true ∧ regModes 0x3F = none ∧
    (inUser 0 0 0).ctx = 0 ∧ (inUser 0 0 0).mode < 2 ∧ CtlReady (inUser 0 0 0) 0 ∧
    nextIs (exec (.csrw 1 0x01) s) (fun t => t.csr.tvec = 0x8001 &&& definedBits 1) = true ∧
    nextIs (exec (.csrr 4 0x3F) s) (fun t => t.csr.tcause = 1 && t.csr.tval = 0x3F) = true := by
  simp only [CtlReady]; decide
theorem test_witness_SystemRegisters_steps :
    let at' (index : Nat) (x : Word) := { at0 0 0 0 with turn := { core := 0, index := index, value := x } }
    plainRegister 0x33 = true ∧ (at' 0 0).me.csr.selWin ≠ 5 ∧ (at' 0 0).episodes = [] ∧
    (0x3E000 : Word).getLsbD 0 = false ∧ ((at' 0 0).core 0).deque.l = [] ∧ ((at' 0 0).core 0).sb = [] ∧
    ((at' 0 0).core 0).bad = [] ∧ (at' 0 0).owned (.spad 0 0x3FC00) 1024 = false ∧
    (∀ k : Fin 32, (((at' 0 0).onCore 0 fun c => { c with shares := Vector.replicate 32 .own }).core 0).shares[k] = .own) ∧
    ((0x3FC00 * 2 ^ 36 : Word).extractLsb' 36 18).toNat = 0x3FC00 ∧
    nextIs (exec .csrWrite (at' 0x33 0x123)) (fun t => t.register 0 0x33 = 0x123 &&& definedBits 0x33) = true ∧
    nextIs (exec .dmemWrite (at' 0 0xFF)) (fun t => t.register 0 0x10 = 0x7F) = true := by decide +kernel
theorem test_witness_SystemRegisters_record :
    let x := L 0x40 &&& 0xFFFFFFFFFFFFFF00 ||| 0x40
    let y := L 0x400 ||| 0x40
    let s := ({ at0 0 0 0 with turn := { core := 0, value := y } }).onCore 0 fun c => { c with shares := Vector.replicate 32 .own }
    x.getLsbD 6 = true ∧ y.getLsbD 6 = true ∧ y &&& 0xFFFFFFFFFFFFFF00 = localAddr 0x400 ∧ s.memWf ∧ (s.core 0).sb = [] ∧
    (s.core 0).ctxs[0].got = [] ∧ (s.core 0).bad = [] ∧ s.granules = [] ∧ s.watches = [] ∧ (s.core 0).mops = [] ∧ s.owned (.spad 0 0x400) 256 = false ∧
    (∀ k : Fin 32, (s.core 0).shares[k] = .own) ∧
    nextIs (exec .bindselRecordStore s) (fun t => t.byteAt (.spad 0 0x400) = 1 && t.byteAt (.spad 0 0x401) = 1) = true :=
  ⟨by decide, by decide, by decide, memWf_of _ (by decide), by decide +kernel⟩
theorem test_witness_SystemRegisters_table :
    let at' (a b c : Word) := (inUser a b c).onCsr fun k => { k with winsel := 5 }
    let bad := at' 0x600000000 (0x800000000 ||| 2#64 <<< 36) (0x800000000 ||| 0x3FC04#64 <<< 36)
    let good := withBytes (at' (1#64 <<< 36) (0x800000000 ||| 0x400#64 <<< 36) 0) 0x404 [7, 0, 0xF] |>.onCore 0 fun c => { c with shares := Vector.replicate 32 .own }
    let lent := good.onCore 0 fun c => { c with shares := c.shares.set 0 (.pooled 3) }
    let base (x : Word) := (x.extractLsb' 36 18).toNat
    let traps (i : Instr) (s : State) (x : Word) := nextIs (exec i s) fun t => t.csr.tcause = 4 && t.csr.tval = x
    CtlReady bad 0 ∧ CtlReady good 0 ∧ CtlReady lent 0 ∧ bad.csr.selWin = 5 ∧ bad.csr.selHigh = false ∧
    (bad.w 1).extractLsb' 33 2 = 3#2 ∧ (bad.w 2).getLsbD 35 = true ∧ base (bad.w 2) % 4 ≠ 0 ∧ 0x3FC00 < base (bad.w 3) ∧
    (good.w 1).extractLsb' 33 2 ≠ 3#2 ∧ (good.w 1).getLsbD 35 = false ∧ (good.w 2).extractLsb' 33 2 ≠ 3#2 ∧
    (good.w 2).getLsbD 35 = true ∧ base (good.w 2) = 0x400 ∧ good.me.sb = [] ∧ good.me.bad = [] ∧ good.owned (.spad 0 0x400) 1024 = false ∧
    (∀ k : Fin 32, good.me.shares[k] = .own) ∧ lent.me.shares[0x400 / 0x2000] ≠ .own ∧
    traps (.csrw 1 0x19) bad 0x600000000 = true ∧ traps (.csrs 2 0x19) bad (bad.w 2) = true ∧ traps (.csrw 3 0x19) bad (bad.w 3) = true ∧
    nextIs (exec (.csrw 1 0x19) good) (fun t => t.register 0 0x19 = 1#64 <<< 36 && t.csr.table = good.csr.table) = true ∧
    nextIs (exec (.csrw 2 0x19) good) (fun t => t.register 0 0x19 = 0x400#64 <<< 36 && t.csr.table[1].toNat = 0x70007 && t.csr.table[0] = 0) = true ∧
    nextIs (exec (.csrw 2 0x19) lent) (fun t => t.csr.tcause = 5 && t.csr.tval = L 0x400) = true := by
  simp only [CtlReady]; decide +kernel
theorem test_witness_IdleHaltAndTlbInvalidation :
    let s := at0 0x800 0 0
    let u := s.onCore 0 fun c => { c with called := true }
    CtlReady s 2 ∧ s.me.stirred = false ∧ CtlReady u 2 ∧ u.me.stirred = true ∧ NothingPending s ∧ s.inFlight s.cur = 0 ∧
    isCanonical (s.w 1) = true ∧
    nextIs (exec .idle s) (fun t => t.myCtx.waiting) = true ∧ nextIs (exec .idle u) (fun t => t.myCtx.pc = 0x1002) = true ∧
    nextIs (exec (.tlbinvVa 1) s) (fun t => t.me.dtlb = []) = true ∧
    nextIs (exec .halt s) (fun t => t.me.run = .stopped) = true := by
  simp only [CtlReady, NothingPending]; decide
/-- A folio at offset 0x1000 in core 0's scratchpad, with a program counter, an argument and a KET. -/
def withFolio (s : State) (ket : Nat) : State :=
  (withBytes s 0x1000 (toBytes 8 0x5000 ++ toBytes 8 77 ++ toBytes 4 ket)).onCore 0 fun c => { c with folio := 0x1000 }
/-- Kettle 5 of quire 0 is armed with a count of 3. -/
def withKettle (s : State) : State := s.onQuire 0 fun q => { q with kettles := Memory.write q.kettles 80 (toBytes 4 3 ++ toBytes 7 0 ++ [1]) }
theorem test_witness_SpawnPublishYieldAndEnd :
    let s := withFolio (inUser (L 0x1000) 0 0) 0
    let k := withKettle (withFolio (inUser (L 0x1000) 0 0) 0x80000005)
    let e : DqEntry := ⟨folioHandle 0 0x2000, false, .core, [], false⟩
    let y := s.onCore 0 fun c => { c with deque := ⟨[e], 0, [], 0, []⟩ }
    CtlReady s 0 ∧ s.me.run = .task ∧ s.me.sb = [] ∧ s.me.peers = [] ∧ s.forwardsHeld s.myQuire = false ∧ OwnBytes s (s.w 1) 64 64 0x1000 ∧
    tileOk (fieldAt (s.ownBytes 0x1000 64) 0x20 8) = true ∧ tileOk (fieldAt (s.ownBytes 0x1000 64) 0x28 8) = true ∧
    hasV (BitVec.ofNat 32 (fieldAt (s.ownBytes 0x1000 64) 0x10 4)) = false ∧ s.me.deque.h.length < 64 ∧ s.me.deque.m = [] ∧
    NothingPending s ∧ OwnBytes s (localAddr (s.me.folio + 0x10)) 4 1 (s.me.folio + 0x10) ∧
    hasV (BitVec.ofNat 32 (ofBytes (s.ownBytes (s.me.folio + 0x10) 4))) = false ∧
    CtlReady y 0 ∧ y.me.run = .task ∧ y.me.sb = [] ∧ y.me.peers = [] ∧ y.forwardsHeld y.myQuire = false ∧ y.me.hold = [] ∧
    OwnBytes y (localAddr y.me.folio) 64 64 y.me.folio ∧ y.me.folio < popFolio ∧ y.me.deque.h.length < 64 ∧ y.me.deque.l = [] ∧
    y.me.deque.m = [] ∧
    kettleOk (BitVec.ofNat 32 (fieldAt (k.ownBytes 0x1000 64) 0x10 4)) = true ∧
    nextIs (exec (.spawn 1) s) (fun t => t.me.deque.h.map (fun e => e.handle) = [folioHandle 0 0x1000]) = true ∧
    nextIs (exec (.spawn 1) k) (fun t => t.me.deque.h.map (fun e => e.handle) = [folioHandle 0 0x1000]) = true ∧
    nextIs (exec .pubf y) (fun t => t.me.deque.h.map (fun e => e.pub) = [true]) = true ∧
    nextIs (exec .yield y) (fun t => t.me.deque.h.map (fun e => (e.handle, e.pub)) = [(folioHandle 0 0x1000, true), (folioHandle 0 0x2000, true)]) = true ∧
    nextIs (exec .tend s) (fun t => t.me.run = .seeking) = true := by
  simp only [CtlReady, OwnBytes, NothingPending]; decide +kernel
theorem test_witness_SpawnPublishYieldAndEnd_kettle :
    let s := withKettle (withFolio (inUser (L 0x1000) 0 0) 0x80000005)
    let k := BitVec.ofNat 32 (ofBytes (s.ownBytes (s.me.folio + 0x10) 4))
    s.memWf ∧ CtlReady s 0 ∧ s.me.run = .task ∧ NothingPending s ∧ s.forwardsHeld s.myQuire = false ∧
    OwnBytes s (localAddr (s.me.folio + 0x10)) 4 1 (s.me.folio + 0x10) ∧ hasV k = true ∧ kettleOk k = true ∧
    (s.quire (kettleQuire k)).badKettles = [] ∧ kArmed (s.kettleBytes k) = true ∧ (s.kettleAux k).holds = [] ∧ 1 ≤ kCount (s.kettleBytes k) ∧
    nextIs (exec .tend s) (fun t => t.me.run = .seeking && kCount (t.kettleBytes k) = 2) = true :=
  ⟨memWf_of _ (by decide), by simp only [CtlReady, OwnBytes, NothingPending]; decide +kernel⟩
theorem test_witness_Kettles_instructions :
    let s := inUser 0x80000005 9 0
    let z := inUser 0 9 0
    let h := (s.w 1).extractLsb' 0 32
    CtlReady s 0 ∧ s.memWf ∧ s.kops = [] ∧ hasV h = true ∧ kettleOk h = true ∧ (s.quire (kettleQuire h)).badKettles = [] ∧
    (kState (s.kettleBytes h)).extractLsb' 0 2 ≠ 1#2 ∧ 1 ≤ (s.w 2).toNat ∧ (s.w 2).toNat < 2 ^ 32 ∧
    hasV ((s.w 3).extractLsb' 0 32) = false ∧ (95 : BitVec 7).toNat ≤ 95 ∧ CtlReady z 0 ∧ hasV ((z.w 1).extractLsb' 0 32) = false ∧
    nextIs (exec (.kinitCont 1 2 3 .quire) s) (fun t => (t.quire 0).kettles = [(80, 9), (91, 9)]) = true ∧
    nextIs (exec (.kinitReady 1 2 3 95 .quire) s) (fun t => (t.quire 0).kettles = [(80, 9), (88, 95), (90, 1), (91, 9)]) = true ∧
    nextIs (exec (.kadd 1 2) s) (fun t => t.kops = [⟨⟨0, 0⟩, 0x80000005, .add 9, none⟩]) = true ∧
    nextIs (exec (.kdec 1) z) (fun t => t.kops = []) = true :=
  ⟨by simp only [CtlReady]; decide, memWf_of _ (by decide), by decide, by decide, by decide, by decide, by decide, by decide,
    by decide, by decide, by decide, by simp only [CtlReady]; decide, by decide, by decide, by decide, by decide, by decide⟩
theorem test_witness_Kettles_counts :
    let s := withKettle (withFolio (inUser 0x80000005 9 0) 0)
    let way : Transit := ⟨.request, 0, 0, 0, .rowUp, [], 0, 1⟩
    let d := { s with kops := [⟨⟨0, 0⟩, 0x80000005, .dec, some way⟩], turn := {} }
    let a := { s with kops := [⟨⟨0, 0⟩, 0x80000005, .add 4, none⟩], turn := {} }
    let h : W32 := 0x80000005
    s.memWf ∧ CtlReady s 0 ∧ NothingPending s ∧ h = (s.w 1).extractLsb' 0 32 ∧ hasV h = true ∧ kettleOk h = true ∧
    (s.quire (kettleQuire h)).badKettles = [] ∧ kArmed (s.kettleBytes h) = true ∧ (s.kettleAux h).holds = [] ∧
    2 ≤ kCount (s.kettleBytes h) ∧ (d.core 0).sb = [] ∧ (d.core 0).peers = [] ∧ (d.core 0).peerHand = none ∧
    d.arrived way = true ∧ d.forwardsHeld 0 = false ∧ d.turn.index = 0 ∧ kCount (s.kettleBytes h) + (4 : W32).toNat < 2 ^ 32 ∧
    nextIs (exec (.sync 1) s) (fun t => kCount (t.kettleBytes h) = 2) = true ∧
    nextIs (exec .kettleOperation d) (fun t => kCount (t.kettleBytes h) = 2) = true ∧
    nextIs (exec .kettleOperation a) (fun t => kCount (t.kettleBytes h) = 7) = true :=
  ⟨memWf_of _ (by decide), by simp only [CtlReady]; decide, by simp only [NothingPending]; decide, by decide⟩
/-- Kettle 5 of quire 0 is armed with a count of 1 and the continuation and mode given; HOME is core 2, whose ready list
holds two tasks, and the continuation is the folio at 0x1000 of core 0, with priority 3. -/
def lastCount (cont : W32) (mode : Byte) : State :=
  let p (x : Nat) : Pending := ⟨folioHandle 2 0x2000, x, none, 2, [], false, false, false⟩
  let s := (withFolio (inUser 0x80000005 0 0) 0).onQuire 0 fun q =>
    { q with kettles := Memory.write q.kettles 80 (toBytes 4 1 ++ toBytes 4 cont.toNat ++ toBytes 2 2 ++ [mode, 1]) }
  ((withBytes s 0x1018 [3]).onCore 0 fun c => { c with ready := [p 1, p 5] }).onCore 2 fun c => { c with ready := [p 1, p 5] }
/-- What is asked of the kettle before its last decrement. -/
def Last (s : State) : Prop :=
  let h : W32 := 0x80000005
  let old := s.kettleBytes h
  hasV h = true ∧ kettleOk h = true ∧ (s.quire (kettleQuire h)).badKettles = [] ∧ kArmed old = true ∧ (s.kettleAux h).holds = [] ∧
    kCount old = 1 ∧ kHome old ≤ 95 ∧ kMode old ≤ 1 ∧ (hasV (kCont old) = false ∨ folioOk (kCont old) = true) ∧ s.forwardsHeld 0 = false
/-- A decrement of core 0 has come to the kettle's quire. -/
def decComes (s : State) : State := { s with kops := [⟨⟨0, 0⟩, 0x80000005, .dec, none⟩], turn := {} }
theorem test_witness_Kettles_last (m : Byte) (h : m = 0 ∨ m = 1) :
    Last (lastCount (folioHandle 0 0x1000) m) ∧ kMode ((lastCount (folioHandle 0 0x1000) m).kettleBytes 0x80000005) = m.toNat := by
  rcases h with rfl | rfl <;> (unfold Last; decide +kernel)
theorem test_witness_Kettles_last_none : Last (lastCount 0 0) := by unfold Last; decide +kernel
theorem test_witness_Kettles_fires :
    let c := lastCount (folioHandle 0 0x1000) 0
    let r := lastCount (folioHandle 0 0x1000) 1
    let o := lastCount 0 0
    let m := c.onCore 0 fun c => { c with next := some ⟨folioHandle 0 0x3000, 0, none, 0, [], false, false, false⟩ }
    let ready (s : State) (n : Nat) : List Nat := (s.core n).ready.map fun p => p.pri
    c.memWf ∧ CtlReady c 0 ∧ NothingPending c ∧ (c.w 1).extractLsb' 0 32 = 0x80000005 ∧
    ((decComes c).core 0).peerHand = none ∧ hasV (kCont (c.kettleBytes 0x80000005)) = true ∧
    (c.core 0).next = none ∧ (m.core 0).next ≠ none ∧
    nextIs (exec (.sync 1) c) (fun t => t.me.next.map (fun p => p.pri) = some 3 && t.me.run = .seeking && kCount (t.kettleBytes 0x80000005) = 0) = true ∧
    nextIs (exec (.sync 1) r) (fun t => ready t 2 = [1, 3, 5] && t.me.next = none) = true ∧
    nextIs (exec (.sync 1) o) (fun t => t.me.next = none && ready t 2 = [1, 5]) = true ∧
    nextIs (exec .kettleOperation (decComes c)) (fun t => t.me.next.map (fun p => p.pri) = some 3) = true ∧
    nextIs (exec .kettleOperation (decComes m)) (fun t => ready t 0 = [1, 3, 5]) = true ∧
    nextIs (exec .kettleOperation (decComes r)) (fun t => ready t 2 = [1, 3, 5]) = true ∧
    nextIs (exec .kettleOperation (decComes o)) (fun t => ready t 2 = [1, 5] && (kState (t.kettleBytes 0x80000005)).extractLsb' 0 2 = 2#2) = true :=
  ⟨memWf_of _ (by decide +kernel), by simp only [CtlReady, NothingPending]; decide +kernel⟩
theorem test_witness_ForksAndLaunchTrees_fork :
    let s := withKettle (withFolio ((inUser 4 2 (L 0x1000)).onCore 1 fun c => { c with run := .asleep }) 0x80000005)
    let z := withFolio (inUser 0 2 (L 0x1000)) 0
    let ket := BitVec.ofNat 32 (fieldAt (s.ownBytes 0x1000 64) 0x10 4)
    s.memWf ∧ s.me.sb = [] ∧ s.me.peers = [] ∧ s.forwardsHeld s.myQuire = false ∧ CtlReady s 0 ∧ OwnBytes s (s.w 3) 64 64 0x1000 ∧ s.w 1 ≠ 0 ∧ hasV ket = true ∧
    kettleOk ket = true ∧ s.kops = [] ∧ (s.quire (kettleQuire ket)).badKettles = [] ∧ kArmed (s.kettleBytes ket) = true ∧
    kCount (s.kettleBytes ket) + 2 < 2 ^ 32 ∧ s.granules = [] ∧ s.watches = [] ∧ folioTiles (s.ownBytes 0x1000 64) = [] ∧
    (∀ k, k ∈ s.recruits (s.ownBytes 0x1000 64) 2 → (s.core k).bad = []) ∧
    z.w 1 = 0 ∧ CtlReady z 0 ∧ OwnBytes z (z.w 3) 64 64 0x1000 ∧
    nextIs (exec (.rfork 4 1 2 3) z) (fun t => t.w 4 = 0) = true ∧
    nextIs (exec (.rfork 4 1 2 3) s) (fun t => t.w 4 = 2 && fieldAt (t.folioBytes 1 forkFolio) 0x38 8 = 2 && (t.core 1).recruit = some .quire && kCount (t.kettleBytes ket) = 5) = true :=
  ⟨memWf_of _ (by decide), by simp only [CtlReady, OwnBytes]; decide +kernel⟩
theorem test_witness_ForksAndLaunchTrees_arrivals :
    let s := { inUser 0 0 0 with tree := [⟨0, 96, 0x5000, 9, .die⟩], turn := { core := 7 } }
    let r := ((inUser 0 0 0).onCore 0 fun c => { c with recruit := some .quire })
    s.memWf ∧ s.me.sb = [] ∧ s.me.peers = [] ∧ s.forwardsHeld s.myQuire = false ∧ CtlReady s 0 ∧ (s.w 1).getLsbD 0 = false ∧ (s.core 7).ready = [] ∧ (s.core 7).bad = [] ∧ s.granules = [] ∧ s.watches = [] ∧
    (r.core r.turn.core).recruit = some .quire ∧
    nextIs (exec .launchTreeDelivery s) (fun t => t.tree.map (fun m => (m.lo, m.hi)) = [(0, 7), (8, 96)]) = true ∧
    nextIs (exec (.tfanCore 1 2) s) (fun t => t.tree.length = 2) = true ∧
    nextIs (exec .recruitStart r) (fun t => t.me.folio = forkFolio && t.me.run = .task) = true :=
  ⟨memWf_of _ (by decide), by simp only [CtlReady]; decide +kernel⟩
theorem test_witness_FindingWork :
    let p : Pending := ⟨folioHandle 0 0x1000, 0, some .core, 0, [], false, false, false⟩
    let s := (withFolio (inUser 0 0 0) 0).onCore 0 fun c => { c with run := .seeking }
    let a := s.onCore 0 fun c => { c with next := some p }
    let b := s.onCore 0 fun c => { c with run := .asleep, wake := true }
    let f := { s with turn := { flag := true } }
    (a.core 0).run = .seeking ∧ (a.core 0).next = some p ∧ p.bad = false ∧ p.cont = false ∧ folioCore p.handle = 0 ∧
    (s.core 0).next = none ∧ (s.core 0).deque = ⟨[], 0, [], 0, []⟩ ∧ (s.core 0).ready = [] ∧ s.wls = [] ∧
    (b.core 0).run = .asleep ∧ (b.core 0).wake = true ∧ b.turn.flag = false ∧ f.turn.flag = true ∧
    nextIs (exec .nextWorkSelect a) (fun t => t.myCtx.pc = 0x5000 && t.myCtx.w[0] = 77 && t.myCtx.w[12] = L 0x1000) = true ∧
    nextIs (exec .nextWorkSelect s) (fun t => t.me.run = .probing) = true ∧
    nextIs (exec .coreWake b) (fun t => t.me.run = .seeking) = true ∧
    nextIs (exec .coreWake f) (fun t => t.me.called) = true := by decide +kernel
/-- Core 0 probes, in an address space of its quire's own; core 1's published entry can stand for it to take. -/
def probing (d : List DqEntry) : State :=
  (((withFolio (inUser 0 0 0) 0).onQuire 0 fun q => { q with qasr := 2 ^ 48 }).onCore 0 fun c => { c with run := .probing }).onCore 1 fun c => { c with deque := ⟨d, 0, [], 0, []⟩ }
/-- What its first probe finds. -/
def probed (s : State) : Option ((Nat × Nat) × List Probe) :=
  let drawn := lfsrStep (s.core 0).lfsr
  (s.onCore 0 fun c => { c with lfsr := drawn }).nextProbe 0 (probeOrder 0 ((drawn.extractLsb' 0 7).toNat % 96))
/-- No level M is to be waited for. -/
def ringsReady (s : State) : Bool := match s.readyRings with | .ok t => decide (t = s) | .error _ => false
theorem ringsReady_ok {s : State} (h : ringsReady s = true) : s.readyRings = .ok s := by
  unfold ringsReady at h
  split at h
  · rename_i h'; rw [h', of_decide_eq_true h]
  · cases h
theorem test_witness_FindingWork_probe :
    let s := probing []
    (s.core 0).run = .probing ∧ (s.core 0).probes = none ∧ s.readyRings = .ok s ∧ probed s = none ∧
    nextIs (exec .stealProbe s) (fun t => t.me.run = .asleep) = true :=
  ⟨by decide, by decide, ringsReady_ok (by decide +kernel), by decide +kernel⟩
theorem test_witness_FindingWork_steal :
    let e : DqEntry := ⟨folioHandle 0 0x1000, true, .dev, [], false⟩
    let f : DqEntry := ⟨folioHandle 1 0x1000, true, .dev, [], false⟩
    let s := probing [e]
    let z := (probing [f]).onCore 0 fun c => { c with shares := c.shares.set 0 (.pooled 3) }
    s.readyRings = .ok s ∧ z.readyRings = .ok z ∧ (s.core 0).run = .probing ∧ (probed s).map (fun x => x.1) = some (1, 2) ∧
    s.admits e.handle 2 = true ∧ folioCore e.handle = 0 ∧ (s.core 1).deque = ⟨[e], 0, [], 0, []⟩ ∧
    (z.core 0).run = .probing ∧ (probed z).map (fun x => x.1) = some (1, 2) ∧ (z.core 1).deque = ⟨[f], 0, [], 0, []⟩ ∧
    z.admits f.handle 2 = true ∧ z.placeable 0 f.handle = false ∧
    nextIs (exec .stealProbe s) (fun t => t.me.run = .task && (t.core 1).deque.h = []) = true ∧
    nextIs (exec .stealProbe z) (fun t => t.me.run = .probing && t.me.probes.isSome && (t.core 1).deque.h = [f]) = true :=
  ⟨ringsReady_ok (by decide +kernel), ringsReady_ok (by decide +kernel), by decide +kernel⟩
theorem test_witness_Messages :
    let s := inUser (L 0x2000) (L 0x2000) 0
    let t := s.onMyCtx fun c => { c with w := c.w.set 1 5 }
    let m : Msg := ⟨0, 9, true, List.replicate 31 1 ++ [2], false⟩
    let r := s.onCore 0 fun c => { c with inbox := [m] }
    s.issue.stay = false ∧ s.csr.ph = false ∧ s.me.sb = [] ∧ s.me.peers = [] ∧ s.forwardsHeld s.myQuire = false ∧ s.me.overflow = none ∧
    (∀ m, m ∈ r.me.inbox → m.bad = false) ∧ OwnBytes t (t.w 2) 32 32 0x2000 ∧ (t.w 1).toNat ≤ 18431 ∧
    t.inService (t.w 1).toNat = true ∧ hasV (BitVec.ofNat 32 (fieldAt (t.ownBytes 0x2000 32) 0 4)) = false ∧
    t.me.sendq.length < 6 ∧ OwnBytes r (r.w 1) 32 32 0x2000 ∧ r.me.inbox.find? (passes .reply) = some m ∧
    r.me.inbox.find? (passes .request) = none ∧ r.me.inbox.any (passes .any) = true ∧ r.me.inbox.any (passes .request) = false ∧
    nextIs (exec (.send 1 2) t) (fun t => t.me.sendq.map (fun m => (m.dest, m.src, m.reply)) = [(5, 0, false)]) = true ∧
    nextIs (exec (.recv .reply 1) r) (fun t => t.me.inbox = [] && (t.ownBytes 0x201F 1) = [2]) = true ∧
    nextIs (exec (.recv .request 1) r) (fun t => t.ownBytes 0x2006 1 = [0xFF]) = true ∧
    nextIs (exec (.wmsg .request) r) (fun t => t.myCtx.waiting) = true := by
  simp only [OwnBytes]; decide
theorem test_witness_Messages_transport :
    let m : Msg := ⟨3, 0, false, List.replicate 32 0, false⟩
    let s := (inUser 0 0 0).onCore 0 fun c => { c with sendq := [m] }
    let way : Transit := ⟨.request, 0, 0, 0, .rowUp, [], 0, 1⟩
    let u := { inUser 0 0 0 with net := [(way, m)] }
    (s.core s.turn.core).sendq = [m] ∧ m.reply = s.turn.flag ∧ u.turn.index = 0 ∧ u.arrived way = true ∧ (u.core 3).accepts m = true ∧
    (u.core 3).inbox.length < 16 ∧ hasV (BitVec.ofNat 32 (fieldAt m.bytes 0 4)) = false ∧
    nextIs (exec .messageDepart s) (fun t => t.net.map (fun x => x.2) = [m]) = true ∧
    nextIs (exec .messageArrival u) (fun t => (t.core 3).inbox = [m] && t.net = []) = true := by decide
theorem test_witness_HelperInstructions :
    let s := inUser 0x2000 5 0x1000
    let a := s.onCore 0 fun c => { c with ctxs := Vector.ofFn fun h => { c.ctxs[h] with hstat := 1 } }
    let j (x : Word) (st : BitVec 4) := (s.setW 1 x).onCore 0 fun c => { c with ctxs := c.ctxs.set 3 { c.ctxs[3] with hstat := st } }
    s.csr.ph = false ∧ s.issue.stay = false ∧ s.issue.reissue = false ∧ s.ctx = 0 ∧ (s.w 1).getLsbD 0 = false ∧
    s.me.preempt = none ∧ s.me.freeHelper = some 1 ∧ a.me.freeHelper = none ∧ (asHelper s 2).ctx ≠ 0 ∧
    named ((j 8 1).w 1) 3 = true ∧ (j 8 1).me.ctxs[3].hstat = 1 ∧
    (∀ h : Fin 11, named ((j 8 3).w 1) h = true → (j 8 3).me.ctxs[h].hstat ≠ 1) ∧
    nextIs (exec (.hstart 4 1 2) s) (fun t => t.w 4 = 1 && t.me.ctxs[1].pc = 0x2000 && t.me.ctxs[1].w[0] = 5) = true ∧
    nextIs (exec (.hstart 4 1 2) a) (fun t => t.w 4 = 0) = true ∧
    nextIs (exec .hend (asHelper s 2)) (fun t => t.me.ctxs[2].hstat = 2) = true ∧
    nextIs (exec (.hjoin 4 1) (j 8 1)) (fun t => t.myCtx.waiting) = true ∧
    nextIs (exec (.hjoin 4 1) (j 8 3)) (fun t => t.w 4 = 8 && t.me.ctxs[3].hstat = 0) = true := by decide
/-- 06, R144, step 3: a `sync` of a FREE kettle is trap 0x01, behind which the task continues. -/
theorem test_sync_of_free_kettle :
    let s := withFolio (inUser 0x80000005 0 0) 0
    nextIs (exec (.sync 1) s) (fun t => t.me.csr.tcause = 1 && t.me.csr.epc = s.issue.next && t.me.csr.tval = 0x80000005 && s.issue.pc ≠ s.issue.next) = true := by
  decide +kernel
/-- A worklist with one kind and a slot in quire 0, whose record is at 0x100, in HBM; `es` stand in the slot. -/
def wl0 (es : List Entry) (low : Option Nat) (status : Nat) : Worklist :=
  { record := 0x100, bind := 0, sys := false, shift := 0, lead := 0, kinds := [0x5000], cap := 1, spill := [], balthr := 384
    pq := [], prec := [], place := [0], slots := [(0, ⟨2, es.map fun e => (0, e), []⟩)], regs := [], born := es.length, low := low
    lows := [], donated := [], giving := [], offer := none, offerTries := 0, nextPartner := 0
    pushed := 7, taken := 5, dsent := 0, dclaim := 0, sweeps := 0, status := status, last := none, asks := [], found := none }
def withWl (w : Worklist) (a b : Word) : State := { withFolio (inUser 0x100 a b) 0 with wls := [(0, w)] }
theorem test_witness_OrderedWorklists_instructions :
    let w := wl0 [⟨2, 0, 9⟩] (some 2) 0
    let s := withWl w 4 6
    CtlReady s 0 ∧ s.memWf ∧ NothingPending s ∧ s.forwardsHeld s.myQuire = false ∧
    okIs (worklist (s.w 1) s) (fun i u => i = 0 && u = s) = true ∧ s.wl? 0 = some w ∧
    s.search w s.myQuire = some (0, 0, ⟨2, 0, 9⟩) ∧ (w.slot 0).spill = [] ∧ s.me.bad = [] ∧
    OwnBytes s (localAddr (s.me.folio + 0x10)) 4 1 (s.me.folio + 0x10) ∧
    hasV (BitVec.ofNat 32 (ofBytes (s.ownBytes (s.me.folio + 0x10) 4))) = false ∧
    nextIs (exec (.wlPop 4 1) s) (fun t => t.me.next.map (fun p => p.holds) = some [(0, 2)]) = true ∧
    nextIs (exec (.wlLow 4 1) s) (fun t => t.w 4 = 2) = true :=
  ⟨by simp only [CtlReady]; decide, memWf_of _ (by decide), by simp only [NothingPending, OwnBytes]; decide +kernel⟩
theorem test_witness_OrderedWorklists_push_and_done :
    let w := wl0 [] (some 0) 1
    let s := withWl w 0x80000005 0
    CtlReady s 0 ∧ s.memWf ∧ NothingPending s ∧ s.forwardsHeld s.myQuire = false ∧
    okIs (worklist (s.w 1) s) (fun i u => i = 0 && u = s) = true ∧ s.wl? 0 = some w ∧
    s.myCtx.posted = none ∧ (s.w 2).toNat / 2 ^ 32 < w.kinds.length ∧
    w.slot (w.slotOf s.myQuire) = ⟨(w.slot (w.slotOf s.myQuire)).wb, [], []⟩ ∧ (∀ r, r ∈ s.service → w.view r = some 0) ∧ s.search w s.myQuire = none ∧
    hasV ((s.w 2).extractLsb' 0 32) = true ∧ kettleOk ((s.w 2).extractLsb' 0 32) = true ∧ w.regs.length < 4 ∧
    hasV ((s.w 3).extractLsb' 0 32) = false ∧ w.status = 1 ∧
    nextIs (exec (.wlPush 1 2 3) s) (fun t => (t.wl? 0).map (fun w => (w.slot 0).entries) = some [(0, ⟨0x80000005, 0, 0⟩)]) = true ∧
    nextIs (exec (.wlPop 4 1) s) (fun t => t.w 4 = 3) = true ∧
    nextIs (exec (.wlDone 1 2) s) (fun t => (t.wl? 0).map (fun w => w.regs) = some [0x80000005]) = true ∧
    nextIs (exec (.wlDone 1 3) s) (fun t => t.wl? 0 = none) = true :=
  ⟨by simp only [CtlReady]; decide, memWf_of _ (by decide), by simp only [NothingPending]; decide +kernel⟩
/-- A donation queue of four slots at 0x200 of HBM, its ring at 0x300, its target the record at 0x100. -/
def withQueue (head tail : Nat) : State :=
  withHbm (withBytes ({ inUser (L 0x2000) 0x200 3 with wls := [(0, wl0 [] (some 0) 0)] }) 0x2000 (toBytes 8 2 ++ toBytes 8 99)) 0x200
    (toBytes 8 head ++ toBytes 8 tail ++ toBytes 8 0x300 ++ toBytes 8 4 ++ toBytes 8 0x100)
theorem test_witness_QueuesAndCounters_donate :
    let s := withQueue 1 4
    let ds : Desc := ⟨1, 4, 0x300, 4, 0x100⟩
    s.ctx = 0 ∧ s.csr.ph = false ∧ s.issue.stay = false ∧ NothingPending s ∧ s.memWf ∧ s.myCtx.remote = none ∧
    s.myCtx.posted = none ∧ s.myCtx.got = [] ∧ s.quires = [] ∧ OwnBytes s (s.w 1) 16 16 0x2000 ∧
    Ok (checkAccess (s.w 2) 8 .store s) (fun p s1 => p = .hbm 0x200 0 && okIs (readDesc (s.w 2) s1) fun p u =>
      p = (.hbm 0x200 0, ds) && okIs (ringPlace (.hbm 0x200 0) (ds.slot ds.tail) u) fun slot v => slot = (0x300, 0) &&
      okIs (homeFree [(0x300, 0, 16), (0x200, 0, 64)] v) fun _ z => z = v) ∧
    ds.sizeOk = true ∧ ds.base.toNat % 16 = 0 ∧ ds.full = false ∧
    nextIs (exec (.donate 2 1) s) (fun t => t.byteAt (.hbm 0x208 0) = 5 && t.byteAt (.hbm 0x308 0) = 99) = true :=
  ⟨by decide, by decide, by decide, by simp only [NothingPending]; decide, memWf_of _ (by decide), by decide, by decide, by decide,
    by decide, by simp only [OwnBytes]; decide, okIs_some (by decide +kernel), by decide +kernel⟩
theorem test_witness_QueuesAndCounters_claim_of_none :
    let s := withQueue 4 4
    let ds : Desc := ⟨4, 4, 0x300, 4, 0x100⟩
    Ok (readDesc (s.w 2) s) (fun p _ => p = (.hbm 0x200 0, ds)) ∧ ds.empty = true ∧ ds.sizeOk = true ∧
    nextIs (exec (.claim 4 2) s) (fun t => t.w 4 = 0) = true :=
  ⟨okIs_some (by decide +kernel), by decide +kernel⟩
/-- The queue holds one entry, at 0x300, of which a claim makes an entry of the worklist. -/
def claimed (s : State) : Bool :=
  let ds : Desc := ⟨4, 5, 0x300, 4, 0x100⟩
  let w := wl0 [] (some 0) 0
  !ds.empty && ds.sizeOk && okIs (readDesc (s.w 2) s) fun p u => p = (.hbm 0x200 0, ds) &&
  okIs (ringPlace (.hbm 0x200 0) (ds.slot ds.head) u) fun slot v => slot = (0x300, 0) &&
  okIs (worklist ds.target v) fun wid x => wid = 0 && okIs (homeFree [(0x200, 0, 64)] x) (fun _ z => z = x) && okIs (readHome (ds.slot ds.head) 0x300 0 16 x) fun eb y =>
    y.wl? 0 = some w && (Entry.ofBytes eb).kind < w.kinds.length && y.service.all (fun r => w.view r = some 0) &&
    (y.wlEnter 0 y.myQuire (Entry.ofBytes eb)).any fun z => z.quires.all fun q => q.2.lines = [] && q.2.slices = []
theorem test_witness_QueuesAndCounters_claim :
    claimed (withQueue 4 5) = true ∧
    nextIs (exec (.claim 4 2) (withQueue 4 5)) (fun t => t.w 4 = 1 && t.byteAt (.hbm 0x200 0) = 5) = true := by decide +kernel
theorem test_witness_QueuesAndCounters_counters :
    let s := inUser 63 9 0
    let u := inUser (L 0x2000) 0 0
    (s.w 1).toNat < 64 ∧ OwnBytes u (u.w 1) 512 8 0x2000 ∧
    nextIs (exec (.cinc 1 2) s) (fun t => (t.quire 0).counters[63] = 9) = true ∧
    nextIs (exec (.csnapClr 1) u) (fun t => t.me.sb.length = 1) = true := by
  simp only [OwnBytes]; decide +kernel

/-! ### Statements about atomics, fences and barriers -/

theorem test_witness_AtomicIntegerOperations :
    let s := withBytes (inUser (L 0x2008) 0xFFFFFFFFFFFFFFFF 0) 0x2008 [5, 0, 0, 0x80]
    AtomicReady s (s.w 1) 8 0x2008 ∧ AtomicReady s (s.w 1) 4 0x2008 ∧
    nextIs (exec (.amoAdd .word .ar .sys 4 1 2) s) (fun t => t.w 4 = 0xFFFFFFFF80000005 && Memory.read t.me.spad 0x2008 4 = [4, 0, 0, 0x80]) = true ∧
    nextIs (exec (.amoMin .double .relaxed .core 4 1 2) s) (fun t => t.w 4 = 0x80000005 && Memory.read t.me.spad 0x2008 1 = [0xFF]) = true ∧
    nextIs (exec (.amoMaxn .word .relaxed .core 4 1 2) s) (fun t => t.w 4 = 0x80000005) = true ∧
    nextIs (exec (.amoCas .word .relaxed .core 4 1 2) s) (fun t => t.me.spad = s.me.spad) = true :=
  ⟨ready_of (memWf_of _ (by decide)) (by simp only [OwnBytes]; decide +kernel),
    ready_of (memWf_of _ (by decide)) (by simp only [OwnBytes]; decide +kernel), by decide +kernel⟩
/-- Context 0 of core 0 holds the granule at 0x2000 and a reservation of the given width in it. -/
def reserved (wide : Bool) : State :=
  let s := withBytes (inUser (L 0x2000) 0x3F800000 0) 0x2000 [0, 0, 0, 0x40]
  { s.onMyCtx (fun c => { c with resv := some ⟨.spad 0 0x2000, L 0x2000, wide, .held⟩ }) with
    granules := [⟨.spad 0 0x2000, some (⟨0, 0⟩, true), []⟩] }
theorem test_witness_AtomicFloatsAndReservations :
    let s := withBytes (inUser (L 0x2000) 0x3F800000 0) 0x2000 [0, 0, 0, 0x40]
    AtomicReady s (s.w 1) 16 0x2000 ∧ AtomicReady s (s.w 1) 8 0x2000 ∧ AtomicReady s (s.w 1) 4 0x2000 ∧ s.myCtx.resv = none ∧
    nextIs (exec (.amoFadd .relaxed .core 4 1 2) s) (fun t => t.w 4 = 0x40000000 && Memory.read t.me.spad 0x2000 4 = [0, 0, 0x40, 0x40]) = true ∧
    nextIs (exec (.lrW .relaxed .core 4 1) s) (fun t => t.w 4 = 0x40000000 && t.granules.length = 1) = true ∧
    nextIs (exec (.scW .relaxed .core 4 1 2) s) (fun t => t.w 4 = 3) = true :=
  ⟨ready_of (memWf_of _ (by decide)) (by simp only [OwnBytes]; decide +kernel),
    ready_of (memWf_of _ (by decide)) (by simp only [OwnBytes]; decide +kernel),
    ready_of (memWf_of _ (by decide)) (by simp only [OwnBytes]; decide +kernel), by decide +kernel⟩
theorem test_witness_AtomicFloatsAndReservations_held :
    let s := reserved true
    let u := reserved false
    AtomicReady { s with granules := [] } (s.w 1) 8 0x2000 ∧ AtomicReady { u with granules := [] } (u.w 1) 4 0x2000 ∧
    s.myCtx.resv = some ⟨.spad s.cur 0x2000, s.w 1, true, .held⟩ ∧ u.myCtx.resv = some ⟨.spad u.cur 0x2000, u.w 1, false, .held⟩ ∧
    s.granules = [⟨.spad s.cur (0x2000 / 16 * 16), some (s.agent, true), []⟩] ∧ u.granules = s.granules ∧
    nextIs (exec (.scD .rel .quire 4 1 2) s) (fun t => t.w 4 = 0 && t.granules = [] && Memory.read t.me.spad 0x2000 5 = [0, 0, 0x80, 0x3F, 0]) = true ∧
    nextIs (exec (.scW .relaxed .core 4 1 2) u) (fun t => t.w 4 = 0 && t.myCtx.resv = none) = true :=
  ⟨ready_of (memWf_of _ (by decide)) (by simp only [OwnBytes]; decide +kernel),
    ready_of (memWf_of _ (by decide)) (by simp only [OwnBytes]; decide +kernel), by decide +kernel⟩
theorem test_witness_FencesReleaseAndAcquire :
    let l : Line := { binding := 1, base := 0x80, set := 0, way := 0, data := List.replicate 64 3, written := List.replicate 64 true
                      bad := List.replicate 8 false, own := List.replicate 8 false, lease := none, leaseOnly := false, filled := 0, used := 0
                      moved := false }
    let s := (inUser 0 0 0).onQuire 0 fun q => { q with lines := [l] }
    s.csr.ph = false ∧ s.issue.stay = false ∧ s.me.sb = [] ∧ s.me.peers = [] ∧ s.myCtx.hand = none ∧ s.forwardsHeld s.myQuire = false ∧
    nextIs (exec (.fenceRel (some 4) .dev) s) (fun t => t.w 4 = 0 && (t.quire 0).lines.all fun l => !l.dirty) = true ∧
    nextIs (exec (.fence none .die) s) (fun t => (t.quire 0).lines = [] && t.myCtx.pc = 0x1002) = true := by decide +kernel
theorem test_witness_SleepersAndBanks_sleeping :
    let s := withBytes (inUser (L 0x2000) 5 0) 0x2000 [5]
    let u := s.setW 2 6
    let r := s.onMyCtx fun c => { c with resv := some ⟨.spad 0 0x2000, L 0x2000, true, .held⟩ }
    AtomicReady s (s.w 1) 8 0x2000 ∧ AtomicReady u (u.w 1) 8 0x2000 ∧ AtomicReady r (r.w 1) 8 0x2000 ∧ s.myCtx.resv = none ∧
    r.myCtx.resv = some ⟨.spad r.cur 0x2000, r.w 1, true, .held⟩ ∧ wordOf (Memory.read s.me.spad 0x2000 8) = s.w 2 ∧
    wordOf (Memory.read u.me.spad 0x2000 8) ≠ u.w 2 ∧
    nextIs (exec (.waitaddr 1 2) s) (fun t => t.myCtx.pc = 0x1002) = true ∧
    nextIs (exec (.waitaddr 1 2) u) (fun t => t.myCtx.waiting && t.watches = [⟨.spad 0 0x2000, ⟨0, 0⟩, true⟩]) = true ∧
    nextIs (exec .wrs r) (fun t => t.watches = [⟨.spad 0 0x2000, ⟨0, 0⟩, false⟩]) = true :=
  ⟨ready_of (memWf_of _ (by decide)) (by simp only [OwnBytes]; decide +kernel),
    ready_of (memWf_of _ (by decide)) (by simp only [OwnBytes]; decide +kernel),
    ready_of (memWf_of _ (by decide)) (by simp only [OwnBytes]; decide +kernel), by decide, by decide, by decide, by decide +kernel⟩
theorem test_witness_DomainBarriers :
    let s := at0 0 0 0
    let n := s.onCsr fun c => { c with dmem := 0 }
    let p := s.onCore 0 fun c => { c with barPass := some (.die, none), barWait := some .die }
    let e : Episode := ⟨.quire, 0, [0], [], true, false, false⟩
    let b := { (State.reset.onCore 0 fun c => { c with csr := { c.csr with dmem := 0 } }) with episodes := [e], service := [] }
    let y : Episode := ⟨.sys, 0, [0], [], false, false, false⟩
    let l := { s with episodes := [y], lost := [1], turn := { index := 1 } }
    let z : Episode := ⟨.sys, 0, [0], [], false, true, true⟩
    let g := { b with episodes := [z], lost := [1] }
    CtlReady s 0 ∧ s.me.sb = [] ∧ s.me.peers = [] ∧ s.me.preempt = none ∧ s.mgmt.holdBars = false ∧
    s.forwardsHeld s.myQuire = false ∧ s.me.barPass = none ∧
    s.me.barWait = none ∧ s.csr.member .quire = true ∧ CtlReady n 0 ∧ n.csr.member .sys = false ∧ CtlReady p 0 ∧
    p.me.barPass = some (.die, none) ∧ b.turn.index = 0 ∧ (∀ c, c ∈ b.members e.level e.domain → c ∈ e.arrived ∨ c ∈ e.out) ∧
    l.episode .sys 0 = some y ∧ y.alone = false ∧ y.arrived ≠ [] ∧ l.turn.index ∈ l.lost ∧ s.turn.index ∉ s.lost ∧
    e.level ≠ .sys ∧ z.released = true ∧ (∀ c, c ∈ g.members z.level z.domain → c ∈ z.arrived ∨ c ∈ z.out) ∧ s.myCtx.hand = none ∧
    nextIs (exec .barrierMemberLost l) (fun t => (t.episode .sys 0).map (fun e => e.lost) = some true) = true ∧
    nextIs (exec .barrierRelease g) (fun t => (t.core 0).barPass = some (.sys, some 1)) = true ∧
    nextIs (exec .barQuire s) (fun t => t.myCtx.waiting && (t.episode .quire 0).map (fun e => e.arrived) = some [0]) = true ∧
    nextIs (exec .barSys n) (fun t => t.myCtx.pc = 0x1002) = true ∧
    nextIs (exec .barDie p) (fun t => t.myCtx.pc = 0x1002 && t.me.barPass = none) = true ∧
    nextIs (exec .barrierRelease b) (fun t => (t.core 0).barPass = some (.quire, none)) = true := by
  simp only [CtlReady]; decide +kernel
theorem test_witness_SleepersAndBanks_steps :
    let p : Place := .spad 0 0x2000
    let a : Agent := ⟨0, 0⟩
    let s := inUser 0 0 0
    let q := s.onMyCtx fun c => { c with queued := some (p, true) }
    let g := { q with granules := [⟨p, none, [.request a true]⟩] }
    let h := { reserved true with turn := {} }
    let c := { s.onMyCtx (fun c => { c with amo := some (.computed (.spad 0 0x2004) [1, 2, 3, 4] [0, 0, 0, 0]) }) with
      granules := [⟨p, some (a, false), []⟩] }
    (q.context a).queued = some (p, true) ∧ q.granules = [] ∧ g.turn.index = 0 ∧ g.owned p 16 = false ∧
    (h.granules.map fun g => (g.place, g.holder)) = [(p, some (a, true))] ∧ (h.context a).granted ≠ some p ∧ (c.context a).amo = some (.computed (.spad 0 0x2004) [1, 2, 3, 4] [0, 0, 0, 0]) ∧
    c.watches = [] ∧
    nextIs (exec .reservationRequest q) (fun t => t.granules = [⟨p, none, [.request a true]⟩]) = true ∧
    nextIs (exec .reservationGrant g) (fun t => t.granules = [⟨p, some (a, true), []⟩] && t.myCtx.granted = some p) = true ∧
    nextIs (exec .reservationRevoke h) (fun t => t.granules = []) = true ∧
    nextIs (exec .reservationWriteBack c) (fun t => Memory.read t.me.spad 0x2004 4 = [1, 2, 3, 4]) = true := by decide +kernel
theorem test_witness_SleepersAndBanks_wakes :
    let s := (inUser 0 0 0).onMyCtx fun c => { c with watch := some (.spad 0 0x2000, true), woken := true, waiting := true }
    let r := (inUser 0 0 0).onMyCtx fun c => { c with watch := some (.spad 0 0x2000, false), woken := true, waiting := true }
    let p := (inUser 0 0 0).onMyCtx fun c => { c with watch := some (.remote 1 0x2000, true), waiting := true }
    (s.context ⟨0, 0⟩).waitWoken = true ∧ r.wrsWoken ⟨0, 0⟩ = true ∧ (p.context ⟨0, 0⟩).polls = true ∧ s.memWf ∧
    nextIs (exec .waitaddrRead s) (fun t => t.myCtx.watch = none) = true ∧
    nextIs (exec .wrsWake r) (fun t => t.myCtx.watch = none) = true ∧
    nextIs (exec .waitaddrRemotePoll p) (fun t => t.myCtx.watch = none) = true :=
  ⟨by decide, by decide, by decide, memWf_of _ (by decide), by decide⟩

/-! ### Statements about vectors -/

/-- Vector registers v1 and v2 hold the values given; fm0 is a format of a sign, four exponent and three mantissa bits. -/
def withV (s : State) (x y : VecReg) : State :=
  ((s.setV 1 x).setV 2 y).onCsr fun c => { c with fmt := c.fmt.set 0 0x7934 }
theorem test_witness_VectorIntegerAndLogicLanes :
    let s := withV (inUser 0 0 0) 0xFF7F 0x0201
    s.ctx = 0 ∧ s.issue.stay = false ∧
    nextIs (exec (.vadd .i8 3 1 2 0) s) (fun t => t.v 3 = 0x0180) = true ∧
    nextIs (exec (.vadds .i8 3 1 2 0) s) (fun t => t.v 3 = 0x017F && t.csr.aflags ≠ 0) = true ∧
    nextIs (exec (.vneg .n8 3 1 0) s) (fun t => t.csr.tcause = 1) = true ∧
    nextIs (exec (.vshl .i4 3 1 2 0) s) (fun t => t.v 3 = 0xFC7E) = true := by decide +kernel
theorem test_witness_VectorLaneMovement :
    let s := withV (inUser 5 0 0) 0x0302 0x0100
    s.ctx = 0 ∧ s.issue.stay = false ∧ (127 : BitVec 11).toNat < 128 ∧ 128 ≤ (128 : BitVec 11).toNat ∧
    ((-128 : BitVec 11)).toInt.natAbs ≤ 128 ∧ 128 < ((129 : BitVec 11)).toInt.natAbs ∧
    nextIs (exec (.vins .n8 1 1 127) s) (fun t => lane (t.v 1) 8 127 = 5 && lane (t.v 1) 8 0 = 2) = true ∧
    nextIs (exec (.vext .n8 4 1 128) s) (fun t => t.csr.tcause = 1) = true ∧
    nextIs (exec (.vslide .n8 3 1 2 (-1) 0) s) (fun t => lane (t.v 3) 8 1 = 2) = true ∧
    nextIs (exec (.vslide .n8 3 1 2 129 0) s) (fun t => t.csr.tcause = 1) = true ∧
    nextIs (exec (.vperm .n8 3 1 2 0) s) (fun t => lane (t.v 3) 8 1 = 3 && lane (t.v 3) 8 2 = 2) = true := by decide +kernel
theorem test_witness_VectorReductionsMasksAndCompares :
    let s := withV (inUser 0 0 0) 0xFF 2
    s.ctx = 0 ∧ s.issue.stay = false ∧
    nextIs (exec (.vredsum .i8 4 1 0) s) (fun t => t.w 4 = BitVec.allOnes 64) = true ∧
    nextIs (exec (.vredmin .i8 4 1 1) s) (fun t => t.w 4 = 127) = true ∧
    nextIs (exec (.vcmpLt .i8 1 1 2 0) s) (fun t => t.m 1 = 3) = true ∧
    nextIs (exec (.mnot 2 0) s) (fun t => t.m 2 = BitVec.allOnes 256) = true := by decide +kernel
theorem test_witness_VectorMemory :
    let s := withV (withBytes (inUser (L 0x2000) (L 0x2004) 0) 0x2000 [1, 2, 3, 4]) 0 0
    let o (_ : Nat) : Nat := 0x2000
    let at' (i : Nat) : Word := s.w 1 + BitVec.ofInt 64 ((lane (s.v 2) 32 i : Int) * 4)
    s.ctx = 0 ∧ s.issue.stay = false ∧ s.grain = none ∧ s.myCtx.got = [] ∧ OwnBytes s (s.w 1 + BitVec.ofInt 64 ((0 : BitVec 11).toInt * 128)) 128 128 0x2000 ∧
    s.csr.ph = false ∧ regionOf (s.w 2) = .loc 0 0 0x2004 ∧ (s.w 2).toNat % 128 ≠ 0 ∧ IntTy.lane .i4 = 4 ∧ 8 ≤ IntTy.lane .n32 ∧
    0x2000 < 0x40000 ∧ s.w 1 = localAddr 0x2000 ∧ (∀ i, i < 32 → OwnBytes s (at' i) 4 4 (o i)) ∧
    nextIs (exec (.vld .n8 3 1 0 0) s) (fun t => t.v 3 = 0x04030201) = true ∧
    nextIs (exec (.vldx .n32 3 1 2 0) s) (fun t => lane (t.v 3) 32 31 = 0x04030201) = true ∧
    nextIs (exec (.vld .n8 3 2 0 0) s) (fun t => t.csr.tcause = 3) = true := by
  simp only [OwnBytes]; decide +kernel
theorem test_witness_PackedBlocksAndHints :
    let s := withBytes (inUser (L 0x2000) (L 0x2002) (L 0x203C)) 0x2000 [1, 2, 3, 4, 5, 6, 7, 8, 9]
    s.issue.stay = false ∧ OwnBytes s (s.w 1 + BitVec.ofInt 64 ((0 : BitVec 11).toInt * 12)) 12 4 0x2000 ∧
    OwnBytes s (s.w 3 + BitVec.ofInt 64 ((0 : BitVec 11).toInt * 8)) 8 4 0x203C ∧ s.csr.ph = false ∧
    regionOf (s.w 2) = .loc 0 0 0x2002 ∧ (s.w 2).toNat % 4 ≠ 0 ∧ OwnBytes s (s.w 1 + (0 : BitVec 11).signExtend 64) 1 1 0x2000 ∧
    sbTouches s.me.sb (.spad s.cur (0x2000 / 64 * 64)) 64 = false ∧
    nextIs (exec (.ldpk .c6 4 1 0 .dflt) s) (fun t => t.w 4 = 0x0807060504030201 && t.w 5 = 9) = true ∧
    nextIs (exec (.ldpk .c4 4 2 0 .dflt) s) (fun t => t.csr.tcause = 3) = true ∧
    nextIs (exec (.cflush 1 0) s) (fun t => t.myCtx.pc = 0x1002) = true ∧
    nextIs (exec (.pref 1 0) s) (fun t => t.myCtx.pc = 0x1002) = true := by
  simp only [OwnBytes]; decide +kernel
theorem test_witness_VectorFloatArithmeticAndTraps :
    let s := withV (inUser 0 0 0) 0x3F800000 0x40000000
    let r := s.onCsr fun c => { c with actl := 3 }
    s.ctx = 0 ∧ s.issue.stay = false ∧ (s.csr.format 0).valid = true ∧ (s.csr.actl.extractLsb' 0 2).toNat = 0 ∧
    (r.csr.actl.extractLsb' 0 2).toNat = 3 ∧ (s.csr.format 1).valid = false ∧
    nextIs (exec (.vfadd .f32 3 1 2 0 none) s) (fun t => lane (t.v 3) 32 0 = 0x40400000 && lane (t.v 3) 32 1 = 0) = true ∧
    nextIs (exec (.vfadd .f32 3 1 2 0 none) r) (fun t => t.csr.tcause = 1) = true ∧
    nextIs (exec (.vfabs (.fm 1) 3 1 0) s) (fun t => t.csr.tcause = 4 && t.csr.tval = 0) = true ∧
    nextIs (exec (.vfmax .f32 3 1 2 0) s) (fun t => lane (t.v 3) 32 0 = 0x40000000) = true := by decide +kernel
theorem test_witness_VectorFloatComparesAndReductions :
    let s := withV (inUser 0 0 0) 0x80000000 0x40000000
    s.ctx = 0 ∧ s.issue.stay = false ∧ (s.csr.format 0).valid = true ∧ (s.csr.actl.extractLsb' 0 2).toNat = 0 ∧
    nextIs (exec (.vfcmpEq .f32 1 1 3 0) s) (fun t => t.m 1 = BitVec.allOnes 256) = true ∧
    nextIs (exec (.vfredsum .f32 4 2 0 none) s) (fun t => t.w 4 = 0x40000000) = true := by decide +kernel
theorem test_witness_ConversionsAndRandomNumbers :
    let s := withV (inUser 0 0 0) 0x3F800000 0x40000000
    s.ctx = 0 ∧ s.issue.stay = false ∧ (s.csr.format 0).valid = true ∧ (s.csr.actl.extractLsb' 0 2).toNat = 0 ∧
    (FloatTy.fm 0 ≠ .f32) ∧ ((1 : VReg) ≠ 2) ∧
    nextIs (exec (.vcvtFi .i32 .f32 3 2 0 none) s) (fun t => lane (t.v 3) 32 0 = 2) = true ∧
    nextIs (exec (.vpack (.fm 0) 3 1 2 none) s) (fun t => lane (t.v 3) 8 0 = 0x38 && lane (t.v 3) 8 32 = 0x40) = true ∧
    nextIs (exec (.vpack .f32 3 1 2 none) s) (fun t => t.csr.tcause = 1) = true ∧
    nextIs (exec (.vrng 2 2 0) s) (fun t => t.csr.tcause = 1) = true ∧
    nextIs (exec (.vrng 3 2 0) s) (fun t => lane (t.v 2) 128 0 = 0x40000001 && lane (t.v 2) 128 7 = 1) = true := by decide +kernel

/-! ### Statements about the matrix unit, the governor and conduits -/

/-- A matrix configuration with the smallest fields. -/
def cfg0 : BitVec 512 := 2 + 2 * 2 ^ 8 + 16 * 2 ^ 32 + 64 * 2 ^ 96
/-- Core 0 with that configuration, a plane window at offset 0x8000 and operands there. -/
def withCfg (n : Nat) : State :=
  let s := inUser (L 0x4000) (L (6 * 0x2000000 + 0x8000)) n
  s.onMe fun c =>
    { c with mcfg := cfg0, csr := { c.csr with fmt := c.csr.fmt.set 0 0x7934, wins := c.csr.wins.set 6 ⟨0x8000, 0⟩ } }
def op0 (started : Bool) : MatrixOp :=
  { acc := 1, cfg := cfg0, aCsr := Csr.reset, bCsr := Csr.reset, aAddr := L 0x4000, bAddr := L 0x8000, aImg := [], bImg := []
    todo := [], aCond := none, bCond := none, planes := 32, ready := 0, rect := false, started := started, bad := none }
theorem test_witness_MatrixConfigurationAndAccumulators :
    let s := withBytes (inUser (L 0x2000) 63 (L 0x2040)) 0x2000 (toBytes 64 cfg0.toNat)
    CtlReady s 0 ∧ OwnBytes s (s.w 1) 64 64 0x2000 ∧ OwnBytes s (s.w 3) 64 64 0x2040 ∧ s.me.mops = [] ∧
    mcfgValid (BitVec.ofNat 512 (ofBytes (s.ownBytes 0x2000 64))) = true ∧
    mcfgValid (BitVec.ofNat 512 (ofBytes (s.ownBytes 0x2040 64))) = false ∧ (s.w 2).toNat < 64 ∧ 64 ≤ (s.w 1).toNat ∧
    nextIs (exec (.mcfg 1) s) (fun t => t.me.mcfg = cfg0) = true ∧
    nextIs (exec (.mcfg 3) s) (fun t => t.csr.tcause = 0xF && t.csr.tval = L 0x2040) = true ∧
    nextIs (exec (.mrowWr 1 2 3) ((withV s 7 0).onMe fun c => c)) (fun t => t.me.acc[3][63] = 7) = true ∧
    nextIs (exec (.mrowRd 1 1 3) s) (fun t => t.csr.tcause = 1) = true ∧
    nextIs (exec (.mstat 4) (s.onMe fun c => { c with nanc := 3, mops := [op0 true] })) (fun t => t.w 4 = 3 + 2 ^ 49) = true := by
  simp only [CtlReady, OwnBytes]; decide +kernel
theorem test_witness_MatrixProducts :
    let s := withCfg 0
    let n := (withCfg 0).onMe fun c => { c with mcfg := 0 }
    CtlReady s 0 ∧ mcfgValid s.me.mcfg = true ∧ mAcd s.me.mcfg = 0 ∧ mBcd s.me.mcfg = 0 ∧ s.me.mops.length < 2 ∧
    mN s.me.mcfg = 0 ∧ s.quires = [] ∧
    (match rangesA s.csr s.me.mcfg 0 (s.w 1) with | .ok r => decide (checkRanges s.me r (s.w 1) = .ok ()) | .error _ => false) = true ∧
    (match rangesB s.csr s.me.mcfg 0 (s.w 2) with
      | .ok r => decide (checkRanges s.me (r ++ rangesMask s.me.mcfg) (s.w 2) = .ok ()) | .error _ => false) = true ∧
    badMask (s.lineImage 0 (rangeLines (rangesMask s.me.mcfg))) s.me.mcfg = none ∧
    s.me.bad = [] ∧ CtlReady n 0 ∧ mcfgValid n.me.mcfg = false ∧
    nextIs (exec (.msmac 1 1 2) s) (fun t => t.csr.tcause = 0xF) = true := by
  simp only [CtlReady]; decide +kernel
theorem test_witness_MatrixProducts_steps :
    let s := (withCfg 0).onMe fun c => { c with mops := [op0 false] }
    let d := (withCfg 0).onMe fun c => { c with mops := [op0 true] }
    (s.core s.turn.core).mops = [op0 false] ∧ (op0 false).aCond = none ∧ (op0 false).bCond = none ∧ (op0 false).started = false ∧
    (d.core d.turn.core).mops = [op0 true] ∧ (op0 true).started = true ∧ (op0 true).todo = [] ∧ (op0 true).bad = none ∧
    (op0 true).ready + (op0 true).planes ≤ 256 ∧ 256 ≤ (d.core 0).allowance ∧
    nextIs (exec .matrixOperationStart s) (fun t => (t.me.mops.map fun o => o.started) = [true]) = true ∧
    nextIs (exec .matrixOperationComplete d) (fun t => t.me.mops = [] && t.me.govUsed = 32) = true := by decide +kernel
theorem test_witness_GovernorWindowsAndWrites :
    let s := { inUser 0 0 0 with turn := { value := 511 + 512 * 3 }, thermal := #v[1, 0, 0, 0] }
    let o := { op0 true with planes := 300, ready := 6 }
    let g := s.onMe fun c => { c with mops := [o], allowance := 64, govUsed := 4 }
    let n := (g.core 0).nextWindow 256 0
    (g.core (g.turn.unit * 96 + 0)).mops = [o] ∧ o.started = true ∧
    n.govLast = 64 ∧ n.csr.mgovStall = 190 ∧ (n.mops.map fun o => o.planes) = [240] ∧ n.allowance = 256 ∧
    nextIs (exec .govctlWrite s) (fun t => (t.quire 0).govNext.toNat % 512 = 192) = true := by decide +kernel
/-- Conduit 1 of core 0 is configured with two entries of 128 bytes at 0x2000; w1 is an operand of `cdcfg`. -/
def withConduit (head tail free : Nat) (prod cons : Bool) (a : Word) : State :=
  (withBytes (inUser a 0 0) 0x3000 (toBytes 4 0x2000 ++ toBytes 2 128 ++ toBytes 2 2 ++ [1])).onMe fun c =>
    { c with conduits := c.conduits.set 1 ⟨0x2000, 128, 2, prod, cons, 0, head, tail, free⟩ }
theorem test_witness_ConduitOperations :
    let c := withConduit 0 0 2 false false (L 0x3000)
    let b := withConduit 0 0 2 false false (L 0x3010)
    let i := withConduit 0 0 2 false false 6
    let f := withConduit 1 3 0 false false 1
    let e := withConduit 3 3 2 false false 1
    let u := withConduit 1 3 0 true true 1
    let w := (withConduit 1 3 0 false false 4).onMe fun c => { c with mops := [{ op0 true with aCond := some 1 }] }
    CtlReady c 0 ∧ (c.w 1).toNat % 16 = 0 ∧ OwnBytes c (c.w 1) 16 16 0x3000 ∧ c.conduitBusy c.cur 1 = false ∧
    conduitOf (c.ownBytes 0x3000 16) = some ⟨0x2000, 128, 2, true, false, 0, 0, 0, 2⟩ ∧ sharesOwn c.me 0x2000 256 = true ∧
    c.csr.dqlocal.getLsbD 0 = false ∧ OwnBytes b (b.w 1) 16 16 0x3010 ∧ conduitOf (b.ownBytes 0x3010 16) = none ∧
    6 ≤ (i.w 1).toNat % 16 ∧ w.conduitBusy w.cur 1 = true ∧ f.me.conduits[1].head < f.me.conduits[1].tail ∧ f.me.conduits[1].free = 0 ∧
    e.me.conduits[1].tail ≤ e.me.conduits[1].head ∧ 0 < e.me.conduits[1].free ∧ u.me.conduits[1].cons = true ∧ u.me.conduits[1].prod = true ∧
    nextIs (exec (.cdcfgConfigure 1 1) c) (fun t => t.me.conduits[1] = ⟨0x2000, 128, 2, true, false, 0, 0, 0, 2⟩) = true ∧
    nextIs (exec (.cdcfgConfigure 1 1) b) (fun t => t.csr.tcause = 1) = true ∧
    nextIs (exec (.cdcfgConfigure 1 1) i) (fun t => t.csr.tcause = 1) = true ∧
    nextIs (exec (.cdcfgReset 1 1) w) (fun t => t.myCtx.waiting) = true ∧
    nextIs (exec (.cdcfgPop 1 1) f) (fun t => t.me.conduits[1].head = 2 && t.me.conduits[1].free = 1) = true ∧
    nextIs (exec (.cdcfgPush 1 1) f) (fun t => t.csr.tcause = 1) = true ∧
    nextIs (exec (.cdcfgWaitFree 1 1) f) (fun t => t.myCtx.waiting) = true ∧
    nextIs (exec (.cdcfgPush 1 1) e) (fun t => t.me.conduits[1].tail = 4) = true ∧
    nextIs (exec (.cdcfgPop 1 1) u) (fun t => t.csr.tcause = 1) = true := by
  simp only [CtlReady, OwnBytes]; decide +kernel
theorem test_witness_RepetitionSequences :
    let s := inUser 3 4097 0
    let seq (n total : Nat) : RepSeq := ⟨false, n, total, [], 0x1000, 0, none, Ctx.reset⟩
    let r (n total : Nat) := s.onMe fun c => { c with rep := some (seq n total) }
    let item : RepItem := ⟨0x1000, 0x1000, 0x1002, Chain.plain 0 0 0⟩
    let b := s.onMe fun c => { c with rep := some { seq 1 3 with body := [item], k := 1 } }
    CtlReady s 0 ∧ (s.w 1).toNat ≤ 4096 ∧ 4096 < (s.w 2).toNat ∧ (r 2 3).me.rep = some (seq 2 3) ∧ (seq 2 3).body.length + 1 < 2 ∧
    (seq 1 1).body.length + 1 = 1 ∧ (seq 1 3).total ≠ 1 ∧ (b.core b.turn.core).rep = some { seq 1 3 with body := [item], k := 1 } ∧
    ({ seq 1 3 with body := [item], k := 1 } : RepSeq).recorded = true ∧
    nextIs (exec (.repx 1 2) s) (fun t => t.me.rep.map (fun r => (r.alone, r.n, r.total)) = some (true, 2, 3)) = true ∧
    nextIs (exec (.rep 2 2) s) (fun t => t.csr.tcause = 1) = true ∧
    (r 1 1).record.me.rep = none ∧ (r 1 3).record.me.rep.map (fun r => (r.k, r.recorded)) = some (1, true) ∧
    nextIs (exec .repReissue b) (fun t => (t.core 0).reissued.map (fun x => x.1) = some item) = true := by
  simp only [CtlReady]; decide +kernel
/-- Core 0 is in a communication phase of 100 cycles, in cycle 4. -/
def phase0 (sent : Option Nat) : Phase := { len := 100, cycle := 4, base := 0, routes := [(.north, .south, 0)], sent := sent }
def inPhase (sent : Option Nat) (a : Word) : State :=
  (inUser a 0 0).onMe fun c => { c with phase := some (phase0 sent), csr := { c.csr with status := 0x40 }, recv := c.recv.set 3 77 }
theorem test_witness_SewingInstructions :
    let s := (inUser 100 0 0).onMe fun c => { c with afterBar := true }
    let b := inUser 0 0 0
    let p := inPhase none 9
    let q := (inPhase (some 3) 9).onQuire 0 fun x => { x with drives := [⟨3, 0, .east, 9, true⟩], sewClk := 4 }
    let x := (inPhase (some 3) 9).onQuire 0 fun x => { x with drives := [⟨3, 0, .rowBus, 9, true⟩, ⟨3, 1, .rowBus, 8, true⟩], sewClk := 4 }
    s.ctx = 0 ∧ s.issue.stay = false ∧ s.issue.reissue = false ∧ s.csr.ph = false ∧ s.me.afterBar = true ∧ 1 ≤ (s.w 1).toNat ∧
    (s.w 1).toNat ≤ 4096 ∧ (s.w 2).toNat = 0 ∧ b.me.afterBar = false ∧ p.csr.ph = true ∧ p.me.phase = some (phase0 none) ∧
    (phase0 none).sent = none ∧ q.csr.ph = true ∧ q.me.phase = some (phase0 (some 3)) ∧ q.settled q.myQuire 3 = true ∧
    (q.quire 0).conflict ⟨3, 0, .east, 0, true⟩ = false ∧ x.settled x.myQuire 3 = true ∧
    (x.quire 0).conflict ⟨3, 0, .rowBus, 0, true⟩ = true ∧
    nextIs (exec (.phBegin 1) s) (fun t => t.csr.ph && t.me.phase.map (fun p => p.len) = some 100) = true ∧
    nextIs (exec (.phBegin 2) s) (fun t => t.csr.tcause = 1 && t.csr.tval = 0) = true ∧
    nextIs (exec (.phBegin 1) b) (fun t => t.csr.tcause = 7) = true ∧
    nextIs (exec (.rxw 4 .west) p) (fun t => t.w 4 = 77) = true ∧
    nextIs (exec (.mux .north .north) p) (fun t => t.me.phase.map (fun p => p.routes) = some []) = true ∧
    nextIs (exec (.tx 1 .east) p) (fun t => (t.quire 0).drives = [⟨4, 0, .east, 9, true⟩] && t.myCtx.waiting) = true ∧
    nextIs (exec (.tx 1 .east) q) (fun t => t.myCtx.pc = 0x1002) = true ∧
    nextIs (exec (.tx 1 .rowBus) x) (fun t => t.csr.tcause = 7) = true := by decide +kernel
theorem test_witness_SewingSteps :
    let d : Drive := ⟨3, 0, .east, 9, true⟩
    let s := (inPhase none 0).onQuire 0 fun x => { x with drives := [d], sewClk := 4 }
    let b : Drive := ⟨1, 0, .rowBus, 9, true⟩
    let u := (inPhase none 0).onQuire 0 fun x => { x with drives := [b], sewClk := 4 }
    let e := (inPhase none 0).onMe fun c => { c with phase := some { phase0 none with len := 4 } }
    s.turn.unit = 0 ∧ (s.quire 0).rects = [] ∧ (s.quire 0).holds = [] ∧ (s.core 0).inPhase.isSome = true ∧ s.phasesAt 0 4 = true ∧
    (s.quire 0).sewClk = d.cycle + 1 ∧ (u.quire 0).sewClk = b.cycle + 3 ∧ u.phasesAt 0 4 = true ∧
    (e.core 0).run = .task ∧ (e.core 0).phase = some { phase0 none with len := 4 } ∧
    nextIs (exec .receiveRegisterLatch s) (fun t => (t.core 1).recv[3] = 9) = true ∧
    nextIs (exec .receiveRegisterLatch u) (fun t => (t.core 11).recv[4] = 9 && (t.core 12).recv[4] = 0) = true ∧
    nextIs (exec .phaseLengthExpiry e) (fun t => t.me.overrun = some 4 && !t.csr.ph) = true := by decide +kernel
/-- Core 13 is in a phase, with a rectangle's descriptor of its row and column at 0x2000. -/
def inRect (sent : Option Nat) (desc : List Byte) : State :=
  let s := { inUser 0 0 0 with cur := 13 }
  (withBytes (s.onMe fun _ => { Core.reset 13 with run := .task, csr := { Csr.reset with status := 0x40, tvec := 0x8000 }, mcfg := cfg0
                                                   phase := some (phase0 sent) }) 0 []).onMe fun c =>
    { c with spad := Memory.write c.spad 0x2000 desc, ctxs := c.ctxs.set 0 { c.ctxs[0] with w := c.ctxs[0].w.set 1 (L 0x2000) } }
def desc0 (nr : Byte) : List Byte := [0, 0, nr, 2] ++ List.replicate 60 0
def part0 (verdict : Option Bool) (desc : List Byte) : RectPart := ⟨13, 4, desc, cfg0, 1, 32, verdict⟩
theorem test_witness_RectangleOperations_join :
    let s := inRect none (desc0 2)
    let r : Rect := ⟨0, 0, 2, 2, 0, 0⟩
    s.ctx = 0 ∧ s.issue.stay = false ∧ s.issue.reissue = false ∧ s.csr.ph = true ∧ s.me.phase = some (phase0 none) ∧
    OwnBytes s (s.w 1) 64 64 0x2000 ∧ s.me.mops.length < 2 ∧ mcfgValid s.me.mcfg = true ∧ mAcd s.me.mcfg = 0 ∧ mBcd s.me.mcfg = 0 ∧
    rectOf (s.ownBytes 0x2000 64) = some r ∧ r.holds s.cur = true ∧ (phase0 none).cycle + 23 + planesOf s.me.mcfg + 1 ≤ (phase0 none).len ∧
    (s.quire 0).holds = [] ∧ gridCol s.cur ≠ r.col0 ∧ gridRow s.cur ≠ r.row0 ∧ checkMaskAddr s.me s.me.mcfg = .ok () ∧
    (inUser 0 0 0).csr.ph = false ∧
    nextIs (exec (.mrect 1 1) s) (fun t => t.myCtx.waiting && (t.quire 0).rects.map (fun p => p.core) = [13]) = true ∧
    nextIs (exec (.mrect 1 1) (inUser 0 0 0)) (fun t => t.csr.tcause = 7) = true := by
  simp only [OwnBytes]; decide +kernel
theorem test_witness_RectangleOperations_exchange :
    let one := [1, 1, 1, 1] ++ List.replicate 60 (0 : Byte)
    let s (v : Option Bool) (d : List Byte) := (inRect (some 3) d).onQuire 0 fun x => { x with rects := [part0 v d] }
    let r : Rect := ⟨1, 1, 1, 1, 0, 0⟩
    ((s (some true) one).quire 0).rects = [part0 (some true) one] ∧ (part0 none one).core = 13 ∧ (part0 none one).verdict = none ∧
    rectOf one = some r ∧ (s none one).panelsFree (part0 none one) = true ∧
    ((s none one).onMe fun c => { c with phase := some { phase0 (some 3) with cycle := 5 } }).phasesAt 0 5 = true ∧ r.members 0 = [13] ∧
    12 ∈ (⟨1, 0, 1, 2, 0, 0⟩ : Rect).members 0 ∧
    nextIs (exec (.mrect 1 1) (s (some true) one)) (fun t => (t.quire 0).rects = [] && t.myCtx.pc = 0x1002) = true ∧
    nextIs (exec (.mrect 1 1) (s (some false) one)) (fun t => t.csr.tcause = 7) = true := by decide +kernel
theorem test_witness_CopyEngine_issue :
    let d := toBytes 8 (L 0x4000).toNat ++ toBytes 8 (L 0x5000).toNat ++ List.replicate 48 (0 : Byte)
    let s := withBytes (inUser (L 0x2000) 0 0) 0x2000 d
    let e := withBytes (inUser (L 0x2000) 0 0) 0x2000 (toBytes 16 0 ++ toBytes 4 (2 ^ 24 + 1))
    let f := (inUser (L 0x2000) 0 0).onQuire 0 fun x => { x with comps := List.replicate 16 ⟨0, 1, none, 0⟩ }
    let k := s.onMe fun c => { c with copyOk := true }
    CtlReady s 0 ∧ s.me.copyOk = false ∧ s.me.copyReq = none ∧ OwnBytes s (s.w 1) 64 64 0x2000 ∧ s.inFlight s.cur < 16 ∧ s.me.sb = [] ∧
    (match planCopy s .cp (s.w 1) (s.ownBytes 0x2000 64) with | .ok _ => true | .error _ => false) = true ∧
    (copyDesc (s.ownBytes 0x2000 64)).len = 0 ∧ copyFieldsOk .cp (e.ownBytes 0x2000 64) (copyDesc (e.ownBytes 0x2000 64)) = false ∧
    16 ≤ f.inFlight f.cur ∧ k.me.copyOk = true ∧ s.inFlight s.cur = 0 ∧
    nextIs (exec (.cp 1) s) (fun t => t.me.copyReq.isSome && t.myCtx.waiting) = true ∧
    nextIs (exec (.cp 1) e) (fun t => t.csr.tcause = 1 && t.csr.tval = L 0x2000) = true ∧
    nextIs (exec (.cp 1) f) (fun t => t.myCtx.waiting && t.me.copyReq.isNone) = true ∧
    nextIs (exec (.cp 1) k) (fun t => t.myCtx.pc = 0x1002) = true ∧ nextIs (exec .cpfence f) (fun t => t.myCtx.waiting) = true := by
  simp only [CtlReady, OwnBytes]; decide +kernel
/-- A copy command of core 0 of eight bytes from 0x4000 to 0x5000. -/
def cmd0 (ps : List Piece) (cache : List (Word × List Byte)) (held done : Bool) : CopyCmd :=
  { seq := 1, time := 0, core := 0, source := .raw (L 0x4000) 8 0, form := .bytes, mode := 0, active := true, pieces := ps
    gapVas := [], gaps := [], devs := [], homes := [], cache := cache, conduit := none, key := none, held := held, cores := [0]
    remote := none, reading := none, wants := [], err := none, done := done }
def piece0 : Piece := ⟨[0], [⟨L 0x5000, 8, [.spad 0 0x5000]⟩], none⟩
def copying (c : CopyCmd) (comps : List Completion) : State :=
  { (withBytes (inUser 0 0 0) 0x4000 [1, 2, 3, 4, 5, 6, 7, 8]).onQuire 0 fun x => { x with cmds := [c], comps := comps } with turn := { index := 1 } }
theorem test_witness_CopyEngine_steps :
    let line := [1, 2, 3, 4, 5, 6, 7, 8] ++ List.replicate 56 (0 : Byte)
    let a := (inUser 0 0 0).onMe fun c => { c with copyReq := some (cmd0 [] [] false false, ⟨0, 0, none, 0⟩) }
    let h := copying (cmd0 [piece0] [] true false) []
    let r := copying (cmd0 [piece0] [] false false) []
    let w := copying (cmd0 [piece0] [(L 0x4000, line)] false false) []
    let c := copying (cmd0 [] [] false true) [⟨0, 1, some (.spad 0 0x6000), 9⟩]
    (a.core 0).copyReq.isSome = true ∧ h.quires.length = 1 ∧ h.granules = [] ∧ h.watches = [] ∧ h.memWf ∧ r.memWf ∧ w.memWf ∧ c.memWf ∧
    (h.core 0).bad = [] ∧ h.turn.index = 1 ∧ (cmd0 [piece0] [] false false).missing piece0 = some (L 0x4000) ∧
    (match r.sourcePlace (cmd0 [piece0] [] false false) (L 0x4000) with | (.ok p, t) => decide (p = .spad 0 0x4000 ∧ t = r) | _ => false) = true ∧
    (cmd0 [piece0] [(L 0x4000, line)] false false).missing piece0 = none ∧
    nextIs (exec .copyCommandAccept a) (fun t => t.me.copyOk && (t.quire 0).accepted = 1) = true ∧
    nextIs (exec .combineHoldExpiry h) (fun t => (t.quire 0).cmds = [cmd0 [piece0] [] false false]) = true ∧
    nextIs (exec .copyLineMove r) (fun t => (t.quire 0).cmds = [cmd0 [piece0] [(L 0x4000, line)] false false]) = true ∧
    nextIs (exec .copyLineMove w) (fun t => Memory.read t.me.spad 0x5000 8 = [1, 2, 3, 4, 5, 6, 7, 8]) = true ∧
    nextIs (exec .copyCompletionWrite c) (fun t => Memory.read t.me.spad 0x6000 2 = [9, 0] && (t.quire 0).cmds = []) = true :=
  have wf : ∀ c, c ∈ [cmd0 [piece0] [] false false, cmd0 [piece0] [(L 0x4000, [1, 2, 3, 4, 5, 6, 7, 8] ++ List.replicate 56 0)] false false] →
      (copying c []).memWf := by
    intro c hc
    simp only [List.mem_cons, List.not_mem_nil, or_false] at hc
    obtain rfl | rfl := hc <;> exact memWf_of _ (by decide +kernel)
  ⟨by decide, by decide, by decide, by decide, memWf_of _ (by decide +kernel), wf _ (by simp), wf _ (by simp), memWf_of _ (by decide +kernel),
    by decide +kernel⟩
theorem test_witness_BoundaryEventsTrap :
    let s := inUser 0 0 0
    let f (g : Core → Core) := s.onMe g
    s.csr.tvec ≠ 0 ∧ (f fun c => { c with impErr := [5] }).boundary 0 = some .imprecise ∧
    (f fun c => { c with repFault := some (4, 6) }).boundary 0 = some .sequence ∧
    (f fun c => { c with overrun := some 9 }).boundary 0 = some .overrun ∧
    (f fun c => { c with badHandle := [7] }).boundary 0 = some .handle ∧
    (f fun c => { c with overflow := some ⟨0, 0, true, [], false⟩ }).boundary 0 = some .inbox ∧
    (f fun c => { c with bpHit := some 8 }).boundary 0 = some .breakpoint ∧
    (f fun c => { c with csr := { c.csr with status := 0x10 } }).csr.tk = true ∧
    nextIs (exec .impreciseErrorEvent (f fun c => { c with impErr := [5] })) (fun t => t.csr.tcause = 0xE && t.csr.tval = 5) = true ∧
    nextIs (exec .breakpoint (f fun c => { c with bpHit := some 8 })) (fun t => t.csr.tcause = 0x13 && t.csr.epc = 0) = true := by decide +kernel
theorem test_witness_Preemption :
    let s := (inUser 0 0 0).onMe fun c => { c with csr := { c.csr with dmem := 0 } }
    let q := { s with turn := { opt := some 0x10000 } }
    let i := { s with turn := { opt := some 0x100 } }
    let h := { s.onMe (fun c => { c with preempt := some ⟨0x10000, none, 0, some .die, false⟩ }) with gtime := 1000000 }
    let v := s.onMe fun c => { c with preempt := some ⟨0x10000, none, 0, none, true⟩ }
    (q.core 0).run ≠ .stopped ∧ saveAddrOk q.turn.opt = true ∧ saveAddrOk none = true ∧ saveAddrOk i.turn.opt = false ∧
    1000000 ≤ (h.gtime - 0).toNat ∧ v.boundary 0 = some .preempt ∧ (v.save 0).isSome = true ∧
    nextIs (exec .preemptionRequest q) (fun t => t.me.preempt = some ⟨0x10000, none, 0, none, true⟩) = true ∧
    nextIs (exec .preemptionRequest i) (fun t => t.reports = [(2, 0)]) = true ∧
    nextIs (exec .preemptionHoldTimeout h) (fun t => t.me.preempt.map (fun p => (p.level, p.free)) = some (none, true)) = true := by decide +kernel
/-- Core 0 is to be saved at 0x10000; its program counter and w1 hold values. -/
def saving : State :=
  (inUser 0x1234 0 0).onMe fun c =>
    { c with csr := { c.csr with dmem := 0 }, preempt := some ⟨0x10000, none, 0, none, true⟩, ctxs := c.ctxs.set 0 { c.ctxs[0] with pc := 0x7002 } }
theorem test_witness_Preemption_save :
    saving.boundary 0 = some .preempt ∧ (saving.save 0).isSome = true ∧ (saving.core 0).sb = [] ∧ saving.memWf ∧
    saveAddrOk (some 0x10000) = true ∧ (∀ q, (saving.quire q).lines = [] ∧ (saving.quire q).slices = [] ∧ (saving.quire q).forwards = []) :=
  ⟨by decide +kernel, by decide +kernel, by decide, memWf_of _ (by decide +kernel), by decide, no_lines (by decide)⟩
theorem test_witness_Preemption_save_completes : ∃ t, saving.save 0 = some t ∧ exec .preemptionSave saving = .next t := by
  have h : (saving.save 0).isSome = true := by decide +kernel
  have b : saving.boundary 0 = some .preempt := by decide +kernel
  have n : saving.turn.core = 0 := rfl
  obtain ⟨t, ht⟩ := Option.isSome_iff_exists.mp h
  exact ⟨t, ht, by simp [exec, execPreemptionSave, takeBoundary, n, b, ht]⟩
theorem test_witness_Preemption_restore_of_none :
    let s := (inUser 0 0 0).onMe fun c => { c with csr := { c.csr with dmem := 0 } }
    let b := { s with turn := { flag := true, value := 0x20000 } }
    let w := { s.onMe (fun c => { c with csr := { c.csr with dmem := 0x22 }, barWait := some .die }) with
      turn := { opt := some 0x10000 }, episodes := [⟨.die, 0, [0], [], false, false, false⟩] }
    b.turn.opt = none ∧ saveAddrOk (some 0x20000) = true ∧ w.me.csr.heldLevel = some .die ∧ w.arrivalStands 0 = false ∧
    nextIs (exec .preemptionRequest b) (fun t => t.me.restore = some 0x20000) = true ∧
    nextIs (exec .preemptionRequest w) (fun t => t.me.preempt.map (fun p => p.free) = some true && t.me.barWait = none && t.episodes.all fun e => e.arrived = []) = true := by
  decide +kernel
/-- Core 0 sleeps and has the save area at 0 to restore, whose valid word is the value given. -/
def restoring (valid : Nat) : State :=
  (withHbm (withHbm (inUser 0 0 0) 0 (toBytes 4 valid)) 0x40 (toBytes 8 0x7000)).onMe fun c => { c with run := .asleep, restore := some 0 }
theorem test_witness_Preemption_restore :
    (restoring 0).restoreReady 0 = true ∧ fieldAt ((restoring 0).physLoad 0 saveLength 16).2 0 4 ≠ 1 := by decide +kernel
theorem test_witness_Preemption_restore_area :
    ((restoring 1).physLoad 0 saveLength 16).1 = restoring 1 := by decide +kernel
theorem test_witness_Preemption_restore_fields :
    (restoring 1).restoreReady 0 = true ∧ fieldAt ((restoring 1).physLoad 0 saveLength 16).2 0 8 = 1 ∧
    (((restoring 1).quire 0).qasr.extractLsb' 48 16).toNat = 0 := by decide +kernel
theorem test_witness_Preemption_restore_folio :
    restorable ((restoring 1).core 0) ((((restoring 1).physLoad 0 saveLength 16).2.drop 0x9800).take 64) = true := by decide +kernel
theorem test_witness_Preemption_restore_good :
    ((physPieces 0 saveLength).any fun p => (restoring 1).anyBad p 4096) = false := by decide +kernel
theorem test_witness_Preemption_context : (List.replicate 0x40 (0 : Byte)).length = 0x40 ∧ (Core.reset 0).ctxs[0].pc.getLsbD 0 = false := by
  decide +kernel

/-! ### Statements about pages 5 and 6 -/

/-- An image at 0x400 of HBM: its lexer table at 0x440, its automaton at 0x480, one lexeme, terminal and state. Its page
belongs to near binding 1, which has no instance in quire 0. -/
def imaged (loaded : Bool) (a : Word) : State :=
  let s := ((inUser a (L 0x2000) (2 ^ 32)).setBinding 1 ⟨.active, ⟨false, 64, 1, 0, 0, 0, 0, []⟩, none, []⟩).onMe fun c =>
    { c with grammar := { Grammar.reset with loaded := loaded, ntok := 8 }, dtlb := [⟨0, 12, 0x40000000001F⟩] }
  withHbm (withHbm (withHbm s 0x400 (toBytes 8 0x440 ++ toBytes 8 0x480)) 0x440 (toBytes 8 0 ++ toBytes 4 8 ++ toBytes 2 1 ++ toBytes 2 1))
    0x480 (toBytes 2 1)
def imageState : State := (imaged false 0x400).acquire 0 .dev
/-- What a field of the image reads as. -/
def imageField (va : Word) (n : Nat) : Nat := match imageAt va n imageState with | .ok (x, _) => x | .error _ => 0
/-- The fields of that image that a load reads, in the order of the tables of 11, and those that must be zero. -/
def imageFields : List (Word × Nat) :=
  let at' (p o : Nat) : Word := BitVec.ofNat 64 (p + o)
  [(0x400, 8), (at' 0x400 8, 8), (at' 0x400 0x10, 4), (at' 0x400 0x14, 4), (at' 0x400 0x18, 8), (0x440, 8),
    (at' 0x440 8, 4), (at' 0x440 0xC, 2), (at' 0x440 0xE, 2), (at' 0x440 0x10, 8), (at' 0x440 0x18, 8), (at' 0x440 0x20, 8),
    (at' 0x440 0x28, 8), (at' 0x440 0x30, 8), (at' 0x440 0x38, 8), (0x480, 2), (at' 0x480 2, 2), (at' 0x480 4, 4), (at' 0x480 8, 8),
    (at' 0x480 0x10, 8), (at' 0x480 0x18, 8), (at' 0x480 0x20, 8), (at' 0x480 0x28, 8), (at' 0x480 0x30, 8), (at' 0x480 0x38, 8)]
def imageZeros : List Word := [0x418, 0x460, 0x468, 0x470, 0x478, 0x490, 0x498, 0x4A0, 0x4A8, 0x4B0, 0x4B8]
/-- A field of the image reads as it should and leaves the state. -/
def fieldReads (f : Word × Nat) : Bool := okIs (imageAt f.1 f.2 imageState) fun x z => x = imageField f.1 f.2 && z = imageState
theorem test_witness_Grammar_image_reads :
    (imageState.cur = 0 ∧ imageState.ctx = 0 ∧ imageState.issue = (imaged false 0x400).issue ∧ imageState.me = (imaged false 0x400).me) ∧
    imageFields.all fieldReads = true := by decide +kernel
theorem test_witness_Grammar_image :
    imageField 0x400 8 = 0x440 ∧ imageField 0x408 8 = 0x480 ∧ imageField 0x414 4 = 0 ∧ imageZeros.all (fun z => imageField z 8 == 0) = true ∧
    imageField 0x440 8 = 0 ∧ imageField 0x448 4 = 8 ∧ imageField 0x44C 2 = 1 ∧ imageField 0x44E 2 = 1 ∧ imageField 0x410 4 < 8 ∧
    imageField 0x480 2 = 1 ∧ imageField 0x482 2 = 0 ∧ imageField 0x484 4 = 0 := by decide +kernel
theorem test_witness_Grammar_forms :
    let work (s : State) (w : GrammarWork) := s.onMe fun c => { c with gwork := some w }
    let n := imaged false 3
    let s := imaged true 3
    let a := work s (.step 3 (some (.inl 2)))
    let m := work s (.mask 0 1 [true] true none)
    (CtlReady s 0 ∧ s.me.grammar.bad = false ∧ (n.w 0 = 0) ∧ (s.w 1).toNat % 8 ≠ 0 ∧ s.me.gwork = none ∧ n.me.grammar.loaded = false ∧
    s.me.grammar.loaded = true ∧ (s.w 1).toNat < s.me.grammar.ntok ∧ s.me.grammar.ntok ≤ (s.w 2).toNat ∧ a.me.gwork = some (.step 3 (some (.inl 2))) ∧
    (s.w 3).toNat % 2 ^ 32 = 0 ∧ (s.w 3).toNat / 2 ^ 32 = 1 ∧ (s.w 1).toNat % 2 ^ 32 % 64 ≠ 0 ∧ OwnBytes s (s.w 2) 8 8 0x2000 ∧
    s.maskBuffers (dieOf s.cur) < 4 ∧ m.me.sb = [] ∧ m.granules = [] ∧ m.watches = [] ∧ m.me.mops = []) ∧ m.memWf ∧
    nextIs (exec (.gload 1) s) (fun t => t.csr.tcause = 3) = true ∧
    nextIs (exec (.gload 1) (imaged true 0x400)) (fun t => t.me.grammar.loaded && t.me.grammar.ntok = 8) = true ∧
    nextIs (exec (.gstep 4 1) n) (fun t => t.w 4 = 4) = true ∧ nextIs (exec (.gstep 4 2) s) (fun t => t.w 4 = 3) = true ∧
    nextIs (exec (.gstep 4 1) s) (fun t => t.me.gwork = some (.step 3 none)) = true ∧
    nextIs (exec (.gstep 4 1) a) (fun t => t.w 4 = 2) = true ∧ nextIs (exec (.gmask 2 1) s) (fun t => t.csr.tcause = 1) = true ∧
    nextIs (exec (.gmask 2 3) s) (fun t => t.me.gwork = some (.mask 0 1 [] false none)) = true ∧
    nextIs (exec (.gmask 2 3) m) (fun t => Memory.read t.me.spad 0x2000 2 = [1, 0] && t.me.grammar.loop) = true ∧
    nextIs (exec (.gstate 4) s) (fun t => t.w 4 = 2 ^ 48) = true :=
  ⟨by simp only [CtlReady, OwnBytes]; decide +kernel, memWf_of _ (by decide), by decide +kernel⟩
theorem test_witness_Grammar_unit :
    let s (e : Bool) (w : Option GrammarWork) := (imaged true 3).onMe fun c => { c with gwork := w, grammar := { c.grammar with ended := e } }
    (s true none).grammarNext 0 = none ∧ (s true (some (.step 3 none))).grammarNext 0 = some 0 ∧
    Ok (serveStep (s true none).me.grammar 3 { s true none with cur := 0, ctx := 0 }) (fun x v => x.1 = 1 && v.cur = 0) ∧
    (s true (some (.mask 0 4 [] false none))).grammarNext 0 = some 0 ∧
    nextIs (exec .grammarUnitServe (s true (some (.step 3 none)))) (fun t => t.me.gwork = some (.step 3 (some (.inl 1)))) = true ∧
    nextIs (exec .grammarUnitServe (s true (some (.mask 0 4 [] false none))))
      (fun t => t.me.gwork = some (.mask 0 4 [false, false, false, false] false none)) = true :=
  ⟨by decide, by decide, okIs_some (by decide +kernel), by decide +kernel⟩
/-- A sampling descriptor at 0x2000, for two logits of 16 bits at 0x3000. -/
def sampling (flags : Nat) (logits : List Byte) : State :=
  withBytes (withBytes (inUser (L 0x2000) 0 0) 0x2000
    (toBytes 8 (L 0x3000).toNat ++ toBytes 8 0 ++ toBytes 4 5 ++ toBytes 4 2 ++ toBytes 4 0x3F800000 ++ toBytes 4 flags)) 0x3000 logits
theorem test_witness_SamplingInstructions :
    let s (f : Nat) := sampling f [0x80, 0x3F, 0, 0x40]
    let n (f : Nat) := sampling f [0xC0, 0x7F, 0xC0, 0x7F]
    let g := (n 0).onMe fun c => { c with grammar := { Grammar.reset with loaded := true, fb := true, fallback := 9 } }
    let x (s : State) (k : Nat) : Val := bfloat16.decode (fieldAt (s.ownBytes 0x3000 4) (k * 2) 2)
    CtlReady (s 1) 0 ∧ (s 1).me.grammar.bad = false ∧ (s 1).myCtx.remote = none ∧ (s 1).grain = none ∧ (s 1).myCtx.got = [] ∧
    OwnBytes (s 1) ((s 1).w 1) 64 64 0x2000 ∧
    fieldAt ((s 1).ownBytes 0x2000 64) 0x14 4 = 2 ∧ (match valFp32 0x3F800000 with | .fin false m => decide (m.num ≠ 0) | _ => false) = true ∧ zeroAt ((s 1).ownBytes 0x2000 64) 0x34 12 = true ∧
    OwnBytes (s 1) (BitVec.ofNat 64 (fieldAt ((s 1).ownBytes 0x2000 64) 0 8)) 4 2 0x3000 ∧ (x (s 1) 0).isNan = false ∧
    (∀ k, k < 2 → (x (n 1) k).isNan = true) ∧ (n 1).me.grammar.loaded = false ∧ (n 1).csr.actl.getLsbD 2 = false ∧
    g.me.grammar.loaded = true ∧ g.me.grammar.fb = true ∧
    nextIs (exec (.sampBf16 4 1) (s 1)) (fun t => t.w 4 = 6) = true ∧
    nextIs (exec (.sampBf16 4 1) (s 2)) (fun t => t.w 4 = 5) = true ∧ nextIs (exec (.sampBf16 4 1) (n 1)) (fun t => t.w 4 = 0xFFFFFFFF) = true ∧
    nextIs (exec (.sampBf16 4 1) ((n 1).onCsr fun c => { c with actl := 4 })) (fun t => t.csr.tcause = 0x12) = true ∧
    nextIs (exec (.sampBf16 4 1) g) (fun t => t.w 4 = 9) = true := by
  simp only [CtlReady, OwnBytes]; decide +kernel
/-- Core 0 has a record at 0x2000, and binding `id` stands as given; its share 3 does too. -/
def recording (id : Nat) (old : Binding) (rec' : List Byte) (share : Share) : State :=
  let s := withBytes (at0 (BitVec.ofNat 64 id) (L 0x2000) 0x88) 0x2000 rec'
  ({ s with imago := true }.setBinding id old).onMe fun c => { c with shares := c.shares.set 3 share }
def rec1 : List Byte := [0, 0, 1] ++ List.replicate 0x15 0 ++ [1] ++ List.replicate 0x27 0 ++ [1]
def rec0 : List Byte := [1, 1, 8]
def r1 : BindRec := ⟨false, 64, 1, 0, 0, 0, 0, [(0, 1)]⟩
/-- A record has been read and only the context that reads differs. -/
def readAs (s : State) (r : BindRec) (p : State → Bool) (x : BindRec) (u : State) : Bool :=
  x = r && u = s.onMyCtx (fun _ => u.myCtx) && u.myCtx.w = s.myCtx.w && p u
theorem test_witness_Bindings_record_read :
    let s := recording 5 Binding.reset rec1 (.pooled 5)
    okIs (readRecord (s.w 2) none s) (readAs s r1 fun u => u.shortQuire 5 r1 none = none) = true := by decide +kernel
theorem test_witness_Bindings_record_short :
    let z := recording 5 Binding.reset rec1 .own
    okIs (readRecord (z.w 2) none z) (readAs z r1 fun u => u.shortQuire 5 r1 none = some 0) = true := by decide +kernel
theorem test_witness_Bindings_record_refused :
    let z := recording 5 Binding.reset [0, 0, 1, 1] (.pooled 5)
    (match readRecord (z.w 2) none z with | .error (.exc e) => decide (e = .trap 0x06 (L 0x2018)) | _ => false) = true ∧
    nextIs (exec (.bdef 1 2) z) (fun t => t.csr.tcause = 6) = true := by decide +kernel
theorem test_witness_Bindings_definition :
    let s := recording 5 Binding.reset rec1 (.pooled 5)
    let z := recording 5 Binding.reset rec1 .own
    CtlReady s 2 ∧ (s.w 1).toNat < 64 ∧ (s.w 2).toNat % 64 = 0 ∧ s.imago = true ∧ (s.binding 5).state = .undefined ∧
    64 ≤ (s.w 2).toNat ∧ (s.w 3).toNat % 64 ≠ 0 ∧ { s with imago := false }.imago = false ∧
    nextIs (exec (.bdef 1 2) s) (fun t => t.binding 5 = ⟨.active, r1, none, []⟩ && t.me.shares[3] = .held 5) = true ∧
    nextIs (exec (.bdef 1 2) z) (fun t => t.csr.tcause = 6 && t.csr.tval = L 0x2040) = true ∧
    nextIs (exec (.bdef 1 3) s) (fun t => t.csr.tcause = 3) = true :=
  by simp only [CtlReady]; decide +kernel
theorem test_witness_Bindings_resized_record :
    let s := recording 5 ⟨.active, r1, none, []⟩ rec1 .own
    okIs (readRecord (s.w 2) (some (s.binding 5).rec') s) (readAs s r1 fun u =>
      u.shortQuire 5 r1 (some (s.binding 5).rec') = none) = true := by decide +kernel
theorem test_witness_Bindings_drained_record :
    let z := recording 0 ⟨.active, binding0 chrysalisQuires, none, []⟩ rec0 .own
    okIs (readRecord (z.w 2) (some (z.binding 0).rec') z) (readAs z ⟨true, 128, 8, 0, 0, 0, 0, []⟩ fun _ => true) = true := by
  decide +kernel
theorem test_witness_Bindings_resizing :
    let s := recording 5 ⟨.active, r1, none, []⟩ rec1 .own
    let z := recording 0 ⟨.active, binding0 chrysalisQuires, none, []⟩ rec0 .own
    (s.binding 5).state = .active ∧ r1.count ≠ [] ∧
    nextIs (exec (.bresize 1 2) s) (fun t => t.binding 5 = ⟨.resizing, r1, some r1, [(0, 0)]⟩) = true ∧
    nextIs (exec (.bresize 1 2) z) (fun t => t.csr.tcause = 6 && t.csr.tval = 0) = true :=
  by decide +kernel
theorem test_witness_Bindings_shares :
    let s := (at0 5 0x0A 0).onMe fun c => { c with shares := Vector.replicate 32 .own }
    let p := (at0 (64 + 5) 0x0A 0).onMe fun c => { c with shares := Vector.replicate 32 (.pooled 5) }
    let x := s.onMe fun c => { c with shares := c.shares.set 1 (.held 0) }
    (s.w 1).toNat < 64 ∧ (s.w 2).toNat < 2 ^ 32 ∧ s.me.sb = [] ∧ (∀ k, k < 32 → (s.w 2).getLsbD k = true → s.shareBusy k = false) ∧
    s.storesComing s.cur ((List.finRange 32).filter fun k => (s.w 2).getLsbD k.val) = false ∧ (p.w 2).toNat < 2 ^ 31 ∧ s.me.refuses 31 = true ∧
    (∀ k : Fin 32, (s.w 2).getLsbD k = true → s.me.refuses k = false) ∧ (x.w 2).getLsbD 1 = true ∧ x.me.refuses 1 = true ∧
    (∀ j : Fin 32, j < 1 → (x.w 2).getLsbD j = true → x.me.refuses j = false) ∧ 64 ≤ (p.w 1).toNat ∧ (p.w 1).toNat < 128 ∧
    (∀ k : Fin 32, (p.w 2).getLsbD k = true → p.me.shares[k] = .pooled ((p.w 1).toNat - 64)) ∧ (s.binding 5).old = none ∧
    s.me.shares[1] ≠ .pooled 5 ∧ 128 ≤ ((at0 128 0 0).w 1).toNat ∧
    nextIs (exec (.bshare 1 2) s) (fun t => t.me.shares[1] = .pooled 5 && t.me.shares[3] = .pooled 5 && t.me.shares[0] = .own) = true ∧
    nextIs (exec (.bshare 1 2) x) (fun t => t.csr.tcause = 5 && t.csr.tval = L 0x2000) = true ∧
    nextIs (exec (.bshare 1 2) p) (fun t => t.me.shares[3] = .own && t.me.shares[0] = .pooled 5) = true ∧
    nextIs (exec (.bquery 4 1) s) (fun t => t.w 4 = 0) = true := by decide +kernel
/-- A line of 64 bytes at address 0 that binding 5 holds in set 0, way 0, its first bytes written. -/
def line5 : Line :=
  { binding := 5, base := 0, set := 0, way := 0, data := List.replicate 64 9, written := List.replicate 8 true ++ List.replicate 56 false
    bad := List.replicate 8 false, own := List.replicate 8 false, lease := none, leaseOnly := false, filled := 0, used := 0, moved := false }
theorem test_witness_Bindings_walks :
    let b (n : Nat) : Binding := ⟨.draining, { r1 with count := [] }, some r1, [(0, n)]⟩
    let s (n : Nat) := { recording 5 (b n) [] (.held 5) with turn := { unit := 5 } }
    ((s 0).binding 5).old = some r1 ∧ 0 < r1.sets 0 ∧ (s 0).setBusy 5 0 0 r1 = false ∧ r1.sets 0 ≤ 128 ∧ mapGet ((s 0).binding 5).passed 0 0 < r1.sets 0 ∧
    (s 128).memWf ∧ r1.count = [(0, 1)] ∧
    nextIs (exec .resizeSetMove (s 0)) (fun t => (t.binding 5).passed = [(0, 1)]) = true ∧
    nextIs (exec .resizeWalkEnd (s 128)) (fun t => (t.binding 5).state = .retired && t.me.shares[3] = .own) = true :=
  ⟨by decide, by decide, by decide +kernel, by decide, by decide, memWf_of _ (by decide), by decide +kernel⟩
theorem test_witness_Bindings_walks_of_lines :
    let home : BindRec := { r1 with home := true }
    let s (old new : BindRec) := { recording 5 ⟨.resizing, new, some old, [(0, 0)]⟩ [] (.held 5) with turn := { unit := 5 } }
    let h := (s home home).onQuire 0 fun q => { q with slices := [line5] }
    let n := (s r1 r1).onQuire 0 fun q => { q with lines := [line5] }
    let d := (s home { home with count := [] }).onQuire 0 fun q => { q with slices := [line5] }
    d.memWf ∧ line5.binding = 5 ∧ line5.set = 0 ∧ line5.moved = false ∧ line5.way < home.ways ∧ home.homeSlice 0 = some (0, 0) ∧
    (h.quire 0).slices = [line5] ∧ (n.quire 0).lines = [line5] ∧ 0 < r1.shares 0 ∧ line5.written.length = line5.data.length ∧
    h.setBusy 5 0 0 home = false ∧ n.setBusy 5 0 0 r1 = false ∧ d.setBusy 5 0 0 home = false ∧
    nextIs (exec .resizeSetMove h) (fun t => ((t.quire 0).slices.map fun l => l.moved) = [true]) = true ∧
    nextIs (exec .resizeSetMove n) (fun t => ((t.quire 0).lines.map fun l => l.moved) = [true]) = true ∧
    nextIs (exec .resizeSetMove d) (fun t => (t.quire 0).slices = [] && Memory.read t.hbm 7 2 = [9, 0]) = true :=
  ⟨memWf_of _ (by decide), by decide +kernel⟩
/-- Quire 0 has a page table whose root is at 0x10000 and whose last entry, of page 7, is the one given. -/
def tabled (leaf : Word) : State :=
  let put (s : State) (pa : Nat) (e : Word) := withHbm s pa (toBytes 8 e.toNat)
  put (put (put (put (put ((at0 0x7000 0 0).onQuire 0 fun q => { q with qasr := 0x10001 }) 0x10000 0x11001) 0x11000 0x12001)
    0x12000 0x13001) 0x13000 0x14001) 0x14038 leaf
def entries (leaf : Word) (k : Nat) : Word := match k with | 4 => 0x11001 | 3 => 0x12001 | 2 => 0x13001 | 1 => 0x14001 | _ => leaf
theorem test_witness_TranslationAndAddressSpaces_walk :
    let s := tabled 0x901F
    let q := s.quire 0
    let root := (q.qasr.extractLsb' 12 34).toNat * 4096
    let node (k : Nat) : Nat := if k = 4 then root else Pte.pa (entries 0x901F (k + 1))
    q.qasr.getLsbD 0 = true ∧ canonical root ≠ none ∧ q.nodes = [] ∧
    (∀ k, k < 5 → readEntry s (node k) ((0x7000 : Word).toNat / 2 ^ (12 + 9 * k) % 512) = .ok (some (entries 0x901F k))) ∧
    (∀ k, k < 5 → 0 < k → Pte.v (entries 0x901F k) = true ∧ Pte.leaf (entries 0x901F k) = false ∧
      malformed s k 0x7000 (entries 0x901F k) = false ∧ Pte.mig (entries 0x901F k) = false ∧ Pte.rmt (entries 0x901F k) = false) ∧
    Pte.v 0x901F = true ∧ malformed s 0 0x7000 0x901F = false ∧ Pte.leaf 0x901F = true ∧ Pte.mig 0x901F = false ∧ Pte.g64 0x901F = false ∧
    (match walk s 0x7000 0x7000 with | .ok x => decide (x.entry = ⟨0x7000, 12, 0x901F⟩) | .error _ => false) = true ∧
    (at0 0 0 0).myQuire = 0 ∧ ((at0 0 0 0).quire 0).qasr.getLsbD 0 = false := by decide +kernel
theorem test_witness_TranslationAndAddressSpaces_failures :
    let pointer (e : Word) : Bool := Pte.v e && !Pte.leaf e && !Pte.mig e && Pte.rmt e
    Pte.v 0 = false ∧ Pte.v 1 = true ∧ malformed (tabled 1) 0 0x7000 1 = true ∧ malformed (tabled 0x905F) 0 0x7000 0x905F = false ∧
    Pte.mig 0x905F = true ∧ malformed { (tabled 0) with extents := (2, 1, 1) } 1 0x7000 0x400000000081 = false ∧ pointer 0x400000000081 = true ∧
    readEntry (tabled 0x905F) 0x14000 7 = .ok (some 0x905F) ∧ readEntry (tabled 0) 0x14000 7 = .ok (some 0) ∧
    nextIs (exec .translationWalk { tabled 0x901F with turn := { value := 0x7000 } }) (fun t => (t.core 0).dtlb.length = 2) = true ∧
    nextIs (exec .translationWalk { tabled 0x901F with turn := { value := 0x10, index := 1 } })
      (fun t => (t.core 0).dtlb = []) = true ∧
    okIs (Machine.translate 0x7000 0x7000 false (tabled 0x901F)) (fun _ _ => true) = true ∧
    (match Machine.translate 0x7000 0x7000 false (tabled 0) with | .error e => decide (e = .exc (.upcall 0x20 0x7000)) | .ok _ => false) = true ∧
    (match Machine.translate 0x7000 0x7000 false (tabled 1) with | .error e => decide (e = .badWalk (.upcall 0x20 0x7000)) | .ok _ => false) = true := by
  decide +kernel
theorem test_witness_TranslationAndAddressSpaces_management :
    let s := { at0 0 0 0 with turn := { list := [0] } }
    let p := { (at0 0 0 0).onMe (fun c => { c with sb := [⟨0, [⟨.hbm 0 0, 0, .dflt, storeBytes [1]⟩]⟩] }) with turn := { list := [0] } }
    let q := { State.reset with turn := { unit := 0, value := 0x20001 } }
    s.turn.again = false ∧ s.turn.opt = none ∧ (s.core 0).sb = [] ∧ (p.core 0).sb.length = 1 ∧ q.quiet 0 = true ∧ q.behind .qasrWrite = false ∧
    (at0 0 0 0).quiet 0 = false ∧
    nextIs (exec .remoteInvalidation s) (fun t => t.reports = [(6, 1)] && (t.core 0).dtlb = []) = true ∧
    nextIs (exec .remoteInvalidation p) (fun t => t.reports = [] && t.held.length = 1) = true ∧
    nextIs (exec .qasrWrite q) (fun t => (t.quire 0).qasr = 0x20001) = true ∧
    nextIs (exec .qasrWrite { at0 0 0 0 with turn := { unit := 0 } }) (fun t => t.held.length = 1) = true := by decide +kernel

/-! ### Statements about pages 7, 13, 15 and 17: steps -/

theorem test_witness_OrderedWorklists_steps :
    let w := wl0 [⟨4, 0, 9⟩] (some 2) 0
    let h := wl0 [⟨4, 0, 9⟩] (some 6) 0
    let e := { wl0 [] (some 2) 0 with taken := 7, last := some ⟨true, 7, 7, []⟩ }
    let p := { w with asks := [⟨0, true, 0⟩], pq := [(1, 0x200)], donated := [(1, 0x200, 0, 4)] }
    let s (w : Worklist) := withWl w 0 0
    (s e).memWf ∧ (s w).turn.unit = 0 ∧ (s w).wl? 0 = some w ∧ (s w).contributions 0 = [4] ∧ (s e).contributions 0 = [] ∧ w.pq = [] ∧ e.sys = false ∧
    e.found = none ∧ e.regs = [] ∧ (s e).quires = [] ∧ e.status ≠ 2 ∧ e.pushed = e.taken ∧ p.asks.map (·.partner) = [(s p).turn.index] ∧
    (s w).idle 1 = true ∧ (s w).idle 96 = true ∧
    nextIs (exec .lowLoweringBroadcast (s w)) (fun t => (t.wl? 0).map (fun w => w.view 0) = some (some 2)) = true ∧
    nextIs (exec .lowLoweringBroadcast (s h)) (fun t => (t.wl? 0).map (fun w => (w.view 0, w.view 1)) = some (some 4, some 6)) = true ∧
    (∀ k, k ∈ (s w).service → w.view k = some 2) ∧ w.place = [1 / 96] ∧
    nextIs (exec .worklistEpoch (s w)) (fun t => (t.wl? 0).map (·.low) = some (some 4) && (t.core 1).wake && !(t.core 96).wake) = true ∧
    nextIs (exec .worklistEpoch (s e)) (fun t => (t.wl? 0).map (·.low) = some none) = true ∧
    nextIs (exec .worklistSweep (s e)) (fun t => (t.wl? 0).map (·.status) = some 1 && t.byteAt (.hbm 0x180 0) = 7) = true ∧
    nextIs (exec .partnerReadTimeout (s p)) (fun t => match t.wl? 0 with | some w => w.status = 2 && w.asks.isEmpty && w.donated.isEmpty | none => false) = true ∧
    nextIs (exec .partnerReadTimeout (s w)) (fun t => (t.wl? 0).map (·.status) = some 0) = true :=
  ⟨memWf_of _ (by decide), by decide +kernel⟩
/-- A launch message. -/
def launchBytes (root flags pc : Nat) : List Byte := toBytes 4 root ++ toBytes 4 flags ++ toBytes 8 pc ++ toBytes 8 77 ++ toBytes 8 5
theorem test_witness_HostLink_launches :
    let s (b : List Byte) : State := { State.reset with turn := { bytes := b } }
    let busy (b : List Byte) : State := (s b).onCore 0 fun c => { c with ready := [⟨0x80000000, 0, none, 0, [], false, true, false⟩] }
    let answer (s : State) : Option (List Frame) := match exec .launch s with | .next t => some t.link.out | _ => none
    let notice (d : Nat) : State := { State.reset with turn := { index := d, bytes := List.replicate 32 1 } }
    let full := (notice 0).onCore 0 fun c => { c with inbox := List.replicate 256 ⟨0, 0, false, List.replicate 32 0, false⟩ }
    (s []).memWf ∧ (s []).frameBehind .launch = false ∧ (notice 0).frameBehind .hostNotice = false ∧ { s [] with held := [(.hostWrite, {})] }.frameBehind .launch = true ∧ ((s []).core 0).undelivered = false ∧ ((busy []).core 0).undelivered = true ∧
    ((s []).core 0).ready = [] ∧ ((s []).core 0).bad = [] ∧ (s []).granules = [] ∧ (s []).watches = [] ∧ 
    answer (s (launchBytes 18432 2 1)) = some [.launched 5 1] ∧ answer (s (launchBytes 1152 2 1)) = some [.launched 5 1] ∧
    answer (busy (launchBytes 0 2 1)) = some [.launched 5 2] ∧ answer (busy (launchBytes 0 2 (2 ^ 56))) = some [.launched 5 2] ∧
    answer (busy (launchBytes 0 2 0x4000)) = some [.launched 5 3] ∧ answer (s (launchBytes 0 2 0x4000)) = some [.launched 5 4] ∧
    answer (s (launchBytes 0 1 0x4000)) = some [.launched 5 0] ∧ answer (busy (launchBytes 0 1 0x4000)) = some [] ∧
    nextIs (exec .hostNotice (notice 1152)) (fun t => t.link.out = [.notice false]) = true ∧
    nextIs (exec .hostNotice (notice 0)) (fun t => t.link.out = [.notice true] && (t.core 0).inbox.length = 1) = true ∧
    nextIs (exec .hostNotice full) (fun t => t.link.out = [] && t.held.length = 1) = true ∧
    nextIs (exec .launch { s (launchBytes 0 0 0x4000) with held := [(.hostWrite, {})] }) (fun t => t.link.out = [] && t.held.length = 2) = true :=
  ⟨memWf_of _ (by decide), by decide +kernel⟩
theorem test_witness_HostLink_accesses :
    let s (a n : Nat) (b : List Byte) : State := { State.reset with trained := true, turn := { addr := a, index := n, bytes := b } }
    let held (s : State) : State := { s with held := [(.hostWrite, {})] }
    let locked (s : State) : State := { s with granules := [⟨.hbm 0x100 0, some (⟨0, 0⟩, false), []⟩] }
    (s 0 0 []).memWf ∧ hostAccessOk 0x100 256 = true ∧ hostAccessOk 0x101 1 = true ∧ hostAccessOk 0x100 3 = false ∧ hostAccessOk 0x101 2 = false ∧
    hostAccessOk 0x200 512 = false ∧ hostAccessOk 0x6000000000 1 = false ∧ hostAccessOk 0x5FFFFFFFFF 1 = true ∧
    (s 0x100 4 []).hostFree 0 0x100 4 = true ∧ (locked (s 0x100 4 [])).hostFree 0 0x100 4 = false ∧
    (s 0x104 0 [1, 2]).hostFree 1 0x104 2 = true ∧ (locked (s 0x104 0 [1, 2])).hostFree 1 0x104 2 = false ∧ (s 0 0 []).quires = [] ∧ (s 0 0 []).badHbm = [] ∧
    (s 0 0 []).link.cached = [] ∧ (s 0 0 []).watches = [] ∧ ([.hostRead, .hostWrite, .hostFence, .lstatRead].all fun i => !(s 0 0 []).frameBehind i && (held (s 0 0 [])).frameBehind i) = true ∧
    nextIs (exec .hostWrite (locked (s 0x104 0 [1, 2]))) (fun t => t.link.out = [] && t.held.length = 1) = true ∧
    nextIs (exec .hostRead (s 0x100 4 [])) (fun t => t.link.out = [.data [0, 0, 0, 0]] && t.link.cached = [0x100]) = true ∧
    nextIs (exec .hostRead (locked (s 0x100 4 []))) (fun t => t.link.out = [] && t.held.length = 1) = true ∧
    nextIs (exec .hostWrite (s 0x104 0 [1, 2])) (fun t => t.link.out = [.ack] && Memory.read t.hbm 0x103 4 = [0, 1, 2, 0]) = true ∧
    nextIs (exec .hostWrite (s 0x104 0 [1, 2, 3])) (fun t => t.reports = [(5, 0x104)]) = true ∧
    nextIs (exec .hostFence (s 0 0 [])) (fun t => t.link.out = [.ack]) = true ∧
    nextIs (exec .hostFence (held (s 0 0 []))) (fun t => t.held.length = 2) = true ∧
    nextIs (exec .lstatRead (s 0 0 [])) (fun t => t.link.out.length = 1) = true ∧
    nextIs (exec .lstatRead { s 0 0 [] with turn := { flag := true, index := 1 } }) (fun t => t.mgmt.smbus = [toBytes 8 4000]) = true :=
  ⟨memWf_of _ (by decide), by decide +kernel⟩
/-- A packet that has come to quire 0's router in the reply network, and a fill of binding 5's line at 0x1000 with it. -/
def way0 : Transit := ⟨.reply, 1, 0, 0, .rowUp, [], 0, 2⟩
def fill0 (probed : Bool) (waits : List FillWait) : Fill :=
  ⟨0, 5, 0x1000, .dflt, List.replicate 64 3, List.replicate 8 false, none, waits, probed, way0⟩
/-- A line of binding 5 at 0x1000 with all its bytes written, owned or not. -/
def line1 (own : Bool) : Line :=
  { binding := 5, base := 0x1000, set := 0, way := 0, data := List.replicate 64 7, written := List.replicate 64 true
    bad := List.replicate 8 false, own := List.replicate 8 own, lease := none, leaseOnly := false, filled := 0, used := 0, moved := false }
/-- Binding 5 stands in quires 0 and 1, with the record given. -/
def homing (home : Bool) (lease : Nat) (t : Turn) : State :=
  { (State.reset.setBinding 5 ⟨.active, { r1 with home := home, lease := lease, count := [(0, 1), (1, 1)] }, none, []⟩) with trained := true, turn := t }
theorem test_witness_HomesAndOnDieNetworks_homes :
    let u : Turn := { unit := 0, index := 5, addr := 0x1000 }
    let s (t : Turn) : State := homing false 4 t
    let r (home : Bool) (lease : Nat) : BindRec := { r1 with home := home, lease := lease, count := [(0, 1), (1, 1)] }
    let withLine (q : Nat) (s : State) : State := s.onQuire q fun x => { x with lines := [line1 true] }
    let filling (fs : List Fill) (s : State) : State := { s with noc := { s.noc with fills := fs } }
    let sent (s : State) (req : Request) (leased : Bool) : Bool :=
      (s.noc.fills.map fun f => (f.quire, f.binding, f.base, f.req, f.data.length)) = [(0, 5, 0x1000, req, 64)] &&
        (s.noc.fills.map fun f => f.lease.isSome) = [leased]
    let still (s : State) : Prop := s.granules = [] ∧ s.watches = [] ∧ (s.quires.all fun x => x.2.slices = [] && x.2.forwards = []) = true
    (s u).memWf ∧ (withLine 0 (s u)).memWf ∧ still (withLine 0 (s u)) ∧ ((s u).binding 5).rec'.home = false ∧
    ((s u).binding 5).instanceFor 0 0x1000 = some (r false 4, false) ∧
    (s u).mayFill 0 (r false 4) = true ∧ ((homing true 4 u).binding 5).homeRec 0x1000 = some (r true 4, false) ∧
    (homing true 4 u).homeBinding 5 0x1000 = 5 ∧ (homing true 4 u).mayFill 5 (r true 4) = true ∧
    overlaps 0x1000 64 0x1000 1 = true ∧ (line1 true).written.length = (line1 true).data.length ∧
    nextIs (exec .homePlainFill (s u)) (fun t => sent t .dflt false) = true ∧
    nextIs (exec .homeOwnFill (withLine 1 (s u))) (fun t => sent t .own false && (t.quire 1).lines = [] && t.byteAt (.hbm 0x1000 0) = 7) = true ∧
    nextIs (exec .homeSiFill (withLine 1 (s u))) (fun t => sent t .si true && (t.quire 1).lines.all fun l => !l.ownsAny 0x1000 64) = true ∧
    nextIs (exec .homeSiFill (homing true 4 u)) (fun t => sent t .si true) = true ∧
    nextIs (exec .homeSiFill (homing true 0 u)) (fun t => t.noc.fills = []) = true ∧
    nextIs (exec .homeWriteBack (withLine 0 (s u))) (fun t => t.byteAt (.hbm 0x103F 0) = 7 && (t.quire 0).lines.map (·.dirty) = [false]) = true ∧
    nextIs (exec .probeArrival (withLine 0 (filling [fill0 false []] (s u))))
      (fun t => t.noc.fills.map (·.probed) = [true] && (t.quire 0).lines.length = 1) = true ∧
    nextIs (exec .probeArrival (filling (List.replicate 32 (fill0 true [])) (s u))) (fun t => t.held.length = 1) = true ∧
    nextIs (exec .probeArrival (withLine 0 (s u))) (fun t => (t.quire 0).lines = []) = true :=
  ⟨memWf_of _ (by decide), memWf_of _ (by decide), by decide, by decide +kernel⟩
/-- A property of every listed value, and of the value of unlisted keys, holds of what a key gives. -/
theorem mapGet_all {α : Type} (p : α → Prop) (d : α) (k : Nat) : ∀ l : List (Nat × α), (∀ x, x ∈ l → p x.2) → p d → p (mapGet l k d)
  | [], _, hd => hd
  | (j, v) :: r, h, hd => by
    rw [mapGet]
    split
    · exact h (j, v) List.mem_cons_self
    · exact mapGet_all p d k r (fun y hy => h y (List.mem_cons_of_mem _ hy)) hd
theorem linesOk_of (s : State) (h : (s.bindings.all fun x => x.2.rec'.line % 64 == 0 && x.2.old.all fun o => o.line % 64 == 0) = true)
    (g : (s.quires.all fun x => (x.2.lines ++ x.2.slices).all fun l => l.base % 64 == 0 && l.data.length % 64 == 0) = true) : s.linesOk := by
  refine ⟨fun b => mapGet_all (fun x : Binding => x.rec'.line % 64 = 0 ∧ ∀ o, x.old = some o → o.line % 64 = 0) _ b _ (fun x hx => ?_) (by decide),
    fun q => mapGet_all (fun x : Quire => ∀ l, l ∈ x.lines ∨ l ∈ x.slices → l.base % 64 = 0 ∧ l.data.length % 64 = 0) _ q _ (fun x hx => ?_) (by simp [Quire.reset])⟩
  · have := List.all_eq_true.mp h x hx
    simp only [Bool.and_eq_true, beq_iff_eq] at this
    refine ⟨this.1, fun o ho => ?_⟩
    simpa [ho] using this.2
  · have := List.all_eq_true.mp g x hx
    intro l hl
    simpa using List.all_eq_true.mp this l (by simpa using hl)
theorem test_witness_HomesAndOnDieNetworks_lines :
    (homing false 4 { unit := 0, index := 5, addr := 0x1000 }).linesOk ∧
    ((homing false 4 { unit := 0, index := 5, addr := 0x1000 }).onQuire 0 fun x => { x with lines := [line1 true] }).linesOk :=
  ⟨linesOk_of _ (by decide +kernel) (by decide +kernel), linesOk_of _ (by decide +kernel) (by decide +kernel)⟩
theorem test_witness_HomesAndOnDieNetworks_stores :
    let store (req : Request) : Store := ⟨0, [⟨.hbm 0x2000 0, 0x2000, req, storeBytes [9]⟩]⟩
    let storing (req : Request) (on : Bool) : State := (homing false 4 { core := 3, flag := on }).onCore 3 fun c => { c with sb := [store req] }
    let passed : State := (homing false 4 {}).onQuire 0 fun q => { q with forwards := [⟨⟨3, 0⟩, 0x2000, storeBytes [9]⟩] }
    (storing .unc false).memWf ∧ passed.memWf ∧ ((storing .unc false).core 3).sb = [store .unc] ∧ ((storing .unc false).binding 0).rec'.home = true ∧
    (storing .unc false).storeReady 3 (store .unc) = true ∧ (storing .wt true).storeReady 3 (store .wt) = true ∧
    passed.turn.flag = false ∧ (passed.quire 0).forwards.length = 1 ∧ (passed.quire 0).forwards.all (fun f => !passed.forwardWaits 0 f) = true ∧
    nextIs (exec .homeWtStore (storing .wt true)) (fun t => t.byteAt (.hbm 0x2000 0) = 9) = true ∧
    nextIs (exec .homeUncAccess (storing .unc false)) (fun t => t.byteAt (.hbm 0x2000 0) = 9 && (t.core 3).sb = []) = true ∧
    nextIs (exec .homeWtStore passed) (fun t => t.byteAt (.hbm 0x2000 0) = 9 && (t.quire 0).forwards = []) = true :=
  ⟨memWf_of _ (by decide), memWf_of _ (by decide), by decide +kernel⟩
theorem test_witness_HomesAndOnDieNetworks_replies :
    let filling (f : Fill) : State := let s := homing false 4 {}
      { (s.onContext ⟨2, 0⟩ fun k => { k with waiting := true }) with noc := { s.noc with fills := [f] } }
    let asked : FillWait := ⟨⟨2, 0⟩, 0, 0x1008, 8⟩
    (filling (fill0 false [])).noc.fills[0]? = some (fill0 false []) ∧ (filling (fill0 false [])).arrived way0 = true ∧
    (filling { fill0 false [] with way := { way0 with at' := 1 } }).arrived { way0 with at' := 1 } = false ∧
    ((filling (fill0 false [])).quire 0).line 5 0x1000 = none ∧ ((filling (fill0 false [asked])).context ⟨2, 0⟩).waiting = true ∧
    nextIs (exec .dataReplyArrival (filling (fill0 false []))) (fun t => (t.quire 0).lines.map (fun l => (l.base, l.data)) = [(0x1000, List.replicate 64 3)] &&
      t.noc.fills = []) = true ∧
    nextIs (exec .dataReplyArrival (filling (fill0 false [asked]))) (fun t => (t.context ⟨2, 0⟩).got = [(0, List.replicate 8 3)]) = true ∧
    nextIs (exec .dataReplyArrival (filling (fill0 true []))) (fun t => (t.quire 0).lines = [] && t.noc.fills = []) = true ∧
    nextIs (exec .dataReplyArrival (filling { fill0 false [] with way := { way0 with at' := 1 } })) (fun t => t.noc.fills.length = 1) = true := by
  decide +kernel
theorem test_witness_HomesAndOnDieNetworks_links :
    let s (k rep ret : Nat) (flag : Bool) : State := { State.reset with
      noc := { State.reset.noc with replays := [(k, rep)], retrains := [(k, ret)] }, turn := { unit := k, flag := flag, list := [50] } }
    let down (s : State) : State := { s with noc := { s.noc with down := [2] } }
    let full (s : State) : State := { s with noc := { s.noc with fills := [{ fill0 false [] with way := { way0 with at' := 50 } }] } }
    let drains : State := { s 1 0 0 false with noc := { State.reset.noc with draining := [(1, [50])] } }
    routerCol 1 ≠ 0 ∧ torusWay 0 8 ≠ [] ∧ routerCol 8 = routerCol 0 ∧ (down (s 1 0 0 false)).noc.down = [2] ∧
    (s 1 0 0 false).dieEmpty 1 = true ∧ (full (s 1 0 0 false)).dieEmpty 1 = false ∧ drains.noc.draining = [(1, [50])] ∧
    (drains.drainEnd 1).isSome = true ∧ ({ s 1 0 0 false with noc := { State.reset.noc with gated := [1] } }).dieWay 0 2 = bypassWay 0 2 ∧
    nextIs (exec .dieDrain (s 1 0 0 false)) (fun t => t.noc.gated.contains 50 && t.mgmt.half[1]) = true ∧
    nextIs (exec .dieDrain (full (s 1 0 0 false))) (fun t => t.noc.gated = [] && t.noc.draining = [(1, [50])]) = true ∧
    nextIs (exec .dieDrain { s 1 0 0 false with imago := true }) (fun t => !t.mgmt.half[1]) = true ∧
    nextIs (exec .linkFlitReplay (s 1 7 0 true)) (fun t => mapGet t.noc.replays 1 0 = 8) = true ∧
    nextIs (exec .linkFlitReplay (s 1 7 0 false)) (fun t => mapGet t.noc.replays 1 0 = 0) = true ∧
    nextIs (exec .boundaryRetrain (s 1 8 2 true)) (fun t => mapGet t.noc.retrains 1 0 = 3) = true ∧
    nextIs (exec .boundaryRetrain (s 1 7 2 true)) (fun t => mapGet t.noc.retrains 1 0 = 2) = true ∧
    nextIs (exec .boundaryDown (s 1 8 3 true)) (fun t => t.noc.down = [1] && !t.mgmt.fault) = true ∧
    nextIs (exec .boundaryDown (s 1 8 2 true)) (fun t => t.noc.down = []) = true ∧
    nextIs (exec .boundaryDown { down (s 1 8 3 true) with service := [0] }) (fun t => t.mgmt.fault && (t.core 95).run = .stopped && (t.core 96).run = .asleep) = true := by
  decide +kernel
/-- Range tables at 0x100000 that let device 1 read, write and do atomics on the page at 0x1000, in binding 0. -/
def ranged (p : Option Packet) : State :=
  let s := withHbm State.reset 0x140000 (toBytes 8 0x1000 ++ toBytes 8 (0x1000 + 2 ^ 39 * 15))
  { s with trained := true, fabctl := 0x100FA0, prctl := 0x8000100000, turn := { packet := p } }
/-- A request of device 1 has come, with its CRC-32. -/
def body : List Byte := withCrc 1 9 [1, 2, 3]
def request (a : Nat) (op : RemoteOp) : State := ranged (some ⟨1, 9, a, op, body⟩)
def answersOf (s : State) (rs : List (Nat × Nat × Reply)) : Bool := nextIs (exec .remotePacketArrival s) fun t => t.fabric.answers = rs
theorem test_witness_RemoteRequestsAndAnswers_target :
    let p (a : Nat) (op : RemoteOp) : State := request a op
    let locked := { p 0x1000 (.read 4) with granules := [⟨.hbm 0x1000 0, some (⟨0, 0⟩, false), []⟩] }
    let part : State := let s := p 0x1000 (.read 4)
      { s with fabric := { s.fabric with buffers := [⟨1, 9, 0, 1, 2, false, [(0, [])]⟩] } }
    let table (a : Nat) : State := { ranged none with turn := { addr := a, bytes := [1, 2] } }
    (p 0 (.read 4)).memWf ∧ ((p 0 (.read 4)).payloadOf 1 9 body = some body ∧ part.payloadOf 1 9 body = none ∧ crcHolds 1 9 body = true ∧
    crcHolds 1 9 [1, 2, 3, 4] = false ∧ canonical 0x1000 = some 0x1000 ∧ canonical 0x6000000000 = none ∧ (p 0 (.read 4)).prctl.getLsbD 39 = true ∧
    (match (p 0 (.read 4)).permitted 1 0x1000 (.read 4) with | .ok b => decide (b = 0) | .error _ => false) = true ∧
    (match (p 0 (.read 4)).permitted 1 0x2000 (.read 4) with | .ok _ => false | .error k => decide (k = 1)) = true ∧
    (p 0x1000 (.read 4)).remoteFree 1 9 0 0x1000 4 = true ∧ locked.remoteFree 1 9 0 0x1000 4 = false ∧ (p 0 (.read 4)).quires = [] ∧
    (p 0 (.read 4)).badHbm = [] ∧ (p 0 (.read 4)).watches = [] ∧ (p 0 (.read 4)).granules = []) ∧
    (answersOf part [] = true ∧ answersOf (ranged (some ⟨1, 9, 0x1000, .read 4, [1, 2, 3, 4]⟩)) [(1, 9, .nak 0)] = true ∧
    answersOf { p 0x1000 (.read 4) with fabctl := 0 } [(1, 9, .nak 5)] = true ∧ answersOf (p 0x6000000000 (.read 4)) [(1, 9, .nak 4)] = true ∧
    answersOf { p 0x1000 (.read 4) with prctl := 0x100000 } [(1, 9, .nak 1)] = true ∧ answersOf (p 0x2000 (.read 4)) [(1, 9, .nak 1)] = true ∧
    answersOf (p 0x1000 (.read 4)) [(1, 9, .data [0, 0, 0, 0])] = true ∧
    nextIs (exec .remotePacketArrival locked) (fun t => t.fabric.answers = [] && t.held.length = 1 && t.granules.map (·.queue) = [[.remote 1 9]]) = true ∧
    nextIs (exec .remotePacketArrival (p 0x1000 (.write [(7, 255), (7, 0)]))) (fun t => t.byteAt (.hbm 0x1000 0) = 7 && t.byteAt (.hbm 0x1001 0) = 0) = true ∧
    nextIs (exec .remotePacketArrival (p 0x1000 (.atomic 0 8 5 0))) (fun t => t.byteAt (.hbm 0x1000 0) = 5) = true ∧
    nextIs (exec .permittedRangeTableWrite (table 0x100000)) (fun t => t.byteAt (.hbm 0x100000 0) = 1 && t.byteAt (.hbm 0x100001 0) = 2) = true ∧
    nextIs (exec .permittedRangeTableWrite (table 0x17FC00)) (fun t => t.byteAt (.hbm 0x17FC00 0) = 0) = true) :=
  ⟨memWf_of _ (by decide), by decide +kernel, by decide +kernel⟩
/-- A read of device 1 by the context of core 0, which awaits its answer and those of two handshakes. -/
def reading : Remote := ⟨1, [(0x1000, .read 4)], none, 0, 0, false, 0, []⟩
def shaking (left : List Nat) (late : Bool) : Hand := ⟨[1, 2], left, late, []⟩
def awaiting (q : Remote) (t : Turn) : State :=
  ({ at0 0 0 0 with turn := t }.onContext ⟨0, 0⟩ fun k => { k with remote := some q, hand := some (shaking [1, 2] false) }).onCore 0 fun c =>
    { c with peerHand := some (shaking [1, 2] false) }
/-- What a step leaves of it. -/
def left (i : Instr) (q : Remote) (t : Turn) (r : Option Reply × Bool × List (Nat × Nat)) : Bool :=
  nextIs (exec i (awaiting q t)) fun u => u.myCtx.remote.map (fun k => (k.answer, k.late, k.tries)) = some r
theorem test_witness_RemoteRequestsAndAnswers_answers :
    let q := reading
    let s (q : Remote) (t : Turn) : State := awaiting q t
    let data : Reply := .data [1, 2, 3, 4]
    ((s q {}).myCtx.remote = some q ∧ (s q {}).myCtx.hand = some (shaking [1, 2] false) ∧ (s q {}).me.peerHand = some (shaking [1, 2] false) ∧
    q.parts[0]? = some (0x1000, .read 4) ∧
    left .remoteReplyArrival q { reply := some data } (some data, false, []) = true ∧
    left .remoteReplyArrival { q with late := true } { reply := some data } (none, true, []) = true ∧
    left .remoteReplyArrival q { reply := some data, addr := 1 } (some .poison, false, []) = true ∧
    left .remoteReplyArrival q { reply := some .ack, addr := 1 } (none, false, []) = true ∧
    left .remoteReplyArrival q { reply := some data, addr := 2 } (none, false, [(0, 1)]) = true ∧
    left .remoteReplyArrival { q with tries := [(0, 3)] } { reply := some data, addr := 2 } (none, true, [(0, 3)]) = true ∧
    left .fabricTimeout q {} (none, true, []) = true ∧ left .fabricTimeout { q with answer := some data } {} (some data, false, []) = true) ∧
    (nextIs (exec .remoteReplyArrival (s q { unit := 4, reply := some .ack, index := 1 })) (fun t => t.myCtx.hand = some (shaking [2] false)) = true ∧
    nextIs (exec .remoteReplyArrival (s q { unit := 5, reply := some .ack, index := 1 })) (fun t => t.me.peerHand = some (shaking [2] false)) = true ∧
    nextIs (exec .fenceHandshakeTimeout (s q {})) (fun t => t.myCtx.hand = some (shaking [1, 2] true)) = true ∧
    nextIs (exec .fenceHandshakeTimeout (s q { flag := true })) (fun t => t.me.peerHand = some (shaking [1, 2] true)) = true ∧
    nextIs (exec .fenceToken (s q { index := 3, addr := 9 })) (fun t => t.fabric.answers = [(3, 9, .nak 5)]) = true ∧
    nextIs (exec .fenceToken { s q { index := 3, addr := 9 } with fabctl := 0x100FA0 }) (fun t => t.fabric.answers = [(3, 9, .ack)]) = true) :=
  ⟨by decide +kernel, by decide +kernel⟩
/-- Device 0 of a ring of four, with flits at its router on plane 0. -/
def routing (fs : List (Nat × Flit)) : State := { State.reset with extents := (4, 1, 1), turn := { flits := fs.map fun f => (f.1, f.2.bytes) } }
def flit (dst age rest : Nat) : Flit := ⟨dst, 3, age, 1, 9, 0, 0, 0, 0, rest, 0, false, List.replicate 48 6⟩
theorem test_witness_RoutersAndRefusals :
    let near := flit 1 0 0
    let old := flit 1 7 0
    let fresh : Flit := { near with fresh := true }
    let sent := { routing [] with fabric := { State.reset.fabric with sent := [(9, [near])] }, turn := { unit := 1, index := 9 } }
    let waiting : State := { routing [] with gtime := 0x77, fabric := { State.reset.fabric with planes := State.reset.fabric.planes.set 0 ⟨[fresh], [], [], []⟩ } }
    let z (given : Bool) : State := { routing [] with gtime := 0x10000000000, fabric := { State.reset.fabric with
      planes := State.reset.fabric.planes.set 0 ⟨[], [], [⟨3, 9, 0, 0, 0, given⟩], []⟩ } }
    let out (s : State) : Option (List (Nat × Flit)) := match exec .planeRouterCycle s with | .next t => some t.fabric.planes[0].out | _ => none
    flitOf near.bytes = near ∧ flitOf old.bytes = old ∧ (routing []).turn.unit = (0 : Fin 8).val ∧ waiting.fabric.planes[0].inject = [fresh] ∧
    (routing []).deviceValid 1 = true ∧ (routing []).deviceValid 4 = false ∧ (routing []).devid = 0 ∧ (routing []).ports = [0, 1] ∧
    (routing []).ports.find? ((routing []).productive 1) = some 0 ∧ (routing []).productive 1 1 = false ∧ old.before near = true ∧
    near.before old = false ∧ ((routing []).ports.erase 0).head? = some 1 ∧ (routing []).ports.Nodup ∧
    (out waiting).map (fun o => o.map fun x => (x.1, x.2.stamp)) = some [(0, 0x77)] ∧
    out (routing [(0, near)]) = some [(0, near)] ∧ out (routing [(0, flit 4 0 0)]) = some [] ∧ out (routing [(0, flit 1 0 1)]) = some [] ∧
    out (routing [(0, near), (1, old)]) = some [(0, old), (1, { near with age := 1 })] ∧
    nextIs (exec .planeRouterCycle (routing [(0, flit 0 0 0)])) (fun t => t.fabric.buffers.map (fun b => (b.src, b.got)) = [(3, [(0, List.replicate 48 6)])]) = true ∧
    (sent.gtime.extractLsb' 0 32 - near.stamp).toNat < sent.timeout ∧ near.dst = sent.turn.unit ∧ near.tries = sent.turn.addr ∧
    nextIs (exec .refusal sent) (fun t => t.fabric.planes[0].inject = [{ near with age := 255, tries := 1 }]) = true ∧
    (z true).timeout ≤ ((z true).gtime - 0).toNat ∧
    nextIs (exec .refusalReservationTimeout (z true)) (fun t => t.fabric.planes[0].refused.length = 0) = true ∧
    nextIs (exec .refusalReservationTimeout (z false)) (fun t => t.fabric.planes[0].refused.length = 1) = true ∧
    nextIs (exec .refusal { sent with gtime := 0x7FFFFFFF }) (fun t => t.fabric.planes[0].inject = []) = true := by decide +kernel
theorem test_witness_ContactLossesAndSystemBarrier :
    let s (t : Turn) : State := { State.reset with extents := (4, 1, 1), fabctl := 0x100FA0, turn := t }
    let e (arrived : List Nat) : Episode := ⟨.sys, 0, arrived, [], false, false, false⟩
    let waiting (t : Turn) : State := { (s t).onCore 1 (fun c => { c with csr := { c.csr with dmem := 0x1F } }) with
      service := [0], fabric := { State.reset.fabric with risen := [1] }, episodes := [e [0]] }
    -- every member of device `dev` has arrived
    let all (dev : Nat) (risen : List Nat) (t : Turn) : State :=
      { waiting t with devid := dev, episodes := [e [0, 1]], fabric := { State.reset.fabric with risen := risen } }
    -- device `dev` has no members
    let none' (dev : Nat) (risen : List Nat) : State := { s {} with devid := dev, service := [], fabric := { State.reset.fabric with risen := risen } }
    let closed (t : Turn) : State := { waiting t with fabctl := 0 }
    let rises (s : State) (p : State → Bool) : Bool := nextIs (act s .rise) p
    let posted (t : State) : List (Nat × Nat) := (t.fabric.planes.toList.flatMap fun p => p.inject).map fun f => (f.src, f.dst)
    (1 < (s {}).extent (0 / 2) ∧ ¬ 1 < (s {}).extent (2 / 2) ∧ (s {}).neighbour 0 = 1 ∧ (s {}).deviceValid 3 = true ∧ (s {}).deviceValid 4 = false ∧
    (s {}).fabctl.getLsbD 20 = true ∧ (closed {}).fabctl.getLsbD 20 = false ∧ (s {}).fabric.rose = false ∧
    (waiting {}).episode .sys 0 = some (e [0]) ∧ ¬(∀ c, c ∈ (waiting {}).members .sys 0 → c ∈ (e [0]).arrived ∨ c ∈ (e [0]).out) ∧
    (∀ c, c ∈ (all 0 [] {}).members .sys 0 → c ∈ (e [0, 1]).arrived) ∧ (none' 1 [2]).members .sys 0 = [] ∧ (none' 1 [2]).episode .sys 0 = none ∧
    (all 0 [] {}).treeChildren = [1, 3] ∧ (all 0 [] {}).treeParent 0 = none ∧ (all 1 [] {}).treeChildren = [2] ∧ (all 1 [] {}).treeParent 1 = some 0) ∧
    (nextIs (exec .neighbourSilence (s {})) (fun t => t.lost = [1] && t.reports = [(4, 1)] && (posted t).contains (0, 3)) = true ∧
    nextIs (exec .neighbourSilence (s { unit := 2 })) (fun t => t.lost = []) = true ∧
    nextIs (exec .keepalive (s {})) (fun t => posted t = [(0, 1)]) = true ∧
    nextIs (exec .keepalive (s { flag := true, value := 0x55 })) (fun t => t.fabric.times = [(1, 0x55, 0)]) = true ∧
    nextIs (exec .lossNotice (s { index := 3 })) (fun t => t.lost = [3]) = true ∧ nextIs (exec .lossNotice (s { index := 4 })) (fun t => t.lost = []) = true ∧
    nextIs (exec .lossNotice (closed { unit := 2, index := 3, addr := 9 })) (fun t => t.lost = [] && t.fabric.answers = [(2, 9, .nak 5)]) = true ∧
    nextIs (exec .barrierSysPacket (closed { index := 3, addr := 9 })) (fun t => t.fabric.risen = [1] && t.fabric.answers = [(3, 9, .nak 5)]) = true ∧
    nextIs (exec .lostSetClear { s { index := 3 } with lost := [2, 3] }) (fun t => t.lost = [2]) = true ∧
    nextIs (exec .barrierSysPacket (waiting { index := 3 })) (fun t => t.fabric.risen.contains 3 && t.fabric.risen.contains 1 && t.episodes = [e [0]]) = true ∧
    nextIs (exec .barrierSysPacket (waiting { flag := true })) (fun t => t.fabric.risen = [] && t.episodes.map (·.released) = [true] && posted t = [(0, 1), (0, 3)]) = true ∧
    rises (all 0 [1, 3] {}) (fun t => t.fabric.risen = [] && t.episodes.map (·.released) = [true] && posted t = [(0, 1), (0, 3)]) = true ∧
    rises (all 1 [2] {}) (fun t => t.fabric.rose && t.episodes = [e [0, 1]] && posted t = [(1, 0)]) = true ∧
    rises (none' 1 [2]) (fun t => t.fabric.rose && posted t = [(1, 0)]) = true ∧
    rises (all 1 [] {}) (fun t => !t.fabric.rose && posted t = []) = true ∧ rises (waiting {}) (fun t => posted t = []) = true ∧
    nextIs (exec .fabctlWrite (s { value := 0xFFFFFFFF })) (fun t => t.fabctl = 0x1FFFFF) = true) := by decide +kernel
theorem test_witness_CoreAndQuireReset :
    let s := (at0 5 0 0).onCore 0 fun c => { c with run := .stopped, ready := [⟨0x80000000, 0, none, 0, [], false, false, false⟩] }
    let q (m : BitVec 100) : State := { withBytes State.reset 0x10 [1] with mgmt := { State.reset.mgmt with failed := [(0, m)] } }
    (s.core 0).run = .stopped ∧ s.episodes = [] ∧ ((at0 0 0 0).core 0).run ≠ .stopped ∧ (at0 0 0 0).quiet 0 = false ∧ (q 0).quiet 0 = true ∧
    (q 0).behind .quireReset = false ∧
    nextIs (exec .coreReset s) (fun t => (t.core 0).run = .asleep && (t.core 0).ready.isEmpty && (t.core 0).ctxs[0].w[0] = (s.core 0).ctxs[0].w[0]) = true ∧
    nextIs (exec .coreReset (at0 0 0 0)) (fun t => t.reports = [(7, 0)]) = true ∧
    nextIs (exec .coreReset { s with episodes := [⟨.quire, 0, [1], [], false, false, false⟩] }) (fun t => t.episodes.all fun e => !(t.awaited' e).contains 0) = true ∧
    nextIs (exec .coreReset { s with thermal := #v[4, 0, 0, 0] }) (fun t => t.reports = [(7, 0)]) = true ∧
    nextIs (exec .quireReset (at0 0 0 0)) (fun t => t.held.length = 1) = true ∧
    nextIs (exec .quireReset (q 0x5)) (fun t => t.byteAt (.spad 0 0x10) = 0 && (mapGet t.mgmt.qtab 0 []).take 3 = [1, 3, 4] && t.service.length = 12) = true ∧
    nextIs (exec .quireReset (q 0x1F)) (fun t => t.service.length = 11) = true := by decide +kernel

/-! ### Statements about page 17, and about steps -/

/-- Bytes from an address on, in memory's cells. -/
def cells (p : Nat) : List Byte → Memory
  | [] => []
  | b :: r => (p, b) :: cells (p + 1) r
def masks (p n : Nat) : Memory := (List.range' p n).map fun q => (0x10060 + 128 * q, 0xFF)
def blobHead : Memory := [(0, 0x34), (1, 0x4D), (2, 0x42), (3, 0x4C), (4, 1), (8, 0x60), (9, 0x74), (0xA, 2), (0x1A, 1), (0x32, 3)]
/-- A flash with a blob for an identity, a key and a signature: its quire table is at 0x10000 and has every quire out of service,
by eight failed positions in the mask of each, its signature at 0x20000 and its helper data at 0x30000. -/
def blobFlash (pub key sig : List Byte) : Memory := blobHead ++ (cells 0x40 pub ++ (cells 0x80 key ++ (masks 0 192 ++ cells 0x20000 sig)))
theorem mapGet_append (h l : Memory) (a : Nat) (d : Byte) : mapGet (h ++ l) a d = mapGet h a (mapGet l a d) := by
  induction h with
  | nil => rfl
  | cons x r ih => obtain ⟨j, v⟩ := x; simp only [List.cons_append, mapGet, ih]
theorem cells_out (a : Nat) (d : Byte) (bs : List Byte) : ∀ p, ¬(p ≤ a ∧ a < p + bs.length) → mapGet (cells p bs) a d = d := by
  induction bs with
  | nil => intro p _; rfl
  | cons b r ih =>
    intro p h
    simp only [List.length_cons] at h
    rw [cells, mapGet, if_neg (by omega)]
    exact ih _ (by omega)
theorem cells_read (f : Memory) (bs : List Byte) : ∀ p, (∀ a, p ≤ a → a < p + bs.length → ∃ d, Memory.get f a = mapGet (cells p bs) a d) →
    Memory.read f p bs.length = bs := by
  induction bs with
  | nil => intro p _; rfl
  | cons b r ih =>
    intro p h
    simp only [List.length_cons] at h
    obtain ⟨d, e⟩ := h p (by omega) (by omega)
    rw [List.length_cons, Memory.read, e, cells, mapGet, if_pos rfl, ih (p + 1) fun a l u => ?_]
    obtain ⟨d, e⟩ := h a (by omega) (by omega)
    exact ⟨d, by rw [e, cells, mapGet, if_neg (by omega)]⟩
theorem read_congr (f g : Memory) (n : Nat) : ∀ a, (∀ b, a ≤ b → b < a + n → Memory.get f b = Memory.get g b) → Memory.read f a n = Memory.read g a n := by
  induction n with
  | zero => intro a _; rfl
  | succ n ih => intro a h; rw [Memory.read, Memory.read, h a (by omega) (by omega), ih (a + 1) fun b l u => h b (by omega) (by omega)]
theorem head_out (a : Nat) (d : Byte) (h : 0x40 ≤ a) : mapGet blobHead a d = d := by
  simp only [blobHead, mapGet]
  repeat rw [if_neg (by omega)]
theorem masks_get (d : Byte) (n : Nat) : ∀ p a : Nat, mapGet (masks p n) a d =
    if 0x10060 ≤ a ∧ (a - 0x10060) % 128 = 0 ∧ p ≤ (a - 0x10060) / 128 ∧ (a - 0x10060) / 128 < p + n then 0xFF else d := by
  induction n with
  | zero => intro p a; rw [if_neg (by omega)]; rfl
  | succ n ih =>
    intro p a
    have e : masks p (n + 1) = (0x10060 + 128 * p, 0xFF) :: masks (p + 1) n := by simp [masks, List.range'_succ]
    rw [e, mapGet, ih (p + 1) a]
    by_cases h : 0x10060 + 128 * p = a
    · rw [if_pos h, if_pos (by omega)]
    · rw [if_neg h]; congr 1; rw [eq_iff_iff]; omega
theorem blobFlash_get (pub key sig : List Byte) (a : Nat) : Memory.get (blobFlash pub key sig) a =
    mapGet blobHead a (mapGet (cells 0x40 pub) a (mapGet (cells 0x80 key) a (mapGet (masks 0 192) a (mapGet (cells 0x20000 sig) a 0)))) := by
  simp only [Memory.get, blobFlash, mapGet_append]
theorem blobFlash_field (pub key sig : List Byte) (a n : Nat) (h : a + n ≤ 0x40) :
    flashField (blobFlash pub key sig) a n = flashField blobHead a n := by
  rw [flashField, flashField, read_congr _ blobHead n a fun b l u => ?_]
  rw [blobFlash_get, cells_out b _ pub _ (by omega), cells_out b _ key _ (by omega), masks_get, if_neg (by omega), cells_out b _ sig _ (by omega)]
  rfl
theorem blobFlash_mask (pub key sig : List Byte) (hp : pub.length = 64) (hk : key.length = 64) (q : Nat) (h : q < 192) :
    flashField (blobFlash pub key sig) (0x10000 + 128 * q + 96) 13 = 0xFF := by
  have g (i : Nat) (hi : i < 13) : Memory.get (blobFlash pub key sig) (0x10000 + 128 * q + 96 + i) = if i = 0 then 0xFF else 0 := by
    rw [blobFlash_get, head_out _ _ (by omega), cells_out _ _ pub _ (by omega), cells_out _ _ key _ (by omega), masks_get, cells_out _ _ sig _ (by omega)]
    congr 1; rw [eq_iff_iff]; omega
  have r : Memory.read (blobFlash pub key sig) (0x10000 + 128 * q + 96) 13 = 0xFF :: List.replicate 12 0 := by
    simp only [Memory.read, Nat.add_assoc, Nat.reduceAdd] at g ⊢
    simp [g 0, g 1, g 2, g 3, g 4, g 5, g 6, g 7, g 8, g 9, g 10, g 11, g 12]
  rw [flashField, r]; decide
/-- A flash whose key is that of the mask ROM, whose signature its holder made, and whose identity is that of the part, has a
valid blob. -/
theorem test_witness_BringUp_blob (pub key sig : List Byte) (hp : pub.length = 64) (hk : key.length = 64) (hs : sig.length = 29792)
    (h1 : shake256 key 32 = Config.keyHash) (h2 : slhVerify key (Memory.read (blobFlash pub key sig) 0 0x20000) sig = true)
    (h3 : slhPublic (seedsOf (shake256 (Config.startPattern (Memory.read (blobFlash pub key sig) 0x30000 2048)) 96)) = pub) :
    (readBlob (blobFlash pub key sig)).isSome = true := by
  generalize hf : blobFlash pub key sig = f at h2 h3 ⊢
  have fd (a n x : Nat) (l : a + n ≤ 0x40) (e : flashField blobHead a n = x) : flashField f a n = x := by
    rw [← hf, blobFlash_field pub key sig a n l, e]
  have e1 := fd 0 4 0x4C424D34 (by decide) (by decide +kernel)
  have e2 := fd 8 8 0x27460 (by decide) (by decide +kernel)
  have e3 := fd 0x10 4 0 (by decide) (by decide +kernel)
  have e4 := fd 0x14 4 0 (by decide) (by decide +kernel)
  have e5 := fd 0x30 8 0x30000 (by decide) (by decide +kernel)
  have e6 := fd 0x38 8 0 (by decide) (by decide +kernel)
  have e7 := fd 0x18 8 0x10000 (by decide) (by decide +kernel)
  have n : 4 < failedCount (BitVec.ofNat 100 0xFF) := by decide +kernel
  have e8 : (((List.range 192).map fun q => (q, quireEntry f 0x10000 q)).any fun e => e.2.isNone) = false := by
    simp only [List.any_map, List.any_eq_false, Function.comp]
    intro q hq
    simp only [quireEntry, ← hf, blobFlash_mask pub key sig hp hk q (List.mem_range.mp hq), if_pos n, Option.isNone, Bool.false_eq_true, not_false_eq_true]
  have r1 : Memory.read f 0x40 64 = pub := by
    have r := cells_read f pub 0x40 fun a l u => ⟨_, by rw [← hf, blobFlash_get, head_out _ _ l]⟩
    rwa [hp] at r
  have r2 : Memory.read f 0x80 64 = key := by
    rw [← hf, ← hk]
    exact cells_read _ key _ fun a l u => ⟨_, by rw [blobFlash_get, head_out _ _ (by omega), cells_out _ _ pub _ (by omega)]⟩
  have r3 : Memory.read f 0x20000 29792 = sig := by
    rw [← hf, ← hs]
    refine cells_read _ sig _ fun a l u => ⟨0, ?_⟩
    rw [blobFlash_get, head_out _ _ (by omega), cells_out _ _ pub _ (by omega), cells_out _ _ key _ (by omega), masks_get, if_neg (by omega)]
  simp only [readBlob, e1, e2, e3, e4, e5, e6, e7, e8, r1, r2, h1, h3, Nat.reduceSub, r3, h2]
  simp
theorem test_witness_BringUpImagoAndTemperature_entry :
    let s : State := { State.reset with trained := true, service := [0], mgmt := { State.reset.mgmt with blob := { State.reset.mgmt.blob with outQ := (List.range 192).filter (2 ≤ ·) } } }
    let walking : State := { s with mgmt := { s.mgmt with walking := true } }
    let open' : State := { s with episodes := [⟨.die, 0, [3], [], false, false, false⟩] }
    let full : State := { s with noc := { s.noc with fills := [fill0 false []] } }
    let b (a : Nat) : State := { State.reset with turn := { addr := a, bytes := [4, 5] } }
    readBlob State.reset.mgmt.flash = none ∧ s.imago = false ∧ s.barsOpen = false ∧ open'.barsOpen = true ∧ s.dieEmpty 0 = true ∧ full.dieEmpty 0 = false ∧ (s.binding 0).old = none ∧
    ((s.binding 0).rec'.homeSlice 0).isSome = true ∧ (walking.binding 0).state = .active ∧
    ((walking.setBinding 0 ⟨.resizing, binding0 [0, 1], some (binding0 [0]), [(0, 0)]⟩).binding 0).state ≠ .active ∧ Memory.wf s.mgmt.flash = true ∧
    nextIs (exec .powerGood s) (fun t => t.mgmt.fault && t.service.isEmpty) = true ∧ nextIs (exec .diesReady State.reset) (fun t => t.trained) = true ∧
    nextIs (exec .diesReady { State.reset with turn := { flag := true } }) (fun t => t.mgmt.fault && t.mgmt.stuck && !t.trained) = true ∧
    nextIs (exec .diesReady { State.reset with mgmt := { State.reset.mgmt with stuck := true } }) (fun t => !t.trained) = true ∧
    nextIs (exec .imagoEntry { s with turn := { flag := true } }) (fun t => t.mgmt.fault && t.mgmt.stuck && !t.mgmt.walking) = true ∧
    nextIs (exec .imagoEntry walking) (fun t => t.imago && t.mgmt.ready && !t.mgmt.walking) = true ∧
    nextIs (exec .imagoEntry (walking.setBinding 0 ⟨.resizing, binding0 [0, 1], some (binding0 [0]), [(0, 0)]⟩)) (fun t => !t.imago && t.held.length = 1) = true ∧
    nextIs (exec .imagoEntry open') (fun t => t.mgmt.holdBars && t.service = [0] && t.held.length = 1) = true ∧
    nextIs (exec .imagoEntry full) (fun t => t.mgmt.holdBars && t.noc.draining.any (fun x => x.1 = 0) && t.held.length = 1) = true ∧
    nextIs (exec .imagoEntry s) (fun t => t.mgmt.walking && t.service = [0, 1] && (t.binding 0).state = .resizing) = true ∧
    nextIs (exec .blobWrite (b 0xFFFFFE)) (fun t => Memory.read t.mgmt.flash 0xFFFFFE 2 = [4, 5]) = true ∧
    nextIs (exec .blobWrite (b 0xFFFFFF)) (fun t => t.mgmt.flash.isEmpty) = true := by decide +kernel
theorem test_witness_BringUpImagoAndTemperature_steps :
    let s (old cool temp power : Nat) : State := { State.reset with
      service := [0]
      thermal := State.reset.thermal.set 0 old
      mgmt := { State.reset.mgmt with cool := State.reset.mgmt.cool.set 0 cool }
      turn := { list := [temp, 0, 0, 0, power] } }
    let now (old cool temp power step count : Nat) : Bool := nextIs (exec .thermalSample (s old cool temp power)) fun t => t.thermal[0] = step && t.mgmt.cool[0] = count
    now 0 0 84 2000 0 0 = true ∧ now 0 0 85 0 1 0 = true ∧ now 0 0 0 2001 1 0 = true ∧ now 0 0 0 2101 2 0 = true ∧ now 0 0 98 0 3 0 = true ∧
    now 0 0 104 2200 3 0 = true ∧ now 1 5 105 0 4 0 = true ∧ now 4 7 0 0 4 0 = true ∧ now 1 98 80 0 1 99 = true ∧ now 1 99 80 0 0 0 = true ∧
    now 1 99 81 0 1 0 = true ∧ now 3 99 93 0 2 0 = true ∧ now 3 99 94 0 3 0 = true ∧ now 2 50 0 2101 2 0 = true ∧
    nextIs (exec .thermalSample { s 0 0 0 1001 with mgmt := { State.reset.mgmt with powers := [3000] } }) (fun t => t.thermal[0] = 1 && t.mgmt.powers = [1001, 3000]) = true ∧
    nextIs (exec .thermalSample (s 0 0 105 0)) (fun t => t.mgmt.fault && (t.core 0).run = .stopped) = true ∧
    nextIs (exec .hbmPatrol { State.reset with turn := { unit := 3, index := 2 } }) (fun t => t.mgmt.corrected = [((.stack 0, 3), 2)]) = true ∧
    nextIs (exec .hbmPatrol { State.reset with turn := { unit := 3, index := 64, core := 2, flag := true } }) (fun t => mapGet t.mgmt.failed 0 0 = 4) = true ∧
    nextIs (exec .attestationRequest State.reset) (fun t => t.mgmt.smbus.length = 1) = true := by decide +kernel
theorem test_witness_TrapsReturnsAndIllegalEncodings_illegal :
    let s := at0 0 0 0
    s.ctx = 0 ∧ s.issue.reissue = false ∧ s.csr.tk = false ∧ s.csr.tvec ≠ 0 ∧
    nextIs (exec .illegalEncoding s) (fun t => t.csr.tcause = 1 && t.csr.tval = 0x1000 && t.myCtx.pc = 0x8000) = true := by decide
/-- `add w3, w3, w5` at 0x1000 of the scratchpad of core 0, which is chosen to issue there. -/
def fetching : State :=
  let s := (withBytes ((at0 0 0 0x4000).setW 5 2) 0x1000 [0xD4, 0x04]).onContext ⟨0, 0⟩ fun k => { k with pc := L 0x1000 }
  { s with chosen := some ⟨0, 0⟩ }
theorem test_witness_StepRunsTheDecodedInstruction :
    let u : State := { fetching.timeOn with chosen := none, cur := 0, ctx := 0, issue := Issue.at (L 0x1000) }
    fetching.chosen = some ⟨0, 0⟩ ∧ fetching.timeOn.mayIssue 0 0 = true ∧ (Instr.add 3 3 5).wellFormed = true ∧
    (encodeChain (.add 3 3 5)).map wordBytes = some [0xD4, 0x04] ∧ ((fetching.core 0).ctxs[0]).pc = localAddr 0x1000 ∧
    sharesOwn u.me 0x1000 2 = true ∧ u.me.fetched = [] ∧ u.me.bad = [] ∧ u.owned (.spad 0 0x1000) 2 = false ∧ u.me.phase = none ∧ u.me.rep = none ∧
    Memory.read u.me.spad 0x1000 2 = [0xD4, 0x04] ∧
    okIs (fetchInstr u) (fun i v => i = .add 3 3 5 && (match v.repGate i with | .run j _ => j = i | _ => false)) = true ∧
    (match fetchInstr { u with issue := Issue.at 0x5000 } with | .error (.exc _) => true | _ => false) = true ∧
    nextIs (step fetching) (fun t => ((t.core 0).ctxs[0]).w[3] = 0x4002) = true := by decide +kernel
/-- The same instruction has waited and is kept. -/
def keeping : State :=
  fetching.onContext ⟨0, 0⟩ fun k => { k with waiting := true, chain := some { Issue.at (L 0x1000) with chain := (encodeChain (.add 3 3 5)).getD (Chain.plain 0 0 0), next := L 0x1002 } }
theorem test_witness_StepRunsTheDecodedInstruction_kept :
    (fetching.core 0).ctxs[0].kept = none ∧ (keeping.core 0).ctxs[0].kept.isSome = true ∧ keeping.chosen = some ⟨0, 0⟩ ∧
    keeping.timeOn.mayIssue 0 0 = true ∧
    (match (keeping.core 0).ctxs[0].kept with
      | some y =>
        let u : State := { keeping.timeOn with chosen := none, cur := 0, ctx := 0, issue := y }
        (match u.repGate (u.formOf y.chain) with | .run i _ => decide (i = .add 3 3 5) | _ => false)
      | none => false) = true ∧
    nextIs (step keeping) (fun t => ((t.core 0).ctxs[0]).w[3] = 0x4002) = true := by decide +kernel
theorem test_witness_EncodedWordsDecode :
    (Instr.add 3 3 5).wellFormed = true ∧ encode (.add 3 3 5) = some [0b000001_0011_0101_00#16] ∧
    encode (.add 20 17 5) = some [0b111_01_1_0_0_10001_000#16, 0b000001_0100_0101_00#16] := by decide
theorem test_witness_EveryStepKeepsMemoryCanonical :
    fetching.memWf ∧ nextIs (step fetching) (fun _ => true) = true := ⟨memWf_of _ (by decide +kernel), by decide +kernel⟩
theorem test_witness_odd_targets_and_read_only_registers :
    let s := at0 0 0 0x4001
    let x := s.onCsr fun c => { c with epc := 0x4001 }
    CtlReady s 2 ∧ (s.w 3).toNat % 2 = 1 ∧ x.csr.epc.getLsbD 0 = true ∧ regModes 0x11 = some (0, none) ∧
    ((s.w 1) ^^^ s.register s.cur 0x11) &&& definedBits 0x11 = 0 ∧ ((s.w 3) ^^^ s.register s.cur 0x11) &&& definedBits 0x11 ≠ 0 ∧
    ((s.w 3) ^^^ s.register s.cur 0) &&& 0x43 ≠ 0 ∧ (((s.setW 3 0xE).w 3) ^^^ s.register s.cur 0) &&& 0x43 = 0 ∧
    nextIs (exec (.jr 3) s) (fun t => t.csr.tcause = 3 && t.csr.tval = 0x4001) = true ∧ nextIs (exec .rti x) (fun t => t.csr.tcause = 3) = true ∧
    nextIs (exec .upret s) (fun t => t.csr.tcause = 1) = true ∧ nextIs (exec .upret (inUser 0 0 0)) (fun t => t.csr.tcause = 2) = true ∧
    nextIs (exec (.csrw 1 0x11) s) (fun t => t.csr.tcause = 0) = true ∧ nextIs (exec (.csrw 3 0x11) s) (fun t => t.csr.tcause = 1 && t.csr.tval = 0x11) = true ∧
    nextIs (exec (.csrw 3 0) (s.setW 3 0xE)) (fun t => t.csr.status = 0xE) = true ∧
    nextIs (exec (.trap 9) (s.onCsr fun c => { c with status := 0x12 })) (fun t => t.me.run = .stopped) = true := by
  simp only [CtlReady]; decide
theorem test_witness_TrapsReturnsAndIllegalEncodings_privileged :
    let s := inUser 0 0 0
    let h := asHelper (at0 0 0 0) 2
    s.ctx = 0 ∧ s.mode < 2 ∧ s.issue.reissue = false ∧ s.csr.tk = false ∧ s.csr.tvec ≠ 0 ∧ h.ctx ≠ 0 ∧
    ([Instr.rti, .idle, .halt, .tlbinvAll, .tlbinvVa 1, .bdef 1 2, .bshare 1 2, .bresize 1 2].all fun i =>
      nextIs (exec i s) (fun t => t.csr.tcause = 2 && t.csr.tval = 0 && t.csr.epc = 0x1000) && nextIs (exec i h) fun t => t.me.ctxs[2].hstat = 3) = true := by
  decide +kernel
/-- A core in a phase, whose w1 is an address outside what a phase may touch; v2 is zero, and its matrix configuration names a
conduit. -/
def barred : State := ((inPhase none 0x800).setV 2 0).onMe fun c => { c with mcfg := cfg0 ||| 1#512 <<< 48 }
/-- A form is of the page given and takes trap 0x07 there. -/
def bars (page : Nat) (i : Instr) : Bool :=
  (encodeChain i).any (fun c => c.page.toNat = page) && nextIs (exec i barred) fun t => t.csr.tcause = 7 && t.csr.tval = 0
theorem test_witness_TrapsReturnsAndIllegalEncodings_barred :
    barred.ctx = 0 ∧ barred.csr.ph = true ∧ barred.dataAddr (.ld .d 4 1 0 .dflt) = some 0x800 ∧ phaseAllows barred 0x800 = false ∧
    phaseAllows barred (barred.w 1 + BitVec.ofInt 64 ((0 : BitVec 11).toInt * 128)) = false ∧ IntTy.lane .n8 ≠ 4 ∧ barred.v 2 = 0 ∧
    barred.w 2 &&& 0xF = 0 ∧ mAcd barred.me.mcfg ≠ 0 ∧ ([Instr.csrr 4 0x11, .csrw 4 0x18, .bquery 4 1].any barred.lacksMode) = false ∧
    bars 0 (.ld .d 4 1 0 .dflt) = true ∧ ([Instr.fence none .dev, .barQuire, .amoXadd .relaxed .core 4 1 2, .pubf, .tend, .yield, .spawn 1].all (bars 1)) = true ∧
    ([Instr.vld .n8 1 1 0 0, .vst .n8 1 1 0 0, .vldx .n8 1 1 2 0, .vstx .n8 1 1 2 0].all (bars 2)) = true ∧
    ([Instr.cp 1, .cpm 1, .cpc 1, .cpw 1, .cpfence, .cdcfgConfigure 1 2, .mmac 1 1 2, .msmac 1 1 2].all (bars 4)) = true ∧
    ([Instr.phBegin 1, .gload 1, .gstep 4 1, .gmask 1 2, .gstate 4, .sampF32 4 1, .sampBf16 4 1].all (bars 5)) = true ∧
    ([Instr.csrr 4 0x11, .csrw 4 0x18, .bquery 4 1].all (bars 6)) = true := by decide +kernel
theorem test_witness_AccessChecks_atomic :
    let s := inUser (L 0x2004) 0xFF00000000000000 0x0100000000000000
    let t := (s.setW 5 (L 0x2001)).setW 6 (L (127 * 0x40000))
    s.csr.ph = false ∧ regionOf (s.w 3) = .bad ∧ regionOf (s.w 2) = .super ∧ s.mode ≠ 2 ∧ regionOf (s.w 1) = .loc 0 0 0x2004 ∧
    regionOf (t.w 6) = .loc 0 127 0 ∧ (t.w 6).toNat % 8 = 0 ∧ (s.w 1).toNat % 8 ≠ 0 ∧ (s.w 1).toNat % 4 = 0 ∧ (t.w 5).toNat % 4 ≠ 0 ∧
    nextIs (exec (.amoAdd .double .ar .sys 4 1 2) s) (fun t => t.csr.tcause = 3 && t.csr.tval = L 0x2004) = true ∧
    nextIs (exec (.lrD .relaxed .core 4 1) s) (fun t => t.csr.tcause = 3) = true ∧
    nextIs (exec (.amoXadd .relaxed .core 4 1 2) s) (fun t => t.csr.tcause = 3) = true ∧
    nextIs (exec (.waitaddr 1 2) s) (fun t => t.csr.tcause = 3) = true ∧
    nextIs (exec (.scW .relaxed .core 4 5 2) t) (fun t => t.csr.tcause = 3 && t.csr.tval = L 0x2001) = true ∧
    nextIs (exec (.scD .relaxed .core 4 6 2) t) (fun t => t.csr.tcause = 4) = true ∧
    nextIs (exec (.amoFadd .relaxed .core 4 2 1) s) (fun t => t.csr.tcause = 2 && t.csr.tval = 0xFF00000000000000) = true ∧
    nextIs (exec (.lrW .relaxed .core 4 3) s) (fun t => t.csr.upcause = 0x20 && t.csr.upval = 0x0100000000000000) = true := by decide +kernel

end Sys2Proof.Tests
end

section
/-! SUPPORT. Every meaning, and with it every step, ends in a next state (95_what_each_step_holds.md). -/

namespace Sys2Proof.Machine

/-- An outcome is a next state. -/
def GoesOn (o : Host.Outcome State Fault Refusal) : Prop := ∃ t, o = .next t

theorem goesOn_next (t : State) : GoesOn (.next t) := ⟨t, rfl⟩

theorem goesOn_thenNext {o : Host.Outcome State Fault Refusal} (f : State → State) (h : GoesOn o) : GoesOn (thenNext f o) := by
  obtain ⟨t, rfl⟩ := h
  exact goesOn_next (f t)

theorem goesOn_run (x : M Unit) (s : State) : GoesOn (M.run x s) := M.run_next x s

/-- A program's instruction is a computation, none of which stops the machine; a step of the part answers a next state, at once
or in each branch of its definition. -/
theorem exec_goesOn (i : Instr) (s : State) : GoesOn (exec i s) := by
  cases i with
  | storeBufferDrain | reservationRequest | reservationWriteBack | barrierMemberLost | matrixOperationStart
  | matrixOperationComplete | copyCommandAccept | combineHoldExpiry | copyLineMove | copyCompletionWrite
  | receiveRegisterLatch | phaseLengthExpiry | mrectCheckExchange | wincfgWrite | decodeTableLoad | dmemWrite
  | dqlocalWrite | bindselRecordStore | resizeSetMove | resizeWalkEnd | impreciseErrorEvent | repSequenceFault
  | phaseOverrun | badDequeHandle | inboxOverflow | breakpoint | breakpointSet | preemptionSave | repReissue
  | planeRouterCycle | prctlWrite | fabctlWrite | lossNotice | lostSetClear | barrierSysPacket | homePlainFill
  | homeOwnFill | homeWriteBack | homeWtStore | homeUncAccess | dieDrain | hostFence | lstatRead | ohmovRetrain
  | diesReady | wrsWake | waitaddrRead | waitaddrRemotePoll | governorWindow | govctlWrite | csrWrite | fenceToken
  | fenceHandshakeTimeout | keepalive | translationWalk | remoteInvalidation | homeSiFill | linkFlitReplay
  | powerGood | thermalSample | hbmPatrol | attestationRequest => exact goesOn_next _
  | reservationGrant | reservationRevoke | barrierRelease | kettleOperation | recruitStart | launchTreeDelivery
  | lowLoweringBroadcast | worklistSweep | partnerReadTimeout | worklistEpoch | nextWorkSelect | stealProbe
  | coreWake | preemptionRequest | preemptionHoldTimeout | preemptionRestore | grammarUnitServe | refusal
  | refusalReservationTimeout | permittedRangeTableWrite | remotePacketArrival | remoteReplyArrival | fabricTimeout
  | neighbourSilence | qasrWrite | probeArrival | dataReplyArrival | boundaryRetrain | boundaryDown | messageDepart
  | messageArrival | launch | hostNotice | hostRead | hostWrite | blobWrite | imagoEntry | coreReset | quireReset =>
    simp only [exec, execReservationGrant, execReservationRevoke, execBarrierRelease, execKettleOperation, execRecruitStart,
      execLaunchTreeDelivery, execLowLoweringBroadcast, execWorklistSweep, execPartnerReadTimeout, execWorklistEpoch,
      execNextWorkSelect, execStealProbe, execCoreWake, execPreemptionRequest, execPreemptionHoldTimeout,
      execPreemptionRestore, execGrammarUnitServe, execRefusal, execRefusalReservationTimeout,
      execPermittedRangeTableWrite, execRemotePacketArrival, execRemoteReplyArrival, execFabricTimeout,
      execNeighbourSilence, execQasrWrite, execProbeArrival, execDataReplyArrival, execBoundaryRetrain,
      execBoundaryDown, execMessageDepart, execMessageArrival, execLaunch, execHostNotice, execHostRead,
      execHostWrite, execBlobWrite, execImagoEntry, execCoreReset, execQuireReset]
    repeat' split
    all_goals exact goesOn_next _
  | _ =>
    simp only [exec]
    exact goesOn_run _ s

theorem perform_goesOn (s : State) (i : Instr) (t : Turn) : GoesOn (perform s i t) := by
  unfold perform
  split
  · exact exec_goesOn ..
  · exact goesOn_next _

theorem runPlan_goesOn (p : Plan) : GoesOn (runPlan p) := by
  cases p with
  | stop t => exact goesOn_next t
  | run i u => exact goesOn_thenNext _ (exec_goesOn i u)

theorem reissue_goesOn (s : State) (n : Nat) : GoesOn (reissue s n) := by
  unfold reissue
  split
  · exact goesOn_next _
  · split
    · exact goesOn_thenNext _ (exec_goesOn ..)
    · exact goesOn_next _

theorem act_goesOn (s : State) (a : Action) : GoesOn (act s a) := by
  cases a with
  | event i t => exact perform_goesOn s i t
  | issue a => exact runPlan_goesOn _
  | reissue n => exact reissue_goesOn s n
  | ahead n | hop t | rise | drained d => exact goesOn_next _
  | input =>
    simp only [act]
    split
    · exact perform_goesOn ..
    · exact goesOn_next _
  | retry k =>
    simp only [act]
    split
    · exact goesOn_thenNext _ (perform_goesOn ..)
    · exact goesOn_next _

theorem step_goesOn (s : State) : GoesOn (step s) := by
  simp only [step]
  split
  · exact act_goesOn ..
  · exact goesOn_next _

/-- Settles O31: a step lets time pass and performs at most one action, and every action goes on. -/
theorem everyStepGoesOn : Obligations.EveryStepGoesOn := step_goesOn

end Sys2Proof.Machine
end

section
/-! SUPPORT. The state after reset (01, R17; 17, R441). -/

namespace Sys2Proof.Machine

/-! ### Bytes at home -/

/-- Where the home slices hold no line, a byte of HBM is that of the memory itself. -/
theorem State.homeCell_of_no_slices {s : State} (h : ∀ q, (s.quire q).slices = []) (b pa : Nat) :
    s.homeCell b pa = (Memory.get s.hbm pa, s.badHbm.contains (pa / 8)) := by
  have none : s.homeLine b pa = none := by
    unfold State.homeLine
    split
    · simp [Quire.homeLine, h]
    · rfl
  simp [State.homeCell, none]

/-! ### Reset -/

theorem State.reset_core (n : Nat) : State.reset.core n = Core.reset n := rfl
theorem State.reset_quire (q : Nat) : State.reset.quire q = Quire.reset := rfl

/-- A helper register reads 0 where every context's field is 0. -/
theorem helperFields_eq_zero {c : Core} {f : Ctx → Nat} (width : Nat) (h : ∀ x : Fin 11, f c.ctxs[x] = 0) :
    helperFields c width f = 0 := by
  have fold : ∀ l : List (Fin 11), l.foldl (fun x k => x + f c.ctxs[k] * 2 ^ (width * (k.val - 1))) 0 = 0 := by
    intro l
    induction l with
    | nil => rfl
    | cons k r ih => rw [List.foldl_cons, h k, Nat.zero_mul, ih]
  simp only [helperFields, fold]
  rfl

theorem Core.reset_ctx (n : Nat) (x : Fin 11) : (Core.reset n).ctxs[x] = Ctx.reset := by
  simp [Core.reset]

theorem Csr.reset_tk : Csr.reset.tk = false := by decide
theorem Csr.reset_pe : Csr.reset.pe = false := by decide
theorem Csr.reset_ph : Csr.reset.ph = false := by decide

/-- The registers that read 0 after reset. -/
def zeroAtReset : List Nat :=
  [0x01, 0x02, 0x03, 0x04, 0x08, 0x09, 0x0A, 0x0B, 0x12, 0x14, 0x18, 0x19, 0x1A, 0x20, 0x21, 0x22, 0x24, 0x25, 0x28, 0x29, 0x2A,
    0x30, 0x31, 0x32, 0x33]

theorem State.reset_register_zero (n k : Nat) (h : k ∈ zeroAtReset) : State.reset.register n k = 0 := by
  have hstat : helperFields (Core.reset n) 4 (fun x => x.hstat.toNat) = 0 :=
    helperFields_eq_zero 4 fun x => by rw [Core.reset_ctx]; rfl
  have hcause : helperFields (Core.reset n) 6 (fun x => x.hcause.toNat) = 0 :=
    helperFields_eq_zero 6 fun x => by rw [Core.reset_ctx]; rfl
  simp only [zeroAtReset, List.mem_cons, List.not_mem_nil, or_false] at h
  rcases h with rfl | rfl | rfl | rfl | rfl | rfl | rfl | rfl | rfl | rfl | rfl | rfl | rfl | rfl | rfl | rfl | rfl | rfl | rfl |
    rfl | rfl | rfl | rfl | rfl | rfl
  all_goals simp only [State.register, State.reset_core, hstat, hcause]
  all_goals simp [Core.reset, Csr.reset, Csr.selHigh, State.reset]

/-- `coreid` is a word, so it is the number that its four fields make (01, Table 1.6). -/
theorem coreId_eq_iff {n : Nat} (k : Nat) (h : n < 18432) :
    coreId n = BitVec.ofNat 64 k ↔ k % 2 ^ 64 = n % 2 ^ 15 + n % 96 * 2 ^ 16 + n / 96 * 2 ^ 24 + n / 4608 * 2 ^ 32 := by
  have small : n % 32768 + n % 96 * 2 ^ 16 + n / 96 * 2 ^ 24 + n / 4608 * 2 ^ 32 < 2 ^ 64 := by omega
  rw [← BitVec.toNat_inj]
  simp only [coreId, qcoreOf, quireOf, dieOf, BitVec.toNat_ofNat, Nat.mod_eq_of_lt small]
  exact eq_comm

theorem State.reset_byteAt (p : Place) : State.reset.byteAt p = 0 := by
  cases p with
  | hbm pa b =>
    have noSlices : ∀ q, (State.reset.quire q).slices = [] := fun q => by rw [State.reset_quire]; rfl
    simp only [State.byteAt, State.homeCell_of_no_slices noSlices]
    rfl
  | spad c off | kettle q off | remote d pa => rfl

theorem State.reset_memWf : State.reset.memWf := ⟨rfl, rfl, fun _ => rfl, fun _ => rfl⟩

/-- Settles O27: every part of the state after reset is read off its definition. -/
theorem resetState : Obligations.ResetState := by
  refine ⟨fun n => ⟨rfl, Csr.reset_tk, Csr.reset_pe, Csr.reset_ph, rfl, rfl, rfl, State.reset_register_zero n, rfl, rfl⟩, fun n k h => coreId_eq_iff k h,
    State.reset_memWf, State.reset_byteAt, rfl, fun q => ?_, rfl, rfl, rfl, fun q => ⟨rfl, rfl⟩⟩
  simp [State.reset, chrysalisQuires]

end Sys2Proof.Machine
end

section
/-! SUPPORT. What an exception writes, and what it leaves unchanged (01, R10, R15, R16, Table 1.3). -/

namespace Sys2Proof.Machine

/-! ### Bytes -/

/-- The bytes of the memories are those of the scratchpads, the quires, HBM and the bindings, which say where a home is. -/
theorem sameBytes_of {s t : State} (hc : ∀ n, (t.core n).spad = (s.core n).spad) (hq : t.quires = s.quires)
    (hh : t.hbm = s.hbm) (hb : t.bindings = s.bindings) : SameBytes s t := by
  intro p
  cases p with
  | spad c off => simp only [State.byteAt, hc]
  | kettle q off => simp only [State.byteAt, State.quire, hq]
  | remote d pa => rfl
  | hbm pa b =>
    have hbinding : ∀ k, t.binding k = s.binding k := fun k => by simp only [State.binding, hb]
    have hquire : ∀ k, t.quire k = s.quire k := fun k => by simp only [State.quire, hq]
    have hline : ∀ h, t.homeLine h pa = s.homeLine h pa := fun h => by
      simp only [State.homeLine, State.slice, hquire, hbinding]
    simp only [State.byteAt, State.homeBinding, hbinding, State.homeCell, hline, hh]
    split <;> rfl

theorem SameBytes.trans {s t u : State} (h : SameBytes s t) (g : SameBytes t u) : SameBytes s u := fun p => (g p).trans (h p)

/-! ### What an event at a core may change -/

/-- Of the memories and the cores only core `n` differs, and its scratchpad does not. -/
structure CoreEvent (s t : State) (n : Nat) : Prop where
  others : OtherCoresSame s t n
  spad : (t.core n).spad = (s.core n).spad
  quires : t.quires = s.quires
  hbm : t.hbm = s.hbm
  bindings : t.bindings = s.bindings

theorem CoreEvent.sameBytes {s t : State} {n : Nat} (h : CoreEvent s t n) : SameBytes s t := by
  refine sameBytes_of (fun k => ?_) h.quires h.hbm h.bindings
  by_cases hk : k = n
  · subst hk; exact h.spad
  · rw [h.others k hk]

theorem CoreEvent.trans {s t u : State} {n : Nat} (h : CoreEvent s t n) (g : CoreEvent t u n) : CoreEvent s u n where
  others k hk := (g.others k hk).trans (h.others k hk)
  spad := g.spad.trans h.spad
  quires := g.quires.trans h.quires
  hbm := g.hbm.trans h.hbm
  bindings := g.bindings.trans h.bindings

theorem CoreEvent.refl (s : State) (n : Nat) : CoreEvent s s n := ⟨fun _ _ => rfl, rfl, rfl, rfl, rfl⟩

theorem coreEvent_onCore (s : State) (n : Nat) (f : Core → Core) (h : (f (s.core n)).spad = (s.core n).spad) :
    CoreEvent s (s.onCore n f) n where
  others k hk := State.core_onCore_ne s n k f hk
  spad := by rw [State.core_onCore_same, h]
  quires := rfl
  hbm := rfl
  bindings := rfl

theorem coreEvent_onMe (s : State) (f : Core → Core) (h : (f s.me).spad = s.me.spad) : CoreEvent s (s.onMe f) s.cur :=
  coreEvent_onCore s s.cur f h
theorem coreEvent_onMyCtx (s : State) (f : Ctx → Ctx) : CoreEvent s (s.onMyCtx f) s.cur := coreEvent_onMe s _ rfl
theorem coreEvent_onCsr (s : State) (f : Csr → Csr) : CoreEvent s (s.onCsr f) s.cur := coreEvent_onMe s _ rfl
theorem coreEvent_advance (s : State) : CoreEvent s s.advance s.cur := coreEvent_onMyCtx s _

/-! ### A reservation that is lost, and a report -/

/-- A core one of whose contexts has lost its reservation and what it kept of a wait. -/
def Core.lost (c : Core) (x : Fin 11) : Core :=
  { c with ctxs := c.ctxs.set x { (c.ctxs[x]).loseResv.forget with watch := none } }

theorem Core.lost_ctx_same (c : Core) (x : Fin 11) :
    (c.lost x).ctxs[x] = { (c.ctxs[x]).loseResv.forget with watch := none } := by
  simp [Core.lost]
theorem Core.lost_ctx_ne (c : Core) {x y : Fin 11} (h : y ≠ x) : (c.lost x).ctxs[y] = c.ctxs[y] := by
  have hv : x.val ≠ y.val := fun e => h (Fin.ext e.symm)
  simp [Core.lost, Vector.getElem_set_ne, hv]

theorem State.core_loseResv_same (s : State) (a : Agent) : (s.loseResv a).core a.core = (s.core a.core).lost a.ctx :=
  mapGet_mapPut_same ..
theorem State.core_loseResv_ne (s : State) (a : Agent) {k : Nat} (h : k ≠ a.core) : (s.loseResv a).core k = s.core k :=
  mapGet_mapPut_ne _ _ _ _ _ h
theorem coreEvent_loseResv (s : State) (a : Agent) : CoreEvent s (s.loseResv a) a.core where
  others _ h := State.core_loseResv_ne s a h
  spad := by rw [State.core_loseResv_same]; rfl
  quires := rfl
  hbm := rfl
  bindings := rfl

theorem Ctx.loseResv_not_held (c : Ctx) (r : Resv) (h : c.loseResv.resv = some r) : r.state ≠ .held := by
  simp only [Ctx.loseResv, Option.map_eq_some_iff] at h
  obtain ⟨r', _, rfl⟩ := h
  split <;> simp_all

/-- Reporting a stop changes nothing but the reports. -/
theorem State.tellStop_eq (s : State) (n : Nat) : s.tellStop n = { s with reports := (s.tellStop n).reports } := by
  simp only [State.tellStop]
  split <;> rfl
@[simp] theorem State.core_tellStop (s : State) (n k : Nat) : (s.tellStop n).core k = s.core k := by
  rw [State.tellStop_eq]; rfl
@[simp] theorem State.tellStop_cur (s : State) (n : Nat) : (s.tellStop n).cur = s.cur := by rw [State.tellStop_eq]
@[simp] theorem State.tellStop_ctx (s : State) (n : Nat) : (s.tellStop n).ctx = s.ctx := by rw [State.tellStop_eq]
theorem coreEvent_tellStop (s : State) (n k : Nat) : CoreEvent s (s.tellStop n) k := by
  rw [State.tellStop_eq]
  exact ⟨fun _ _ => rfl, rfl, rfl, rfl, rfl⟩

/-! ### The status word -/

section
variable (old : Word) (mode pmode : BitVec 2) (tk : Bool)

theorem statusWith_getLsbD (i : Nat) : (statusWith old mode pmode tk).getLsbD i =
    (decide (i < 7) && if i < 2 then mode.getLsbD i else if i < 4 then pmode.getLsbD (i - 2) else if i < 5 then tk else old.getLsbD i) := by
  simp only [statusWith, BitVec.getLsbD_setWidth, BitVec.getLsbD_append, BitVec.getLsbD_extractLsb', BitVec.getLsbD_ofBool]
  by_cases h7 : i < 7
  · have : i = 0 ∨ i = 1 ∨ i = 2 ∨ i = 3 ∨ i = 4 ∨ i = 5 ∨ i = 6 := by omega
    rcases this with rfl | rfl | rfl | rfl | rfl | rfl | rfl <;> simp
  · simp [h7, show ¬ i < 2 by omega, show ¬ i < 5 by omega, show ¬ i ≤ 6 by omega]

variable {old mode pmode tk} {c : Csr} (h : c.status = statusWith old mode pmode tk)
include h

theorem Csr.mode_of_status : c.mode = mode.toNat := by
  have e : (statusWith old mode pmode tk).extractLsb' 0 2 = mode := by
    ext i hi
    simp only [BitVec.getElem_extractLsb', Nat.zero_add, statusWith_getLsbD]
    simp [hi, show i < 7 by omega]
  simp only [Csr.mode, h, e]
theorem Csr.pmode_of_status : c.pmode = pmode := by
  ext i hi
  simp only [Csr.pmode, h, BitVec.getElem_extractLsb', statusWith_getLsbD]
  simp [show 2 + i < 7 by omega, show 2 + i < 4 by omega, show ¬ 2 + i < 2 by omega, BitVec.getLsbD_eq_getElem hi]
theorem Csr.tk_of_status : c.tk = tk := by
  simp only [Csr.tk, h, statusWith_getLsbD]
  simp
theorem Csr.pe_of_status : c.pe = old.getLsbD 5 := by
  simp only [Csr.pe, h, statusWith_getLsbD]
  simp
theorem Csr.ph_of_status : c.ph = old.getLsbD 6 := by
  simp only [Csr.ph, h, statusWith_getLsbD]
  simp
theorem Csr.reserved_of_status : c.status.extractLsb' 7 57 = 0 := by
  rw [h]
  ext i hi
  simp only [BitVec.getElem_extractLsb', statusWith_getLsbD]
  simp
end

/-! ### Taking a trap or an upcall -/

/-- The system registers after a trap, and after an upcall (01, Table 1.3). -/
def Csr.trapped (c : Csr) (k : BitVec 6) (v e : Word) : Csr :=
  { c with
    status := statusWith c.status superMode (c.status.extractLsb' 0 2) true
    tcause := k.zeroExtend 64, tval := v, epc := e }
def Csr.upcalled (c : Csr) (k : BitVec 6) (v e : Word) : Csr :=
  { c with
    status := statusWith c.status upcallMode c.pmode c.tk
    upcause := k.zeroExtend 64, upval := v, upepc := e }
/-- The control context goes to a handler with the system registers given. -/
def Core.handle (c : Core) (x : Csr) (a : Word) : Core :=
  { c with csr := x, ctxs := c.ctxs.set 0 { c.ctxs[0] with pc := evenPc a, waiting := false }, afterBar := false }

theorem Core.takeTrap_stops {c : Core} (k : BitVec 6) (v e : Word) (h : c.csr.tk = true ∨ c.csr.tvec = 0) :
    c.takeTrap k v e = c.stop := by
  rw [Core.takeTrap, if_pos]
  rcases h with h | h <;> simp [h]
theorem Core.takeTrap_taken {c : Core} (k : BitVec 6) (v e : Word) (htk : c.csr.tk = false) (htv : c.csr.tvec ≠ 0) :
    c.takeTrap k v e = c.handle (c.csr.trapped k v e) c.csr.tvec := by
  exact if_neg (by simpa [htk] using htv)
theorem Core.takeUpcall_taken {c : Core} (k : BitVec 6) (v e : Word) (hm : c.csr.mode = 0) (hu : c.csr.upvec ≠ 0) :
    c.takeUpcall k v e = c.handle (c.csr.upcalled k v e) c.csr.upvec := by
  exact if_pos (by simpa [hm] using hu)
theorem Core.takeUpcall_as_trap {c : Core} (k : BitVec 6) (v e : Word) (h : c.csr.mode ≠ 0 ∨ c.csr.upvec = 0) :
    c.takeUpcall k v e = c.takeTrap k v e := by
  rw [Core.takeUpcall, if_neg]
  rcases h with h | h <;> simp [h]

/-! ### Delivering an exception -/

/-- The instruction in flight has ended in an exception. -/
def State.struck (s : State) : State := { s with issue := { s.issue with took := true } }
/-- A context takes an exception: its core changes as told once its reservation is lost, and a stop is reported. -/
def State.taking (s : State) (f : Core → Core) : State :=
  ((s.struck.loseResv ⟨s.cur, s.ctx⟩).onMe f).tellStop s.cur

section
variable {s : State}

theorem State.deliver_trap_control (cause : BitVec 6) (v : Word) (hr : s.issue.reissue = false) (hx : s.ctx = 0) :
    s.deliver (.trap cause v) = s.taking fun c => c.takeTrap cause v (epcOf s.issue cause) := by
  exact (if_neg (by simpa [State.struck] using hr)).trans (if_pos hx)
theorem State.deliver_upcall_control (kind : BitVec 6) (v : Word) (hr : s.issue.reissue = false) (hx : s.ctx = 0) :
    s.deliver (.upcall kind v) = s.taking fun c => c.takeUpcall kind v s.issue.pc := by
  exact (if_neg (by simpa [State.struck] using hr)).trans (if_pos hx)
theorem State.deliver_trap_helper (cause : BitVec 6) (v : Word) (hr : s.issue.reissue = false) (hx : s.ctx ≠ 0) :
    s.deliver (.trap cause v) = s.taking fun c => c.endHelper s.ctx cause := by
  exact (if_neg (by simpa [State.struck] using hr)).trans (if_neg hx)
end

@[simp] theorem State.taking_cur (s : State) (f : Core → Core) : (s.taking f).cur = s.cur := State.tellStop_cur ..
@[simp] theorem State.taking_ctx (s : State) (f : Core → Core) : (s.taking f).ctx = s.ctx := State.tellStop_ctx ..
theorem State.me_struck_loseResv (s : State) : (s.struck.loseResv ⟨s.cur, s.ctx⟩).me = s.me.lost s.ctx :=
  State.core_loseResv_same s.struck ⟨s.cur, s.ctx⟩
theorem State.taking_congr {s : State} {f g : Core → Core} (h : f (s.me.lost s.ctx) = g (s.me.lost s.ctx)) :
    s.taking f = s.taking g := by
  simp only [State.taking, State.onMe, State.me_struck_loseResv, h]
theorem State.taking_me (s : State) (f : Core → Core) : (s.taking f).me = f (s.me.lost s.ctx) := by
  have e : (s.taking f).me = (s.taking f).core s.cur := by rw [State.me, State.taking_cur]
  rw [e, State.taking, State.core_tellStop]
  exact (State.me_onMe _ f).trans (congrArg f s.me_struck_loseResv)
theorem State.taking_myCtx (s : State) (f : Core → Core) : (s.taking f).myCtx = (f (s.me.lost s.ctx)).ctxs[s.ctx] := by
  simp only [State.myCtx, State.taking_me, State.taking_ctx]
theorem coreEvent_taking (s : State) (f : Core → Core) (h : (f (s.me.lost s.ctx)).spad = s.me.spad) :
    CoreEvent s (s.taking f) s.cur := by
  have strike : CoreEvent s s.struck s.cur := ⟨fun _ _ => rfl, rfl, rfl, rfl, rfl⟩
  have lose := strike.trans (coreEvent_loseResv s.struck ⟨s.cur, s.ctx⟩)
  exact (lose.trans (coreEvent_onMe _ f (by rw [State.me_struck_loseResv, h]; rfl))).trans (coreEvent_tellStop _ _ _)

/-- Taking an exception leaves the registers as they were, where its change of the core does. -/
theorem registersSame_taking {s : State} {f : Core → Core} {d : Core} (hf : f (s.me.lost s.ctx) = d) (hs : d.spad = s.me.spad)
    (hw : d.ctxs[s.ctx].w = s.myCtx.w) (hv : d.v = s.me.v) (hm : d.m = s.me.m) (ha : d.acc = s.me.acc) :
    RegistersSame s (s.taking f) := by
  subst hf
  refine ⟨fun r => ?_, ?_, ?_, ?_, (coreEvent_taking s f hs).sameBytes⟩
  · simp only [State.w, State.taking_myCtx, hw]
  all_goals rw [State.taking_me]; assumption

end Sys2Proof.Machine
end

section
/-! SUPPORT. Taking a trap, taking an upcall, and the end of a helper that faults (01, R10, R15, R16). -/

namespace Sys2Proof.Machine

section
variable {s : State}

/-- A context that has lost its reservation keeps its registers. -/
theorem lost_w (s : State) : (s.me.lost s.ctx).ctxs[s.ctx].w = s.myCtx.w := by
  rw [Core.lost_ctx_same]; rfl

theorem handle_ctx (c : Core) (x : Csr) (a : Word) {k : Fin 11} (h : k = 0) :
    (c.handle x a).ctxs[k] = { c.ctxs[k] with pc := evenPc a, waiting := false } := by
  subst h
  simp [Core.handle]

/-- The control context goes to a handler: its system registers, its program counter, and the frame. -/
theorem taking_handle {f : Core → Core} {x : Csr} {a : Word} (hx : s.ctx = 0)
    (hf : f (s.me.lost s.ctx) = (s.me.lost s.ctx).handle x a) :
    (s.taking f).csr = x ∧ (s.taking f).myCtx.pc = a &&& ~~~(1#64) ∧ (s.taking f).myCtx.waiting = false ∧
      RegistersSame s (s.taking f) ∧ OtherCoresSame s (s.taking f) s.cur := by
  have spad : (f (s.me.lost s.ctx)).spad = s.me.spad := by rw [hf]; rfl
  have ctx := handle_ctx (s.me.lost s.ctx) x a hx
  have mine : (s.taking f).myCtx = { (s.me.lost s.ctx).ctxs[s.ctx] with pc := evenPc a, waiting := false } := by
    rw [State.taking_myCtx, hf, ctx]
  refine ⟨?_, by rw [mine]; rfl, by rw [mine], ?_, (coreEvent_taking s f spad).others⟩
  · rw [State.csr, State.taking_me, hf]; rfl
  · exact registersSame_taking hf rfl (by rw [ctx]; exact lost_w s) rfl rfl rfl

theorem trapTaken_taking (cause : BitVec 6) (v e : Word) (hx : s.ctx = 0) (htk : s.csr.tk = false) (htv : s.csr.tvec ≠ 0) :
    TrapTaken s (s.taking fun c => c.takeTrap cause v e) cause v e := by
  obtain ⟨csr, pc, waiting, registers, others⟩ :=
    taking_handle (f := fun c => c.takeTrap cause v e) hx (Core.takeTrap_taken (c := s.me.lost s.ctx) cause v e htk htv)
  have status : (s.csr.trapped cause v e).status = _ := rfl
  unfold TrapTaken
  rw [csr]
  exact ⟨rfl, Csr.mode_of_status status, Csr.pmode_of_status status, Csr.tk_of_status status, Csr.pe_of_status status,
    Csr.ph_of_status status, Csr.reserved_of_status status, pc, waiting, registers, others⟩

theorem upcallTaken_taking (kind : BitVec 6) (v e : Word) (hx : s.ctx = 0) (hm : s.csr.mode = 0) (hu : s.csr.upvec ≠ 0) :
    UpcallTaken s (s.taking fun c => c.takeUpcall kind v e) kind v e := by
  obtain ⟨csr, pc, waiting, registers, others⟩ :=
    taking_handle (f := fun c => c.takeUpcall kind v e) hx (Core.takeUpcall_taken (c := s.me.lost s.ctx) kind v e hm hu)
  have status : (s.csr.upcalled kind v e).status = _ := rfl
  unfold UpcallTaken
  rw [csr]
  exact ⟨rfl, Csr.mode_of_status status, Csr.pmode_of_status status, Csr.tk_of_status status, Csr.pe_of_status status,
    Csr.ph_of_status status, pc, waiting, registers, others⟩

/-- A double trap stops the control context with its state intact (R16). -/
theorem taking_stop {f : Core → Core} (hf : f (s.me.lost s.ctx) = (s.me.lost s.ctx).stop) :
    (s.taking f).me.run = .stopped ∧ (s.taking f).csr = s.csr ∧ (s.taking f).myCtx.pc = s.myCtx.pc ∧
      RegistersSame s (s.taking f) ∧ OtherCoresSame s (s.taking f) s.cur := by
  have spad : (f (s.me.lost s.ctx)).spad = s.me.spad := by rw [hf]; rfl
  refine ⟨?_, ?_, ?_, registersSame_taking hf rfl (lost_w s) rfl rfl rfl, (coreEvent_taking s f spad).others⟩
  · rw [State.taking_me, hf]; rfl
  · rw [State.csr, State.taking_me, hf]; rfl
  · rw [State.taking_myCtx, hf, Core.stop, Core.lost_ctx_same]; rfl

/-- A helper ends: its field of `hstat`, its cause, and no reservation that it holds (R10). -/
theorem taking_endHelper (cause : BitVec 6) (hx : s.ctx ≠ 0) :
    let t := s.taking fun c => c.endHelper s.ctx cause
    t.myCtx.hstat = 3 ∧ t.myCtx.hcause = cause ∧ t.csr = s.csr ∧ t.me.ctxs[0] = s.me.ctxs[0] ∧
      (∀ r, t.myCtx.resv = some r → r.state ≠ .held) ∧ RegistersSame s t ∧ OtherCoresSame s t s.cur := by
  intro t
  have ended : ((s.me.lost s.ctx).endHelper s.ctx cause).ctxs[s.ctx] =
      { (s.me.lost s.ctx).ctxs[s.ctx] with hstat := 3, hcause := cause, waiting := false } := by
    simp [Core.endHelper]
  have mine : t.myCtx = { (s.me.lost s.ctx).ctxs[s.ctx] with hstat := 3, hcause := cause, waiting := false } := by
    rw [State.taking_myCtx, ended]
  have first : ((s.me.lost s.ctx).endHelper s.ctx cause).ctxs[(0 : Fin 11)] = s.me.ctxs[(0 : Fin 11)] := by
    have hv : s.ctx.val ≠ 0 := fun e => hx (Fin.ext e)
    simp only [Core.endHelper]
    exact (Vector.getElem_set_ne _ _ hv).trans (Core.lost_ctx_ne _ (Ne.symm hx))
  refine ⟨by rw [mine], by rw [mine], ?_, ?_, fun r hr => ?_, ?_, (coreEvent_taking s _ rfl).others⟩
  · rw [State.csr, State.taking_me]; rfl
  · rw [State.taking_me]; exact first
  · rw [mine, Core.lost_ctx_same] at hr
    exact Ctx.loseResv_not_held _ r hr
  · exact registersSame_taking rfl rfl (by rw [ended]; exact lost_w s) rfl rfl rfl

theorem takingATrap : Claims.TakingATrap := by
  intro s cause tval hx hr t
  have e : t = s.taking fun c => c.takeTrap cause tval (epcOf s.issue cause) := State.deliver_trap_control cause tval hr hx
  have epc : epcOf s.issue cause = if cause = 0x13 ∨ cause = 0x14 then s.issue.next else s.issue.pc := by
    simp [epcOf]
  rw [e]
  refine ⟨fun htk htv => ?_, fun h => taking_stop (Core.takeTrap_stops cause tval _ h)⟩
  rw [← epc]
  exact trapTaken_taking cause tval _ hx htk htv

theorem takingAnUpcall : Claims.TakingAnUpcall := by
  intro s kind val hx hr t
  have e : t = s.taking fun c => c.takeUpcall kind val s.issue.pc := State.deliver_upcall_control kind val hr hx
  rw [e]
  refine ⟨upcallTaken_taking kind val _ hx, fun h htk htv => ?_⟩
  have asTrap : (s.me.lost s.ctx).takeUpcall kind val s.issue.pc = (s.me.lost s.ctx).takeTrap kind val s.issue.pc :=
    Core.takeUpcall_as_trap kind val s.issue.pc h
  rw [State.taking_congr (g := fun c => c.takeTrap kind val s.issue.pc) asTrap]
  exact trapTaken_taking kind val _ hx htk htv

theorem aFaultEndsAHelper : Claims.AFaultEndsAHelper := by
  intro s cause tval hx hr
  rw [State.deliver_trap_helper cause tval hr hx]
  exact taking_endHelper cause hx

/-- Settles O37: a trap, an upcall and a helper's fault each as one change of the core that takes it. -/
theorem takingAnException : Obligations.TakingAnException := ⟨takingATrap, takingAnUpcall, aFaultEndsAHelper⟩

end

end Sys2Proof.Machine
end

section
/-! SUPPORT. The trap instruction, returns, words that are no instruction, and forms that the mode bars (02, R55 to R58; 10,
R278 to R280). -/

namespace Sys2Proof.Machine

/-! ### The checks before an instruction's own -/

section
variable {s : State}

theorem controlOnly_helper (h : s.ctx ≠ 0) : controlOnly s = .error (.exc (.trap 0x01 s.issue.wordPc)) := by
  simp [controlOnly, M.bind_run, h]
theorem needMode_below {n : Nat} (v : Word) (h : s.mode < n) : needMode n v s = .error (.exc (.trap 0x02 v)) := by
  simp [needMode, M.bind_run, Nat.not_le.2 h]
theorem barPhase_open (h : s.csr.ph = true) : barPhase s = .error (.exc (.trap 0x07 0)) := by
  simp [barPhase, M.bind_run, h]

theorem pageSix_run {n : Nat} (h : CtlReady s n) : pageSix n s = .ok ((), s) := by
  obtain ⟨hx, _, _, hp, hm⟩ := h
  rw [pageSix, M.bind_ok (controlOnly_run hx), M.bind_ok (needMode_run 0 hm), barPhase_run hp]
theorem pageSix_below {n : Nat} (hx : s.ctx = 0) (hm : s.mode < n) : pageSix n s = .error (.exc (.trap 0x02 0)) := by
  rw [pageSix, M.bind_ok (controlOnly_run hx), M.bind_error (needMode_below 0 hm)]
theorem pageSix_helper {n : Nat} (hx : s.ctx ≠ 0) : pageSix n s = .error (.exc (.trap 0x01 s.issue.wordPc)) := by
  rw [pageSix, M.bind_error (controlOnly_helper hx)]
theorem pageSix_open {n : Nat} (hx : s.ctx = 0) (hm : n ≤ s.mode) (hp : s.csr.ph = true) :
    pageSix n s = .error (.exc (.trap 0x07 0)) := by
  rw [pageSix, M.bind_ok (controlOnly_run hx), M.bind_ok (needMode_run 0 hm), barPhase_open hp]

/-- The exception of the first check of an instruction is what the instruction ends in. -/
theorem run_first {x : M Unit} {e : Exc} (f : Unit → M Unit) (h : x s = .error (.exc e)) : M.run (x >>= f) s = .next (s.deliver e) :=
  M.run_exc (M.bind_error h)

/-! ### The trap instruction (R279) -/

theorem exec_trap {n : Nat} (k : BitVec 17) (h : CtlReady s n) : exec (.trap k) s = .next (s.deliver (.trap 0x14 (k.zeroExtend 64))) := by
  have ready : CtlReady s 0 := by
    obtain ⟨hx, hr, hs, hp, _⟩ := h
    exact ⟨hx, hr, hs, hp, Nat.zero_le _⟩
  show M.run (pageSix 0 >>= fun _ => trap 0x14 (k.zeroExtend 64)) s = _
  exact M.run_exc (M.bind_ok (pageSix_run ready))

end

/-- The word of `trap` has its opcode in the upper bits and its code in the lower (02, Table 2.15). -/
theorem trapWord_fields (lo : BitVec 6) : let w : Base := BitVec.ofNat 16 (1 * 2 ^ 10 + lo.toNat)
    Base.isPrefix w = false ∧ w.extractLsb' 10 6 = 1#6 ∧ w.extractLsb' 6 4 = 0#4 ∧ w.extractLsb' 2 4 ++ w.extractLsb' 0 2 = lo := by
  revert lo
  decide
/-- An IX word is its mark and its eleven bits (02, Table 2.2). -/
theorem ixWord_eq (hi : BitVec 11) : BitVec.ofNat 16 (0b111_00 * 2 ^ 11 + hi.toNat) = 0b11100#5 ++ hi := by
  apply BitVec.eq_of_toNat_eq
  rw [BitVec.toNat_append, ← Nat.shiftLeft_add_eq_or_of_lt hi.isLt, Nat.shiftLeft_eq]
  have := hi.isLt
  simp only [BitVec.toNat_ofNat]
  omega

/-- The prefixes of a form of page 6 without a schedule and without RX. -/
def prefixesSix (ix : Option (BitVec 11)) : Prefixes := ⟨ix, none, some 6, none⟩
theorem read_page6 : Prefixes.none.read 0b111_10_0000_0000_110#16 = .more (prefixesSix none) := by decide
theorem read_ix (hi : BitVec 11) (p : Prefixes) (h : p.ix = none) : p.read (0b11100#5 ++ hi) = .more { p with ix := some hi } := by
  have pre : Base.isPrefix (0b11100#5 ++ hi) = true := by
    have e : (0b11100#5 ++ hi).extractLsb' 13 3 = 7#3 := by
      rw [BitVec.extractLsb'_append_eq_of_le (by decide)]; decide
    simp [Base.isPrefix, e]
  have kind : (0b11100#5 ++ hi).extractLsb' 11 2 = 0#2 := by
    rw [BitVec.extractLsb'_append_eq_of_le (by decide)]; decide
  have bits : (0b11100#5 ++ hi).extractLsb' 0 11 = hi := by
    rw [BitVec.extractLsb'_append_eq_of_add_le (by decide)]; simp
  simp [Prefixes.read, pre, kind, bits, h]
theorem read_trap (lo : BitVec 6) (p : Prefixes) : p.read (BitVec.ofNat 16 (1 * 2 ^ 10 + lo.toNat)) =
    .done (p.chain (BitVec.ofNat 16 (1 * 2 ^ 10 + lo.toNat))) := by
  rw [Prefixes.read, (trapWord_fields lo).1]; rfl

/-- The form of `trap`: an IX word may stand, an RX word may not. -/
def formTrap : Form := { fmt := .ri, ix := .may, rx := .no }

/-- A chain of page 6 with the opcode of `trap` and nothing in its other fields is a trap, whatever its code. -/
theorem decodeChain_of_trap {c : Chain} (page : c.page = 6#3) (op : c.op = 1#6) (x : c.x = 0) (y : c.y.toNat < 16) (z : c.z = 0)
    (rx : c.rx = false) (cf : c.c = 0) (m : c.m = 0) (fn : c.fn = 0) (sc : c.sc = none) :
    decodeChain c = some (.trap c.uimm) := by
  have read : decodePage c = some (formTrap, .trap c.uimm) := by
    simp [decodePage, page, decode6, op, formTrap]
  have ok : formTrap.ok c = true := by
    simp [Form.ok, formTrap, Accept.ok, Kind.ok, Chain.adv, x, y, z, rx, cf, m, fn, sc]
  simp [decodeChain, decodeForm, read, ok]

theorem chain_prefixesSix (ix : Option (BitVec 11)) (w : Base) : (prefixesSix ix).chain w =
    { page := 6, fn := 0, z := 0, rx := false, c := 0, m := 0, ix := ix, sc := none, op := w.extractLsb' 10 6
      x := 0#1 ++ w.extractLsb' 6 4, y := 0#1 ++ w.extractLsb' 2 4, f := w.extractLsb' 0 2 } := by
  simp [Prefixes.chain, prefixesSix]

/-- The chain of a trap's words: its code is what K6, or K11 and K6, give. -/
theorem decodeChain_trap (lo : BitVec 6) (ix : Option (BitVec 11)) :
    decodeChain (Prefixes.chain (prefixesSix ix) (BitVec.ofNat 16 (1 * 2 ^ 10 + lo.toNat))) =
      some (.trap (match ix with | none => lo.zeroExtend 17 | some hi => hi ++ lo)) := by
  obtain ⟨_, op, x, k6⟩ := trapWord_fields lo
  generalize BitVec.ofNat 16 (1 * 2 ^ 10 + lo.toNat) = w at op x k6
  have small : ∀ b : BitVec 4, (0#1 ++ b).toNat < 16 := by decide
  have code : (0#1 ++ w.extractLsb' 2 4).extractLsb' 0 4 = w.extractLsb' 2 4 := by
    rw [BitVec.extractLsb'_append_eq_of_add_le (by decide)]
    simp
  rw [chain_prefixesSix, decodeChain_of_trap rfl op (by rw [x]; rfl) (small _) rfl rfl rfl rfl rfl rfl]
  simp only [Chain.uimm, Chain.k6, code, k6] <;> rfl

/-! ### Returns (R280) -/

/-- A return has been made: the system registers change as given, and the control context goes on at an address. -/
def State.returned (s : State) (f : Csr → Csr) (a : Word) : State := ((s.onCsr f).setNext a).advance

section
variable {s : State}

theorem State.csr_returned (s : State) (f : Csr → Csr) (a : Word) : (s.returned f a).csr = f s.csr := by
  rw [State.returned, State.csr_advance]
  exact State.csr_onCsr s f
theorem State.pc_returned (f : Csr → Csr) (a : Word) (h : s.issue.stay = false) : (s.returned f a).myCtx.pc = a := by
  simp [State.returned, h]
theorem coreEvent_returned (s : State) (f : Csr → Csr) (a : Word) : CoreEvent s (s.returned f a) s.cur := by
  have moved : CoreEvent (s.onCsr f) ((s.onCsr f).setNext a) s.cur := ⟨fun _ _ => rfl, rfl, rfl, rfl, rfl⟩
  exact ((coreEvent_onCsr s f).trans moved).trans (coreEvent_advance ((s.onCsr f).setNext a))
theorem registersSame_returned (s : State) (f : Csr → Csr) (a : Word) : RegistersSame s (s.returned f a) := by
  refine ⟨fun r => by simp [State.returned], ?_, ?_, ?_, (coreEvent_returned s f a).sameBytes⟩
  all_goals simp [State.returned, State.advance, State.onCsr]

theorem exec_rti (h : CtlReady s 2) (even : s.csr.epc.getLsbD 0 = false) :
    exec .rti s = .next (s.ticked.returned (fun c => c.leaveTrap (Config.openMode s.tick)) s.csr.epc) := by
  refine M.run_ok ?_
  rw [M.bind_ok (pageSix_run h)]
  simp only [M.bind_run, M.get_run, need_run, even, Bool.not_false, if_true, freeIndex_run, M.modify_run]
  rfl
theorem exec_rti_odd (h : CtlReady s 2) (odd : s.csr.epc.getLsbD 0 = true) :
    exec .rti s = .next (s.deliver (.trap 0x03 s.csr.epc)) := by
  refine M.run_exc ?_
  rw [M.bind_ok (pageSix_run h)]
  simp [M.bind_run, need_run, odd, -BitVec.getLsbD_eq_getElem]


/-- `upret` in upcall mode passes the checks before its own. -/
theorem exec_upret (h : CtlReady s 1) (hm : s.mode = 1) (even : s.csr.upepc.getLsbD 0 = false) :
    exec .upret s = .next (s.returned Csr.leaveUpcall s.csr.upepc) := by
  obtain ⟨hx, _, _, hp, hle⟩ := h
  refine M.run_ok ?_
  rw [M.bind_ok (controlOnly_run hx)]
  simp [M.bind_run, hm, needMode_run 0#64 hle, barPhase_run hp, need_run, even, -BitVec.getLsbD_eq_getElem]
theorem exec_upret_odd (h : CtlReady s 1) (hm : s.mode = 1) (odd : s.csr.upepc.getLsbD 0 = true) :
    exec .upret s = .next (s.deliver (.trap 0x03 s.csr.upepc)) := by
  obtain ⟨hx, _, _, hp, hle⟩ := h
  refine M.run_exc ?_
  rw [M.bind_ok (controlOnly_run hx)]
  simp [M.bind_run, hm, needMode_run 0#64 hle, barPhase_run hp, need_run, odd, -BitVec.getLsbD_eq_getElem]
theorem exec_upret_user (h : CtlReady s 0) (hm : s.mode = 0) : exec .upret s = .next (s.deliver (.trap 0x02 0)) := by
  have below : s.mode < 1 := by omega
  refine M.run_exc ?_
  rw [M.bind_ok (controlOnly_run h.1)]
  simp [M.bind_run, hm, needMode_below 0#64 below]
theorem exec_upret_super (h : CtlReady s 0) (hm : s.mode = 2) :
    exec .upret s = .next (s.deliver (.trap 0x01 s.issue.wordPc)) := by
  refine M.run_exc ?_
  rw [M.bind_ok (controlOnly_run h.1)]
  simp [M.bind_run, hm]
end

/-! ### Claims -/

theorem trapInstruction : Claims.TrapInstruction := by
  intro s k h
  have run := exec_trap k h
  obtain ⟨hx, hr, _, _, _⟩ := h
  have taken := takingATrap s 0x14 (k.zeroExtend 64) hx hr
  refine ⟨run, fun htk htv => ⟨_, run, taken.1 htk htv⟩, fun htk => ⟨_, run, taken.2 (.inl htk)⟩, fun hi lo => ⟨?_, ?_⟩⟩
  · simp only [decodeWords, parseWords, read_page6, read_trap, decodeChain_trap, Option.map_some]
  · have ix : (prefixesSix none).read (0b11100#5 ++ hi) = .more (prefixesSix (some hi)) := read_ix hi _ rfl
    simp only [decodeWords, parseWords, read_page6, ixWord_eq, ix, read_trap, decodeChain_trap, Option.map_some]

/-- What PMODE gives back where it is a mode. -/
theorem Csr.leaveTrap_status {c : Csr} (free : Nat) (h : c.pmode ≠ 3) : (c.leaveTrap free).status = statusWith c.status c.pmode c.pmode false := by
  simp only [Csr.leaveTrap, if_neg h]
theorem Csr.leaveTrap_tk (c : Csr) (free : Nat) : (c.leaveTrap free).tk = false :=
  Csr.tk_of_status (c := c.leaveTrap free) rfl

theorem returnsFromExceptions : Claims.ReturnsFromExceptions := by
  intro s
  refine ⟨fun h even hp => ⟨_, exec_rti h even, ?_⟩, fun h hm even => ⟨_, exec_upret h hm even, ?_⟩, fun h even =>
    ⟨_, exec_rti h even, ?_, State.pc_returned _ _ h.2.2.1⟩, exec_rti_odd, exec_upret_odd, fun h hm => ?_, exec_upret_user, exec_upret_super⟩
  · have status := Csr.leaveTrap_status (Config.openMode s.tick) hp
    rw [State.csr_returned]
    exact ⟨rfl, Csr.mode_of_status status, Csr.pmode_of_status status, Csr.tk_of_status status, Csr.pe_of_status status,
      State.pc_returned _ _ h.2.2.1, registersSame_returned s.ticked _ _, (coreEvent_returned s.ticked _ _).others⟩
  · have status : s.csr.leaveUpcall.status = _ := rfl
    rw [State.csr_returned]
    exact ⟨rfl, Csr.mode_of_status status, Csr.pmode_of_status status, Csr.tk_of_status status, Csr.pe_of_status status,
      State.pc_returned _ _ h.2.2.1, registersSame_returned s _ _, (coreEvent_returned s _ _).others⟩
  · rw [State.csr_returned]
    exact Csr.leaveTrap_tk ..
  · exact run_first _ (pageSix_below h.1 hm)

theorem illegalEncodings : Claims.IllegalEncodings := by
  intro s
  have run : exec .illegalEncoding s = .next (s.deliver (.trap 0x01 s.issue.wordPc)) := M.run_exc (illegal_run s)
  exact ⟨run, fun hx hr htk htv => ⟨_, run, (takingATrap s 0x01 s.issue.wordPc hx hr).1 htk htv⟩⟩

/-- The forms of page 6 that need supervisor mode begin with the check of it. -/
theorem exec_supervisor {i : Instr} {a b : Reg} (h : i ∈ [Instr.rti, .idle, .halt, .tlbinvAll, .tlbinvVa a, .bdef a b, .bshare a b,
    .bresize a b]) : ∃ f, ∀ s, exec i s = M.run (pageSix 2 >>= f) s := by
  simp only [List.mem_cons, List.not_mem_nil, or_false] at h
  rcases h with rfl | rfl | rfl | rfl | rfl | rfl | rfl | rfl
  all_goals exact ⟨_, fun _ => rfl⟩

theorem privilegedForms : Claims.PrivilegedForms := by
  intro s a b i h
  obtain ⟨f, run⟩ := exec_supervisor h
  have below (hx : s.ctx = 0) (hm : s.mode < 2) : exec i s = .next (s.deliver (.trap 0x02 0)) := by
    rw [run, run_first f (pageSix_below hx hm)]
  refine ⟨below, fun hx hr hm htk htv => ⟨_, below hx hm, (takingATrap s 0x02 0 hx hr).1 htk htv⟩, fun hx => ?_⟩
  rw [run, run_first f (pageSix_helper hx)]

end Sys2Proof.Machine
end

section
/-! SUPPORT. Forms that an open communication phase bars (07, R193; 08, R220; 09, R240, Table 9.5). -/

namespace Sys2Proof.Machine

/-- The instruction ends in the trap of a form that an open phase bars. -/
def Barred (s : State) (i : Instr) : Prop := exec i s = .next (s.deliver (.trap 0x07 0))

section
variable {s : State}

/-! ### Where the check of the phase stands -/

/-- A computation that ends in trap 0x07. -/
def EndsBarred (s : State) (x : M Unit) : Prop := x s = .error (.exc (.trap 0x07 0))

theorem barred_of {x : M Unit} (h : EndsBarred s x) : M.run x s = .next (s.deliver (.trap 0x07 0)) := M.run_exc h

theorem endsBarred_barPhase (hp : s.csr.ph = true) (f : Unit → M Unit) : EndsBarred s (barPhase >>= f) :=
  M.bind_error (barPhase_open hp)
theorem endsBarred_control {x : M Unit} (hx : s.ctx = 0) (h : EndsBarred s x) : EndsBarred s (controlOnly >>= fun _ => x) :=
  (M.bind_ok (controlOnly_run hx)).trans h
/-- A form of the control context that looks at the phase next. -/
theorem endsBarred_second (hx : s.ctx = 0) (hp : s.csr.ph = true) (f : Unit → M Unit) :
    EndsBarred s (controlOnly >>= fun _ => barPhase >>= f) :=
  endsBarred_control hx (endsBarred_barPhase hp f)
theorem endsBarred_pageSix {n : Nat} (hx : s.ctx = 0) (hp : s.csr.ph = true) (hm : n ≤ s.mode) (f : Unit → M Unit) :
    EndsBarred s (pageSix n >>= f) :=
  M.bind_error (pageSix_open hx hm hp)
theorem waitsOutside_open (hp : s.csr.ph = true) : waitsOutside s = .error (.exc (.trap 0x07 0)) := by
  simp [waitsOutside, M.bind_run, hp]
theorem endsBarred_conduit (hx : s.ctx = 0) (hp : s.csr.ph = true) (f : Unit → M Unit) :
    EndsBarred s (controlOnly >>= fun _ => waitsOutside >>= f) :=
  endsBarred_control hx (M.bind_error (waitsOutside_open hp))

/-! ### Page 1 -/

theorem fencePhase_open {sc : Scope} (hp : s.csr.ph = true) (h : sc ≠ .core) : fencePhase sc s = .error (.exc (.trap 0x07 0)) := by
  rw [fencePhase, if_neg h, barPhase_open hp]

/-- A fence of `.core` scope, which a phase does not bar. -/
def isCoreFence : Instr → Prop
  | .fence _ .core | .fenceAcq _ .core | .fenceRel _ .core => True
  | _ => False

/-! ### The encoder's pages -/

/-- The page of an instruction's encoding; none where it has no encoding. -/
def pageOf (i : Instr) : Option (BitVec 3) := (encodeChain i).map Chain.page

theorem source_page (c : Chain) (d a b : Fin 32) : (c.source d a b).page = c.page := rfl
theorem offset_page (c : Chain) (k : BitVec 11) : (c.offset k).page = c.page := by
  unfold Chain.offset
  split <;> rfl
theorem signed17_page (c : Chain) (k : BitVec 17) : (c.signed17 k).page = c.page := by
  simp only [Chain.signed17]
  split <;> rfl
theorem unsigned17_page (c : Chain) (k : BitVec 17) : (c.unsigned17 k).page = c.page := by
  simp only [Chain.unsigned17]
  split <;> rfl
theorem jump_page (c : Chain) (k : BitVec 21) : (c.jump k).page = c.page := by
  simp only [Chain.jump]
  split <;> rfl

/-- An instruction's outcome rests on what its computation gives in the state alone. -/
theorem M.run_congr {x y : M Unit} (h : x s = y s) : M.run x s = M.run y s := by
  unfold M.run
  rw [h]

/-! ### Access to a system register (10, R281) -/

/-- The least mode in which a register may be read, or written where it can be (01, Table 1.4). -/
def leastMode (n : Nat) (write : Bool) : Nat :=
  match regModes n with
  | some (r, w) => if write then w.getD 0 else r
  | none => 0

theorem regAccess_known {n : Nat} {write : Bool} (hx : s.ctx = 0) (hn : (regModes n).isSome = true) (hm : leastMode n write ≤ s.mode) :
    regAccess n write s = barPhase s := by
  obtain ⟨⟨r, w⟩, hn⟩ := Option.isSome_iff_exists.1 hn
  simp only [leastMode, hn] at hm
  rw [regAccess, M.bind_ok (controlOnly_run hx)]
  simp only [hn]
  cases write with
  | false => exact M.bind_ok (needMode_run _ hm)
  | true =>
    cases w with
    | none => rfl
    | some m => exact M.bind_ok (needMode_run _ hm)
theorem regAccess_below {n : Nat} {write : Bool} (hx : s.ctx = 0) (hm : s.mode < leastMode n write) :
    regAccess n write s = .error (.exc (.trap 0x02 (BitVec.ofNat 64 n))) := by
  cases hn : regModes n with
  | none => simp [leastMode, hn] at hm
  | some x =>
    obtain ⟨r, w⟩ := x
    simp only [leastMode, hn] at hm
    rw [regAccess, M.bind_ok (controlOnly_run hx)]
    simp only [hn]
    cases write with
    | false => exact M.bind_error (needMode_below _ hm)
    | true =>
      cases w with
      | none => simp at hm
      | some m => exact M.bind_error (needMode_below _ hm)
theorem regAccess_unknown {n : Nat} {write : Bool} (hx : s.ctx = 0) (hn : regModes n = none) :
    regAccess n write s = (barPhase >>= fun _ => trap 0x01 (BitVec.ofNat 64 n)) s := by
  rw [regAccess, M.bind_ok (controlOnly_run hx)]
  simp only [hn]
theorem regAccess_open {n : Nat} {write : Bool} (hx : s.ctx = 0) (hp : s.csr.ph = true) (hm : leastMode n write ≤ s.mode) :
    regAccess n write s = .error (.exc (.trap 0x07 0)) := by
  cases hn : regModes n with
  | none => rw [regAccess_unknown hx hn, M.bind_error (barPhase_open hp)]
  | some x => rw [regAccess_known hx (by rw [hn]; rfl) hm, barPhase_open hp]

/-- `csrr` lacks its mode below the least one that reads, and the forms that write below the least one that writes. -/
theorem lacksMode_csrr {d : Reg} {n : BitVec 6} (h : s.lacksMode (.csrr d n) = false) : leastMode n.toNat false ≤ s.mode := by
  simp only [State.lacksMode, leastMode] at h ⊢
  split at h <;> simp_all
theorem lacksMode_csrw {d : Reg} {n : BitVec 6} (h : s.lacksMode (.csrw d n) = false) : leastMode n.toNat true ≤ s.mode := by
  simp only [State.lacksMode, leastMode] at h ⊢
  cases hn : regModes n.toNat with
  | none => simp
  | some x =>
    obtain ⟨r, w⟩ := x
    cases w with
    | none => simp
    | some m => simpa [hn] using h

/-- The forms that write are one, but for the value that they make of the old one. -/
theorem exec_csrw (d : Reg) (n : BitVec 6) : exec (.csrw d n) s = M.run (changeRegister n fun _ => s.w d) s :=
  M.run_congr (M.bind_ok (readW_run d s))
theorem exec_csrs (d : Reg) (n : BitVec 6) : exec (.csrs d n) s = M.run (changeRegister n fun old => old ||| s.w d) s :=
  M.run_congr (M.bind_ok (readW_run d s))
theorem exec_csrc (d : Reg) (n : BitVec 6) : exec (.csrc d n) s = M.run (changeRegister n fun old => old &&& ~~~(s.w d)) s :=
  M.run_congr (M.bind_ok (readW_run d s))

/-- A form of page 1 other than a fence of `.core` scope, or one of page 6 in a mode that may execute it. -/
def BarredByPage (s : State) (i : Instr) : Prop :=
  (pageOf i = some 1 ∧ ¬ isCoreFence i) ∨ (pageOf i = some 6 ∧ s.lacksMode i = false)

/-- Such a form looks at the phase before anything else of its own. -/
theorem barred_byPage {i : Instr} (hx : s.ctx = 0) (hp : s.csr.ph = true) (page : BarredByPage s i) : Barred s i := by
  unfold Barred
  cases i with
  | tend | yield | pubf | spawn | sync | rfork | hjoin | wlPop | wlDone | hstart | tfanDie | tfanQuire | tfanCore | kinitCont
  | kinitReady | barQuire | barDie | barDev | barSys =>
    simp only [exec]
    exact barred_of (endsBarred_second hx hp _)
  | hend | kadd | kdec | send | reply | recv | wmsg | wlPush | wlLow | donate | claim | cinc | csnap | csnapClr | wrs | waitaddr
  | amoAdd | amoAnd | amoOr | amoXor | amoMin | amoMax | amoMinn | amoMaxn | amoSwap | amoCas | amoFadd | amoXadd | lrD | lrW
  | scD | scW =>
    simp only [exec]
    exact barred_of (endsBarred_barPhase hp _)
  | fence st sc | fenceAcq st sc | fenceRel st sc =>
    have wide : sc ≠ .core := by
      rintro rfl
      cases st <;> simp [BarredByPage, isCoreFence, pageOf, encodeChain, encFence, Chain.plain, Chain.needRx] at page
    exact run_first _ (fencePhase_open hp wide)
  | rti | idle | halt | tlbinvAll | tlbinvVa | bdef | bshare | bresize =>
    have mode : 1 < s.mode := by
      simpa [BarredByPage, pageOf, encodeChain, encXY, Chain.plain, Chain.low10, Chain.needRx, State.lacksMode] using page
    simp only [exec]
    exact barred_of (endsBarred_pageSix hx hp mode _)
  | trap | bquery =>
    simp only [exec]
    exact barred_of (endsBarred_pageSix hx hp (Nat.zero_le _) _)
  | upret =>
    have mode : s.mode = 1 := by
      simpa [BarredByPage, pageOf, encodeChain, Chain.plain, Chain.low10, State.lacksMode] using page
    refine barred_of (endsBarred_control hx ?_)
    simp [EndsBarred, M.bind_run, mode, needMode_run 0#64 mode.ge, barPhase_open hp]
  | csrr d n =>
    have mode : s.lacksMode (.csrr d n) = false := by
      simpa [BarredByPage, pageOf, encodeChain, encX, encXY, Chain.plain, Chain.low6, Chain.needRx] using page
    exact run_first _ (regAccess_open hx hp (lacksMode_csrr mode))
  | csrw d n | csrs d n | csrc d n =>
    have mode : s.lacksMode (.csrw d n) = false := by
      simpa [BarredByPage, pageOf, encodeChain, encX, encXY, Chain.plain, Chain.low6, Chain.needRx, State.lacksMode] using page
    simp only [exec_csrw, exec_csrs, exec_csrc]
    exact run_first _ (regAccess_open hx hp (lacksMode_csrw mode))
  | _ =>
    simp [BarredByPage, pageOf, encodeChain, enc2S, encXY, encXYC, encX, encMem, encMemX, encBr, encShift, encV3, encV2, encFma, encCvt, encRm, encAW,
      Chain.plain, Chain.needRx, Chain.low6, Chain.low10, source_page, offset_page, signed17_page, unsigned17_page, jump_page] at page

/-! ### Page 0: accesses outside the own scratchpad -/

theorem phaseAccess_barred {va : Word} (hp : s.csr.ph = true) (h : phaseAllows s va = false) :
    phaseAccess va s = .error (.exc (.trap 0x07 0)) := by
  simp [phaseAccess, M.bind_run, hp, h]
theorem scaledAddr_run (sz : Size) (b : Reg) (off : BitVec 11) (s : State) :
    scaledAddr sz b off s = .ok (s.w b + (off.signExtend 64 <<< sizeLog sz), s) := rfl
theorem indexedAddr_run (sz : Size) (b c : Reg) (s : State) :
    indexedAddr sz b c s = .ok (s.w b + (s.w c <<< sizeLog sz), s) := rfl

/-- A form of page 0 that accesses memory looks at the phase as soon as it has its address. -/
theorem barred_pageZero {i : Instr} {va : Word} (hp : s.csr.ph = true) (hva : s.dataAddr i = some va) (h : phaseAllows s va = false) :
    Barred s i := by
  unfold Barred
  have bar := phaseAccess_barred hp h
  cases i with
  | ld z d b off r | ldn z d b off r | st z d b off r =>
    obtain rfl := Option.some.inj hva
    exact M.run_exc ((M.bind_ok (scaledAddr_run ..)).trans (M.bind_error bar))
  | ldx z d b c r | ldxn z d b c r | stx z d b c r =>
    obtain rfl := Option.some.inj hva
    exact M.run_exc ((M.bind_ok (indexedAddr_run ..)).trans (M.bind_error bar))
  | pref b off | cflush b off | ldpk f d b off r | stpk f d b off r =>
    obtain rfl := Option.some.inj hva
    exact M.run_exc ((M.bind_ok (readW_run ..)).trans (M.bind_error bar))
  | _ => simp [State.dataAddr] at hva

/-! ### Pages 2 to 5 -/

theorem phaseParts_barred {vas : List Word} {va : Word} (hp : s.csr.ph = true) (hva : va ∈ vas) (h : phaseAllows s va = false) :
    phaseParts vas s = .error (.exc (.trap 0x07 0)) := by
  have some : (vas.any fun a => !phaseAllows s a) = true := List.any_eq_true.2 ⟨va, hva, by simp [h]⟩
  simp only [phaseParts, M.bind_run, M.get_run, hp, some, Bool.true_and, if_true, trap_run]

/-- Under mask 0 every lane is active. -/
theorem activeLanes_zero (s : State) (w : Nat) : activeLanes s 0 w = List.replicate (1024 / w) true := by
  simp [activeLanes, active, List.map_const']

end

end Sys2Proof.Machine
end

section
/-! SUPPORT. Forms of pages 2 to 5 that an open phase bars (08, R220; 09, Table 9.5). -/

namespace Sys2Proof.Machine

section
variable {s : State}

/-- A run of bytes that has been begun is among the runs. -/
theorem runsFrom_begun (va : Word) (p : Nat → Bool) (n : Nat) : ∀ (j a k : Nat), ∃ m, (a, m) ∈ runsFrom va p n j (some (a, k)) := by
  induction n with
  | zero => intro j a k; exact ⟨k, by simp [runsFrom]⟩
  | succ n ih =>
    intro j a k
    simp only [runsFrom]
    split
    · contradiction
    · rename_i heq; obtain ⟨rfl, rfl⟩ := heq; exact ⟨_, List.mem_cons_self⟩
    · contradiction
    · rename_i heq; cases heq
      split
      · exact ih ..
      · exact ⟨_, List.mem_cons_self⟩
theorem runsFrom_first (va : Word) {p : Nat → Bool} (n : Nat) (h : p 0 = true) : ∃ m, (0, m) ∈ runsFrom va p (n + 1) 0 none := by
  simp only [runsFrom, h]
  exact runsFrom_begun va p n 1 0 1

theorem byteActive_zero {n : Nat} (w : Nat) (h : 0 < n) : byteActive (List.replicate n true) w 0 = true := by
  simp [byteActive, List.getElem?_replicate, h]
theorem lanes_pos (t : IntTy) : 0 < 1024 / t.lane := by
  cases t <;> decide
/-- No lane is inactive. -/
theorem all_not_replicate {n : Nat} (h : 0 < n) : ((List.replicate n true).all fun x => !x) = false := by
  simp [Nat.pos_iff_ne_zero.1 h]

/-- The first run of a full vector begins at its address, so the check of its parts meets that address. -/
theorem phaseParts_runs {t : IntTy} {va : Word} (hp : s.csr.ph = true) (h : phaseAllows s va = false) :
    phaseParts ((runsFrom va (byteActive (activeLanes s 0 t.lane) t.lane) 128 0 none).map fun r => va + BitVec.ofNat 64 r.1) s =
      .error (.exc (.trap 0x07 0)) := by
  have first : byteActive (activeLanes s 0 t.lane) t.lane 0 = true := by
    rw [activeLanes_zero]; exact byteActive_zero _ (lanes_pos t)
  obtain ⟨m, hm⟩ := runsFrom_first va 127 first
  have mem : va + BitVec.ofNat 64 0 ∈ (runsFrom va (byteActive (activeLanes s 0 t.lane) t.lane) 128 0 none).map fun r =>
      va + BitVec.ofNat 64 r.1 := List.mem_map.2 ⟨(0, m), hm, rfl⟩
  rw [BitVec.add_zero] at mem
  exact phaseParts_barred hp mem h

theorem vectorAddr_run (a : Reg) (off : BitVec 11) (s : State) :
    vectorAddr a off s = .ok (s.w a + BitVec.ofInt 64 (off.toInt * 128), s) := rfl

theorem barred_vld {t : IntTy} {v : VReg} {a : Reg} {off : BitVec 11} (hx : s.ctx = 0) (hp : s.csr.ph = true)
    (h : phaseAllows s (s.w a + BitVec.ofInt 64 (off.toInt * 128)) = false) : Barred s (.vld t v a off 0) := by
  have on := all_not_replicate (lanes_pos t)
  rw [← activeLanes_zero s] at on
  refine barred_of (endsBarred_control hx ?_)
  refine (M.bind_ok (vectorAddr_run ..)).trans ((M.bind_ok (M.get_run s)).trans ?_)
  simp only [on, Bool.false_eq_true, if_false]
  generalize s.w a + BitVec.ofInt 64 (off.toInt * 128) = va at h ⊢
  cases regionOf va with
  | loc _ slot o =>
    by_cases win : 1 ≤ windowOf va ∧ windowOf va ≤ 5
    · simp only [win, and_self, if_true]
      exact M.bind_error (phaseParts_barred hp List.mem_cons_self h)
    · simp only [win, if_false]
      exact M.bind_error (phaseParts_runs (t := t) hp h)
  | user | bad | super => exact M.bind_error (phaseParts_runs (t := t) hp h)

theorem barred_vst {t : IntTy} {v : VReg} {a : Reg} {off : BitVec 11} (hx : s.ctx = 0) (hp : s.csr.ph = true)
    (h : phaseAllows s (s.w a + BitVec.ofInt 64 (off.toInt * 128)) = false) : Barred s (.vst t v a off 0) := by
  have on := all_not_replicate (lanes_pos t)
  rw [← activeLanes_zero s] at on
  refine barred_of (endsBarred_control hx ?_)
  refine (M.bind_ok (vectorAddr_run ..)).trans ((M.bind_ok (M.get_run s)).trans ?_)
  simp only [on, Bool.false_eq_true, if_false]
  exact M.bind_error (phaseParts_runs hp h)

/-- With an index register of 0 every lane lies at the address itself. -/
theorem laneI_zero (t : IntTy) (i : Nat) : laneI t (BitVec.ofNat 1024 0) i = 0 := by
  have u : laneU t (BitVec.ofNat 1024 0) i = 0 := by
    simp only [laneU, lane, BitVec.toNat_zero, Nat.zero_div, Nat.zero_mod]
  have pos : ¬ 2 ^ (t.bits - 1) ≤ 0 := Nat.not_le.2 (Nat.two_pow_pos _)
  simp [laneI, u]
theorem mem_indexedLanes_zero (t : IntTy) (va : Word) :
    va ∈ (indexedLanes t va (BitVec.ofNat 1024 0) (activeLanes s 0 t.lane)).map fun y => y.2 := by
  obtain ⟨n, hn⟩ := Nat.exists_eq_succ_of_ne_zero (lanes_pos t).ne'
  refine List.mem_map.2 ⟨(0, va), List.mem_filterMap.2 ⟨(true, 0), ?_, ?_⟩, rfl⟩
  · simp [activeLanes_zero, hn, List.replicate_succ, List.zipIdx_cons]
  · simp only [laneI_zero, if_true, Int.zero_mul, BitVec.ofInt_ofNat, BitVec.add_zero]

theorem barred_vldx {t : IntTy} {v : VReg} {a : Reg} {x : VReg} (hx : s.ctx = 0) (hp : s.csr.ph = true) (ht : t.lane ≠ 4)
    (zero : s.v x = 0) (h : phaseAllows s (s.w a) = false) : Barred s (.vldx t v a x 0) := by
  have on := all_not_replicate (lanes_pos t)
  rw [← activeLanes_zero s] at on
  have gather : ∀ d, EndsBarred s (gatherRaw t d (activeLanes s 0 t.lane) (indexedLanes t (s.w a) (s.v x) (activeLanes s 0 t.lane))) :=
    fun d => M.bind_error (phaseParts_barred hp (by rw [zero]; exact mem_indexedLanes_zero t _) h)
  refine barred_of (endsBarred_control hx ?_)
  unfold EndsBarred
  simp only [ht, if_false]
  refine (M.bind_ok (readW_run a s)).trans ((M.bind_ok (M.get_run s)).trans ?_)
  simp only [on, Bool.false_eq_true, if_false]
  generalize s.w a = va at h gather ⊢
  cases regionOf va with
  | loc _ slot o =>
    by_cases win : 1 ≤ windowOf va ∧ windowOf va ≤ 5
    · simp only [win, and_self, if_true]
      exact M.bind_error (phaseParts_barred hp List.mem_cons_self h)
    · simp only [win, if_false]
      exact gather v
  | user | bad | super => exact gather v

theorem barred_vstx {t : IntTy} {v : VReg} {a : Reg} {x : VReg} (hx : s.ctx = 0) (hp : s.csr.ph = true) (ht : t.lane ≠ 4)
    (zero : s.v x = 0) (h : phaseAllows s (s.w a) = false) : Barred s (.vstx t v a x 0) := by
  have on := all_not_replicate (lanes_pos t)
  rw [← activeLanes_zero s] at on
  refine barred_of (endsBarred_control hx ?_)
  unfold EndsBarred
  simp only [ht, if_false]
  refine (M.bind_ok (readW_run a s)).trans ((M.bind_ok (M.get_run s)).trans ?_)
  simp only [on, Bool.false_eq_true, if_false]
  exact M.bind_error (phaseParts_barred hp (by rw [zero]; exact mem_indexedLanes_zero t _) h)

/-- A product with an operand from a conduit. -/
theorem barred_multiply {sparse : Bool} {c : AReg} {a b : Reg} (hx : s.ctx = 0) (hp : s.csr.ph = true)
    (h : mAcd s.me.mcfg ≠ 0 ∨ mBcd s.me.mcfg ≠ 0) : EndsBarred s (multiply sparse c a b) := by
  refine endsBarred_control hx ((M.bind_ok (M.get_run s)).trans ?_)
  have bar : (s.csr.ph && (mAcd s.me.mcfg ≠ 0 || mBcd s.me.mcfg ≠ 0)) = true := by simpa [hp] using h
  simp only [bar, if_true]
  exact M.bind_error (trap_run ..)

theorem barred_configure {k : Cd} {a : Reg} (hx : s.ctx = 0) (hp : s.csr.ph = true) (h : s.w a &&& 0xF = 0) :
    EndsBarred s (conduitConfigure k a) := by
  refine endsBarred_control hx ((M.bind_ok (readW_run a s)).trans ?_)
  have low : (s.w a).extractLsb' 0 4 = 0#4 := by
    refine BitVec.eq_of_getLsbD_eq fun j hj => ?_
    have bit := congrArg (·.getLsbD j) h
    have four : (0xF : Word).getLsbD j = true := (by decide : ∀ j < 4, (0xF : Word).getLsbD j = true) j hj
    simp only [BitVec.getLsbD_and, four, Bool.and_true] at bit
    simpa [hj] using bit
  simp only [low, ne_eq, not_true_eq_false, if_false]
  exact M.bind_error (waitsOutside_open hp)

theorem barred_phBegin {a : Reg} (hx : s.ctx = 0) (hp : s.csr.ph = true) : Barred s (.phBegin a) := by
  refine barred_of (endsBarred_control hx ((M.bind_ok (M.get_run s)).trans ?_))
  simp [M.bind_run, need_run, hp]

theorem formsBarredInAPhase : Claims.FormsBarredInAPhase := by
  intro s i c hx hp hc barred
  have page {p : BitVec 3} (h : c.page = p) : pageOf i = some p := by rw [pageOf, hc, Option.map_some, h]
  refine ⟨fun _ ⟨va, hva, h⟩ => barred_pageZero hp hva h, fun h hf => ?_, ?_, fun h hm =>
    barred_byPage hx hp (.inr ⟨page h, hm⟩)⟩
  · refine barred_byPage hx hp (.inl ⟨page h, fun core => ?_⟩)
    unfold isCoreFence at core
    split at core <;> simp_all
  · cases i with
    | vld t v a off m => rintro rfl h; exact barred_vld hx hp h
    | vst t v a off m => rintro rfl h; exact barred_vst hx hp h
    | vldx t v a x m => rintro rfl ht zero h; exact barred_vldx hx hp ht zero h
    | vstx t v a x m => rintro rfl ht zero h; exact barred_vstx hx hp ht zero h
    | cp | cpm | cpc | cpw | cpfence | gload | gstep | gmask | gstate | sampF32 | sampBf16 =>
      exact barred_of (endsBarred_second hx hp _)
    | cdcfgWaitFull | cdcfgWaitFree | cdcfgReset =>
      exact barred_of (endsBarred_conduit hx hp _)
    | cdcfgConfigure k a => exact fun h => barred_of (barred_configure hx hp h)
    | mmac c a b | msmac c a b => exact fun h => barred_of (barred_multiply hx hp h)
    | phBegin a => exact barred_phBegin hx hp
    | _ => exact trivial

end

/-- Settles O38, claim by claim. -/
theorem trapsReturnsAndIllegalEncodings : Obligations.TrapsReturnsAndIllegalEncodings :=
  ⟨trapInstruction, returnsFromExceptions, illegalEncodings, privilegedForms, formsBarredInAPhase⟩

end Sys2Proof.Machine
end

section
/-! SUPPORT. Scalar loads and stores of the own scratchpad (05, R121, R122, R127; 01, R11). -/

namespace Sys2Proof.Machine

/-! ### The addresses and the values of the forms -/

theorem sizeBytes_pos (sz : Size) : 0 < sizeBytes sz := by cases sz <;> decide
theorem sizeBytes_dvd (sz : Size) : sizeBytes sz ∣ 8 := by cases sz <;> decide

/-- A shift by the size's exponent multiplies by the size. -/
theorem shiftLeft_sizeLog (sz : Size) (x : Word) : x <<< sizeLog sz = BitVec.ofInt 64 (x.toInt * sizeBytes sz) := by
  rw [BitVec.shiftLeft_eq_mul_twoPow, BitVec.twoPow_eq, ← BitVec.ofInt_ofNat, BitVec.ofInt_mul, BitVec.ofInt_toInt]
  congr 1
  cases sz <;> rfl
theorem signExtend_shiftLeft_sizeLog (sz : Size) (off : BitVec 11) :
    off.signExtend 64 <<< sizeLog sz = BitVec.ofInt 64 (off.toInt * sizeBytes sz) := by
  rw [shiftLeft_sizeLog, BitVec.toInt_signExtend_of_le (by decide)]

theorem ofBytes_lt (bs : List Byte) : ofBytes bs < 256 ^ bs.length := by
  induction bs with
  | nil => simp [ofBytes]
  | cons b r ih =>
    have hb := b.isLt
    simp only [ofBytes, List.length_cons, Nat.pow_succ]
    omega
theorem State.ownBytes_length (s : State) (o n : Nat) : (s.ownBytes o n).length = n := by simp [State.ownBytes]

/-- A value below 2^(k+1) is extended to the representative of its residue nearest zero. -/
theorem extend_signed_succ {k v : Nat} (h : v < 2 ^ (k + 1)) :
    extend true (k + 1) v = BitVec.ofInt 64 ((v : Int).bmod (2 ^ (k + 1))) := by
  simp only [extend, if_true, Nat.add_sub_cancel, Int.bmod_def]
  push_cast
  rw [Int.emod_eq_of_lt (by omega) (by exact_mod_cast h)]
  have half : (2 : Int) ^ k = ((2 ^ k : Nat) : Int) := by push_cast; rfl
  rw [pow_succ] at h ⊢
  congr 1
  split <;> split <;> omega
theorem extend_signed (sz : Size) {v : Nat} (h : v < 256 ^ sizeBytes sz) :
    extend true (8 * sizeBytes sz) v = BitVec.ofInt 64 ((v : Int).bmod (2 ^ (8 * sizeBytes sz))) := by
  obtain ⟨k, hk⟩ := Nat.exists_eq_add_of_lt (sizeBytes_pos sz)
  rw [show (256 : Nat) = 2 ^ 8 from rfl, ← Nat.pow_mul] at h
  rw [show 8 * sizeBytes sz = 8 * k + 7 + 1 by omega] at h ⊢
  exact extend_signed_succ h

/-! ### Loads -/

/-- An aligned load of own bytes writes them to its register, extended. -/
theorem load_own {s : State} {sz : Size} {va : Word} {o : Nat} (signed : Bool) (d : Reg) (req : Request)
    (h : OwnBytes s va (sizeBytes sz) (sizeBytes sz) o) :
    load sz signed va d req s = .ok ((), s.setW d (extend signed (8 * sizeBytes sz) (ofBytes (s.ownBytes o (sizeBytes sz))))) := by
  have region : regionOf va = .loc 0 0 o := by rw [h.1]; exact regionOf_localAddr (h.small (sizeBytes_pos sz))
  rw [load, M.bind_ok (phaseAccess_own region)]
  simp [region, M.bind_run, checkAccess_own .load (sizeBytes_dvd sz) h, loadAt_own req h]

theorem scalarLoadsOfTheOwnScratchpad : Claims.ScalarLoadsOfTheOwnScratchpad := by
  intro s sz d b c off req o hs n v signed
  have fits : v < 256 ^ n := by simpa [State.ownBytes_length] using ofBytes_lt (s.ownBytes o n)
  refine ⟨fun h => ?_, fun h => ?_⟩
  · rw [← signExtend_shiftLeft_sizeLog] at h
    refine ⟨computes_of hs ?_, computes_of hs ?_⟩
    · exact M.run_ok ((M.bind_ok (scaledAddr_run ..)).trans ((load_own true d req h).trans (by rw [extend_signed sz fits])))
    · exact M.run_ok ((M.bind_ok (scaledAddr_run ..)).trans (load_own false d req h))
  · rw [← shiftLeft_sizeLog] at h
    refine ⟨computes_of hs ?_, computes_of hs ?_⟩
    · exact M.run_ok ((M.bind_ok (indexedAddr_run ..)).trans ((load_own true d req h).trans (by rw [extend_signed sz fits])))
    · exact M.run_ok ((M.bind_ok (indexedAddr_run ..)).trans (load_own false d req h))

/-! ### Stores -/

/-- A store of whole bytes in one place. -/
def wholeStore (x : Fin 11) (p : Place) (va : Word) (req : Request) (bs : List Byte) : Store := ⟨x, [⟨p, va, req, storeBytes bs⟩]⟩

theorem StoreByte.merge_whole (b old : Byte) : StoreByte.merge ⟨b, 0xFF⟩ old = b := by
  have ones : (255#8 : Byte) = BitVec.allOnes 8 := rfl
  simp [StoreByte.merge, ones, -BitVec.reduceAllOnes]
theorem forward_append (sb : List Store) (x : Store) (p : Place) (bs : List Byte) :
    forward (sb ++ [x]) p bs = x.parts.foldl (fun bs y => y.over p bs) (forward sb p bs) := by
  simp [forward]

/-- The state with a store of the issuing context behind the others of its core. -/
def State.enqueue (s : State) (p : Place) (va : Word) (req : Request) (bs : List Byte) : State :=
  s.onMe fun c => { c with sb := c.sb ++ [wholeStore s.ctx p va req bs] }

/-- A store of whole bytes to a scratchpad gives each of its bytes, and leaves every other byte. -/
theorem over_spad_inside {c o i : Nat} {va : Word} {req : Request} {bs : List Byte} {b : Byte} (old : Byte) (h : bs[i]? = some b) :
    (StorePart.mk (.spad c o) va req (storeBytes bs)).over (.spad c (o + i)) [old] = [b] := by
  simpa [StorePart.over, Place.sameMemory, Place.offset, storeBytes, h] using StoreByte.merge_whole b old
theorem over_spad_outside {c o : Nat} {va : Word} {req : Request} {bs : List Byte} {q : Place} (old : Byte)
    (h : ∀ i, i < bs.length → q ≠ .spad c (o + i)) :
    (StorePart.mk (.spad c o) va req (storeBytes bs)).over q [old] = [old] := by
  cases q with
  | spad c' a =>
    simp only [StorePart.over, Place.sameMemory, Place.offset, storeBytes, List.zipIdx_singleton, List.map_cons, List.map_nil,
      Nat.add_zero, List.getElem?_map]
    split
    · rename_i hc
      split
      · rename_i ho
        have far : bs.length ≤ a - o := by
          by_contra near
          exact h (a - o) (by omega) (by simp_all)
        simp [List.getElem?_eq_none far]
      · rfl
    · rfl
  | kettle | hbm | remote => rfl

theorem State.me_enqueue (s : State) (p : Place) (va : Word) (req : Request) (bs : List Byte) :
    (s.enqueue p va req bs).me = { s.me with sb := s.me.sb ++ [wholeStore s.ctx p va req bs] } := s.me_onMe _
theorem State.onMe_enqueue (s : State) (p : Place) (va : Word) (req : Request) (bs : List Byte) :
    (s.onMe fun c => { c with sb := (s.enqueue p va req bs).me.sb }) = s.enqueue p va req bs := by
  rw [s.me_enqueue]
  rfl
theorem State.sb_advance (s : State) : s.advance.me.sb = s.me.sb := by
  have e := congrArg Core.sb (s.me_onMyCtx fun c => s.advance.myCtx)
  rw [← show s.advance = s.onMyCtx fun _ => s.advance.myCtx from onlyMyCtx_onMyCtx s _] at e
  exact e
theorem State.w_enqueue (s : State) (p : Place) (va : Word) (req : Request) (bs : List Byte) (r : Reg) :
    (s.enqueue p va req bs).w r = s.w r :=
  congrArg (fun c : Ctx => c.w[r]) (s.myCtx_onMe fun c => { c with sb := c.sb ++ [wholeStore s.ctx p va req bs] })
theorem coreEvent_enqueue (s : State) (p : Place) (va : Word) (req : Request) (bs : List Byte) :
    CoreEvent s (s.enqueue p va req bs) s.cur := coreEvent_onMe s _ rfl

/-- The same stores over the same bytes are read alike. -/
theorem State.seen_congr {s t : State} {n : Nat} (buffer : (t.core n).sb = (s.core n).sb) (bytes : SameBytes s t) (p : Place) :
    t.seen n p = s.seen n p := by
  rw [State.seen, State.seen, buffer, bytes p]
theorem State.seen_enqueue (s : State) (p q : Place) (va : Word) (req : Request) (bs : List Byte) :
    (s.enqueue p va req bs).seen s.cur q = ((StorePart.mk p va req (storeBytes bs)).over q [s.seen s.cur q]).headD 0 := by
  obtain ⟨z, hz⟩ := forward_one s.me.sb q (s.byteAt q)
  have buffer : ((s.enqueue p va req bs).core s.cur).sb = s.me.sb ++ [wholeStore s.ctx p va req bs] :=
    congrArg Core.sb (s.me_enqueue ..)
  have before : s.seen s.cur q = z := congrArg (·.headD 0) hz
  rw [before, State.seen, (coreEvent_enqueue ..).sameBytes q, buffer, forward_append, hz]
  rfl

/-- A store to own bytes enters the store buffer, and its bytes are read from then on. -/
theorem ownStored_enqueue {s : State} (hs : s.issue.stay = false) (o : Nat) (va : Word) (req : Request) (bs : List Byte) :
    OwnStored s (s.enqueue (.spad s.cur o) va req bs).advance o bs := by
  have event : CoreEvent (s.enqueue (.spad s.cur o) va req bs) (s.enqueue (.spad s.cur o) va req bs).advance s.cur :=
    coreEvent_advance _
  have buffer : (s.enqueue (.spad s.cur o) va req bs).advance.me.sb = (s.enqueue (.spad s.cur o) va req bs).me.sb := State.sb_advance _
  have seen (q : Place) := State.seen_congr buffer event.sameBytes q
  refine ⟨?_, fun q hq => ?_, ((coreEvent_enqueue ..).trans event).sameBytes, fun r => ?_, wentOn_advance _ _ hs rfl, ?_⟩
  · refine List.ext_getElem (by simp [State.ownBytes]) fun i hi hb => ?_
    simp only [State.ownBytes, List.getElem_map, List.getElem_range]
    refine (seen _).trans ((State.seen_enqueue ..).trans ?_)
    exact congrArg (·.headD 0) (over_spad_inside _ (List.getElem?_eq_getElem hb))
  · refine (seen q).trans ((State.seen_enqueue ..).trans ?_)
    rw [over_spad_outside _ hq]
    rfl
  · rw [State.w_advance, State.w_enqueue]
  · rw [buffer, State.onMe_enqueue]
    exact onlyMyCtx_onMyCtx _ _

theorem toBytes_mod (n v : Nat) : toBytes n (v % 256 ^ n) = toBytes n v := by
  induction n generalizing v with
  | zero => rfl
  | succ n ih =>
    have high : v % (256 ^ n * 256) / 256 = v / 256 % 256 ^ n := by rw [Nat.mul_comm, Nat.mod_mul_right_div_self]
    rw [Nat.pow_succ, toBytes, toBytes, high, ih]
    exact congrArg (· :: _) (BitVec.eq_of_toNat_eq (by simp))

/-- An aligned store to own bytes enters the store buffer with the low bytes of its register. -/
theorem store_own {s : State} {sz : Size} {va : Word} {o : Nat} (d : Reg) (req : Request)
    (h : OwnBytes s va (sizeBytes sz) (sizeBytes sz) o) :
    store sz va d req s = .ok ((), s.enqueue (.spad s.cur o) va req (toBytes (sizeBytes sz) (s.w d).toNat)) := by
  have region : regionOf va = .loc 0 0 o := by rw [h.1]; exact regionOf_localAddr (h.small (sizeBytes_pos sz))
  rw [store, M.bind_ok (phaseAccess_own region)]
  simp [region, M.bind_run, need_run, checkAccess_own .store (sizeBytes_dvd sz) h, storeAt_own, State.enqueue, wholeStore]

theorem scalarStoresToTheOwnScratchpad : Claims.ScalarStoresToTheOwnScratchpad := by
  intro s sz d b c off req o hs n bytes
  have stored (va : Word) := ownStored_enqueue hs o va req bytes
  simp only [bytes, n, toBytes_mod] at stored
  refine ⟨fun h => ?_, fun h => ?_⟩
  · rw [← signExtend_shiftLeft_sizeLog] at h
    exact ⟨_, M.run_ok ((M.bind_ok (scaledAddr_run ..)).trans (store_own d req h)), by simpa only [bytes, n, toBytes_mod] using stored _⟩
  · rw [← shiftLeft_sizeLog] at h
    exact ⟨_, M.run_ok ((M.bind_ok (indexedAddr_run ..)).trans (store_own d req h)), by simpa only [bytes, n, toBytes_mod] using stored _⟩

/-- Settles O35: the loads and the stores. -/
theorem scalarLoadsAndStores : Obligations.ScalarLoadsAndStores :=
  ⟨scalarLoadsOfTheOwnScratchpad, scalarStoresToTheOwnScratchpad⟩

end Sys2Proof.Machine
end

section
/-! SUPPORT. A drain of the store buffer, and a store performed in a scratchpad (01, R11; 11, R294). -/

namespace Sys2Proof.Machine

/-! ### Bytes written -/

/-- Whole bytes merged are bytes written. -/
theorem Memory.merge_storeBytes (bs : List Byte) : ∀ (m : Memory) (a : Nat), Memory.merge m a (storeBytes bs) = Memory.write m a bs := by
  induction bs with
  | nil => intro m a; rfl
  | cons b r ih =>
    intro m a
    show Memory.merge (Memory.set m a (StoreByte.merge ⟨b, 0xFF⟩ _)) (a + 1) (storeBytes r) = _
    rw [StoreByte.merge_whole, ih]
    rfl
theorem Memory.get_write_inside {m : Memory} (h : Memory.wf m = true) (a : Nat) {bs : List Byte} {i : Nat} (hi : i < bs.length) :
    Memory.get (Memory.write m a bs) (a + i) = bs.getD i 0 := by
  have e := congrArg (·[i]?) (Memory.read_write bs h a)
  simp only [Memory.read_getElem, hi, if_true] at e
  rw [List.getD_eq_getElem?_getD, ← e]
  rfl

/-! ### A store performed where nobody holds or watches a granule -/

theorem State.wakeWatches_free {s : State} (watches : s.watches = []) (hit : Place → Bool) (a : Option Agent) : s.wakeWatches hit a = s := by
  have e : s = { s with watches := [] } := by rw [← watches]
  simp only [State.wakeWatches, watches, List.filter_nil, List.foldl_nil]
  exact e.symm

section
variable {s : State} (granules : s.granules = [])
include granules

theorem State.loseByStore_free (n : Nat) (p : Place) : s.loseByStore n p = s := by
  simp [State.loseByStore, State.granule, granules]
theorem State.leaves_free (w : Waiter) : s.leaves w = s := by
  simp [State.leaves, granules]
theorem State.loseByStore_all_free (n : Nat) (ps : List Place) : ps.foldl (fun t g => t.loseByStore n g) s = s := by
  induction ps with
  | nil => rfl
  | cons p r ih => rw [List.foldl_cons, State.loseByStore_free granules, ih]

/-- A store to a scratchpad without an uncorrectable double writes its bytes there. -/
theorem State.performPart_spad (watches : s.watches = []) (n c o : Nat) (bad : (s.core c).bad = []) (x : Fin 11) (va : Word)
    (req : Request) (bs : List StoreByte) :
    s.performPart n x ⟨.spad c o, va, req, bs⟩ = s.onCore c fun k => { k with spad := Memory.merge k.spad o bs, bad := [] } := by
  have sound : ((doublesOf o bs.length).find? fun d => partIn o bs d && s.hurtDouble (quireOf n) (.spad c o) req d) = none := by
    simp [State.hurtDouble, bad]
  have place : (Place.spad c o).offset = o := rfl
  simp only [State.performPart, place, sound, State.loseByStore_all_free granules]
  refine (State.wakeWatches_free (s := s.onCore c _) watches _ _).trans ?_
  simp only [State.onCore, bad, List.filter_nil]

/-- The oldest store of a core leaves the buffer and is performed. -/
theorem State.perform_spad (watches : s.watches = []) {n o : Nat} (bad : (s.core n).bad = []) (x : Fin 11) (va : Word)
    (req : Request) (bs : List StoreByte) (rest : List Store) :
    (s.onCore n fun c => { c with sb := rest }).perform n ⟨x, [⟨.spad n o, va, req, bs⟩]⟩ =
      s.onCore n fun k => { k with sb := rest, spad := Memory.merge k.spad o bs, bad := [] } := by
  let popped : State := s.onCore n fun c => { c with sb := rest }
  have sound : (popped.core n).bad = [] := (congrArg Core.bad (State.core_onCore_same ..)).trans bad
  simp only [State.perform, List.foldl_cons, List.foldl_nil]
  rw [State.performPart_spad (s := popped) granules watches n n o sound]
  refine (State.leaves_free (s := popped.onCore n _) granules _).trans ?_
  simp only [popped, State.onCore, State.setCore_setCore, State.core_setCore_same]
theorem State.drainOne_spad (watches : s.watches = []) {n o : Nat} (bad : (s.core n).bad = []) {x : Fin 11} {va : Word}
    {req : Request} {bs : List StoreByte} {rest : List Store} (oldest : (s.core n).sb = ⟨x, [⟨.spad n o, va, req, bs⟩]⟩ :: rest)
    (ready : s.storeReady n ⟨x, [⟨.spad n o, va, req, bs⟩]⟩ = true) :
    s.drainOne n = s.onCore n fun k => { k with sb := rest, spad := Memory.merge k.spad o bs, bad := [] } := by
  simp only [State.drainOne, oldest, ready, if_true, State.perform_spad granules watches bad]

end

/-- Settles O4: where nothing holds a granule up, the drain is one write to the core's scratchpad. -/
theorem storeBufferDrainPerformsTheOldestStore : Obligations.StoreBufferDrainPerformsTheOldestStore := by
  intro s o x va bs req rest n part wf oldest ready bad granules watches
  obtain ⟨-, -, spads, -⟩ := wf
  refine ⟨_, congrArg Host.Outcome.next (State.drainOne_spad granules watches bad oldest ready), ?_, fun i hi => ?_, fun p hp => ?_⟩
  · rw [State.core_onCore_same]
  · simp only [State.byteAt, State.core_onCore_same, Memory.merge_storeBytes]
    exact Memory.get_write_inside (spads n) o hi
  · cases p with
    | spad c a =>
      by_cases hc : c = n
      · subst hc
        simp only [State.byteAt, State.core_onCore_same, Memory.merge_storeBytes]
        refine Memory.write_outside _ _ _ _ ?_
        by_contra inside
        exact hp (a - o) (by omega) (by congr 1; omega)
      · simp only [State.byteAt, State.core_onCore_ne _ _ _ _ hc]
    | kettle | hbm | remote => rfl

end Sys2Proof.Machine
end

section
/-! SUPPORT. Reading and writing system registers (01, R17 to R19, Table 1.4; 10, R281). -/

namespace Sys2Proof.Machine

/-! ### A register that takes a value with no rule of its own -/

/-- The system registers after register `n` has taken a value, where it has no rule of its own. -/
def Csr.written (c : Csr) (n : Nat) (y : Word) : Csr :=
  match n with
  | 0x00 => { c with status := y }
  | 0x01 => { c with tvec := y } | 0x02 => { c with tcause := y } | 0x03 => { c with tval := y }
  | 0x04 => { c with epc := y }
  | 0x08 => { c with upvec := y } | 0x09 => { c with upcause := y } | 0x0A => { c with upval := y }
  | 0x0B => { c with upepc := y }
  | 0x14 => { c with mgovStall := y }
  | 0x18 => { c with winsel := y }
  | 0x20 => { c with actl := y } | 0x21 => { c with aflags := y } | 0x22 => { c with rngkey := y }
  | 0x2A => { c with dqspill := y }
  | 0x30 => { c with fmt := c.fmt.set 0 y } | 0x31 => { c with fmt := c.fmt.set 1 y }
  | 0x32 => { c with fmt := c.fmt.set 2 y } | 0x33 => { c with fmt := c.fmt.set 3 y }
  | _ => c
theorem plainWrite_run (n : Nat) (x : Word) (s : State) :
    plainWrite n x s = .ok ((), s.onCsr fun c => c.written n (x &&& definedBits n)) := rfl

/-- What the registers of the table that are stored read as. -/
def Csr.held (c : Csr) (m : Nat) : Option Word :=
  match m with
  | 0x00 => some c.status | 0x01 => some c.tvec | 0x02 => some c.tcause | 0x03 => some c.tval | 0x04 => some c.epc
  | 0x08 => some c.upvec | 0x09 => some c.upcause | 0x0A => some c.upval | 0x0B => some c.upepc
  | 0x10 => some c.dmem
  | 0x14 => some c.mgovStall
  | 0x18 => some c.winsel
  | 0x19 => some (if c.selHigh then c.wins[c.selWin].hi else c.wins[c.selWin].lo)
  | 0x1A => some c.bindsel
  | 0x20 => some c.actl | 0x21 => some c.aflags | 0x22 => some c.rngkey
  | 0x29 => some c.dqlocal | 0x2A => some c.dqspill
  | 0x30 => some c.fmt[0] | 0x31 => some c.fmt[1] | 0x32 => some c.fmt[2] | 0x33 => some c.fmt[3]
  | _ => none
/-- What the other registers read as: they follow the core, its number, its device and the clock. -/
def State.derived (s : State) (core m : Nat) : Word :=
  let c := s.core core
  match m with
  | 0x11 => coreId core | 0x12 => BitVec.ofNat 64 (s.devid % 2 ^ 18) | 0x13 => s.gtime
  | 0x24 => helperFields c 4 fun x => x.hstat.toNat
  | 0x25 => helperFields c 6 fun x => x.hcause.toNat
  | 0x28 => BitVec.ofNat 64 (c.deque.h.length + c.deque.l.length * 2 ^ 7 + c.deque.m.length * 2 ^ 19)
  | _ => 0
theorem State.register_eq (s : State) (k m : Nat) : s.register k m = ((s.core k).csr.held m).getD (s.derived k m) := by
  unfold State.register
  split <;> try rfl
  simp [Csr.held, State.derived, *]

/-- Two states in which the registers of a core that are not stored read alike. -/
structure SameDerived (s t : State) (k : Nat) : Prop where
  deque : (t.core k).deque = (s.core k).deque
  hstat : ∀ h : Fin 11, (t.core k).ctxs[h].hstat = (s.core k).ctxs[h].hstat
  hcause : ∀ h : Fin 11, (t.core k).ctxs[h].hcause = (s.core k).ctxs[h].hcause
  devid : t.devid = s.devid
  gtime : t.gtime = s.gtime
theorem SameDerived.derived {s t : State} {k : Nat} (h : SameDerived s t k) (m : Nat) : t.derived k m = s.derived k m := by
  have stat : helperFields (t.core k) 4 (fun x => x.hstat.toNat) = helperFields (s.core k) 4 fun x => x.hstat.toNat := by
    simp only [helperFields, h.hstat]
  have cause : helperFields (t.core k) 6 (fun x => x.hcause.toNat) = helperFields (s.core k) 6 fun x => x.hcause.toNat := by
    simp only [helperFields, h.hcause]
  simp only [State.derived, h.deque, h.devid, h.gtime, stat, cause]
theorem SameDerived.register {s t : State} {k : Nat} (h : SameDerived s t k) (m : Nat) :
    t.register k m = ((t.core k).csr.held m).getD (s.derived k m) := by
  rw [State.register_eq, h.derived]
theorem SameDerived.trans {s t u : State} {k : Nat} (h : SameDerived s t k) (g : SameDerived t u k) : SameDerived s u k where
  deque := g.deque.trans h.deque
  hstat x := (g.hstat x).trans (h.hstat x)
  hcause x := (g.hcause x).trans (h.hcause x)
  devid := g.devid.trans h.devid
  gtime := g.gtime.trans h.gtime
/-- A change of the issuing core that leaves its contexts and its deque. -/
theorem sameDerived_onMe (s : State) (f : Core → Core) (ctxs : (f s.me).ctxs = s.me.ctxs) (deque : (f s.me).deque = s.me.deque) :
    SameDerived s (s.onMe f) s.cur := by
  have e : (s.onMe f).core s.cur = f s.me := s.me_onMe f
  exact ⟨by rw [e, deque]; rfl, fun h => by simp only [e, ctxs]; rfl, fun h => by simp only [e, ctxs]; rfl, rfl, rfl⟩
theorem sameDerived_advance (s : State) : SameDerived s s.advance s.cur := by
  have e : s.advance.core s.cur = _ := s.me_onMyCtx _
  have ends (h : Fin 11) : (s.advance.core s.cur).ctxs[h].hstat = (s.core s.cur).ctxs[h].hstat ∧
      (s.advance.core s.cur).ctxs[h].hcause = (s.core s.cur).ctxs[h].hcause := by
    rw [e, show s.core s.cur = s.me from rfl]
    by_cases hx : s.ctx = h
    · subst hx
      simp only [Fin.getElem_fin, Vector.getElem_set_self]
      split <;> exact ⟨rfl, rfl⟩
    · have hv : s.ctx.val ≠ h.val := fun e => hx (Fin.ext e)
      simp [Vector.getElem_set_ne, hv]
  exact ⟨by rw [e]; rfl, fun h => (ends h).1, fun h => (ends h).2, rfl, rfl⟩

/-- A plain register reads as what has been written to it. -/
theorem Csr.held_written_same (c : Csr) {n : Nat} (y : Word) (h : plainRegister n = true) : (c.written n y).held n = some y := by
  simp only [plainRegister, List.contains_iff_mem, List.mem_cons, List.not_mem_nil, or_false] at h
  rcases h with rfl | rfl | rfl | rfl | rfl | rfl | rfl | rfl | rfl | rfl | rfl | rfl | rfl | rfl | rfl | rfl | rfl | rfl <;>
    simp [Csr.written, Csr.held]
/-- What the other registers read after a write: `winsel` selects what 0x19 reads, and nothing else changes. -/
theorem Csr.held_written_ne (c : Csr) {n m : Nat} (y : Word) (h : m ≠ n) (sel : ¬(n = 0x18 ∧ m = 0x19)) :
    (c.written n y).held m = c.held m := by
  revert h sel
  unfold Csr.written
  split
  all_goals
    unfold Csr.held
    split <;> intro h sel <;> try rfl
    all_goals simp_all

/-! ### Access and the rules of a write -/

section
variable {s : State}

theorem leastMode_of {n r : Nat} {w : Option Nat} (write : Bool) (h : regModes n = some (r, w)) :
    leastMode n write = if write then w.getD 0 else r := by
  simp only [leastMode, h]
theorem regAccess_ready {n k : Nat} {write : Bool} (ready : CtlReady s k) (hn : (regModes n).isSome = true) (hm : leastMode n write ≤ s.mode) :
    regAccess n write s = .ok ((), s) := by
  obtain ⟨hx, -, -, hp, -⟩ := ready
  rw [regAccess_known hx hn hm, barPhase_run hp]
theorem changeRegister_run {n : BitVec 6} {f : Word → Word} (access : regAccess n.toNat true s = .ok ((), s)) :
    changeRegister n f s = writeRegister n.toNat (f (s.register s.cur n.toNat)) s := by
  rw [changeRegister, M.bind_ok access, M.bind_ok (M.get_run s), M.bind_ok (M.get_run s)]
/-- The forms that write a register, each with the value that it would write. -/
def writeForms (s : State) (d : Reg) (n : BitVec 6) : List (Instr × Word) :=
  let old := s.register s.cur n.toNat
  [(.csrw d n, s.w d), (.csrs d n, old ||| s.w d), (.csrc d n, old &&& ~~~(s.w d))]
theorem exec_writeForms {d : Reg} {n : BitVec 6} {op : Instr} {x : Word} (h : (op, x) ∈ writeForms s d n)
    (access : regAccess n.toNat true s = .ok ((), s)) : exec op s = M.run (writeRegister n.toNat x) s := by
  simp only [writeForms, List.mem_cons, Prod.mk.injEq, List.not_mem_nil, or_false] at h
  obtain ⟨rfl, rfl⟩ | ⟨rfl, rfl⟩ | ⟨rfl, rfl⟩ := h
  · rw [exec_csrw, M.run_congr (changeRegister_run access)]
  · rw [exec_csrs, M.run_congr (changeRegister_run access)]
  · rw [exec_csrc, M.run_congr (changeRegister_run access)]
/-- The forms that write a register fail alike where the access does. -/
theorem exec_writes_fail {d : Reg} {n : BitVec 6} {e : Exc} (access : regAccess n.toNat true s = .error (.exc e)) :
    exec (.csrw d n) s = .next (s.deliver e) ∧ exec (.csrs d n) s = .next (s.deliver e) ∧ exec (.csrc d n) s = .next (s.deliver e) := by
  have fails (f : Word → Word) : M.run (changeRegister n f) s = .next (s.deliver e) := M.run_exc (M.bind_error access)
  exact ⟨(exec_csrw d n).trans (fails _), (exec_csrs d n).trans (fails _), (exec_csrc d n).trans (fails _)⟩

/-- A register without a rule of its own takes what is written. -/
theorem writeRegister_plain {n : Nat} {x : Word} (h : plainRegister n = true) :
    writeRegister n x s = .ok ((), s.onCsr fun c => c.written n (x &&& definedBits n)) := by
  simp only [plainRegister, List.contains_iff_mem, List.mem_cons, List.not_mem_nil, or_false] at h
  rcases h with rfl | rfl | rfl | rfl | rfl | rfl | rfl | rfl | rfl | rfl | rfl | rfl | rfl | rfl | rfl | rfl | rfl | rfl <;>
    simp only [writeRegister, M.bind_run, M.get_run, plainWrite_run]

/-- The frame of a change of the issuing core that ends an instruction, where no register of the program changes. -/
theorem coreChange_frame (hs : s.issue.stay = false) (f : Core → Core) (ctxs : (f s.me).ctxs = s.me.ctxs) (v : (f s.me).v = s.me.v)
    (m : (f s.me).m = s.me.m) (acc : (f s.me).acc = s.me.acc) (spad : (f s.me).spad = s.me.spad) :
    WentOn s (s.onMe f).advance ∧ RegistersSame s (s.onMe f).advance ∧ OtherCoresSame s (s.onMe f).advance s.cur := by
  have event : CoreEvent s (s.onMe f).advance s.cur := (coreEvent_onMe s f spad).trans (coreEvent_advance _)
  have e : (s.onMe f).advance.me = _ := (s.onMe f).me_onMyCtx _
  have regs (r : Reg) : (s.onMe f).w r = s.w r := by
    simp only [State.w, State.myCtx_onMe, ctxs]
    rfl
  refine ⟨wentOn_advance _ _ hs rfl, ⟨fun r => by rw [State.w_advance, regs], ?_, ?_, ?_, event.sameBytes⟩, event.others⟩ <;> rw [e, State.me_onMe]
  · exact v
  · exact m
  · exact acc
theorem csrChange_frame (hs : s.issue.stay = false) (f : Csr → Csr) :
    WentOn s (s.onCsr f).advance ∧ RegistersSame s (s.onCsr f).advance ∧ OtherCoresSame s (s.onCsr f).advance s.cur :=
  coreChange_frame hs _ rfl rfl rfl rfl rfl
theorem registersSame_advance (s : State) : RegistersSame s s.advance := by
  have e : s.advance.me = _ := s.me_onMyCtx _
  refine ⟨fun r => by simp, ?_, ?_, ?_, (coreEvent_advance s).sameBytes⟩ <;> rw [e]
theorem csrChange_register (f : Csr → Csr) (m : Nat) :
    (s.onCsr f).advance.register s.cur m = ((f s.csr).held m).getD (s.derived s.cur m) := by
  have derived : SameDerived s (s.onCsr f).advance s.cur := (sameDerived_onMe s _ rfl rfl).trans (sameDerived_advance _)
  have csr : ((s.onCsr f).advance.core s.cur).csr = f s.csr := (State.csr_advance _).trans (s.csr_onCsr f)
  rw [derived.register, csr]

theorem systemRegisterAccess : Claims.SystemRegisterAccess := by
  intro s d n r w modes i old writes
  have known : (regModes i).isSome = true := by rw [modes]; rfl
  refine ⟨fun ready => ?_, fun k hw ready plain => ?_⟩
  · obtain ⟨-, -, hs, -, hr⟩ := id ready
    have access : regAccess i false s = .ok ((), s) := regAccess_ready ready known (by rw [leastMode_of _ modes]; exact hr)
    exact computes_of hs (M.run_ok (M.bind_ok access))
  · obtain ⟨-, -, hs, -, hk⟩ := id ready
    have access : regAccess i true s = .ok ((), s) := regAccess_ready ready known (by rw [leastMode_of _ modes, hw]; exact hk)
    have each {op : Instr} {x : Word} (form : (op, x) ∈ writeForms s d n) : writes op x := by
      obtain ⟨wentOn, registers, others⟩ := csrChange_frame hs fun c => c.written i (x &&& definedBits i)
      refine ⟨_, (exec_writeForms form access).trans (M.run_ok (writeRegister_plain plain)), ?_, fun m hm sel => ?_, wentOn, registers, others⟩
      · rw [csrChange_register, Csr.held_written_same _ _ plain]
        rfl
      · rw [csrChange_register, Csr.held_written_ne _ _ hm sel, State.register_eq]
        rfl
    exact ⟨each (by simp [writeForms]), each (by simp [writeForms, old, i]), each (by simp [writeForms, old, i])⟩

/-! ### Privilege, and the registers that are read-only in every mode -/

theorem zeroExtend_num (n : BitVec 6) : BitVec.ofNat 64 n.toNat = n.zeroExtend 64 := by
  apply BitVec.eq_of_toNat_eq
  simp

theorem valueRule_run (n : Nat) (bits old x : Word) (s : State) :
    valueRule n bits old x s = if (x ^^^ old) &&& bits = 0 then .ok ((), s) else .error (.exc (.trap 0x01 (BitVec.ofNat 64 n))) := by
  rw [valueRule, need_run, BitVec.xor_comm]
  by_cases h : (x ^^^ old) &&& bits = 0 <;> simp [h]
/-- A write to a register that is read-only in every mode is judged by its value alone. -/
theorem writeRegister_readOnly {n r : Nat} (x : Word) (h : regModes n = some (r, none)) :
    writeRegister n x s = valueRule n (definedBits n) (s.register s.cur n) x s := by
  unfold regModes at h
  split at h <;> simp only [Option.some.injEq, Prod.mk.injEq, reduceCtorEq, and_false] at h <;>
    simp only [writeRegister, M.bind_run, M.get_run]
theorem writeRegister_status (x : Word) :
    writeRegister 0 x s = (valueRule 0 0x43 s.csr.status x >>= fun _ => plainWrite 0 x) s := by
  simp only [writeRegister, M.bind_run, M.get_run]

theorem systemRegisterPrivilege : Claims.SystemRegisterPrivilege := by
  intro s d n hx num all
  have num_eq : BitVec.ofNat 64 n.toNat = num := zeroExtend_num n
  refine ⟨fun none ph => ?_, fun r w modes => ⟨fun below => ?_, fun k hw below => ?_⟩, ?_⟩
  · have access (write : Bool) : regAccess n.toNat write s = .error (.exc (.trap 0x01 num)) := by
      rw [regAccess_unknown hx none, M.bind_ok (barPhase_run ph), trap_run, num_eq]
    exact ⟨run_first _ (access false), exec_writes_fail (access true)⟩
  · have access := regAccess_below (write := false) hx (by rw [leastMode_of _ modes]; exact below)
    rw [num_eq] at access
    exact run_first _ access
  · have access := regAccess_below (write := true) hx (by rw [leastMode_of _ modes, hw]; exact below)
    rw [num_eq] at access
    exact exec_writes_fail access
  · intro op x i old same form ready
    obtain ⟨ready, zero⟩ | ⟨ready, r, modes⟩ := ready
    · obtain ⟨-, -, hs, -, hm⟩ := id ready
      have access : regAccess n.toNat true s = .ok ((), s) := by
        rw [show n.toNat = 0 from zero]
        exact regAccess_ready ready rfl hm
      have run := (exec_writeForms form access).trans (M.run_congr (by rw [show n.toNat = 0 from zero, writeRegister_status]))
      have rule := valueRule_run 0 0x43 s.csr.status x s
      have old_eq : old = s.csr.status := by rw [show old = s.register s.cur i from rfl, zero]; rfl
      simp only [same, zero, if_true, old_eq]
      refine ⟨fun differs => ?_, fun h => ?_⟩
      · rw [if_neg differs] at rule
        rw [run, M.run_exc (M.bind_error rule), ← num_eq, show n.toNat = 0 from zero]
      · rw [if_pos h] at rule
        obtain ⟨wentOn, registers, others⟩ := csrChange_frame hs fun c => c.written 0 (x &&& definedBits 0)
        exact ⟨_, run.trans (M.run_ok ((M.bind_ok rule).trans (plainWrite_run ..))), wentOn, registers, others,
          (State.csr_advance _).trans (s.csr_onCsr _)⟩
    · obtain ⟨-, -, hs, -, hm⟩ := id ready
      have access : regAccess n.toNat true s = .ok ((), s) :=
        regAccess_ready ready (by rw [modes]; rfl) (by rw [leastMode_of _ modes]; exact hm)
      have run := (exec_writeForms form access).trans (M.run_congr (writeRegister_readOnly x modes))
      have nonzero : i ≠ 0 := by rintro zero; rw [zero] at modes; cases modes
      have rule := valueRule_run n.toNat (definedBits n.toNat) old x s
      simp only [same, nonzero, if_false]
      refine ⟨fun differs => ?_, fun h => ?_⟩
      · rw [if_neg differs] at rule
        rw [run, M.run_exc rule, num_eq]
      · rw [if_pos h] at rule
        exact ⟨_, run.trans (M.run_ok rule), wentOn_advance _ _ hs rfl, registersSame_advance s, (coreEvent_advance s).others, s.csr_advance⟩

end

end Sys2Proof.Machine
end

section
/-! SUPPORT. The writes of system registers as steps of the part (01, R18, R19, R23, R35; 12, R321). -/

namespace Sys2Proof.Machine

section
variable {s : State}

/-! ### A write that acts as the control context of a core -/

/-- The state in which the write acts. -/
def State.asCore (s : State) : State := { s with cur := s.turn.core, ctx := 0, grain := none }
/-- Who issues is as it was before the write. -/
def State.resumed (s u : State) : State := { u with grain := s.grain, cur := s.cur, ctx := s.ctx, issue := s.issue }

theorem asStep_ok {x : M Unit} {u : State} (h : x s.asCore = .ok ((), u)) : asStep x s = .next (s.resumed u) := by
  have h' : x { s with cur := s.turn.core, ctx := 0, grain := none } = .ok ((), u) := h
  simp only [asStep, State.acting, h']
  rfl
/-- What a write as a step leaves as it was: who issues, and every other core. -/
def StepKeeps (s t : State) : Prop := t.cur = s.cur ∧ t.ctx = s.ctx ∧ t.issue = s.issue ∧ OtherCoresSame s t s.turn.core
theorem stepKeeps_resumed {u : State} (others : OtherCoresSame s.asCore u s.turn.core) : StepKeeps s (s.resumed u) := ⟨rfl, rfl, rfl, others⟩
theorem register_resumed {u : State} (derived : SameDerived s.asCore u s.turn.core) (m : Nat) :
    (s.resumed u).register s.turn.core m = ((u.core s.turn.core).csr.held m).getD (s.derived s.turn.core m) := derived.register m

/-- A write that changes the core alone, and neither its contexts nor its deque. -/
theorem asStep_onMe {x : M Unit} {f : Core → Core} (h : x s.asCore = .ok ((), s.asCore.onMe f))
    (ctxs : (f (s.core s.turn.core)).ctxs = (s.core s.turn.core).ctxs) (deque : (f (s.core s.turn.core)).deque = (s.core s.turn.core).deque) :
    ∃ t, asStep x s = .next t ∧ StepKeeps s t ∧ t.core s.turn.core = f (s.core s.turn.core) ∧
      ∀ m, t.register s.turn.core m = ((f (s.core s.turn.core)).csr.held m).getD (s.derived s.turn.core m) := by
  have core : (s.asCore.onMe f).core s.turn.core = f (s.core s.turn.core) := s.asCore.me_onMe f
  refine ⟨_, asStep_ok h, stepKeeps_resumed fun k hk => State.core_onCore_ne s.asCore _ _ f hk, core, fun m => ?_⟩
  exact (register_resumed (sameDerived_onMe s.asCore f ctxs deque) m).trans (by rw [← core])
theorem asStep_onCsr {x : M Unit} {f : Csr → Csr} (h : x s.asCore = .ok ((), s.asCore.onCsr f)) :
    ∃ t, asStep x s = .next t ∧ StepKeeps s t ∧ (t.core s.turn.core).csr = f (s.core s.turn.core).csr ∧
      ∀ m, t.register s.turn.core m = ((f (s.core s.turn.core).csr).held m).getD (s.derived s.turn.core m) := by
  obtain ⟨t, ht, keeps, core, register⟩ := asStep_onMe (s := s) (f := fun c => { c with csr := f c.csr }) h rfl rfl
  exact ⟨t, ht, keeps, by rw [core], register⟩

/-! ### The rules of the registers -/

theorem csrWrite_plain (h : plainRegister s.turn.index = true) :
    ∃ t, exec .csrWrite s = .next t ∧ StepKeeps s t ∧ t.register s.turn.core s.turn.index = s.turn.value &&& definedBits s.turn.index := by
  have own : ¬(s.turn.index = 0x19 ∨ s.turn.index = 0x10 ∨ s.turn.index = 0x29 ∨ s.turn.index = 0x1A) := by
    rintro (e | e | e | e) <;> simp [e, plainRegister] at h
  have run : exec .csrWrite s = asStep (writeRegister s.turn.index s.turn.value) s := by
    simp only [exec, execCsrWrite]
    rw [if_neg (by simpa [and_assoc] using own)]
  obtain ⟨t, ht, keeps, -, register⟩ := asStep_onCsr (writeRegister_plain (s := s.asCore) h)
  refine ⟨t, run.trans ht, keeps, ?_⟩
  rw [register, Csr.held_written_same _ _ h]
  rfl

/-- A half of a window takes a value, where no decode table is concerned. -/
def Csr.setHalf (c : Csr) (x : Word) : Csr :=
  let y := x &&& windowBits c.selWin.val c.selHigh
  { c with wins := c.wins.set c.selWin (if c.selHigh then { c.wins[c.selWin] with hi := y } else { c.wins[c.selWin] with lo := y }) }
theorem Csr.held_setHalf (c : Csr) (x : Word) : (c.setHalf x).held 0x19 = some (x &&& windowBits c.selWin.val c.selHigh) := by
  have win : (c.setHalf x).selWin = c.selWin := rfl
  have high : (c.setHalf x).selHigh = c.selHigh := rfl
  simp only [Csr.held, win, high]
  simp only [Csr.setHalf, Fin.getElem_fin, Vector.getElem_set_self]
  split <;> rfl
theorem writeWindow_other {x : Word} (h : ¬(s.csr.selWin = 5 ∧ s.csr.selHigh = false)) :
    writeWindow x s = .ok ((), s.onCsr fun c => c.setHalf x) := by
  have other : (decide (s.csr.selWin = 5) && !s.csr.selHigh) = false := by
    rw [Bool.and_eq_false_iff, decide_eq_false_iff_not, Bool.not_eq_false']
    rcases Decidable.not_and_iff_or_not.1 h with h | h
    · exact .inl h
    · exact .inr (by simpa using h)
  rw [writeWindow, M.bind_ok (M.get_run s)]
  simp only [other, Bool.false_eq_true, if_false]
  rfl

theorem writeDmem_free {x : Word} (h : s.episodes = []) : ∃ free : Preempt → Preempt, writeDmem x s = .ok ((), s.onMe fun c =>
    { c with preempt := c.preempt.map free, csr := { c.csr with dmem := x &&& 0x7F } }) := by
  rw [writeDmem, M.bind_ok (M.get_run s)]
  simp only [h, List.any_nil, Bool.and_false, List.any_cons, Bool.or_false, Bool.false_eq_true, if_false]
  exact ⟨_, rfl⟩

theorem writeDqlocal_off {x : Word} (off : x.getLsbD 0 = false) (empty : s.me.deque.l = []) :
    writeDqlocal x s = .ok ((), s.onCsr fun c => { c with dqlocal := x &&& 0x3E001 }) := by
  have bit : (x &&& definedBits 0x29).getLsbD 0 = false := by rw [BitVec.getLsbD_and, off, Bool.false_and]
  rw [writeDqlocal]
  simp only [M.bind_run, M.get_run, bit, empty, Bool.false_eq_true, if_false, List.length_nil, Nat.lt_irrefl, decide_false, Bool.false_and]
  rfl

/-! ### The decode table -/

/-- A byte lies in a share that the core has donated. -/
def Core.donated (c : Core) (o : Nat) : Prop := ∃ k : Fin 32, k.val = o / 0x2000 ∧ c.shares[k] ≠ .own

theorem sharesOwn_iff (c : Core) (off n : Nat) : sharesOwn c off n = true ↔
    ∀ k : Fin 32, c.shares[k] = .own ∨ off + n ≤ k.val * 0x2000 ∨ (k.val + 1) * 0x2000 ≤ off := by
  simp only [sharesOwn, List.all_eq_true, List.mem_range, Bool.or_eq_true, decide_eq_true_eq, or_assoc]
  refine ⟨fun h k => ?_, fun h k hk => ?_⟩
  · simpa using h k.val k.isLt
  · simpa [hk] using h ⟨k, hk⟩
theorem sharesOwn_all {c : Core} (h : ∀ k : Fin 32, c.shares[k] = .own) (off n : Nat) : sharesOwn c off n = true :=
  (sharesOwn_iff ..).2 fun k => .inl (h k)
theorem sharesOwn_one (c : Core) (o : Nat) : sharesOwn c o 1 = true ↔ ¬c.donated o := by
  simp only [sharesOwn_iff, Core.donated, not_exists, not_and, not_not]
  refine forall_congr' fun k => ⟨fun h hk => ?_, fun h => ?_⟩
  · rcases h with h | h | h
    · exact h
    · omega
    · omega
  · by_cases hk : k.val = o / 0x2000
    · exact .inl (h hk)
    · right; omega
/-- A run of bytes none of which is donated lies in the core's own shares. -/
theorem sharesOwn_run {c : Core} {off n : Nat} (pos : 0 < n) (h : ∀ o, off ≤ o → o < off + n → ¬c.donated o) : sharesOwn c off n = true := by
  refine (sharesOwn_iff ..).2 fun k => ?_
  by_contra meets
  simp only [not_or, Nat.not_le] at meets
  obtain ⟨notOwn, low, high⟩ := meets
  rcases Nat.le_total off (k.val * 0x2000) with le | le
  · exact h (k.val * 0x2000) le (by omega) ⟨k, by omega, notOwn⟩
  · exact h off le_rfl (by omega) ⟨k, by omega, notOwn⟩

theorem firstDonated_none {c : Core} {off n : Nat} (h : ∀ o, off ≤ o → o < off + n → ¬c.donated o) : firstDonated c off n = none := by
  refine List.findSome?_eq_none_iff.2 fun i hi => ?_
  rw [if_pos ((sharesOwn_one ..).2 (h _ (by omega) (by simpa using hi)))]
theorem firstDonated_some {c : Core} {off n o : Nat} (low : off ≤ o) (high : o < off + n) (here : c.donated o)
    (first : ∀ j, off ≤ j → j < o → ¬c.donated j) : firstDonated c off n = some o := by
  obtain ⟨m, rfl⟩ : ∃ m, n = (o - off) + (m + 1) := ⟨n - (o - off) - 1, by omega⟩
  have split : List.range ((o - off) + (m + 1)) = List.range (o - off) ++ (o - off) :: List.range' (o - off + 1) m := by
    rw [List.range_eq_range', List.range_eq_range', ← List.range'_succ, ← List.range'_append_1, Nat.zero_add]
  refine List.findSome?_eq_some_iff.2 ⟨_, o - off, _, split, ?_, fun i hi => ?_⟩
  · rw [if_neg (by rw [sharesOwn_one, Nat.add_sub_cancel' low]; exact not_not.2 here), Nat.add_sub_cancel' low]
  · rw [List.mem_range] at hi
    rw [if_pos ((sharesOwn_one ..).2 (first _ (by omega) (by omega)))]

/-- With an empty store buffer the core reads the memory itself. -/
theorem State.ownBytes_of_empty (h : s.me.sb = []) (o n : Nat) : s.ownBytes o n = Memory.read s.me.spad o n := by
  rw [← forward_ownBytes, h]
  rfl
theorem Memory.fieldAt_read (m : Memory) (a n : Nat) {o k : Nat} (h : o + k ≤ n) : fieldAt (Memory.read m a n) o k = ofBytes (Memory.read m (a + o) k) := by
  refine congrArg ofBytes (List.ext_getElem? fun i => ?_)
  rw [List.getElem?_take, List.getElem?_drop, Memory.read_getElem, Memory.read_getElem]
  by_cases hi : i < k
  · rw [if_pos hi, if_pos hi, if_pos (by omega), Nat.add_assoc]
  · rw [if_neg hi, if_neg hi]
theorem drainFirst_empty (h : s.me.sb = []) : drainFirst s = .ok ((), s) := by
  have none : s.drained s.cur = some s := by rw [State.drained, show (s.core s.cur).sb = [] from h]; rfl
  simp [drainFirst, M.bind_run, none]

/-- The decode table that the bytes of the scratchpad from an offset on make. -/
def Core.tableAt (c : Core) (base : Nat) : Vector W32 256 :=
  Vector.ofFn fun i => BitVec.ofNat 32 (ofBytes (Memory.read c.spad (base + 4 * i.val) 4) % 2 ^ 19)
theorem Core.tableAt_toNat (c : Core) (base : Nat) (i : Fin 256) :
    (c.tableAt base)[i].toNat = ofBytes (Memory.read c.spad (base + 4 * i.val) 4) % 2 ^ 19 := by
  simp only [Core.tableAt, Fin.getElem_fin, Vector.getElem_ofFn, BitVec.toNat_ofNat]
  omega

theorem loadTable_run {x : Word} {base : Nat} (hb : base = (x.extractLsb' 36 18).toNat) (aligned : base % 4 = 0) (inside : base ≤ 0x3FC00)
    (own : ∀ o, base ≤ o → o < base + 1024 → ¬s.me.donated o) (sb : s.me.sb = []) (bad : s.me.bad = [])
    (owned : s.owned (.spad s.cur base) 1024 = false) :
    loadTable x s = .ok ((), s.onCsr fun c => { c with table := s.me.tableAt base }) := by
  have bytes : OwnBytes s (localAddr base) 1024 1 base :=
    ⟨rfl, by omega, Nat.mod_one _, sharesOwn_run (by decide) own, owned, by simp [State.anyBad, show (s.core s.cur).bad = [] from bad]⟩
  have read : readOwn base 1024 s = .ok (s.ownBytes base 1024, s) := by
    rw [readOwn, M.bind_ok (M.get_run s)]
    exact loadAt_own _ bytes
  have ok : (decide (base % 4 = 0) && decide (base ≤ 0x3FC00)) = true := by simp [aligned, inside]
  simp only [loadTable, ← hb, M.bind_run, need_run, ok, if_true, M.get_run, firstDonated_none own, drainFirst_empty sb, read]
  refine congrArg (fun v => Except.ok ((), s.onCsr fun c => { c with table := v })) (Vector.ext fun i hi => ?_)
  simp only [Core.tableAt, Vector.getElem_ofFn, State.ownBytes_of_empty sb]
  rw [Memory.fieldAt_read _ _ _ (by omega)]
/-- What the load of a decode table refuses: a base out of range, and a donated share. -/
theorem loadTable_range {x : Word} {base : Nat} (hb : base = (x.extractLsb' 36 18).toNat) (h : ¬(base % 4 = 0 ∧ base ≤ 0x3FC00)) :
    loadTable x s = .error (.exc (.trap 0x04 x)) := by
  have bad : (decide (base % 4 = 0) && decide (base ≤ 0x3FC00)) = false := by simpa using h
  simp only [loadTable, ← hb]
  exact M.bind_error (by rw [need_run, bad]; rfl)
theorem loadTable_donated {x : Word} {base o : Nat} (hb : base = (x.extractLsb' 36 18).toNat) (aligned : base % 4 = 0) (inside : base ≤ 0x3FC00)
    (low : base ≤ o) (high : o < base + 1024) (here : s.me.donated o) (first : ∀ j, base ≤ j → j < o → ¬s.me.donated j) :
    loadTable x s = .error (.exc (.trap 0x05 (localAddr o))) := by
  have ok : (decide (base % 4 = 0) && decide (base ≤ 0x3FC00)) = true := by simp [aligned, inside]
  simp only [loadTable, ← hb, M.bind_run, need_run, ok, if_true, M.get_run, firstDonated_some low high here first, trap_run]

/-! ### The decode table through the instructions -/

/-- The selected half of win5 takes a value; TLOAD is not kept. -/
def Csr.setWin5 (c : Csr) (x : Word) : Csr :=
  let y := x &&& 0x3FFFF7FFFFFFFF
  { c with wins := c.wins.set 5 (if c.selHigh then { c.wins[5] with hi := y } else { c.wins[5] with lo := y }) }
theorem Csr.setWin5_low {c : Csr} (x : Word) (low : c.selHigh = false) :
    c.setWin5 x = { c with wins := c.wins.set 5 { c.wins[5] with lo := x &&& 0x3FFFF7FFFFFFFF } } := by
  simp only [Csr.setWin5, low, Bool.false_eq_true, if_false]
section
variable {x : Word} (win : s.csr.selWin = 5) (low : s.csr.selHigh = false)
include win low

theorem writeWindow_order (order : x.extractLsb' 33 2 = 3#2) : writeWindow x s = .error (.exc (.trap 0x04 x)) := by
  simp [writeWindow, M.bind_run, win, low, need_run, order]
theorem writeWindow_alone (order : x.extractLsb' 33 2 ≠ 3#2) (load : x.getLsbD 35 = false) :
    writeWindow x s = .ok ((), s.onCsr fun c => c.setWin5 x) := by
  simp only [writeWindow, M.bind_run, M.get_run, win, low, decide_true, Bool.not_false, Bool.and_self, if_true, need_run, order, ne_eq,
    not_false_eq_true, load, Bool.false_eq_true, if_false]
  rfl
theorem writeWindow_refused {e : Stop} (order : x.extractLsb' 33 2 ≠ 3#2) (load : x.getLsbD 35 = true) (table : loadTable x s = .error e) :
    writeWindow x s = .error e := by
  simp only [writeWindow, M.bind_run, M.get_run, win, low, decide_true, Bool.not_false, Bool.and_self, if_true, need_run, order, ne_eq,
    not_false_eq_true, load, table]
theorem writeWindow_loaded {t : State} (order : x.extractLsb' 33 2 ≠ 3#2) (load : x.getLsbD 35 = true) (table : loadTable x s = .ok ((), t)) :
    writeWindow x s = .ok ((), t.onCsr fun c => c.setWin5 x) := by
  simp only [writeWindow, M.bind_run, M.get_run, win, low, decide_true, Bool.not_false, Bool.and_self, if_true, need_run, order, ne_eq,
    not_false_eq_true, load, table]
  rfl

end

theorem State.onCsr_congr {f g : Csr → Csr} (h : f s.csr = g s.csr) : s.onCsr f = s.onCsr g := by
  show s.setMe { s.me with csr := f s.csr } = s.setMe { s.me with csr := g s.csr }
  rw [h]
theorem State.onCsr_onCsr (s : State) (f g : Csr → Csr) : (s.onCsr f).onCsr g = s.onCsr fun c => g (f c) := State.onMe_onMe ..

/-- A write to the low half of win5 that is accepted, with the decode table that it leaves. -/
def LowHalfWritten (s t : State) (x : Word) : Prop :=
  WentOn s t ∧ RegistersSame s t ∧ OtherCoresSame s t s.cur ∧
    t.csr = { s.csr with table := t.csr.table, wins := s.csr.wins.set 5 { s.csr.wins[5] with lo := x &&& 0x3FFFF7FFFFFFFF } } ∧
    t.register s.cur 0x19 = x &&& 0x3FFFF7FFFFFFFF
theorem lowHalfWritten_advance (x : Word) (hs : s.issue.stay = false) (win : s.csr.selWin = 5) (low : s.csr.selHigh = false) (table : Vector W32 256) :
    let t := (s.onCsr fun c => { c with table := table }.setWin5 x).advance
    LowHalfWritten s t x ∧ t.csr.table = table := by
  intro t
  have csr : t.csr = { s.csr with table := table, wins := s.csr.wins.set 5 { s.csr.wins[5] with lo := x &&& 0x3FFFF7FFFFFFFF } } := by
    refine ((State.csr_advance _).trans (s.csr_onCsr _)).trans ?_
    exact Csr.setWin5_low (c := { s.csr with table := table }) x low
  obtain ⟨wentOn, registers, others⟩ := csrChange_frame hs fun c => { c with table := table }.setWin5 x
  refine ⟨⟨wentOn, registers, others, by rw [csr], ?_⟩, by rw [csr]⟩
  rw [csrChange_register, Csr.setWin5_low (c := { s.csr with table := table }) x low]
  have win' : Csr.selWin { s.csr with table := table, wins := s.csr.wins.set 5 { s.csr.wins[5] with lo := x &&& 0x3FFFF7FFFFFFFF } } = 5 := win
  have low' : Csr.selHigh { s.csr with table := table, wins := s.csr.wins.set 5 { s.csr.wins[5] with lo := x &&& 0x3FFFF7FFFFFFFF } } = false := low
  simp only [Csr.held, win', low', Bool.false_eq_true, if_false, Option.getD_some]
  simp

theorem writeRegister_window (x : Word) (s : State) : writeRegister 0x19 x s = writeWindow x s := by
  simp only [writeRegister, M.bind_run, M.get_run]

theorem decodeTableWrites : Claims.DecodeTableWrites := by
  intro s d op x ready win low old form base load inRange donated written
  obtain ⟨-, -, hs, -, -⟩ := id ready
  have access : regAccess (0x19 : BitVec 6).toNat true s = .ok ((), s) := regAccess_ready ready rfl (Nat.zero_le _)
  have run : exec op s = M.run (writeWindow x) s := by
    exact (exec_writeForms form access).trans (M.run_congr (writeRegister_window x s))
  refine ⟨fun bad => ?_, fun o order hl ⟨aligned, inside⟩ lowest highest here first => ?_, fun order hl => ?_,
    fun order hl ⟨aligned, inside⟩ own sb sound free => ?_⟩
  · by_cases order : x.extractLsb' 33 2 = 3#2
    · exact run.trans (M.run_exc (writeWindow_order win low order))
    · obtain ⟨hl, range⟩ := bad.resolve_left order
      exact run.trans (M.run_exc (writeWindow_refused win low order hl (loadTable_range rfl range)))
  · exact run.trans (M.run_exc (writeWindow_refused win low order hl (loadTable_donated rfl aligned inside lowest highest here first)))
  · obtain ⟨done, table⟩ := lowHalfWritten_advance x hs win low s.csr.table
    exact ⟨_, run.trans (M.run_ok ((writeWindow_alone win low order hl).trans (by rw [State.onCsr_congr]; rfl))), done, table⟩
  · obtain ⟨done, table⟩ := lowHalfWritten_advance x hs win low (s.me.tableAt base)
    have loaded := writeWindow_loaded win low order hl (loadTable_run rfl aligned inside own sb sound free)
    rw [State.onCsr_onCsr] at loaded
    refine ⟨_, run.trans (M.run_ok loaded), done, fun i => ?_⟩
    rw [table]
    exact Core.tableAt_toNat ..

end

end Sys2Proof.Machine
end

section
/-! SUPPORT. The live record of a binding, stored by a write to `bindsel` (12, R321). -/

namespace Sys2Proof.Machine

/-! ### A run of bytes as stores of one double each -/

/-- The stores of a run of bytes of a scratchpad, each of one double. -/
def doubleStores (n off : Nat) (va : Word) (req : Request) (bs : List Byte) (k : Nat) : List StorePart :=
  (List.range k).map fun i => ⟨.spad n (off + 8 * i), va + BitVec.ofNat 64 (8 * i), req, storeBytes ((bs.drop (8 * i)).take 8)⟩

theorem doubles_spad {n off k : Nat} (va : Word) (req : Request) {bs : List Byte} (aligned : off % 8 = 0) (len : bs.length = 8 * k) :
    StorePart.doubles ⟨.spad n off, va, req, storeBytes bs⟩ = doubleStores n off va req bs k := by
  have count : (off % 8 + (storeBytes bs).length + 8 - 1) / 8 = k := by
    rw [aligned, storeBytes, List.length_map, len]
    omega
  have place : (Place.spad n off).offset = off := rfl
  simp only [StorePart.doubles, place, lineBases, count, List.map_map, doubleStores]
  refine List.map_congr_left fun i hi => ?_
  have base : (off / 8 + i) * 8 = off + 8 * i := by omega
  have cut : cutRun off (storeBytes bs) (off + 8 * i) 8 = (off + 8 * i, storeBytes ((bs.drop (8 * i)).take 8)) := by
    rw [cutRun, storeBytes, storeBytes, List.map_take, List.map_drop]
    split
    · have zero : i = 0 := by omega
      subst zero
      simp
    · rw [Nat.add_sub_cancel_left]
  simp only [Function.comp, base, cut, Nat.add_sub_cancel_left, Place.add]

theorem Memory.write_append (xs ys : List Byte) : ∀ (m : Memory) (a : Nat),
    Memory.write (Memory.write m a xs) (a + xs.length) ys = Memory.write m a (xs ++ ys) := by
  induction xs with
  | nil => intro m a; rfl
  | cons x r ih =>
    intro m a
    simp only [Memory.write, List.cons_append, List.length_cons, ← ih]
    rw [Nat.add_assoc, Nat.add_comm 1]
/-- Parts merged into a memory, the first one first. -/
def mergeParts (m : Memory) (parts : List StorePart) : Memory :=
  parts.foldl (fun m p => Memory.merge m p.place.offset p.bytes) m
/-- Bytes laid one double after the other are the run itself. -/
theorem mergeParts_doubles (m : Memory) (n off : Nat) (va : Word) (req : Request) (bs : List Byte) : ∀ k, 8 * k ≤ bs.length →
    mergeParts m (doubleStores n off va req bs k) = Memory.write m off (bs.take (8 * k)) := by
  intro k
  induction k with
  | zero => intro _; rfl
  | succ k ih =>
    intro len
    have here : (bs.take (8 * k)).length = 8 * k := by rw [List.length_take]; omega
    rw [doubleStores, List.range_succ, List.map_append, mergeParts, List.foldl_append]
    have before := ih (by omega)
    rw [doubleStores, mergeParts] at before
    rw [before, List.map_singleton, List.foldl_cons, List.foldl_nil, Memory.merge_storeBytes, Place.offset]
    rw [show off + 8 * k = off + (bs.take (8 * k)).length by rw [here], Memory.write_append]
    rw [show 8 * (k + 1) = 8 * k + 8 from rfl, List.take_add]

/-! ### Stores of a core that nothing holds up -/

section
variable {u : State} (granules : u.granules = []) (watches : u.watches = [])
include granules

theorem State.blockedBy_free (n : Nat) (x : Store) : u.blockedBy n x = [] := by
  refine List.filter_eq_nil_iff.2 fun g _ => ?_
  simp [State.granule, granules, Granule.admits, Granule.turnOf]
theorem State.storeReady_spad {n o : Nat} {x : Fin 11} {va : Word} {req : Request} {bs : List StoreByte} (mops : (u.core n).mops = [])
    (free : u.owned (.spad n o) bs.length = false) : u.storeReady n ⟨x, [⟨.spad n o, va, req, bs⟩]⟩ = true := by
  simp [State.storeReady, State.blockedBy_free granules, free, State.unitReads, mops, State.wayShut, State.attachment]

/-- A core whose waiting stores have been performed in its scratchpad. -/
def Core.stored (c : Core) (parts : List StorePart) : Core := { c with sb := [], spad := mergeParts c.spad parts, bad := [] }

include watches in
/-- The stores of a core to its own scratchpad are performed in their order. -/
theorem drainList_spad (n : Nat) (x : Fin 11) : ∀ (parts : List StorePart) (c : Core), c.sb = parts.map (fun p => ⟨x, [p]⟩) → c.bad = [] →
    c.mops = [] → (∀ p ∈ parts, ∃ o, p.place = .spad n o ∧ u.owned (.spad n o) p.bytes.length = false) →
    drainList n (parts.map fun p => ⟨x, [p]⟩) (u.setCore n c) = some (u.setCore n (c.stored parts)) := by
  intro parts
  induction parts with
  | nil =>
    intro c sb bad _ _
    have e : c.stored [] = c := by
      cases c
      simp_all [Core.stored, mergeParts]
    rw [e]
    rfl
  | cons p r ih =>
    intro c sb bad mops own
    obtain ⟨⟨o, place, free⟩, others⟩ := List.forall_mem_cons.1 own
    obtain ⟨p', va, req, bs⟩ := p
    cases place
    let s := u.setCore n c
    have core : s.core n = c := State.core_setCore_same ..
    have ready : s.storeReady n ⟨x, [⟨.spad n o, va, req, bs⟩]⟩ = true :=
      State.storeReady_spad (u := s) granules (by rw [core, mops]) free
    have performed := State.perform_spad (s := s) granules watches (o := o) (by rw [core, bad]) x va req bs (r.map fun p => ⟨x, [p]⟩)
    have next := ih { c with sb := r.map fun p => ⟨x, [p]⟩, spad := Memory.merge c.spad o bs, bad := [] } rfl rfl mops others
    simp only [List.map_cons, drainList]
    rw [if_pos ready, performed, State.onCore, core, State.setCore_setCore]
    exact next

include watches in
/-- Stores to the own scratchpad, made one after the other, are performed before the instruction ends. -/
theorem storeEach_spad {parts : List StorePart} (sb : u.me.sb = []) (bad : u.me.bad = []) (mops : u.me.mops = []) (grain : u.grain = none)
    (got : u.myCtx.got = []) (own : ∀ p ∈ parts, ∃ o, p.place = .spad u.cur o ∧ u.owned (.spad u.cur o) p.bytes.length = false) :
    storeEach 0 parts u = .ok ((), u.onMe fun c => c.stored parts) := by
  have piece : u.myCtx.piece 0 = none := by rw [Ctx.piece, got]; rfl
  have trained : (parts.map fun p => p.place).filter u.untrained = [] := by
    refine List.filter_eq_nil_iff.2 fun q hq => ?_
    obtain ⟨p, hp, rfl⟩ := List.mem_map.1 hq
    obtain ⟨o, place, -⟩ := own p hp
    simp [place, State.untrained]
  let queued : Core := { u.me with sb := parts.map fun p => ⟨u.ctx, [p]⟩ }
  have drained : (u.setMe queued).drained u.cur = some (u.onMe fun c => c.stored parts) := by
    rw [State.drained, State.setMe, State.core_setCore_same]
    exact drainList_spad granules watches u.cur u.ctx parts queued rfl bad mops own
  have waits : (u.onMe fun c => { c with sb := c.sb ++ parts.map fun p => ⟨u.ctx, [p]⟩ }) = u.setMe queued := by
    rw [State.onMe, sb, List.nil_append]
  unfold storeEach
  split
  · obtain ⟨o, place, -⟩ := own _ List.mem_cons_self
    contradiction
  · simp only [M.bind_run, M.get_run, piece, Option.isSome_none, Bool.false_eq_true, if_false, trained, List.isEmpty_nil, Bool.not_true,
      M.modify_run, waits]
    have quiet : u.grain.isNone = true := by rw [grain]; rfl
    simp only [quiet, if_true, drainFirst, M.bind_run, M.get_run]
    rw [show (u.setMe queued).drained (u.setMe queued).cur = _ from drained]
    rfl

end

/-! ### The record of a binding -/

theorem State.liveRecord_length (s : State) (id : Nat) : (s.liveRecord id).length = 256 := by
  simp only [State.liveRecord]
  split
  · simp
  · simp [toBytes_length]

theorem linesOf_spad (n off k : Nat) :
    linesOf (.spad n off) k = (List.range ((off % 64 + k + 63) / 64)).map fun i => .spad n (off / 64 * 64 + 64 * i) := rfl
/-- A run of 256 bytes at a multiple of 256 lies in lines of which each double lies in one. -/
theorem State.owned_double {u : State} {n off i : Nat} (aligned : off % 256 = 0) (hi : i < 32) (free : u.owned (.spad n off) 256 = false) :
    u.owned (.spad n (off + 8 * i)) 8 = false := by
  simp only [State.owned, State.atHome, State.filling, Bool.or_false, linesOf_spad, List.any_map, List.any_eq_false, List.mem_range,
    Function.comp] at free ⊢
  intro j hj
  have line : (off + 8 * i) / 64 * 64 + 64 * j = off / 64 * 64 + 64 * (i / 8) := by omega
  rw [line]
  exact free (i / 8) (by omega)

section
variable {u : State} {x : Word} {off : Nat}

theorem storeRecord_quiet (rd : x.getLsbD 6 = false) :
    storeRecord x u = .ok ((), u.onCsr fun c => { c with bindsel := x &&& definedBits 0x1A }) := by
  simp only [storeRecord, M.bind_run, M.modify_run, rd, Bool.false_eq_true, if_false]
  rfl

theorem aligned_of_masked (h : x &&& 0xFFFFFFFFFFFFFF00 = localAddr off) (small : off < 0x40000) : off % 256 = 0 := by
  have e := localAddr_toNat small
  rw [← h] at e
  have low : (x &&& 0xFFFFFFFFFFFFFF00).setWidth 8 = 0#8 := by
    rw [BitVec.setWidth_and, show BitVec.setWidth 8 (0xFFFFFFFFFFFFFF00 : Word) = 0#8 from rfl, BitVec.and_zero]
  have mod := congrArg BitVec.toNat low
  rw [BitVec.toNat_setWidth, e, show localBase = 0xFFFFF00000000000 from rfl] at mod
  simp only [BitVec.toNat_zero] at mod
  omega

/-- With RD, an address of own bytes and nothing in the way the live record is stored. -/
theorem storeRecord_own (rd : x.getLsbD 6 = true) (address : x &&& 0xFFFFFFFFFFFFFF00 = localAddr off) (inside : off + 256 ≤ 0x40000)
    (grain : u.grain = none) (got : u.myCtx.got = []) (sb : u.me.sb = []) (bad : u.me.bad = []) (granules : u.granules = [])
    (watches : u.watches = []) (mops : u.me.mops = []) (free : u.owned (.spad u.cur off) 256 = false) (own : ∀ k : Fin 32, u.me.shares[k] = .own) :
    storeRecord x u = .ok ((), u.onMe fun c =>
      { c with csr := { c.csr with bindsel := x &&& definedBits 0x1A }, sb := [], bad := [],
               spad := Memory.write c.spad off (u.liveRecord (x.extractLsb' 0 6).toNat) }) := by
  let v : State := u.onCsr fun c => { c with bindsel := x &&& definedBits 0x1A }
  let record : List Byte := u.liveRecord (x.extractLsb' 0 6).toNat
  have same : v.liveRecord (x.extractLsb' 0 6).toNat = record := rfl
  have len : record.length = 8 * 32 := u.liveRecord_length _
  have me : v.me = { u.me with csr := { u.me.csr with bindsel := x &&& definedBits 0x1A } } := u.me_onMe _
  have got' : v.myCtx.got = [] := by rw [State.myCtx_onCsr, got]
  have piece : v.myCtx.piece 0 = none := by rw [Ctx.piece, got']; rfl
  have aligned := aligned_of_masked address (by omega)
  have aligned8 : off % 8 = 0 := by omega
  have bytes : OwnBytes v (localAddr off) 256 1 off :=
    ⟨rfl, inside, Nat.mod_one _, sharesOwn_all (by rw [me]; exact own) _ _, free,
      by simp [State.anyBad, show (v.core v.cur).bad = [] by rw [show v.core v.cur = v.me from rfl, me]; exact bad]⟩
  have region : checkRegion v (localAddr off) (localAddr off) = .ok (.loc 0 0 off) := by
    rw [checkRegion, regionOf_localAddr (by omega)]
  have check : (do let r ← liftE (checkRegion (← get) (localAddr off) (localAddr off)); checkPart r (localAddr off) 256 .store : M Place) v =
      .ok (.spad v.cur off, v) := by
    rw [M.bind_ok (M.get_run v), region, M.bind_ok (liftE_ok _ v), checkPart_own .store bytes]
  have parts := doubles_spad (n := u.cur) (localAddr off) .dflt (bs := record) aligned8 len
  have stored : storeEach 0 (doubleStores u.cur off (localAddr off) .dflt record 32) v =
      .ok ((), v.onMe fun c => c.stored (doubleStores u.cur off (localAddr off) .dflt record 32)) := by
    refine storeEach_spad (u := v) granules watches (by rw [me]; exact sb) (by rw [me]; exact bad) (by rw [me]; exact mops) grain got' fun p hp => ?_
    obtain ⟨i, hi, rfl⟩ := List.mem_map.1 hp
    have i32 := List.mem_range.1 hi
    refine ⟨off + 8 * i, rfl, ?_⟩
    have eight : (storeBytes ((record.drop (8 * i)).take 8)).length = 8 := by
      simp [storeBytes, len]
      omega
    rw [eight]
    exact State.owned_double aligned i32 free
  have all : record.take (8 * 32) = record := by rw [← len, List.take_length]
  have run : storeRecord x u = storeEach 0 (StorePart.doubles ⟨.spad u.cur off, localAddr off, .dflt, storeBytes record⟩) v := by
    have modified : (modify fun s => s.onCsr fun c => { c with bindsel := x &&& definedBits 0x1A } : M PUnit) u = .ok ((), v) := rfl
    rw [storeRecord, M.bind_ok modified, if_pos rd]
    simp only [address]
    rw [M.bind_ok (M.get_run v)]
    simp only [piece, Option.isSome_none, Bool.false_eq_true, if_false, check, same]
    rw [M.bind_ok (M.set_run v v)]
    rfl
  rw [run, parts, stored]
  refine congrArg (fun c => Except.ok ((), c)) ?_
  refine (State.onMe_onMe u _ _).trans (congrArg u.onMe (funext fun c => ?_))
  rw [Core.stored, mergeParts_doubles _ _ _ _ _ _ _ len.ge, all]

/-! ### The claim -/

theorem systemRegisterWriteSteps : Claims.SystemRegisterWriteSteps := by
  intro s n x c kept
  refine ⟨fun plain => csrWrite_plain plain, fun win => ?_, fun quiet => ?_, fun off empty => ?_,
    fun base hb aligned inside sb bad free own => ?_, fun rd => ?_, fun off rd address inside wf got sb bad granules watches mops free own => ?_⟩
  · obtain ⟨t, ht, keeps, -, register⟩ := asStep_onCsr (s := s) (writeWindow_other (x := x) fun h => win h.1)
    exact ⟨t, ht, keeps, by rw [register, Csr.held_setHalf]; rfl⟩
  · obtain ⟨free, run⟩ := writeDmem_free (s := s.asCore) (x := x) quiet
    obtain ⟨t, ht, keeps, -, register⟩ := asStep_onMe (s := s) run rfl rfl
    exact ⟨t, ht, keeps, by rw [register]; rfl⟩
  · obtain ⟨t, ht, keeps, -, register⟩ := asStep_onCsr (s := s) (writeDqlocal_off off empty)
    exact ⟨t, ht, keeps, by rw [register]; rfl⟩
  · obtain ⟨t, ht, keeps, csr, -⟩ := asStep_onCsr (s := s) (loadTable_run (s := s.asCore) hb aligned inside
      (fun o _ _ ⟨k, _, h⟩ => h (own k)) sb bad free)
    exact ⟨t, ht, keeps, fun i => by rw [csr]; exact Core.tableAt_toNat ..⟩
  · obtain ⟨t, ht, keeps, -, register⟩ := asStep_onCsr (s := s) (storeRecord_quiet rd)
    exact ⟨t, ht, keeps, by rw [register]; rfl⟩
  · obtain ⟨-, -, spads, -⟩ := wf
    obtain ⟨t, ht, keeps, core, register⟩ := asStep_onMe (s := s) (storeRecord_own (u := s.asCore) rd address inside rfl got sb bad granules
      watches mops free own) rfl rfl
    refine ⟨t, ht, keeps, by rw [register]; rfl, fun i hi => ?_⟩
    rw [State.byteAt, core]
    exact Memory.get_write_inside (spads n) off (by rw [State.liveRecord_length]; exact hi)

/-- Settles O39, claim by claim. -/
theorem systemRegisters : Obligations.SystemRegisters :=
  ⟨systemRegisterAccess, systemRegisterPrivilege, systemRegisterWriteSteps, decodeTableWrites⟩

end

end Sys2Proof.Machine
end

section
/-! SUPPORT. Operations on memory, lines and slices leave every core as it was, but for the contexts that they wake
(07, R187; 11, R295, R302; 12, R319 to R323). -/

namespace Sys2Proof.Machine

/-! ### States that differ in nothing of the cores and of the kettles -/

/-- What a quire's kettle store holds. -/
def Quire.kettleStore (q : Quire) : Memory × List (Nat × KettleAux) × List Nat := (q.kettles, q.kaux, q.badKettles)
/-- The two states differ at most in the clock of fills, in the lines of quires, in HBM and on the link of the host. -/
structure SameCores (s t : State) : Prop where
  rest : t = { s with tick := t.tick, quires := t.quires, hbm := t.hbm, badHbm := t.badHbm, link := t.link }
  store : ∀ q, (t.quire q).kettleStore = (s.quire q).kettleStore

theorem SameCores.refl (s : State) : SameCores s s := ⟨rfl, fun _ => rfl⟩
theorem SameCores.trans {s t u : State} (h : SameCores s t) (g : SameCores t u) : SameCores s u := by
  refine ⟨?_, fun q => (g.store q).trans (h.store q)⟩
  have e := g.rest
  rw [h.rest] at e
  exact e
theorem SameCores.cores {s t : State} (h : SameCores s t) : t.cores = s.cores := (congrArg State.cores h.rest :)
theorem SameCores.cur {s t : State} (h : SameCores s t) : t.cur = s.cur := (congrArg State.cur h.rest :)
theorem SameCores.ctx {s t : State} (h : SameCores s t) : t.ctx = s.ctx := (congrArg State.ctx h.rest :)
theorem SameCores.issue {s t : State} (h : SameCores s t) : t.issue = s.issue := (congrArg State.issue h.rest :)
theorem SameCores.me {s t : State} (h : SameCores s t) : t.me = s.me := by
  rw [State.me, State.core, h.cores, h.cur]
  rfl
theorem SameCores.ite {s t u : State} {p : Prop} [Decidable p] (h : SameCores s t) (g : SameCores s u) : SameCores s (if p then t else u) := by
  split
  · exact h
  · exact g
theorem sameCores_foldl {α : Type} {f : State → α → State} (h : ∀ t x, SameCores t (f t x)) (xs : List α) (s : State) :
    SameCores s (xs.foldl f s) := by
  induction xs generalizing s with
  | nil => exact .refl s
  | cons x r ih => exact (h s x).trans (ih _)

section
variable (s : State)

theorem sameCores_onQuire (q : Nat) (f : Quire → Quire)
    (h : ∀ x, (f x).kettleStore = x.kettleStore := by intro; rfl) : SameCores s (s.onQuire q f) := by
  refine ⟨rfl, fun k => ?_⟩
  by_cases hk : k = q
  · rw [hk, State.quire_onQuire_same, h]
  · rw [State.quire_onQuire_ne _ _ _ _ hk]
theorem sameCores_putHbm (pa : Nat) (bs : List StoreByte) : SameCores s (s.putHbm pa bs) := ⟨rfl, fun _ => rfl⟩
theorem sameCores_ticked : SameCores s s.ticked := ⟨rfl, fun _ => rfl⟩
theorem sameCores_homeBack (l : Line) : SameCores s (s.homeBack l) :=
  .ite ⟨rfl, fun _ => rfl⟩ (.refl s)
theorem sameCores_evictHome (q : Nat) (p : Line → Bool) : SameCores s (s.evictHome q p) := by
  unfold State.evictHome
  exact (sameCores_foldl sameCores_homeBack ((s.quire q).slices.filter p) s).trans (sameCores_onQuire _ q _)
theorem sameCores_homeFill (h pa : Nat) : SameCores s (s.homeFill h pa) := by
  unfold State.homeFill
  split
  · exact .refl s
  · split
    · exact (sameCores_ticked s).trans (sameCores_onQuire _ _ _)
    · exact (sameCores_evictHome ..).trans ((sameCores_ticked _).trans (sameCores_onQuire _ _ _))
theorem sameCores_sliceStore (h a pa : Nat) (bs : List StoreByte) (alloc : Bool) : SameCores s (s.sliceStore h a pa bs alloc) := by
  unfold State.sliceStore
  split
  · exact sameCores_putHbm ..
  · rename_i q _ r _ _
    have filled : SameCores s (if alloc && r.policy = 0 then s.homeFill h a else s) := .ite (sameCores_homeFill ..) (.refl s)
    refine filled.trans ?_
    generalize (if alloc && r.policy = 0 then s.homeFill h a else s) = t
    dsimp only
    split
    · refine .ite ?_ ?_
      · exact (sameCores_ticked t).trans ((sameCores_onQuire _ q _).trans (sameCores_putHbm ..))
      · exact (sameCores_ticked t).trans (sameCores_onQuire _ q _)
    · exact sameCores_putHbm ..
theorem sameCores_recallHost (h pa n : Nat) : SameCores s (s.recallHost h pa n) :=
  .ite (.refl s) ⟨rfl, fun _ => rfl⟩
theorem sameCores_hurtHome (h d : Nat) : SameCores s (s.hurtHome h d) := by
  unfold State.hurtHome
  split
  · split
    · exact sameCores_onQuire _ _ _
    · exact ⟨rfl, fun _ => rfl⟩
  · exact ⟨rfl, fun _ => rfl⟩
theorem sameCores_supersede (q pa : Nat) (bs : List StoreByte) : SameCores s (s.supersede q pa bs) :=
  .ite (sameCores_onQuire s q _) (.refl s)

end

/-! ### States in which a context of a core may have been woken -/

/-- A core but for which of its contexts have been woken. -/
def Core.unwoken (c : Core) : Core := { c with ctxs := c.ctxs.map fun x => { x with woken := false } }
theorem Core.unwoken_ctx (c : Core) (x : Fin 11) : c.unwoken.ctxs[x] = { c.ctxs[x] with woken := false } := by simp [Core.unwoken]
/-- Of the cores nothing differs but which contexts have been woken; the rest differs at most in memory, lines, and what waits
for them. -/
structure OnlyWakes (s t : State) : Prop where
  cores : ∀ n, (t.core n).unwoken = (s.core n).unwoken
  rest : t = { s with tick := t.tick, quires := t.quires, hbm := t.hbm, badHbm := t.badHbm, link := t.link
                      cores := t.cores, granules := t.granules, watches := t.watches }
  store : ∀ q, (t.quire q).kettleStore = (s.quire q).kettleStore

theorem SameCores.onlyWakes {s t : State} (h : SameCores s t) : OnlyWakes s t := by
  refine ⟨fun n => by rw [State.core, h.cores]; rfl, ?_, h.store⟩
  rw [h.rest]
theorem OnlyWakes.refl (s : State) : OnlyWakes s s := ⟨fun _ => rfl, rfl, fun _ => rfl⟩
theorem OnlyWakes.trans {s t u : State} (h : OnlyWakes s t) (g : OnlyWakes t u) : OnlyWakes s u := by
  refine ⟨fun n => (g.cores n).trans (h.cores n), ?_, fun q => (g.store q).trans (h.store q)⟩
  have e := g.rest
  rw [h.rest] at e
  exact e
theorem OnlyWakes.cur {s t : State} (h : OnlyWakes s t) : t.cur = s.cur := (congrArg State.cur h.rest :)
theorem OnlyWakes.ctx {s t : State} (h : OnlyWakes s t) : t.ctx = s.ctx := (congrArg State.ctx h.rest :)
theorem OnlyWakes.issue {s t : State} (h : OnlyWakes s t) : t.issue = s.issue := (congrArg State.issue h.rest :)
theorem onlyWakes_foldl {α : Type} {f : State → α → State} (h : ∀ t x, OnlyWakes t (f t x)) (xs : List α) (s : State) :
    OnlyWakes s (xs.foldl f s) := by
  induction xs generalizing s with
  | nil => exact .refl s
  | cons x r ih => exact (h s x).trans (ih _)

theorem OnlyWakes.ite {s t u : State} {p : Prop} [Decidable p] (h : OnlyWakes s t) (g : OnlyWakes s u) : OnlyWakes s (if p then t else u) := by
  split
  · exact h
  · exact g

section
variable {s t : State}

/-- What only wakes leaves a core's fields other than its contexts, and each context's but `woken`. -/
theorem OnlyWakes.core (h : OnlyWakes s t) (n : Nat) : t.core n = { s.core n with ctxs := (t.core n).ctxs } := by
  have e : { (t.core n).unwoken with ctxs := (t.core n).ctxs } = { (s.core n).unwoken with ctxs := (t.core n).ctxs } := by rw [h.cores n]
  exact e
theorem OnlyWakes.ctxs (h : OnlyWakes s t) (n : Nat) (x : Fin 11) :
    (t.core n).ctxs[x] = { (s.core n).ctxs[x] with woken := (t.core n).ctxs[x].woken } := by
  have e := congrArg (fun c : Core => { c.ctxs[x] with woken := (t.core n).ctxs[x].woken }) (h.cores n)
  simp only [Core.unwoken_ctx] at e
  exact e
theorem OnlyWakes.me (h : OnlyWakes s t) : t.me = { s.me with ctxs := t.me.ctxs } := by
  rw [State.me, h.cur]
  exact h.core s.cur
theorem OnlyWakes.myCtx (h : OnlyWakes s t) : t.myCtx = { s.myCtx with woken := t.myCtx.woken } := by
  have e := h.ctxs s.cur s.ctx
  simp only [State.myCtx, State.me, h.cur, h.ctx]
  exact e
theorem OnlyWakes.w (h : OnlyWakes s t) (r : Reg) : t.w r = s.w r := by
  rw [State.w, h.myCtx]
  rfl

end

/-- Waking a context of a core. -/
theorem Core.unwoken_wake (c : Core) (x : Fin 11) :
    Core.unwoken { c with ctxs := c.ctxs.set x { c.ctxs[x] with woken := true } } = c.unwoken := by
  simp only [Core.unwoken, Vector.map_set]
  congr 1
  refine Vector.ext fun i hi => ?_
  simp only [Vector.getElem_set, Vector.getElem_map]
  split
  · subst_vars; rfl
  · rfl

section
variable (s : State)

theorem onlyWakes_watches (ws : List Watch) : OnlyWakes s { s with watches := ws } := ⟨fun _ => rfl, rfl, fun _ => rfl⟩
theorem onlyWakes_wakeWatches (hit : Place → Bool) (a : Option Agent) : OnlyWakes s (s.wakeWatches hit a) := by
  simp only [State.wakeWatches]
  refine (onlyWakes_watches s _).trans (onlyWakes_foldl (fun t w => ?_) _ _)
  refine ⟨fun n => ?_, rfl, fun _ => rfl⟩
  by_cases hn : n = w.agent.core
  · subst hn
    rw [State.core_onCore_same, Core.unwoken_wake]
  · rw [State.core_onCore_ne _ _ _ _ hn]
theorem onlyWakes_homeStore (h : Nat) (a : Option Agent) (pa : Nat) (bs : List StoreByte) (alloc : Bool) :
    OnlyWakes s (s.homeStore h a pa bs alloc) := by
  simp only [State.homeStore]
  refine .trans (SameCores.onlyWakes ?_) (onlyWakes_wakeWatches ..)
  exact (sameCores_recallHost s h pa _).trans (sameCores_foldl (fun t _ => sameCores_sliceStore t ..) _ _)
theorem onlyWakes_writeBack (q : Nat) (l : Line) (p : Nat → Bool) : OnlyWakes s (s.writeBack q l p) :=
  .ite (((sameCores_supersede ..).onlyWakes.trans (onlyWakes_homeStore ..)).trans
    (sameCores_foldl (fun t _ => sameCores_hurtHome t ..) _ _).onlyWakes) (.refl s)
theorem onlyWakes_sweepLines (q : Nat) (p : Line → Bool) (sel : Line → Nat → Bool) (f : Line → Option Line) :
    OnlyWakes s (s.sweepLines q p sel f) :=
  .ite (.refl s) ((onlyWakes_foldl (fun t _ => onlyWakes_writeBack t ..) _ s).trans (sameCores_onQuire _ q _).onlyWakes)
theorem onlyWakes_recallOwned (h : Nat) (keep : Option Nat) (pa n : Nat) : OnlyWakes s (s.recallOwned h keep pa n) :=
  .ite (.refl s) (onlyWakes_foldl (fun t _ => .ite (.refl t) (onlyWakes_sweepLines ..)) _ s)
theorem onlyWakes_forwardNow (q : Nat) (f : Forward) : OnlyWakes s (s.forwardNow q f) :=
  (onlyWakes_recallOwned ..).trans (onlyWakes_homeStore ..)
theorem onlyWakes_leaves (w : Waiter) : OnlyWakes s (s.leaves w) :=
  .ite ⟨fun _ => rfl, rfl, fun _ => rfl⟩ (.refl s)
theorem onlyWakes_flushFirst (q n : Nat) : OnlyWakes s (s.flushFirst q n) := by
  induction n generalizing s with
  | zero => exact .refl s
  | succ n ih =>
    unfold State.flushFirst
    split
    · exact .refl s
    · exact .ite (.refl s) ((((sameCores_onQuire s q _).onlyWakes.trans (onlyWakes_forwardNow ..)).trans (onlyWakes_leaves ..)).trans (ih _))
theorem onlyWakes_cleanQuire (q : Nat) : OnlyWakes s (s.cleanQuire q) :=
  (onlyWakes_flushFirst s q _).trans (onlyWakes_sweepLines ..)
theorem sameCores_acquireQuire (q : Nat) : SameCores s (s.acquireQuire q) := by
  unfold State.acquireQuire
  exact sameCores_onQuire s q _
theorem sameCores_acquire (n : Nat) (sc : Scope) : SameCores s (s.acquire n sc) := .ite (sameCores_acquireQuire ..) (.refl s)

end

end Sys2Proof.Machine
end

section
/-! SUPPORT. Messages: the instructions and their way (06, R152 to R156). -/

namespace Sys2Proof.Machine

section
variable {s : State}

/-! ### Releases of the device's own scopes -/

theorem scopeOf_ne_sys (a b : Nat) : scopeOf a b ≠ .sys := by
  unfold scopeOf
  split
  · decide
  · split
    · decide
    · split <;> decide

/-- A release with nothing to drain, nothing held up and no peer to wait for wakes contexts at most. -/
theorem releaseLost_run {sc : Scope} (alone : sc = .sys → s.me.peers = [] ∧ s.myCtx.hand = none) (sb : s.me.sb = [])
    (free : s.forwardsHeld s.myQuire = false) : ∃ t, releaseLost sc s = .ok ([], t) ∧ OnlyWakes s t := by
  have noHand {u : State} (wakes : OnlyWakes s u) : (sc = .sys && (!u.me.peers.isEmpty || u.myCtx.hand.isSome)) = false := by
    by_cases sys : sc = .sys
    · obtain ⟨peers, hand⟩ := alone sys
      rw [wakes.me, wakes.myCtx]
      simp [peers, hand]
    · simp [sys]
  by_cases wide : 2 ≤ Scope.rank sc
  · have wakes := onlyWakes_cleanQuire s s.myQuire
    refine ⟨s.cleanQuire s.myQuire, ?_, wakes⟩
    have one : 1 ≤ Scope.rank sc := by omega
    simp only [releaseLost, M.bind_run, one, wide, if_true, drainFirst_empty sb, M.get_run, free, Bool.false_eq_true, if_false,
      M.modify_run, noHand wakes, M.pure_run]
  · refine ⟨s, ?_, .refl s⟩
    by_cases one : 1 ≤ Scope.rank sc
    · simp only [releaseLost, M.bind_run, one, wide, if_true, drainFirst_empty sb, M.get_run, if_false, noHand (.refl s),
        Bool.false_eq_true, M.pure_run]
    · simp only [releaseLost, M.bind_run, one, wide, M.get_run, if_false, noHand (.refl s), Bool.false_eq_true, M.pure_run]
theorem release_run {sc : Scope} (below : sc ≠ .sys) (sb : s.me.sb = []) (free : s.forwardsHeld s.myQuire = false) :
    ∃ t, release sc s = .ok ((), t) ∧ OnlyWakes s t := by
  obtain ⟨t, run, wakes⟩ := releaseLost_run (fun sys => absurd sys below) sb free
  exact ⟨t, M.bind_ok run, wakes⟩

/-! ### The operands -/

theorem localOperand_own {n al o : Nat} {va : Word} (ha : al ∣ 64) (h : OwnBytes s va n al o) (pos : 0 < n) :
    localOperand va al n s = .ok (o, s) := by
  have small := h.small pos
  obtain ⟨rfl, inside, aligned, own, -, -⟩ := h
  have base : localBase % al = 0 := Nat.mod_eq_zero_of_dvd (Nat.dvd_trans ha (by decide))
  have align : checkAlign (localAddr o) al (localAddr o) = .ok () := by
    rw [checkAlign, localAddr_toNat small, Nat.add_mod, base, aligned]
    simp
  have fits : ¬0x40000 < o + n := by omega
  simp [localOperand, M.bind_run, align, regionOf_localAddr small, slotCore, fits, own]

theorem OwnBytes.at_localAddr {va : Word} {n al o : Nat} (h : OwnBytes s va n al o) : OwnBytes s (localAddr o) n al o :=
  ⟨rfl, h.2⟩
theorem readOwn_own {va : Word} {n al o : Nat} (h : OwnBytes s va n al o) : readOwn o n s = .ok (s.ownBytes o n, s) := by
  rw [readOwn, M.bind_ok (M.get_run s)]
  exact loadAt_own _ h.at_localAddr
theorem storeOwn_run (o : Nat) (bs : List Byte) :
    storeOwn o bs s = .ok ((), s.enqueue (.spad s.cur o) (localAddr o) .dflt bs) := by
  rw [storeOwn, M.bind_ok (M.get_run s)]
  exact storeAt_own ..

/-! ### Sending -/

/-- The message that `send` or `reply` makes of the operand's bytes. -/
def sentMessage (s : State) (dest o : Nat) (reply : Bool) : Msg :=
  ⟨dest, s.cur, reply, (s.ownBytes o 32).take 4 ++ toBytes 2 s.cur ++ [if reply then 1 else 0] ++ (s.ownBytes o 32).drop 7, false⟩
theorem takeMessage_run {a b : Reg} {o : Nat} (reply : Bool) (own : OwnBytes s (s.w b) 32 32 o) (range : (s.w a).toNat ≤ 18431)
    (service : s.inService (s.w a).toNat = true) (kettle : hasV (BitVec.ofNat 32 (fieldAt (s.ownBytes o 32) 0 4)) = false) :
    takeMessage a b reply s = .ok (sentMessage s (s.w a).toNat o reply, s) := by
  have dest : coreOperand (s.w a) s = .ok ((s.w a).toNat, s) := by
    simp [coreOperand, M.bind_run, M.map_run, need_run, range, service]
  simp only [takeMessage, M.bind_run, readW_run, dest, localOperand_own (by decide) own (by decide), readOwn_own own, need_run, kettle,
    Bool.not_false, Bool.true_or, if_true, M.get_run, M.pure_run]
  rfl
theorem enqueue_run (m : Msg) (device : scopeOf m.src m.dest ≠ .sys) (sb : s.me.sb = []) (free : s.forwardsHeld s.myQuire = false) :
    ∃ u, Sys2Proof.Machine.enqueue m s = .ok ((), u.onMe fun c => { c with sendq := c.sendq ++ [m] }) ∧ OnlyWakes s u := by
  obtain ⟨u, run, wakes⟩ := release_run device sb free
  exact ⟨u, by rw [Sys2Proof.Machine.enqueue, M.bind_ok run]; rfl, wakes⟩

theorem State.me_advance (s : State) : s.advance.me = { s.me with ctxs := s.advance.me.ctxs } := by
  have e : s.advance.me = _ := s.me_onMyCtx _
  rw [e]
theorem State.w_onMe {s : State} {f : Core → Core} (h : (f s.me).ctxs = s.me.ctxs) (r : Reg) : (s.onMe f).w r = s.w r := by
  simp only [State.w, State.myCtx_onMe, h]
  rfl

/-- After a release a message stands last in the send queue, and the context goes on. -/
theorem sent_frame {u : State} (hs : s.issue.stay = false) (wakes : OnlyWakes s u) (m : Msg) :
    let t := (u.onMe fun c => { c with sendq := c.sendq ++ [m] }).advance
    WentOn s t ∧ SameW s t ∧ t.me.sendq = s.me.sendq ++ [m] := by
  refine ⟨wentOn_advance _ _ hs wakes.issue, fun r => ?_, ?_⟩
  · rw [State.w_advance, State.w_onMe rfl, wakes.w]
  · rw [State.me_advance, State.me_onMe, wakes.me]

theorem sent_of {i : Instr} {a : Reg} {o : Nat} {reply : Bool} (hs : s.issue.stay = false) (sb : s.me.sb = [])
    (free : s.forwardsHeld s.myQuire = false)
    (run : exec i s = M.run (Sys2Proof.Machine.enqueue (sentMessage s (s.w a).toNat o reply)) s) :
    ∃ t, exec i s = .next t ∧ WentOn s t ∧ SameW s t ∧ t.me.sendq = s.me.sendq ++ [sentMessage s (s.w a).toNat o reply] := by
  obtain ⟨u, sent, wakes⟩ := enqueue_run (s := s) (sentMessage s (s.w a).toNat o reply) (scopeOf_ne_sys _ _) sb free
  exact ⟨_, run.trans (M.run_ok sent), sent_frame hs wakes _⟩

/-! ### Taking -/

/-- An inbox without a bad message, and no message beyond it, stays as it is. -/
theorem Core.inbox_settled {c : Core} (overflow : c.overflow = none) (sound : ∀ m ∈ c.inbox, m.bad = false) :
    c.dropBadMessages.settleInbox = c := by
  have all : c.inbox.filter (fun m => !m.bad) = c.inbox := List.filter_eq_self.2 fun m hm => by simp [sound m hm]
  have none : c.inbox.filter (fun m => m.bad) = [] := List.filter_eq_nil_iff.2 fun m hm => by simp [sound m hm]
  have kept : c.dropBadMessages = c := by
    simp only [Core.dropBadMessages, all, overflow, Option.toList_none, List.append_nil, none, List.map_nil, Option.filter_none]
    rw [← overflow]
  rw [kept, Core.settleInbox, overflow]

/-- A core that is as it was stands in the state as if written. -/
theorem me_settled (overflow : s.me.overflow = none) (sound : ∀ m ∈ s.me.inbox, m.bad = false) :
    (s.onMe fun c => c.dropBadMessages.settleInbox) = s.setMe s.me := by
  rw [State.onMe, Core.inbox_settled overflow sound]

theorem State.myCtx_stay_advance (s : State) : s.stay.advance.myCtx = { s.myCtx with waiting := true, wants := [] } := by
  rw [State.myCtx_advance]
  exact if_pos rfl

/-- The message taken, or the mark that there is none, has entered the store buffer. -/
theorem stored_frame {u : State} (hs : s.issue.stay = false) (issue : u.issue = s.issue) (ctxs : u.me.ctxs = s.me.ctxs) (cur : u.cur = s.cur)
    (ctx : u.ctx = s.ctx) (sb : u.me.sb = []) (o : Nat) (bs : List Byte) :
    let t := (u.enqueue (.spad u.cur o) (localAddr o) .dflt bs).advance
    WentOn s t ∧ SameW s t ∧ t.me.inbox = u.me.inbox ∧
      t.me.sb = [⟨s.ctx, [⟨.spad s.cur o, localAddr o, .dflt, storeBytes bs⟩]⟩] := by
  refine ⟨wentOn_advance _ _ hs issue, fun r => ?_, ?_, ?_⟩
  · rw [State.w_advance, State.w_enqueue]
    simp only [State.w, State.myCtx, ctxs, ctx]
  · rw [State.me_advance, State.me_enqueue]
  · rw [State.me_advance, State.me_enqueue, sb, cur, ctx]
    rfl

theorem messageInstructions : Claims.MessageInstructions := by
  intro s a b f o hs ph sb peers free overflow sound bs dest sent
  have phase := barPhase_run ph
  refine ⟨fun room own range service kettle => ?_, fun room own range service kettle => ?_, ?_, ?_, ?_, ?_⟩
  · have run : exec (.send a b) s = M.run (Sys2Proof.Machine.enqueue (sentMessage s (s.w a).toNat o false)) s := by
      refine M.run_congr ?_
      rw [M.bind_ok phase, M.bind_ok (takeMessage_run false own range service kettle)]
      simp [M.bind_run, need_run, room]
    exact sent_of hs sb free run
  · have run : exec (.reply a b) s = M.run (Sys2Proof.Machine.enqueue (sentMessage s (s.w a).toNat o true)) s := by
      refine M.run_congr ?_
      rw [M.bind_ok phase, M.bind_ok (takeMessage_run true own range service kettle)]
      simp [M.bind_run, Nat.not_le.2 room]
    exact sent_of hs sb free run
  · intro m own found
    let taken : State := s.setMe { s.me with inbox := s.me.inbox.erase m }
    let sc : Scope := if m.src = 0xFFFF then .dev else scopeOf m.src s.cur
    have same : SameCores taken (taken.acquire taken.cur sc) := sameCores_acquire ..
    have me : (taken.acquire taken.cur sc).me = { s.me with inbox := s.me.inbox.erase m } := by
      rw [same.me]
      exact s.me_setMe _
    have run : exec (.recv f a) s = .next ((taken.acquire taken.cur sc).enqueue
        (.spad (taken.acquire taken.cur sc).cur o) (localAddr o) .dflt m.bytes).advance := by
      refine M.run_ok ?_
      rw [M.bind_ok phase, M.bind_ok (readW_run a s), M.bind_ok (localOperand_own (by decide) own (by decide)),
        M.bind_ok (M.modify_run _ s), me_settled overflow sound, M.bind_ok (M.get_run _)]
      simp only [State.me_setMe, found]
      rw [State.onMe, State.me_setMe, State.setMe_setMe]
      have settled : Core.settleInbox { s.me with inbox := s.me.inbox.erase m } = { s.me with inbox := s.me.inbox.erase m } := by
        rw [Core.settleInbox, overflow]
      rw [settled, M.bind_ok (M.set_run _ taken)]
      exact (M.bind_ok (M.modify_run _ taken)).trans (storeOwn_run ..)
    refine ⟨_, run, ?_⟩
    have frame := stored_frame hs same.issue (by rw [me]) same.cur same.ctx (by rw [me]; exact sb) o m.bytes
    rw [me] at frame
    exact frame
  · intro own found
    have run : exec (.recv f a) s = .next ((s.setMe s.me).enqueue (.spad s.cur (o + 6)) (localAddr (o + 6)) .dflt [0xFF]).advance := by
      refine M.run_ok ?_
      rw [M.bind_ok phase, M.bind_ok (readW_run a s), M.bind_ok (localOperand_own (by decide) own (by decide)),
        M.bind_ok (M.modify_run _ s), me_settled overflow sound, M.bind_ok (M.get_run _)]
      simp only [State.me_setMe, found]
      exact storeOwn_run ..
    have frame := stored_frame (u := s.setMe s.me) hs rfl (by rw [State.me_setMe]) rfl rfl (by rw [State.me_setMe]; exact sb) (o + 6) [0xFF]
    rw [State.me_setMe] at frame
    exact ⟨_, run, frame⟩
  · intro waiting
    have run : exec (.wmsg f) s = .next (s.setMe s.me).advance := by
      refine M.run_ok ((M.bind_ok phase).trans ((M.bind_ok (M.modify_run _ s)).trans ?_))
      rw [me_settled overflow sound]
      simp only [M.bind_run, M.get_run, State.me_setMe, waiting, if_true, M.pure_run]
    obtain ⟨wentOn, registers, -⟩ := coreChange_frame hs (fun c => c) rfl rfl rfl rfl rfl
    exact ⟨_, run, wentOn, registers⟩
  · intro empty
    have run : exec (.wmsg f) s = .next (s.setMe s.me).stay.advance := by
      refine M.run_done ((M.bind_ok phase).trans ((M.bind_ok (M.modify_run _ s)).trans ?_))
      rw [me_settled overflow sound]
      simp only [M.bind_run, M.get_run, State.me_setMe, empty, Bool.false_eq_true, if_false, holdHere_run]
    have ctx : (s.setMe s.me).myCtx = s.myCtx := s.myCtx_onMe fun c => c
    exact ⟨_, run, by rw [State.myCtx_stay_advance], by rw [State.myCtx_stay_advance, ctx]⟩

/-! ### The way (R153, R154, R385) -/

/-- The oldest message of a class leaves. -/
theorem messageDepart_first {m : Msg} {queue : List Msg} (sendq : (s.core s.turn.core).sendq = m :: queue) (cls : m.reply = s.turn.flag) :
    ∃ t, exec .messageDepart s = .next t ∧ (t.core s.turn.core).sendq = queue ∧ OtherCoresSame s t s.turn.core ∧
      t.net = s.net ++ [(s.startWay (if m.reply then .reply else .request) (quireOf s.turn.core) (quireOf m.dest) 1, m)] := by
  let sent : State := s.onCore s.turn.core fun c => { c with sendq := c.sendq.eraseIdx 0 }
  have queued : (sent.core s.turn.core).sendq = queue := by rw [State.core_onCore_same, sendq]; rfl
  refine ⟨{ sent.counted with net := sent.net ++ [(sent.startWay (if m.reply then .reply else .request) (quireOf s.turn.core) (quireOf m.dest) 1, m)] },
    ?_, queued, fun k hk => State.core_onCore_ne s _ k (fun c => { c with sendq := c.sendq.eraseIdx 0 }) hk, rfl⟩
  have first : (s.core s.turn.core).sendq.findIdx? (fun m => m.reply = s.turn.flag) = some 0 := by rw [sendq]; simp [List.findIdx?_cons, cls]
  have head : (s.core s.turn.core).sendq[0]? = some m := by rw [sendq]; rfl
  simp only [exec, execMessageDepart, first, head]
  rfl

theorem Core.take_room {c : Core} (m : Msg) (room : c.inbox.length < 16) : c.take m = { c with inbox := c.inbox ++ [m] }.stir := by
  rw [Core.take, if_pos room]

theorem messageTransport : Claims.MessageTransport := by
  intro s m w queue rest
  refine ⟨fun n hn sendq cls => ?_, fun first net arrived accepts room kettle => ?_⟩
  · subst hn
    exact messageDepart_first sendq cls
  · let left : State := { s with net := rest }
    refine ⟨left.onCore m.dest fun c => c.take m, ?_, rfl, ?_, ?_, fun k hk => State.core_onCore_ne left _ k _ hk⟩
    · have found : s.net[s.turn.index]? = some (w, m) := by rw [first, net]; rfl
      have come : s.firstInNet s.turn.index (w, m) = true := by simp [State.firstInNet, arrived, first]
      have enters : left.messageIn m = some (left.onCore m.dest fun c => c.take m) := by
        have accepts' : (left.core m.dest).accepts m = true := accepts
        simp only [State.messageIn, accepts', Bool.not_true, Bool.false_eq_true, if_false, kettle, Bool.not_false, Bool.true_or, if_true]
      have rest' : s.net.eraseIdx s.turn.index = rest := by rw [first, net]; rfl
      simp only [exec, execMessageArrival, found, come, Bool.not_true, Bool.false_eq_true, if_false, rest']
      rw [show ({ s with net := rest } : State).messageIn m = _ from enters]
      rfl
    · rw [State.core_onCore_same, show left.core m.dest = s.core m.dest from rfl, Core.take_room m room]
      rfl
    · rw [State.core_onCore_same, show left.core m.dest = s.core m.dest from rfl, Core.take_room m room]
      rfl

/-- Settles O41: the instructions, and the way between the queues. -/
theorem messages : Obligations.Messages := ⟨messageInstructions, messageTransport⟩

end

end Sys2Proof.Machine
end

section
/-! SUPPORT. Domain barriers (01, R22; 07, R189 to R192; 15, R405). -/

namespace Sys2Proof.Machine

section
variable {s : State}

/-! ### The instruction -/

/-- The four forms differ in their level alone. -/
theorem exec_bar {i : Instr} {l : Level} (h : (i, l) ∈ [(Instr.barQuire, Level.quire), (.barDie, .die), (.barDev, .dev), (.barSys, .sys)]) :
    exec i s = M.run (bar l) s := by
  simp only [List.mem_cons, Prod.mk.injEq, List.not_mem_nil, or_false] at h
  obtain ⟨rfl, rfl⟩ | ⟨rfl, rfl⟩ | ⟨rfl, rfl⟩ | ⟨rfl, rfl⟩ := h <;> rfl

theorem meetsHold_none (l : Level) (preempt : s.me.preempt = none) : meetsHold l s = .ok ((), s) := by
  simp [meetsHold, M.bind_run, preempt]

/-- The episode of a level's barrier after a core has arrived. -/
def State.arrival (s : State) (l : Level) : Episode :=
  let e := (s.episode l (domainOf s.cur l)).getD ⟨l, domainOf s.cur l, [], [], !s.fabricOn, false, false⟩
  { e with arrived := e.arrived ++ [s.cur] }

section
variable {l : Level} (ready : CtlReady s 0)
include ready

/-- A core that the completed barrier has let go leaves it. -/
theorem bar_passed (pass : s.me.barPass = some (l, none)) :
    bar l s = .ok ((), (s.onMe fun c => { c with barPass := none, barWait := none, afterBar := l = .quire }).acquire s.cur (Level.scope l)) := by
  obtain ⟨hx, -, -, hp, -⟩ := ready
  simp only [bar, M.bind_run, controlOnly_run hx, barPhase_run hp, M.get_run, pass, M.modify_run, acquire, M.pure_run]
  rfl

variable (pass : s.me.barPass = none) (wait : s.me.barWait = none)
include pass wait

/-- A core that is no member passes as a fence. -/
theorem bar_outside {u : State} (outside : s.csr.member l = false) (release : releaseLost (Level.scope l) s = .ok ([], u)) :
    bar l s = .ok ((), u.acquire u.cur (Level.scope l)) := by
  obtain ⟨hx, -, -, hp, -⟩ := ready
  simp only [bar, M.bind_run, controlOnly_run hx, barPhase_run hp, M.get_run, pass, wait, Option.isSome_none, Bool.false_eq_true, if_false,
    outside, release, Bool.not_false, if_true, acquire, M.modify_run, fenceEnd, M.pure_run]

/-- The first `bar` of a member counts its arrival and waits. -/
theorem bar_arrives {u : State} (member : s.csr.member l = true) (preempt : s.me.preempt = none)
    (release : releaseLost (Level.scope l) s = .ok ([], u)) (out : ∀ e, u.episode l (domainOf u.cur l) = some e → u.cur ∉ e.out)
    (holdBars : u.mgmt.holdBars = false) :
    bar l s = .error (.done ((u.setEpisode (u.arrival l)).onMe fun c => { c with barWait := some l }).stay.advance) := by
  obtain ⟨hx, -, -, hp, -⟩ := ready
  have counted : ((u.episode l (domainOf u.cur l)).any fun e => e.out.contains u.cur) = false := by
    cases he : u.episode l (domainOf u.cur l) with
    | none => rfl
    | some e => simpa using out e he
  simp only [bar, M.bind_run, controlOnly_run hx, barPhase_run hp, M.get_run, pass, wait, Option.isSome_none, Bool.false_eq_true, if_false,
    member, if_true, meetsHold_none l preempt, release, Bool.not_true, counted, holdBars, Bool.false_and, M.modify_run, holdHere_run]
  rfl

end

/-! ### Episodes -/

theorem State.episode_spec {l : Level} {d : Nat} {e : Episode} (h : s.episode l d = some e) : e.level = l ∧ e.domain = d := by
  have := List.find?_some h
  simpa using this
theorem State.arrival_spec (s : State) (l : Level) : (s.arrival l).level = l ∧ (s.arrival l).domain = domainOf s.cur l := by
  unfold State.arrival
  cases h : s.episode l (domainOf s.cur l) with
  | none => exact ⟨rfl, rfl⟩
  | some e => obtain ⟨level, domain⟩ := State.episode_spec h; exact ⟨level, domain⟩
theorem State.mem_arrival (s : State) (l : Level) : s.cur ∈ (s.arrival l).arrived :=
  List.mem_append_right _ List.mem_cons_self
theorem State.episode_setEpisode {e : Episode} (h : e.arrived ≠ []) : (s.setEpisode e).episode e.level e.domain = some e := by
  simp [State.episode, State.setEpisode, h]

/-- What lets the members go marks each of them, and closes the episode. -/
theorem core_letGo (cs : List Nat) (pass : Option (Level × Option Nat)) (c : Nat) : ∀ t : State,
    (c ∈ cs ∨ (t.core c).barPass = pass) → ((cs.foldl (fun t c => t.onCore c fun k => { k with barPass := pass }) t).core c).barPass = pass := by
  induction cs with
  | nil => intro t h; exact h.resolve_left (List.not_mem_nil)
  | cons x r ih =>
    intro t h
    refine ih _ ?_
    by_cases hx : c = x
    · subst hx
      right
      rw [State.core_onCore_same]
    · rcases h with h | h
      · exact .inl ((List.mem_cons.1 h).resolve_left hx)
      · right
        rw [State.core_onCore_ne _ _ _ _ hx, h]

theorem episodes_letGo (s : State) (e : Episode) :
    (s.letGo e).episodes = s.episodes.filter fun x => !(x.level = e.level && x.domain = e.domain) := by
  have kept (cs : List Nat) (p : Option (Level × Option Nat)) : ∀ t : State,
      (cs.foldl (fun t c => t.onCore c fun k => { k with barPass := p }) t).episodes = t.episodes := by
    induction cs with
    | nil => intro t; rfl
    | cons x r ih => intro t; exact ih _
  exact kept ..

/-! ### The claim, clause by clause -/

/-- Nothing keeps the core's `bar` from being judged: nothing of the core is on its way, and no request is held for it. -/
def BarReady (s : State) : Prop :=
  CtlReady s 0 ∧ s.me.sb = [] ∧ s.me.peers = [] ∧ s.myCtx.hand = none ∧ s.me.preempt = none ∧ s.mgmt.holdBars = false ∧
    s.forwardsHeld s.myQuire = false
theorem BarReady.released (h : BarReady s) (l : Level) : ∃ u, releaseLost (Level.scope l) s = .ok ([], u) ∧ OnlyWakes s u := by
  obtain ⟨-, sb, peers, hand, -, -, free⟩ := h
  exact releaseLost_run (fun _ => ⟨peers, hand⟩) sb free

theorem bar_outside_done {l : Level} (ready : BarReady s) (pass : s.me.barPass = none) (wait : s.me.barWait = none)
    (outside : s.csr.member l = false) : ∃ t, M.run (bar l) s = .next t ∧ WentOn s t ∧ SameW s t ∧ t.episodes = s.episodes := by
  obtain ⟨u, released, wakes⟩ := ready.released l
  obtain ⟨ctl, -⟩ := ready
  obtain ⟨-, -, hs, -, -⟩ := id ctl
  have all := wakes.trans (sameCores_acquire u u.cur (Level.scope l)).onlyWakes
  refine ⟨_, M.run_ok (bar_outside ctl pass wait outside released), wentOn_advance _ _ hs all.issue, fun r => ?_, ?_⟩
  · rw [State.w_advance, all.w]
  · exact (congrArg State.episodes all.rest :)

theorem bar_arrival_done {l : Level} (ready : BarReady s) (pass : s.me.barPass = none) (wait : s.me.barWait = none)
    (member : s.csr.member l = true) (out : ∀ e, s.episode l (domainOf s.cur l) = some e → s.cur ∉ e.out) :
    ∃ t, M.run (bar l) s = .next t ∧ t.myCtx.waiting = true ∧ t.myCtx.pc = s.myCtx.pc ∧ SameW s t ∧ t.me.barWait = some l ∧
      ∃ e, t.episode l (domainOf s.cur l) = some e ∧ s.cur ∈ e.arrived := by
  obtain ⟨u, released, wakes⟩ := ready.released l
  obtain ⟨ctl, -, -, -, preempt, holdBars, -⟩ := ready
  have episodes : u.episodes = s.episodes := (congrArg State.episodes wakes.rest :)
  have mgmt : u.mgmt = s.mgmt := (congrArg State.mgmt wakes.rest :)
  have out' : ∀ e, u.episode l (domainOf u.cur l) = some e → u.cur ∉ e.out := by
    rw [State.episode, episodes, wakes.cur]
    exact out
  let v : State := u.setEpisode (u.arrival l)
  have opened : v.episode l (domainOf s.cur l) = some (u.arrival l) := by
    obtain ⟨level, domain⟩ := u.arrival_spec l
    have e := State.episode_setEpisode (s := u) (List.ne_nil_of_mem (u.mem_arrival l))
    rw [level, domain, wakes.cur] at e
    exact e
  have ctx : (v.onMe fun c => { c with barWait := some l }).myCtx = u.myCtx := v.myCtx_onMe _
  let t : State := (v.onMe fun c => { c with barWait := some l }).stay.advance
  have same : t.episodes = v.episodes := rfl
  refine ⟨t, M.run_done (bar_arrives ctl pass wait member preempt released out' (by rw [mgmt, holdBars])), ?_, ?_, fun r => ?_, ?_,
    u.arrival l, ?_, by rw [← wakes.cur]; exact u.mem_arrival l⟩
  · rw [State.myCtx_stay_advance]
  · rw [State.myCtx_stay_advance, ctx, wakes.myCtx]
  · have stayed : t.w r = (v.onMe fun c => { c with barWait := some l }).w r := State.w_advance ..
    have kept : v.w r = u.w r := rfl
    rw [stayed, State.w_onMe rfl, kept, wakes.w]
  · rw [State.me_advance]
    show (v.onMe fun c => { c with barWait := some l }).me.barWait = some l
    rw [State.me_onMe]
  · rw [State.episode, same]
    exact opened

theorem bar_passed_done {l : Level} (ready : BarReady s) (pass : s.me.barPass = some (l, none)) :
    ∃ t, M.run (bar l) s = .next t ∧ WentOn s t ∧ SameW s t ∧ t.me.barPass = none ∧ t.me.barWait = none := by
  obtain ⟨ctl, -⟩ := ready
  obtain ⟨-, -, hs, -, -⟩ := id ctl
  let v : State := s.onMe fun c => { c with barPass := none, barWait := none, afterBar := l = .quire }
  have same : SameCores v (v.acquire s.cur (Level.scope l)) := sameCores_acquire ..
  have me : (v.acquire s.cur (Level.scope l)).me = { s.me with barPass := none, barWait := none, afterBar := l = .quire } :=
    same.me.trans (s.me_onMe _)
  refine ⟨(v.acquire s.cur (Level.scope l)).advance, M.run_ok (bar_passed ctl pass), wentOn_advance _ _ hs same.issue, fun r => ?_, ?_, ?_⟩
  · rw [State.w_advance, same.onlyWakes.w]
    exact State.w_onMe (s := s) rfl r
  · rw [State.me_advance, me]
  · rw [State.me_advance, me]

theorem barrierRelease_done {e : Episode} {rest : List Episode} (first : s.turn.index = 0) (opened : s.episodes = e :: rest)
    (arrived : ∀ c ∈ s.members e.level e.domain, c ∈ e.arrived ∨ c ∈ e.out) (kind : e.level ≠ .sys ∨ e.alone = true ∨ e.released = true) :
    ∃ t, exec .barrierRelease s = .next t ∧ t.episode e.level e.domain = none ∧
      ∀ c ∈ e.arrived, (t.core c).barPass = some (e.level, if e.lost then s.lost.head? else none) := by
  have found : s.episodes[s.turn.index]? = some e := by rw [first, opened]; rfl
  have none : s.awaited' e = [] := by
    refine List.filter_eq_nil_iff.2 fun c hc => ?_
    rcases arrived c hc with h | h <;> simp [h]
  have complete : s.complete? e = true := by
    simp only [State.complete?, none, List.isEmpty_nil, Bool.true_and, Bool.or_eq_true, decide_eq_true_eq]
    exact or_assoc.2 kind
  refine ⟨s.letGo e, ?_, ?_, fun c hc => core_letGo _ _ c _ (.inl hc)⟩
  · simp only [exec, execBarrierRelease, found, complete, if_true]
  · rw [State.episode, episodes_letGo]
    refine List.find?_eq_none.2 fun x hx => ?_
    have other := (List.mem_filter.1 hx).2
    rw [Bool.not_eq_true'] at other
    rw [other]
    exact Bool.false_ne_true

theorem memberLost_done {e : Episode} (opened : s.episode .sys 0 = some e) (alone : e.alone = false) (lost : s.turn.index ∈ s.lost) :
    ∃ t x, exec .barrierMemberLost s = .next t ∧ t.cores = s.cores ∧ t.episode .sys 0 = some x ∧ x.lost = true ∧ x.arrived = e.arrived := by
  have dev : s.lost.contains s.turn.index = true := List.contains_iff_mem.2 lost
  have run : exec .barrierMemberLost s = .next (s.loseDevice s.turn.index) := by
    simp only [exec, execBarrierMemberLost, State.memberLost, dev, if_true]
  obtain ⟨level, -⟩ := State.episode_spec opened
  refine ⟨_, { e with lost := true }, run, rfl, ?_, rfl, rfl⟩
  have keeps : (fun x : Episode => decide (x.level = Level.sys) && decide (x.domain = 0)) ∘
      (fun x : Episode => if x.level = .sys && !x.alone then { x with lost := true } else x) =
      fun x => decide (x.level = Level.sys) && decide (x.domain = 0) := by
    funext x
    simp only [Function.comp]
    split <;> rfl
  show List.find? _ (s.episodes.map _) = _
  rw [List.find?_map, keeps, show List.find? _ s.episodes = some e from opened]
  simp [level, alone]

/-- Settles O12, clause by clause. -/
theorem domainBarriers : Obligations.DomainBarriers := by
  intro s i l form dom ready
  rw [exec_bar form]
  refine ⟨bar_outside_done, bar_arrival_done, bar_passed_done, fun e rest => barrierRelease_done, fun e opened alone _ => memberLost_done opened alone,
    fun kept => ?_⟩
  have dev : s.lost.contains s.turn.index = false := by simpa using kept
  simp only [exec, execBarrierMemberLost, State.memberLost, dev, Bool.false_eq_true, if_false]

end

end Sys2Proof.Machine
end

section
/-! SUPPORT. What the operations on memory, lines and slices do does not depend on the cores nor on the kettle operations on
their way (11, R295; 12, R319 to R323). -/

namespace Sys2Proof.Machine

/-- A state with other cores and other kettle operations on their way. -/
def State.around (s : State) (c : List (Nat × Core)) (k : List Kop) : State := { s with cores := c, kops := k }

section
variable (s : State) (c : List (Nat × Core)) (k : List Kop)

theorem foldl_around {α : Type} {f : State → α → State} (h : ∀ t x, f (State.around t c k) x = (f t x).around c k) (xs : List α) :
    xs.foldl f (s.around c k) = (xs.foldl f s).around c k := by
  induction xs generalizing s with
  | nil => rfl
  | cons x r ih => rw [List.foldl_cons, h, ih, List.foldl_cons]
theorem homeBack_around (l : Line) : (s.around c k).homeBack l = (s.homeBack l).around c k := by
  unfold State.homeBack
  split <;> rfl
theorem evictHome_around (q : Nat) (p : Line → Bool) : (s.around c k).evictHome q p = (s.evictHome q p).around c k := by
  unfold State.evictHome
  exact congrArg (fun t : State => t.onQuire q fun x => { x with slices := x.slices.filter fun l => !p l })
    (foldl_around s c k (fun t l => homeBack_around t c k l) ((s.quire q).slices.filter p))
theorem slice_around (h pa : Nat) : (s.around c k).slice h pa = s.slice h pa := rfl
theorem quire_around (q : Nat) : (s.around c k).quire q = s.quire q := rfl
theorem homeFill_around (h pa : Nat) : (s.around c k).homeFill h pa = (s.homeFill h pa).around c k := by
  unfold State.homeFill
  rw [slice_around]
  split
  · rfl
  · simp only [quire_around]
    split
    · rfl
    · simp only [evictHome_around]
      rfl
theorem sliceStore_around (h a pa : Nat) (bs : List StoreByte) (alloc : Bool) :
    (s.around c k).sliceStore h a pa bs alloc = (s.sliceStore h a pa bs alloc).around c k := by
  unfold State.sliceStore
  rw [slice_around]
  split
  · rfl
  · rename_i q _ r _ _
    have filled : (if alloc && r.policy = 0 then (s.around c k).homeFill h a else s.around c k)
        = (if alloc && r.policy = 0 then s.homeFill h a else s).around c k := by
      rw [homeFill_around]
      split <;> rfl
    simp only [filled, quire_around]
    generalize (if alloc && r.policy = 0 then s.homeFill h a else s) = t
    split
    · split <;> rfl
    · rfl
theorem recallHost_around (h pa n : Nat) : (s.around c k).recallHost h pa n = (s.recallHost h pa n).around c k := by
  have link : (s.around c k).link = s.link := rfl
  simp only [State.recallHost, link]
  split
  · split <;> rfl
  · rfl
theorem hurtHome_around (h d : Nat) : (s.around c k).hurtHome h d = (s.hurtHome h d).around c k := by
  unfold State.hurtHome
  rw [slice_around]
  split
  · rw [quire_around]
    split <;> rfl
  · rfl
theorem supersede_around (q pa : Nat) (bs : List StoreByte) : (s.around c k).supersede q pa bs = (s.supersede q pa bs).around c k := by
  unfold State.supersede
  rw [quire_around]
  split <;> rfl
theorem leaves_around (w : Waiter) : (s.around c k).leaves w = (s.leaves w).around c k := by
  have granules : (s.around c k).granules = s.granules := rfl
  simp only [State.leaves, granules]
  split <;> rfl
theorem forwardWaits_around (q : Nat) (f : Forward) : (s.around c k).forwardWaits q f = s.forwardWaits q f := rfl

end

/-- The two states differ at most in their cores and in the kettle operations on their way. -/
def Beside (s t : State) : Prop := t = s.around t.cores t.kops

theorem Beside.trans {s t u : State} (h : Beside s t) (g : Beside t u) : Beside s u := by
  unfold Beside at h g ⊢
  rw [h] at g
  exact g
theorem Beside.symm {s t : State} (h : Beside s t) : Beside t s := by
  unfold Beside at h ⊢
  rw [h]
  rfl
/-- An operation that commutes with the change of cores and operations keeps states beside each other. -/
theorem Beside.map {s t : State} {f : State → State} (h : Beside s t) (g : ∀ u c k, f (State.around u c k) = (f u).around c k) :
    Beside (f s) (f t) := by
  unfold Beside at h
  rw [h, g]
  rfl
theorem beside_foldl {α : Type} {f : State → α → State} (g : ∀ s t x, Beside s t → Beside (f s x) (f t x)) (xs : List α) {s t : State}
    (h : Beside s t) : Beside (xs.foldl f s) (xs.foldl f t) := by
  induction xs generalizing s t with
  | nil => exact h
  | cons x r ih => exact ih (g s t x h)
theorem Beside.quire {s t : State} (h : Beside s t) (q : Nat) : t.quire q = s.quire q := by rw [h]; rfl

section
variable {s t : State}

theorem beside_onCore (s : State) (n : Nat) (f : Core → Core) : Beside s (s.onCore n f) := rfl
/-- The watches that wake are those of the state beside. -/
theorem Beside.wakeWatches (h : Beside s t) (hit : Place → Bool) (a : Option Agent) : Beside (s.wakeWatches hit a) (t.wakeWatches hit a) := by
  have woken (ws : List Watch) (u : State) : Beside u (ws.foldl (fun t w => t.onCore w.agent.core fun c =>
      { c with ctxs := c.ctxs.set w.agent.ctx { c.ctxs[w.agent.ctx] with woken := true } }) u) := by
    induction ws generalizing u with
    | nil => rfl
    | cons x r ih => exact (beside_onCore u ..).trans (ih _)
  have cleared : Beside { s with watches := s.watches.filter fun w => !(hit w.place && (w.any || some w.agent ≠ a)) }
      { t with watches := t.watches.filter fun w => !(hit w.place && (w.any || some w.agent ≠ a)) } :=
    h.map (f := fun u => { u with watches := u.watches.filter fun w => !(hit w.place && (w.any || some w.agent ≠ a)) }) fun _ _ _ => rfl
  exact ((woken _ _).symm.trans cleared).trans (woken _ _)
theorem Beside.homeStore (h : Beside s t) (b : Nat) (a : Option Agent) (pa : Nat) (bs : List StoreByte) (alloc : Bool) :
    Beside (s.homeStore b a pa bs alloc) (t.homeStore b a pa bs alloc) := by
  simp only [State.homeStore]
  refine Beside.wakeWatches (beside_foldl (fun u v x g => ?_) _ ?_) ..
  · exact g.map (f := fun u => u.sliceStore b x _ _ alloc) fun u c k => sliceStore_around ..
  · exact h.map (f := fun u => u.recallHost b pa _) fun u c k => recallHost_around ..
theorem Beside.onQuire (h : Beside s t) (q : Nat) (f : Quire → Quire) : Beside (s.onQuire q f) (t.onQuire q f) :=
  h.map (f := fun u => u.onQuire q f) fun _ _ _ => rfl
theorem Beside.hurtHome (h : Beside s t) (b d : Nat) : Beside (s.hurtHome b d) (t.hurtHome b d) :=
  h.map (f := fun u => u.hurtHome b d) fun _ _ _ => hurtHome_around ..
theorem Beside.supersede (h : Beside s t) (q pa : Nat) (bs : List StoreByte) : Beside (s.supersede q pa bs) (t.supersede q pa bs) :=
  h.map (f := fun u => u.supersede q pa bs) fun _ _ _ => supersede_around ..
theorem Beside.writeBack (h : Beside s t) (q : Nat) (l : Line) (p : Nat → Bool) : Beside (s.writeBack q l p) (t.writeBack q l p) := by
  simp only [State.writeBack]
  split
  · refine beside_foldl (fun u v x g => ?_) _ ?_
    · exact g.hurtHome 0 _
    · exact (h.supersede q l.base (l.back p)).homeStore 0 none l.base (l.back p) true
  · exact h
theorem Beside.sweepLines (h : Beside s t) (q : Nat) (p : Line → Bool) (sel : Line → Nat → Bool) (f : Line → Option Line) :
    Beside (s.sweepLines q p sel f) (t.sweepLines q p sel f) := by
  simp only [State.sweepLines, h.quire]
  split
  · exact h
  · refine Beside.onQuire (beside_foldl (fun u v x g => ?_) _ h) ..
    exact g.writeBack ..
theorem Beside.recallOwned (h : Beside s t) (b : Nat) (keep : Option Nat) (pa n : Nat) :
    Beside (s.recallOwned b keep pa n) (t.recallOwned b keep pa n) := by
  have quires : t.quires = s.quires := (congrArg State.quires h :)
  unfold State.recallOwned
  rw [quires]
  split
  · exact h
  · refine beside_foldl (fun u v x g => ?_) _ h
    split
    · exact g
    · exact g.sweepLines ..
theorem Beside.forwardNow (h : Beside s t) (q : Nat) (f : Forward) : Beside (s.forwardNow q f) (t.forwardNow q f) :=
  (h.recallOwned ..).homeStore ..
theorem Beside.forwardWaits (h : Beside s t) (q : Nat) (f : Forward) : t.forwardWaits q f = s.forwardWaits q f := by
  rw [h, forwardWaits_around]
theorem Beside.flushFirst (h : Beside s t) (q n : Nat) : Beside (s.flushFirst q n) (t.flushFirst q n) := by
  induction n generalizing s t with
  | zero => exact h
  | succ n ih =>
    unfold State.flushFirst
    rw [h.quire]
    split
    · exact h
    · rw [h.forwardWaits]
      split
      · exact h
      · refine ih (Beside.map (f := fun u => u.leaves _) ((h.onQuire ..).forwardNow ..) fun u c k => leaves_around ..)
/-- Whether a store that a quire forwards is held up does not depend on the cores nor on the kettle operations. -/
theorem Beside.forwardsHeld (h : Beside s t) (q : Nat) : t.forwardsHeld q = s.forwardsHeld q := by
  unfold State.forwardsHeld State.flush
  rw [h.quire, (h.flushFirst q _).quire]

end

end Sys2Proof.Machine
end

section
/-! SUPPORT. The kettle store: what writes of a kettle leave of it, and what the operations that arm it and change its count
write (01, R33, Table 1.11; 06, R147, R148). -/

namespace Sys2Proof.Machine

/-! ### Memory read over a write -/

theorem Memory.read_add (m : Memory) (a k n : Nat) : Memory.read m a (k + n) = Memory.read m a k ++ Memory.read m (a + k) n := by
  induction k generalizing a with
  | zero => simp [Memory.read]
  | succ k ih =>
    rw [Nat.succ_add, Memory.read, ih, Memory.read, List.cons_append, show a + 1 + k = a + (k + 1) by omega]
theorem Memory.read_congr {m m' : Memory} {a n : Nat} (h : ∀ i, i < n → Memory.get m' (a + i) = Memory.get m (a + i)) :
    Memory.read m' a n = Memory.read m a n := by
  induction n generalizing a with
  | zero => rfl
  | succ n ih =>
    have first : Memory.get m' a = Memory.get m a := h 0 (by omega)
    have rest (i : Nat) (hi : i < n) : Memory.get m' (a + 1 + i) = Memory.get m (a + 1 + i) := by
      rw [show a + 1 + i = a + (i + 1) by omega]
      exact h (i + 1) (by omega)
    rw [Memory.read, Memory.read, first, ih rest]
/-- A run of bytes in which a part has been written. -/
theorem Memory.read_write_inside {m : Memory} (h : Memory.wf m = true) (a o n : Nat) {bs : List Byte} (fits : o + bs.length ≤ n) :
    Memory.read (Memory.write m (a + o) bs) a n = (Memory.read m a n).take o ++ bs ++ (Memory.read m a n).drop (o + bs.length) := by
  obtain ⟨r, rfl⟩ := Nat.exists_eq_add_of_le fits
  have before : Memory.read (Memory.write m (a + o) bs) a o = Memory.read m a o :=
    Memory.read_congr fun i hi => Memory.write_outside bs m (a + o) (a + i) (.inl (by omega))
  have behind : Memory.read (Memory.write m (a + o) bs) (a + o + bs.length) r = Memory.read m (a + o + bs.length) r :=
    Memory.read_congr fun i hi => Memory.write_outside bs m (a + o) _ (.inr (by omega))
  have length := Memory.read_length m a o
  have lengths : (Memory.read m a o ++ Memory.read m (a + o) bs.length).length = o + bs.length := by
    rw [List.length_append, length, Memory.read_length]
  rw [Memory.read_add, Memory.read_add, Memory.read_add, Memory.read_add, before, Memory.read_write bs h, ← Nat.add_assoc, behind,
    List.drop_left' lengths, List.append_assoc (Memory.read m a o) (Memory.read m (a + o) bs.length), List.take_left' length]

/-! ### A kettle's bytes -/

section
variable {s t : State} {h : W32}

/-- The two states have the same kettle stores. -/
def SameStores (s t : State) : Prop := ∀ q, (t.quire q).kettleStore = (s.quire q).kettleStore

theorem SameStores.kettles (same : SameStores s t) (q : Nat) : (t.quire q).kettles = (s.quire q).kettles := congrArg (·.1) (same q)
theorem SameStores.kettleBytes (same : SameStores s t) (h : W32) : t.kettleBytes h = s.kettleBytes h := by
  rw [State.kettleBytes, same.kettles]
  rfl
theorem SameStores.kettleAux (same : SameStores s t) (h : W32) : t.kettleAux h = s.kettleAux h := by
  have e : (t.quire (kettleQuire h)).kaux = _ := congrArg (·.2.1) (same (kettleQuire h))
  rw [State.kettleAux, e]
  rfl
theorem SameStores.badKettles (same : SameStores s t) (q : Nat) : (t.quire q).badKettles = (s.quire q).badKettles := congrArg (·.2.2) (same q)

theorem kettleBad_none (sound : (s.quire (kettleQuire h)).badKettles = []) (n : Nat) : s.kettleBad h n = none := by
  rw [State.kettleBad, sound]
  rfl

theorem kettlePut_wf {q : Nat} (wf : Memory.wf (s.quire q).kettles = true) (o : Nat) (bs : List Byte) :
    Memory.wf ((s.kettlePut h o bs).quire q).kettles = true := by
  unfold State.kettlePut
  by_cases hq : q = kettleQuire h
  · subst hq
    rw [State.quire_onQuire_same]
    exact Memory.write_wf bs wf _
  · rwa [State.quire_onQuire_ne _ _ _ _ hq]
theorem kettleBytes_kettlePut (wf : Memory.wf (s.quire (kettleQuire h)).kettles = true) {o : Nat} {bs : List Byte} (fits : o + bs.length ≤ 16) :
    (s.kettlePut h o bs).kettleBytes h = (s.kettleBytes h).take o ++ bs ++ (s.kettleBytes h).drop (o + bs.length) := by
  unfold State.kettlePut State.kettleBytes
  rw [State.quire_onQuire_same]
  exact Memory.read_write_inside wf _ o 16 fits
theorem kettleBytes_setKettleAux (a : KettleAux) : (s.setKettleAux h a).kettleBytes h = s.kettleBytes h := by
  unfold State.setKettleAux State.kettleBytes
  rw [State.quire_onQuire_same]
theorem kettleBytes_length (s : State) (h : W32) : (s.kettleBytes h).length = 16 := Memory.read_length ..

/-! ### A kettle's fields -/

theorem kCount_lt (s : State) (h : W32) : kCount (s.kettleBytes h) < 2 ^ 32 := by
  have lt := ofBytes_lt (((s.kettleBytes h).drop 0).take 4)
  rw [List.length_take, List.length_drop, kettleBytes_length] at lt
  exact lt
/-- A count written with other bytes behind it. -/
theorem kCount_append {m : Nat} (small : m < 2 ^ 32) (r : List Byte) : kCount (toBytes 4 m ++ r) = m := by
  have field : ((toBytes 4 m ++ r).drop 0).take 4 = toBytes 4 m := List.take_left' (toBytes_length ..)
  rw [kCount, fieldAt, field, ofBytes_toBytes]
  exact Nat.mod_eq_of_lt small
theorem kCount_put (wf : Memory.wf (s.quire (kettleQuire h)).kettles = true) {m : Nat} (small : m < 2 ^ 32) :
    kCount ((s.kettlePut h 0 (toBytes 4 m)).kettleBytes h) = m := by
  rw [kettleBytes_kettlePut wf (by rw [toBytes_length]; decide), List.take_zero, List.nil_append, kCount_append small]
/-- Writing a STATE byte leaves the count. -/
theorem kCount_putState (wf : Memory.wf (s.quire (kettleQuire h)).kettles = true) (b : Byte) :
    kCount ((s.kettlePut h 0xB [b]).kettleBytes h) = kCount (s.kettleBytes h) := by
  rw [kettleBytes_kettlePut wf (by simp)]
  have length := kettleBytes_length s h
  simp only [kCount, fieldAt, List.drop_zero]
  rw [List.append_assoc, List.take_append_of_le_length (by simp [length]), List.take_take]
  rfl
theorem kState_putState (wf : Memory.wf (s.quire (kettleQuire h)).kettles = true) (b : Byte) :
    kState ((s.kettlePut h 0xB [b]).kettleBytes h) = b := by
  rw [kettleBytes_kettlePut wf (by simp)]
  have length : ((s.kettleBytes h).take 0xB).length = 0xB := by simp [kettleBytes_length]
  simp [kState, length]

/-! ### Arming -/

theorem flushKettle_run (none : s.kops = []) (h : W32) : flushKettle h s = .ok ((), s) := by
  rw [flushKettle, M.bind_ok (M.get_run s), none]
  rfl
theorem kettleOperand_some {x : Word} (valid : hasV (x.extractLsb' 0 32) = true) (ok : kettleOk (x.extractLsb' 0 32) = true) :
    kettleOperand x s = .ok (some (x.extractLsb' 0 32), s) := by
  simp only [kettleOperand, valid, ok, Bool.not_true, Bool.false_eq_true, if_false, if_true, M.pure_run]
theorem kettleOperand_none {x : Word} (valid : hasV (x.extractLsb' 0 32) = false) : kettleOperand x s = .ok (none, s) := by
  simp only [kettleOperand, valid, Bool.not_false, if_true, M.pure_run]

/-- The kettle with the fields that arming writes. -/
def State.armed (s : State) (h : W32) (n x : Word) (home : Option Nat) (sc : Scope) : State :=
  let place := home.getD (if kettleQuire h = s.myQuire then qcoreOf s.cur else 0)
  let t := s.kettlePut h 0 (toBytes 4 n.toNat ++ toBytes 4 (x.extractLsb' 0 32).toNat ++ toBytes 2 place
    ++ [if home.isSome then 1 else 0, BitVec.ofNat 8 (1 + 4 * sc.code.toNat)])
  t.setKettleAux h { t.kettleAux h with widest := some sc }

theorem kinit_run {k a b : Reg} (ready : CtlReady s 0) (kops : s.kops = []) (home : Option Nat) (sc : Scope)
    (valid : hasV ((s.w k).extractLsb' 0 32) = true) (ok : kettleOk ((s.w k).extractLsb' 0 32) = true)
    (sound : (s.quire (kettleQuire ((s.w k).extractLsb' 0 32))).badKettles = [])
    (unarmed : (kState (s.kettleBytes ((s.w k).extractLsb' 0 32))).extractLsb' 0 2 ≠ 1#2)
    (low : 1 ≤ (s.w a).toNat) (high : (s.w a).toNat < 2 ^ 32)
    (cont : hasV ((s.w b).extractLsb' 0 32) = false ∨ folioOk ((s.w b).extractLsb' 0 32) = true) :
    kinit k a b home sc s = .ok ((), s.armed ((s.w k).extractLsb' 0 32) (s.w a) (s.w b) home sc) := by
  obtain ⟨hx, -, -, hp, -⟩ := ready
  have contOk : (!hasV ((s.w b).extractLsb' 0 32) || folioOk ((s.w b).extractLsb' 0 32)) = true := by
    rcases cont with h | h <;> simp [h]
  have range : (1 ≤ (s.w a).toNat && (s.w a).toNat < 2 ^ 32) = true := by
    simp only [low, high, decide_true, Bool.and_self]
  simp only [kinit, M.bind_run, controlOnly_run hx, barPhase_run hp, readW_run, kettleOperand_some valid ok, need_run, range, contOk, if_true,
    flushKettle_run kops, M.get_run, kettleBad_none sound, beq_eq_false_iff_ne.2 unarmed, Bool.false_eq_true, if_false, M.set_run, State.armed]
  cases home <;> rfl

theorem kettleBytes_armed (wf : Memory.wf (s.quire (kettleQuire h)).kettles = true) (n x : Word) (home : Option Nat) (sc : Scope) :
    (s.armed h n x home sc).kettleBytes h = armedBytes n x (home.getD (if kettleQuire h = s.myQuire then qcoreOf s.cur else 0))
      (if home.isSome then 1 else 0) sc (s.kettleBytes h) := by
  have cont : (x.extractLsb' 0 32).toNat = x.toNat % 2 ^ 32 := by simp [BitVec.extractLsb'_toNat]
  simp only [State.armed]
  rw [kettleBytes_setKettleAux, kettleBytes_kettlePut wf (by simp [toBytes_length]), cont]
  simp only [toBytes_length, List.length_append, List.length_cons, List.length_nil, List.take_zero, List.nil_append, armedBytes]
  cases home <;> rfl

/-! ### Sending an operation -/

theorem registersSame_sendKop (s : State) (h : W32) (op : KettleOp) : RegistersSame s (s.sendKop h op).advance := by
  obtain ⟨w, v, m, acc, bytes⟩ := registersSame_advance (s.sendKop h op)
  have sent : SameBytes s (s.sendKop h op) := sameBytes_of (fun _ => rfl) rfl rfl rfl
  exact ⟨w, v, m, acc, sent.trans bytes⟩

end

end Sys2Proof.Machine
end

section
/-! SUPPORT. Decrements of a kettle, the placement of what it fires, and the releases that come before
(01, R33; 06, R140, R149, R150, Table 6.4). -/

namespace Sys2Proof.Machine

section
variable {s t : State} {h : W32}

/-! ### Placement -/

/-- A pending task takes its place behind those of no greater PRI, and before those of a greater one. -/
theorem readyInsert_spec (p : Pending) (xs : List Pending) : ∃ l r, readyInsert p xs = l ++ p :: r ∧ xs = l ++ r ∧
    (∀ y, y ∈ l → y.pri ≤ p.pri) ∧ ∀ y, r.head? = some y → p.pri < y.pri := by
  induction xs with
  | nil => exact ⟨[], [], rfl, rfl, by simp, by simp⟩
  | cons x xs ih =>
    by_cases before : p.pri < x.pri
    · exact ⟨[], x :: xs, if_pos before, rfl, by simp, by simpa using before⟩
    · obtain ⟨l, r, inserted, split, below, above⟩ := ih
      refine ⟨x :: l, r, ?_, by rw [split]; rfl, ?_, above⟩
      · rw [readyInsert, if_neg before, inserted]
        rfl
      · simpa [Nat.not_lt.1 before] using below

theorem placeReady_ready (s : State) (n : Nat) (p : Pending) : ((s.placeReady n p).core n).ready = readyInsert p (s.core n).ready := by
  rw [State.placeReady, State.core_onCore_same]
  dsimp only
  split <;> rfl
theorem placeReady_next (s : State) (n m : Nat) (p : Pending) : ((s.placeReady n p).core m).next = (s.core m).next := by
  unfold State.placeReady
  by_cases hm : m = n
  · subst hm
    rw [State.core_onCore_same]
    dsimp only
    split <;> rfl
  · rw [State.core_onCore_ne _ _ _ _ hm]
theorem placeNext_next (s : State) (n : Nat) (p : Pending) : ((s.placeNext n p).core n).next = some p := by
  rw [State.placeNext, State.core_onCore_same]
/-- Placing a task changes nothing but cores. -/
theorem placeNext_rest (s : State) (n : Nat) (p : Pending) : s.placeNext n p = { s with cores := (s.placeNext n p).cores } := by
  unfold State.placeNext
  split <;> rfl

/-! ### General registers -/

/-- The same context issues, and no general register of any context differs. -/
structure KeepsW (s t : State) : Prop where
  cur : t.cur = s.cur
  ctx : t.ctx = s.ctx
  w : ∀ n (x : Fin 11), (t.core n).ctxs[x].w = (s.core n).ctxs[x].w

theorem KeepsW.trans {u : State} (h : KeepsW s t) (g : KeepsW t u) : KeepsW s u :=
  ⟨g.cur.trans h.cur, g.ctx.trans h.ctx, fun n x => (g.w n x).trans (h.w n x)⟩
theorem KeepsW.sameW (h : KeepsW s t) : SameW s t := by
  intro r
  simp only [State.w, State.myCtx, State.me, h.cur, h.ctx, h.w]
theorem OnlyWakes.keepsW (wakes : OnlyWakes s t) : KeepsW s t :=
  ⟨wakes.cur, wakes.ctx, fun n x => by rw [wakes.ctxs]⟩
theorem keepsW_onCore (s : State) (n : Nat) (f : Core → Core) (h : ∀ x : Fin 11, (f (s.core n)).ctxs[x].w = (s.core n).ctxs[x].w) :
    KeepsW s (s.onCore n f) := by
  refine ⟨rfl, rfl, fun m x => ?_⟩
  by_cases hm : m = n
  · subst hm
    rw [State.core_onCore_same, h]
  · rw [State.core_onCore_ne _ _ _ _ hm]
theorem keepsW_onQuire (s : State) (q : Nat) (f : Quire → Quire) : KeepsW s (s.onQuire q f) := ⟨rfl, rfl, fun _ _ => rfl⟩
theorem keepsW_placeReady (s : State) (n : Nat) (p : Pending) : KeepsW s (s.placeReady n p) := by
  refine keepsW_onCore _ _ _ fun x => ?_
  dsimp only
  split
  · simp only [Core.stir, Fin.getElem_fin, Vector.getElem_map]
    split <;> rfl
  · rfl
theorem keepsW_placeNext (s : State) (n : Nat) (p : Pending) : KeepsW s (s.placeNext n p) := by
  unfold State.placeNext
  split
  · exact (keepsW_placeReady ..).trans (keepsW_onCore _ _ _ fun _ => rfl)
  · exact keepsW_onCore _ _ _ fun _ => rfl

/-! ### The count -/

/-- The kettle is armed, with no uncorrectable byte and no hold. -/
structure Armed (s : State) (h : W32) : Prop where
  sound : (s.quire (kettleQuire h)).badKettles = []
  armed : kArmed (s.kettleBytes h) = true
  holds : (s.kettleAux h).holds = []

theorem Armed.of_same (good : Armed s h) (same : SameStores s t) : Armed t h :=
  ⟨by rw [same.badKettles, good.sound], by rw [same.kettleBytes, good.armed], by rw [same.kettleAux, good.holds]⟩

/-- The widest scope of the decrements that a kettle has had, one of the given scope among them. -/
def State.widest (s : State) (h : W32) (rel : Scope) : Scope :=
  Scope.wider ((s.kettleAux h).widest.getD ((jscOf (kState (s.kettleBytes h))).getD .core)) rel
/-- The kettle with its count lowered by one. -/
def State.lowered (s : State) (h : W32) (rel : Scope) : State :=
  (s.kettlePut h 0 (toBytes 4 (kCount (s.kettleBytes h) - 1))).setKettleAux h ⟨some (s.widest h rel), []⟩
/-- The kettle FIRED, with count 0. -/
def State.spent (s : State) (h : W32) : State :=
  (s.kettlePut h 0 (toBytes 4 0)).kettlePut h 0xB [(kState (s.kettleBytes h) &&& 0xFC) ||| 2]

theorem decrement_lowers (good : Armed s h) (more : 2 ≤ kCount (s.kettleBytes h)) (n : Nat) (by' : DecBy) (rel : Scope) :
    s.decrement h n by' rel [] = (s.lowered h rel, .done) := by
  have notZero : (!kArmed (s.kettleBytes h) || decide (kCount (s.kettleBytes h) = 0)) = false := by
    rw [good.armed, decide_eq_false (by omega)]
    rfl
  have notOne : kCount (s.kettleBytes h) ≠ 1 := by omega
  simp only [State.decrement, kettleBad_none good.sound, notZero, good.holds, mergeHolds, List.foldl_nil, List.length_nil, notOne,
    Bool.false_eq_true, if_false, Nat.not_lt_zero]
  rfl
theorem decrement_spends (good : Armed s h) (one : kCount (s.kettleBytes h) = 1) (n : Nat) (by' : DecBy) (rel : Scope) :
    s.decrement h n by' rel [] = ((s.spent h).fire h (s.kettleBytes h) n by' (s.widest h rel) [], .done) := by
  have notZero : (!kArmed (s.kettleBytes h) || decide (1 = 0)) = false := by
    rw [good.armed]
    rfl
  simp only [State.decrement, kettleBad_none good.sound, notZero, good.holds, mergeHolds, List.foldl_nil, List.length_nil, one,
    Bool.false_eq_true, if_false, if_true, Nat.not_lt_zero]
  rfl
theorem kaddAt_count (good : Armed s h) (wf : Memory.wf (s.quire (kettleQuire h)).kettles = true) (n m : Nat)
    (small : kCount (s.kettleBytes h) + m < 2 ^ 32) :
    kCount ((s.kaddAt h n m).kettleBytes h) = kCount (s.kettleBytes h) + m := by
  by_cases zero : m = 0
  · rw [State.kaddAt, if_pos zero, zero]
    rfl
  · have fits : (!kArmed (s.kettleBytes h) || decide (2 ^ 32 ≤ kCount (s.kettleBytes h) + m)) = false := by
      rw [good.armed, decide_eq_false (Nat.not_le.2 small)]
      rfl
    simp only [State.kaddAt, zero, kettleBad_none good.sound, fits, Bool.false_eq_true, if_false]
    exact kCount_put wf small

theorem kops_kaddAt (good : Armed s h) (n m : Nat) : (s.kaddAt h n m).kops = s.kops := by
  simp only [State.kaddAt, kettleBad_none good.sound]
  split
  · rfl
  · split <;> rfl
theorem kCount_lowered (wf : Memory.wf (s.quire (kettleQuire h)).kettles = true) (more : 1 ≤ kCount (s.kettleBytes h)) (rel : Scope) :
    kCount ((s.lowered h rel).kettleBytes h) + 1 = kCount (s.kettleBytes h) := by
  have small := kCount_lt s h
  rw [State.lowered, kettleBytes_setKettleAux, kCount_put wf (by omega)]
  omega
theorem keepsW_lowered (s : State) (h : W32) (rel : Scope) : KeepsW s (s.lowered h rel) := ⟨rfl, rfl, fun _ _ => rfl⟩
theorem keepsW_spent (s : State) (h : W32) : KeepsW s (s.spent h) := ⟨rfl, rfl, fun _ _ => rfl⟩

/-! ### Firing -/

/-- The kettle FIRED with count 0. -/
def Fired (t : State) (h : W32) : Prop := kCount (t.kettleBytes h) = 0 ∧ (kState (t.kettleBytes h)).extractLsb' 0 2 = 2#2

theorem fired_spent (wf : Memory.wf (s.quire (kettleQuire h)).kettles = true) : Fired (s.spent h) h := by
  have state : ∀ b : Byte, ((b &&& 0xFC) ||| 2).extractLsb' 0 2 = 2#2 := by decide
  have wf' := kettlePut_wf (h := h) wf 0 (toBytes 4 0)
  refine ⟨?_, ?_⟩
  · rw [State.spent, kCount_putState wf', kCount_put wf (by decide)]
  · rw [State.spent, kState_putState wf', state]
theorem Fired.of_bytes (fired : Fired s h) (same : t.kettleBytes h = s.kettleBytes h) : Fired t h := by
  rw [Fired, same]
  exact fired

/-- The task that a kettle fires. -/
def State.firedTask (s : State) (h : W32) (k : List Byte) (widest : Scope) : Pending :=
  { handle := kCont k, pri := fieldAt (s.folioBytes (folioCore (kCont k)) (folioOff (kCont k))) 0x18 4, acq := some widest
    home := if kHome k ≤ 95 then kettleQuire h * 96 + kHome k else folioCore (kCont k)
    holds := [], cont := true, launch := false, bad := false }

section
variable {k : List Byte} (mode : kMode k ≤ 1) (home : kHome k ≤ 95) (n : Nat) (by' : DecBy) (widest : Scope)
include mode home

/-- A kettle without a continuation places nothing. -/
theorem fire_nothing (valid : hasV (kCont k) = false) : s.fire h k n by' widest [] = s.setKettleAux h ⟨some widest, []⟩ := by
  simp [State.fire, mode, home, valid]
theorem fire_places (valid : hasV (kCont k) = true) (ok : folioOk (kCont k) = true) :
    let t := s.setKettleAux h ⟨some widest, []⟩
    s.fire h k n by' widest [] = if (t.firePlace h k n by').2 then t.placeNext (t.firePlace h k n by').1 (s.firedTask h k widest)
      else t.placeReady (t.firePlace h k n by').1 (s.firedTask h k widest) := by
  have good : (decide (kMode k ≤ 1) && (decide (kMode k = 0) || decide (kHome k ≤ 95))
      && (false || (folioOk (kCont k) && (decide (kHome k ≤ 95) || decide (by' ≠ .finish))))) = true := by
    simp [mode, home, ok]
  simp only [State.fire, good, valid, Bool.not_true, Bool.false_eq_true, if_false]
  rfl
theorem kettleBytes_fire (cont : hasV (kCont k) = false ∨ folioOk (kCont k) = true) :
    (s.fire h k n by' widest []).kettleBytes h = s.kettleBytes h := by
  have aux := kettleBytes_setKettleAux (s := s) (h := h) ⟨some widest, []⟩
  cases valid : hasV (kCont k) with
  | false => rw [fire_nothing mode home n by' widest valid, aux]
  | true =>
    rw [fire_places mode home n by' widest valid (cont.resolve_left (by simp [valid])), ← aux]
    split
    · rw [placeNext_rest]; rfl
    · rfl
theorem keepsW_fire (cont : hasV (kCont k) = false ∨ folioOk (kCont k) = true) : KeepsW s (s.fire h k n by' widest []) := by
  have aux : KeepsW s (s.setKettleAux h ⟨some widest, []⟩) := keepsW_onQuire ..
  cases valid : hasV (kCont k) with
  | false => rw [fire_nothing mode home n by' widest valid]; exact aux
  | true =>
    rw [fire_places mode home n by' widest valid (cont.resolve_left (by simp [valid]))]
    split
    · exact aux.trans (keepsW_placeNext ..)
    · exact aux.trans (keepsW_placeReady ..)
theorem kops_fire (cont : hasV (kCont k) = false ∨ folioOk (kCont k) = true) : (s.fire h k n by' widest []).kops = s.kops := by
  cases valid : hasV (kCont k) with
  | false => rw [fire_nothing mode home n by' widest valid]; rfl
  | true =>
    rw [fire_places mode home n by' widest valid (cont.resolve_left (by simp [valid]))]
    split
    · rw [placeNext_rest]; rfl
    · rfl

end

/-! ### Releases and publication with nothing on its way -/

theorem Core.map_deque_empty {c : Core} (empty : c.deque.h = []) (f : DqEntry → DqEntry) :
    { c with deque := { c.deque with h := c.deque.h.map f } } = c := by
  have kept : c.deque.h.map f = c.deque.h := by rw [empty]; rfl
  rw [kept]
/-- Publishing an empty deque changes nothing of the core. -/
theorem publish_empty (deque : s.me.deque.h = []) : publish s = .ok ((), s.setMe s.me) := by
  have none : s.unpublished s.cur = [] := by
    have e : (s.core s.cur).deque.h = [] := deque
    rw [State.unpublished, e]
    rfl
  have scope : stealRelease (s.pubScope s.cur) = .core := by
    rw [State.pubScope, none]
    rfl
  have core : release .core s = .ok ((), s) := rfl
  have noWake (t : State) (cs : List Nat) : t.wakeFirst cs 0 = t := by cases cs <;> rfl
  have same : s.published s.cur = s.setMe s.me := by
    simp only [State.published, none, List.length_nil, noWake]
    exact congrArg (s.setCore s.cur) (Core.map_deque_empty deque _)
  rw [publish, M.bind_ok (M.get_run s), scope, M.bind_ok core, M.modify_run, same]
theorem onlyWakes_setMe (s : State) : OnlyWakes s (s.setMe s.me) := by
  refine ⟨fun n => ?_, rfl, fun _ => rfl⟩
  by_cases hn : n = s.cur
  · rw [hn, State.setMe, State.core_setCore_same]; rfl
  · rw [State.setMe, State.core_setCore_ne _ _ _ _ hn]

/-- A release that the part makes for a core with nothing to drain, nothing held up and no peer to wait for. -/
theorem releaseFor_run {n : Nat} (sb : (s.core n).sb = []) (peers : (s.core n).peers = []) (hand : (s.core n).peerHand = none)
    (free : s.forwardsHeld (quireOf n) = false) (sc : Scope) : ∃ t, s.releaseFor n sc = some t ∧ OnlyWakes s t := by
  have done {t : State} (wakes : OnlyWakes s t) : t.peersDone n sc = some t := by
    have e := wakes.core n
    rw [State.peersDone, e]
    simp [peers, hand]
  have drained : s.drained n = some s := by rw [State.drained, sb]; rfl
  by_cases wide : 2 ≤ Scope.rank sc
  · have one : 1 ≤ Scope.rank sc := by omega
    refine ⟨s.cleanQuire (quireOf n), ?_, onlyWakes_cleanQuire ..⟩
    simp only [State.releaseFor, one, wide, if_true, drained, Option.bind_some, free, Bool.false_eq_true, if_false,
      done (onlyWakes_cleanQuire s (quireOf n))]
  · refine ⟨s, ?_, .refl s⟩
    by_cases one : 1 ≤ Scope.rank sc
    · simp only [State.releaseFor, one, wide, if_true, drained, Option.bind_some, if_false, done (.refl s)]
    · simp only [State.releaseFor, one, wide, Option.bind_some, if_false, done (.refl s)]

/-! ### The end of a task -/

/-- A core that has no task any more. -/
def Core.idled (c : Core) : Core :=
  { c.lost 0 with run := .seeking, hold := [], afterBar := false, rep := c.rep.filter fun r => r.recorded
                  ctxs := (c.lost 0).ctxs.set 0 { (c.lost 0).ctxs[0] with waiting := false, resv := none } }
theorem leaveTask_same (s : State) (n : Nat) : (s.leaveTask n).core n = (s.core n).idled := by
  have e := State.core_loseResv_same s ⟨n, 0⟩
  dsimp only at e
  rw [State.leaveTask, State.core_onCore_same, e]
  rfl
theorem leaveTask_ne (s : State) {n m : Nat} (hm : m ≠ n) : (s.leaveTask n).core m = s.core m := by
  rw [State.leaveTask, State.core_onCore_ne _ _ _ _ hm, State.core_loseResv_ne _ _ hm]
theorem leaveTask_kettleBytes (s : State) (n : Nat) (h : W32) : (s.leaveTask n).kettleBytes h = s.kettleBytes h := rfl
theorem leaveTask_placed (s : State) (n m : Nat) :
    ((s.leaveTask n).core m).next = (s.core m).next ∧ ((s.leaveTask n).core m).ready = (s.core m).ready := by
  by_cases hm : m = n
  · subst hm
    rw [leaveTask_same]
    exact ⟨rfl, rfl⟩
  · rw [leaveTask_ne _ hm]
    exact ⟨rfl, rfl⟩
theorem Core.idled_w (c : Core) (x : Fin 11) : c.idled.ctxs[x].w = c.ctxs[x].w := by
  by_cases hx : x = 0
  · subst hx
    simp [Core.idled, Core.lost, Ctx.loseResv, Ctx.forget]
  · have hv : (0 : Fin 11).val ≠ x.val := fun e => hx (Fin.ext e.symm)
    have hv' : 0 ≠ x.val := hv
    simp [Core.idled, Core.lost, Vector.getElem_set_ne, hv']
theorem keepsW_leaveTask (s : State) (n : Nat) : KeepsW s (s.leaveTask n) := by
  refine ⟨rfl, rfl, fun m x => ?_⟩
  by_cases hm : m = n
  · rw [hm, leaveTask_same, Core.idled_w]
  · rw [leaveTask_ne _ hm]
theorem leaveTask_ended (hx : s.ctx = 0) : (s.leaveTask s.cur).me.run = .seeking ∧ (s.leaveTask s.cur).myCtx.resv = none := by
  have me : (s.leaveTask s.cur).me = s.me.idled := leaveTask_same s s.cur
  have ctx : (s.leaveTask s.cur).ctx = 0 := hx
  simp only [State.myCtx, me, ctx]
  exact ⟨rfl, by simp [Core.idled]⟩

end

end Sys2Proof.Machine
end

section
/-! SUPPORT. Kettles: the instructions, the counts, and what a kettle fires (01, R33; 06, R144, R147 to R150; 13, R349). -/

namespace Sys2Proof.Machine

/-! ### The instructions -/

theorem kinit_armed {s : State} {k a b : Reg} {i : Instr} {home : Option Nat} {sc : Scope} (run : exec i s = M.run (kinit k a b home sc) s)
    (ready : CtlReady s 0) (wf : s.memWf) (kops : s.kops = [])
    (valid : hasV ((s.w k).extractLsb' 0 32) = true) (ok : kettleOk ((s.w k).extractLsb' 0 32) = true)
    (sound : (s.quire (kettleQuire ((s.w k).extractLsb' 0 32))).badKettles = [])
    (unarmed : (kState (s.kettleBytes ((s.w k).extractLsb' 0 32))).extractLsb' 0 2 ≠ 1#2)
    (low : 1 ≤ (s.w a).toNat) (high : (s.w a).toNat < 2 ^ 32)
    (cont : hasV ((s.w b).extractLsb' 0 32) = false ∨ folioOk ((s.w b).extractLsb' 0 32) = true) :
    ∃ t, exec i s = .next t ∧ WentOn s t ∧ SameW s t ∧
      t.kettleBytes ((s.w k).extractLsb' 0 32) = armedBytes (s.w a) (s.w b)
        (home.getD (if kettleQuire ((s.w k).extractLsb' 0 32) = s.myQuire then qcoreOf s.cur else 0))
        (if home.isSome then 1 else 0) sc (s.kettleBytes ((s.w k).extractLsb' 0 32)) := by
  obtain ⟨-, -, -, kettles⟩ := wf
  have stay := ready.2.2.1
  refine ⟨_, run.trans (M.run_ok (kinit_run ready kops home sc valid ok sound unarmed low high cont)), wentOn_advance _ _ stay rfl, fun r => ?_, ?_⟩
  · rw [State.w_advance]
    rfl
  · rw [← kettleBytes_armed (kettles _)]
    rfl

/-- An instruction that sends an operation sends it for a handle with V = 1, and nothing for one with V = 0. -/
theorem sent_clause {s : State} {i : Instr} {x : Word} {op : KettleOp} (run : exec i s = M.run (sendKettle x op) s) (ready : CtlReady s 0)
    (kops : s.kops = []) :
    let h := x.extractLsb' 0 32
    let way := if kettleQuire h = s.myQuire then none else some (s.startWay .request s.myQuire (kettleQuire h) 1)
    (hasV h = true → kettleOk h = true →
      ∃ t, exec i s = .next t ∧ t.kops = [⟨s.agent, h, op, way⟩] ∧ WentOn s t ∧ RegistersSame s t) ∧
    (hasV h = false → ∃ t, exec i s = .next t ∧ t.kops = [] ∧ WentOn s t ∧ RegistersSame s t) := by
  have stay := ready.2.2.1
  refine ⟨fun valid ok => ?_, fun valid => ?_⟩
  · have sent : sendKettle x op s = .ok ((), s.sendKop (x.extractLsb' 0 32) op) := by
      rw [sendKettle, M.bind_ok (kettleOperand_some valid ok)]
      rfl
    refine ⟨_, run.trans (M.run_ok sent), ?_, wentOn_advance _ _ stay rfl, registersSame_sendKop ..⟩
    show s.kops ++ _ = _
    rw [kops]
    rfl
  · have nothing : sendKettle x op s = .ok ((), s) := by
      rw [sendKettle, M.bind_ok (kettleOperand_none valid)]
      rfl
    exact ⟨_, run.trans (M.run_ok nothing), kops, wentOn_advance _ _ stay rfl, registersSame_advance s⟩

theorem claim_kettleInstructions : Claims.KettleInstructions := by
  intro s k a b home sc ready wf kops h n x old unarmed way sent
  have phase : barPhase s = .ok ((), s) := barPhase_run ready.2.2.2.1
  have kdec : exec (.kdec k) s = M.run (sendKettle (s.w k) .dec) s :=
    M.run_congr (by simp only [M.bind_run, phase, readW_run])
  have kadd : exec (.kadd k a) s = M.run (sendKettle (s.w k) (.add (n.extractLsb' 0 32))) s :=
    M.run_congr (by simp only [M.bind_run, phase, readW_run]; rfl)
  refine ⟨?_, ?_, sent_clause kdec ready kops, sent_clause kadd ready kops⟩
  · rintro ⟨valid, ok, sound, notArmed, low, high, cont⟩
    exact kinit_armed (home := none) rfl ready wf kops valid ok sound notArmed low high cont
  · rintro ⟨valid, ok, sound, notArmed, low, high, cont⟩ -
    exact kinit_armed (home := some home.toNat) rfl ready wf kops valid ok sound notArmed low high cont

/-! ### `sync` and the operations that have come to a kettle's quire -/

section
variable {s : State}

/-- With nothing of the core on its way, `sync` decrements its kettle behind a release that wakes contexts at most, and ends
its task. -/
theorem sync_run {k : Reg} (ready : CtlReady s 0) (pending : NothingPending s) (free : s.forwardsHeld s.myQuire = false)
    {h : W32} (operand : h = (s.w k).extractLsb' 0 32) (valid : hasV h = true) (ok : kettleOk h = true) :
    ∃ v sc, OnlyWakes s v ∧ ∀ d, v.decrement h v.cur .taskEnd sc [] = (d, .done) →
      exec (.sync k) s = .next (d.leaveTask d.cur) := by
  subst operand
  obtain ⟨hx, -, -, hp, -⟩ := ready
  obtain ⟨sb, deque, hold, peers, hand, -, kops⟩ := pending
  have published : publish s = .ok ((), s.setMe s.me) := publish_empty (by rw [deque])
  have wakes := onlyWakes_setMe s
  have beside : Beside s (s.setMe s.me) := rfl
  have me : (s.setMe s.me).me = s.me := State.core_setCore_same ..
  have noKops : (s.setMe s.me).kops = [] := kops
  generalize s.setMe s.me = p at published wakes beside me noKops
  have freeP : p.forwardsHeld p.myQuire = false := by
    rw [beside.forwardsHeld, State.myQuire, wakes.cur]
    exact free
  have handP : p.myCtx.hand = none := by rw [wakes.myCtx]; exact hand
  obtain ⟨v, released, clean⟩ := releaseLost_run (sc := p.decScope ((s.w k).extractLsb' 0 32) p.cur p.me.hold)
    (fun _ => ⟨me ▸ peers, handP⟩) (me ▸ sb) freeP
  have holdP : p.me.hold = [] := by rw [me, hold]
  have holdV : v.me.hold = [] := by rw [clean.me]; exact holdP
  refine ⟨v, p.decScope ((s.w k).extractLsb' 0 32) p.cur p.me.hold, wakes.trans clean, fun d done => M.run_done ?_⟩
  have release : release (p.decScope ((s.w k).extractLsb' 0 32) p.cur p.me.hold) p = .ok ((), v) := M.bind_ok released
  simp only [M.bind_run, controlOnly_run hx, barPhase_run hp, readW_run, kettleOperand_some valid ok, published, flushKettle_run noKops,
    M.get_run, release, holdV, done, M.set_run, endTask, M.modify_run, finish_run]

/-- The state without kettle operations on their way. -/
def State.sentOff (s : State) : State := { s with kops := [] }

variable {a : Agent} {h : W32} {op : KettleOp} {way : Option Transit} (index : s.turn.index = 0) (kops : s.kops = [⟨a, h, op, way⟩])
  (arrived : ∀ x, way = some x → s.arrived x = true)
include index kops arrived

/-- The one operation on its way, which has come to the kettle's quire, takes effect. -/
theorem kettleOperation_run {u : State} (effect : s.sentOff.kettleOp a.core h op = some u) :
    exec .kettleOperation s = .next u := by
  have first : s.kops[s.turn.index]? = some ⟨a, h, op, way⟩ := by rw [index, kops]; rfl
  have come : s.kopReady s.turn.index ⟨a, h, op, way⟩ = true := by
    rw [State.kopReady, index]
    cases way with
    | none => rfl
    | some x => exact arrived x rfl
  have rest : s.kops.eraseIdx s.turn.index = [] := by rw [index, kops]; rfl
  show execKettleOperation s = _
  have effect' : State.kettleOp { s with kops := [] } a.core h op = some u := effect
  simp only [execKettleOperation, first, come, rest, effect', Bool.not_true, Bool.false_eq_true, if_false, Option.getD_some]
theorem kettleOperation_dec (dec : op = .dec) (sb : (s.core a.core).sb = []) (peers : (s.core a.core).peers = [])
    (hand : (s.core a.core).peerHand = none) (free : s.forwardsHeld (quireOf a.core) = false) :
    ∃ v sc, OnlyWakes s.sentOff v ∧ exec .kettleOperation s = .next (v.decrement h a.core .kdec sc []).1 := by
  subst dec
  have beside : Beside s s.sentOff := rfl
  obtain ⟨v, released, wakes⟩ := releaseFor_run (s := s.sentOff) sb peers hand ((beside.forwardsHeld _).trans free)
    (s.sentOff.decScope h a.core [])
  refine ⟨v, s.sentOff.decScope h a.core [], wakes, kettleOperation_run index kops arrived ?_⟩
  simp only [State.kettleOp, released, Option.map_some]

end

theorem OnlyWakes.wf {s t : State} (wakes : OnlyWakes s t) (wf : s.memWf) (q : Nat) : Memory.wf (t.quire q).kettles = true := by
  obtain ⟨-, -, -, kettles⟩ := wf
  rw [SameStores.kettles wakes.store]
  exact kettles q

theorem claim_kettleCounts : Claims.KettleCounts := by
  intro s k a h g m way wf arrived good
  refine ⟨?_, ?_, ?_⟩
  · rintro ready pending free operand ⟨valid, ok, sound, armed, holds⟩ more
    obtain ⟨v, sc, wakes, run⟩ := sync_run ready pending free operand valid ok
    have same : SameStores s v := wakes.store
    have goodV : Armed v h := Armed.of_same ⟨sound, armed, holds⟩ same
    have moreV := more
    rw [← same.kettleBytes] at moreV
    have ended := leaveTask_ended (s := v.lowered h sc) (wakes.ctx.trans ready.1)
    refine ⟨_, run _ (decrement_lowers goodV moreV ..), ?_, ended.1, ended.2, ?_⟩
    · rw [leaveTask_kettleBytes, kCount_lowered (wakes.wf wf _) (by omega), same.kettleBytes]
    · exact ((wakes.keepsW.trans (keepsW_lowered ..)).trans (keepsW_leaveTask ..)).sameW
  · rintro index kops sb peers hand free ⟨valid, ok, sound, armed, holds⟩ more
    obtain ⟨v, sc, wakes, run⟩ := kettleOperation_dec index kops arrived rfl sb peers hand free
    have same : SameStores s v := wakes.store
    have goodV : Armed v g := Armed.of_same ⟨sound, armed, holds⟩ same
    rw [← same.kettleBytes] at more
    rw [decrement_lowers goodV more] at run
    refine ⟨_, run, (congrArg State.kops wakes.rest :), ?_⟩
    rw [kCount_lowered (OnlyWakes.wf wakes wf _) (by omega), same.kettleBytes]
  · rintro index kops ⟨valid, ok, sound, armed, holds⟩ small
    refine ⟨_, kettleOperation_run index kops arrived rfl, ?_, ?_⟩
    · exact kops_kaddAt (s := s.sentOff) (h := g) ⟨sound, armed, holds⟩ a.core m.toNat
    · exact kaddAt_count (s := s.sentOff) (h := g) ⟨sound, armed, holds⟩ (wf.2.2.2 _) a.core m.toNat small

/-! ### What a kettle fires -/

/-- The pending task that runs a continuation. -/
def RunsCont (s : State) (cont : W32) (p : Pending) : Prop :=
  p.handle = cont ∧ p.cont = true ∧ p.pri = fieldAt (s.folioBytes (folioCore cont) (folioOff cont)) 0x18 4 ∧ ∃ sc, p.acq = some sc
/-- The pending tasks of every core, and the scratchpads, are the same. -/
def SameTasks (s t : State) : Prop :=
  ∀ n, (t.core n).next = (s.core n).next ∧ (t.core n).ready = (s.core n).ready ∧ (t.core n).spad = (s.core n).spad

section
variable {s u : State} {h : W32} {k : List Byte}

theorem OnlyWakes.sameTasks (wakes : OnlyWakes s u) : SameTasks s u := by
  intro n
  rw [wakes.core n]
  exact ⟨rfl, rfl, rfl⟩
theorem runsCont_firedTask (same : SameTasks s u) (h : W32) (k : List Byte) (widest : Scope) : RunsCont s (kCont k) (u.firedTask h k widest) := by
  refine ⟨rfl, rfl, ?_, widest, rfl⟩
  simp only [State.firedTask, State.folioBytes, (same _).2.2]

variable (same : SameTasks s u) (mode : kMode k ≤ 1) (home : kHome k ≤ 95) (n : Nat) (widest : Scope)
include same mode home

theorem fire_next {by' : DecBy} (valid : hasV (kCont k) = true) (ok : folioOk (kCont k) = true) (n : Nat)
    (place : (u.setKettleAux h ⟨some widest, []⟩).firePlace h k n by' = (n, true)) :
    ∃ p, ((u.fire h k n by' widest []).core n).next = some p ∧ RunsCont s (kCont k) p := by
  refine ⟨u.firedTask h k widest, ?_, runsCont_firedTask same ..⟩
  rw [fire_places mode home n by' widest valid ok, place, if_pos rfl, placeNext_next]
theorem fire_listed {by' : DecBy} (valid : hasV (kCont k) = true) (ok : folioOk (kCont k) = true) (n m : Nat)
    (place : (u.setKettleAux h ⟨some widest, []⟩).firePlace h k n by' = (m, false)) :
    (∀ c, ((u.fire h k n by' widest []).core c).next = (s.core c).next) ∧
    ∃ p l r, RunsCont s (kCont k) p ∧ ((u.fire h k n by' widest []).core m).ready = l ++ p :: r ∧ (s.core m).ready = l ++ r ∧
      (∀ y, y ∈ l → y.pri ≤ p.pri) ∧ ∀ y, r.head? = some y → p.pri < y.pri := by
  obtain ⟨l, r, inserted, split, below, above⟩ := readyInsert_spec (u.firedTask h k widest) (s.core m).ready
  have placed : u.fire h k n by' widest [] = (u.setKettleAux h ⟨some widest, []⟩).placeReady m (u.firedTask h k widest) := by
    rw [fire_places mode home n by' widest valid ok, place]
    rfl
  have ready : ((u.setKettleAux h ⟨some widest, []⟩).core m).ready = (s.core m).ready := (same m).2.1
  refine ⟨fun c => ?_, u.firedTask h k widest, l, r, runsCont_firedTask same .., ?_, split, below, above⟩
  · rw [placed, placeReady_next]
    exact (same c).1
  · rw [placed, placeReady_ready, ready, inserted]
theorem fire_unplaced {by' : DecBy} (valid : hasV (kCont k) = false) (c : Nat) :
    ((u.fire h k n by' widest []).core c).next = (s.core c).next ∧ ((u.fire h k n by' widest []).core c).ready = (s.core c).ready := by
  rw [fire_nothing mode home n by' widest valid]
  exact ⟨(same c).1, (same c).2.1⟩

end

theorem firePlace_ready {s : State} {k : List Byte} (mode : kMode k = 1) (h : W32) (n : Nat) (by' : DecBy) :
    s.firePlace h k n by' = (kettleQuire h * 96 + kHome k, false) := by
  simp only [State.firePlace, mode, if_true]
theorem firePlace_taskEnd {s : State} {k : List Byte} (mode : kMode k = 0) (h : W32) (n : Nat) :
    s.firePlace h k n .taskEnd = (n, true) := by
  simp [State.firePlace, mode]
theorem firePlace_kdec {s : State} {k : List Byte} (mode : kMode k = 0) (h : W32) (n : Nat) :
    s.firePlace h k n .kdec = (n, (s.core n).next.isNone) := by
  simp [State.firePlace, mode]

/-- The kettle is FIRED after the firing, as it stood before its continuation was placed. -/
theorem fired_fire {s : State} {h : W32} (wf : Memory.wf (s.quire (kettleQuire h)).kettles = true) {k : List Byte} (mode : kMode k ≤ 1)
    (home : kHome k ≤ 95) (cont : hasV (kCont k) = false ∨ folioOk (kCont k) = true) (n : Nat) (by' : DecBy) (widest : Scope) :
    Fired ((s.spent h).fire h k n by' widest []) h :=
  (fired_spent wf).of_bytes (kettleBytes_fire mode home n by' widest cont)

theorem claim_kettleFires : Claims.KettleFires := by
  intro s k c x h way wf arrived old cont home last bySync byDec fired task next listed
  refine ⟨?_, ?_⟩
  · rintro ⟨ready, pending, free, operand, valid, ok, sound, armed, holds, one, homeOk, modeOk, contOk⟩
    obtain ⟨v, sc, wakes, run⟩ := sync_run ready pending free operand valid ok
    have same : SameStores s v := wakes.store
    have bytes := same.kettleBytes h
    have decremented := decrement_spends (Armed.of_same ⟨sound, armed, holds⟩ same) (bytes ▸ one) v.cur .taskEnd sc
    rw [bytes] at decremented
    generalize v.widest h sc = widest at decremented
    have tasks : SameTasks s (v.spent h) := wakes.sameTasks
    have keeps := (wakes.keepsW.trans (keepsW_spent v h)).trans
      (keepsW_fire (h := h) modeOk homeOk v.cur .taskEnd widest contOk)
    have ended := leaveTask_ended (keeps.ctx.trans ready.1)
    have isFired := fired_fire (h := h) (wakes.wf wf _) modeOk homeOk contOk v.cur .taskEnd widest
    refine ⟨_, run _ decremented, isFired.of_bytes (leaveTask_kettleBytes ..), ended.1, (keeps.trans (keepsW_leaveTask ..)).sameW, ?_, ?_, ?_⟩
    · intro valid mode
      obtain ⟨p, isNext, runs⟩ := fire_next tasks modeOk homeOk widest valid (contOk.resolve_left (by simp [valid])) v.cur
        (firePlace_taskEnd mode ..)
      refine ⟨p, ?_, runs⟩
      rw [(leaveTask_placed ..).1, ← wakes.cur, isNext]
    · intro valid mode
      obtain ⟨-, p, l, r, runs, isListed⟩ := fire_listed tasks modeOk homeOk widest valid (contOk.resolve_left (by simp [valid])) v.cur _
        (firePlace_ready (by' := .taskEnd) mode ..)
      refine ⟨p, l, r, runs, ?_⟩
      rw [(leaveTask_placed ..).2]
      exact isListed
    · intro valid n
      rw [(leaveTask_placed ..).1, (leaveTask_placed ..).2]
      exact fire_unplaced tasks modeOk homeOk v.cur widest valid n
  · rintro ⟨index, kops, sb, peers, hand, free, valid, ok, sound, armed, holds, one, homeOk, modeOk, contOk⟩
    obtain ⟨v, sc, wakes, run⟩ := kettleOperation_dec index kops arrived rfl sb peers hand free
    have same : SameStores s v := wakes.store
    have bytes := same.kettleBytes h
    rw [decrement_spends (Armed.of_same ⟨sound, armed, holds⟩ same) (bytes ▸ one), bytes] at run
    generalize v.widest h sc = widest at run
    have tasks : SameTasks s (v.spent h) := wakes.sameTasks
    have noKops : (v.spent h).kops = [] := (congrArg State.kops wakes.rest :)
    refine ⟨_, run, fired_fire (OnlyWakes.wf wakes wf _) modeOk homeOk contOk .., (kops_fire modeOk homeOk _ _ _ contOk).trans noKops, ?_, ?_, ?_, ?_⟩
    · intro valid mode none
      refine fire_next tasks modeOk homeOk widest valid (contOk.resolve_left (by simp [valid])) c ?_
      have free : ((v.spent h).core c).next = Option.none := (tasks c).1.trans none
      exact (firePlace_kdec mode ..).trans (congrArg (fun o : Option Pending => (c, o.isNone)) free)
    · intro valid mode some
      have taken : ((v.spent h).core c).next.isNone = false := by
        rw [(tasks c).1]
        exact Option.isNone_eq_false_iff.2 (Option.isSome_iff_ne_none.2 some)
      obtain ⟨kept, isListed⟩ := fire_listed tasks modeOk homeOk widest valid (contOk.resolve_left (by simp [valid])) c c
        ((firePlace_kdec mode ..).trans (congrArg (Prod.mk c) taken))
      exact ⟨kept c, isListed⟩
    · intro valid mode
      exact (fire_listed tasks modeOk homeOk widest valid (contOk.resolve_left (by simp [valid])) c _ (firePlace_ready mode ..)).2
    · exact fun valid => fire_unplaced tasks modeOk homeOk c widest valid

/-- Settles O40: a decrement comes behind a release that wakes contexts at most and touches no kettle; what it writes are the
count, the STATE byte and, where it fires, one place for the continuation. -/
theorem kettles : Obligations.Kettles := ⟨claim_kettleInstructions, claim_kettleCounts, claim_kettleFires⟩

end Sys2Proof.Machine
end

section
/-! SUPPORT. Stores and loads at physical addresses where no cache holds a line (12, R317, R334, R335), and the bytes of an
area that does not cross a multiple of 64 KiB. -/

namespace Sys2Proof.Machine

/-! ### A run of bytes laid over others -/

/-- The bytes `g` are the bytes `f` with a run laid over them from `a` on. -/
def Laid (f g : Nat → Byte) (a : Nat) (bs : List Byte) : Prop :=
  ∀ x, g x = if a ≤ x ∧ x < a + bs.length then bs.getD (x - a) 0 else f x

theorem laid_nil (f : Nat → Byte) (a : Nat) : Laid f f a [] := fun x => by
  rw [if_neg]
  simp only [List.length_nil]
  omega
theorem Laid.append {f g h : Nat → Byte} {a : Nat} {xs ys : List Byte} (first : Laid f g a xs) (second : Laid g h (a + xs.length) ys) :
    Laid f h a (xs ++ ys) := by
  intro x
  rw [second x, first x, List.length_append]
  by_cases inSecond : a + xs.length ≤ x ∧ x < a + xs.length + ys.length
  · have place : x - a - xs.length = x - (a + xs.length) := by omega
    rw [if_pos inSecond, if_pos (by omega), List.getD_append_right _ _ _ _ (by omega), place]
  · by_cases inFirst : a ≤ x ∧ x < a + xs.length
    · rw [if_neg inSecond, if_pos inFirst, if_pos (by omega), List.getD_append _ _ _ _ (by omega)]
    · rw [if_neg inSecond, if_neg inFirst, if_neg (by omega)]
theorem Laid.outside {f g : Nat → Byte} {a x : Nat} {bs : List Byte} (h : Laid f g a bs) (out : x < a ∨ a + bs.length ≤ x) : g x = f x := by
  rw [h x, if_neg (by omega)]
theorem Laid.inside {f g : Nat → Byte} {a i : Nat} {bs : List Byte} (h : Laid f g a bs) (hi : i < bs.length) : g (a + i) = bs.getD i 0 := by
  rw [h, if_pos (by omega), Nat.add_sub_cancel_left]

theorem laid_write {m : Memory} (wf : Memory.wf m = true) (a : Nat) (bs : List Byte) :
    Laid (Memory.get m) (Memory.get (Memory.write m a bs)) a bs := by
  intro x
  split
  · rename_i inside
    have e := Memory.get_write_inside wf a (bs := bs) (i := x - a) (by omega)
    rwa [Nat.add_sub_cancel' inside.1] at e
  · exact Memory.write_outside bs m a x (by omega)

/-! ### States without cached lines -/

/-- No cache holds a line, and no quire forwards a store. -/
def Cold (s : State) : Prop := ∀ q, (s.quire q).lines = [] ∧ (s.quire q).slices = [] ∧ (s.quire q).forwards = []
/-- Only wakes, and no quire differs. -/
structure OnlyHbm (s t : State) : Prop where
  wakes : OnlyWakes s t
  quires : t.quires = s.quires

theorem OnlyHbm.refl (s : State) : OnlyHbm s s := ⟨.refl s, rfl⟩
theorem OnlyHbm.trans {s t u : State} (h : OnlyHbm s t) (g : OnlyHbm t u) : OnlyHbm s u :=
  ⟨h.wakes.trans g.wakes, g.quires.trans h.quires⟩
theorem Cold.of_quires {s t : State} (cold : Cold s) (h : t.quires = s.quires) : Cold t := by
  intro q
  rw [State.quire, h]
  exact cold q

section
variable {s : State} (cold : Cold s)
include cold

theorem sweepLines_cold (q : Nat) (p : Line → Bool) (sel : Line → Nat → Bool) (f : Line → Option Line) : s.sweepLines q p sel f = s := by
  simp only [State.sweepLines, (cold q).1]
  rfl
theorem recallOwned_cold (h : Nat) (keep : Option Nat) (pa n : Nat) : s.recallOwned h keep pa n = s := by
  have each (xs : List (Nat × Quire)) (f : Nat × Quire → Line → Bool) (g : Line → Nat → Bool) (k : Line → Option Line) :
      xs.foldl (fun t x => if some x.1 = keep then t else t.sweepLines x.1 (f x) g k) s = s := by
    induction xs with
    | nil => rfl
    | cons x r ih =>
      rw [List.foldl_cons, sweepLines_cold cold, ite_self, ih]
  unfold State.recallOwned
  split
  · rfl
  · exact each s.quires (fun _ l => l.ownsAny pa n) _ _
theorem cleanQuire_cold (q : Nat) : s.cleanQuire q = s := by
  have flushed : s.flush q = s := by
    rw [State.flush, (cold q).2.2]
    rfl
  rw [State.cleanQuire, flushed]
  exact sweepLines_cold cold ..
theorem homeLine_cold (h pa : Nat) : s.homeLine h pa = none := by
  unfold State.homeLine
  split
  · rw [Quire.homeLine, (cold _).2.1]
    rfl
  · rfl
theorem sliceStore_cold (h a pa : Nat) (bs : List StoreByte) : s.sliceStore h a pa bs false = s.putHbm pa bs := by
  unfold State.sliceStore
  split
  · rfl
  · rename_i q _ r _ _
    have none : (s.quire q).homeLine h a = none := by
      rw [Quire.homeLine, (cold q).2.1]
      rfl
    simp only [Bool.false_and, Bool.false_eq_true, if_false, none]
theorem hurtHome_cold (h d : Nat) : OnlyHbm s (s.hurtHome h d) ∧ (s.hurtHome h d).hbm = s.hbm := by
  refine ⟨⟨(sameCores_hurtHome s h d).onlyWakes, ?_⟩, ?_⟩
  all_goals
    unfold State.hurtHome
    split
    · rename_i q _ _ _ _
      have none : (s.quire q).homeLine h (8 * d) = none := by
        rw [Quire.homeLine, (cold q).2.1]
        rfl
      rw [none]
    · rfl

end

theorem carryBad_cold {s : State} (cold : Cold s) (c : Core) (off n pa : Nat) :
    OnlyHbm s (s.carryBad c off n pa) ∧ (s.carryBad c off n pa).hbm = s.hbm := by
  unfold State.carryBad
  generalize c.bad.filter _ = ds
  induction ds generalizing s with
  | nil => exact ⟨.refl s, rfl⟩
  | cons d r ih =>
    rw [List.foldl_cons]
    cases canonical (pa + d * 8 - off) with
    | none => exact ih cold
    | some a =>
      obtain ⟨only, hbm⟩ := hurtHome_cold cold 0 (a / 8)
      obtain ⟨only', hbm'⟩ := ih (cold.of_quires only.quires)
      exact ⟨only.trans only', hbm'.trans hbm⟩

/-! ### A store at its home -/

theorem storeBytes_take (bs : List Byte) (n : Nat) : (storeBytes bs).take n = storeBytes (bs.take n) := by
  simp [storeBytes, List.map_take]
theorem storeBytes_drop (bs : List Byte) (n : Nat) : (storeBytes bs).drop n = storeBytes (bs.drop n) := by
  simp [storeBytes, List.map_drop]
/-- The part of a run that 64 bytes from `b` on cover. -/
theorem cutRun_storeBytes {a b : Nat} (bs : List Byte) :
    cutRun a (storeBytes bs) b 64 = (a + (b - a), storeBytes ((bs.drop (b - a)).take (b + 64 - a - (b - a)))) := by
  unfold cutRun
  split
  · have zero : b - a = 0 := by omega
    rw [storeBytes_take, zero, List.drop_zero, Nat.sub_zero]
    rfl
  · rename_i later
    have span : b + 64 - a - (b - a) = 64 := by omega
    rw [storeBytes_drop, storeBytes_take, span]
    congr 1
    omega

/-- The first lines of a run of bytes take their part of it. -/
def State.putLines (s : State) (a : Nat) (bs : List Byte) (n : Nat) : State :=
  (List.range n).foldl (fun t i => t.putHbm (cutRun a (storeBytes bs) ((a / 64 + i) * 64) 64).1
    (cutRun a (storeBytes bs) ((a / 64 + i) * 64) 64).2) s
theorem putLines_succ (s : State) (a : Nat) (bs : List Byte) (n : Nat) :
    s.putLines a bs (n + 1) = (s.putLines a bs n).putHbm (cutRun a (storeBytes bs) ((a / 64 + n) * 64) 64).1
      (cutRun a (storeBytes bs) ((a / 64 + n) * 64) 64).2 := by
  rw [State.putLines, List.range_succ, List.foldl_append]
  rfl
theorem onlyHbm_putLines (s : State) (a : Nat) (bs : List Byte) (n : Nat) : OnlyHbm s (s.putLines a bs n) := by
  induction n with
  | zero => exact .refl s
  | succ n ih =>
    rw [putLines_succ]
    exact ih.trans ⟨(sameCores_putHbm ..).onlyWakes, rfl⟩
theorem putLines_laid {s : State} (wf : Memory.wf s.hbm = true) (a : Nat) (bs : List Byte) (n : Nat) :
    Memory.wf (s.putLines a bs n).hbm = true ∧
      Laid (Memory.get s.hbm) (Memory.get (s.putLines a bs n).hbm) a (bs.take ((a / 64 + n) * 64 - a)) := by
  induction n with
  | zero =>
    have zero : (a / 64 + 0) * 64 - a = 0 := by omega
    rw [zero, List.take_zero]
    exact ⟨wf, laid_nil (Memory.get s.hbm) a⟩
  | succ n ih =>
    obtain ⟨wf', laid⟩ := ih
    rw [putLines_succ, cutRun_storeBytes]
    refine ⟨Memory.merge_wf _ wf' _, ?_⟩
    have next : (a / 64 + (n + 1)) * 64 - a = ((a / 64 + n) * 64 - a) + ((a / 64 + n) * 64 + 64 - a - ((a / 64 + n) * 64 - a)) := by omega
    rw [next, List.take_add]
    show Laid _ (Memory.get (Memory.merge _ _ (storeBytes _))) _ _
    rw [Memory.merge_storeBytes]
    by_cases reached : (a / 64 + n) * 64 - a ≤ bs.length
    · have length : (bs.take ((a / 64 + n) * 64 - a)).length = (a / 64 + n) * 64 - a := List.length_take_of_le reached
      exact laid.append (by rw [length]; exact laid_write wf' _ _)
    · rw [List.drop_eq_nil_of_le (by omega), List.take_nil, List.append_nil]
      exact laid

theorem onlyHbm_recallHost (s : State) (h pa n : Nat) : OnlyHbm s (s.recallHost h pa n) ∧ (s.recallHost h pa n).hbm = s.hbm := by
  refine ⟨⟨(sameCores_recallHost ..).onlyWakes, ?_⟩, ?_⟩
  all_goals
    simp only [State.recallHost]
    split
    · split <;> rfl
    · rfl
theorem onlyHbm_wakeWatches (s : State) (hit : Place → Bool) (a : Option Agent) :
    OnlyHbm s (s.wakeWatches hit a) ∧ (s.wakeWatches hit a).hbm = s.hbm := by
  have folded (ws : List Watch) (v : State) : let t := ws.foldl (fun t w => t.onCore w.agent.core fun c =>
      { c with ctxs := c.ctxs.set w.agent.ctx { c.ctxs[w.agent.ctx] with woken := true } }) v
      t.quires = v.quires ∧ t.hbm = v.hbm := by
    induction ws generalizing v with
    | nil => exact ⟨rfl, rfl⟩
    | cons w r ih => exact ih _
  exact ⟨⟨onlyWakes_wakeWatches .., (folded _ _).1⟩, (folded _ _).2⟩
/-- The lines of a run take their parts of it one after the other. -/
theorem putLines_eq {s : State} (cold : Cold s) (a : Nat) (bs : List Byte) (n : Nat) :
    (List.range n).foldl (fun t i => t.sliceStore 0 ((a / 64 + i) * 64) (cutRun a (storeBytes bs) ((a / 64 + i) * 64) 64).1
      (cutRun a (storeBytes bs) ((a / 64 + i) * 64) 64).2 false) s = s.putLines a bs n := by
  induction n with
  | zero => rfl
  | succ n ih =>
    rw [List.range_succ, List.foldl_append, ih, putLines_succ]
    exact sliceStore_cold (cold.of_quires (onlyHbm_putLines s a bs n).quires) 0 _ _ _

theorem homeStore_cold {s : State} (cold : Cold s) (wf : Memory.wf s.hbm = true) (a : Nat) (bs : List Byte) :
    let t := s.homeStore 0 none a (storeBytes bs) false
    OnlyHbm s t ∧ Memory.wf t.hbm = true ∧ Laid (Memory.get s.hbm) (Memory.get t.hbm) a bs := by
  have length : (storeBytes bs).length = bs.length := by simp [storeBytes]
  have all : bs.take ((a / 64 + (a % 64 + bs.length + 64 - 1) / 64) * 64 - a) = bs := List.take_of_length_le (by omega)
  simp only [State.homeStore, lineBases, List.foldl_map, length]
  obtain ⟨only, hbm⟩ := onlyHbm_recallHost s 0 a bs.length
  have coldR := cold.of_quires only.quires
  generalize s.recallHost 0 a bs.length = r at only hbm coldR
  rw [← hbm] at wf ⊢
  rw [putLines_eq coldR]
  obtain ⟨wf', laid⟩ := putLines_laid wf a bs ((a % 64 + bs.length + 64 - 1) / 64)
  rw [all] at laid
  have onlyP := onlyHbm_putLines r a bs ((a % 64 + bs.length + 64 - 1) / 64)
  generalize r.putLines a bs ((a % 64 + bs.length + 64 - 1) / 64) = u at wf' laid onlyP
  refine ⟨(only.trans onlyP).trans (onlyHbm_wakeWatches u _ none).1, ?_, ?_⟩
  · rw [(onlyHbm_wakeWatches u _ none).2]
    exact wf'
  · rw [(onlyHbm_wakeWatches u _ none).2]
    exact laid

/-! ### An area of 64 KiB -/

/-- The canonical addresses of an area of 64 KiB at a physical address: pages of 4 KiB, no two alike. -/
structure AreaAt (pa : Nat) (place : Nat → Nat) : Prop where
  aligned : pa % 65536 = 0
  canonical : ∀ i, i < 65536 → canonical (pa + i) = some (place i)
  page : ∀ i, place i = place (i / 4096 * 4096) + i % 4096
  inj : ∀ i j, place i = place j → i = j

theorem canonical_low {p : Nat} (low : p < 0x6000000000) : canonical p = some p := if_pos low
theorem canonical_high {p : Nat} (high : 0x200000000000 ≤ p) (stack : (p - 0x200000000000) / 0x1000000000 < 8)
    (inside : (p - 0x200000000000) % 0x1000000000 < 0xC00000000) : canonical p =
      some ((p - 0x200000000000) % 0x1000000000 / 0x8000 * 0x40000 + (p - 0x200000000000) / 0x1000000000 / 2 * 0x10000
        + (p - 0x200000000000) % 0x1000000000 / 0x1000 % 8 * 0x2000 + (p - 0x200000000000) / 0x1000000000 % 2 * 0x1000
        + (p - 0x200000000000) % 0x1000000000 % 0x1000) := by
  have notLow : ¬p < 0x6000000000 := by omega
  have notGap : ¬p < 0x200000000000 := by omega
  simp only [canonical, notLow, notGap, if_false, stack, inside, decide_true, Bool.and_self, if_true]
/-- An address has a canonical one where it lies in the interleaved view or in that of a stack. -/
theorem canonical_isSome {p : Nat} (h : (canonical p).isSome) : p < 0x6000000000 ∨
    0x200000000000 ≤ p ∧ (p - 0x200000000000) / 0x1000000000 < 8 ∧ (p - 0x200000000000) % 0x1000000000 < 0xC00000000 := by
  by_cases low : p < 0x6000000000
  · exact .inl low
  · by_cases gap : p < 0x200000000000
    · simp only [canonical, low, gap, if_false, if_true] at h
      exact absurd h Bool.false_ne_true
    · by_cases inside : (p - 0x200000000000) / 0x1000000000 < 8 ∧ (p - 0x200000000000) % 0x1000000000 < 0xC00000000
      · exact .inr ⟨Nat.not_lt.1 gap, inside⟩
      · simp only [canonical, low, gap, if_false, Bool.and_eq_true, decide_eq_true_eq, inside] at h
        exact absurd h Bool.false_ne_true
/-- The place of the byte at offset `i` of an area from offset `off` of stack `st` on. -/
def stackPlace (st off i : Nat) : Nat :=
  off / 0x8000 * 0x40000 + st / 2 * 0x10000 + st % 2 * 0x1000 + i / 0x8000 * 0x40000 + i / 0x1000 % 8 * 0x2000 + i % 0x1000

theorem exists_areaAt {a : Word} (ok : saveAddrOk (some a) = true) : ∃ place, AreaAt a.toNat place := by
  simp only [saveAddrOk, Bool.and_eq_true, decide_eq_true_eq] at ok
  obtain ⟨aligned, isSome⟩ := ok
  generalize a.toNat = pa at aligned isSome
  rcases canonical_isSome isSome with low | ⟨high, stack, inside⟩
  · refine ⟨fun i => pa + i, aligned, fun i hi => canonical_low (by omega), fun i => ?_, fun i j e => ?_⟩
    · show pa + i = pa + i / 4096 * 4096 + i % 4096
      omega
    · exact Nat.add_left_cancel e
  · refine ⟨stackPlace ((pa - 0x200000000000) / 0x1000000000) ((pa - 0x200000000000) % 0x1000000000), aligned, fun i hi => ?_, fun i => ?_, fun i j e => ?_⟩
    · have same : (pa + i - 0x200000000000) / 0x1000000000 = (pa - 0x200000000000) / 0x1000000000 := by omega
      have moved : (pa + i - 0x200000000000) % 0x1000000000 = (pa - 0x200000000000) % 0x1000000000 + i := by omega
      have within : (pa - 0x200000000000) % 0x1000000000 + i < 0xC00000000 := by omega
      have place := canonical_high (p := pa + i) (Nat.le_add_right_of_le high) (same.trans_lt stack) (moved.trans_lt within)
      rw [same, moved] at place
      refine place.trans (congrArg some ?_)
      unfold stackPlace
      omega
    · unfold stackPlace
      omega
    · unfold stackPlace at e
      omega

/-- The byte at an offset of an area. -/
def State.areaByte (s : State) (place : Nat → Nat) (i : Nat) : Byte := Memory.get s.hbm (place i)

section
variable {pa : Nat} {place : Nat → Nat} (area : AreaAt pa place)
include area

theorem AreaAt.same_page {o d : Nat} (h : o % 4096 + d < 4096) : place (o + d) = place o + d := by
  have page : (o + d) / 4096 = o / 4096 := by omega
  rw [area.page (o + d), area.page o, page]
  omega
/-- What is laid over a page lies so in the area. -/
theorem AreaAt.laid {m m' : Memory} {o : Nat} {bs : List Byte} (h : Laid (Memory.get m) (Memory.get m') (place o) bs)
    (fits : o % 4096 + bs.length ≤ 4096) : Laid (fun i => Memory.get m (place i)) (fun i => Memory.get m' (place i)) o bs := by
  intro x
  dsimp only
  by_cases inside : o ≤ x ∧ x < o + bs.length
  · obtain ⟨d, rfl⟩ := Nat.exists_eq_add_of_le inside.1
    rw [if_pos inside, area.same_page (by omega), h.inside (by omega), Nat.add_sub_cancel_left]
  · rw [if_neg inside]
    refine h.outside ?_
    by_contra hit
    have e := area.same_page (o := o) (d := place x - place o) (by omega)
    rw [Nat.add_sub_cancel' (by omega)] at e
    have := area.inj _ _ e
    omega

/-- A store into the area. -/
theorem physStore_cold {s : State} (cold : Cold s) (wf : Memory.wf s.hbm = true) {o : Nat} {bs : List Byte} (fits : o + bs.length ≤ 65536)
    {n : Nat} (fuel : o % 4096 + bs.length ≤ n * 4096) :
    let t := s.physStore (pa + o) bs n
    OnlyHbm s t ∧ Memory.wf t.hbm = true ∧ Laid (s.areaByte place) (t.areaByte place) o bs := by
  induction n generalizing s o bs with
  | zero =>
    have none : bs = [] := List.length_eq_zero_iff.1 (by omega)
    subst none
    exact ⟨.refl s, wf, laid_nil _ _⟩
  | succ n ih =>
    unfold State.physStore
    by_cases none : bs = []
    · subst none
      exact ⟨.refl s, wf, laid_nil _ _⟩
    · have some : bs.isEmpty = false := List.isEmpty_eq_false_iff.2 none
      have positive : 0 < bs.length := List.length_pos_iff.2 none
      have offset : (pa + o) % 4096 = o % 4096 := by have := area.aligned; omega
      simp only [some, Bool.false_eq_true, if_false, offset, area.canonical o (by omega), State.uncStore, recallOwned_cold cold]
      obtain ⟨only, wf', laid⟩ := homeStore_cold cold wf (place o) (bs.take (4096 - o % 4096))
      have short : (bs.take (4096 - o % 4096)).length ≤ 4096 - o % 4096 := List.length_take_le ..
      have first : Laid (s.areaByte place) (State.areaByte (s.homeStore 0 Option.none (place o) (storeBytes (bs.take (4096 - o % 4096))) false) place)
          o (bs.take (4096 - o % 4096)) := area.laid laid (by omega)
      generalize s.homeStore 0 Option.none (place o) (storeBytes (bs.take (4096 - o % 4096))) false = t at only wf' first
      have place' : pa + o + (4096 - o % 4096) = pa + (o + (4096 - o % 4096)) := by omega
      rw [place']
      by_cases long : 4096 - o % 4096 ≤ bs.length
      · have length : (bs.take (4096 - o % 4096)).length = 4096 - o % 4096 := List.length_take_of_le long
        have left : (bs.drop (4096 - o % 4096)).length = bs.length - (4096 - o % 4096) := List.length_drop ..
        obtain ⟨only', wf'', second⟩ := ih (cold.of_quires only.quires) wf' (o := o + (4096 - o % 4096)) (bs := bs.drop (4096 - o % 4096))
          (by omega) (by omega)
        refine ⟨only.trans only', wf'', ?_⟩
        have whole := first.append (ys := bs.drop (4096 - o % 4096)) (by rw [length]; exact second)
        rwa [List.take_append_drop] at whole
      · have rest : bs.drop (4096 - o % 4096) = [] := List.drop_eq_nil_of_le (by omega)
        have all : bs.take (4096 - o % 4096) = bs := List.take_of_length_le (by omega)
        rw [rest]
        rw [all] at first
        cases n <;> exact ⟨only, wf', first⟩

/-- A load of the area. -/
theorem physLoad_cold {s : State} (cold : Cold s) {o len : Nat} (fits : o + len ≤ 65536) {n : Nat}
    (fuel : len = 0 ∨ o % 4096 + len ≤ n * 4096) :
    s.physLoad (pa + o) len n = (s, (List.range len).map fun i => s.areaByte place (o + i)) := by
  induction n generalizing o len with
  | zero =>
    have none : len = 0 := by omega
    subst none
    rfl
  | succ n ih =>
    unfold State.physLoad
    by_cases none : len = 0
    · subst none
      rfl
    · have offset : (pa + o) % 4096 = o % 4096 := by have := area.aligned; omega
      have bytes (k : Nat) (hk : k ≤ 4096 - o % 4096) : s.homeBytes 0 (place o) k = (List.range k).map fun i => s.areaByte place (o + i) := by
        simp only [State.homeBytes, State.homeCells, List.map_map]
        refine List.map_congr_left fun i hi => ?_
        have lt := List.mem_range.1 hi
        simp only [Function.comp, State.homeCell, homeLine_cold cold, State.areaByte]
        rw [area.same_page (by omega)]
      have place' : pa + o + Nat.min len (4096 - o % 4096) = pa + (o + Nat.min len (4096 - o % 4096)) := by omega
      have least : Nat.min len (4096 - o % 4096) ≤ 4096 - o % 4096 := Nat.min_le_right ..
      have least' : Nat.min len (4096 - o % 4096) ≤ len := Nat.min_le_left ..
      have cut : Nat.min len (4096 - o % 4096) = len ∨ Nat.min len (4096 - o % 4096) = 4096 - o % 4096 := by
        rcases Nat.le_total len (4096 - o % 4096) with h | h
        · exact .inl (Nat.min_eq_left h)
        · exact .inr (Nat.min_eq_right h)
      simp only [none, if_false, offset, area.canonical o (by omega), State.uncLoad, recallOwned_cold cold, bytes _ least]
      rw [place']
      generalize Nat.min len (4096 - o % 4096) = k at *
      rw [ih (by omega) (by omega)]
      obtain ⟨r, rfl⟩ := Nat.exists_eq_add_of_le least'
      simp only [Nat.add_sub_cancel_left, List.range_add, List.map_append, List.map_map, Function.comp_def, Nat.add_assoc]

end

end Sys2Proof.Machine
end

section
/-! SUPPORT. Runs of bytes in a longer one, and the layout of a saved context (16, Table 16.7). -/

namespace Sys2Proof.Machine

/-! ### A run of bytes in a longer one -/

/-- The bytes `p` stand in `b` from offset `o` on. -/
def StandsAt (b : List Byte) (o : Nat) (p : List Byte) : Prop := ∃ x y, b = x ++ (p ++ y) ∧ x.length = o

section
variable {b p q : List Byte} {o i : Nat}

theorem standsAt_first (p y : List Byte) : StandsAt (p ++ y) 0 p := ⟨[], y, rfl, rfl⟩
theorem StandsAt.before (h : StandsAt b o p) (r : List Byte) : StandsAt (b ++ r) o p := by
  obtain ⟨x, y, rfl, length⟩ := h
  exact ⟨x, y ++ r, by simp only [List.append_assoc], length⟩
theorem StandsAt.behind (h : StandsAt b o p) {r : List Byte} {n : Nat} (length : r.length = n) : StandsAt (r ++ b) (n + o) p := by
  obtain ⟨x, y, rfl, hx⟩ := h
  exact ⟨r ++ x, y, by simp only [List.append_assoc], by rw [List.length_append, length, hx]⟩
theorem StandsAt.trans (h : StandsAt b o p) (g : StandsAt p i q) : StandsAt b (o + i) q := by
  obtain ⟨x, y, rfl, hx⟩ := h
  exact (g.before y).behind hx
theorem StandsAt.bytes (h : StandsAt b o p) : (b.drop o).take p.length = p := by
  obtain ⟨x, y, rfl, rfl⟩ := h
  rw [List.drop_left, List.take_left]
theorem StandsAt.fieldAt {n v : Nat} (h : StandsAt b o (toBytes n v)) : fieldAt b o n = v % 256 ^ n := by
  have e := h.bytes
  rw [toBytes_length] at e
  rw [Sys2Proof.Machine.fieldAt, e, ofBytes_toBytes]
theorem StandsAt.moved (h : StandsAt b o p) {o' : Nat} (e : o = o') : StandsAt b o' p := e ▸ h
/-- A number of `8 * n` bits that stands in `n` bytes. -/
theorem StandsAt.number {n w : Nat} {x : BitVec w} (h : StandsAt b o (toBytes n x.toNat)) (width : w = 8 * n) :
    BitVec.ofNat w (Sys2Proof.Machine.fieldAt b o n) = x := by
  have size : 256 ^ n = 2 ^ w := by rw [width, Nat.pow_mul]
  rw [h.fieldAt, size, Nat.mod_eq_of_lt x.isLt, BitVec.ofNat_toNat, BitVec.setWidth_eq]

variable {α : Type} {f : α → List Byte} {k : Nat}

theorem length_flatMap_const (h : ∀ x, (f x).length = k) (xs : List α) : (xs.flatMap f).length = xs.length * k := by
  induction xs with
  | nil => simp
  | cons x r ih => rw [List.flatMap_cons, List.length_append, h, ih, List.length_cons, Nat.succ_mul, Nat.add_comm]
/-- Of parts of equal length put together each stands at its place. -/
theorem standsAt_flatMap (h : ∀ x, (f x).length = k) {xs : List α} (hi : i < xs.length) : StandsAt (xs.flatMap f) (k * i) (f xs[i]) := by
  induction xs generalizing i with
  | nil => exact absurd hi (Nat.not_lt_zero i)
  | cons x r ih =>
    rw [List.flatMap_cons]
    cases i with
    | zero => exact standsAt_first ..
    | succ i =>
      have e : k * (i + 1) = k + k * i := by rw [Nat.mul_succ, Nat.add_comm]
      rw [e]
      exact (ih (Nat.lt_of_succ_lt_succ hi)).behind (h x)
theorem standsAt_vector {n : Nat} (h : ∀ x, (f x).length = k) (xs : Vector α n) (i : Fin n) : StandsAt (xs.toList.flatMap f) (k * i.val) (f xs[i]) := by
  have e := standsAt_flatMap (i := i.val) h (xs := xs.toList) (by simp)
  simpa using e
theorem length_vector_flatMap {n : Nat} (h : ∀ x, (f x).length = k) (xs : Vector α n) : (xs.toList.flatMap f).length = n * k := by
  rw [length_flatMap_const h, Vector.length_toList]

end

theorem words_length (xs : List Word) : (words xs).length = xs.length * 8 := length_flatMap_const (fun _ => toBytes_length ..) xs
theorem standsAt_words {xs : List Word} {i : Nat} (hi : i < xs.length) : StandsAt (words xs) (8 * i) (toBytes 8 xs[i].toNat) :=
  standsAt_flatMap (fun _ => toBytes_length ..) hi

/-! ### The saved context -/

section
variable (c : Core)

/-- The first words of the saved context, and the parts between the general registers and the accumulators. -/
def Core.headWords : List Word := [c.ctxs[0].pc, c.csr.status, c.csr.epc, c.csr.upepc, c.csr.upvec, c.csr.actl, c.csr.aflags, c.csr.rngkey]
def Core.vectorBytes : List Byte := c.v.toList.flatMap fun x => toBytes 128 x.toNat
def Core.maskBytes : List Byte := c.m.toList.flatMap fun x => toBytes 32 x.toNat
def Core.windowBytes : List Byte := c.csr.wins.toList.flatMap fun x => words [x.lo, x.hi]
def Core.tableBytes : List Byte := c.csr.table.toList.flatMap fun x => toBytes 4 x.toNat
def Core.accBytes : List Byte := c.acc.toList.flatMap fun a => a.toList.flatMap fun x => toBytes 128 x.toNat

theorem Core.vectorBytes_length : c.vectorBytes.length = 0x1000 := length_vector_flatMap (fun _ => toBytes_length ..) _
theorem Core.maskBytes_length : c.maskBytes.length = 0x100 := length_vector_flatMap (fun _ => toBytes_length ..) _
theorem Core.windowBytes_length : c.windowBytes.length = 0x80 := length_vector_flatMap (k := 16) (fun _ => words_length _) _
theorem Core.tableBytes_length : c.tableBytes.length = 0x400 := length_vector_flatMap (fun _ => toBytes_length ..) _
theorem Core.accBytes_length : c.accBytes.length = 0x8000 :=
  length_vector_flatMap (fun _ => length_vector_flatMap (fun _ => toBytes_length ..) _) _
theorem conduits_length (xs : Vector Conduit 4) : (xs.toList.flatMap Conduit.bytes).length = 0x40 :=
  length_vector_flatMap (k := 16) (fun _ => toBytes_length ..) _
theorem wordVector_length {n : Nat} (xs : Vector Word n) : (words xs.toList).length = n * 8 := by
  rw [words_length, Vector.length_toList]

/-- The parts of the saved context behind the masks, and behind the vector registers, in their order. -/
def Core.setupBytes : List Byte :=
  words c.csr.fmt.toList ++ (c.windowBytes ++ (toBytes 64 c.mcfg.toNat ++ (c.conduits.toList.flatMap Conduit.bytes ++
    (c.tableBytes ++ (List.replicate 96 0 ++ c.accBytes)))))
theorem Core.contextBytes_eq : c.contextBytes =
    words c.headWords ++ (words c.ctxs[0].w.toList ++ (c.vectorBytes ++ (c.maskBytes ++ c.setupBytes))) := by
  simp only [Core.contextBytes, Core.setupBytes, List.append_assoc]
  rfl
theorem Core.contextBytes_length : c.contextBytes.length = 0x97C0 := by
  rw [Core.contextBytes_eq, Core.setupBytes]
  simp only [List.length_append, words_length, Vector.length_toList, Core.vectorBytes_length, Core.maskBytes_length, Core.windowBytes_length,
    toBytes_length, conduits_length, Core.tableBytes_length, Core.accBytes_length, List.length_replicate, Core.headWords, List.length_cons,
    List.length_nil]

theorem Core.context_head {i : Nat} (hi : i < 8) : StandsAt c.contextBytes (8 * i) (toBytes 8 (c.headWords[i]'hi).toNat) := by
  rw [Core.contextBytes_eq]
  exact (standsAt_words hi).before _
theorem Core.context_w (i : Fin 32) : StandsAt c.contextBytes (0x40 + 8 * i.val) (toBytes 8 c.ctxs[0].w[i].toNat) := by
  rw [Core.contextBytes_eq]
  exact ((standsAt_vector (fun _ => toBytes_length ..) c.ctxs[0].w i).before _).behind (words_length _)
theorem Core.context_v (i : Fin 32) : StandsAt c.contextBytes (0x40 + (0x100 + 128 * i.val)) (toBytes 128 c.v[i].toNat) := by
  rw [Core.contextBytes_eq]
  exact (((standsAt_vector (fun _ => toBytes_length ..) c.v i).before _).behind (wordVector_length _)).behind (words_length _)
theorem Core.context_m (i : Fin 8) : StandsAt c.contextBytes (0x40 + (0x100 + (0x1000 + 32 * i.val))) (toBytes 32 c.m[i].toNat) := by
  rw [Core.contextBytes_eq]
  exact ((((standsAt_vector (fun _ => toBytes_length ..) c.m i).before _).behind c.vectorBytes_length).behind (wordVector_length _)).behind
    (words_length _)
theorem Core.context_setup {o : Nat} {p : List Byte} (h : StandsAt c.setupBytes o p) :
    StandsAt c.contextBytes (0x40 + (0x100 + (0x1000 + (0x100 + o)))) p := by
  rw [Core.contextBytes_eq]
  exact (((h.behind c.maskBytes_length).behind c.vectorBytes_length).behind (wordVector_length _)).behind (words_length _)
theorem Core.setup_mcfg : StandsAt c.setupBytes (0x20 + (0x80 + 0)) (toBytes 64 c.mcfg.toNat) :=
  ((standsAt_first ..).behind c.windowBytes_length).behind (wordVector_length _)
theorem Core.setup_acc (k : Fin 4) (i : Fin 64) : StandsAt c.setupBytes (0x20 + (0x80 + (0x40 + (0x40 + (0x400 + (0x60 + (0x2000 * k.val + 128 * i.val)))))))
    (toBytes 128 c.acc[k][i].toNat) := by
  have row := standsAt_vector (fun x : VecReg => toBytes_length 128 x.toNat) c.acc[k] i
  have all := standsAt_vector (f := fun a : Vector VecReg 64 => a.toList.flatMap fun x => toBytes 128 x.toNat)
    (fun _ => length_vector_flatMap (fun _ => toBytes_length ..) _) c.acc k
  exact ((((((all.trans row).behind List.length_replicate).behind c.tableBytes_length).behind (conduits_length _)).behind
    (toBytes_length ..)).behind c.windowBytes_length).behind (wordVector_length _)

end

/-! ### What a restore takes -/

/-- Clearing bit 0 leaves an even address. -/
theorem evenPc_of_even {a : Word} (even : a.getLsbD 0 = false) : evenPc a = a := by
  refine BitVec.eq_of_getLsbD_eq fun i hi => ?_
  rw [evenPc, BitVec.getLsbD_and, BitVec.getLsbD_not, BitVec.getLsbD_one]
  by_cases zero : i = 0
  · rw [zero, even, Bool.false_and]
  · simp [zero, hi]

theorem claim_savedContextIsRestored : Claims.SavedContextIsRestored := by
  intro c d head rest free length even
  have at' {o : Nat} {p : List Byte} (h : StandsAt c.contextBytes o p) : StandsAt (head ++ c.contextBytes ++ rest) (0x40 + o) p :=
    (h.behind length).before rest
  have headWord (i : Nat) (hi : i < 8) : BitVec.ofNat 64 (fieldAt (head ++ c.contextBytes ++ rest) (0x40 + 8 * i) 8) = c.headWords[i]'hi :=
    (at' (c.context_head hi)).number rfl
  refine ⟨?_, ?_, ?_, ?_, ?_, ?_, headWord 2 (by decide), headWord 3 (by decide), headWord 4 (by decide), headWord 7 (by decide), rfl, rfl⟩
  · have pc := headWord 0 (by decide)
    simp only [Core.loadContext, Vector.getElem_set_self]
    exact (congrArg evenPc pc).trans (evenPc_of_even even)
  · refine Vector.ext fun i hi => ?_
    simp only [Core.loadContext, Vector.getElem_set_self, Vector.getElem_ofFn]
    exact ((at' (c.context_w ⟨i, hi⟩)).moved (by dsimp only; omega)).number rfl
  · refine Vector.ext fun i hi => ?_
    simp only [Core.loadContext, Vector.getElem_ofFn]
    exact ((at' (c.context_v ⟨i, hi⟩)).moved (by dsimp only; omega)).number rfl
  · refine Vector.ext fun i hi => ?_
    simp only [Core.loadContext, Vector.getElem_ofFn]
    exact ((at' (c.context_m ⟨i, hi⟩)).moved (by dsimp only; omega)).number rfl
  · refine Vector.ext fun k hk => Vector.ext fun i hi => ?_
    simp only [Core.loadContext, Vector.getElem_ofFn]
    exact ((at' (c.context_setup (c.setup_acc ⟨k, hk⟩ ⟨i, hi⟩))).moved (by dsimp only; omega)).number rfl
  · exact (at' (c.context_setup c.setup_mcfg)).number rfl

end Sys2Proof.Machine
end

section
/-! SUPPORT. The save of a pre-empted core: what stands in its area, and what becomes of the core (16, R430, Table 16.7). -/

namespace Sys2Proof.Machine

/-! ### The parts of a save -/

/-- The core as its save takes it: its wait is withdrawn, and its reservation is lost. -/
def State.toSave (s : State) (n : Nat) : State :=
  ((s.withdraw n).loseResv ⟨n, 0⟩).onCore n fun c => { c with copyReq := none, gwork := none }
/-- The scope at which a save releases. -/
def State.saveScope (s : State) (n : Nat) : Scope := Scope.wider (stealRelease ((s.toSave n).pubScope n)) .dev
/-- The area up to its first tile, not valid yet. -/
def State.saveHead (s : State) (n : Nat) : List Byte :=
  toBytes 4 0 ++ toBytes 4 ((s.quire (quireOf n)).qasr.extractLsb' 48 16).toNat ++ toBytes 8 s.gtime.toNat ++ toBytes 4 n ++ toBytes 4 0
    ++ toBytes 8 (holdWord (s.core n).hold) ++ List.replicate 32 0 ++ (s.core n).contextBytes ++ s.savedFolio n ++ List.replicate 1984 0
/-- A tile that the folio names, stored in the area. -/
def State.saveTile (t : State) (c : Core) (f : List Byte) (pa k at' : Nat) : State :=
  match tileRange (fieldAt f k 8) with
  | some (o, n) => (t.physStore (pa + at') (Memory.read c.spad o n) 16).carryBad c o n (pa + at')
  | none => t
/-- The whole area, valid. -/
def State.saveArea (s : State) (n pa : Nat) : State :=
  let c := s.core n
  let f := s.savedFolio n
  let t := (s.physStore pa (s.saveHead n) 16).carryBad c c.folio 64 (pa + 0x9800)
  ((t.saveTile c f pa 0x20 0xA000).saveTile c f pa 0x28 0xC000).physStore pa (toBytes 4 1) 1
/-- The core after its save. -/
def State.afterSave (s : State) (n : Nat) (p : Preempt) : State :=
  let c := s.core n
  let t := s.saveArea n p.save.toNat
  let held : State := { t with
    parked := (t.parked.filter fun x => x.1 ≠ p.save.toNat) ++ c.hold.map fun h => (p.save.toNat, h)
    mgmt := { t.mgmt with savedOut := mapPut t.mgmt.savedOut p.save.toNat (quireOf n) } }
  (held.leaveTask n).onCore n fun c => { c with preempt := none, restore := p.back, csr := c.csr.setPh false }

section
variable {s : State} {n : Nat} {p : Preempt}

/-- A save that takes place is the release, the publication, and the area. -/
theorem save_spec (request : (s.core n).preempt = some p) (takes : s.save n ≠ none) :
    ∃ u, (s.toSave n).releaseFor n (s.saveScope n) = some u ∧ s.save n = some ((u.published n).afterSave n p) := by
  have unfolded : s.save n = if s.physBusy p.save.toNat saveLength || (s.kops.any fun k => k.agent = ⟨n, 0⟩) then none
      else ((s.toSave n).releaseFor n (s.saveScope n)).map fun u => (u.published n).afterSave n p := by
    rw [State.save, request]
    rfl
  rw [unfolded] at takes ⊢
  split at takes
  · exact absurd rfl takes
  · rename_i free
    rw [if_neg free]
    cases released : (s.toSave n).releaseFor n (s.saveScope n) with
    | none => rw [released] at takes; exact absurd rfl takes
    | some u => exact ⟨u, rfl, rfl⟩

/-- A save leaves the core without its task. -/
theorem afterSave_core (s : State) (n : Nat) (p : Preempt) : let c := (s.afterSave n p).core n
    c.run = .seeking ∧ c.preempt = none ∧ c.restore = p.back ∧ c.hold = [] := by
  simp only [State.afterSave, State.core_onCore_same, leaveTask_same, Core.idled, and_self]

end

/-! ### What the save takes from the core -/

/-- A core as a save sees it: what it does not write of it stands at its value in another core. -/
structure Core.SavedAs (c d : Core) : Prop where
  pc : d.ctxs[0].pc = c.ctxs[0].pc
  w : d.ctxs[0].w = c.ctxs[0].w
  rest : (d.v, d.m, d.acc, d.csr, d.mcfg, d.conduits) = (c.v, c.m, c.acc, c.csr, c.mcfg, c.conduits)
  spad : d.spad = c.spad
  task : (d.folio, d.hold) = (c.folio, c.hold)
theorem Core.SavedAs.trans {c d e : Core} (h : c.SavedAs d) (g : d.SavedAs e) : c.SavedAs e :=
  ⟨g.pc.trans h.pc, g.w.trans h.w, g.rest.trans h.rest, g.spad.trans h.spad, g.task.trans h.task⟩
theorem Core.SavedAs.contextBytes {c d : Core} (h : c.SavedAs d) : d.contextBytes = c.contextBytes := by
  obtain ⟨pc, w, rest, -, -⟩ := h
  simp only [Prod.mk.injEq] at rest
  obtain ⟨v, m, acc, csr, mcfg, conduits⟩ := rest
  simp only [Core.contextBytes, pc, w, v, m, acc, csr, mcfg, conduits]

/-- What a save of core `n` writes is the same in both states. -/
structure SameSaved (n : Nat) (s t : State) : Prop where
  core : (s.core n).SavedAs (t.core n)
  quires : t.quires = s.quires
  hbm : t.hbm = s.hbm
  gtime : t.gtime = s.gtime

theorem SameSaved.refl (n : Nat) (s : State) : SameSaved n s s := ⟨⟨rfl, rfl, rfl, rfl, rfl⟩, rfl, rfl, rfl⟩
theorem SameSaved.trans {n : Nat} {s t u : State} (h : SameSaved n s t) (g : SameSaved n t u) : SameSaved n s u :=
  ⟨h.core.trans g.core, g.quires.trans h.quires, g.hbm.trans h.hbm, g.gtime.trans h.gtime⟩

section
variable (s : State) (n : Nat)

theorem sameSaved_onCore (m : Nat) {f : Core → Core} (h : (s.core m).SavedAs (f (s.core m))) : SameSaved n s (s.onCore m f) := by
  refine ⟨?_, rfl, rfl, rfl⟩
  by_cases hn : n = m
  · rw [hn, State.core_onCore_same]
    exact h
  · rw [State.core_onCore_ne _ _ _ _ hn]
    exact ⟨rfl, rfl, rfl, rfl, rfl⟩
theorem sameSaved_withdraw : SameSaved n s (s.withdraw n) := by
  simp only [State.withdraw]
  generalize (s.episodes.map fun e => ({ e with arrived := e.arrived.filter fun c => c ≠ n } : Episode)).filter _ = left
  exact SameSaved.trans (t := { s with episodes := left }) ⟨⟨rfl, rfl, rfl, rfl, rfl⟩, rfl, rfl, rfl⟩
    (sameSaved_onCore _ n n ⟨rfl, rfl, rfl, rfl, rfl⟩)
theorem Core.savedAs_lost (c : Core) : c.SavedAs (c.lost 0) := by
  refine ⟨?_, ?_, rfl, rfl, rfl⟩ <;> simp [Core.lost, Ctx.loseResv, Ctx.forget]
theorem sameSaved_loseResv : SameSaved n s (s.loseResv ⟨n, 0⟩) := by
  refine ⟨?_, rfl, rfl, rfl⟩
  have e := State.core_loseResv_same s ⟨n, 0⟩
  dsimp only at e
  rw [e]
  exact Core.savedAs_lost _
theorem sameSaved_toSave : SameSaved n s (s.toSave n) := by
  unfold State.toSave
  exact ((sameSaved_withdraw s n).trans (sameSaved_loseResv _ n)).trans (sameSaved_onCore _ n n ⟨rfl, rfl, rfl, rfl, rfl⟩)
theorem sameSaved_wakeFirst (cs : List Nat) (k : Nat) : SameSaved n s (s.wakeFirst cs k) := by
  induction cs generalizing s k with
  | nil => exact .refl n s
  | cons c r ih =>
    cases k with
    | zero => exact .refl n s
    | succ k =>
      unfold State.wakeFirst
      split
      · exact (sameSaved_onCore s n c ⟨rfl, rfl, rfl, rfl, rfl⟩).trans (ih (s.onCore c Core.awaken) k)
      · exact ih s (k + 1)
theorem sameSaved_published : SameSaved n s (s.published n) := by
  simp only [State.published]
  refine SameSaved.trans ?_ (sameSaved_wakeFirst ..)
  exact sameSaved_onCore s n n ⟨rfl, rfl, rfl, rfl, rfl⟩

end

section
variable {n : Nat} {s t : State} (same : SameSaved n s t)
include same

theorem SameSaved.spad : (t.core n).spad = (s.core n).spad := same.core.spad
theorem SameSaved.savedFolio : t.savedFolio n = s.savedFolio n := by
  have folio : (t.core n).folio = (s.core n).folio := congrArg (·.1) same.core.task
  simp only [State.savedFolio, State.folioBytes, same.spad, folio]
theorem SameSaved.saveHead : t.saveHead n = s.saveHead n := by
  have hold : (t.core n).hold = (s.core n).hold := congrArg (·.2) same.core.task
  simp only [State.saveHead, same.savedFolio, same.core.contextBytes, hold, same.gtime, State.quire, same.quires]

end

/-- With an empty store buffer, where no cache holds a line, the release of a save changes nothing. -/
theorem releaseFor_cold {s u : State} {n : Nat} {sc : Scope} (cold : Cold s) (sb : (s.core n).sb = []) (below : sc ≠ .sys)
    (released : s.releaseFor n sc = some u) : u = s := by
  have drained : s.drained n = some s := by rw [State.drained, sb]; rfl
  have first : (if 1 ≤ Scope.rank sc then s.drained n else some s) = some s := by rw [drained, ite_self]
  have clean : s.cleanQuire (quireOf n) = s := cleanQuire_cold cold _
  have peers (t : State) : t.peersDone n sc = some t := by
    cases hand : (t.core n).peerHand <;> simp [State.peersDone, hand, below]
  simp only [State.releaseFor, first, Option.bind_some, clean] at released
  split at released
  · split at released
    · cases released
    · simp only [Option.bind_some, peers] at released
      exact (Option.some.inj released).symm
  · simp only [Option.bind_some, peers] at released
    exact (Option.some.inj released).symm
theorem saveScope_ne_sys (s : State) (n : Nat) : s.saveScope n ≠ .sys := by
  unfold State.saveScope stealRelease
  split <;> decide

/-! ### The head of the area -/

section
variable (s : State) (n : Nat)

theorem savedFolio_length : (s.savedFolio n).length = 64 := by
  simp [State.savedFolio, State.folioBytes, Memory.read_length, toBytes_length]
theorem saveHead_eq : s.saveHead n = toBytes 4 0 ++ (toBytes 4 ((s.quire (quireOf n)).qasr.extractLsb' 48 16).toNat ++
    (toBytes 8 s.gtime.toNat ++ (toBytes 4 n ++ (toBytes 4 0 ++ (toBytes 8 (holdWord (s.core n).hold) ++ (List.replicate 32 0 ++
      ((s.core n).contextBytes ++ (s.savedFolio n ++ List.replicate 1984 0)))))))) := by
  simp only [State.saveHead, List.append_assoc]
theorem saveHead_length : (s.saveHead n).length = 0xA000 := by
  rw [saveHead_eq]
  simp only [List.length_append, toBytes_length, List.length_replicate, Core.contextBytes_length, savedFolio_length]

theorem saveHead_asn : StandsAt (s.saveHead n) 4 (toBytes 4 ((s.quire (quireOf n)).qasr.extractLsb' 48 16).toNat) := by
  rw [saveHead_eq]
  exact (standsAt_first ..).behind (toBytes_length ..)
theorem saveHead_gtime : StandsAt (s.saveHead n) 8 (toBytes 8 s.gtime.toNat) := by
  rw [saveHead_eq]
  exact ((standsAt_first ..).behind (toBytes_length ..)).behind (toBytes_length ..)
theorem saveHead_core : StandsAt (s.saveHead n) 0x10 (toBytes 4 n) := by
  rw [saveHead_eq]
  exact (((standsAt_first ..).behind (toBytes_length ..)).behind (toBytes_length ..)).behind (toBytes_length ..)
theorem saveHead_zero : StandsAt (s.saveHead n) 0x14 (toBytes 4 0) := by
  rw [saveHead_eq]
  exact ((((standsAt_first ..).behind (toBytes_length ..)).behind (toBytes_length ..)).behind (toBytes_length ..)).behind (toBytes_length ..)
/-- What stands behind the first six fields. -/
theorem saveHead_behind {o : Nat} {p : List Byte} (h : StandsAt (toBytes 8 (holdWord (s.core n).hold) ++ (List.replicate 32 0 ++
      ((s.core n).contextBytes ++ (s.savedFolio n ++ List.replicate 1984 0)))) o p) : StandsAt (s.saveHead n) (0x18 + o) p := by
  rw [saveHead_eq]
  exact (((((h.behind (toBytes_length ..)).behind (toBytes_length ..)).behind (toBytes_length ..)).behind (toBytes_length ..)).behind
    (toBytes_length ..)).moved (by omega)
theorem saveHead_hold : StandsAt (s.saveHead n) 0x18 (toBytes 8 (holdWord (s.core n).hold)) := saveHead_behind s n (standsAt_first ..)
theorem saveHead_context : StandsAt (s.saveHead n) 0x40 (s.core n).contextBytes :=
  saveHead_behind s n (((standsAt_first ..).behind List.length_replicate).behind (toBytes_length ..))
theorem saveHead_folio : StandsAt (s.saveHead n) 0x9800 (s.savedFolio n) :=
  saveHead_behind s n ((((standsAt_first ..).behind (Core.contextBytes_length _)).behind List.length_replicate).behind (toBytes_length ..))

end

/-! ### The area as it reads -/

/-- The bytes of an area as a list. -/
def areaBytes (A : Nat → Byte) (n : Nat) : List Byte := (List.range n).map A
theorem areaBytes_length (A : Nat → Byte) (n : Nat) : (areaBytes A n).length = n := by simp [areaBytes]
theorem standsAt_areaBytes {A : Nat → Byte} {n o : Nat} {p : List Byte} (fits : o + p.length ≤ n) (h : ∀ i, i < p.length → A (o + i) = p.getD i 0) :
    StandsAt (areaBytes A n) o p := by
  have part : ((areaBytes A n).drop o).take p.length = p := by
    refine List.ext_getElem ?_ fun i hi hi' => ?_
    · rw [List.length_take, List.length_drop, areaBytes_length]
      omega
    · simp only [areaBytes, List.getElem_take, List.getElem_drop, List.getElem_map, List.getElem_range, h i hi',
        List.getD_eq_getElem _ _ hi']
  refine ⟨(areaBytes A n).take o, ((areaBytes A n).drop o).drop p.length, ?_, ?_⟩
  · conv_rhs => rw [← part]
    rw [List.length_take, List.length_drop, areaBytes_length, Nat.min_eq_left (by omega), List.take_append_drop, List.take_append_drop]
  · rw [List.length_take, areaBytes_length]
    omega
theorem StandsAt.getD {b p : List Byte} {o i : Nat} (h : StandsAt b o p) (hi : i < p.length) : b.getD (o + i) 0 = p.getD i 0 := by
  obtain ⟨x, y, rfl, rfl⟩ := h
  rw [List.getD_append_right _ _ _ _ (by omega), Nat.add_sub_cancel_left, List.getD_append _ _ _ _ hi]

section
variable {pa n : Nat} {place : Nat → Nat} (area : AreaAt pa place)
include area

/-- A tile of the save is laid over its part of the area. -/
theorem saveTile_cold {s : State} (cold : Cold s) (wf : Memory.wf s.hbm = true) (c : Core) (f : List Byte) (k : Nat) {at' : Nat}
    (low : at' ≤ 0xC000) (page : at' % 4096 = 0) :
    let t := s.saveTile c f pa k at'
    OnlyHbm s t ∧ Memory.wf t.hbm = true ∧ (∀ x, x < at' → t.areaByte place x = s.areaByte place x) ∧
      ∀ o m, tileRange (fieldAt f k 8) = some (o, m) → ∀ i, i < m → t.areaByte place (at' + i) = (Memory.read c.spad o m).getD i 0 := by
  unfold State.saveTile
  cases range : tileRange (fieldAt f k 8) with
  | none => exact ⟨.refl s, wf, fun _ _ => rfl, fun _ _ h => by cases h⟩
  | some tile =>
    obtain ⟨o, m⟩ := tile
    have short : m < 0x4000 := by
      unfold tileRange at range
      dsimp only at range
      split at range
      · cases range
      · have e := congrArg Prod.snd (Option.some.inj range)
        dsimp only at e
        omega
    have length := Memory.read_length c.spad o m
    obtain ⟨only, wf', laid⟩ := physStore_cold area cold wf (o := at') (bs := Memory.read c.spad o m) (n := 16) (by omega) (by omega)
    dsimp only
    generalize s.physStore (pa + at') (Memory.read c.spad o m) 16 = u at only wf' laid
    obtain ⟨carried, hbm⟩ := carryBad_cold (cold.of_quires only.quires) c o m (pa + at')
    generalize u.carryBad c o m (pa + at') = v at carried hbm
    have bytes : v.areaByte place = u.areaByte place := by
      funext x
      rw [State.areaByte, hbm]
      rfl
    rw [hbm, bytes]
    refine ⟨only.trans carried, wf', fun x hx => laid.outside (.inl hx), fun o' m' h i hi => ?_⟩
    cases h
    exact laid.inside (by omega)

/-- What the area reads after a save: the head, valid, and the tiles. -/
theorem saveArea_cold {s : State} (cold : Cold s) (wf : Memory.wf s.hbm = true) :
    let t := s.saveArea n pa
    OnlyHbm s t ∧ (∀ i, i < 4 → t.areaByte place i = (toBytes 4 1).getD i 0) ∧
      (∀ i, 4 ≤ i → i < 0xA000 → t.areaByte place i = (s.saveHead n).getD i 0) ∧
      ∀ x, x ∈ [(0x20, 0xA000), (0x28, 0xC000)] → ∀ o m, tileRange (fieldAt (s.savedFolio n) x.1 8) = some (o, m) → m ≤ 0x2000 →
        ∀ i, i < m → t.areaByte place (x.2 + i) = (Memory.read (s.core n).spad o m).getD i 0 := by
  have length := saveHead_length s n
  simp only [State.saveArea]
  obtain ⟨only1, wf1, laid1⟩ := physStore_cold area cold wf (o := 0) (bs := s.saveHead n) (n := 16) (by omega) (by omega)
  rw [Nat.add_zero] at only1 wf1 laid1
  generalize s.physStore pa (s.saveHead n) 16 = u1 at only1 wf1 laid1
  have cold1 := cold.of_quires only1.quires
  obtain ⟨only2, hbm2⟩ := carryBad_cold cold1 (s.core n) (s.core n).folio 64 (pa + 0x9800)
  generalize u1.carryBad (s.core n) (s.core n).folio 64 (pa + 0x9800) = u2 at only2 hbm2
  have cold2 := cold1.of_quires only2.quires
  have bytes2 (x : Nat) : u2.areaByte place x = u1.areaByte place x := by
    rw [State.areaByte, hbm2]
    rfl
  obtain ⟨only3, wf3, below3, tile3⟩ := saveTile_cold area cold2 (by rw [hbm2]; exact wf1) (s.core n) (s.savedFolio n) 0x20 (at' := 0xA000)
    (by decide) (by decide)
  generalize u2.saveTile (s.core n) (s.savedFolio n) pa 0x20 0xA000 = u3 at only3 wf3 below3 tile3
  have cold3 := cold2.of_quires only3.quires
  obtain ⟨only4, wf4, below4, tile4⟩ := saveTile_cold area cold3 wf3 (s.core n) (s.savedFolio n) 0x28 (at' := 0xC000) (by decide) (by decide)
  generalize u3.saveTile (s.core n) (s.savedFolio n) pa 0x28 0xC000 = u4 at only4 wf4 below4 tile4
  have four : (toBytes 4 1).length = 4 := rfl
  obtain ⟨only5, -, laid5⟩ := physStore_cold area (cold3.of_quires only4.quires) wf4 (o := 0) (bs := toBytes 4 1) (n := 1) (by omega) (by omega)
  rw [Nat.add_zero] at only5 laid5
  generalize u4.physStore pa (toBytes 4 1) 1 = u5 at only5 laid5
  have behind (x : Nat) (hx : 4 ≤ x) : u5.areaByte place x = u4.areaByte place x := laid5.outside (.inr (by omega))
  refine ⟨(((only1.trans only2).trans only3).trans only4).trans only5, fun i hi => ?_, fun i hi hi' => ?_, fun x hx o m range small i hi => ?_⟩
  · have inside := laid5.inside (i := i) (by omega)
    rwa [Nat.zero_add] at inside
  · have inside := laid1.inside (i := i) (by omega)
    rw [Nat.zero_add] at inside
    rw [behind i hi, below4 i (by omega), below3 i hi', bytes2, inside]
  · simp only [List.mem_cons, List.not_mem_nil, or_false] at hx
    obtain rfl | rfl := hx
    · rw [behind _ (by dsimp only; omega), below4 _ (by dsimp only; omega)]
      exact tile3 o m range i hi
    · rw [behind _ (by dsimp only; omega)]
      exact tile4 o m range i hi

end

end Sys2Proof.Machine
end

section
/-! SUPPORT. Pre-emption: requests, holds, saves and restores (01, R24; 16, R430, R431). -/

namespace Sys2Proof.Machine

/-! ### Requests -/

section
variable (s : State) (n : Nat)

theorem coreEvent_withdraw : CoreEvent s (s.withdraw n) n where
  others k hk := by
    rw [State.withdraw, State.core_onCore_ne _ _ _ _ hk]
    rfl
  spad := by
    rw [State.withdraw, State.core_onCore_same]
    rfl
  quires := rfl
  hbm := rfl
  bindings := rfl
theorem withdraw_barWait : ((s.withdraw n).core n).barWait = none := by
  rw [State.withdraw, State.core_onCore_same]
/-- No barrier counts a core whose arrival is withdrawn. -/
theorem withdraw_arrived {e : Episode} (h : e ∈ (s.withdraw n).episodes) : n ∉ e.arrived := by
  have left : e ∈ (s.episodes.map fun e => { e with arrived := e.arrived.filter fun c => c ≠ n }).filter fun e => !e.arrived.isEmpty := h
  obtain ⟨e', -, rfl⟩ := List.mem_map.1 (List.mem_filter.1 left).1
  simp

end

section
variable (s : State)

/-- The core waits in a barrier of the level that holds its request. -/
def State.waitsInHeld (s : State) (n : Nat) : Bool :=
  let c := s.core n
  c.csr.heldLevel.isSome && c.barWait = c.csr.heldLevel && c.barPass.isNone && !s.arrivalStands n
/-- A request recorded. -/
def State.requested (s : State) (n : Nat) (a : Word) (back : Option Word) : State :=
  (if s.waitsInHeld n then s.withdraw n else s).onCore n fun c =>
    { c with preempt := some ⟨a, back, s.gtime, (s.core n).csr.heldLevel, (s.core n).csr.heldLevel.isNone || s.waitsInHeld n⟩ }

theorem coreEvent_requested (n : Nat) (a : Word) (back : Option Word) : CoreEvent s (s.requested n a back) n := by
  unfold State.requested
  split
  · exact (coreEvent_withdraw s n).trans (coreEvent_onCore _ _ _ rfl)
  · exact coreEvent_onCore _ _ _ rfl
theorem requested_reports (n : Nat) (a : Word) (back : Option Word) : (s.requested n a back).reports = s.reports := by
  unfold State.requested
  split <;> rfl
theorem requested_met (n : Nat) (a : Word) (back : Option Word) (met : s.waitsInHeld n = true) :
    ((s.requested n a back).core n).barWait = none ∧ ∀ e, e ∈ (s.requested n a back).episodes → n ∉ e.arrived := by
  unfold State.requested
  rw [if_pos met]
  refine ⟨?_, fun e he => withdraw_arrived s n he⟩
  rw [State.core_onCore_same]
  exact withdraw_barWait s n
theorem requested_preempt (n : Nat) (a : Word) (back : Option Word) : ((s.requested n a back).core n).preempt =
    some ⟨a, back, s.gtime, (s.core n).csr.heldLevel, (s.core n).csr.heldLevel.isNone || s.waitsInHeld n⟩ := by
  rw [State.requested, State.core_onCore_same]

variable {s}

/-- The restore address of a request. -/
def Turn.back (u : Turn) : Option Word := if u.flag then some u.value else none
theorem preemptionRequest_refused (h : (s.core s.turn.core).run = .stopped ∨ saveAddrOk s.turn.opt = false ∨ saveAddrOk s.turn.back = false) :
    exec .preemptionRequest s = .next { s with reports := s.reports ++ [(2, s.turn.core)] } := by
  have refused : (decide ((s.core s.turn.core).run = .stopped) || !saveAddrOk s.turn.opt || !saveAddrOk s.turn.back) = true := by
    rcases h with h | h | h <;> simp [h]
  exact if_pos refused
theorem preemptionRequest_taken (running : (s.core s.turn.core).run ≠ .stopped) (save : saveAddrOk s.turn.opt = true)
    (back : saveAddrOk s.turn.back = true) : exec .preemptionRequest s = match s.turn.opt with
      | none => .next (s.onCore s.turn.core fun c => { c with restore := s.turn.back })
      | some a => .next (s.requested s.turn.core a s.turn.back) := by
  have taken : (decide ((s.core s.turn.core).run = .stopped) || !saveAddrOk s.turn.opt || !saveAddrOk s.turn.back) = false := by
    simp [running, save, back]
  exact if_neg fun refused => Bool.false_ne_true (taken.symm.trans refused)

theorem preemptionHoldTimeout_run {p : Preempt} (held : (s.core s.turn.core).preempt = some p) (waits : p.free = false)
    (long : 1000000 ≤ (s.gtime - p.came).toNat) :
    ∃ t, exec .preemptionHoldTimeout s = .next t ∧ (t.core s.turn.core).preempt = some { p with level := none, free := true } ∧
      OtherCoresSame s t s.turn.core := by
  have expired : s.holdOver s.turn.core = true := by
    rw [State.holdOver, held]
    simp only [waits, Bool.not_false, Bool.true_and, decide_eq_true_eq]
    exact long
  refine ⟨_, if_pos expired, ?_, fun k hk => State.core_onCore_ne _ _ _ _ hk⟩
  rw [State.core_onCore_same, held]
  rfl

end

/-! ### Memory by physical address -/

section
variable (s : State)

theorem onlyWakes_uncStore (h : Nat) (a : Option Agent) (pa : Nat) (bs : List StoreByte) : OnlyWakes s (s.uncStore h a pa bs) :=
  (onlyWakes_recallOwned ..).trans (onlyWakes_homeStore ..)
theorem onlyWakes_physStore (pa : Nat) (bs : List Byte) (n : Nat) : OnlyWakes s (s.physStore pa bs n) := by
  induction n generalizing s pa bs with
  | zero => exact .refl s
  | succ n ih =>
    unfold State.physStore
    split
    · exact .refl s
    · dsimp only
      split
      · exact (onlyWakes_uncStore s 0 none _ _).trans (ih ..)
      · exact ih ..
theorem onlyWakes_physLoad (pa len n : Nat) : OnlyWakes s (s.physLoad pa len n).1 := by
  induction n generalizing s pa len with
  | zero => exact .refl s
  | succ n ih =>
    unfold State.physLoad
    split
    · exact .refl s
    · dsimp only
      split
      · exact (onlyWakes_recallOwned s 0 none _ _).trans (ih ..)
      · exact ih ..

end

/-! ### The save -/

theorem afterSave_quires (s : State) (n : Nat) (p : Preempt) : (s.afterSave n p).quires = (s.saveArea n p.save.toNat).quires := by
  unfold State.afterSave
  generalize s.saveArea n p.save.toNat = t
  rfl
theorem afterSave_areaByte (s : State) (n : Nat) (p : Preempt) (place : Nat → Nat) :
    (s.afterSave n p).areaByte place = (s.saveArea n p.save.toNat).areaByte place := by
  unfold State.afterSave
  generalize s.saveArea n p.save.toNat = t
  rfl
theorem areaBytes_getD (A : Nat → Byte) {n i : Nat} (hi : i < n) : (areaBytes A n).getD i 0 = A i := by
  rw [List.getD_eq_getElem _ _ (by rwa [areaBytes_length])]
  simp [areaBytes]
theorem areaBytes_congr {A B : Nat → Byte} {n : Nat} (h : ∀ i, i < n → A i = B i) : areaBytes A n = areaBytes B n :=
  List.map_congr_left fun i hi => h i (List.mem_range.1 hi)
/-- The area after a save, where no cache holds a line. -/
theorem save_area {s : State} {n : Nat} {p : Preempt} (request : (s.core n).preempt = some p) (takes : s.save n ≠ none) (sb : (s.core n).sb = [])
    (wf : s.memWf) (ok : saveAddrOk (some p.save) = true) (cold : Cold s) {t : State} (saved : s.save n = some t) :
    let A := fun i => (t.physLoad p.save.toNat saveLength 16).2.getD i 0
    (t.physLoad p.save.toNat saveLength 16).2 = areaBytes A saveLength ∧ (∀ i, i < 4 → A i = (toBytes 4 1).getD i 0) ∧
      (∀ i, 4 ≤ i → i < 0xA000 → A i = (s.saveHead n).getD i 0) ∧
      ∀ x, x ∈ [(0x20, 0xA000), (0x28, 0xC000)] → ∀ o m, tileRange (fieldAt (s.savedFolio n) x.1 8) = some (o, m) → m ≤ 0x2000 →
        ∀ i, i < m → A (x.2 + i) = (Memory.read (s.core n).spad o m).getD i 0 := by
  obtain ⟨hbm, -⟩ := wf
  obtain ⟨place, area⟩ := exists_areaAt ok
  obtain ⟨u, released, spec⟩ := save_spec request takes
  have toSave := sameSaved_toSave s n
  have emptySb : ((s.toSave n).core n).sb = [] := by
    have e : ((s.toSave n).core n).sb = (s.core n).sb := by
      have lost := State.core_loseResv_same (s.withdraw n) ⟨n, 0⟩
      dsimp only at lost
      rw [State.toSave, State.core_onCore_same, lost, State.withdraw, State.core_onCore_same]
      rfl
    rw [e, sb]
  obtain rfl := releaseFor_cold (cold.of_quires toSave.quires) emptySb (saveScope_ne_sys s n) released
  have same := toSave.trans (sameSaved_published (s.toSave n) n)
  generalize (s.toSave n).published n = v at same spec
  have coldV := cold.of_quires same.quires
  obtain ⟨only, valid, head, tiles⟩ := saveArea_cold (n := n) area coldV (by rw [same.hbm]; exact hbm)
  rw [same.saveHead] at head
  rw [same.savedFolio, same.spad] at tiles
  obtain rfl := Option.some.inj (saved.symm.trans spec)
  have coldT : Cold (v.afterSave n p) := coldV.of_quires ((afterSave_quires v n p).trans only.quires)
  have load := physLoad_cold area coldT (o := 0) (len := saveLength) (n := 16) (by decide) (.inr (by decide))
  have bytes := afterSave_areaByte v n p place
  simp only [Nat.add_zero, Nat.zero_add, bytes] at load
  have image : ((v.afterSave n p).physLoad p.save.toNat saveLength 16).2 = areaBytes ((v.saveArea n p.save.toNat).areaByte place) saveLength := by
    rw [load, areaBytes]
  have read (i : Nat) (hi : i < saveLength) : ((v.afterSave n p).physLoad p.save.toNat saveLength 16).2.getD i 0 =
      (v.saveArea n p.save.toNat).areaByte place i := by rw [image, areaBytes_getD _ hi]
  refine ⟨image.trans (areaBytes_congr fun i hi => (read i hi).symm), fun i hi => ?_, fun i hi hi' => ?_, fun x hx o m range small i hi => ?_⟩
  · exact (read i (by unfold saveLength; omega)).trans (valid i hi)
  · exact (read i (by unfold saveLength; omega)).trans (head i hi hi')
  · have inside : x.2 + i < saveLength := by
      unfold saveLength
      simp only [List.mem_cons, List.not_mem_nil, or_false] at hx
      obtain rfl | rfl := hx <;> dsimp only <;> omega
    exact (read _ inside).trans (tiles x hx o m range small i hi)

/-- The fields of an area that reads as its head, valid, and its tiles. -/
theorem savedImage {s : State} {n : Nat} {A : Nat → Byte} (valid : ∀ i, i < 4 → A i = (toBytes 4 1).getD i 0)
    (head : ∀ i, 4 ≤ i → i < 0xA000 → A i = (s.saveHead n).getD i 0)
    (tiles : ∀ x, x ∈ [(0x20, 0xA000), (0x28, 0xC000)] → ∀ o m, tileRange (fieldAt (s.savedFolio n) x.1 8) = some (o, m) → m ≤ 0x2000 →
      ∀ i, i < m → A (x.2 + i) = (Memory.read (s.core n).spad o m).getD i 0) :
    let img := areaBytes A saveLength
    img.length = saveLength ∧ fieldAt img 0 4 = 1 ∧
      fieldAt img 4 4 = ((s.quire (n / 96)).qasr.extractLsb' 48 16).toNat ∧ fieldAt img 8 8 = s.gtime.toNat ∧
      fieldAt img 0x10 4 = n % 2 ^ 32 ∧ fieldAt img 0x14 4 = 0 ∧ (img.drop 0x18).take 8 = toBytes 8 (holdWord (s.core n).hold) ∧
      (img.drop 0x40).take 0x97C0 = (s.core n).contextBytes ∧ (img.drop 0x9800).take 64 = s.savedFolio n ∧
      ∀ x, x ∈ [(0x20, 0xA000), (0x28, 0xC000)] → ∀ o m, tileRange (fieldAt (s.savedFolio n) x.1 8) = some (o, m) → m ≤ 0x2000 →
        (img.drop x.2).take m = Memory.read (s.core n).spad o m := by
  have inHead {o : Nat} {p : List Byte} (h : StandsAt (s.saveHead n) o p) (low : 4 ≤ o) (high : o + p.length ≤ 0xA000) :
      StandsAt (areaBytes A saveLength) o p :=
    standsAt_areaBytes (by unfold saveLength; omega) fun i hi => by rw [head _ (by omega) (by omega), h.getD hi]
  have isValid : StandsAt (areaBytes A saveLength) 0 (toBytes 4 1) :=
    standsAt_areaBytes (by decide) fun i hi => by
      rw [Nat.zero_add]
      exact valid i hi
  have asn := (inHead (saveHead_asn s n) (by omega) (by rw [toBytes_length]; omega)).fieldAt
  have gtime := (inHead (saveHead_gtime s n) (by omega) (by rw [toBytes_length]; omega)).fieldAt
  have core := (inHead (saveHead_core s n) (by omega) (by rw [toBytes_length]; omega)).fieldAt
  have zero := (inHead (saveHead_zero s n) (by omega) (by rw [toBytes_length]; omega)).fieldAt
  have hold := (inHead (saveHead_hold s n) (by omega) (by rw [toBytes_length]; omega)).bytes
  have context := (inHead (saveHead_context s n) (by omega) (by rw [Core.contextBytes_length]; omega)).bytes
  have folio := (inHead (saveHead_folio s n) (by omega) (by rw [savedFolio_length]; omega)).bytes
  rw [toBytes_length] at hold
  rw [Core.contextBytes_length] at context
  rw [savedFolio_length] at folio
  refine ⟨areaBytes_length .., isValid.fieldAt, asn.trans (Nat.mod_eq_of_lt ?_), gtime.trans (Nat.mod_eq_of_lt ?_), core, zero, hold,
    context, folio, fun x hx o m range small => ?_⟩
  · have lt := ((s.quire (quireOf n)).qasr.extractLsb' 48 16).isLt
    omega
  · have lt := s.gtime.isLt
    omega
  · have length := Memory.read_length (s.core n).spad o m
    have inside : x.2 + m ≤ saveLength := by
      unfold saveLength
      simp only [List.mem_cons, List.not_mem_nil, or_false] at hx
      obtain rfl | rfl := hx <;> dsimp only <;> omega
    have tile : StandsAt (areaBytes A saveLength) x.2 (Memory.read (s.core n).spad o m) :=
      standsAt_areaBytes (by omega) fun i hi => tiles x hx o m range small i (by omega)
    have bytes := tile.bytes
    rwa [length] at bytes

/-! ### The restore -/

/-- A core with the tile that a folio names taken from an area. -/
def State.restoreTile (t : State) (n : Nat) (f b : List Byte) (k at' : Nat) : State :=
  match tileRange (fieldAt f k 8) with
  | some (o, m) => t.putSpad n o ((b.drop at').take m)
  | none => t
/-- The holds that a restore takes over. -/
def State.restoredHold (t : State) (pa : Nat) (b : List Byte) : List (Nat × Nat) :=
  let h := fieldAt b 0x18 8
  let kept := (t.parked.filter fun x => x.1 = pa).map fun x => x.2
  if h / 2 ^ 36 % 2 = 1 then if kept.isEmpty then [(h / 2 ^ 32 % 16, h % 2 ^ 32)] else kept else []
/-- The core with the saved context, its folio and its tiles. -/
def State.restored (s : State) (n pa : Nat) (b : List Byte) : State :=
  let f := (b.drop 0x9800).take 64
  let t := ((s.putSpad n (fieldAt f 0x14 4) f).restoreTile n f b 0x20 0xA000).restoreTile n f b 0x28 0xC000
  let hold := t.restoredHold pa b
  let u : State := { t with
    parked := t.parked.filter fun x => x.1 ≠ pa, tick := t.tick + 1
    mgmt := { t.mgmt with savedOut := t.mgmt.savedOut.filter fun x => x.1 ≠ pa } }
  u.onCore n fun c => { (c.loadContext b (Config.openMode s.tick)) with hold := hold }

section
variable {s : State} {n : Nat} {a : Word}

/-- The area holds what the core can take. -/
def State.areaGood (s : State) (n pa : Nat) (b : List Byte) : Bool :=
  !((physPieces pa saveLength).any (fun p => s.anyBad p 4096) || fieldAt b 0 4 ≠ 1
    || fieldAt b 4 4 ≠ ((s.quire (quireOf n)).qasr.extractLsb' 48 16).toNat || !restorable (s.core n) ((b.drop 0x9800).take 64))
theorem restoreCore_eq (s : State) (n : Nat) (a : Word) : s.restoreCore n a =
    let l := s.physLoad a.toNat saveLength 16
    if l.1.areaGood n a.toNat l.2 then ((l.1.restored n a.toNat l.2).physStore a.toNat (toBytes 4 0) 1).acquire n .dev
    else (l.1.onCore n fun c => { c with restore := none }).report 3 n := by
  simp only [State.restoreCore]
  generalize s.physLoad a.toNat saveLength 16 = l
  obtain ⟨t, b⟩ := l
  unfold State.areaGood
  dsimp only
  split
  · rename_i refused
    rw [refused]
    rfl
  · rename_i good
    rw [Bool.eq_false_of_not_eq_true good]
    rfl

theorem areaGood_of {pa : Nat} {b : List Byte} (sound : ((physPieces pa saveLength).any fun p => s.anyBad p 4096) = false)
    (valid : fieldAt b 0 4 = 1) (asn : fieldAt b 4 4 = ((s.quire (quireOf n)).qasr.extractLsb' 48 16).toNat)
    (ok : restorable (s.core n) ((b.drop 0x9800).take 64) = true) : s.areaGood n pa b = true := by
  simp only [State.areaGood, sound, valid, asn, ok, ne_eq, not_true_eq_false, decide_false, Bool.or_self, Bool.not_true, Bool.not_false]
theorem core_report (s : State) (k v n : Nat) : (s.report k v).core n = s.core n := rfl

theorem preemptionSave_run {u : State} (comes : s.boundary s.turn.core = some .preempt) (saved : s.save s.turn.core = some u) :
    exec .preemptionSave s = .next u := by
  show execPreemptionSave s = _
  simp only [execPreemptionSave, takeBoundary, comes, if_true, saved, Option.getD_some]
theorem preemptionRestore_run (address : (s.core s.turn.core).restore = some a) (ready : s.restoreReady s.turn.core = true) :
    exec .preemptionRestore s = .next (s.restoreCore s.turn.core a) := by
  show execPreemptionRestore s = _
  simp only [execPreemptionRestore, address, ready, if_true]

/-- A restore of an area that is not valid is refused with a report. -/
theorem restoreCore_refused (invalid : fieldAt (s.physLoad a.toNat saveLength 16).2 0 4 ≠ 1) : let t := s.restoreCore n a
    (t.core n).restore = none ∧ (t.core n).run = (s.core n).run ∧ t.reports.getLast? = some (3, n) := by
  rw [restoreCore_eq]
  have wakes := onlyWakes_physLoad s a.toNat saveLength 16
  generalize s.physLoad a.toNat saveLength 16 = l at invalid wakes
  have bad : l.1.areaGood n a.toNat l.2 = false := by simp [State.areaGood, invalid]
  dsimp only
  rw [bad, if_neg Bool.false_ne_true, core_report, State.core_onCore_same]
  refine ⟨rfl, ?_, ?_⟩
  · rw [wakes.core n]
  · simp [State.report]

/-! ### What a restore takes leaves no report -/

/-- A run of whole doubles covers each of its doubles whole. -/
theorem wholeIn_storeBytes {o d : Nat} {bs : List Byte} (start : o % 8 = 0) (length : bs.length % 8 = 0) (hd : d ∈ doublesOf o bs.length) :
    wholeIn o (storeBytes bs) d = true := by
  simp only [doublesOf, lineBases, List.map_map, List.mem_map, List.mem_range, Function.comp] at hd
  obtain ⟨i, hi, rfl⟩ := hd
  have size : (storeBytes bs).length = bs.length := by simp [storeBytes]
  have full : (((storeBytes bs).drop ((o / 8 + i) * 8 / 8 * 8 - o)).take 8).all (fun b => b.mask = 0xFF) = true := by
    refine List.all_eq_true.2 fun b hb => ?_
    obtain ⟨x, -, rfl⟩ := List.mem_map.1 (List.mem_of_mem_drop (List.mem_of_mem_take hb))
    rfl
  simp only [wholeIn, full, size, Bool.and_true, Bool.and_eq_true, decide_eq_true_eq]
  omega
theorem loseByStore_reports (s : State) (n : Nat) (ps : List Place) : (ps.foldl (fun t g => t.loseByStore n g) s).reports = s.reports := by
  induction ps generalizing s with
  | nil => rfl
  | cons p r ih =>
    rw [List.foldl_cons, ih]
    simp only [State.loseByStore]
    split
    · split <;> rfl
    · rfl
theorem putSpad_reports (s : State) (n : Nat) {o : Nat} {bs : List Byte} (start : o % 8 = 0) (length : bs.length % 8 = 0) :
    (s.putSpad n o bs).reports = s.reports := by
  have size : (storeBytes bs).length = bs.length := by simp [storeBytes]
  have sound : ((doublesOf o (storeBytes bs).length).find? fun d => partIn o (storeBytes bs) d &&
      s.hurtDouble (quireOf n) (.spad n o) .dflt d) = none := by
    refine List.find?_eq_none.2 fun d hd => ?_
    rw [size] at hd
    simp [partIn, wholeIn_storeBytes start length hd]
  have place : (Place.spad n o).offset = o := rfl
  simp only [State.putSpad, State.performPart, place, sound]
  exact (congrArg State.reports (onlyWakes_wakeWatches ..).rest :).trans (loseByStore_reports ..)
theorem physLoad_length (s : State) {pa len n : Nat} (fuel : len = 0 ∨ pa % 4096 + len ≤ n * 4096) : (s.physLoad pa len n).2.length = len := by
  induction n generalizing s pa len with
  | zero =>
    have none : len = 0 := by omega
    subst none
    rfl
  | succ n ih =>
    unfold State.physLoad
    split
    · rename_i none
      rw [none]
      rfl
    · have cut : Nat.min len (4096 - pa % 4096) = len ∨ Nat.min len (4096 - pa % 4096) = 4096 - pa % 4096 := by
        rcases Nat.le_total len (4096 - pa % 4096) with h | h
        · exact .inl (Nat.min_eq_left h)
        · exact .inr (Nat.min_eq_right h)
      have least : Nat.min len (4096 - pa % 4096) ≤ len := Nat.min_le_left ..
      have home (t : State) (k : Nat) (h x : Nat) : (t.homeBytes h x k).length = k := by simp [State.homeBytes, State.homeCells]
      generalize Nat.min len (4096 - pa % 4096) = k at cut least
      have rest (t : State) : (t.physLoad (pa + k) (len - k) n).2.length = len - k := ih t (by omega)
      dsimp only
      split
      · simp only [List.length_append, State.uncLoad, home, rest]
        omega
      · simp only [List.length_append, List.length_replicate, rest]
        omega

theorem tileRange_doubles {t o m : Nat} (h : tileRange t = some (o, m)) : o % 8 = 0 ∧ m % 8 = 0 := by
  unfold tileRange at h
  dsimp only at h
  split at h
  · cases h
  · cases h
    omega
theorem restoreTile_reports (s : State) (n : Nat) (f : List Byte) {b : List Byte} (length : b.length = saveLength) (k : Nat) {at' : Nat}
    (page : at' % 8 = 0) : (s.restoreTile n f b k at').reports = s.reports := by
  unfold State.restoreTile
  split
  · rename_i o m range
    obtain ⟨start, size⟩ := tileRange_doubles range
    refine putSpad_reports s n start ?_
    rw [List.length_take, List.length_drop, length, saveLength]
    omega
  · rfl
theorem restored_reports (s : State) (n pa : Nat) {b : List Byte} (length : b.length = saveLength)
    (folio : fieldAt ((b.drop 0x9800).take 64) 0x14 4 % 64 = 0) : (s.restored n pa b).reports = s.reports := by
  have size : ((b.drop 0x9800).take 64).length = 64 := by
    rw [List.length_take, List.length_drop, length, saveLength]
    rfl
  refine Eq.trans (restoreTile_reports _ n _ length 0x28 (by decide)) ?_
  exact (restoreTile_reports _ n _ length 0x20 (by decide)).trans (putSpad_reports s n (by omega) (by rw [size]))

/-- A restore of an area that holds what the core can take. -/
theorem restoreCore_taken (same : (s.physLoad a.toNat saveLength 16).1 = s)
    (good : s.areaGood n a.toNat (s.physLoad a.toNat saveLength 16).2 = true)
    (folio : fieldAt (((s.physLoad a.toNat saveLength 16).2.drop 0x9800).take 64) 0x14 4 % 64 = 0) :
    let t := s.restoreCore n a
    let b := (s.physLoad a.toNat saveLength 16).2
    (t.core n).run = .task ∧ (t.core n).restore = none ∧ (t.core n).folio = fieldAt b 0x9814 4 ∧
      (t.core n).ctxs[0].pc = evenPc (BitVec.ofNat 64 (fieldAt b 0x40 8)) ∧
      (∀ r : Reg, (t.core n).ctxs[0].w[r] = BitVec.ofNat 64 (fieldAt b (0x80 + 8 * r.val) 8)) ∧
      (t.core n).csr.epc = BitVec.ofNat 64 (fieldAt b 0x50 8) ∧ t.reports = s.reports := by
  have length : (s.physLoad a.toNat saveLength 16).2.length = saveLength := physLoad_length s (.inr (by unfold saveLength; omega))
  rw [restoreCore_eq]
  dsimp only
  rw [same, if_pos good]
  generalize (s.physLoad a.toNat saveLength 16).2 = b at folio length
  have wakes := (onlyWakes_physStore (s.restored n a.toNat b) a.toNat (toBytes 4 0) 1).trans (sameCores_acquire _ n .dev).onlyWakes
  have reports := restored_reports s n a.toNat length folio
  obtain ⟨c, free, hold, core⟩ : ∃ (c : Core) (free : Nat) (hold : List (Nat × Nat)),
      (s.restored n a.toNat b).core n = { c.loadContext b free with hold := hold } := ⟨_, _, _, State.core_onCore_same ..⟩
  generalize s.restored n a.toNat b = u at wakes reports core
  generalize (u.physStore a.toNat (toBytes 4 0) 1).acquire n .dev = t at wakes
  have ctx : (t.core n).ctxs[0] = { (u.core n).ctxs[0] with woken := (t.core n).ctxs[0].woken } := wakes.ctxs n 0
  have rest := wakes.core n
  have told : t.reports = u.reports := (congrArg State.reports wakes.rest :)
  rw [core] at ctx rest
  refine ⟨by rw [rest]; rfl, by rw [rest]; rfl, by rw [rest]; rfl, ?_, fun r => ?_, by rw [rest]; rfl, told.trans reports⟩
  · rw [ctx]
    simp [Core.loadContext]
  · rw [ctx]
    simp [Core.loadContext]

end

/-! ### The claim -/

theorem claim_preemptionSteps : Claims.PreemptionSteps := by
  intro s n c back met
  refine ⟨?_, ?_, preemptionRequest_refused, fun p => preemptionHoldTimeout_run, ?_, ?_⟩
  · intro a running save ok okBack
    have run := preemptionRequest_taken running (by rw [save]; exact ok) okBack
    rw [save] at run
    have event := coreEvent_requested s n a back
    exact ⟨_, run, event.others, event.sameBytes, requested_reports .., requested_preempt .., requested_met s n a back⟩
  · intro running save okBack
    have run := preemptionRequest_taken running (by rw [save]; rfl) okBack
    rw [save] at run
    have event : CoreEvent s (s.onCore n fun c => { c with restore := back }) n := coreEvent_onCore _ _ _ rfl
    refine ⟨_, run, ?_, event.others, event.sameBytes⟩
    rw [State.core_onCore_same]
    rfl
  · intro p comes request takes
    obtain ⟨u, -, saved⟩ := save_spec request takes
    obtain ⟨seeking, none, restore, hold⟩ := afterSave_core (u.published n) n p
    refine ⟨_, preemptionSave_run comes saved, seeking, none, restore, hold, fun sb wf ok cold => ?_⟩
    obtain ⟨image, valid, head, tiles⟩ := save_area request takes sb wf ok cold saved
    have fields := savedImage valid head tiles
    rw [← image] at fields
    exact fields
  · intro a address ready img
    refine ⟨fun invalid => ?_, fun valid asn ok sound same => ?_⟩
    · obtain ⟨restore, run, report⟩ := restoreCore_refused (n := n) invalid
      exact ⟨_, preemptionRestore_run address ready, restore, run, report⟩
    · have good : s.areaGood n a.toNat img = true := areaGood_of sound valid asn ok
      have folio : fieldAt ((img.drop 0x9800).take 64) 0x14 4 % 64 = 0 := by
        simp only [restorable, Bool.and_eq_true, decide_eq_true_eq] at ok
        obtain ⟨⟨⟨aligned, -⟩, -⟩, -⟩ := ok
        exact aligned
      exact ⟨_, preemptionRestore_run address ready, restoreCore_taken same good folio⟩

/-- Settles O58: where no cache holds a line the area of a save is one run of HBM bytes by page, and the layout of Table 16.7
gives each field back. -/
theorem preemption : Obligations.Preemption := ⟨claim_preemptionSteps, claim_savedContextIsRestored⟩

end Sys2Proof.Machine
end

section
/-! SUPPORT. The words of a chain and what the decoder reads back from them (02, R37 to R42, R56; 03, R70). -/

namespace Sys2Proof

/-! ### Chains that their words spell -/

/-- The fields that stand in RX are zero where the chain has no RX (02, R40, R42). -/
def Chain.fits (c : Chain) : Bool :=
  c.rx || (c.x.toNat < 16 && c.y.toNat < 16 && c.z.toNat < 16 && c.c == 0 && c.m == 0)
/-- The chain has a page that PG can name, no field of a PG that it does not have, an instruction word that is none of the
prefixes, and no SC. -/
def Chain.legal (c : Chain) : Bool :=
  (c.page != 7) && (c.page != 0 || (c.fn == 0 && c.z.extractLsb' 0 4 == 0)) && (c.op.toNat < 56) && c.sc.isNone

/-- The payloads of PG and RX (02, Table 2.2). -/
def Chain.pgBits (c : Chain) : BitVec 11 := c.fn ++ (c.z.extractLsb' 0 4 ++ c.page)
def Chain.rxBits (c : Chain) : BitVec 11 :=
  c.x.extractLsb' 4 1 ++ (c.y.extractLsb' 4 1 ++ (c.z.extractLsb' 4 1 ++ (c.c ++ c.m)))

/-- IX, where the chain has one. -/
def Chain.ixWords (c : Chain) : List Base := c.ix.toList.map fun k => 0b11100#5 ++ k

theorem Chain.pgWord_eq (c : Chain) : c.pgWord = 0b11110#5 ++ c.pgBits := rfl
theorem Chain.rxWord_eq (c : Chain) : c.rxWord = 0b11101#5 ++ c.rxBits := rfl

/-! ### One word -/

/-- A word with its upper bits 111 is one of the prefixes, of the kind and with the payload that its other bits name. -/
theorem prefixWord (t : BitVec 5) (k : BitVec 11) (h : t.extractLsb' 2 3 = 7#3) :
    Base.isPrefix (t ++ k) = true ∧ BitVec.extractLsb' 11 2 (t ++ k) = t.extractLsb' 0 2 ∧
      BitVec.extractLsb' 0 11 (t ++ k) = k := by
  have top : BitVec.extractLsb' 13 3 (t ++ k) = t.extractLsb' 2 3 := BitVec.extractLsb'_append_eq_of_le (by decide)
  exact ⟨by simp [Base.isPrefix, top, h], BitVec.extractLsb'_append_eq_of_le (by decide),
    BitVec.extractLsb'_append_eq_right⟩

theorem Prefixes.read_ixWord (p : Prefixes) (k : BitVec 11) (h : p.ix = .none) :
    p.read (0b11100#5 ++ k) = .more { p with ix := some k } := by
  obtain ⟨isPrefix, kind, payload⟩ := prefixWord 0b11100#5 k rfl
  simp [Prefixes.read, isPrefix, kind, payload, h]

theorem Prefixes.read_rxWord (p : Prefixes) (c : Chain) (h : p.rx = .none) :
    p.read c.rxWord = .more { p with rx := some c.rxBits } := by
  obtain ⟨isPrefix, kind, payload⟩ := prefixWord 0b11101#5 c.rxBits rfl
  simp [Prefixes.read, Chain.rxWord_eq, isPrefix, kind, payload, h]

theorem Chain.pgBits_page (c : Chain) : c.pgBits.extractLsb' 0 3 = c.page :=
  (BitVec.extractLsb'_append_eq_of_add_le (by decide)).trans BitVec.extractLsb'_append_eq_right
theorem Chain.pgBits_z (c : Chain) : c.pgBits.extractLsb' 3 4 = c.z.extractLsb' 0 4 :=
  (BitVec.extractLsb'_append_eq_of_add_le (by decide)).trans BitVec.extractLsb'_append_eq_left
theorem Chain.pgBits_fn (c : Chain) : c.pgBits.extractLsb' 7 4 = c.fn := BitVec.extractLsb'_append_eq_left

theorem Prefixes.read_pgWord (p : Prefixes) (c : Chain) (h : p.pg = .none) (zero : c.page ≠ 0#3) (seven : c.page ≠ 7#3) :
    p.read c.pgWord = .more { p with pg := some c.pgBits } := by
  obtain ⟨isPrefix, kind, payload⟩ := prefixWord 0b11110#5 c.pgBits rfl
  simp [Prefixes.read, Chain.pgWord_eq, isPrefix, kind, payload, h, Chain.pgBits_page, zero, seven]

theorem Chain.rxBits_m (c : Chain) : c.rxBits.extractLsb' 0 3 = c.m :=
  (BitVec.extractLsb'_append_eq_of_add_le (by decide)).trans <|
    (BitVec.extractLsb'_append_eq_of_add_le (by decide)).trans <|
      (BitVec.extractLsb'_append_eq_of_add_le (by decide)).trans BitVec.extractLsb'_append_eq_right
theorem Chain.rxBits_c (c : Chain) : c.rxBits.extractLsb' 3 5 = c.c :=
  (BitVec.extractLsb'_append_eq_of_add_le (by decide)).trans <|
    (BitVec.extractLsb'_append_eq_of_add_le (by decide)).trans <|
      (BitVec.extractLsb'_append_eq_of_add_le (by decide)).trans BitVec.extractLsb'_append_eq_left
theorem Chain.rxBits_z (c : Chain) : c.rxBits.extractLsb' 8 1 = c.z.extractLsb' 4 1 :=
  (BitVec.extractLsb'_append_eq_of_add_le (by decide)).trans <|
    (BitVec.extractLsb'_append_eq_of_add_le (by decide)).trans BitVec.extractLsb'_append_eq_left
theorem Chain.rxBits_y (c : Chain) : c.rxBits.extractLsb' 9 1 = c.y.extractLsb' 4 1 :=
  (BitVec.extractLsb'_append_eq_of_add_le (by decide)).trans BitVec.extractLsb'_append_eq_left
theorem Chain.rxBits_x (c : Chain) : c.rxBits.extractLsb' 10 1 = c.x.extractLsb' 4 1 := BitVec.extractLsb'_append_eq_left

/-! ### The instruction word behind its prefixes -/

/-- What the prefixes of a chain hold together. -/
def Chain.prefixes (c : Chain) : Prefixes :=
  { ix := c.ix, rx := if c.rx then some c.rxBits else none, pg := if c.page == 0 then none else some c.pgBits, sc := none }

theorem Chain.baseWord_op (c : Chain) : c.baseWord.extractLsb' 10 6 = c.op := BitVec.extractLsb'_append_eq_left
theorem Chain.baseWord_x (c : Chain) : c.baseWord.extractLsb' 6 4 = c.x.extractLsb' 0 4 :=
  (BitVec.extractLsb'_append_eq_of_add_le (by decide)).trans BitVec.extractLsb'_append_eq_left
theorem Chain.baseWord_y (c : Chain) : c.baseWord.extractLsb' 2 4 = c.y.extractLsb' 0 4 :=
  (BitVec.extractLsb'_append_eq_of_add_le (by decide)).trans <|
    (BitVec.extractLsb'_append_eq_of_add_le (by decide)).trans BitVec.extractLsb'_append_eq_left
theorem Chain.baseWord_f (c : Chain) : c.baseWord.extractLsb' 0 2 = c.f :=
  (BitVec.extractLsb'_append_eq_of_add_le (by decide)).trans <|
    (BitVec.extractLsb'_append_eq_of_add_le (by decide)).trans BitVec.extractLsb'_append_eq_right

/-- A field is its fifth bit before its four low bits. -/
theorem fifth_append_low (b : BitVec 5) : b.extractLsb' 4 1 ++ b.extractLsb' 0 4 = b :=
  (BitVec.extractLsb'_append_extractLsb'_eq_extractLsb' rfl).trans BitVec.extractLsb'_eq_self
/-- A field below 16 has a zero fifth bit. -/
theorem zero_append_low : ∀ b : BitVec 5, b.toNat < 16 → 0#1 ++ b.extractLsb' 0 4 = b := by decide

theorem Chain.fits_iff (c : Chain) : c.fits = true ↔
    (c.rx = false → c.x.toNat < 16 ∧ c.y.toNat < 16 ∧ c.z.toNat < 16 ∧ c.c = 0#5 ∧ c.m = 0#3) := by
  cases h : c.rx <;> simp [Chain.fits, h, and_assoc]
theorem Chain.legal_iff (c : Chain) : c.legal = true ↔
    c.page ≠ 7#3 ∧ (c.page = 0#3 → c.fn = 0#4 ∧ c.z.extractLsb' 0 4 = 0#4) ∧ c.op.toNat < 56 ∧ c.sc = none := by
  by_cases h : c.page = 0#3 <;> simp [Chain.legal, h, and_assoc]

/-- The prefixes and the instruction word give every field of the chain. -/
theorem Chain.chain_prefixes {c : Chain} (fits : c.fits = true) (legal : c.legal = true) : c.prefixes.chain c.baseWord = c := by
  obtain ⟨-, plain, -, sc⟩ := c.legal_iff.1 legal
  have page : (c.prefixes.pg.getD 0).extractLsb' 0 3 = c.page := by
    by_cases h : c.page = 0#3 <;> simp [Chain.prefixes, h, Chain.pgBits_page]
  have fn : (c.prefixes.pg.getD 0).extractLsb' 7 4 = c.fn := by
    by_cases h : c.page = 0#3
    · simp [Chain.prefixes, h, (plain h).1]
    · simp [Chain.prefixes, h, Chain.pgBits_fn]
  have zLow : (c.prefixes.pg.getD 0).extractLsb' 3 4 = c.z.extractLsb' 0 4 := by
    by_cases h : c.page = 0#3
    · simp [Chain.prefixes, h, (plain h).2]
    · simp [Chain.prefixes, h, Chain.pgBits_z]
  have rest : (c.prefixes.rx.getD 0).extractLsb' 8 1 ++ c.z.extractLsb' 0 4 = c.z ∧
      (c.prefixes.rx.getD 0).extractLsb' 10 1 ++ c.x.extractLsb' 0 4 = c.x ∧
      (c.prefixes.rx.getD 0).extractLsb' 9 1 ++ c.y.extractLsb' 0 4 = c.y ∧
      (c.prefixes.rx.getD 0).extractLsb' 3 5 = c.c ∧ (c.prefixes.rx.getD 0).extractLsb' 0 3 = c.m ∧
      c.prefixes.rx.isSome = c.rx := by
    cases h : c.rx with
    | true =>
      simp [Chain.prefixes, h, Chain.rxBits_z, Chain.rxBits_x, Chain.rxBits_y, Chain.rxBits_c, Chain.rxBits_m,
        fifth_append_low]
    | false =>
      obtain ⟨x, y, z, c0, m0⟩ := c.fits_iff.1 fits h
      simp [Chain.prefixes, h, zero_append_low _ x, zero_append_low _ y, zero_append_low _ z, c0, m0]
  obtain ⟨z, x, y, field, m, rx⟩ := rest
  simp only [Prefixes.chain, page, fn, zLow, z, x, y, field, m, rx, Chain.baseWord_op, Chain.baseWord_x,
    Chain.baseWord_y, Chain.baseWord_f]
  show ({ c with sc := none } : Chain) = c
  rw [← sc]

theorem Chain.baseWord_not_prefix {c : Chain} (h : c.op.toNat < 56) : Base.isPrefix c.baseWord = false := by
  have top : c.baseWord.extractLsb' 13 3 = c.op.extractLsb' 3 3 := BitVec.extractLsb'_append_eq_of_le (by decide)
  have low : c.op.extractLsb' 3 3 ≠ 7#3 := fun e => by
    have e' := congrArg BitVec.toNat e
    simp only [BitVec.extractLsb'_toNat, Nat.shiftRight_eq_div_pow] at e'
    have : c.op.toNat / 2 ^ 3 % 2 ^ 3 = 7 := e'
    omega
  simp [Base.isPrefix, top, low]

theorem Chain.read_baseWord {c : Chain} (fits : c.fits = true) (legal : c.legal = true) :
    c.prefixes.read c.baseWord = .done c := by
  simp [Prefixes.read, Chain.baseWord_not_prefix (c.legal_iff.1 legal).2.2.1, Chain.chain_prefixes fits legal]

/-! ### All words -/

/-- The words, read one after the other behind the prefixes given, make the chain. -/
inductive Spells : Prefixes → List Base → Chain → Prop where
  | done {p : Prefixes} {w : Base} {c : Chain} (h : p.read w = .done c) : Spells p [w] c
  | more {p q : Prefixes} {w : Base} {ws : List Base} {c : Chain} (h : p.read w = .more q) (t : Spells q ws c) :
      Spells p (w :: ws) c

theorem Chain.words_eq {c : Chain} (h : c.sc = none) : c.words =
    (if c.page == 0 then [] else [c.pgWord]) ++ ((if c.rx then [c.rxWord] else []) ++ (c.ixWords ++ [c.baseWord])) := by
  cases e : c.ix <;> simp [Chain.words, Chain.ixWords, h, e]

/-- The words of a chain are read back as the chain: PG, RX and IX where they stand, then the instruction word. -/
theorem Chain.spells_words {c : Chain} (fits : c.fits = true) (legal : c.legal = true) : Spells Prefixes.none c.words c := by
  obtain ⟨seven, -, -, sc⟩ := c.legal_iff.1 legal
  have base : Spells c.prefixes [c.baseWord] c := .done (Chain.read_baseWord fits legal)
  have ix : Spells { c.prefixes with ix := none } (c.ixWords ++ [c.baseWord]) c := by
    cases h : c.ix with
    | none => simpa [Chain.prefixes, Chain.ixWords, h] using base
    | some k =>
      have rest : Spells { c.prefixes with ix := some k } [c.baseWord] c := by simpa [Chain.prefixes, h] using base
      simpa [Chain.ixWords, h] using Spells.more (Prefixes.read_ixWord { c.prefixes with ix := none } k rfl) rest
  have rx : Spells { c.prefixes with ix := none, rx := none } ((if c.rx then [c.rxWord] else []) ++
      (c.ixWords ++ [c.baseWord])) c := by
    cases h : c.rx with
    | false => simpa [Chain.prefixes, h] using ix
    | true =>
      refine .more (Prefixes.read_rxWord _ c rfl) ?_
      simpa [Chain.prefixes, h] using ix
  rw [Chain.words_eq sc]
  by_cases h : c.page = 0#3
  · simpa [Chain.prefixes, Prefixes.none, h] using rx
  · have rest : Spells { Prefixes.none with pg := some c.pgBits }
        ((if c.rx then [c.rxWord] else []) ++ (c.ixWords ++ [c.baseWord])) c := by
      simpa [Chain.prefixes, Prefixes.none, h] using rx
    simpa [h] using Spells.more (Prefixes.read_pgWord Prefixes.none c rfl h seven) rest

/-- What stands behind the words of a chain is not read. -/
theorem Spells.parse {p : Prefixes} {ws : List Base} {c : Chain} (h : Spells p ws c) (n : Nat) (rest : List Base) :
    parseWords n p (ws ++ rest) = some (c, n + ws.length) := by
  induction h generalizing n with
  | done h => simp [parseWords, h]
  | more h _ ih => simp [parseWords, h, ih, Nat.add_assoc, Nat.add_comm 1]

theorem Chain.decodeWords_words {c : Chain} (fits : c.fits = true) (legal : c.legal = true) (rest : List Base) :
    decodeWords (c.words ++ rest) = (decodeChain c).map fun i => (i, c.words.length) := by
  simp [decodeWords, (Chain.spells_words fits legal).parse 0 rest]

end Sys2Proof
end

section
/-! SUPPORT. The encoder's chains, shape by shape, and the instruction that the decoder reads from each (02, Tables 2.5 to
2.15; 03, R70). -/

namespace Sys2Proof

/-! ### Codes of fields -/

@[simp] theorem Size.ofBits_code (z : Size) : Size.ofBits z.code = z := by cases z <;> rfl
@[simp] theorem Request.ofBits_code (r : Request) : Request.ofBits r.code = some r := by cases r <;> rfl
@[simp] theorem Scope.ofCode_code (s : Scope) : Scope.ofCode s.code.toNat = some s := by cases s <;> rfl
@[simp] theorem Ord.ofBits_code (o : Ord) : Ord.ofBits o.code = o := by cases o <;> rfl
@[simp] theorem IntTy.ofBits_code (t : IntTy) : IntTy.ofBits t.code = some t := by cases t <;> rfl
@[simp] theorem FloatTy.ofBits_code (t : FloatTy) : FloatTy.ofBits t.code = some t := by
  cases t with
  | fm k => fin_cases k <;> rfl
  | _ => rfl
@[simp] theorem Port.ofBits_code (p : Port) : Port.ofBits p.code = some p := by cases p <;> rfl
@[simp] theorem Block.ofBits_code (f : Block) : Block.ofBits f.code = some f := by cases f <;> rfl
@[simp] theorem Filter.ofBits_code (f : Filter) : Filter.ofBits f.code = some f := by cases f <;> rfl
@[simp] theorem roundingOf_code (r : Option Rounding) : roundingOf (r.map Rounding.code) = some r := by
  cases r with
  | none => rfl
  | some r => cases r <;> rfl
@[simp] theorem mreg_small : ∀ m : MReg, mreg (bits5 (small m.val)) = some m := by decide
@[simp] theorem reg4_small : ∀ a : Fin 4, reg4 (bits5 (small a.val)) = some a := by decide
theorem small_lt : ∀ m : MReg, Kind.other.ok (bits5 (small m.val)) = true := by decide
theorem small4_lt : ∀ a : Fin 4, Kind.other.ok (bits5 (small a.val)) = true := by decide
theorem Port.code_lt (p : Port) : Kind.other.ok p.code = true := by cases p <;> rfl

/-! ### RX -/

/-- `needRx` sets RX where a field does not fit without it. -/
theorem Chain.fits_needRx (c : Chain) (forced : Bool) : (c.needRx forced).fits = true := by
  simp only [Chain.fits_iff, Chain.needRx]
  intro h
  simp only [Bool.or_eq_false_iff, decide_eq_false_iff_not, bne_eq_false_iff_eq] at h
  obtain ⟨⟨⟨⟨⟨-, x⟩, y⟩, z⟩, c0⟩, m0⟩ := h
  exact ⟨by omega, by omega, by omega, c0, m0⟩
/-- So does `source`, and it names the first source in C where RX is present. -/
theorem Chain.fits_source (c : Chain) (d a b : Fin 32) : (c.source d a b).fits = true := by
  simp only [Chain.fits_iff, Chain.source]
  intro h
  simp only [h, Bool.false_eq_true, if_false]
  simp only [Bool.or_eq_false_iff, decide_eq_false_iff_not, bne_eq_false_iff_eq] at h
  obtain ⟨⟨⟨⟨-, x⟩, y⟩, z⟩, m0⟩ := h
  exact ⟨Nat.lt_of_not_le x, Nat.lt_of_not_le y, by omega, rfl, m0⟩
@[simp] theorem Chain.a_source (c : Chain) (d a b : Fin 32) : (c.source d a b).a = a := by
  simp only [Chain.a, Chain.source]
  split
  · rfl
  · rename_i h
    simp only [Bool.or_eq_true, not_or, bne_iff_ne, ne_eq, not_not] at h
    exact h.1.1.1.1.symm

/-! ### Immediates -/

theorem zero_lt_16 : (0 : BitVec 5).toNat < 16 := by decide
theorem low_zeroExtend : ∀ k : BitVec 4, (k.zeroExtend 5).extractLsb' 0 4 = k := by decide
theorem zeroExtend_lt : ∀ k : BitVec 4, (k.zeroExtend 5).toNat < 16 := by decide

@[simp] theorem Chain.k6_low6 (c : Chain) (k : BitVec 6) : (c.low6 k).k6 = k := by
  have y : ((k.extractLsb' 2 4).zeroExtend 5).extractLsb' 0 4 = k.extractLsb' 2 4 := low_zeroExtend _
  simp only [Chain.k6, Chain.low6, y]
  exact (BitVec.extractLsb'_append_extractLsb'_eq_extractLsb' rfl).trans BitVec.extractLsb'_eq_self
@[simp] theorem Chain.k10_low10 (c : Chain) (k : BitVec 10) : (c.low10 k).k10 = k := by
  have x : ((k.extractLsb' 6 4).zeroExtend 5).extractLsb' 0 4 = k.extractLsb' 6 4 := low_zeroExtend _
  have y : ((k.extractLsb' 2 4).zeroExtend 5).extractLsb' 0 4 = k.extractLsb' 2 4 := low_zeroExtend _
  have low : k.extractLsb' 2 4 ++ k.extractLsb' 0 2 = k.extractLsb' 0 6 :=
    BitVec.extractLsb'_append_extractLsb'_eq_extractLsb' rfl
  simp only [Chain.k10, Chain.low10, x, y, low]
  exact (BitVec.extractLsb'_append_extractLsb'_eq_extractLsb' rfl).trans BitVec.extractLsb'_eq_self
theorem Chain.fits_low6 {c : Chain} (k : BitVec 6) (h : c.fits = true) : (c.low6 k).fits = true := by
  rw [Chain.fits_iff] at h ⊢
  intro rx
  obtain ⟨x, -, z, c0, m0⟩ := h rx
  exact ⟨x, zeroExtend_lt _, z, c0, m0⟩
theorem Chain.fits_low10 {c : Chain} (k : BitVec 10) (h : c.fits = true) : (c.low10 k).fits = true := by
  rw [Chain.fits_iff] at h ⊢
  intro rx
  obtain ⟨-, -, z, c0, m0⟩ := h rx
  exact ⟨zeroExtend_lt _, zeroExtend_lt _, z, c0, m0⟩

/-- With IX where the base bits do not hold it, an immediate reads back whole. -/
theorem append_low6 (k : BitVec 17) : k.extractLsb' 6 11 ++ k.extractLsb' 0 6 = k :=
  (BitVec.extractLsb'_append_extractLsb'_eq_extractLsb' rfl).trans BitVec.extractLsb'_eq_self
theorem append_low10 (k : BitVec 21) : k.extractLsb' 10 11 ++ k.extractLsb' 0 10 = k :=
  (BitVec.extractLsb'_append_extractLsb'_eq_extractLsb' rfl).trans BitVec.extractLsb'_eq_self

/-! ### What a chain is read as -/

/-- The words of the chain spell it, and it is the instruction's. -/
structure Reads (c : Chain) (i : Instr) : Prop where
  fits : c.fits = true
  legal : c.legal = true
  decodes : decodeChain c = some i
/-- The encoder gives the instruction a chain that reads as it. -/
def Encodes (i : Instr) : Prop := ∃ c, encodeChain i = some c ∧ Reads c i

/-- The checks of a chain against its form that concern its fields: all but those of the marks of SC. -/
def Form.fields (g : Form) (c : Chain) : Bool :=
  g.ix.ok c.ix.isSome && g.rx.ok c.rx
    && (if g.fmt == .rr || g.fmt == .ri || g.fmt == .rf then g.x.ok c.x else c.x.toNat < 16)
    && (if g.fmt == .rr then g.y.ok c.y else c.y.toNat < 16)
    && g.z.ok c.z && g.c.ok c.c && (g.m || c.m == 0) && (g.fn || c.fn == 0)
/-- A chain without SC has no marks to check. -/
theorem Form.ok_of_fields {g : Form} {c : Chain} (sc : c.sc = none) (fields : g.fields c = true) : g.ok c = true := by
  simpa [Form.ok, Form.fields, Chain.adv, sc] using fields

theorem reads_of {c : Chain} {g : Form} {i : Instr} (fits : c.fits = true) (read : decodePage c = some (g, i))
    (fields : g.fields c = true) (legal : c.legal = true) : Reads c i :=
  ⟨fits, legal, by simp [decodeChain, decodeForm, read, Form.ok_of_fields (c.legal_iff.1 legal).2.2.2 fields]⟩

/-! ### Fields of the formats without Y and without X -/

section
variable {c : Chain} {g : Form}

/-- In the formats RI and RF bits [5:0] are no field Y, whose fifth bit stays unused. -/
theorem fields_ri (y : c.y.toNat < 16) (fmt : g.fmt = .ri ∨ g.fmt = .rf)
    (rest : ({ g with fmt := .rr, y := .w } : Form).fields c = true) : g.fields c = true := by
  rcases fmt with h | h <;> simpa [Form.fields, Kind.ok, h, y] using rest
/-- In the formats I10 and N bits [9:0] are no fields X and Y. -/
theorem fields_i10 (x : c.x.toNat < 16) (y : c.y.toNat < 16) (fmt : g.fmt = .i10 ∨ g.fmt = .n)
    (rest : ({ g with fmt := .rr, x := .w, y := .w } : Form).fields c = true) : g.fields c = true := by
  rcases fmt with h | h <;> simpa [Form.fields, Kind.ok, h, x, y] using rest

/-- A field that holds no register number is below 16. -/
theorem fields_x (x : Kind.other.ok c.x = true) (other : g.x = .other) (fmt : g.fmt = .rr)
    (rest : ({ g with x := .w } : Form).fields c = true) : g.fields c = true := by
  have w : Kind.ok .w c.x = true := rfl
  simpa only [Form.fields, fmt, other, x, w] using rest
theorem fields_y (y : Kind.other.ok c.y = true) (other : g.y = .other) (fmt : g.fmt = .rr)
    (rest : ({ g with y := .w } : Form).fields c = true) : g.fields c = true := by
  have w : Kind.ok .w c.y = true := rfl
  simpa only [Form.fields, fmt, other, y, w] using rest
theorem fields_z (z : Kind.other.ok c.z = true) (other : g.z = .other)
    (rest : ({ g with z := .w } : Form).fields c = true) : g.fields c = true := by
  have w : Kind.ok .w c.z = true := rfl
  simpa only [Form.fields, other, z, w] using rest

theorem fields_c (field : Kind.other.ok c.c = true) (other : g.c = .other)
    (rest : ({ g with c := .w } : Form).fields c = true) : g.fields c = true := by
  have w : Kind.ok .w c.c = true := rfl
  simpa only [Form.fields, other, field, w] using rest

/-- The rows of an RF opcode with two functions, in a word whose field Y is zero. -/
theorem read_function {r r' : Form × Instr} (y : c.y = 0)
    (read : decodePage c = match c.k6.toNat with | 0 => some r | 1 => some r' | _ => none) :
    (c.f = 0 → decodePage c = some r) ∧ (c.f = 1 → decodePage c = some r') := by
  have function : c.k6 = 0#4 ++ c.f := by rw [Chain.k6, y]; rfl
  rw [read, function]
  exact ⟨fun h => by rw [h]; rfl, fun h => by rw [h]; rfl⟩

end

section
variable {c : Chain}

/-- A chain without IX is as it is. -/
theorem withoutIx (absent : c.ix = none) : ({ c with ix := none } : Chain) = c := by rw [← absent]

/-- An offset reads as itself, a zero one from no IX. -/
theorem reads_offset {k : BitVec 11} {g : Form} {i : Instr} (absent : c.ix = none) (fits : c.fits = true)
    (read : ∀ o : Option (BitVec 11), o.getD 0 = k → decodePage { c with ix := o } = some (g, i))
    (fields : ∀ o, g.fields { c with ix := o } = true) (legal : c.legal = true) : Reads (c.offset k) i := by
  have any (o : Option (BitVec 11)) (h : o.getD 0 = k) : Reads { c with ix := o } i :=
    reads_of fits (read o h) (fields o) legal
  unfold Chain.offset
  split
  · rename_i zero
    have short := any none (beq_iff_eq.1 zero).symm
    rwa [withoutIx absent] at short
  · exact any (some k) rfl

/-- An immediate of format RI reads as itself, from the base word alone or with IX. -/
theorem reads_signed17 {k : BitVec 17} {g : Form} {i : Instr} (absent : c.ix = none) (fits : c.fits = true)
    (read : ∀ l o, ({ c.low6 l with ix := o } : Chain).simm = k → decodePage { c.low6 l with ix := o } = some (g, i))
    (fmt : g.fmt = .ri)
    (rest : ∀ l o, ({ g with fmt := .rr, y := .w } : Form).fields { c.low6 l with ix := o } = true)
    (legal : c.legal = true) : Reads (c.signed17 k) i := by
  have any (l : BitVec 6) (o : Option (BitVec 11)) (h : ({ c.low6 l with ix := o } : Chain).simm = k) :
      Reads { c.low6 l with ix := o } i :=
    reads_of (Chain.fits_low6 (c := c) l fits) (read l o h) (fields_ri (zeroExtend_lt _) (.inl fmt) (rest l o)) legal
  have narrow (l : BitVec 6) : ({ c.low6 l with ix := none } : Chain).simm = l.signExtend 17 :=
    congrArg (BitVec.signExtend 17) (Chain.k6_low6 c l)
  have wide (l : BitVec 6) (o : BitVec 11) : ({ c.low6 l with ix := some o } : Chain).simm = o ++ l :=
    congrArg (o ++ ·) (Chain.k6_low6 c l)
  simp only [Chain.signed17]
  split
  · rename_i short
    have alone := any (k.extractLsb' 0 6) none ((narrow _).trans (beq_iff_eq.1 short))
    rwa [withoutIx (c := c.low6 _) absent] at alone
  · exact any _ _ ((wide _ _).trans (append_low6 k))
theorem reads_unsigned17 {k : BitVec 17} {g : Form} {i : Instr} (absent : c.ix = none) (fits : c.fits = true)
    (read : ∀ l o, ({ c.low6 l with ix := o } : Chain).uimm = k → decodePage { c.low6 l with ix := o } = some (g, i))
    (fmt : g.fmt = .ri)
    (rest : ∀ l o, ({ g with fmt := .rr, y := .w } : Form).fields { c.low6 l with ix := o } = true)
    (legal : c.legal = true) : Reads (c.unsigned17 k) i := by
  have any (l : BitVec 6) (o : Option (BitVec 11)) (h : ({ c.low6 l with ix := o } : Chain).uimm = k) :
      Reads { c.low6 l with ix := o } i :=
    reads_of (Chain.fits_low6 (c := c) l fits) (read l o h) (fields_ri (zeroExtend_lt _) (.inl fmt) (rest l o)) legal
  have narrow (l : BitVec 6) : ({ c.low6 l with ix := none } : Chain).uimm = l.zeroExtend 17 :=
    congrArg (BitVec.zeroExtend 17) (Chain.k6_low6 c l)
  have wide (l : BitVec 6) (o : BitVec 11) : ({ c.low6 l with ix := some o } : Chain).uimm = o ++ l :=
    congrArg (o ++ ·) (Chain.k6_low6 c l)
  simp only [Chain.unsigned17]
  split
  · rename_i short
    have alone := any (k.extractLsb' 0 6) none ((narrow _).trans (beq_iff_eq.1 short))
    rwa [withoutIx (c := c.low6 _) absent] at alone
  · exact any _ _ ((wide _ _).trans (append_low6 k))
/-- An offset of format I10. -/
theorem reads_jump {k : BitVec 21} {g : Form} {i : Instr} (absent : c.ix = none) (fits : c.fits = true)
    (read : ∀ l o, ({ c.low10 l with ix := o } : Chain).joff = k → decodePage { c.low10 l with ix := o } = some (g, i))
    (fmt : g.fmt = .i10)
    (rest : ∀ l o, ({ g with fmt := .rr, x := .w, y := .w } : Form).fields { c.low10 l with ix := o } = true)
    (legal : c.legal = true) : Reads (c.jump k) i := by
  have any (l : BitVec 10) (o : Option (BitVec 11)) (h : ({ c.low10 l with ix := o } : Chain).joff = k) :
      Reads { c.low10 l with ix := o } i :=
    reads_of (Chain.fits_low10 (c := c) l fits) (read l o h)
      (fields_i10 (zeroExtend_lt _) (zeroExtend_lt _) (.inl fmt) (rest l o)) legal
  have narrow (l : BitVec 10) : ({ c.low10 l with ix := none } : Chain).joff = l.signExtend 21 :=
    congrArg (BitVec.signExtend 21) (Chain.k10_low10 c l)
  have wide (l : BitVec 10) (o : BitVec 11) : ({ c.low10 l with ix := some o } : Chain).joff = o ++ l :=
    congrArg (o ++ ·) (Chain.k10_low10 c l)
  simp only [Chain.jump]
  split
  · rename_i short
    have alone := any (k.extractLsb' 0 10) none ((narrow _).trans (beq_iff_eq.1 short))
    rwa [withoutIx (c := c.low10 _) absent] at alone
  · exact any _ _ ((wide _ _).trans (append_low10 k))

end

/-! ### Shapes that the decoder reads back by a rule -/

section
variable {page op f : Nat}

/-- Two sources: the first is in C or in X. -/
theorem reads_enc2S {k : Reg → Reg → Reg → Instr} {d a b : Reg}
    (read : decodePage (enc2S op f d a b) = some (form2S, k d (enc2S op f d a b).a b))
    (legal : (enc2S op f d a b).legal = true) : Reads (enc2S op f d a b) (k d a b) := by
  rw [enc2S, Chain.a_source] at read
  exact reads_of (Chain.fits_source ..) read rfl legal

/-- A bit field at a constant position. -/
theorem reads_encField {k : Reg → Reg → BitVec 11 → Instr} {d a : Reg} {n : BitVec 11}
    (read : decodePage { enc2S op f d a 0 with ix := some n } =
      some ({ x := .w, c := .w, ix := .must }, k d (enc2S op f d a 0).a n))
    (legal : (enc2S op f d a 0).legal = true) :
    Reads { enc2S op f d a 0 with ix := some n } (k d a n) := by
  rw [enc2S, Chain.a_source] at read
  exact reads_of (Chain.fits_source ..) read rfl legal

/-- A shift by a constant. -/
theorem reads_encShift {k : Reg → Reg → BitVec 6 → Instr} {d a : Reg} {n : BitVec 6}
    (read : decodePage (encShift op d a n) =
      some (formShift, k d ((Chain.plain 0 op 0).source d a 0).a (encShift op d a n).k6))
    (legal : (encShift op d a n).legal = true) : Reads (encShift op d a n) (k d a n) := by
  rw [encShift, Chain.a_source, Chain.k6_low6] at read
  exact reads_of (Chain.fits_low6 n (Chain.fits_source ..)) read (fields_ri (zeroExtend_lt _) (.inl rfl) rfl) legal

theorem reads_addi {d a : Reg} {n : BitVec 17} : Reads (((Chain.plain 0 0x0D 0).source d a 0).signed17 n) (.addi d a n) := by
  have read (l : BitVec 6) (o : Option (BitVec 11)) :
      decodePage { ((Chain.plain 0 0x0D 0).source d a 0).low6 l with ix := o } =
        some (formImm, .addi d ((Chain.plain 0 0x0D 0).source d a 0).a
          ({ ((Chain.plain 0 0x0D 0).source d a 0).low6 l with ix := o } : Chain).simm) := rfl
  simp only [Chain.a_source] at read
  exact reads_signed17 rfl (Chain.fits_source ..) (fun l o h => h ▸ read l o) rfl (fun _ _ => rfl) rfl

/-- A register and a six-bit field. -/
theorem reads_encX_low6 {k : Reg → BitVec 6 → Instr} {a : Reg} {n : BitVec 6}
    (read : decodePage ((encX page op f a).low6 n) = some (formCsr, k a ((encX page op f a).low6 n).k6))
    (legal : ((encX page op f a).low6 n).legal = true) : Reads ((encX page op f a).low6 n) (k a n) := by
  rw [Chain.k6_low6] at read
  exact reads_of (Chain.fits_low6 n (Chain.fits_needRx ..)) read (fields_ri (zeroExtend_lt _) (.inl rfl) rfl) legal

/-- An `amo`: the ordering in F, the scope in M. -/
theorem reads_encAmo {k : Ord → Scope → Reg → Reg → Reg → Instr} {fn : BitVec 4} {o : Ord} {s : Scope} {d a b : Reg}
    (read : decodePage (encAmo op o.code fn s d a b) =
      (Scope.ofCode s.code.toNat).map fun s => (formAmo, k (Ord.ofBits o.code) s d a b))
    (legal : (encAmo op o.code fn s d a b).legal = true) : Reads (encAmo op o.code fn s d a b) (k o s d a b) := by
  rw [Ord.ofBits_code, Scope.ofCode_code] at read
  exact reads_of rfl read rfl legal

/-- An `lr` and an `sc`: the ordering in FN, the scope in M. -/
theorem reads_encLr {k : Ord → Scope → Reg → Reg → Instr} {o : Ord} {s : Scope} {d a : Reg}
    (read : decodePage (encLr f o s d a) = if (o.code.zeroExtend 4).toNat < 4 then
      (Scope.ofCode s.code.toNat).map fun s => (formLr, k (Ord.ofBits ((o.code.zeroExtend 4).extractLsb' 0 2)) s d a)
      else none)
    (legal : (encLr f o s d a).legal = true) : Reads (encLr f o s d a) (k o s d a) := by
  have order : Ord.ofBits ((o.code.zeroExtend 4).extractLsb' 0 2) = o := by cases o <;> rfl
  have small : (o.code.zeroExtend 4).toNat < 4 := by cases o <;> decide
  rw [if_pos small, order, Scope.ofCode_code] at read
  exact reads_of (Chain.fits_needRx ..) read rfl legal
theorem reads_encSc {k : Ord → Scope → Reg → Reg → Reg → Instr} {fb : BitVec 2} {o : Ord} {s : Scope} {d a b : Reg}
    (read : decodePage (encAmo op fb (o.code.zeroExtend 4) s d a b) = if (o.code.zeroExtend 4).toNat < 4 then
      (Scope.ofCode s.code.toNat).map fun s => (formAmo, k (Ord.ofBits ((o.code.zeroExtend 4).extractLsb' 0 2)) s d a b)
      else none)
    (legal : (encAmo op fb (o.code.zeroExtend 4) s d a b).legal = true) :
    Reads (encAmo op fb (o.code.zeroExtend 4) s d a b) (k o s d a b) := by
  have order : Ord.ofBits ((o.code.zeroExtend 4).extractLsb' 0 2) = o := by cases o <;> rfl
  have small : (o.code.zeroExtend 4).toNat < 4 := by cases o <;> decide
  rw [if_pos small, order, Scope.ofCode_code] at read
  exact reads_of rfl read rfl legal

end

/-! ### Memory -/

/-- A load or a store without its offset. -/
def memChain (op : Nat) (f : BitVec 2) (d b : Reg) (r : Request) : Chain :=
  ({ Chain.plain 0 op 0 with f := f, x := bits5 d, y := bits5 b, m := r.code } : Chain).needRx false

section
variable {op : Nat} {z : Size} {d b c : Reg} {off : BitVec 11} {r : Request}

theorem reads_encMem {k : Size → Reg → Reg → BitVec 11 → Request → Instr}
    (read : ∀ o, decodePage { memChain op z.code d b r with ix := o } =
      (Request.ofBits r.code).map fun r => (formMem, k (Size.ofBits z.code) d b (o.getD 0) r))
    (legal : (memChain op z.code d b r).legal = true) : Reads (encMem op z.code d b off r) (k z d b off r) := by
  simp only [Size.ofBits_code, Request.ofBits_code] at read
  exact reads_offset rfl (Chain.fits_needRx ..) (fun o h => h ▸ read o) (fun _ => rfl) legal

theorem reads_encMemX {k : Size → Reg → Reg → Reg → Request → Instr}
    (read : decodePage (encMemX op z d b c r) =
      (Request.ofBits r.code).map fun r => (formMemX, k (Size.ofBits z.code) d b c r))
    (legal : (encMemX op z d b c r).legal = true) : Reads (encMemX op z d b c r) (k z d b c r) := by
  rw [Size.ofBits_code, Request.ofBits_code] at read
  exact reads_of rfl read rfl legal

/-- A packed block, whose register pair begins with an even register. -/
theorem reads_block {k : Block → Reg → Reg → BitVec 11 → Request → Instr} {f : Block} (pair : f.regOk d = true)
    (read : ∀ o, decodePage { memChain op f.code d b r with ix := o } =
      match Block.ofBits f.code, Request.ofBits r.code with
        | some g, some q => if g.regOk d then some (formMem, k g d b (o.getD 0) q) else none
        | _, _ => none)
    (legal : (memChain op f.code d b r).legal = true) : Reads (encMem op f.code d b off r) (k f d b off r) := by
  simp only [Block.ofBits_code, Request.ofBits_code, pair, if_true] at read
  exact reads_offset rfl (Chain.fits_needRx ..) (fun o h => h ▸ read o) (fun _ => rfl) legal

end

/-! ### Vectors -/

@[simp] theorem a_encV3 (page op f : Nat) (fn : BitVec 4) (d a b : Fin 32) (m : MReg) :
    (encV3 page op f fn d a b m).a = a := Chain.a_source ..
/-- A comparison names its destination, a mask, in X. -/
theorem fields_compare {page op f : Nat} {fn : BitVec 4} {e : MReg} {a b : Fin 32} {m : MReg} :
    formVC.fields (encV3 page op f fn (small e.val) a b m) = true := by
  have x : Kind.other.ok (encV3 page op f fn (small e.val) a b m).x = true := small_lt e
  show (_ && Kind.other.ok (encV3 page op f fn (small e.val) a b m).x && _ && _ && _ && _ && _) = true
  rw [x]
  rfl

section
variable {page op f : Nat} {t : IntTy} {d a b : VReg} {m : MReg}

/-- What the decoder reads for a type code that names the type. -/
theorem read_int {c : Chain} {r : IntTy → Read}
    (read : decodePage c = match IntTy.ofBits t.code with | some t => r t | none => none) : decodePage c = r t := by
  rw [read, IntTy.ofBits_code]

theorem reads_encV3 {k : IntTy → VReg → VReg → VReg → MReg → Instr}
    (read : decodePage (encV3 2 op f t.code d a b m) = match IntTy.ofBits t.code with
      | some u => some (formV3, k u d (encV3 2 op f t.code d a b m).a b m) | none => none)
    (legal : (encV3 2 op f t.code d a b m).legal = true) : Reads (encV3 2 op f t.code d a b m) (k t d a b m) := by
  rw [a_encV3] at read
  exact reads_of (Chain.fits_source ..) (read_int read) rfl legal

theorem reads_encV2 {g : Form} {k : IntTy → Fin 32 → Fin 32 → MReg → Instr}
    (read : decodePage (encV2 2 op f t.code d b m) = match IntTy.ofBits t.code with
      | some u => some (g, k u d b m) | none => none)
    (fields : g.fields (encV2 2 op f t.code d b m) = true) (legal : (encV2 2 op f t.code d b m).legal = true) :
    Reads (encV2 2 op f t.code d b m) (k t d b m) :=
  reads_of (Chain.fits_needRx ..) (read_int read) fields legal

theorem reads_compare {k : IntTy → MReg → VReg → VReg → MReg → Instr} {e : MReg}
    (read : decodePage (encV3 2 op f t.code (small e.val) a b m) = match IntTy.ofBits t.code with
      | some u => (mreg (bits5 (small e.val))).map fun x => (formVC, k u x (encV3 2 op f t.code (small e.val) a b m).a b m)
      | none => none)
    (legal : (encV3 2 op f t.code (small e.val) a b m).legal = true) :
    Reads (encV3 2 op f t.code (small e.val) a b m) (k t e a b m) := by
  rw [a_encV3, mreg_small] at read
  exact reads_of (Chain.fits_source ..) (read_int read) fields_compare legal

/-- A form of signed types. -/
theorem reads_signed {k : IntTy → VReg → VReg → MReg → Instr} (signed : t.signed = true)
    (read : decodePage (encV2 2 op f t.code d b m) = match IntTy.ofBits t.code with
      | some u => if u.signed then some (formV2, k u d b m) else none | none => none)
    (legal : (encV2 2 op f t.code d b m).legal = true) : Reads (encV2 2 op f t.code d b m) (k t d b m) :=
  reads_of (Chain.fits_needRx ..) ((read_int read).trans (if_pos signed)) rfl legal

/-- One lane, which IX names. -/
theorem reads_lane {g : Form} {k : IntTy → Fin 32 → Fin 32 → BitVec 11 → Instr} {n : BitVec 11} (inside : n.toNat < t.lanes)
    (read : decodePage { encV2 2 op f t.code d b 0 with ix := some n } = match IntTy.ofBits t.code with
      | some u => if n.toNat < u.lanes then some (g, k u d b n) else none | none => none)
    (fields : g.fields { encV2 2 op f t.code d b 0 with ix := some n } = true)
    (legal : (encV2 2 op f t.code d b 0).legal = true) : Reads { encV2 2 op f t.code d b 0 with ix := some n } (k t d b n) :=
  reads_of (Chain.fits_needRx ..) ((read_int read).trans (if_pos inside)) fields legal

theorem reads_slide {n : BitVec 11} (inside : n.toInt.natAbs ≤ t.lanes) :
    Reads { encV3 2 0x08 3 t.code d a b m with ix := some n } (.vslide t d a b n m) := by
  have read : decodePage { encV3 2 0x08 3 t.code d a b m with ix := some n } = match IntTy.ofBits t.code with
      | some u => if n.toInt.natAbs ≤ u.lanes then
          some ({ formV3 with ix := .must }, .vslide u d (encV3 2 0x08 3 t.code d a b m).a b n m) else none
      | none => none := rfl
  rw [a_encV3] at read
  exact reads_of (Chain.fits_source ..) ((read_int read).trans (if_pos inside)) rfl rfl

/-- A select by a mask, which Z names. -/
theorem reads_select {z : MReg} :
    Reads (({ Chain.plain 2 0x05 3 with fn := t.code, z := bits5 (small z.val), m := BitVec.ofFin m } : Chain).source d a b)
      (.vsel t d a b z m) := by
  have read : decodePage (({ Chain.plain 2 0x05 3 with
      fn := t.code, z := bits5 (small z.val), m := BitVec.ofFin m } : Chain).source d a b) =
      match IntTy.ofBits t.code with
        | some u => (mreg (bits5 (small z.val))).map fun x =>
            ({ formV3 with z := .other }, .vsel u d (Chain.source { Chain.plain 2 0x05 3 with
              fn := t.code, z := bits5 (small z.val), m := BitVec.ofFin m } d a b).a b x m)
        | none => none := rfl
  rw [Chain.a_source, mreg_small] at read
  exact reads_of (Chain.fits_source ..) (read_int read) (fields_z (small_lt z) rfl rfl) rfl

/-- Vector loads and stores. -/
theorem reads_vectorOffset {k : IntTy → VReg → Reg → BitVec 11 → MReg → Instr} {off : BitVec 11}
    (read : ∀ o, decodePage { encV2 2 op f t.code d b m with ix := o } = match IntTy.ofBits t.code with
      | some u => some ({ x := .v, y := .w, m := true, fn := true, ix := .may }, k u d b (o.getD 0) m) | none => none)
    (legal : (encV2 2 op f t.code d b m).legal = true) :
    Reads ((encV2 2 op f t.code d b m).offset off) (k t d b off m) :=
  reads_offset rfl (Chain.fits_needRx ..) (fun o h => h ▸ read_int (read o)) (fun _ => rfl) legal

/-- Gathers and scatters, of lanes wider than four bits. -/
theorem reads_indexed {k : IntTy → VReg → Reg → VReg → MReg → Instr} {x : VReg} (wide : t.lane ≠ 4)
    (read : decodePage { encXYC 2 op f d b x with fn := t.code, m := BitVec.ofFin m } = match IntTy.ofBits t.code with
      | some u => if u.lane != 4 then
          some ({ x := .v, y := .w, c := .v, m := true, fn := true, rx := .must }, k u d b x m) else none
      | none => none)
    (legal : ({ encXYC 2 op f d b x with fn := t.code, m := BitVec.ofFin m } : Chain).legal = true) :
    Reads { encXYC 2 op f d b x with fn := t.code, m := BitVec.ofFin m } (k t d b x m) :=
  reads_of rfl ((read_int read).trans (if_pos (bne_iff_ne.2 wide))) rfl legal

end

/-! ### Masks -/

section
variable {op f : Nat}

/-- The bits of the first source, from C or from X. -/
theorem source_first (c : Chain) (d a b : Fin 32) :
    (if (c.source d a b).rx then (c.source d a b).c else (c.source d a b).x) = bits5 a := by
  simp only [Chain.source]
  split
  · rfl
  · rename_i h
    simp only [Bool.or_eq_true, not_or, bne_iff_ne, ne_eq, not_not] at h
    rw [h.1.1.1.1]
theorem source_c_lt (c : Chain) (d : Fin 32) (a : MReg) (b : Fin 32) :
    Kind.other.ok (c.source d (small a.val) b).c = true := by
  simp only [Chain.source]
  split
  · exact small_lt a
  · rfl

theorem reads_mask3 {k : MReg → MReg → MReg → Instr} {d a b : MReg}
    (read : decodePage ((Chain.plain 2 op f).source (small d.val) (small a.val) (small b.val)) =
      match mreg (bits5 (small d.val)), mreg (if ((Chain.plain 2 op f).source (small d.val) (small a.val) (small b.val)).rx
        then ((Chain.plain 2 op f).source (small d.val) (small a.val) (small b.val)).c
        else ((Chain.plain 2 op f).source (small d.val) (small a.val) (small b.val)).x), mreg (bits5 (small b.val)) with
      | some d, some a, some b => some (formM3, k d a b)
      | _, _, _ => none)
    (legal : ((Chain.plain 2 op f).source (small d.val) (small a.val) (small b.val)).legal = true) :
    Reads ((Chain.plain 2 op f).source (small d.val) (small a.val) (small b.val)) (k d a b) := by
  rw [source_first, mreg_small, mreg_small, mreg_small] at read
  exact reads_of (Chain.fits_source ..) read
    (fields_c (source_c_lt ..) rfl (fields_x (small_lt d) rfl rfl (fields_y (small_lt b) rfl rfl rfl))) legal
theorem reads_mask2 {k : MReg → MReg → Instr} {d b : MReg}
    (read : decodePage (encXY 2 op f (small d.val) (small b.val)) =
      match mreg (bits5 (small d.val)), mreg (bits5 (small b.val)) with
      | some d, some b => some (formM2, k d b)
      | _, _ => none)
    (legal : (encXY 2 op f (small d.val) (small b.val)).legal = true) :
    Reads (encXY 2 op f (small d.val) (small b.val)) (k d b) := by
  rw [mreg_small, mreg_small] at read
  exact reads_of (Chain.fits_needRx ..) read (fields_x (small_lt d) rfl rfl (fields_y (small_lt b) rfl rfl rfl)) legal
theorem reads_maskCount {k : IntTy → Reg → MReg → Instr} {t : IntTy} {d : Reg} {b : MReg}
    (read : decodePage (encV2 2 op f t.code d (small b.val) 0) = match IntTy.ofBits t.code with
      | some u => (mreg (bits5 (small b.val))).map fun b => (formMW, k u d b)
      | none => none)
    (legal : (encV2 2 op f t.code d (small b.val) 0).legal = true) :
    Reads (encV2 2 op f t.code d (small b.val) 0) (k t d b) := by
  rw [mreg_small] at read
  exact reads_of (Chain.fits_needRx ..) (read_int read) (fields_y (small_lt b) rfl rfl rfl) legal

end

/-! ### Vectors of floats -/

section
variable {op f : Nat} {t : FloatTy} {d a b c : VReg} {m : MReg} {r : Option Rounding}

/-- What the decoder reads for a type code that names the type, and for an IX that names the rounding mode. -/
theorem read_float {c : Chain} {k : FloatTy → Read}
    (read : decodePage c = match FloatTy.ofBits t.code with | some t => k t | none => none) : decodePage c = k t := by
  rw [read, FloatTy.ofBits_code]
theorem read_rounded {c : Chain} {k : FloatTy → Option Rounding → Read}
    (read : decodePage c = match FloatTy.ofBits t.code with
      | some t => (match roundingOf (r.map Rounding.code) with | some r => k t r | none => none) | none => none) :
    decodePage c = k t r := by
  rw [read, FloatTy.ofBits_code, roundingOf_code]

theorem reads_encV3_float {k : FloatTy → VReg → VReg → VReg → MReg → Instr}
    (read : decodePage (encV3 3 op f t.code d a b m) = match FloatTy.ofBits t.code with
      | some u => some (formV3, k u d (encV3 3 op f t.code d a b m).a b m) | none => none)
    (legal : (encV3 3 op f t.code d a b m).legal = true) : Reads (encV3 3 op f t.code d a b m) (k t d a b m) := by
  rw [a_encV3] at read
  exact reads_of (Chain.fits_source ..) (read_float read) rfl legal

theorem reads_compare_float {k : FloatTy → MReg → VReg → VReg → MReg → Instr} {e : MReg}
    (read : decodePage (encV3 3 op f t.code (small e.val) a b m) = match FloatTy.ofBits t.code with
      | some u => (mreg (bits5 (small e.val))).map fun x => (formVC, k u x (encV3 3 op f t.code (small e.val) a b m).a b m)
      | none => none)
    (legal : (encV3 3 op f t.code (small e.val) a b m).legal = true) :
    Reads (encV3 3 op f t.code (small e.val) a b m) (k t e a b m) := by
  rw [a_encV3, mreg_small] at read
  exact reads_of (Chain.fits_source ..) (read_float read) fields_compare legal

theorem reads_encV3_rounded {k : FloatTy → VReg → VReg → VReg → MReg → Option Rounding → Instr}
    (read : decodePage (encRm (encV3 3 op f t.code d a b m) r) = match FloatTy.ofBits t.code with
      | some u => (match roundingOf (r.map Rounding.code) with
        | some q => some (formV3R, k u d (encV3 3 op f t.code d a b m).a b m q) | none => none)
      | none => none)
    (legal : (encV3 3 op f t.code d a b m).legal = true) :
    Reads (encRm (encV3 3 op f t.code d a b m) r) (k t d a b m r) := by
  rw [a_encV3] at read
  exact reads_of (Chain.fits_source ..) (read_rounded read) rfl legal

theorem reads_encFma {k : FloatTy → VReg → VReg → VReg → VReg → MReg → Option Rounding → Instr}
    (read : decodePage (encRm (encFma f t.code d a b c m) r) = match FloatTy.ofBits t.code with
      | some u => (match roundingOf (r.map Rounding.code) with
        | some q => some (formFma, k u d (encFma f t.code d a b c m).a b c m q) | none => none)
      | none => none) :
    Reads (encRm (encFma f t.code d a b c m) r) (k t d a b c m r) :=
  reads_of rfl (read_rounded read) rfl rfl

theorem reads_encV2_rounded {g : Form} {k : FloatTy → Fin 32 → Fin 32 → MReg → Option Rounding → Instr}
    (read : decodePage (encRm (encV2 3 op f t.code d b m) r) = match FloatTy.ofBits t.code with
      | some u => (match roundingOf (r.map Rounding.code) with | some q => some (g, k u d b m q) | none => none)
      | none => none)
    (fields : g.fields (encRm (encV2 3 op f t.code d b m) r) = true)
    (legal : (encV2 3 op f t.code d b m).legal = true) : Reads (encRm (encV2 3 op f t.code d b m) r) (k t d b m r) :=
  reads_of (Chain.fits_needRx ..) (read_rounded read) fields legal

/-- Packing has no mask and no `.f32`. -/
theorem reads_pack {k : FloatTy → VReg → VReg → VReg → Option Rounding → Instr} (narrow : t ≠ .f32)
    (read : decodePage (encRm (encV3 3 op f t.code d a b 0) r) = match FloatTy.ofBits t.code with
      | some u => (match roundingOf (r.map Rounding.code) with
        | some q => if u = .f32 then none
          else some ({ formV3R with m := false }, k u d (encV3 3 op f t.code d a b 0).a b q)
        | none => none)
      | none => none)
    (legal : (encV3 3 op f t.code d a b 0).legal = true) :
    Reads (encRm (encV3 3 op f t.code d a b 0) r) (k t d a b r) := by
  rw [a_encV3] at read
  exact reads_of (Chain.fits_source ..) ((read_rounded read).trans (if_neg narrow)) rfl legal

theorem reads_encV2_float {k : FloatTy → VReg → VReg → MReg → Instr}
    (read : decodePage (encV2 3 op f t.code d b m) = match FloatTy.ofBits t.code with
      | some u => some (formV2, k u d b m) | none => none)
    (legal : (encV2 3 op f t.code d b m).legal = true) : Reads (encV2 3 op f t.code d b m) (k t d b m) :=
  reads_of (Chain.fits_needRx ..) (read_float read) rfl legal

/-- The source type of a conversion stands in Z. -/
theorem fits_encCvt {fn src : BitVec 4} : (encCvt f fn src d b m).fits = true := by
  have fits := Chain.fits_needRx { Chain.plain 3 0x06 f with
    fn := fn, x := bits5 d, y := bits5 b, m := BitVec.ofFin m } false
  rw [Chain.fits_iff] at fits ⊢
  intro rx
  obtain ⟨x, y, -, c0, m0⟩ := fits rx
  exact ⟨x, y, zeroExtend_lt src, c0, m0⟩
theorem fields_encCvt {fn src : BitVec 4} : formCvt.fields (encRm (encCvt f fn src d b m) r) = true :=
  fields_z (decide_eq_true (zeroExtend_lt src)) rfl rfl

theorem reads_vcvtFf {s : FloatTy} : Reads (encRm (encCvt 0 t.code s.code d b m) r) (.vcvtFf t s d b m r) := by
  have read : decodePage (encRm (encCvt 0 t.code s.code d b m) r) = match FloatTy.ofBits t.code with
      | some u => (match roundingOf (r.map Rounding.code) with
        | some q => (FloatTy.ofBits ((s.code.zeroExtend 5).extractLsb' 0 4)).map fun v => (formCvt, .vcvtFf u v d b m q)
        | none => none)
      | none => none := rfl
  rw [low_zeroExtend, FloatTy.ofBits_code s] at read
  exact reads_of fits_encCvt (read_rounded read) fields_encCvt rfl
theorem reads_vcvtIf {s : IntTy} : Reads (encRm (encCvt 2 t.code s.code d b m) r) (.vcvtIf t s d b m r) := by
  have read : decodePage (encRm (encCvt 2 t.code s.code d b m) r) = match FloatTy.ofBits t.code with
      | some u => (match roundingOf (r.map Rounding.code) with
        | some q => (IntTy.ofBits ((s.code.zeroExtend 5).extractLsb' 0 4)).map fun v => (formCvt, .vcvtIf u v d b m q)
        | none => none)
      | none => none := rfl
  rw [low_zeroExtend, IntTy.ofBits_code] at read
  exact reads_of fits_encCvt (read_rounded read) fields_encCvt rfl
theorem reads_vcvtFi {u : IntTy} : Reads (encRm (encCvt 1 u.code t.code d b m) r) (.vcvtFi u t d b m r) := by
  have read : decodePage (encRm (encCvt 1 u.code t.code d b m) r) =
      match IntTy.ofBits u.code, FloatTy.ofBits ((t.code.zeroExtend 5).extractLsb' 0 4), roundingOf (r.map Rounding.code) with
      | some u, some v, some q => some (formCvt, .vcvtFi u v d b m q)
      | _, _, _ => none := rfl
  rw [low_zeroExtend, FloatTy.ofBits_code, IntTy.ofBits_code, roundingOf_code] at read
  exact reads_of fits_encCvt read fields_encCvt rfl

/-- The two registers of a draw differ. -/
theorem reads_vrng (differ : d ≠ b) : Reads (encV2 3 0x08 0 0 d b m) (.vrng d b m) := by
  have read : decodePage (encV2 3 0x08 0 0 d b m) =
      if d = b then none else some ({ x := .v, y := .v, m := true }, .vrng d b m) := rfl
  exact reads_of (Chain.fits_needRx ..) (read.trans (if_neg differ)) rfl rfl

end

/-! ### Accumulators, conduits, sequences and ports -/

section
variable {op f : Nat}

/-- An accumulator or a conduit in X. -/
theorem reads_encAW {k : Fin 4 → Reg → Instr} {c : Fin 4} {a : Reg}
    (read : decodePage (encAW op f c a) = (reg4 (bits5 (small c.val))).map fun c => (formAW, k c a))
    (legal : (encAW op f c a).legal = true) : Reads (encAW op f c a) (k c a) := by
  rw [reg4_small] at read
  exact reads_of (Chain.fits_needRx ..) read (fields_x (small4_lt c) rfl rfl rfl) legal
theorem reads_product {k : AReg → Reg → Reg → Instr} {c : AReg} {a b : Reg}
    (read : decodePage (encXYC 4 op f (small c.val) b a) = (reg4 (bits5 (small c.val))).map fun c =>
      ({ x := .other, y := .w, c := .w, rx := .must }, k c a b))
    (legal : (encXYC 4 op f (small c.val) b a).legal = true) : Reads (encXYC 4 op f (small c.val) b a) (k c a b) := by
  rw [reg4_small] at read
  exact reads_of (Chain.fits_needRx ..) read (fields_x (small4_lt c) rfl rfl rfl) legal
theorem reads_mzero {c : AReg} : Reads { Chain.plain 4 0x01 0 with x := bits5 (small c.val) } (.mzero c) := by
  have read : decodePage { Chain.plain 4 0x01 0 with x := bits5 (small c.val) } =
      (reg4 (bits5 (small c.val))).map fun c => ({ x := .other, rx := .no }, .mzero c) := rfl
  rw [reg4_small] at read
  have fits : ∀ c : AReg, ({ Chain.plain 4 0x01 0 with x := bits5 (small c.val) } : Chain).fits = true := by decide
  exact reads_of (fits c) read (fields_x (small4_lt c) rfl rfl rfl) rfl
theorem reads_row {k : VReg → Reg → AReg → Instr} {v : VReg} {a : Reg} {c : AReg}
    (read : decodePage (({ Chain.plain 4 op f with x := bits5 v, y := bits5 a, z := bits5 (small c.val) } : Chain).needRx false) =
      (reg4 (bits5 (small c.val))).map fun c => (formRow, k v a c))
    (legal : (({ Chain.plain 4 op f with
      x := bits5 v, y := bits5 a, z := bits5 (small c.val) } : Chain).needRx false).legal = true) :
    Reads (({ Chain.plain 4 op f with x := bits5 v, y := bits5 a, z := bits5 (small c.val) } : Chain).needRx false)
      (k v a c) := by
  rw [reg4_small] at read
  exact reads_of (Chain.fits_needRx ..) read (fields_z (small4_lt c) rfl rfl) legal

/-- A sequence records one to sixteen instructions. -/
theorem reads_sequence {k : Reg → BitVec 6 → Instr} {a : Reg} {n : BitVec 6} (counts : (1 ≤ n.toNat && n.toNat ≤ 16) = true)
    (read : decodePage ((encX 4 op f a).low6 n) =
      if (1 ≤ ((encX 4 op f a).low6 n).k6.toNat && ((encX 4 op f a).low6 n).k6.toNat ≤ 16) = true then
        some (formCsr, k a ((encX 4 op f a).low6 n).k6) else none)
    (legal : ((encX 4 op f a).low6 n).legal = true) : Reads ((encX 4 op f a).low6 n) (k a n) := by
  rw [Chain.k6_low6, if_pos counts] at read
  exact reads_of (Chain.fits_low6 n (Chain.fits_needRx ..)) read (fields_ri (zeroExtend_lt _) (.inl rfl) rfl) legal

theorem reads_port {k : Reg → Port → Instr} {a : Reg} {p : Port}
    (read : decodePage (({ Chain.plain 5 op f with x := bits5 a, y := p.code } : Chain).needRx false) =
      (Port.ofBits p.code).map fun p => ({ x := .w, y := .other }, k a p))
    (legal : (({ Chain.plain 5 op f with x := bits5 a, y := p.code } : Chain).needRx false).legal = true) :
    Reads (({ Chain.plain 5 op f with x := bits5 a, y := p.code } : Chain).needRx false) (k a p) := by
  rw [Port.ofBits_code] at read
  exact reads_of (Chain.fits_needRx ..) read (fields_y p.code_lt rfl rfl rfl) legal
theorem reads_mux {o i : Port} : Reads { Chain.plain 5 0x01 1 with x := o.code, y := i.code } (.mux o i) := by
  have read : decodePage { Chain.plain 5 0x01 1 with x := o.code, y := i.code } =
      match Port.ofBits o.code, Port.ofBits i.code with
      | some o, some i => some (formM2, .mux o i)
      | _, _ => none := rfl
  rw [Port.ofBits_code, Port.ofBits_code] at read
  have fits : ({ Chain.plain 5 0x01 1 with x := o.code, y := i.code } : Chain).fits = true := by
    cases o <;> cases i <;> rfl
  exact reads_of fits read (fields_x o.code_lt rfl rfl (fields_y i.code_lt rfl rfl rfl)) rfl

/-- A kettle's home is one of the 96 cores of a quire. -/
theorem reads_kinitReady {n a b : Reg} {home : BitVec 7} {s : Scope} (inside : home.toNat ≤ 95) :
    Reads { encXYC 1 0x04 1 n a b with m := s.code, ix := some (home.zeroExtend 11) } (.kinitReady n a b home s) := by
  have read : decodePage { encXYC 1 0x04 1 n a b with m := s.code, ix := some (home.zeroExtend 11) } =
      if (home.zeroExtend 11).toNat ≤ 95 then
        (Scope.ofCode s.code.toNat).map fun s =>
          ({ formMemX with ix := .must }, .kinitReady n a b ((home.zeroExtend 11).extractLsb' 0 7) s)
      else none := rfl
  have same : (home.zeroExtend 11).toNat = home.toNat := by simp; omega
  have low : (home.zeroExtend 11).extractLsb' 0 7 = home := by
    apply BitVec.eq_of_toNat_eq
    simp
    omega
  rw [if_pos (same ▸ inside), low, Scope.ofCode_code] at read
  exact reads_of rfl read rfl rfl

end

end Sys2Proof
end

section
/-! SUPPORT. Every well-formed instruction's words decode to it (02, R37 to R42; 03, R70). -/

namespace Sys2Proof

open Machine

/-- The encoder's chain reads as the instruction it is of, for every row of the opcode table that has words. The arms name the
shape of the row's chain; what the decoder reads of that shape is the shape's lemma, and the row itself is the two tables'
own computation. -/
theorem encodes (i : Instr) (wf : i.wellFormed = true) (own : asWritten i = i) : Encodes i := by
  have fieldsOk : i.fieldsOk = true := (Bool.and_eq_true_iff.1 wf).2
  cases i with
  | nop | ret | tend | yield | pubf | hend | rti | upret | idle | halt | wrs | barQuire | barDie | barDev | barSys
  | cpfence | phEnd | tlbinvAll | sel => exact ⟨_, rfl, reads_of rfl rfl rfl rfl⟩
  | add | sub | mul | mulh | mulhn | div | divn | rem | remn | and | or | xor | andn | shl | shr | sra | rotl | min | max
  | minn | maxn | slt | sltn | setEq | setNe | setLt | setGe | setLtn | setGen | bext | bins =>
    exact ⟨_, rfl, reads_enc2S rfl rfl⟩
  | bextImm | binsImm => exact ⟨_, rfl, reads_encField rfl rfl⟩
  | mov | clz | ctz | ffs | pop | sextB | sextH | sextW | bswap | zextB | zextH | zextW | brEq | brNe | brLt | brGe
  | brLtn | brGen | tfanDie | tfanQuire | tfanCore | kadd | send | reply | hjoin | wlPop | wlLow | wlDone | donate | claim
  | cinc | waitaddr | kdec | csnap | csnapClr | mcfg | mstat | cp | cpm | cpc | cpw | phBegin | gload | gstate | gstep
  | gmask | sampF32 | sampBf16 | tlbinvVa | bdef | bshare | bresize | bquery | rfork | hstart | wlPush =>
    exact ⟨_, rfl, reads_of (Chain.fits_needRx ..) rfl rfl rfl⟩
  | jr | spawn =>
    exact ⟨_, rfl, reads_of (Chain.fits_needRx ..) ((read_function rfl rfl).1 rfl) (fields_ri zero_lt_16 (.inr rfl) rfl) rfl⟩
  | sync =>
    exact ⟨_, rfl, reads_of (Chain.fits_needRx ..) ((read_function rfl rfl).2 rfl) (fields_ri zero_lt_16 (.inr rfl) rfl) rfl⟩
  | shli | shri | srai => exact ⟨_, rfl, reads_encShift rfl rfl⟩
  | csrr | csrw | csrs | csrc => exact ⟨_, rfl, reads_encX_low6 rfl rfl⟩
  | addi => exact ⟨_, rfl, reads_addi⟩
  | li =>
    exact ⟨_, rfl, reads_signed17 rfl (Chain.fits_needRx ..) (by rintro _ _ rfl; rfl) rfl (fun _ _ => rfl) rfl⟩
  | lix =>
    exact ⟨_, rfl, reads_unsigned17 rfl (Chain.fits_needRx ..) (by rintro _ _ rfl; rfl) rfl (fun _ _ => rfl) rfl⟩
  | trap => exact ⟨_, rfl, reads_unsigned17 rfl rfl (by rintro _ _ rfl; rfl) rfl (fun _ _ => rfl) rfl⟩
  | jmp | jal => exact ⟨_, rfl, reads_jump rfl rfl (by rintro _ _ rfl; rfl) rfl (fun _ _ => rfl) rfl⟩
  | lea | pref | cflush =>
    exact ⟨_, rfl, reads_offset rfl (Chain.fits_needRx ..) (by rintro _ rfl; rfl) (fun _ => rfl) rfl⟩
  | leaIndexed z =>
    exact ⟨_, rfl, reads_offset rfl rfl (by rintro _ rfl; cases z <;> rfl) (fun _ => rfl) rfl⟩
  | ld | ldn | st => exact ⟨_, rfl, reads_encMem (fun _ => rfl) rfl⟩
  | ldx | ldxn | stx => exact ⟨_, rfl, reads_encMemX rfl rfl⟩
  | ldpk | stpk => exact ⟨_, rfl, reads_block fieldsOk (fun _ => rfl) rfl⟩
  | amoAdd z | amoAnd z | amoOr z | amoXor z | amoMin z | amoMax z | amoMinn z | amoMaxn z | amoSwap z | amoCas z =>
    cases z with
    | word | double => exact ⟨_, rfl, reads_encAmo rfl rfl⟩
  | amoFadd | amoXadd => exact ⟨_, rfl, reads_encAmo rfl rfl⟩
  | lrD | lrW => exact ⟨_, rfl, reads_encLr rfl rfl⟩
  | scD | scW => exact ⟨_, rfl, reads_encSc rfl rfl⟩
  | fence st s | fenceAcq st s | fenceRel st s =>
    cases st with
    | none | some d => exact ⟨_, rfl, reads_of (Chain.fits_needRx ..) (by cases s <;> rfl) rfl rfl⟩
  | kinitCont _ _ _ s => exact ⟨_, rfl, reads_of rfl (by cases s <;> rfl) rfl rfl⟩
  | kinitReady => exact ⟨_, rfl, reads_kinitReady (of_decide_eq_true fieldsOk)⟩
  | recv f => exact ⟨_, rfl, reads_of (Chain.fits_needRx ..) (by cases f <;> rfl) rfl rfl⟩
  | wmsg f => exact ⟨_, rfl, reads_of rfl (by cases f <;> rfl) rfl rfl⟩
  | vadd | vsub | vmul | vmulh | vadds | vsubs | vmin | vmax | vmac | vmacs | vshl | vshr | vsra | vrotl | vand | vor | vxor
  | vandn | vperm => exact ⟨_, rfl, reads_encV3 rfl rfl⟩
  | vnot | vmov | vclz | vctz | vffs | vpop | vscan | vbcast | vredsum | vredmin | vredmax =>
    exact ⟨_, rfl, reads_encV2 rfl rfl rfl⟩
  | vabs | vneg => exact ⟨_, rfl, reads_signed fieldsOk rfl rfl⟩
  | vcmpEq | vcmpNe | vcmpLt | vcmpGe => exact ⟨_, rfl, reads_compare rfl rfl⟩
  | vsel => exact ⟨_, rfl, reads_select⟩
  | vext | vins => exact ⟨_, rfl, reads_lane (of_decide_eq_true fieldsOk) rfl rfl rfl⟩
  | vslide => exact ⟨_, rfl, reads_slide (of_decide_eq_true fieldsOk)⟩
  | vld | vst => exact ⟨_, rfl, reads_vectorOffset (fun _ => rfl) rfl⟩
  | vldx | vstx => exact ⟨_, rfl, reads_indexed (bne_iff_ne.1 fieldsOk) rfl rfl⟩
  | mand | mor | mxor | mandn => exact ⟨_, rfl, reads_mask3 rfl rfl⟩
  | mnot | mmov => exact ⟨_, rfl, reads_mask2 rfl rfl⟩
  | mpop | mffs => exact ⟨_, rfl, reads_maskCount rfl rfl⟩
  | vfadd | vfsub | vfmul | vfdiv => exact ⟨_, rfl, reads_encV3_rounded rfl rfl⟩
  | vfma | vfms | vfnma | vfnms => exact ⟨_, rfl, reads_encFma rfl⟩
  | vfmin | vfmax => exact ⟨_, rfl, reads_encV3_float rfl rfl⟩
  | vfabs | vfneg => exact ⟨_, rfl, reads_encV2_float rfl rfl⟩
  | vfsqrt | vfrcp | vfscan | vfredsum | vfredmin | vfredmax => exact ⟨_, rfl, reads_encV2_rounded rfl rfl rfl⟩
  | vfcmpEq | vfcmpLt | vfcmpLe | vfcmpUn => exact ⟨_, rfl, reads_compare_float rfl rfl⟩
  | vcvtFf => exact ⟨_, rfl, reads_vcvtFf⟩
  | vcvtFi => exact ⟨_, rfl, reads_vcvtFi⟩
  | vcvtIf => exact ⟨_, rfl, reads_vcvtIf⟩
  | vpack | vunpack => exact ⟨_, rfl, reads_pack (bne_iff_ne.1 fieldsOk) rfl rfl⟩
  | vrng => exact ⟨_, rfl, reads_vrng (bne_iff_ne.1 fieldsOk)⟩
  | mzero => exact ⟨_, rfl, reads_mzero⟩
  | mmac | msmac => exact ⟨_, rfl, reads_product rfl rfl⟩
  | mrect | mscale | cdcfgConfigure => exact ⟨_, rfl, reads_encAW rfl rfl⟩
  | mrowRd | mrowWr => exact ⟨_, rfl, reads_row rfl rfl⟩
  | rep | repx => exact ⟨_, rfl, reads_sequence fieldsOk rfl rfl⟩
  | tx | rxw => exact ⟨_, rfl, reads_port rfl rfl⟩
  | mux => exact ⟨_, rfl, reads_mux⟩
  | cdcfgWaitFull | cdcfgPop | cdcfgWaitFree | cdcfgPush | cdcfgReset => nomatch own
  | _ => nomatch wf

/-! ### The operation of `cdcfg` -/

theorem asWritten_idem (i : Instr) : asWritten (asWritten i) = asWritten i := by cases i <;> rfl
/-- The five operations of `cdcfg` have the words and the checks of the configuring form. -/
theorem encodeChain_asWritten (i : Instr) : encodeChain (asWritten i) = encodeChain i := by cases i <;> rfl
theorem wellFormed_asWritten (i : Instr) : (asWritten i).wellFormed = i.wellFormed := by cases i <;> rfl

/-- A well-formed instruction has a chain, whose words spell it and decode to the instruction as written. -/
theorem encodeChain_reads {i : Instr} (wf : i.wellFormed = true) : ∃ c, encodeChain i = some c ∧ Reads c (asWritten i) := by
  obtain ⟨c, chain, reads⟩ := encodes (asWritten i) ((wellFormed_asWritten i).trans wf) (asWritten_idem i)
  exact ⟨c, (encodeChain_asWritten i).symm.trans chain, reads⟩

/-- Settles O29: the encoder's chain reads as the instruction, and its words are read back as the chain, whatever follows. -/
theorem encodedWordsDecode : Obligations.EncodedWordsDecode := by
  unfold Obligations.EncodedWordsDecode
  refine ⟨fun i rest wf => ?_, fun i => ?_⟩
  · obtain ⟨c, chain, reads⟩ := encodeChain_reads wf
    refine ⟨c.words, by rw [encode, chain]; rfl, ?_⟩
    rw [Chain.decodeWords_words reads.fits reads.legal, reads.decodes]
    rfl
  · cases i <;> rfl

/-- Settles O32: the decoder runs on each of the words. -/
theorem workedEncodingsDecode : Obligations.WorkedEncodingsDecode := by
  unfold Obligations.WorkedEncodingsDecode
  decide

end Sys2Proof
end

section
/-! SUPPORT. Recording the body of a repetition sequence (09, R257). -/

namespace Sys2Proof.Machine

/-- The n-th instruction of a body that has executions left ends the recording. The sequencer stands at the second execution,
and at the body instruction at which it stood before: none, where the sequence began with `rep` or `repx`. -/
theorem State.record_last {s : State} {r : RepSeq} (rep : s.me.rep = some r) (last : r.body.length + 1 = r.n)
    (more : r.total ≠ 1) : ∃ q, s.record.me.rep = some q ∧ q.recorded = true ∧ q.k = 1 ∧ q.idx = r.idx := by
  simp [State.record, rep, last, more, RepSeq.recorded]

/-- A sequence of one instruction in its recording, at whose first body instruction the sequencer stands already. -/
def begunRecording : RepSeq :=
  { alone := false, n := 1, total := 2, body := [], expect := 0, k := 0, idx := some 0, shadow := Ctx.reset }
/-- Core 0 after reset with that sequence. -/
def recordingBegun : State := State.reset.onMe fun c => { c with rep := some begunRecording }

theorem recordingBegun_rep : recordingBegun.me.rep = some begunRecording := by simp [recordingBegun]
theorem recordingBegun_ready : CtlReady recordingBegun 0 := by
  refine ⟨rfl, rfl, rfl, ?_, Nat.zero_le _⟩
  simp only [State.csr, recordingBegun, State.me_onMe]
  decide

/-- Refutes O20: no clause says that a sequence in its recording stands at no body instruction yet, and the end of the recording
leaves `idx` as it was. In `recordingBegun` it is 0, so the recorded sequence's is 0 too and not `none`. -/
theorem not_repetitionSequences : ¬ Obligations.RepetitionSequences := by
  unfold Obligations.RepetitionSequences
  intro h
  obtain ⟨-, -, recording, -⟩ := h recordingBegun 0 0 recordingBegun_ready
  obtain ⟨-, -, ends⟩ := recording begunRecording recordingBegun_rep
  obtain ⟨q, rep, -, -, none⟩ := ends rfl (by decide)
  obtain ⟨p, rep', -, -, idx⟩ := State.record_last recordingBegun_rep rfl (by decide)
  rw [Option.some.inj (rep.symm.trans rep'), idx] at none
  exact absurd none (by decide)

end Sys2Proof.Machine
end

section
/-! SUPPORT. Fetching the words of an instruction from the core's own scratchpad (02, R37, R60, R61; 05, R120). -/

namespace Sys2Proof.Machine

/-! ### Addresses and lines -/

theorem localAddr_add (o k : Nat) : localAddr o + BitVec.ofNat 64 k = localAddr (o + k) := by
  simp [localAddr, BitVec.ofNat_add, BitVec.add_assoc]

theorem sharesOwn_sub {c : Core} {o n a k : Nat} (own : sharesOwn c o n = true) (low : o ≤ a) (high : a + k ≤ o + n) :
    sharesOwn c a k = true := by
  rw [sharesOwn_iff] at own ⊢
  intro j
  rcases own j with h | h | h
  · exact .inl h
  · exact .inr (.inl (by omega))
  · exact .inr (.inr (by omega))

/-- A run of a scratchpad lies in the lines of every run that holds it. -/
theorem State.owned_sub {s : State} {c o n a k : Nat} (free : s.owned (.spad c o) n = false) (low : o ≤ a)
    (high : a + k ≤ o + n) : s.owned (.spad c a) k = false := by
  simp only [State.owned, State.atHome, State.filling, Bool.or_false, linesOf_spad, List.any_map, List.any_eq_false, List.mem_range,
    Function.comp] at free ⊢
  intro j hj
  have line : a / 64 * 64 + 64 * j = o / 64 * 64 + 64 * (a / 64 - o / 64 + j) := by omega
  rw [line]
  exact free _ (by omega)

/-! ### One word -/

/-- `n` bytes from offset `o` on of the issuing core's own scratchpad can be fetched as they stand there: they are its own,
nothing is uncorrectable, no engine owns a line of them, and of fetched words only earlier ones are kept. -/
structure Fetchable (s : State) (o n : Nat) : Prop where
  inside : o + n ≤ 0x40000
  own : sharesOwn s.me o n = true
  bad : s.me.bad = []
  free : s.owned (.spad s.cur o) n = false
  earlier : ∀ x ∈ s.me.fetched, ∃ j, j < o ∧ x.1 = .spad s.cur j

/-- The word at an offset of the issuing core's scratchpad. -/
def State.ownWord (s : State) (o : Nat) : Base := BitVec.ofNat 16 (ofBytes (Memory.read s.me.spad o 2))
/-- The state after that word has been fetched. -/
def State.fetchedWord (s : State) (o : Nat) : State := s.onMe fun c => c.keepWord (.spad s.cur o) (s.ownWord o)

variable {s : State} {o n : Nat}

theorem Core.keepWord_eq (c : Core) (p : Place) (w : Base) : ∃ f, c.keepWord p w = { c with fetched := f } := by
  unfold Core.keepWord
  split
  · exact ⟨_, rfl⟩
  · exact ⟨_, rfl⟩
theorem State.fetchedWord_eq (s : State) (o : Nat) : ∃ f, s.fetchedWord o = s.onMe fun c => { c with fetched := f } := by
  obtain ⟨f, h⟩ := s.me.keepWord_eq (.spad s.cur o) (s.ownWord o)
  exact ⟨f, congrArg s.setMe h⟩

theorem fetchPlace_own (h : Fetchable s o n) (two : 2 ≤ n) : fetchPlace (localAddr o) s = .ok (.spad s.cur o, s) := by
  have inside := h.inside
  have own : sharesOwn s.me o 2 = true := sharesOwn_sub h.own le_rfl (by omega)
  simp [fetchPlace, M.bind_run, regionOf_localAddr (show o < 0x40000 by omega), own]

theorem fetchWord_own (h : Fetchable s o n) (two : 2 ≤ n) : fetchWord (localAddr o) s = .ok (s.ownWord o, s.fetchedWord o) := by
  have free : s.owned (.spad s.cur o) 2 = false := State.owned_sub h.free le_rfl (by omega)
  have sound : s.hurts s.myQuire [] (.spad s.cur o) 2 .dflt = false :=
    hurts_of_anyBad _ _ _ (by simp [State.anyBad, show (s.core s.cur).bad = [] from h.bad])
  have unkept : (s.me.fetched.filter fun x => x.1 = wordKey (.spad s.cur o)) = [] := by
    refine List.filter_eq_nil_iff.2 fun x hx here => ?_
    obtain ⟨j, lt, place⟩ := h.earlier x hx
    rw [of_decide_eq_true here] at place
    injection place with _ off
    omega
  simp [fetchWord, M.bind_run, fetchPlace_own h two, State.untrained, free, sound, State.loadPlace, unkept]
  exact ⟨rfl, rfl⟩

/-- The next words can be fetched too. -/
theorem Fetchable.next (h : Fetchable s o (n + 2)) : Fetchable (s.fetchedWord o) (o + 2) n := by
  have inside := h.inside
  have me : (s.fetchedWord o).me = s.me.keepWord (.spad s.cur o) (s.ownWord o) := State.me_onMe ..
  obtain ⟨f, rest⟩ := s.me.keepWord_eq (.spad s.cur o) (s.ownWord o)
  refine ⟨by omega, ?_, ?_, ?_, ?_⟩
  · rw [me, rest]
    exact sharesOwn_sub h.own (by omega) (by omega)
  · rw [me, rest]
    exact h.bad
  · exact State.owned_sub (s := s) h.free (by omega) (by omega)
  · rw [me]
    intro x hx
    have old : x ∈ s.me.fetched → ∃ j, j < o + 2 ∧ x.1 = .spad s.cur j := fun hx => by
      obtain ⟨j, lt, place⟩ := h.earlier x hx
      exact ⟨j, by omega, place⟩
    unfold Core.keepWord at hx
    split at hx
    · exact old hx
    · rcases List.mem_cons.1 hx with rfl | hx
      · exact ⟨o, by omega, rfl⟩
      · exact old hx

/-! ### All words of an instruction -/

/-- The words stand in memory from an offset on, as their bytes say. -/
def State.holdsWords (s : State) (o : Nat) (ws : List Base) : Prop :=
  Memory.read s.me.spad o (2 * ws.length) = ws.flatMap fun w => toBytes 2 w.toNat

theorem State.holdsWords_cons {w : Base} {ws : List Base} (h : s.holdsWords o (w :: ws)) :
    s.ownWord o = w ∧ (s.fetchedWord o).holdsWords (o + 2) ws := by
  have two : 2 * (w :: ws).length = 2 * ws.length + 2 := by simp; omega
  obtain ⟨f, e⟩ := s.fetchedWord_eq o
  simp only [State.holdsWords, two, Memory.read, List.flatMap_cons, toBytes, List.cons_append, List.nil_append,
    List.cons.injEq] at h
  obtain ⟨low, high, rest⟩ := h
  refine ⟨?_, by rw [State.holdsWords, e, State.me_onMe]; exact rest⟩
  have word : Memory.read s.me.spad o 2 = toBytes 2 w.toNat := by simp [Memory.read, toBytes, low, high]
  have small := w.isLt
  rw [State.ownWord, word, ofBytes_toBytes]
  apply BitVec.eq_of_toNat_eq
  rw [BitVec.toNat_ofNat]
  omega

/-- Words that spell a chain are fetched as that chain; of the state only the words that fetch keeps differ. -/
theorem fetchChain_own {p : Prefixes} {ws : List Base} {c : Chain} (spells : Spells p ws c) {fuel : Nat}
    (enough : ws.length ≤ fuel) (ready : Fetchable s o (2 * ws.length)) (words : s.holdsWords o ws) :
    ∃ at' f, fetchChain fuel p (localAddr o) s =
      .ok (.chain c at' (localAddr (o + 2 * ws.length)), s.onMe fun c => { c with fetched := f }) := by
  induction spells generalizing s o fuel with
  | @done p w c read =>
    obtain ⟨fuel, rfl⟩ : ∃ k, fuel = k + 1 := ⟨fuel - 1, by simp at enough; omega⟩
    obtain ⟨word, -⟩ := State.holdsWords_cons words
    obtain ⟨f, e⟩ := s.fetchedWord_eq o
    refine ⟨localAddr o, f, ?_⟩
    simp only [fetchChain, M.bind_run, fetchWord_own ready (by simp), word, read, M.pure_run, e]
    rw [← localAddr_add]
    rfl
  | @more p q w ws c read _ ih =>
    obtain ⟨fuel, rfl⟩ : ∃ k, fuel = k + 1 := ⟨fuel - 1, by simp at enough; omega⟩
    obtain ⟨word, words⟩ := State.holdsWords_cons words
    have two : 2 * (w :: ws).length = 2 * ws.length + 2 := by simp; omega
    rw [two] at ready ⊢
    obtain ⟨at', f, rest⟩ := ih (fuel := fuel) (by simpa using enough) ready.next words
    obtain ⟨g, e⟩ := s.fetchedWord_eq o
    refine ⟨at', f, ?_⟩
    have next : localAddr o + 2 = localAddr (o + 2) := localAddr_add o 2
    simp only [fetchChain, M.bind_run, fetchWord_own ready (by omega), word, read, next, rest]
    rw [e, State.onMe_onMe, show o + 2 + 2 * ws.length = o + (2 * ws.length + 2) by omega]

end Sys2Proof.Machine
end

section
/-! SUPPORT. A step of a chosen context: the fetch, the gate, `exec`, and what a step adds behind it (02, R37, R56, R60, R61). -/

namespace Sys2Proof.Machine

/-! ### What a step adds behind `exec` -/

/-- What an instruction reads of a context and of a core: registers, where it goes on, what waits, and its bytes. -/
def Ctx.visible (k : Ctx) := (k.w, k.pc, k.waiting)
def Core.visible (c : Core) := (c.csr, c.v, c.m, c.acc, c.sb, c.run, c.spad)
/-- Nothing of that differs in a core, -/
structure Core.Quiet (c d : Core) : Prop where
  ctxs : ∀ x : Fin 11, d.ctxs[x].visible = c.ctxs[x].visible
  rest : d.visible = c.visible
/-- nor in any core, nor in memory. -/
structure State.Quiet (s t : State) : Prop where
  cores : ∀ n, (s.core n).Quiet (t.core n)
  quires : t.quires = s.quires
  hbm : t.hbm = s.hbm
  bindings : t.bindings = s.bindings

theorem Core.Quiet.refl (c : Core) : c.Quiet c := ⟨fun _ => rfl, rfl⟩
theorem Core.Quiet.trans {c d e : Core} (h : c.Quiet d) (g : d.Quiet e) : c.Quiet e :=
  ⟨fun x => (g.ctxs x).trans (h.ctxs x), g.rest.trans h.rest⟩
theorem State.Quiet.refl (s : State) : s.Quiet s := ⟨fun _ => .refl _, rfl, rfl, rfl⟩
theorem State.Quiet.trans {s t u : State} (h : s.Quiet t) (g : t.Quiet u) : s.Quiet u :=
  ⟨fun n => (h.cores n).trans (g.cores n), g.quires.trans h.quires, g.hbm.trans h.hbm, g.bindings.trans h.bindings⟩

theorem Core.Quiet.spad {c d : Core} (h : c.Quiet d) : d.spad = c.spad := by
  have rest := h.rest
  simp only [Core.visible, Prod.mk.injEq] at rest
  exact rest.2.2.2.2.2.2
theorem State.Quiet.sameBytes {s t : State} (h : s.Quiet t) : SameBytes s t :=
  sameBytes_of (fun n => (h.cores n).spad) h.quires h.hbm h.bindings

section
variable {s t : State}

theorem State.Quiet.onMe {f : Core → Core} (h : s.Quiet t) (g : t.me.Quiet (f t.me)) : s.Quiet (t.onMe f) := by
  refine h.trans ⟨fun n => ?_, rfl, rfl, rfl⟩
  by_cases e : n = t.cur
  · subst e
    exact (State.core_onCore_same t t.cur f).symm ▸ g
  · exact (State.core_onCore_ne t t.cur n f e).symm ▸ .refl _
theorem State.Quiet.onMyCtx {f : Ctx → Ctx} (h : s.Quiet t) (g : (f t.myCtx).visible = t.myCtx.visible) :
    s.Quiet (t.onMyCtx f) := by
  refine h.onMe ⟨fun x => ?_, rfl⟩
  by_cases e : t.ctx = x
  · subst e
    exact (congrArg Ctx.visible (Vector.getElem_set_self ..)).trans g
  · exact congrArg Ctx.visible (Vector.getElem_set_ne t.ctx.isLt x.isLt fun h => e (Fin.ext h))

/-- Recording changes the sequence alone. -/
theorem State.Quiet.record (h : s.Quiet t) : s.Quiet t.record := by
  have rep (q : Option RepSeq) : s.Quiet (t.setMe { t.me with rep := q }) :=
    h.onMe (f := fun _ => { t.me with rep := q }) ⟨fun _ => rfl, rfl⟩
  cases e : t.me.rep with
  | none => simpa [State.record, e] using h
  | some r =>
    simp only [State.record, e]
    split
    · split
      · exact rep _
      · exact rep _
    · exact rep _

end

/-- What a step adds behind `exec` is bookkeeping of the sequence, of the phase, of kept words and of a wait. -/
theorem quiet_after (u t : State) (i : Instr) : t.Quiet (u.after t i) := by
  unfold State.after
  extract_lets old k took completed kept t1 t2 page t3 t4 t5 t6
  have waits : t.Quiet t1 := by
    unfold t1
    split
    · exact State.Quiet.onMyCtx (.refl t) rfl
    · exact .refl t
  have drops : t.Quiet t2 := by
    unfold t2
    split
    · exact waits.onMe ⟨fun _ => rfl, rfl⟩
    · exact waits
  have turns : t.Quiet t3 := by
    unfold t3
    split
    · exact drops
    · exact drops.onMe ⟨fun _ => rfl, rfl⟩
  split
  · exact turns
  have bars : t.Quiet t4 := by
    unfold t4
    split
    · exact turns
    · exact turns.onMe ⟨fun _ => rfl, rfl⟩
  have breaks : t.Quiet t5 := by
    unfold t5
    split
    · exact bars.onMe ⟨fun _ => rfl, rfl⟩
    · exact bars
  have records : t.Quiet t6 := by
    unfold t6
    split
    · exact breaks.record
    · exact breaks
  split
  · split
    · exact records
    · exact records.onMe ⟨fun _ => rfl, rfl⟩
  · exact records

/-! ### What is planned for a context -/

section
variable {s : State} {n : Nat} {x : Fin 11} {k : Ctx}

/-- An instruction that waits goes on as it was fetched (02, R39). -/
theorem State.plan_kept {y : Issue} (here : (s.core n).ctxs[x] = k) (kept : k.kept = some y) :
    s.plan n x = State.repGate { s with cur := n, ctx := x, issue := y }
      (State.formOf { s with cur := n, ctx := x, issue := y } y.chain) := by
  subst here
  simp only [State.plan, kept]
theorem State.plan_fetched {i : Instr} {u : State} (here : (s.core n).ctxs[x] = k) (kept : k.kept = none)
    (fetch : fetchInstr { s with cur := n, ctx := x, issue := Issue.at k.pc } = .ok (i, u)) : s.plan n x = u.repGate i := by
  subst here
  simp only [State.plan, kept, fetch]
/-- A fetch that does not wait delivers what it ends in. -/
theorem State.plan_exc {e : Exc} (here : (s.core n).ctxs[x] = k) (kept : k.kept = none)
    (fetch : fetchInstr { s with cur := n, ctx := x, issue := Issue.at k.pc } = .error (.exc e)) (ends : ∀ on, e ≠ .wait on) :
    s.plan n x = .stop (State.deliver { s with cur := n, ctx := x, issue := Issue.at k.pc } e) := by
  subst here
  cases e with
  | wait on => exact absurd rfl (ends on)
  | trap | upcall => simp only [State.plan, kept, fetch]

/-- The gates let an instruction through that no phase and no sequence of its core holds up, and that has no SC. -/
theorem State.repGate_open {i : Instr} (phase : s.me.phase = none) (rep : s.me.rep = none) (sc : s.issue.chain.sc = none) :
    s.repGate i = .run i s := by
  have schedule : s.schedule i = .run i s := by
    simp [State.schedule, phase, scheduleOf, sc]
  simp [State.repGate, Core.repeating, rep, schedule]

/-- A context that is chosen and may issue does what is planned for it. -/
theorem step_chosen {a : Agent} (chosen : s.chosen = some a) (may : s.timeOn.mayIssue a.core a.ctx = true) :
    step s = runPlan (State.plan { s.timeOn with chosen := none } a.core a.ctx) := by
  have still : s.timeOn.chosen = some a := chosen
  simp [step, State.nextAction, still, may, act]

end

/-! ### Words of a well-formed instruction -/

theorem Chain.words_length {c : Chain} (sc : c.sc = none) : c.words.length ≤ 4 := by
  rw [Chain.words_eq sc]
  have ix : c.ixWords.length ≤ 1 := by
    cases e : c.ix <;> simp [Chain.ixWords, e]
  split <;> split <;> simp <;> omega

/-- The instruction that a context reads from the words of a well-formed one: the words hold no operation of `cdcfg`, which
a register gives (09, Table 9.7). -/
theorem State.formOf_reads {u : State} {c : Chain} {i : Instr} (reads : Reads c i) (may : u.ctx ≠ 0 → helperMay c = true) :
    u.formOf c = conduitForm i u.w := by
  have barred : (u.ctx ≠ 0 && !helperMay c) = false := by
    by_cases h : u.ctx = 0
    · simp [h]
    · simp [may h]
  rw [State.formOf, barred, reads.decodes]
  rfl

/-- The state once the words of a chain have been fetched from an offset of the own scratchpad: of it only the words that fetch
keeps and the instruction in flight differ. -/
def State.fetchedChain (u : State) (c : Chain) (o : Nat) (at' : Word) (f : List (Place × Base × Bool)) : State :=
  { u.onMe fun k => { k with fetched := f } with
    issue := { u.issue with wordPc := at', next := localAddr (o + 2 * c.words.length), chain := c } }

theorem State.me_fetchedChain (u : State) (c : Chain) (o : Nat) (at' : Word) (f : List (Place × Base × Bool)) :
    (u.fetchedChain c o at' f).me = { u.me with fetched := f } :=
  State.me_onMe u fun k => { k with fetched := f }

/-- Words of a well-formed instruction in the own scratchpad are fetched as that instruction, behind which the next one
begins. -/
theorem fetchInstr_own {u : State} {c : Chain} {i : Instr} {o : Nat} (reads : Reads c i) (may : u.ctx ≠ 0 → helperMay c = true)
    (pc : u.issue.pc = localAddr o) (ready : Fetchable u o (2 * c.words.length)) (words : u.holdsWords o c.words) :
    ∃ at' f, fetchInstr u = .ok (conduitForm i u.w, u.fetchedChain c o at' f) := by
  obtain ⟨-, -, -, sc⟩ := c.legal_iff.1 reads.legal
  have enough : c.words.length ≤ 5 := by have := Chain.words_length sc; omega
  obtain ⟨at', f, fetch⟩ := fetchChain_own (Chain.spells_words reads.fits reads.legal) enough ready words
  refine ⟨at', f, ?_⟩
  simp only [fetchInstr, M.bind_run, M.get_run, pc, fetch, M.modify_run, State.formOf_reads reads may]
  rfl

/-- Settles O28: a chosen context's step is its plan, the plan of a context that does not wait is its fetch, and a step adds
bookkeeping alone. -/
theorem stepRunsTheDecodedInstruction : Obligations.StepRunsTheDecodedInstruction := by
  unfold Obligations.StepRunsTheDecodedInstruction
  refine ⟨fun s a chosen may => ?_, fun v t i => ?_⟩
  · intro k u
    let still : State := { s.timeOn with chosen := none }
    have here : (still.core a.core).ctxs[a.ctx] = k := rfl
    have run : step s = runPlan (still.plan a.core a.ctx) := step_chosen chosen may
    have fetched {i j : Instr} {v w : State} (kept : k.kept = none) (fetch : fetchInstr u = .ok (i, v))
        (gate : v.repGate i = .run j w) : step s = thenNext (fun t => w.after t j) (exec j w) :=
      run.trans (congrArg runPlan ((State.plan_fetched here kept fetch).trans gate))
    refine ⟨fun i v => fetched, fun e kept fetch ends => ?_, fun y i v kept gate => ?_, ?_⟩
    · exact run.trans (congrArg runPlan (State.plan_exc here kept fetch ends))
    · exact run.trans (congrArg runPlan ((State.plan_kept here kept).trans gate))
    · intro i c o wf chain pc even inside kept may own unkept bad free phase rep words j
      obtain ⟨c', chain', reads⟩ := encodeChain_reads wf
      obtain rfl : c' = c := Option.some.inj (chain'.symm.trans chain)
      have ready : Fetchable u o (2 * c'.words.length) := ⟨inside, own, bad, free, by simp [unkept]⟩
      obtain ⟨at', f, fetch⟩ := fetchInstr_own (u := u) reads may pc ready words
      obtain ⟨-, -, -, sc⟩ := c'.legal_iff.1 reads.legal
      have me := State.me_fetchedChain u c' o at' f
      have gate : (u.fetchedChain c' o at' f).repGate j = .run j _ :=
        State.repGate_open ((congrArg Core.phase me).trans phase) ((congrArg Core.rep me).trans rep) sc
      have others := (coreEvent_onMe u (fun k => { k with fetched := f }) rfl).others
      refine ⟨_, fetched kept fetch gate, rfl, ?_, rfl, rfl, rfl, ?_, others⟩
      · rw [pc, localAddr_add]
        rfl
      · rw [me]
  · have quiet := quiet_after v t i
    refine ⟨fun c x => ?_, fun c => ?_, quiet.sameBytes⟩
    · have ctx := (quiet.cores c).ctxs x
      simp only [Ctx.visible, Prod.mk.injEq] at ctx
      exact ctx
    · have rest := (quiet.cores c).rest
      simp only [Core.visible, Prod.mk.injEq] at rest
      obtain ⟨csr, vec, mask, acc, sb, run, -⟩ := rest
      exact ⟨csr, vec, mask, acc, sb, run⟩

end Sys2Proof.Machine
end

section
/-! SUPPORT. Atomics whose ordering releases: their release waits for what the quire forwards (07, R173, R181, R186). -/

namespace Sys2Proof.Machine

section
variable {s : State}

/-! ### Rules of an atomic access -/

/-- An atomic access of own bytes passes the checks of R172. -/
theorem atomicPlace_own {va : Word} {n o : Nat} (kind : Access) (divides : n ∣ 16) (own : OwnBytes s va n n o) :
    atomicPlace va n kind s = .ok (.spad s.cur o, s) := by
  have small := own.small (Nat.pos_of_dvd_of_pos divides (by decide))
  have part := checkPart_own kind own
  obtain ⟨rfl, -, aligned, -⟩ := own
  have base : localBase % n = 0 := Nat.mod_eq_zero_of_dvd (Nat.dvd_trans divides (by decide))
  have align : checkAlign (localAddr o) n (localAddr o) = .ok () := by
    rw [checkAlign, localAddr_toNat small, Nat.add_mod, base, aligned]
    simp
  simp [atomicPlace, M.bind_run, checkRegion, regionOf_localAddr small, align, part]

/-- A release of `.die` scope or wider waits while a store that the quire forwards has to wait. -/
theorem release_held {sc : Scope} (wide : 2 ≤ Scope.rank sc) (sb : s.me.sb = []) (held : s.forwardsHeld s.myQuire = true) :
    release sc s = .error (.exc (.wait [])) := by
  have one : 1 ≤ Scope.rank sc := by omega
  have lost : releaseLost sc s = .error (.exc (.wait [])) := by
    simp [releaseLost, M.bind_run, one, wide, drainFirst_empty sb, held]
  exact M.bind_error lost

/-- A store-conditional to own bytes waits for its release, with or without a reservation. -/
theorem exec_scD_held {ord : Ord} {sc : Scope} {d a b : Reg} {o : Nat} (ready : AtomicReady s (s.w a) 8 o)
    (releases : Ord.releases ord = true) (wide : 2 ≤ Scope.rank sc) (held : s.forwardsHeld s.myQuire = true) :
    exec (.scD ord sc d a b) s = .next (s.deliver (.wait [])) := by
  obtain ⟨phase, -, sb, -, -, -, -, -, -, -, -, own, -⟩ := ready
  refine M.run_exc ?_
  simp [storeConditional, M.bind_run, barPhase_run phase, atomicPlace_own .store (by decide) own, drainFirst_empty sb, releases,
    release_held wide sb held]

theorem waiting_deliver_wait (s : State) (on : List Place) : (s.deliver (.wait on)).myCtx.waiting = true := by
  simp [State.deliver]

end

/-! ### A forwarded store that waits for a fill -/

/-- A store to the first byte of HBM that quire 0 has accepted and forwards to its home. -/
def forwardToFirstLine : Forward := ⟨⟨0, 0⟩, 0, storeBytes [1]⟩
/-- The reply to quire 1's `.si` fill of the first line of HBM, on its way: until it comes the home serves no other access. -/
def fillOfFirstLine : Fill :=
  { quire := 1, binding := 0, base := 0, req := .si, data := List.replicate 64 0, bad := List.replicate 8 false
    lease := some ⟨0, 1024⟩, waits := [], probed := false, way := State.reset.startWay .reply 0 1 3 }
/-- The device after reset with both, where w1 of core 0 is the first address of its scratchpad. -/
def releaseHeld : State :=
  ({ State.reset with noc := { Noc.reset with fills := [fillOfFirstLine] } }.onQuire 0 fun q =>
    { q with forwards := [forwardToFirstLine] }).setW 1 (localAddr 0)

theorem releaseHeld_memWf : releaseHeld.memWf := by
  refine ⟨rfl, rfl, fun n => ?_, fun q => ?_⟩
  · by_cases here : n = 0
    · subst here; rfl
    · exact congrArg (fun c => Memory.wf c.spad) (State.core_setCore_ne _ 0 n _ here)
  · by_cases here : q = 0
    · subst here; rfl
    · exact congrArg (fun x => Memory.wf x.kettles) (State.quire_setQuire_ne _ 0 q _ here)
theorem releaseHeld_ready : AtomicReady releaseHeld (releaseHeld.w 1) 8 0 := by
  have own : OwnBytes releaseHeld (releaseHeld.w 1) 8 8 0 :=
    ⟨State.w_setW_same .., by decide, rfl, by decide, by decide, by decide⟩
  exact ⟨by decide, rfl, rfl, rfl, rfl, rfl, releaseHeld_memWf, rfl, rfl, rfl, rfl, own, by decide⟩
theorem releaseHeld_held : releaseHeld.forwardsHeld releaseHeld.myQuire = true := by decide

/-- Refutes O10: its premises do not say that the quire can perform what it forwards, and the release of a `.rel` ordering waits
for that (R173). In `releaseHeld`, `sc.d.rel` of `.die` scope waits, where the statement has it give 3 and go on. -/
theorem not_atomicFloatsAndReservations : ¬ Obligations.AtomicFloatsAndReservations := by
  unfold Obligations.AtomicFloatsAndReservations
  intro h
  obtain ⟨-, -, double, -⟩ := h releaseHeld .rel .die 0 1 2 0
  obtain ⟨-, failed⟩ := double releaseHeld_ready
  obtain ⟨t, run, -, -, wentOn, -⟩ := failed rfl
  rw [exec_scD_held releaseHeld_ready rfl (by decide) releaseHeld_held] at run
  obtain rfl : releaseHeld.deliver (.wait []) = t := by injection run
  obtain ⟨-, goesOn⟩ := wentOn
  exact absurd ((waiting_deliver_wait ..).symm.trans goesOn) (by decide)

end Sys2Proof.Machine
end

section
/-! SUPPORT. The functions behind the integer forms, over the integers and bit by bit (05, R105 to R116). -/

namespace Sys2Proof.Machine

/-! ### Sums, products and quotients (R105, R106) -/

theorem ofInt_add_toInt (x y : Word) : x + y = BitVec.ofInt 64 (x.toInt + y.toInt) := by simp [BitVec.ofInt_add]
theorem ofInt_sub_toInt (x y : Word) : x - y = BitVec.ofInt 64 (x.toInt - y.toInt) := by
  rw [Int.sub_eq_add_neg, BitVec.ofInt_add, BitVec.ofInt_neg, BitVec.ofInt_toInt, BitVec.ofInt_toInt, BitVec.sub_eq_add_neg]
theorem ofInt_mul_toInt (x y : Word) : x * y = BitVec.ofInt 64 (x.toInt * y.toInt) := by simp [BitVec.ofInt_mul]

/-- The upper half of a number of 128 bits is its quotient by 2^64, rounded down. -/
theorem upperHalf_ofInt (z : Int) : (BitVec.ofInt 128 z).extractLsb' 64 64 = BitVec.ofInt 64 (z / 2 ^ 64) := by
  apply BitVec.eq_of_toNat_eq
  simp only [BitVec.extractLsb'_toNat, BitVec.toNat_ofInt, Nat.shiftRight_eq_div_pow]
  omega
theorem upperHalf_ofNat (z : Nat) : (BitVec.ofNat 128 z).extractLsb' 64 64 = BitVec.ofNat 64 (z / 2 ^ 64) := by
  apply BitVec.eq_of_toNat_eq
  simp only [BitVec.extractLsb'_toNat, BitVec.toNat_ofNat, Nat.shiftRight_eq_div_pow]
  omega
theorem mulHighS_eq (x y : Word) : mulHighS x y = BitVec.ofInt 64 (x.toInt * y.toInt / 2 ^ 64) := by
  rw [← upperHalf_ofInt, BitVec.ofInt_mul]
  rfl
theorem mulHighU_eq (x y : Word) : mulHighU x y = BitVec.ofNat 64 (x.toNat * y.toNat / 2 ^ 64) := by
  rw [← upperHalf_ofNat, BitVec.ofNat_mul, BitVec.ofNat_toNat, BitVec.ofNat_toNat]
  rfl

/-- The one quotient that does not fit is that of the least number by -1. -/
theorem overflows_iff (x y : Word) :
    (x = BitVec.intMin 64 && y = BitVec.allOnes 64) = true ↔ x.toInt = -2 ^ 63 ∧ y.toInt = -1 := by
  simp only [Bool.and_eq_true, decide_eq_true_eq, ← BitVec.toInt_inj]
  exact Iff.rfl
theorem divS_eq (x y : Word) : divS x y = if y = 0 then BitVec.allOnes 64
    else if x.toInt = -2 ^ 63 ∧ y.toInt = -1 then x else BitVec.ofInt 64 (x.toInt.tdiv y.toInt) := by
  simp only [divS, overflows_iff]
theorem remS_eq (x y : Word) : remS x y = if y = 0 then x
    else if x.toInt = -2 ^ 63 ∧ y.toInt = -1 then 0 else BitVec.ofInt 64 (x.toInt - x.toInt.tdiv y.toInt * y.toInt) := by
  simp only [remS, overflows_iff, Int.tmod_def, Int.mul_comm]
theorem remU_eq (x y : Word) : remU x y = if y = 0 then x else BitVec.ofNat 64 (x.toNat - x.toNat / y.toNat * y.toNat) := by
  simp only [remU, Nat.mod_eq_sub_div_mul]

/-- Quotient times divisor plus remainder is the dividend modulo 2^64, for a zero divisor and on overflow too. -/
theorem divS_mul_add_remS (x y : Word) : divS x y * y + remS x y = x := by
  rw [divS, remS]
  by_cases zero : y = 0
  · simp [zero]
  by_cases least : (x = BitVec.intMin 64 && y = BitVec.allOnes 64) = true
  · rw [if_neg zero, if_neg zero, if_pos least, if_pos least]
    simp only [Bool.and_eq_true, decide_eq_true_eq] at least
    obtain ⟨rfl, rfl⟩ := least
    decide
  · rw [if_neg zero, if_neg zero, if_neg least, if_neg least]
    calc BitVec.ofInt 64 (x.toInt.tdiv y.toInt) * y + BitVec.ofInt 64 (x.toInt.tmod y.toInt)
      _ = BitVec.ofInt 64 (x.toInt.tdiv y.toInt * y.toInt + x.toInt.tmod y.toInt) := by
        rw [BitVec.ofInt_add, BitVec.ofInt_mul, BitVec.ofInt_toInt]
      _ = x := by rw [Int.tdiv_mul_add_tmod, BitVec.ofInt_toInt]
theorem divU_mul_add_remU (x y : Word) : divU x y * y + remU x y = x := by
  rw [divU, remU]
  by_cases zero : y = 0
  · simp [zero]
  · rw [if_neg zero, if_neg zero]
    calc BitVec.ofNat 64 (x.toNat / y.toNat) * y + BitVec.ofNat 64 (x.toNat % y.toNat)
      _ = BitVec.ofNat 64 (x.toNat / y.toNat * y.toNat + x.toNat % y.toNat) := by
        rw [BitVec.ofNat_add, BitVec.ofNat_mul, BitVec.ofNat_toNat, BitVec.setWidth_eq]
      _ = x := by rw [Nat.div_add_mod', BitVec.ofNat_toNat, BitVec.setWidth_eq]

/-! ### Shifts (R107, R109, R112) -/

theorem amount_eq (y : Word) : amount y = y.toNat % 64 := by simp [amount]
theorem shiftLeft_eq_ofNat (x : Word) (n : Nat) : x <<< n = BitVec.ofNat 64 (x.toNat * 2 ^ n) := by
  apply BitVec.eq_of_toNat_eq
  simp [Nat.shiftLeft_eq]
theorem ushiftRight_eq_ofNat (x : Word) (n : Nat) : x >>> n = BitVec.ofNat 64 (x.toNat / 2 ^ n) := by
  apply BitVec.eq_of_toNat_eq
  rw [BitVec.toNat_ushiftRight, Nat.shiftRight_eq_div_pow, BitVec.toNat_ofNat, Nat.mod_eq_of_lt]
  exact (Nat.div_le_self ..).trans_lt x.isLt
theorem sshiftRight_eq_ofInt (x : Word) (n : Nat) : x.sshiftRight n = BitVec.ofInt 64 (x.toInt / 2 ^ n) := by
  rw [BitVec.sshiftRight, Int.shiftRight_eq_div_pow]
  norm_cast
/-- A rotation adds the bits that leave at the top to those that move up: the two runs share no bit. -/
theorem rotateLeft_eq_ofNat (x : Word) {n : Nat} (h : n < 64) :
    x.rotateLeft n = BitVec.ofNat 64 (x.toNat * 2 ^ n + x.toNat / 2 ^ (64 - n)) := by
  have whole : 2 ^ 64 = 2 ^ (64 - n) * 2 ^ n := by
    rw [← pow_add]
    congr 1
    omega
  have high : x.toNat / 2 ^ (64 - n) < 2 ^ n := Nat.div_lt_of_lt_mul (whole ▸ x.isLt)
  have low : x.toNat * 2 ^ n % 2 ^ 64 = x.toNat % 2 ^ (64 - n) * 2 ^ n := by rw [whole, Nat.mul_mod_mul_right]
  have fits : x.toNat % 2 ^ (64 - n) * 2 ^ n + x.toNat / 2 ^ (64 - n) < 2 ^ 64 := by
    have room := Nat.mul_le_mul_right (2 ^ n) (Nat.mod_lt x.toNat (Nat.two_pow_pos (64 - n)))
    rw [← whole, Nat.succ_mul] at room
    omega
  apply BitVec.eq_of_toNat_eq
  rw [BitVec.toNat_rotateLeft, Nat.mod_eq_of_lt h, Nat.shiftLeft_eq, low, Nat.shiftRight_eq_div_pow, ← Nat.shiftLeft_eq,
    ← Nat.shiftLeft_add_eq_or_of_lt high, Nat.shiftLeft_eq, BitVec.toNat_ofNat, ← Nat.mod_add_mod, low, Nat.mod_eq_of_lt fits]
theorem shiftLeft_or_eq_ofNat (x : Word) (k : BitVec 17) :
    (x <<< 17) ||| k.zeroExtend 64 = BitVec.ofNat 64 (x.toNat * 2 ^ 17 + k.toNat) := by
  have small := k.isLt
  have low : x.toNat * 2 ^ 17 % 2 ^ 64 = (x.toNat % 2 ^ 47) <<< 17 := by
    rw [Nat.shiftLeft_eq]
    omega
  have wide : (k.zeroExtend 64).toNat = k.toNat := by
    rw [BitVec.toNat_setWidth]
    omega
  apply BitVec.eq_of_toNat_eq
  rw [BitVec.toNat_or, BitVec.toNat_shiftLeft, Nat.shiftLeft_eq, low, wide, ← Nat.shiftLeft_add_eq_or_of_lt small,
    Nat.shiftLeft_eq, BitVec.toNat_ofNat]
  omega

/-! ### Comparisons (R107) -/

theorem slt_iff (x y : Word) : x.slt y = true ↔ x.toInt < y.toInt := BitVec.slt_iff_toInt_lt
theorem not_slt_iff (x y : Word) : (!x.slt y) = true ↔ y.toInt ≤ x.toInt := by
  rw [Bool.not_eq_true', ← Bool.not_eq_true, slt_iff, not_lt]
theorem ult_iff (x y : Word) : x.ult y = true ↔ x.toNat < y.toNat := BitVec.ult_iff_toNat_lt
theorem not_ult_iff (x y : Word) : (!x.ult y) = true ↔ y.toNat ≤ x.toNat := by
  rw [Bool.not_eq_true', ← Bool.not_eq_true, ult_iff, not_lt]

theorem full_eq {p : Bool} {q : Prop} [Decidable q] (h : p = true ↔ q) : full p = if q then BitVec.allOnes 64 else 0 := by
  simp only [full, h]
theorem truth_eq {p : Bool} {q : Prop} [Decidable q] (h : p = true ↔ q) : truth p = if q then 1 else 0 := by
  simp only [truth, h]

/-- Of two words a minimum may take either where they are equal, so `<` and `≤` choose alike. -/
theorem ite_slt (x y z w : Word) (equal : x = y → z = w) : (if x.slt y then z else w) = if x.toInt ≤ y.toInt then z else w := by
  by_cases same : x.toInt = y.toInt
  · rw [equal (BitVec.toInt_inj.1 same), ite_self, ite_self]
  · have le_iff : x.toInt < y.toInt ↔ x.toInt ≤ y.toInt := by omega
    simp only [slt_iff, le_iff]
theorem ite_ult (x y z w : Word) (equal : x = y → z = w) : (if x.ult y then z else w) = if x.toNat ≤ y.toNat then z else w := by
  by_cases same : x.toNat = y.toNat
  · rw [equal (BitVec.toNat_inj.1 same), ite_self, ite_self]
  · have le_iff : x.toNat < y.toNat ↔ x.toNat ≤ y.toNat := by omega
    simp only [ult_iff, le_iff]

/-! ### Counts (R114) -/

/-- The first index below `n` that meets a condition, or `n`. -/
theorem find_range_spec (n : Nat) (p : Nat → Bool) : let r := ((List.range n).find? p).getD n
    r ≤ n ∧ (∀ i, i < r → p i = false) ∧ (r < n → p r = true) := by
  cases h : (List.range n).find? p with
  | none =>
    simp only [List.find?_eq_none, List.mem_range] at h
    exact ⟨Nat.le_refl n, fun i hi => by simpa using h i hi, fun out => absurd out (Nat.lt_irrefl n)⟩
  | some r =>
    rw [List.find?_range_eq_some] at h
    obtain ⟨here, inside, before⟩ := h
    exact ⟨(List.mem_range.1 inside).le, fun i hi => by simpa using before i hi, fun _ => here⟩

theorem ctz_spec (x : Word) : let r := ctzN 64 x.toNat
    r ≤ 64 ∧ (∀ i, i < r → x.getLsbD i = false) ∧ (r < 64 → x.getLsbD r = true) := find_range_spec 64 x.getLsbD
theorem clz_spec (x : Word) : let r := clzN 64 x.toNat
    r ≤ 64 ∧ (∀ i, 64 - r ≤ i → x.getLsbD i = false) ∧ (r < 64 → x.getLsbD (63 - r) = true) := by
  obtain ⟨le, zeros, set⟩ := find_range_spec 64 fun i => x.getLsbD (63 - i)
  refine ⟨le, fun i hi => ?_, set⟩
  by_cases inside : i < 64
  · have bit := zeros (63 - i) (by change 64 - clzN 64 x.toNat ≤ i at hi; change 63 - i < clzN 64 x.toNat; omega)
    rwa [show 63 - (63 - i) = i by omega] at bit
  · exact BitVec.getLsbD_of_ge x i (by omega)
theorem ffs_spec (x : Word) : let r := ffsN 64 x.toNat
    r ≤ 64 ∧ (∀ i, i + 1 < r → x.getLsbD i = false) ∧ (r = 0 → x = 0) ∧ (0 < r → x.getLsbD (r - 1) = true) := by
  have whole : x.toNat % 2 ^ 64 = x.toNat := Nat.mod_eq_of_lt x.isLt
  obtain ⟨le, zeros, set⟩ := ctz_spec x
  by_cases zero : x.toNat = 0
  · have none : ffsN 64 x.toNat = 0 := by rw [ffsN, whole, if_pos zero]
    rw [none]
    exact ⟨by omega, fun i hi => by omega, fun _ => BitVec.eq_of_toNat_eq zero, fun h => by omega⟩
  · have found : ffsN 64 x.toNat = ctzN 64 x.toNat + 1 := by rw [ffsN, whole, if_neg zero]
    have inside : ctzN 64 x.toNat < 64 := by
      by_contra out
      refine zero (congrArg BitVec.toNat (BitVec.eq_of_getLsbD_eq fun i hi => ?_ : x = 0))
      rw [zeros i (by omega), BitVec.ofNat_eq_ofNat, BitVec.getLsbD_zero]
    rw [found]
    exact ⟨inside, fun i hi => zeros i (by omega), fun h => by omega, fun _ => set inside⟩
theorem popN_eq (x : Word) : popN 64 x.toNat = (List.range 64).countP fun i => x.getLsbD i :=
  List.countP_eq_length_filter.symm

/-! ### Extensions and bytes (R115) -/

theorem signExtend_eq_ofInt {n : Nat} (k : BitVec n) : k.signExtend 64 = BitVec.ofInt 64 k.toInt := rfl
theorem signExtend_low {n : Nat} (x : Word) (h : n ≤ 64) :
    (x.extractLsb' 0 n).signExtend 64 = BitVec.ofInt 64 (x.toInt.bmod (2 ^ n)) := by
  rw [signExtend_eq_ofInt, BitVec.toInt_extractLsb', BitVec.toInt_eq_toNat_bmod, Int.bmod_bmod_of_dvd (Nat.pow_dvd_pow 2 h)]
  simp
theorem zeroExtend_low (n : Nat) (x : Word) : (x.extractLsb' 0 n).zeroExtend 64 = BitVec.ofNat 64 (x.toNat % 2 ^ n) := by
  apply BitVec.eq_of_toNat_eq
  simp
theorem byteSwap_byte (x : Word) {i : Nat} (h : i < 8) :
    (byteSwap x).extractLsb' (8 * i) 8 = x.extractLsb' (8 * (7 - i)) 8 := by
  interval_cases i
  all_goals
    simp (disch := decide) only [byteSwap, BitVec.extractLsb'_append_eq_of_add_le, BitVec.extractLsb'_append_eq_of_le]
    exact BitVec.extractLsb'_eq_self

/-! ### Bit fields (R116) -/

/-- How many bits of a field of `len` bits at `pos` stand in a word. -/
def fieldWidth (pos len : Nat) : Nat := if len ≤ 64 - pos then len else 64 - pos

theorem fieldMask_getLsbD (pos len i : Nat) : (fieldMask pos len).getLsbD i = decide (i < fieldWidth pos len) := by
  have width : Nat.min len (64 - pos) = fieldWidth pos len := Nat.min_def
  have fits : fieldWidth pos len ≤ 64 := width ▸ (Nat.min_le_right ..).trans (Nat.sub_le ..)
  rw [fieldMask, width, BitVec.getLsbD_ofNat, Nat.testBit_two_pow_sub_one, Bool.and_eq_right_iff_imp]
  simpa using fun h => Nat.lt_of_lt_of_le h fits
theorem extractField_eq (x : Word) (pos len : Nat) :
    extractField x pos len = BitVec.ofNat 64 (x.toNat / 2 ^ pos % 2 ^ fieldWidth pos len) := by
  apply BitVec.eq_of_getLsbD_eq
  intro i hi
  rw [extractField, BitVec.getLsbD_and, fieldMask_getLsbD, BitVec.getLsbD_ofNat, Nat.testBit_mod_two_pow, Nat.testBit_div_two_pow]
  simp [hi, Bool.and_comm, BitVec.getLsbD, Nat.add_comm]
theorem insertField_getLsbD (d a : Word) (pos len : Nat) {i : Nat} (h : i < 64) : (insertField d a pos len).getLsbD i =
    if pos ≤ i ∧ i < pos + fieldWidth pos len then a.getLsbD (i - pos) else d.getLsbD i := by
  simp only [insertField, BitVec.getLsbD_or, BitVec.getLsbD_and, BitVec.getLsbD_not, BitVec.getLsbD_shiftLeft, fieldMask_getLsbD, h]
  by_cases below : i < pos
  · simp [below, show ¬ pos ≤ i by omega]
  · by_cases inside : i < pos + fieldWidth pos len
    · simp [below, inside, show pos ≤ i by omega, show i - pos < fieldWidth pos len by omega]
    · simp [below, inside, show ¬ i - pos < fieldWidth pos len by omega]
theorem regField_eq (y : Word) : regField y = (y.toNat % 64, y.toNat / 256 % 64 + 1) := by
  simp [regField, Nat.shiftRight_eq_div_pow]
theorem immField_eq (k : BitVec 11) : immField k = (k.toNat % 64, k.toNat / 64 + 1) := by
  have := k.isLt
  simp only [immField, BitVec.extractLsb'_toNat, Nat.shiftRight_eq_div_pow, Prod.mk.injEq]
  omega

end Sys2Proof.Machine
end

section
/-! SUPPORT. The integer forms of page 0 and the words of those with two fields (05, R105 to R116, R128). -/

namespace Sys2Proof.Machine

/-! ### What a register form computes (R103) -/

section
variable {i : Instr} {s : State} {d a b : Reg} {z : Word} (hs : s.issue.stay = false)
include hs

theorem computes_two (f : Word → Word → Word) (run : exec i s = M.run (two f d a b) s) (value : f (s.w a) (s.w b) = z) :
    Computes i s d z := computes_of hs (run.trans (value ▸ M.run_ok rfl))
theorem computes_one (f : Word → Word) (run : exec i s = M.run (one f d a) s) (value : f (s.w a) = z) : Computes i s d z :=
  computes_of hs (run.trans (value ▸ M.run_ok rfl))

end

/-! ### Forms of another shape: those that read their old destination, and those that read nothing -/

theorem run_readW (r : Reg) (f : Word → M Unit) (s : State) : M.run (readW r >>= f) s = M.run (f (s.w r)) s :=
  M.run_congr (M.bind_ok (readW_run r s))

section
variable (s : State) (d a b : Reg)

theorem exec_sel : exec (.sel d a b) s = M.run (two (fun x y => if s.w d ≠ 0 then x else y) d a b) s := by
  show M.run (readW d >>= fun old => two (fun x y => if old ≠ 0 then x else y) d a b) s = _
  rw [run_readW]
theorem exec_bins :
    exec (.bins d a b) s = M.run (two (fun x y => insertField (s.w d) x (regField y).1 (regField y).2) d a b) s := by
  show M.run (readW d >>= fun old => two (fun x y => insertField old x (regField y).1 (regField y).2) d a b) s = _
  rw [run_readW]
theorem exec_binsImm (k : BitVec 11) :
    exec (.binsImm d a k) s = M.run (one (fun x => insertField (s.w d) x (immField k).1 (immField k).2) d a) s := by
  show M.run (readW d >>= fun old => one (fun x => insertField old x (immField k).1 (immField k).2) d a) s = _
  rw [run_readW]
theorem exec_li (k : BitVec 17) : exec (.li d k) s = .next (s.setW d (k.signExtend 64)).advance := rfl
theorem exec_nop : exec .nop s = .next s.advance := rfl

end

/-! ### The claims -/

/-- Settles O1: each function is its formula over the integers, and the identity comes from that of the division. -/
theorem arithmeticComputesOverTheIntegers : Obligations.ArithmeticComputesOverTheIntegers := by
  intro s d a b hs x y m1 q r qn rn
  have quotient : divS x y = q := divS_eq x y
  have remainder : remS x y = r := remS_eq x y
  have quotientN : divU x y = qn := rfl
  have remainderN : remU x y = rn := remU_eq x y
  exact ⟨computes_two hs (· + ·) rfl (ofInt_add_toInt x y), computes_two hs (· - ·) rfl (ofInt_sub_toInt x y),
    computes_two hs (· * ·) rfl (ofInt_mul_toInt x y), computes_two hs mulHighS rfl (mulHighS_eq x y),
    computes_two hs mulHighU rfl (mulHighU_eq x y), computes_two hs divS rfl quotient, computes_two hs remS rfl remainder,
    computes_two hs divU rfl quotientN, computes_two hs remU rfl remainderN,
    by rw [← quotient, ← remainder, divS_mul_add_remS], by rw [← quotientN, ← remainderN, divU_mul_add_remU]⟩

theorem logicShiftCompareSelect : Claims.LogicShiftCompareSelect := by
  intro s d a b k hs x y n mask one'
  have shift : amount (s.w b) = n := amount_eq y
  have inside : n < 64 := Nat.mod_lt _ (by decide)
  exact ⟨computes_two hs (· &&& ·) rfl rfl, computes_two hs (· ||| ·) rfl rfl, computes_two hs (· ^^^ ·) rfl rfl,
    computes_two hs (fun u v => u &&& ~~~v) rfl rfl,
    computes_two hs (fun u v => u <<< amount v) rfl (by rw [shift, shiftLeft_eq_ofNat]),
    computes_two hs (fun u v => u >>> amount v) rfl (by rw [shift, ushiftRight_eq_ofNat]),
    computes_two hs (fun u v => u.sshiftRight (amount v)) rfl (by rw [shift, sshiftRight_eq_ofInt]),
    computes_two hs (fun u v => u.rotateLeft (amount v)) rfl (by rw [shift, rotateLeft_eq_ofNat x inside]),
    computes_two hs (fun u v => if u.slt v then u else v) rfl (ite_slt x y x y id),
    computes_two hs (fun u v => if u.slt v then v else u) rfl (ite_slt x y y x Eq.symm),
    computes_two hs (fun u v => if u.ult v then u else v) rfl (ite_ult x y x y id),
    computes_two hs (fun u v => if u.ult v then v else u) rfl (ite_ult x y y x Eq.symm),
    computes_two hs (fun u v => full (u.slt v)) rfl (full_eq (slt_iff x y)),
    computes_two hs (fun u v => full (u.ult v)) rfl (full_eq (ult_iff x y)),
    computes_two hs (fun u v => truth (u == v)) rfl (truth_eq beq_iff_eq),
    computes_two hs (fun u v => truth (u != v)) rfl (truth_eq bne_iff_ne),
    computes_two hs (fun u v => truth (u.slt v)) rfl (truth_eq (slt_iff x y)),
    computes_two hs (fun u v => truth (!u.slt v)) rfl (truth_eq (not_slt_iff x y)),
    computes_two hs (fun u v => truth (u.ult v)) rfl (truth_eq (ult_iff x y)),
    computes_two hs (fun u v => truth (!u.ult v)) rfl (truth_eq (not_ult_iff x y)),
    computes_two hs _ (exec_sel s d a b) rfl,
    computes_one hs (· <<< k.toNat) rfl (shiftLeft_eq_ofNat x _), computes_one hs (· >>> k.toNat) rfl (ushiftRight_eq_ofNat x _),
    computes_one hs (·.sshiftRight k.toNat) rfl (sshiftRight_eq_ofInt x _)⟩

theorem movesConstantsAndAddresses : Claims.MovesConstantsAndAddresses := by
  intro s d a c k off sz hs
  refine ⟨computes_one hs id rfl rfl, computes_of hs (exec_li s d k), computes_one hs (· + k.signExtend 64) rfl ?addi,
    computes_one hs (fun x => (x <<< 17) ||| k.zeroExtend 64) rfl (shiftLeft_or_eq_ofNat _ k),
    computes_one hs (· + off.signExtend 64) rfl ?lea,
    computes_two hs (fun x y => x + (y <<< sizeLog sz) + off.signExtend 64) rfl ?indexed,
    s.advance, exec_nop s, s.w_advance, wentOn_advance s s hs rfl, onlyMyCtx_onMyCtx s _⟩
  case addi | lea => rw [BitVec.ofInt_add, BitVec.ofInt_toInt, signExtend_eq_ofInt]
  case indexed => rw [BitVec.ofInt_add, BitVec.ofInt_add, BitVec.ofInt_toInt, signExtend_eq_ofInt, shiftLeft_sizeLog]

/-- Settles O34: the logic forms, and the moves. -/
theorem logicMovesAndConstants : Obligations.LogicMovesAndConstants := ⟨logicShiftCompareSelect, movesConstantsAndAddresses⟩

theorem countingForms : Claims.CountingForms := by
  intro s d a hs x
  exact ⟨⟨_, computes_one hs (fun x => BitVec.ofNat 64 (clzN 64 x.toNat)) rfl rfl, clz_spec x⟩,
    ⟨_, computes_one hs (fun x => BitVec.ofNat 64 (ctzN 64 x.toNat)) rfl rfl, ctz_spec x⟩,
    ⟨_, computes_one hs (fun x => BitVec.ofNat 64 (ffsN 64 x.toNat)) rfl rfl, ffs_spec x⟩,
    computes_one hs (fun x => BitVec.ofNat 64 (popN 64 x.toNat)) rfl (congrArg (BitVec.ofNat 64) (popN_eq x))⟩

/-- A number written behind another. -/
theorem toNat_append_eq_add {m n : Nat} (x : BitVec m) (y : BitVec n) : (x ++ y).toNat = x.toNat * 2 ^ n + y.toNat := by
  rw [BitVec.toNat_append, ← Nat.shiftLeft_add_eq_or_of_lt y.isLt, Nat.shiftLeft_eq]
/-- The one word of a form of page 0 with registers below 16 in X and Y (02, Table 2.1). -/
theorem words_encXY {op f : Nat} {d a : Reg} (hf : f < 4) (hd : d.val < 16) (ha : a.val < 16) :
    (encXY 0 op f d a).words = [BitVec.ofNat 16 (op * 2 ^ 10 + d.val * 2 ^ 6 + a.val * 2 ^ 2 + f)] := by
  have plain : (encXY 0 op f d a).rx = false := by
    simp [encXY, Chain.needRx, Chain.plain, bits5, Nat.not_le.2 hd, Nat.not_le.2 ha]
  have base : (encXY 0 op f d a).baseWord = BitVec.ofNat 16 (op * 2 ^ 10 + d.val * 2 ^ 6 + a.val * 2 ^ 2 + f) := by
    apply BitVec.eq_of_toNat_eq
    simp only [Chain.baseWord, encXY, Chain.needRx, Chain.plain, bits5, toNat_append_eq_add, BitVec.extractLsb'_toNat,
      BitVec.toNat_ofFin, BitVec.toNat_ofNat, Nat.shiftRight_zero]
    omega
  rw [Chain.words_eq rfl, plain, base]
  rfl
/-- Such a form is read back from its word. -/
theorem decodeWords_encXY {i : Instr} {op f : Nat} {d a : Reg} (wf : i.wellFormed = true) (own : asWritten i = i)
    (chain : encodeChain i = some (encXY 0 op f d a)) (hf : f < 4) (hd : d.val < 16) (ha : a.val < 16) :
    decodeWords [BitVec.ofNat 16 (op * 2 ^ 10 + d.val * 2 ^ 6 + a.val * 2 ^ 2 + f)] = some (i, 1) := by
  obtain ⟨c, chain', reads⟩ := encodeChain_reads wf
  obtain rfl := Option.some.inj (chain.symm.trans chain')
  have decoded := Chain.decodeWords_words reads.fits reads.legal []
  rw [words_encXY hf hd ha, reads.decodes, own] at decoded
  exact decoded

theorem extensionsAndByteSwap : Claims.ExtensionsAndByteSwap := by
  intro s d a hs x
  refine ⟨computes_one hs (fun x => (x.extractLsb' 0 8).signExtend 64) rfl (signExtend_low x (by decide)),
    computes_one hs (fun x => (x.extractLsb' 0 16).signExtend 64) rfl (signExtend_low x (by decide)),
    computes_one hs (fun x => (x.extractLsb' 0 32).signExtend 64) rfl (signExtend_low x (by decide)),
    computes_one hs (fun x => (x.extractLsb' 0 8).zeroExtend 64) rfl (zeroExtend_low 8 x),
    computes_one hs (fun x => (x.extractLsb' 0 16).zeroExtend 64) rfl (zeroExtend_low 16 x),
    computes_one hs (fun x => (x.extractLsb' 0 32).zeroExtend 64) rfl (zeroExtend_low 32 x),
    ⟨_, computes_one hs byteSwap rfl rfl, fun i hi => byteSwap_byte x hi⟩, fun hd ha => ?_⟩
  have word {i : Instr} {op f : Nat} (wf : i.wellFormed = true) (own : asWritten i = i)
      (chain : encodeChain i = some (encXY 0 op f d a)) (hf : f < 4 := by decide) :=
    decodeWords_encXY wf own chain hf hd ha
  exact ⟨word rfl rfl rfl, word rfl rfl rfl, word rfl rfl rfl, word rfl rfl rfl, word rfl rfl rfl, word rfl rfl rfl,
    word rfl rfl rfl⟩

theorem bitFieldExtractAndInsert : Claims.BitFieldExtractAndInsert := by
  intro s d a b k hs x cut ext isIns pos len ipos ilen
  have reg : regField (s.w b) = (pos, len) := regField_eq (s.w b)
  have imm : immField k = (ipos, ilen) := immField_eq k
  refine ⟨computes_two hs (fun x y => extractField x (regField y).1 (regField y).2) rfl ?_,
    computes_one hs (fun x => extractField x (immField k).1 (immField k).2) rfl ?_,
    ⟨_, computes_two hs _ (exec_bins s d a b) rfl, fun i hi => ?_⟩,
    ⟨_, computes_one hs _ (exec_binsImm s d a k) rfl, fun i hi => ?_⟩⟩
  · rw [reg]
    exact extractField_eq x pos len
  · rw [imm]
    exact extractField_eq x ipos ilen
  · rw [reg]
    exact insertField_getLsbD (s.w d) x pos len hi
  · rw [imm]
    exact insertField_getLsbD (s.w d) x ipos ilen hi

/-- Settles O33: the counts, the extensions and the bit fields. -/
theorem integerBitForms : Obligations.IntegerBitForms := ⟨countingForms, extensionsAndByteSwap, bitFieldExtractAndInsert⟩

end Sys2Proof.Machine
end

section
/-! SUPPORT. Branches and jumps (05, R117 to R119; 02, R58). -/

namespace Sys2Proof.Machine

/-- A target stands twice its offset from the instruction's first word. -/
theorem target_eq {n : Nat} (pc : Word) (k : BitVec n) (h : n ≤ 64) :
    target pc (k.signExtend 64) = BitVec.ofInt 64 (pc.toInt + 2 * k.toInt) := by
  have twice : k.signExtend 64 <<< 1 = BitVec.ofInt 64 (k.toInt * 2) := by
    rw [← BitVec.toInt_signExtend_of_le h]
    exact shiftLeft_sizeLog .h _
  rw [target, twice, BitVec.ofInt_add, BitVec.ofInt_toInt, Int.mul_comm]

theorem exec_jmp (s : State) (k : BitVec 21) :
    exec (.jmp k) s = .next (s.setNext (target s.issue.pc (k.signExtend 64))).advance := rfl
theorem exec_jal (s : State) (k : BitVec 21) :
    exec (.jal k) s = .next ((s.setW 14 s.issue.next).setNext (target s.issue.pc (k.signExtend 64))).advance := rfl
theorem exec_jr (s : State) (a : Reg) : exec (.jr a) s = M.run (jumpTo (s.w a)) s := M.run_congr (M.bind_ok (readW_run a s))
theorem exec_ret (s : State) : exec .ret s = M.run (jumpTo (s.w 14)) s := M.run_congr (M.bind_ok (readW_run 14 s))

section
variable {i : Instr} {s : State} (hs : s.issue.stay = false)
include hs

theorem goesTo_next (run : exec i s = .next s.advance) : GoesTo i s s.issue.next := by
  obtain ⟨pc, waiting⟩ := wentOn_advance s s hs rfl
  exact ⟨_, run, s.w_advance, pc, waiting, rfl, onlyMyCtx_onMyCtx s _⟩

/-- A branch goes to its target where its relation holds, and on where it does not. -/
theorem goesTo_branch {p : Word → Word → Bool} {a b : Reg} {k : BitVec 11} {q : Prop} [Decidable q]
    (run : exec i s = M.run (branch p a b k) s) (relation : p (s.w a) (s.w b) = true ↔ q) :
    GoesTo i s (if q then BitVec.ofInt 64 (s.issue.pc.toInt + 2 * k.toInt) else s.issue.next) := by
  rw [← target_eq s.issue.pc k (by decide)]
  by_cases holds : q
  · rw [if_pos holds]
    exact goesTo_of hs (run.trans (M.run_ok (by simp [branch, M.bind_run, relation.2 holds])))
  · rw [if_neg holds]
    exact goesTo_next hs (run.trans (M.run_ok (by simp [branch, M.bind_run, mt relation.1 holds])))

/-- A jump through a register goes to an even address. -/
theorem goesTo_jumpTo {a : Word} (run : exec i s = M.run (jumpTo a) s) (even : a.toNat % 2 = 0) : GoesTo i s a := by
  have bit : a.getLsbD 0 = false := by rw [BitVec.getLsbD, Nat.testBit_zero, even]; rfl
  refine goesTo_of hs (run.trans (M.run_ok ?_))
  rw [jumpTo, M.bind_run, need_run, bit]
  rfl

end

theorem jumpTo_odd {s : State} {a : Word} (odd : a.toNat % 2 = 1) : M.run (jumpTo a) s = .next (s.deliver (.trap 0x03 a)) := by
  have bit : a.getLsbD 0 = true := by rw [BitVec.getLsbD, Nat.testBit_zero, odd]; rfl
  refine M.run_exc (M.bind_error ?_)
  rw [need_run, bit]
  rfl

/-- Settles O2: each branch by its relation, each jump by its target. -/
theorem branchesAndJumps : Obligations.BranchesAndJumps := by
  intro s a b k j hs x y br dest
  have target : target s.issue.pc (j.signExtend 64) = dest := target_eq s.issue.pc j (by decide)
  have jrWord (small : a.val < 16) : decodeWords [BitVec.ofNat 16 (0x17 * 2 ^ 10 + a.val * 2 ^ 6)] = some (.jr a, 1) := by
    have word := decodeWords_encXY (i := .jr a) (op := 0x17) (f := 0) (a := 0) rfl rfl rfl (by decide) small (by decide)
    simpa using word
  refine ⟨goesTo_branch hs rfl beq_iff_eq, goesTo_branch hs rfl bne_iff_ne, goesTo_branch hs rfl (slt_iff x y),
    goesTo_branch hs rfl (not_slt_iff x y), goesTo_branch hs rfl (ult_iff x y), goesTo_branch hs rfl (not_ult_iff x y),
    goesTo_of hs (target ▸ exec_jmp s j), ⟨_, exec_jal s j, ?_, fun r hr => ?_, ?_, ?_, onlyMyCtx_setW_advance (s.setNext _) 14 _⟩,
    goesTo_jumpTo hs (exec_jr s a), fun odd => (exec_jr s a).trans (jumpTo_odd odd), goesTo_jumpTo hs (exec_ret s),
    fun odd => (exec_ret s).trans (jumpTo_odd odd), (exec_jr s 14).trans (exec_ret s).symm,
    fun small => jrWord small, by decide⟩
  · simp
  · simp [State.w_setW, hr]
  · simp [hs, target]
  · simp [hs]

end Sys2Proof.Machine
end

section
/-! SUPPORT. What every exception leaves as it was: the general registers and the bytes (01, R10, R16; 02, R39). -/

namespace Sys2Proof.Machine

/-! ### A core that takes an exception -/

/-- The change leaves every core's scratchpad and the general registers of every context. -/
def KeepsRegisters (f : Core → Core) : Prop := ∀ c, (f c).spad = c.spad ∧ ∀ x : Fin 11, (f c).ctxs[x].w = c.ctxs[x].w

theorem ctxs_set_w (c : Core) {k : Fin 11} {y : Ctx} (h : y.w = c.ctxs[k].w) (x : Fin 11) : (c.ctxs.set k y)[x].w = c.ctxs[x].w := by
  by_cases here : k = x
  · subst here
    simp [h]
  · simp [Vector.getElem_set_ne, Fin.val_ne_of_ne here]

theorem keepsRegisters_takeTrap (k : BitVec 6) (v e : Word) : KeepsRegisters fun c => c.takeTrap k v e := by
  intro c
  dsimp only [Core.takeTrap]
  split
  · exact ⟨rfl, fun _ => rfl⟩
  · exact ⟨rfl, ctxs_set_w c (k := 0) (by rfl)⟩
theorem keepsRegisters_takeUpcall (k : BitVec 6) (v e : Word) : KeepsRegisters fun c => c.takeUpcall k v e := by
  intro c
  dsimp only [Core.takeUpcall]
  split
  · exact ⟨rfl, ctxs_set_w c (k := 0) (by rfl)⟩
  · exact keepsRegisters_takeTrap k v e c
theorem keepsRegisters_endHelper (h : Fin 11) (k : BitVec 6) : KeepsRegisters fun c => c.endHelper h k :=
  fun c => ⟨rfl, ctxs_set_w c (by rfl)⟩
theorem keepsRegisters_repFails (k : BitVec 6) (v : Word) : KeepsRegisters fun c => c.repFails k v := fun _ => ⟨rfl, fun _ => rfl⟩

/-! ### The state in which an exception was delivered -/

theorem keepsW_loseResv (s : State) (a : Agent) : KeepsW s (s.loseResv a) := by
  refine ⟨rfl, rfl, fun n x => ?_⟩
  by_cases here : n = a.core
  · rw [here, State.core_loseResv_same, Core.lost]
    exact ctxs_set_w _ (by rfl) x
  · rw [State.core_loseResv_ne _ _ here]

/-- The same registers and bytes stand. -/
def KeepsValues (s t : State) : Prop := KeepsW s t ∧ SameBytes s t

theorem KeepsValues.trans {s t u : State} (h : KeepsValues s t) (g : KeepsValues t u) : KeepsValues s u :=
  ⟨h.1.trans g.1, h.2.trans g.2⟩
theorem keepsValues_onMe (s : State) {f : Core → Core} (h : KeepsRegisters f) : KeepsValues s (s.onMe f) :=
  ⟨keepsW_onCore s s.cur f (h s.me).2, (coreEvent_onMe s f (h s.me).1).sameBytes⟩
theorem keepsValues_struck (s : State) : KeepsValues s s.struck :=
  ⟨⟨rfl, rfl, fun _ _ => rfl⟩, sameBytes_of (fun _ => rfl) rfl rfl rfl⟩
theorem keepsValues_loseResv (s : State) (a : Agent) : KeepsValues s (s.loseResv a) :=
  ⟨keepsW_loseResv s a, (coreEvent_loseResv s a).sameBytes⟩
theorem keepsValues_tellStop (s : State) (n : Nat) : KeepsValues s (s.tellStop n) :=
  ⟨⟨State.tellStop_cur .., State.tellStop_ctx .., fun _ _ => by rw [State.core_tellStop]⟩, (coreEvent_tellStop s n n).sameBytes⟩
theorem keepsValues_taking (s : State) {f : Core → Core} (h : KeepsRegisters f) : KeepsValues s (s.taking f) :=
  (((keepsValues_struck s).trans (keepsValues_loseResv ..)).trans (keepsValues_onMe _ h)).trans (keepsValues_tellStop ..)

/-- Whatever an instruction ends in, no general register and no byte differs. -/
theorem keepsValues_deliver (s : State) (e : Exc) : KeepsValues s (s.deliver e) := by
  cases e with
  | wait on =>
    exact keepsValues_onMe s (f := fun c => { c with ctxs := c.ctxs.set s.ctx { c.ctxs[s.ctx] with waiting := true, wants := on } })
      fun c => ⟨rfl, ctxs_set_w c (by rfl)⟩
  | trap k v =>
    by_cases reissue : s.issue.reissue = true
    · have e : s.deliver (.trap k v) = s.struck.onMe fun c => c.repFails k v := if_pos reissue
      exact e ▸ (keepsValues_struck s).trans (keepsValues_onMe _ (keepsRegisters_repFails k v))
    · rw [Bool.not_eq_true] at reissue
      by_cases control : s.ctx = 0
      · exact State.deliver_trap_control k v reissue control ▸ keepsValues_taking s (keepsRegisters_takeTrap _ _ _)
      · exact State.deliver_trap_helper k v reissue control ▸ keepsValues_taking s (keepsRegisters_endHelper _ _)
  | upcall k v =>
    by_cases reissue : s.issue.reissue = true
    · have e : s.deliver (.upcall k v) = s.struck.onMe fun c => c.repFails k v := if_pos reissue
      exact e ▸ (keepsValues_struck s).trans (keepsValues_onMe _ (keepsRegisters_repFails k v))
    · rw [Bool.not_eq_true] at reissue
      by_cases control : s.ctx = 0
      · exact State.deliver_upcall_control k v reissue control ▸ keepsValues_taking s (keepsRegisters_takeUpcall _ _ _)
      · have e : s.deliver (.upcall k v) = s.taking fun c => c.endHelper s.ctx k :=
          (if_neg (by simp [reissue])).trans (if_neg control)
        exact e ▸ keepsValues_taking s (keepsRegisters_endHelper _ _)

end Sys2Proof.Machine
end

section
/-! SUPPORT. Accesses that a check refuses, in the order of the checks (05, R122, R124, Table 5.7; 07, R172). -/

namespace Sys2Proof.Machine

section
variable {s : State} {va : Word} {n : Nat}

/-! ### The checks -/

theorem checkRegion_bad (h : regionOf va = .bad) : checkRegion s va va = .error (.upcall 0x20 va) := by simp [checkRegion, h]
theorem checkRegion_super (h : regionOf va = .super) (below : s.mode ≠ 2) : checkRegion s va va = .error (.trap 0x02 va) := by
  simp [checkRegion, h, below]
theorem checkRegion_ok (good : regionOf va ≠ .bad) (supervisor : regionOf va = .super → s.mode = 2) :
    checkRegion s va va = .ok (regionOf va) := by
  cases h : regionOf va with
  | bad => exact absurd h good
  | super => simp [checkRegion, h, supervisor h]
  | user | loc => simp [checkRegion, h]
theorem checkAlign_misaligned (h : va.toNat % n ≠ 0) : checkAlign va n va = .error (.trap 0x03 va) := if_neg h
theorem checkAlign_aligned (h : va.toNat % n = 0) : checkAlign va n va = .ok () := if_pos h

theorem checkAccess_region {e : Exc} (kind : Access) (h : checkRegion s va va = .error e) :
    checkAccess va n kind s = .error (.exc e) := by
  simp [checkAccess, M.bind_run, h]
theorem checkAccess_misaligned {r : Region} (kind : Access) (region : checkRegion s va va = .ok r) (h : va.toNat % n ≠ 0) :
    checkAccess va n kind s = .error (.exc (.trap 0x03 va)) := by
  simp [checkAccess, M.bind_run, region, checkAlign_misaligned h]

theorem atomicPlace_region {e : Exc} (kind : Access) (h : checkRegion s va va = .error e) :
    atomicPlace va n kind s = .error (.exc e) := by
  simp [atomicPlace, M.bind_run, h]
theorem atomicPlace_misaligned {r : Region} (kind : Access) (region : checkRegion s va va = .ok r) (h : va.toNat % n ≠ 0) :
    atomicPlace va n kind s = .error (.exc (.trap 0x03 va)) := by
  simp [atomicPlace, M.bind_run, region, checkAlign_misaligned h]
/-- Only win0 serves an atomic, and the kettle stores serve none. -/
theorem atomicPlace_window {win slot o : Nat} (kind : Access) (region : regionOf va = .loc win slot o) (aligned : va.toNat % n = 0)
    (h : win ≠ 0 ∨ slot = 127) : atomicPlace va n kind s = .error (.exc (.trap 0x04 va)) := by
  obtain ⟨r, here⟩ : ∃ r, regionOf va = r := ⟨_, rfl⟩
  have checked : checkRegion s va va = .ok r := here ▸ checkRegion_ok (by simp [region]) (by simp [region])
  simp only [atomicPlace, M.bind_run, M.get_run, checked, checkAlign_aligned aligned, liftE_ok]
  split
  · rfl
  · rename_i other
    have slotOther : slot ≠ 127 := fun kettle => other win o (here.symm.trans (kettle ▸ region))
    have window : win ≠ 0 := h.resolve_right slotOther
    simp [← here, region, checkPart, M.bind_run, checkLocal, window]

/-! ### Loads and stores whose checks fail -/

theorem scaledAddr_eq (sz : Size) (b : Reg) (off : BitVec 11) :
    scaledAddr sz b off s = .ok (s.w b + BitVec.ofInt 64 (off.toInt * sizeBytes sz), s) := by
  rw [scaledAddr_run, signExtend_shiftLeft_sizeLog]
theorem phaseAccess_run (phase : s.csr.ph = false) : phaseAccess va s = .ok ((), s) := by
  simp [phaseAccess, M.bind_run, phase]

section
variable {sz : Size} {d b : Reg} {off : BitVec 11} {req : Request} {e : Exc} (phase : s.csr.ph = false)
  (va_eq : va = s.w b + BitVec.ofInt 64 (off.toInt * sizeBytes sz)) (raw : ∀ win slot o, regionOf va = .loc win slot o → win = 0)
include phase va_eq raw

/-- A load of raw bytes is checked before it has any effect. -/
theorem load_fails (signed : Bool) (check : checkAccess va (sizeBytes sz) .load s = .error (.exc e)) :
    M.run (scaledAddr sz b off >>= fun va => load sz signed va d req) s = .next (s.deliver e) := by
  refine M.run_exc ((M.bind_ok (scaledAddr_eq ..)).trans ?_)
  rw [← va_eq, load, M.bind_ok (phaseAccess_run phase)]
  cases region : regionOf va with
  | loc win slot o =>
    obtain rfl := raw win slot o region
    exact M.bind_error check
  | user | super | bad => exact M.bind_error check
theorem store_fails (check : checkAccess va (sizeBytes sz) .store s = .error (.exc e)) :
    M.run (scaledAddr sz b off >>= fun va => store sz va d req) s = .next (s.deliver e) := by
  refine M.run_exc ((M.bind_ok (scaledAddr_eq ..)).trans ?_)
  rw [← va_eq, store, M.bind_ok (phaseAccess_run phase)]
  cases region : regionOf va with
  | loc win slot o =>
    obtain rfl := raw win slot o region
    simp [M.bind_run, need_run, check]
  | user | super | bad => exact M.bind_error check
/-- The loads and stores with an offset fail alike. -/
theorem access_fails (check : ∀ kind, checkAccess va (sizeBytes sz) kind s = .error (.exc e)) :
    exec (.ld sz d b off req) s = .next (s.deliver e) ∧ exec (.ldn sz d b off req) s = .next (s.deliver e) ∧
      exec (.st sz d b off req) s = .next (s.deliver e) :=
  ⟨load_fails phase va_eq raw true (check .load), load_fails phase va_eq raw false (check .load),
    store_fails phase va_eq raw (check .store)⟩

end

theorem misalignedAccessTraps : Claims.MisalignedAccessTraps := by
  intro s sz d b off req n va phase region misaligned
  have checked : checkRegion s va va = .ok (regionOf va) := by
    obtain user | ⟨o, own⟩ := region
    · exact checkRegion_ok (by simp [user]) (by simp [user])
    · exact checkRegion_ok (by simp [own]) (by simp [own])
  refine access_fails phase rfl (fun win slot o here => ?_) fun kind => checkAccess_misaligned kind checked misaligned
  obtain user | ⟨o', own⟩ := region
  · exact absurd (user.symm.trans here) (by simp)
  · exact (Region.loc.inj (own.symm.trans here)).1.symm

theorem regionChecksComeFirst : Claims.RegionChecksComeFirst := by
  intro s sz d b off req va phase
  have ends {e : Exc} (raw : ∀ win slot o, regionOf va = .loc win slot o → win = 0) (check : checkRegion s va va = .error e) :
      exec (.ld sz d b off req) s = .next (s.deliver e) ∧ exec (.st sz d b off req) s = .next (s.deliver e) := by
    obtain ⟨load, -, store⟩ := access_fails phase rfl raw fun kind => checkAccess_region (n := sizeBytes sz) kind check
    exact ⟨load, store⟩
  exact ⟨fun bad => ends (by simp [bad]) (checkRegion_bad bad),
    fun super below => ends (by simp [super]) (checkRegion_super super below)⟩

/-! ### Atomics whose checks fail -/

section
variable {a : Reg} {e : Exc} (phase : s.csr.ph = false)
include phase

/-- An atomic looks at its address before anything else but the phase. -/
theorem checked_first {x : Access} {f : Word → Place → M Unit} (check : atomicPlace (s.w a) n x s = .error (.exc e)) :
    M.run (barPhase >>= fun _ => readW a >>= fun va => atomicPlace va n x >>= f va) s = .next (s.deliver e) := by
  refine M.run_exc ?_
  rw [M.bind_ok (barPhase_run phase), M.bind_ok (readW_run a s)]
  exact M.bind_error check
theorem amo_fails {op : AmoOp} {cell : Cell} {ord : Ord} {sc : Scope} {d b : Reg} (size : amoSize op cell = n)
    (check : ∀ kind, atomicPlace (s.w a) n kind s = .error (.exc e)) : M.run (amo op cell ord sc d a b) s = .next (s.deliver e) := by
  subst size
  exact checked_first phase (check .store)
theorem waitaddr_fails {b : Reg} (check : ∀ kind, atomicPlace (s.w a) 8 kind s = .error (.exc e)) :
    exec (.waitaddr a b) s = .next (s.deliver e) := by
  refine M.run_exc ?_
  rw [M.bind_ok (barPhase_run phase), M.bind_ok (readW_run a s), M.bind_ok (readW_run b s)]
  exact M.bind_error (check .load)

end

theorem atomicAccessChecks : Claims.AtomicAccessChecks := by
  intro s i n a phase shape va fails
  have ends {e : Exc} (check : ∀ kind, atomicPlace va n kind s = .error (.exc e)) : fails e := by
    obtain ⟨registers, bytes⟩ := keepsValues_deliver s e
    refine ⟨_, ?_, rfl, registers.sameW, bytes⟩
    cases i with
    | amoAdd z | amoAnd z | amoOr z | amoXor z | amoMin z | amoMax z | amoMinn z | amoMaxn z | amoSwap z | amoCas z =>
      obtain ⟨rfl, rfl⟩ := shape
      exact amo_fails phase (by cases z <;> rfl) check
    | amoFadd | amoXadd =>
      obtain ⟨rfl, rfl⟩ := shape
      exact amo_fails phase rfl check
    | lrW | lrD =>
      obtain ⟨rfl, rfl⟩ := shape
      exact checked_first phase (check .load)
    | scW | scD =>
      obtain ⟨rfl, rfl⟩ := shape
      exact checked_first phase (check .store)
    | waitaddr =>
      obtain ⟨rfl, rfl⟩ := shape
      exact waitaddr_fails phase check
    | _ => exact False.elim shape
  refine ⟨fun bad => ends fun kind => atomicPlace_region kind (checkRegion_bad bad),
    fun super below => ends fun kind => atomicPlace_region kind (checkRegion_super super below),
    fun good supervisor misaligned => ends fun kind => atomicPlace_misaligned kind (checkRegion_ok good supervisor) misaligned,
    fun win slot o region aligned h => ends fun kind => atomicPlace_window kind region aligned h⟩

/-- Settles O36: alignment, the region, and the checks of atomics. -/
theorem accessChecks : Obligations.AccessChecks := ⟨misalignedAccessTraps, regionChecksComeFirst, atomicAccessChecks⟩

end

end Sys2Proof.Machine
end

section
/-! SUPPORT. A load of HBM leaves every core as it was, but for the contexts that it wakes (05, Table 5.8; 12, R318, R322 to
R325), and a translation leaves all but the TLBs (16, R420). -/

namespace Sys2Proof.Machine

section
variable (s : State)

theorem onlyWakes_dropLines (q : Nat) (p : Line → Bool) : OnlyWakes s (s.dropLines q p) := onlyWakes_sweepLines ..
theorem onlyWakes_settle (q b pa n : Nat) : OnlyWakes s (s.settle q b pa n) := onlyWakes_sweepLines ..
theorem onlyWakes_settleHome (q pa n : Nat) : OnlyWakes s (s.settleHome q pa n) :=
  (onlyWakes_flushFirst s q _).trans (onlyWakes_settle ..)
theorem onlyWakes_uncLoad (h pa n : Nat) : OnlyWakes s (s.uncLoad h pa n).1 := onlyWakes_recallOwned ..
theorem sameCores_homeRead (h pa n : Nat) : SameCores s (s.homeRead h pa n).1 :=
  sameCores_foldl (fun t a => sameCores_homeFill t h a) _ s
theorem sameCores_dropLeases (q : Nat) (p : Line → Bool) : SameCores s (s.dropLeases q p) :=
  .ite (sameCores_onQuire s q _) (.refl s)
theorem onlyWakes_recallCopies (h : Nat) (keep : Option Nat) (pa n : Nat) : OnlyWakes s (s.recallCopies h keep pa n) := by
  refine (sameCores_recallHost s h pa n).onlyWakes.trans (onlyWakes_foldl (fun t x => .ite (.refl t) ?_) _ _)
  exact (OnlyWakes.ite (onlyWakes_dropLines t x.1 _) (.refl t)).trans (sameCores_dropLeases ..).onlyWakes

/-! ### Instances -/

theorem onlyWakes_installLine (q b : Nat) (r : BindRec) (m : Bool) (base : Nat) (data : List Byte) (bad : List Bool) (own : Bool)
    (lease : Option Lease) : OnlyWakes s (s.installLine q b r m base data bad own lease) := by
  unfold State.installLine
  dsimp only
  split
  · exact ((sameCores_ticked s).trans (sameCores_onQuire _ q _)).onlyWakes
  · exact (onlyWakes_dropLines s q _).trans ((sameCores_ticked _).trans (sameCores_onQuire _ q _)).onlyWakes
theorem onlyWakes_fillLine (q b : Nat) (r : BindRec) (m : Bool) (pa : Nat) (own : Bool) (lease : Option Lease) :
    OnlyWakes s (s.fillLine q b r m pa own lease) :=
  (sameCores_homeRead s 0 _ _).onlyWakes.trans (onlyWakes_installLine ..)
theorem onlyWakes_nearFill (q b : Nat) (r : BindRec) (m : Bool) (pa : Nat) (req : Request) :
    OnlyWakes s (s.nearFill q b r m pa req) := by
  cases req with
  | own => exact (onlyWakes_recallCopies ..).trans (onlyWakes_fillLine ..)
  | si => exact (onlyWakes_recallOwned ..).trans (onlyWakes_fillLine ..)
  | dflt | wt | unc => exact onlyWakes_fillLine ..
theorem onlyWakes_nearLoad (q b : Nat) (r : BindRec) (m : Bool) (pa n : Nat) (req : Request) :
    OnlyWakes s (s.nearLoad q b r m pa n req).1 := by
  have serve (t : State) : OnlyWakes t (match (t.quire q).line b pa with
      | some l => (t.ticked.onQuire q fun x => { x with lines := putLine x.lines { l with used := t.tick } }
                   , (l.data.drop (pa - l.base)).take n)
      | none => t.uncLoad 0 pa n).1 := by
    split
    · dsimp only
      exact ((sameCores_ticked t).trans (sameCores_onQuire _ q _)).onlyWakes
    · exact onlyWakes_uncLoad ..
  unfold State.nearLoad
  split
  · exact ((onlyWakes_flushFirst s q _).trans (onlyWakes_dropLines ..)).trans (onlyWakes_uncLoad ..)
  · split
    · exact (onlyWakes_settle s q b pa n).trans (onlyWakes_uncLoad _ 0 pa n)
    · refine (onlyWakes_settle s q b pa n).trans ?_
      dsimp only
      split
      · exact (OnlyWakes.ite (.refl _) (onlyWakes_nearFill ..)).trans (serve _)
      · exact (onlyWakes_nearFill ..).trans (serve _)

/-! ### Leases, and a load through any binding -/

theorem sameCores_installLease (q b base : Nat) (data : List Byte) (bad : List Bool) (lease : Option Lease) :
    SameCores s (s.installLease q b base data bad lease) := by
  unfold State.installLease
  dsimp only
  exact sameCores_onQuire s q _
theorem onlyWakes_leaseLoad (q b : Nat) (r : BindRec) (pa n : Nat) : OnlyWakes s (s.leaseLoad q b r pa n).1 := by
  unfold State.leaseLoad
  split
  · dsimp only
    exact (sameCores_onQuire s q _).onlyWakes
  · have settled := OnlyWakes.ite (p := b = 0) (onlyWakes_settleHome s q (pa / r.line * r.line) r.line) (.refl s)
    exact settled.trans ((onlyWakes_recallOwned ..).trans ((sameCores_homeRead _ b _ _).trans (sameCores_installLease ..)).onlyWakes)
theorem onlyWakes_hbmLoad (q b pa n : Nat) (req : Request) : OnlyWakes s (s.hbmLoad q b pa n req).1 := by
  unfold State.hbmLoad
  dsimp only
  split
  · refine (OnlyWakes.ite (p := s.homeBinding b pa = 0) (onlyWakes_settleHome s q pa n) (.refl s)).trans ?_
    generalize (if s.homeBinding b pa = 0 then s.settleHome q pa n else s) = t
    split
    · exact onlyWakes_uncLoad ..
    · split
      · split
        · exact onlyWakes_uncLoad ..
        · exact onlyWakes_leaseLoad ..
      · exact (sameCores_homeRead ..).onlyWakes
  · split
    · exact onlyWakes_nearLoad ..
    · exact (onlyWakes_settleHome ..).trans (onlyWakes_uncLoad ..)

end

/-! ### What a context keeps while an access is checked and made -/

/-- The same instruction is in flight, and neither the general registers nor the system registers differ. -/
structure KeepsControl (s t : State) : Prop where
  issue : t.issue = s.issue
  csr : t.csr = s.csr
  registers : KeepsW s t

theorem KeepsControl.refl (s : State) : KeepsControl s s := ⟨rfl, rfl, rfl, rfl, fun _ _ => rfl⟩
theorem KeepsControl.trans {s t u : State} (h : KeepsControl s t) (g : KeepsControl t u) : KeepsControl s u :=
  ⟨g.issue.trans h.issue, g.csr.trans h.csr, h.registers.trans g.registers⟩
theorem OnlyWakes.keepsControl {s t : State} (h : OnlyWakes s t) : KeepsControl s t :=
  ⟨h.issue, by rw [State.csr, h.me]; rfl, h.keepsW⟩

section
variable {s : State}

/-- A translation that is kept differs from the state before in the TLBs. -/
theorem State.keepEntry_eq (s : State) (e : TlbEntry) (va : Word) (fetch : Bool) :
    ∃ i d, s.keepEntry e va fetch = s.onMe fun c => { c with itlb := i, dtlb := d } := by
  have tlbs : ∃ i d, (if fetch then
        if s.me.itlb.any fun x => x.covers va then s.me else { s.me with itlb := tlbInsert 16 s.tick e s.me.itlb }
      else if s.me.dtlb.any fun x => x.covers va then s.me else { s.me with dtlb := tlbInsert 32 s.tick e s.me.dtlb }) =
      { s.me with itlb := i, dtlb := d } := by
    repeat' split
    all_goals exact ⟨_, _, rfl⟩
  obtain ⟨i, d, h⟩ := tlbs
  exact ⟨i, d, congrArg s.setMe h⟩
theorem keepsControl_keepEntry (s : State) (e : TlbEntry) (va : Word) (fetch : Bool) : KeepsControl s (s.keepEntry e va fetch) := by
  obtain ⟨i, d, kept⟩ := s.keepEntry_eq e va fetch
  have registers : KeepsW s (s.onCore s.cur fun c => { c with itlb := i, dtlb := d }) := keepsW_onCore _ _ _ fun _ => rfl
  rw [kept]
  exact ⟨rfl, by rw [State.csr, State.me_onMe]; rfl, registers⟩
theorem keepsControl_keepWalk (s : State) (x : Walked) : KeepsControl s (s.keepWalk x) := ⟨rfl, rfl, keepsW_onQuire s _ _⟩

/-- Where the computation goes on it keeps the registers. -/
def M.Keeps {α : Type} (x : M α) : Prop := ∀ s a u, x s = .ok (a, u) → KeepsControl s u

theorem M.Keeps.bind {α β : Type} {x : M α} {f : α → M β} (hx : x.Keeps) (hf : ∀ a, (f a).Keeps) : (x >>= f).Keeps := by
  intro s b u h
  rw [M.bind_run] at h
  cases run : x s with
  | ok r =>
    rw [run] at h
    exact (hx s r.1 r.2 run).trans (hf r.1 r.2 b u h)
  | error e =>
    rw [run] at h
    cases h
theorem keeps_get : M.Keeps (get : M State) := fun s _ _ h => by
  cases h
  exact .refl s
theorem keeps_liftE {α : Type} (x : Except Exc α) : (liftE x).Keeps := fun s a u h => by
  cases x <;> cases h
  exact .refl s

theorem translate_keeps (va tval : Word) (fetch : Bool) : (translate va tval fetch).Keeps := by
  intro s e u h
  cases hit : tlbLookup s va fetch with
  | some x =>
    simp only [translate, M.bind_run, M.get_run, M.set_run, M.pure_run, hit] at h
    cases h
    exact keepsControl_keepEntry ..
  | none =>
    cases found : walk s va tval with
    | ok x =>
      simp only [translate, M.bind_run, M.get_run, M.set_run, M.pure_run, hit, found] at h
      cases h
      exact (keepsControl_keepWalk s x).trans (keepsControl_keepEntry ..)
    | error x =>
      simp only [translate, M.bind_run, M.get_run, M.throw_run, hit, found] at h
      cases h
theorem checkPart_keeps (r : Region) (va : Word) (n : Nat) (kind : Access) : (checkPart r va n kind).Keeps := by
  cases r with
  | loc win slot off => exact keeps_get.bind fun _ => keeps_liftE _
  | user | super | bad => exact (translate_keeps va va false).bind fun _ => keeps_get.bind fun _ => keeps_liftE _
theorem checkAccess_keeps (va : Word) (n : Nat) (kind : Access) : (checkAccess va n kind).Keeps :=
  keeps_get.bind fun _ => (keeps_liftE _).bind fun r => (keeps_liftE _).bind fun _ => checkPart_keeps r va n kind

end

end Sys2Proof.Machine
end

section
/-! SUPPORT. Packed blocks of the own scratchpad (05, R130, R131), and hints (05, R129). -/

namespace Sys2Proof.Machine

/-! ### Parts of own bytes -/

section
variable {s : State} {o n a k : Nat}

/-- A run inside own bytes is of own bytes, whatever its alignment. -/
theorem OwnBytes.sub {va : Word} {al : Nat} (own : OwnBytes s va n al o) (low : o ≤ a) (high : a + k ≤ o + n) :
    OwnBytes s (localAddr a) k 1 a := by
  obtain ⟨-, inside, -, shares, free, sound⟩ := own
  refine ⟨rfl, by omega, Nat.mod_one a, sharesOwn_sub shares low high, State.owned_sub free low high, ?_⟩
  simp only [State.anyBad, List.any_eq_false, overlaps, Bool.and_eq_true, decide_eq_true_eq] at sound ⊢
  exact fun d hd meets => sound d hd ⟨by omega, by omega⟩

theorem State.ownBytes_add (s : State) (o j k : Nat) : s.ownBytes o (j + k) = s.ownBytes o j ++ s.ownBytes (o + j) k := by
  simp [State.ownBytes, List.range_add, Nat.add_assoc]
end

theorem localAddr_mod {o m : Nat} (small : o < 0x40000) (divides : m ∣ 64) : (localAddr o).toNat % m = o % m := by
  have base : localBase % m = 0 := Nat.mod_eq_zero_of_dvd (Nat.dvd_trans divides (by decide))
  rw [localAddr_toNat small, Nat.add_mod, base, Nat.zero_add, Nat.mod_mod]

/-! ### The parts of a block -/

/-- The bytes of a block before the next 64-byte boundary. -/
def blockCut (o n : Nat) : Nat := min n (64 - o % 64)
/-- The parts of a block of the own scratchpad. -/
def State.blockSpans (s : State) (o n : Nat) : List Span :=
  if blockCut o n = n then [(.spad s.cur o, localAddr o, n)]
  else [(.spad s.cur o, localAddr o, blockCut o n), (.spad s.cur (o + blockCut o n), localAddr (o + blockCut o n), n - blockCut o n)]

theorem blockCut_le (o n : Nat) : blockCut o n ≤ n := min_le_left ..
theorem blockParts_localAddr {o : Nat} (n : Nat) (small : o < 0x40000) : blockParts (localAddr o) n =
    if blockCut o n = n then [(localAddr o, n)] else [(localAddr o, blockCut o n), (localAddr (o + blockCut o n), n - blockCut o n)] := by
  simp only [blockParts, localAddr_mod small (Nat.dvd_refl 64), localAddr_add]
  rfl
/-- A block has a first part, which begins at the block's address. -/
theorem blockParts_first (va : Word) (n : Nat) : ∃ k r, blockParts va n = (va, k) :: r := by
  simp only [blockParts]
  split
  · exact ⟨_, _, rfl⟩
  · exact ⟨_, _, rfl⟩

section
variable {s : State} {o n : Nat}

/-- Each part of an own block passes the checks. -/
theorem checkBlockPart_own {a k : Nat} (kind : Access) (own : OwnBytes s (localAddr o) n 4 o) (low : o ≤ a) (high : a + k ≤ o + n)
    (some : 0 < k) : checkBlockPart (localAddr o) kind (localAddr a, k) s = .ok (.spad s.cur a, s) := by
  have inside := own.2.1
  have first : regionOf (localAddr o) = .loc 0 0 o := regionOf_localAddr (by omega)
  have here : regionOf (localAddr a) = .loc 0 0 a := regionOf_localAddr (by omega)
  have region : checkRegion s (localAddr a) (localAddr a) = .ok (.loc 0 0 a) := by simp [checkRegion, here]
  have before : ¬ a < o := Nat.not_lt.2 low
  have part := checkPart_own (al := 1) kind (own.sub low high)
  by_cases same : localAddr a = localAddr o
  · have start : a = o := by
      have e := congrArg BitVec.toNat same
      rw [localAddr_toNat (by omega), localAddr_toNat (by omega)] at e
      omega
    subst start
    have aligned : checkAlign (localAddr a) 4 (localAddr a) = .ok () :=
      checkAlign_aligned ((localAddr_mod (by omega) (by decide)).trans own.2.2.1)
    simp [checkBlockPart, M.bind_run, region, first, aligned, part]
  · simp [checkBlockPart, M.bind_run, region, first, same, before, part]

/-- An own block is found in its parts. -/
theorem blockPlaces_own (kind : Access) (own : OwnBytes s (localAddr o) n 4 o) (some : 0 < n) :
    blockPlaces (localAddr o) n kind s = .ok (s.blockSpans o n, s) := by
  have inside := own.2.1
  rw [blockPlaces, blockParts_localAddr n (by omega), State.blockSpans]
  by_cases whole : blockCut o n = n
  · have part := checkBlockPart_own kind own (Nat.le_refl o) (Nat.le_refl _) some
    simp [whole, checkBlock, M.bind_run, M.map_run, part]
  · have cut : 0 < blockCut o n ∧ blockCut o n < n := by
      simp only [blockCut] at whole ⊢
      omega
    have left := checkBlockPart_own (a := o) (k := blockCut o n) kind own (by omega) (by omega) (by omega)
    have right := checkBlockPart_own (a := o + blockCut o n) (k := n - blockCut o n) kind own (by omega) (by omega) (by omega)
    simp [whole, checkBlock, M.bind_run, M.map_run, left, right, remoteDev]

/-- The bytes of an own block are read in its parts, which change nothing. -/
theorem loadSpans_block (req : Request) (own : OwnBytes s (localAddr o) n 4 o) :
    loadSpans 0 (s.blockSpans o n) req s = .ok (s.ownBytes o n, s) := by
  by_cases whole : blockCut o n = n
  · rw [State.blockSpans, if_pos whole]
    exact loadAt_own req own
  · have cut := blockCut_le o n
    rw [State.blockSpans, if_neg whole]
    obtain ⟨-, -, -, -, leftFree, leftSound⟩ := own.sub (a := o) (k := blockCut o n) (by omega) (by omega)
    obtain ⟨-, -, -, -, rightFree, rightSound⟩ := own.sub (a := o + blockCut o n) (k := n - blockCut o n) (by omega) (by omega)
    have left := hurts_of_anyBad s.myQuire s.me.sb req leftSound
    have right := hurts_of_anyBad s.myQuire s.me.sb req rightSound
    have bytes : s.ownBytes o n = s.ownBytes o (blockCut o n) ++ s.ownBytes (o + blockCut o n) (n - blockCut o n) := by
      rw [← State.ownBytes_add, Nat.add_sub_cancel' cut]
    simp [loadSpans, M.bind_run, State.untrained, State.readsHome, leftFree, rightFree, left, right,
      State.loadPlace, forward_ownBytes, bytes, M.map_run]

end

end Sys2Proof.Machine
end

section
/-! SUPPORT. The forms that move packed blocks and give hints, from their parts (05, R129 to R131; 01, R11). -/

namespace Sys2Proof.Machine

/-! ### A store in parts -/

/-- The state with a store of the issuing context, in the parts given, behind the others of its core. -/
def State.enqueueParts (s : State) (parts : List StorePart) : State := s.onMe fun c => { c with sb := c.sb ++ [⟨s.ctx, parts⟩] }

section
variable {s : State} {parts : List StorePart}

theorem State.me_enqueueParts (s : State) (parts : List StorePart) :
    (s.enqueueParts parts).me = { s.me with sb := s.me.sb ++ [⟨s.ctx, parts⟩] } := s.me_onMe _
theorem coreEvent_enqueueParts (s : State) (parts : List StorePart) : CoreEvent s (s.enqueueParts parts) s.cur := coreEvent_onMe s _ rfl
theorem State.seen_enqueueParts (s : State) (parts : List StorePart) (q : Place) : (s.enqueueParts parts).seen s.cur q =
    (parts.foldl (fun bs y => y.over q bs) [s.seen s.cur q]).headD 0 := by
  obtain ⟨z, hz⟩ := forward_one s.me.sb q (s.byteAt q)
  have buffer : ((s.enqueueParts parts).core s.cur).sb = s.me.sb ++ [⟨s.ctx, parts⟩] := congrArg Core.sb (s.me_enqueueParts parts)
  have before : s.seen s.cur q = z := congrArg (·.headD 0) hz
  rw [before, State.seen, (coreEvent_enqueueParts s parts).sameBytes q, buffer, forward_append, hz]

/-- Parts that lie over each byte as one run does are stored as that run is. -/
theorem ownStored_parts (hs : s.issue.stay = false) {o : Nat} {va : Word} {req : Request} {bs : List Byte}
    (alike : ∀ q b, parts.foldl (fun bs y => y.over q bs) [b] = (StorePart.mk (.spad s.cur o) va req (storeBytes bs)).over q [b]) :
    OwnStored s (s.enqueueParts parts).advance o bs := by
  obtain ⟨inside, outside, -⟩ := ownStored_enqueue hs o va req bs
  have event := (coreEvent_enqueueParts s parts).trans (coreEvent_advance (s.enqueueParts parts))
  have buffer : (s.enqueueParts parts).advance.me.sb = (s.enqueueParts parts).me.sb := State.sb_advance _
  have seen (q : Place) : (s.enqueueParts parts).advance.seen s.cur q = (s.enqueue (.spad s.cur o) va req bs).advance.seen s.cur q := by
    have kept : (s.enqueue (.spad s.cur o) va req bs).advance.me.sb = (s.enqueue (.spad s.cur o) va req bs).me.sb := State.sb_advance _
    have left := State.seen_congr (n := s.cur) buffer (coreEvent_advance (s.enqueueParts parts)).sameBytes q
    have right := State.seen_congr (n := s.cur) kept (coreEvent_advance (s.enqueue (.spad s.cur o) va req bs)).sameBytes q
    rw [left, right, State.seen_enqueueParts, State.seen_enqueue, alike]
  refine ⟨?_, fun q far => (seen q).trans (outside q far), event.sameBytes, fun r => ?_, wentOn_advance _ _ hs rfl, ?_⟩
  · exact (List.map_congr_left fun i _ => seen _).trans inside
  · exact (State.w_advance _ r).trans (congrArg (fun c : Ctx => c.w[r])
      (s.myCtx_onMe fun c => { c with sb := c.sb ++ [⟨s.ctx, parts⟩] }))
  · have frame : (s.onMe fun c => { c with sb := (s.enqueueParts parts).me.sb }) = s.enqueueParts parts := by
      rw [s.me_enqueueParts]
      rfl
    rw [buffer, frame]
    exact onlyMyCtx_onMyCtx _ _

end

/-- A run in two parts lies over each byte as it does whole. -/
theorem over_split {c o k : Nat} {va va' : Word} {req : Request} {bs : List Byte} (cut : k ≤ bs.length) (q : Place) (b : Byte) :
    [StorePart.mk (.spad c o) va req (storeBytes (bs.take k)), ⟨.spad c (o + k), va', req, storeBytes (bs.drop k)⟩].foldl
        (fun bs y => y.over q bs) [b] = (StorePart.mk (.spad c o) va req (storeBytes bs)).over q [b] := by
  simp only [List.foldl_cons, List.foldl_nil]
  by_cases inside : ∃ i, i < bs.length ∧ q = .spad c (o + i)
  · obtain ⟨i, hi, rfl⟩ := inside
    rw [over_spad_inside b (List.getElem?_eq_getElem hi)]
    by_cases first : i < k
    · have byte : (bs.take k)[i]? = some bs[i] := by rw [List.getElem?_take_of_lt first, List.getElem?_eq_getElem hi]
      rw [over_spad_inside b byte]
      refine over_spad_outside _ fun j _ same => ?_
      injection same
      omega
    · have byte : (bs.drop k)[i - k]? = some bs[i] := by
        rw [List.getElem?_drop, Nat.add_sub_cancel' (Nat.le_of_not_lt first), List.getElem?_eq_getElem hi]
      have behind := over_spad_inside (c := c) (o := o + k) (va := va') (req := req) b byte
      rw [show o + k + (i - k) = o + i by omega] at behind
      rw [over_spad_outside b, behind]
      intro j hj same
      rw [List.length_take] at hj
      injection same
      omega
  · have out (i : Nat) (hi : i < bs.length) : q ≠ .spad c (o + i) := fun same => inside ⟨i, hi, same⟩
    rw [over_spad_outside b out, over_spad_outside b, over_spad_outside b]
    · intro j hj same
      rw [List.length_drop] at hj
      exact out (k + j) (by omega) (by rw [same, Nat.add_assoc])
    · intro j hj
      rw [List.length_take] at hj
      exact out j (by omega)

/-! ### Blocks -/

section
variable {s : State} {f : Block} {d b : Reg} {off : BitVec 11} {req : Request} {o : Nat}

/-- The parts in which a block's bytes are stored. -/
def State.blockStores (s : State) (req : Request) (o : Nat) (bs : List Byte) : List StorePart :=
  (s.blockSpans o bs.length).zipIdx.map fun (x, i) => ⟨x.1, x.2.1, req,
    storeBytes (if i = 0 then bs.take (blockCut o bs.length) else bs.drop (blockCut o bs.length))⟩

theorem blockStores_over (s : State) (req : Request) (o : Nat) (bs : List Byte) (q : Place) (x : Byte) :
    (s.blockStores req o bs).foldl (fun bs y => y.over q bs) [x] =
      (StorePart.mk (.spad s.cur o) (localAddr o) req (storeBytes bs)).over q [x] := by
  by_cases whole : blockCut o bs.length = bs.length
  · simp [State.blockStores, State.blockSpans, whole]
  · rw [← over_split (va' := localAddr (o + blockCut o bs.length)) (blockCut_le o bs.length) q x]
    simp [State.blockStores, State.blockSpans, whole]

theorem blockBytes_pos (f : Block) : 0 < blockBytes f := by cases f <;> decide

section
variable (own : OwnBytes s (s.w b + BitVec.ofInt 64 (off.toInt * blockBytes f)) (blockBytes f) 4 o)
include own

/-- A block of own bytes is loaded into one register, or two. -/
theorem exec_ldpk_own : exec (.ldpk f d b off req) s = .next
    (if blockBytes f ≠ 8 then (s.setW d (BitVec.ofNat 64 (ofBytes ((s.ownBytes o (blockBytes f)).take 8)))).setW (d + 1)
        (BitVec.ofNat 64 (ofBytes ((s.ownBytes o (blockBytes f)).drop 8)))
      else s.setW d (BitVec.ofNat 64 (ofBytes ((s.ownBytes o (blockBytes f)).take 8)))).advance := by
  have address := own.1
  have region : regionOf (localAddr o) = .loc 0 0 o := regionOf_localAddr (own.small (blockBytes_pos f))
  rw [address] at own
  refine M.run_ok ?_
  rw [M.bind_ok (readW_run b s)]
  simp only [address, M.bind_run, phaseAccess_own region, blockPlaces_own .load own (blockBytes_pos f), loadSpans_block req own,
    writeW_run]
  split <;> rfl

/-- A block of own bytes enters the store buffer as one store. -/
theorem exec_stpk_own {bs : List Byte} (length : bs.length = blockBytes f)
    (bytes : bs = (toBytes 8 (s.w d).toNat ++ toBytes 8 (s.w (d + 1)).toNat).take (blockBytes f)) :
    exec (.stpk f d b off req) s = .next (s.enqueueParts (s.blockStores req o bs)).advance := by
  have address := own.1
  have region : regionOf (localAddr o) = .loc 0 0 o := regionOf_localAddr (own.small (blockBytes_pos f))
  rw [address] at own
  refine M.run_ok ?_
  rw [M.bind_ok (readW_run b s)]
  have parts : storeParts (s.blockStores req o bs) s = .ok ((), s.enqueueParts (s.blockStores req o bs)) := by
    by_cases whole : blockCut o bs.length = bs.length
    · simp [State.blockStores, State.blockSpans, whole, storeParts, State.seenWhole, storeAt, State.untrained, M.bind_run,
        State.enqueueParts]
    · simp [State.blockStores, State.blockSpans, whole, storeParts, State.seenWhole, storeAt, State.untrained, M.bind_run,
        State.enqueueParts]
  simp only [address, M.bind_run, phaseAccess_own region, blockPlaces_own .store own (blockBytes_pos f), readW_run, ← bytes]
  refine Eq.trans (congrArg (fun x => storeParts x s) ?_) parts
  rw [State.blockStores, length]
  by_cases whole : blockCut o (blockBytes f) = blockBytes f
  · simp [State.blockSpans, whole]
  · simp [State.blockSpans, whole]

end

/-! ### Blocks at an address that is not aligned to 4 -/

section
variable (phase : s.csr.ph = false) {win slot x : Nat} {va : Word} (va_eq : va = s.w b + BitVec.ofInt 64 (off.toInt * blockBytes f))
  (region : regionOf va = .loc win slot x) (misaligned : va.toNat % 4 ≠ 0)
include region misaligned

theorem blockPlaces_misaligned (n : Nat) (kind : Access) : blockPlaces va n kind s = .error (.exc (.trap 0x03 va)) := by
  obtain ⟨k, r, parts⟩ := blockParts_first va n
  have checked : checkRegion s va va = .ok (.loc win slot x) := region ▸ checkRegion_ok (by simp [region]) (by simp [region])
  simp [blockPlaces, parts, checkBlock, checkBlockPart, M.bind_run, checked, checkAlign_misaligned misaligned]

include phase va_eq

theorem exec_ldpk_misaligned : exec (.ldpk f d b off req) s = .next (s.deliver (.trap 0x03 va)) := by
  refine M.run_exc ((M.bind_ok (readW_run b s)).trans ?_)
  rw [← va_eq, M.bind_ok (phaseAccess_run phase), M.bind_error (blockPlaces_misaligned region misaligned _ .load)]
theorem exec_stpk_misaligned : exec (.stpk f d b off req) s = .next (s.deliver (.trap 0x03 va)) := by
  refine M.run_exc ((M.bind_ok (readW_run b s)).trans ?_)
  rw [← va_eq, M.bind_ok (phaseAccess_run phase), M.bind_error (blockPlaces_misaligned region misaligned _ .store)]

end

/-! ### Hints -/

/-- `pref` ends in a state with the same registers, and in the same state for a local address. -/
theorem exec_pref (phase : s.csr.ph = false) (b : Reg) (off : BitVec 11) : ∃ u, exec (.pref b off) s = .next u.advance ∧
    KeepsControl s u ∧ ∀ win slot x, regionOf (s.w b + off.signExtend 64) = .loc win slot x → u = s := by
  have phased := phaseAccess_run (va := s.w b + off.signExtend 64) phase
  cases region : regionOf (s.w b + off.signExtend 64) with
  | loc | bad => exact ⟨s, M.run_ok (by simp [M.bind_run, phased, region]), .refl s, fun _ _ _ _ => rfl⟩
  | user | super =>
    cases checked : checkAccess (s.w b + off.signExtend 64) 1 .load s with
    | ok r =>
      obtain ⟨p, u⟩ := r
      cases p with
      | hbm pa bd =>
        by_cases held : (s.untrained (.hbm pa bd) ∨ s.owned (.hbm pa bd) 1) ∨ s.hurts s.myQuire [] (.hbm pa bd) 1 .dflt
        · exact ⟨s, M.run_ok (by simp [M.bind_run, phased, region, checked, if_pos held]), .refl s, nofun⟩
        · have kept := (checkAccess_keeps _ _ _ s _ u checked).trans (onlyWakes_hbmLoad u s.myQuire bd pa 1 .dflt).keepsControl
          exact ⟨_, M.run_ok (by simp [M.bind_run, phased, region, checked, if_neg held]), kept, nofun⟩
      | spad | kettle | remote => exact ⟨s, M.run_ok (by simp [M.bind_run, phased, region, checked]), .refl s, nofun⟩
    | error e =>
      cases e with
      | badWalk =>
        have counted : KeepsControl s s.countMalformed := ⟨rfl, rfl, rfl, rfl, fun _ _ => rfl⟩
        exact ⟨_, M.run_ok (by simp [M.bind_run, phased, region, checked]), counted, nofun⟩
      | exc | done => exact ⟨s, M.run_ok (by simp [M.bind_run, phased, region, checked]), .refl s, nofun⟩

/-- `cflush` of an own byte for which no store waits names the kept words of its line. -/
theorem exec_cflush_own {b : Reg} {off : BitVec 11} (own : OwnBytes s (s.w b + off.signExtend 64) 1 1 o)
    (idle : sbTouches s.me.sb (.spad s.cur (o / 64 * 64)) 64 = false) :
    exec (.cflush b off) s = .next (s.onMe fun c => c.nameFetched (.spad s.cur (o / 64 * 64)) 64).advance := by
  have region : regionOf (s.w b + off.signExtend 64) = .loc 0 0 o := own.1 ▸ regionOf_localAddr (own.small Nat.one_pos)
  refine M.run_ok ?_
  rw [M.bind_ok (readW_run b s), M.bind_ok (phaseAccess_own region), M.bind_ok (checkAccess_own .load (by decide) own)]
  simp [M.bind_run, State.lineSpan, lineOf, idle]

theorem overlaps_line {x l : Nat} (low : l ≤ x) (high : x < l + 64) : overlaps x 2 l 64 = true := by
  simp only [overlaps, Bool.and_eq_true, decide_eq_true_eq]
  omega

/-- Naming kept words changes no register and keeps their number; those of the line are named. -/
theorem nameFetched_frame (s : State) (c l : Nat) :
    RegistersSame s (s.onMe fun x => x.nameFetched (.spad c l) 64).advance ∧
    (s.onMe fun x => x.nameFetched (.spad c l) 64).advance.csr = s.csr ∧
    (s.onMe fun x => x.nameFetched (.spad c l) 64).advance.me.fetched = (s.me.nameFetched (.spad c l) 64).fetched := by
  have named : (s.onMe fun x => x.nameFetched (.spad c l) 64).me = s.me.nameFetched (.spad c l) 64 := s.me_onMe _
  generalize event : s.onMe (fun x => x.nameFetched (.spad c l) 64) = t at named ⊢
  have bytes : SameBytes s t := event ▸ (coreEvent_onMe s _ rfl).sameBytes
  have registers : KeepsW s t := event ▸ keepsW_onCore s s.cur (fun x => x.nameFetched (.spad c l) 64) fun _ => rfl
  obtain ⟨w, v, m, acc, same⟩ := registersSame_advance t
  have me : t.advance.me = _ := t.me_onMyCtx _
  refine ⟨⟨fun r => (w r).trans ?_, ?_, ?_, ?_, bytes.trans same⟩, ?_, ?_⟩
  · exact registers.sameW r
  · rw [v, named]; rfl
  · rw [m, named]; rfl
  · rw [acc, named]; rfl
  · rw [State.csr_advance, State.csr, named]; rfl
  · rw [me, named]

theorem named_of_mem {c : Core} {n l x : Nat} {w : Base} {named : Bool} (low : l ≤ x) (high : x < l + 64)
    (kept : (Place.spad n x, w, named) ∈ (c.nameFetched (.spad n l) 64).fetched) : named = true := by
  obtain ⟨⟨q, w', before⟩, -, same⟩ := List.mem_map.1 kept
  obtain ⟨rfl, -, rfl⟩ : q = Place.spad n x ∧ w' = w ∧ _ = named := by simpa using same
  simp [Place.sameMemory, Place.offset, overlaps_line low high]

end

/-- Settles O14: the parts of an own block lie over each byte as the whole run does; the hints only wake contexts and name
kept words. -/
theorem packedBlocksAndHints : Obligations.PackedBlocksAndHints := by
  intro s f d b off req o hs n
  have width : n = blockBytes f := by cases f <;> rfl
  clear_value n
  subst width
  intro va bs h
  have wide : blockBytes f ≠ 8 ↔ f ≠ .c4 := by cases f <;> decide
  refine ⟨fun own pair => ⟨?_, ?_⟩, fun x phase region misaligned =>
    ⟨exec_ldpk_misaligned phase rfl region misaligned, exec_stpk_misaligned phase rfl region misaligned⟩,
    fun phase => ?_, fun own idle => ?_⟩
  · refine ⟨_, exec_ldpk_own own, ?_⟩
    have apart : d + 1 ≠ d := by simp
    by_cases two : blockBytes f ≠ 8
    · rw [if_pos two]
      refine ⟨?_, fun _ => ?_, fun r first second => ?_, wentOn_advance s _ hs rfl,
        ((onlyMyCtx_onMyCtx s _).trans (onlyMyCtx_onMyCtx _ _)).trans (onlyMyCtx_onMyCtx _ _)⟩
      · simp [State.w_setW, apart.symm, bs]
      · simp [bs]
      · simp [State.w_setW, first, second (wide.1 two)]
    · have one : ¬ f ≠ .c4 := fun h => two (wide.2 h)
      rw [if_neg two]
      refine ⟨?_, fun h => absurd h one, fun r first _ => ?_, wentOn_advance s _ hs rfl, onlyMyCtx_setW_advance ..⟩
      · simp [bs]
      · simp [State.w_setW, first]
  · have length : ((toBytes 8 (s.w d).toNat ++ toBytes 8 (s.w (d + 1)).toNat).take (blockBytes f)).length = blockBytes f := by
      cases f <;> simp [toBytes, blockBytes]
    exact ⟨_, exec_stpk_own own length rfl, ownStored_parts hs (blockStores_over s req o _)⟩
  · obtain ⟨u, run, kept, here⟩ := exec_pref phase b off
    refine ⟨_, run, wentOn_advance s u hs kept.issue, fun r => ?_, ?_, fun win slot x region => ?_⟩
    · rw [State.w_advance, kept.registers.sameW]
    · rw [State.csr_advance, kept.csr]
    · rw [here win slot x region]
      exact onlyMyCtx_onMyCtx s _
  · obtain ⟨registers, csr, fetched⟩ := nameFetched_frame s s.cur (o / 64 * 64)
    refine ⟨_, exec_cflush_own own idle, wentOn_advance _ _ hs rfl, registers, csr, ?_, fun x w named kept low high => ?_⟩
    · rw [fetched]
      exact List.length_map _
    · exact named_of_mem low high (fetched ▸ kept)

end Sys2Proof.Machine
end

section
/-! SUPPORT. A device whose quire table lists a quire twice. -/

namespace Sys2Proof.Machine

/-! ### An entry of the quire table behind another of its number -/

/-- A line of the first double of HBM, all of whose bytes the quire has written, with an uncorrectable error. -/
def hurtLine : Line :=
  { binding := 0, base := 0, set := 0, way := 0, data := List.replicate 8 0, written := List.replicate 8 true, bad := [true],
    own := [false], lease := none, leaseOnly := false, filled := 0, used := 0, moved := false }
/-- Core 0 in user mode with a trap handler, where the first page of the user half is the first page of HBM. The quire table lists
quire 0 twice: as at reset, and behind that, where `State.quire` does not look, with the line above. -/
def listedTwice : State :=
  { State.reset with trained := true, quires := [(0, Quire.reset), (0, { Quire.reset with lines := [hurtLine] })] }.onCore 0
    fun c => { c with csr := { c.csr with status := 0, tvec := 0x8000 }, dtlb := [⟨0, 12, 0x1F⟩] }

/-- In every quire that `State.quire` finds there is no line and no forwarded store. -/
theorem listedTwice_no_lines (q : Nat) :
    (listedTwice.quire q).lines = [] ∧ (listedTwice.quire q).slices = [] ∧ (listedTwice.quire q).forwards = [] := by
  by_cases zero : 0 = q
  · exact zero ▸ ⟨rfl, rfl, rfl⟩
  · simp [State.quire, listedTwice, mapGet, Quire.reset, zero, State.onCore, State.setCore]

theorem listedTwice_checked : checkAccess 0 2 .load listedTwice = .ok (.hbm 0 0, listedTwice) := by rfl

theorem listedTwice_traps : exec (.ldn .h 4 1 0 .dflt) listedTwice =
    .next ((listedTwice.noteError (.hbm 0 0) 2).deliver (.trap 0x0E 0)) := by rfl
/-- The context is at the trap handler. -/
theorem listedTwice_handler : ((listedTwice.noteError (.hbm 0 0) 2).deliver (.trap 0x0E 0)).myCtx.pc = 0x8000 := by decide

/-- Refutes O3: its premises speak of the quires as `State.quire` finds them, and `State.badHome` searches the whole quire table, also
an entry behind another of the same number. In `listedTwice` such an entry holds a line with an uncorrectable error, and the load
takes trap 0x0E, where the statement has it go on. The statement's other half, about a store, is not what fails. -/
theorem not_scalarAccessesBehindAHomeBinding : ¬ Obligations.ScalarAccessesBehindAHomeBinding := by
  unfold Obligations.ScalarAccessesBehindAHomeBinding
  intro h
  have address : listedTwice.w 1 + BitVec.ofInt 64 ((0 : BitVec 11).toInt * sizeBytes .h) = 0 := by decide
  obtain ⟨loads, -⟩ := h listedTwice listedTwice .h 4 1 0 .dflt 0 0 rfl rfl (by rw [address]; decide) rfl
  rw [address] at loads
  obtain ⟨t, run, -, -, ⟨goesOn, -⟩, -⟩ := loads listedTwice_checked rfl rfl rfl listedTwice_no_lines rfl (by decide) (by decide)
  rw [listedTwice_traps] at run
  injection run with same
  rw [← same, listedTwice_handler] at goesOn
  exact absurd goesOn (by decide)

end Sys2Proof.Machine
end

section
/-! SUPPORT. The events that a core takes at its boundary (16, R428, R429, Table 16.6). -/

namespace Sys2Proof.Machine

/-! ### A trap between two instructions -/

/-- A trap at a core's boundary, as one change of that core and a report. -/
theorem State.boundaryTrap_core (s : State) (n : Nat) (cause : BitVec 6) (v : Word) :
    (s.boundaryTrap n cause v).core n = ((s.core n).lost 0).takeTrap cause v (s.core n).ctxs[0].pc := by
  have lost : (s.loseResv ⟨n, 0⟩).core n = (s.core n).lost 0 := State.core_loseResv_same s ⟨n, 0⟩
  have pc : ((s.core n).lost 0).ctxs[0].pc = (s.core n).ctxs[0].pc := by
    rw [show ((s.core n).lost 0).ctxs[0] = _ from Core.lost_ctx_same (s.core n) 0]
    rfl
  rw [State.boundaryTrap, State.core_tellStop, State.core_onCore_same, lost, pc]

theorem Core.takeTrap_spad (c : Core) (cause : BitVec 6) (v e : Word) : (c.takeTrap cause v e).spad = c.spad := by
  unfold Core.takeTrap
  split <;> rfl

theorem coreEvent_boundaryTrap (s : State) (n : Nat) (cause : BitVec 6) (v : Word) : CoreEvent s (s.boundaryTrap n cause v) n :=
  ((coreEvent_loseResv s ⟨n, 0⟩).trans (coreEvent_onCore _ n _ (Core.takeTrap_spad ..))).trans (coreEvent_tellStop _ n n)

/-- The core takes the trap of its boundary event once the event no longer stands: the fields that an event stands in are none
of those that the trap saves. -/
theorem boundaryTaken_boundaryTrap {s u : State} {n : Nat} {cause : BitVec 6} {v : Word} (event : CoreEvent s u n)
    (csr : (u.core n).csr = (s.core n).csr) (ctxs : (u.core n).ctxs = (s.core n).ctxs) (vec : (u.core n).v = (s.core n).v)
    (mask : (u.core n).m = (s.core n).m) (acc : (u.core n).acc = (s.core n).acc) (htk : (s.core n).csr.tk = false)
    (htv : (s.core n).csr.tvec ≠ 0) : BoundaryTaken s (u.boundaryTrap n cause v) n cause v := by
  have all : CoreEvent s (u.boundaryTrap n cause v) n := event.trans (coreEvent_boundaryTrap u n cause v)
  let c := (u.core n).lost 0
  have csrC : c.csr = (s.core n).csr := csr
  have taken : (u.boundaryTrap n cause v).core n =
      c.handle ((s.core n).csr.trapped cause v (s.core n).ctxs[0].pc) (s.core n).csr.tvec := by
    rw [State.boundaryTrap_core, Core.takeTrap_taken cause v _ (c := c) (csrC ▸ htk) (csrC ▸ htv), csrC, ctxs]
  have ctx : (c.handle ((s.core n).csr.trapped cause v (s.core n).ctxs[0].pc) (s.core n).csr.tvec).ctxs[0] =
      { c.ctxs[0] with pc := evenPc (s.core n).csr.tvec, waiting := false } := handle_ctx c _ _ rfl
  have w : c.ctxs[0].w = (s.core n).ctxs[0].w := by
    rw [show c.ctxs[0] = _ from Core.lost_ctx_same (u.core n) 0, ← ctxs]
    rfl
  have status : ((s.core n).csr.trapped cause v (s.core n).ctxs[0].pc).status = _ := rfl
  unfold BoundaryTaken
  rw [taken]
  dsimp only
  rw [ctx]
  exact ⟨rfl, Csr.mode_of_status status, Csr.pmode_of_status status, Csr.tk_of_status status, Csr.pe_of_status status,
    Csr.ph_of_status status, rfl, rfl, w, vec, mask, acc, all.sameBytes, all.others⟩

theorem State.boundary_of_tk {s : State} {n : Nat} (h : (s.core n).csr.tk = true) : s.boundary n = none := by
  simp [State.boundary, h]
theorem State.tk_of_boundary {s : State} {n : Nat} {b : Boundary} (first : s.boundary n = some b) : (s.core n).csr.tk = false := by
  by_contra h
  rw [State.boundary_of_tk (Bool.of_not_eq_false h)] at first
  cases first

/-- An event that comes first is taken: what stood for it is dropped, and the core takes its trap. -/
theorem boundaryEvent_taken {s : State} {i : Instr} {b : Boundary} {cause : BitVec 6} {v : Word} (drop : Core → Core)
    (meaning : exec i s = .next (if s.boundary s.turn.core = some b then (s.onCore s.turn.core drop).boundaryTrap s.turn.core cause v else s))
    (kept : ∀ c, (drop c).csr = c.csr ∧ (drop c).ctxs = c.ctxs ∧ (drop c).v = c.v ∧ (drop c).m = c.m ∧ (drop c).acc = c.acc ∧ (drop c).spad = c.spad)
    (first : s.boundary s.turn.core = some b) (htv : (s.core s.turn.core).csr.tvec ≠ 0) :
    ∃ t, exec i s = .next t ∧ BoundaryTaken s t s.turn.core cause v := by
  obtain ⟨csr, ctxs, vec, mask, acc, spad⟩ := kept (s.core s.turn.core)
  have htk := State.tk_of_boundary first
  have same := State.core_onCore_same s s.turn.core drop
  rw [if_pos first] at meaning
  refine ⟨_, meaning, boundaryTaken_boundaryTrap (coreEvent_onCore s _ drop spad) ?_ ?_ ?_ ?_ ?_ htk htv⟩
  all_goals rw [same]; assumption

theorem inboxOverflow_meaning (s : State) : exec .inboxOverflow s =
    .next (if s.boundary s.turn.core = some .inbox then s.boundaryTrap s.turn.core 0x09 17 else s) := rfl

/-- A comparator takes its address: no other core and no byte differs. -/
theorem breakpointSet_frame (s : State) :
    let t := s.onCore s.turn.core fun c => { c with bps := c.bps.set (Fin.ofNat 4 s.turn.index) s.turn.opt }
    (t.core s.turn.core).bps[Fin.ofNat 4 s.turn.index] = s.turn.opt ∧ OtherCoresSame s t s.turn.core ∧ SameBytes s t := by
  intro t
  have event : CoreEvent s t s.turn.core := coreEvent_onCore s _ _ rfl
  refine ⟨?_, event.others, event.sameBytes⟩
  rw [State.core_onCore_same]
  exact Vector.getElem_set_self _

/-- Settles O22: each event drops what stood for it and takes its trap as one change of its core. -/
theorem boundaryEventsTrap : Obligations.BoundaryEventsTrap := by
  intro s n c gives
  refine ⟨fun v r h => ?_, fun cause v h => ?_, fun l h => ?_, fun v r h => ?_, ?_, fun v h => ?_,
    State.boundary_of_tk, _, rfl, breakpointSet_frame s⟩
  · obtain rfl : c.impErr.headD 0 = v := by rw [h]; rfl
    exact boundaryEvent_taken (fun c => { c with impErr := c.impErr.tail }) rfl fun _ => ⟨rfl, rfl, rfl, rfl, rfl, rfl⟩
  · obtain rfl : (c.repFault.getD (0, 0)).1 = cause := by rw [h]; rfl
    obtain rfl : (c.repFault.getD (0, 0)).2 = v := by rw [h]; rfl
    exact boundaryEvent_taken (fun c => { c with repFault := none }) rfl fun _ => ⟨rfl, rfl, rfl, rfl, rfl, rfl⟩
  · obtain rfl : c.overrun.getD 0 = l := by rw [h]; rfl
    exact boundaryEvent_taken (fun c => { c with overrun := none }) rfl fun _ => ⟨rfl, rfl, rfl, rfl, rfl, rfl⟩
  · obtain rfl : c.badHandle.headD 0 = v := by rw [h]; rfl
    exact boundaryEvent_taken (fun c => { c with badHandle := c.badHandle.tail }) rfl fun _ => ⟨rfl, rfl, rfl, rfl, rfl, rfl⟩
  · intro first htv
    have htk := State.tk_of_boundary first
    exact ⟨_, (inboxOverflow_meaning s).trans (congrArg _ (if_pos first)), boundaryTaken_boundaryTrap (.refl s n) rfl rfl rfl rfl rfl htk htv⟩
  · obtain rfl : c.bpHit.getD 0 = v := by rw [h]; rfl
    exact boundaryEvent_taken (fun c => { c with bpHit := none }) rfl fun _ => ⟨rfl, rfl, rfl, rfl, rfl, rfl⟩

end Sys2Proof.Machine
end

section
/-! SUPPORT. Helper contexts: their start, their end and the wait for them (06, R157 to R159). -/

namespace Sys2Proof.Machine

section
variable {s : State}

/-- The other contexts, where one of them is set. -/
theorem ctxs_set_ne (xs : Vector Ctx 11) {k x : Fin 11} (h : k ≠ x) (c : Ctx) : (xs.set x c)[k] = xs[k] :=
  Vector.getElem_set_ne x.isLt k.isLt fun e => h (Fin.ext e.symm)
theorem State.ctx_advance_ne (s : State) {k : Fin 11} (h : k ≠ s.ctx) : s.advance.me.ctxs[k] = s.me.ctxs[k] := by
  have e : s.advance.me = _ := s.me_onMyCtx _
  rw [e]
  exact ctxs_set_ne _ h _
theorem State.ctx_setW_advance_ne (s : State) (d : Reg) (x : Word) {k : Fin 11} (h : k ≠ s.ctx) :
    (s.setW d x).advance.me.ctxs[k] = s.me.ctxs[k] := by
  refine (State.ctx_advance_ne (s.setW d x) h).trans ?_
  rw [State.setW, State.me_onMyCtx]
  exact ctxs_set_ne _ h _

/-- After a change of other contexts of the core a register is written, and the context goes on. -/
theorem setW_frame {u : State} (d : Reg) (x : Word) (hs : s.issue.stay = false) (issue : u.issue = s.issue) (mine : u.myCtx = s.myCtx) :
    let t := (u.setW d x).advance
    t.w d = x ∧ OnlyW s t d ∧ WentOn s t := by
  refine ⟨by simp, fun r hr => ?_, wentOn_advance s _ hs issue⟩
  rw [State.w_advance, State.w_setW, if_neg hr, State.w, mine]
  rfl

/-! ### The start of a helper -/

/-- The context that `hstart` makes of a program counter and a first operand. -/
def State.helper (s : State) (pc x : Word) : Ctx :=
  { Ctx.reset with
    pc := pc, hstat := 1, mode := s.csr.mode
    w := ((Vector.replicate 32 (0 : Word)).set 0 x).set 13 (s.w 13) }
/-- The state in which a helper has started. -/
def State.withHelper (s : State) (h : Fin 11) (k : Ctx) : State := s.onMe fun c => { c with ctxs := c.ctxs.set h k }

theorem State.ctx_withHelper_same (s : State) (h : Fin 11) (k : Ctx) : (s.withHelper h k).me.ctxs[h] = k := by
  simp [State.withHelper]
theorem State.ctx_withHelper_ne (s : State) {h x : Fin 11} (k : Ctx) (ne : x ≠ h) : (s.withHelper h k).me.ctxs[x] = s.me.ctxs[x] := by
  rw [State.withHelper, State.me_onMe]
  exact ctxs_set_ne _ ne _

theorem execHstart_free {d a b : Reg} {h : Fin 11} (ctx : s.ctx = 0) (ph : s.csr.ph = false) (even : (s.w a).getLsbD 0 = false)
    (preempt : s.me.preempt = none) (free : s.me.freeHelper = some h) :
    exec (.hstart d a b) s =
      .next ((s.withHelper h (s.helper (s.w a) (s.w b))).setW d (BitVec.ofNat 64 h.val)).advance := by
  refine M.run_ok ?_
  simp only [M.bind_run, controlOnly_run ctx, barPhase_run ph, readW_run, need_run, even, Bool.not_false, if_true, M.get_run, preempt,
    free, M.set_run, writeW_run]
  rfl
theorem execHstart_full {d a b : Reg} (ctx : s.ctx = 0) (ph : s.csr.ph = false) (even : (s.w a).getLsbD 0 = false)
    (full : s.me.freeHelper = none) : exec (.hstart d a b) s = .next (s.setW d 0).advance := by
  refine M.run_ok ?_
  simp only [M.bind_run, controlOnly_run ctx, barPhase_run ph, readW_run, need_run, even, Bool.not_false, if_true, M.get_run, full]
  cases s.me.preempt <;> rfl

theorem hstart_starts {d a b : Reg} {h : Fin 11} (hs : s.issue.stay = false) (ctx : s.ctx = 0) (ph : s.csr.ph = false)
    (even : (s.w a).getLsbD 0 = false) (preempt : s.me.preempt = none) (free : s.me.freeHelper = some h) (ne : h ≠ 0) :
    ∃ t, exec (.hstart d a b) s = .next t ∧ t.w d = BitVec.ofNat 64 h.val ∧ OnlyW s t d ∧ WentOn s t ∧
      t.me.ctxs[h].pc = s.w a ∧ t.me.ctxs[h].hstat = 1 ∧ t.me.ctxs[h].w[0] = s.w b ∧ t.me.ctxs[h].w[13] = s.w 13 ∧
      ∀ k : Fin 11, k ≠ h → k ≠ 0 → t.me.ctxs[k] = s.me.ctxs[k] := by
  let u := s.withHelper h (s.helper (s.w a) (s.w b))
  have mine : u.myCtx = s.myCtx := s.ctx_withHelper_ne _ fun e => ne (e.symm.trans ctx)
  obtain ⟨value, only, went⟩ := setW_frame d (BitVec.ofNat 64 h.val) hs (u := u) rfl mine
  have others : ∀ k : Fin 11, k ≠ 0 → (u.setW d (BitVec.ofNat 64 h.val)).advance.me.ctxs[k] = u.me.ctxs[k] := fun k hk =>
    u.ctx_setW_advance_ne d _ fun e => hk (e.trans ctx)
  have started := (others h ne).trans (s.ctx_withHelper_same h (s.helper (s.w a) (s.w b)))
  refine ⟨_, execHstart_free ctx ph even preempt free, value, only, went, ?_, ?_, ?_, ?_, fun k hk hk0 => ?_⟩
  · rw [started]; rfl
  · rw [started]; rfl
  · rw [started]; simp [State.helper]
  · rw [started]; simp [State.helper]
  · exact (others k hk0).trans (s.ctx_withHelper_ne _ hk)

/-! ### The end of a helper -/

/-- The issuing core once the issuing helper has ended. -/
def Core.endCleanly (c : Core) (h : Fin 11) : Core :=
  { c with ctxs := c.ctxs.set h { c.ctxs[h] with hstat := 2, waiting := false, resv := none } }

/-- The state in which the issuing helper has ended. -/
def State.endHelper (s : State) : State := ((s.loseResv s.agent).onMe fun c => c.endCleanly s.ctx).tellStop s.cur

theorem execHend_run (ph : s.csr.ph = false) (ctx : s.ctx ≠ 0) : exec .hend s = .next s.endHelper := by
  refine M.run_done ?_
  simp only [M.bind_run, barPhase_run ph, M.get_run, ctx, if_false, M.set_run, finish_run]
  rfl
theorem State.me_endHelper (s : State) : s.endHelper.me = (s.me.lost s.ctx).endCleanly s.ctx := by
  have e : s.endHelper.me = s.endHelper.core s.cur := by rw [State.me, State.endHelper, State.tellStop_cur]; rfl
  rw [e, State.endHelper, State.core_tellStop]
  exact (State.me_onMe _ _).trans (congrArg (fun c => c.endCleanly s.ctx) (State.core_loseResv_same s s.agent))
theorem State.myCtx_endHelper (s : State) : s.endHelper.myCtx =
    { (s.me.lost s.ctx).ctxs[s.ctx] with hstat := 2, waiting := false, resv := none } := by
  have same : s.endHelper.ctx = s.ctx := State.tellStop_ctx ..
  simp only [State.myCtx, State.me_endHelper, same]
  exact Vector.getElem_set_self _
theorem coreEvent_endHelper (s : State) : CoreEvent s s.endHelper s.cur :=
  ((coreEvent_loseResv s s.agent).trans (coreEvent_onMe _ _ rfl)).trans (coreEvent_tellStop _ _ _)

theorem hend_ends (ph : s.csr.ph = false) (ctx : s.ctx ≠ 0) :
    ∃ t, exec .hend s = .next t ∧ t.myCtx.hstat = 2 ∧ t.myCtx.resv = none ∧ RegistersSame s t ∧
      ∀ k : Fin 11, k ≠ s.ctx → t.me.ctxs[k] = s.me.ctxs[k] := by
  refine ⟨_, execHend_run ph ctx, ?_, ?_, ⟨fun r => ?_, ?_, ?_, ?_, (coreEvent_endHelper s).sameBytes⟩, fun k hk => ?_⟩
  · rw [State.myCtx_endHelper]
  · rw [State.myCtx_endHelper]
  · simp only [State.w, State.myCtx_endHelper, lost_w]
  · rw [State.me_endHelper]; rfl
  · rw [State.me_endHelper]; rfl
  · rw [State.me_endHelper]; rfl
  · rw [State.me_endHelper]
    exact (ctxs_set_ne _ hk _).trans (Core.lost_ctx_ne _ hk)

/-! ### The wait for helpers -/

/-- The sum of the powers of two at the places that a predicate marks has exactly these bits. -/
theorem testBit_sum_powers (p : Fin 11 → Bool) (h : Fin 11) :
    ((((List.finRange 11).filter p).map fun k : Fin 11 => 2 ^ k.val).sum).testBit h.val = p h := by
  have sorted : (((List.finRange 11).filter p).map Fin.val).SortedLT :=
    ((List.pairwise_lt_finRange 11).filter p).map Fin.val (fun _ _ => id) |>.sortedLT
  have bits := Nat.bitIndices_sum_map_two_pow sorted
  rw [List.map_map] at bits
  rw [Bool.eq_iff_iff, ← Nat.mem_bitIndices, show (fun k : Fin 11 => 2 ^ k.val) = (fun i => 2 ^ i) ∘ Fin.val from rfl, bits]
  simp [Fin.val_inj]

/-- The state in which the helpers that an operand names are cleared. -/
def State.clearHelpers (s : State) (x : Word) : State :=
  s.onMe fun c => { c with ctxs := Vector.ofFn fun h => if named x h then { c.ctxs[h] with hstat := 0 } else c.ctxs[h] }
/-- The bits of the helpers that an operand names and that have faulted. -/
def State.faultedHelpers (s : State) (x : Word) : Nat :=
  (((List.finRange 11).filter fun h => named x h && s.me.ctxs[h].hstat = 3).map fun h => 2 ^ h.val).sum

theorem named_zero (x : Word) : named x 0 = false := rfl
theorem State.ctx_clearHelpers (s : State) (x : Word) (h : Fin 11) :
    (s.clearHelpers x).me.ctxs[h] = if named x h then { s.me.ctxs[h] with hstat := 0 } else s.me.ctxs[h] := by
  rw [State.clearHelpers, State.me_onMe]
  exact Vector.getElem_ofFn ..
theorem getLsbD_faultedHelpers (s : State) (x : Word) (h : Fin 11) :
    (BitVec.ofNat 64 (s.faultedHelpers x)).getLsbD h.val = (named x h && decide (s.me.ctxs[h].hstat = 3)) := by
  have small : h.val < 64 := by omega
  rw [BitVec.getLsbD_ofNat, State.faultedHelpers, testBit_sum_powers, decide_eq_true small, Bool.true_and]

theorem execHjoin_live {d a : Reg} (ctx : s.ctx = 0) (ph : s.csr.ph = false)
    (live : ∃ h : Fin 11, named (s.w a) h = true ∧ s.me.ctxs[h].hstat = 1) : exec (.hjoin d a) s = .next s.stay.advance := by
  have some : ((List.finRange 11).any fun h => named (s.w a) h && s.me.ctxs[h].hstat = 1) = true := by
    simpa using live
  refine M.run_done ?_
  simp only [M.bind_run, controlOnly_run ctx, barPhase_run ph, readW_run, M.get_run, some, if_true, holdHere_run]
theorem execHjoin_done {d a : Reg} (ctx : s.ctx = 0) (ph : s.csr.ph = false)
    (dead : ∀ h : Fin 11, named (s.w a) h = true → s.me.ctxs[h].hstat ≠ 1) :
    exec (.hjoin d a) s = .next ((s.clearHelpers (s.w a)).setW d (BitVec.ofNat 64 (s.faultedHelpers (s.w a)))).advance := by
  have none : ((List.finRange 11).any fun h => named (s.w a) h && s.me.ctxs[h].hstat = 1) = false := by
    simpa using dead
  refine M.run_ok ?_
  simp only [M.bind_run, controlOnly_run ctx, barPhase_run ph, readW_run, M.get_run, none, Bool.false_eq_true, if_false,
    M.modify_run, writeW_run, State.faultedHelpers, List.sum_eq_foldl]
  rfl

end

/-- Settles O8: each form from the state that it leaves. -/
theorem helperInstructions : Obligations.HelperInstructions := by
  intro s d a b ph hs hr x y
  refine ⟨fun h ctx even preempt free ne => hstart_starts hs ctx ph even preempt free ne,
    fun ctx even full => computes_of hs (execHstart_full ctx ph even full), hend_ends ph,
    fun ctx live => ⟨_, execHjoin_live ctx ph live, ?_, ?_, fun r => by rw [State.w_advance]; rfl⟩, fun ctx dead => ?_⟩
  · rw [State.myCtx_stay_advance]
  · rw [State.myCtx_stay_advance]
  · have mine : (s.clearHelpers x).myCtx = s.myCtx := by
      rw [State.myCtx, State.ctx_clearHelpers]
      exact if_neg (by rw [show (s.clearHelpers x).ctx = 0 from ctx, named_zero]; decide)
    obtain ⟨value, only, went⟩ := setW_frame d (BitVec.ofNat 64 (s.faultedHelpers x)) hs (u := s.clearHelpers x) rfl mine
    refine ⟨_, execHjoin_done ctx ph dead, only, went, fun h ne => ?_, fun h => ?_⟩
    · rw [State.ctx_setW_advance_ne (s.clearHelpers x) d _ fun e => ne (e.trans ctx), State.ctx_clearHelpers]
      split <;> rfl
    · rw [value]
      exact getLsbD_faultedHelpers s x h

end Sys2Proof.Machine
end

section
/-! SUPPORT. What loads, releases and acquires may touch: lines and what is forwarded, HBM, watches and queues of granules
(11, R292, R295; 12, R317 to R325). -/

namespace Sys2Proof.Machine

/-! ### The steps of which such an operation is made -/

/-- A quire without its lines, without what it forwards, and without what dates its fills. -/
def Quire.bare (x : Quire) : Quire := { x with lines := [], slices := [], forwards := [], leases := [], lfsrs := [] }

/-- One change that an operation on memory and lines makes. -/
inductive Touch : State → State → Prop where
  | quire (s : State) (q : Nat) (f : Quire → Quire) (bare : ∀ x, (f x).bare = x.bare)
      (forwards : ∀ x, x.forwards = [] → (f x).forwards = []) : Touch s (s.onQuire q f)
  | hbm (s : State) (pa : Nat) (bs : List StoreByte) : Touch s (s.putHbm pa bs)
  | bad (s : State) (ds : List Nat) : Touch s { s with badHbm := ds }
  | tick (s : State) : Touch s s.ticked
  | link (s : State) (l : Link) : Touch s { s with link := l }
  | watches (s : State) (p : Watch → Bool) : Touch s { s with watches := s.watches.filter p }
  | granules (s : State) (gs : List Granule) (none : s.granules = [] → gs = []) : Touch s { s with granules := gs }
  | wake (s : State) (n : Nat) (x : Fin 11) :
      Touch s (s.onCore n fun c => { c with ctxs := c.ctxs.set x { c.ctxs[x] with woken := true } })

/-- The second state comes from the first by such changes. -/
def Touches : State → State → Prop := Relation.ReflTransGen Touch

theorem Touches.refl (s : State) : Touches s s := Relation.ReflTransGen.refl
theorem Touches.trans {s t u : State} (h : Touches s t) (g : Touches t u) : Touches s u := Relation.ReflTransGen.trans h g
theorem Touch.once {s t : State} (h : Touch s t) : Touches s t := Relation.ReflTransGen.single h
theorem Touches.ite {s t u : State} {p : Prop} [Decidable p] (h : Touches s t) (g : Touches s u) : Touches s (if p then t else u) := by
  split
  · exact h
  · exact g
theorem touches_foldl {α : Type} {f : State → α → State} (h : ∀ t x, Touches t (f t x)) (xs : List α) (s : State) :
    Touches s (xs.foldl f s) := by
  induction xs generalizing s with
  | nil => exact .refl s
  | cons x r ih => exact (h s x).trans (ih _)

/-! ### The operations -/

section
variable (s : State)

theorem touches_onQuire (q : Nat) (f : Quire → Quire) (bare : ∀ x, (f x).bare = x.bare := by intro; rfl)
    (forwards : ∀ x, x.forwards = [] → (f x).forwards = [] := by intro _ h; exact h) : Touches s (s.onQuire q f) :=
  (Touch.quire s q f bare forwards).once
theorem touches_putHbm (pa : Nat) (bs : List StoreByte) : Touches s (s.putHbm pa bs) := (Touch.hbm s pa bs).once
theorem touches_ticked : Touches s s.ticked := (Touch.tick s).once
theorem touches_homeBack (l : Line) : Touches s (s.homeBack l) :=
  .ite ((touches_putHbm ..).trans (Touch.bad _ _).once) (.refl s)
theorem touches_evictHome (q : Nat) (p : Line → Bool) : Touches s (s.evictHome q p) := by
  unfold State.evictHome
  exact (touches_foldl touches_homeBack ((s.quire q).slices.filter p) s).trans (touches_onQuire _ q _)
theorem touches_homeFill (h pa : Nat) : Touches s (s.homeFill h pa) := by
  unfold State.homeFill
  split
  · exact .refl s
  · split
    · exact (touches_ticked s).trans (touches_onQuire _ _ _)
    · exact (touches_evictHome ..).trans ((touches_ticked _).trans (touches_onQuire _ _ _))
theorem touches_homeRead (h pa n : Nat) : Touches s (s.homeRead h pa n).1 :=
  touches_foldl (fun t a => touches_homeFill t h a) _ s
theorem touches_sliceStore (h a pa : Nat) (bs : List StoreByte) (alloc : Bool) : Touches s (s.sliceStore h a pa bs alloc) := by
  unfold State.sliceStore
  split
  · exact touches_putHbm ..
  · rename_i q _ r _ _
    refine (Touches.ite (p := alloc && r.policy = 0) (touches_homeFill s h a) (.refl s)).trans ?_
    generalize (if alloc && r.policy = 0 then s.homeFill h a else s) = t
    dsimp only
    split
    · refine .ite ?_ ?_
      · exact (touches_ticked t).trans ((touches_onQuire _ q _).trans (touches_putHbm ..))
      · exact (touches_ticked t).trans (touches_onQuire _ q _)
    · exact touches_putHbm ..
theorem touches_recallHost (h pa n : Nat) : Touches s (s.recallHost h pa n) := .ite (.refl s) (Touch.link s _).once
theorem touches_hurtHome (h d : Nat) : Touches s (s.hurtHome h d) := by
  unfold State.hurtHome
  split
  · split
    · exact touches_onQuire ..
    · exact (Touch.bad s _).once
  · exact (Touch.bad s _).once
theorem touches_supersede (q pa : Nat) (bs : List StoreByte) : Touches s (s.supersede q pa bs) :=
  .ite (touches_onQuire s q _ (fun _ => rfl) fun x h => by simp [h]) (.refl s)
theorem touches_wakeWatches (hit : Place → Bool) (a : Option Agent) : Touches s (s.wakeWatches hit a) := by
  simp only [State.wakeWatches]
  exact (Touch.watches s _).once.trans (touches_foldl (fun t (w : Watch) => (Touch.wake t w.agent.core w.agent.ctx).once) _ _)
theorem touches_homeStore (h : Nat) (a : Option Agent) (pa : Nat) (bs : List StoreByte) (alloc : Bool) :
    Touches s (s.homeStore h a pa bs alloc) := by
  simp only [State.homeStore]
  exact ((touches_recallHost s h pa _).trans (touches_foldl (fun t _ => touches_sliceStore t ..) _ _)).trans (touches_wakeWatches ..)
theorem touches_writeBack (q : Nat) (l : Line) (p : Nat → Bool) : Touches s (s.writeBack q l p) :=
  .ite (((touches_supersede ..).trans (touches_homeStore ..)).trans (touches_foldl (fun t _ => touches_hurtHome t ..) _ _)) (.refl s)
theorem touches_sweepLines (q : Nat) (p : Line → Bool) (sel : Line → Nat → Bool) (f : Line → Option Line) :
    Touches s (s.sweepLines q p sel f) :=
  .ite (.refl s) ((touches_foldl (fun t _ => touches_writeBack t ..) _ s).trans (touches_onQuire _ q _))
theorem touches_recallOwned (h : Nat) (keep : Option Nat) (pa n : Nat) : Touches s (s.recallOwned h keep pa n) :=
  .ite (.refl s) (touches_foldl (fun t _ => .ite (.refl t) (touches_sweepLines ..)) _ s)
theorem touches_forwardNow (q : Nat) (f : Forward) : Touches s (s.forwardNow q f) :=
  (touches_recallOwned ..).trans (touches_homeStore ..)
theorem touches_leaves (w : Waiter) : Touches s (s.leaves w) :=
  .ite (Touch.granules s _ fun none => by rw [none]; rfl).once (.refl s)
theorem touches_forwarded (q : Nat) : Touches s (s.onQuire q fun x => { x with forwards := x.forwards.tail }) :=
  touches_onQuire s q _ (fun _ => rfl) fun x h => by simp [h]
theorem touches_flushFirst (q n : Nat) : Touches s (s.flushFirst q n) := by
  induction n generalizing s with
  | zero => exact .refl s
  | succ n ih =>
    unfold State.flushFirst
    split
    · exact .refl s
    · rename_i f r listed
      by_cases waits : s.forwardWaits q f = true
      · rw [if_pos waits]
        exact .refl s
      · rw [if_neg waits]
        have shorter : s.onQuire q (fun x => { x with forwards := r }) = s.onQuire q fun x => { x with forwards := x.forwards.tail } := by
          simp only [State.onQuire, listed, List.tail_cons]
        rw [shorter]
        exact (((touches_forwarded s q).trans (touches_forwardNow ..)).trans (touches_leaves ..)).trans (ih _)
theorem touches_cleanQuire (q : Nat) : Touches s (s.cleanQuire q) :=
  (touches_flushFirst s q _).trans (touches_sweepLines ..)
theorem touches_acquireQuire (q : Nat) : Touches s (s.acquireQuire q) := by
  unfold State.acquireQuire
  exact touches_onQuire s q _
theorem touches_acquire (n : Nat) (sc : Scope) : Touches s (s.acquire n sc) := .ite (touches_acquireQuire ..) (.refl s)
theorem touches_uncLoad (h pa n : Nat) : Touches s (s.uncLoad h pa n).1 := touches_recallOwned ..
theorem touches_uncStore (h : Nat) (a : Option Agent) (pa : Nat) (bs : List StoreByte) : Touches s (s.uncStore h a pa bs) :=
  (touches_recallOwned ..).trans (touches_homeStore ..)

end

/-! ### What they leave -/

theorem mem_mapPut {α : Type} {m : List (Nat × α)} {k : Nat} {v : α} {e : Nat × α} (h : e ∈ mapPut m k v) : e = (k, v) ∨ e ∈ m := by
  induction m with
  | nil => exact .inl (List.mem_singleton.1 h)
  | cons x r ih =>
    unfold mapPut at h
    split at h
    · exact (List.mem_cons.1 h).imp id (List.mem_cons_of_mem _)
    · split at h
      · exact List.mem_cons.1 h
      · rcases List.mem_cons.1 h with rfl | h
        · exact .inr List.mem_cons_self
        · exact (ih h).imp id (List.mem_cons_of_mem _)
/-- What is read of a table is the default or stands there. -/
theorem mapGet_listed {α : Type} (m : List (Nat × α)) (k : Nat) (d : α) : mapGet m k d = d ∨ ∃ e ∈ m, e.2 = mapGet m k d := by
  induction m with
  | nil => exact .inl rfl
  | cons x r ih =>
    obtain ⟨j, v⟩ := x
    unfold mapGet
    by_cases hj : j = k
    · rw [if_pos hj]
      exact .inr ⟨(j, v), List.mem_cons_self, rfl⟩
    · rw [if_neg hj]
      exact ih.imp id fun ⟨e, he, h⟩ => ⟨e, List.mem_cons_of_mem _ he, h⟩

/-- Each quire keeps all but lines and what dates them, no copy command is new, nothing is forwarded or waits where
nothing was, and HBM keeps its canonical form. -/
structure Calm (s t : State) : Prop where
  quires : ∀ q, (t.quire q).bare = (s.quire q).bare
  cmds : ∀ e ∈ t.quires, e.2.cmds = [] ∨ ∃ e' ∈ s.quires, e'.2.cmds = e.2.cmds
  forwards : ∀ q, (s.quire q).forwards = [] → (t.quire q).forwards = []
  granules : s.granules = [] → t.granules = []
  watches : s.watches = [] → t.watches = []
  hbm : Memory.wf s.hbm = true → Memory.wf t.hbm = true

theorem calm_of_quires {s t : State} (quires : t.quires = s.quires) (granules : s.granules = [] → t.granules = [])
    (watches : s.watches = [] → t.watches = []) (hbm : Memory.wf s.hbm = true → Memory.wf t.hbm = true) : Calm s t := by
  have same (q : Nat) : t.quire q = s.quire q := by rw [State.quire, quires]; rfl
  exact ⟨fun q => by rw [same], fun e he => .inr ⟨e, quires ▸ he, rfl⟩, fun q => by rw [same]; exact id, granules, watches, hbm⟩
theorem Calm.refl (s : State) : Calm s s := calm_of_quires rfl id id id
theorem Calm.trans {s t u : State} (h : Calm s t) (g : Calm t u) : Calm s u := by
  refine ⟨fun q => (g.quires q).trans (h.quires q), fun e he => ?_, fun q => g.forwards q ∘ h.forwards q, g.granules ∘ h.granules,
    g.watches ∘ h.watches, g.hbm ∘ h.hbm⟩
  rcases g.cmds e he with none | ⟨e', he', same⟩
  · exact .inl none
  · rcases h.cmds e' he' with none | ⟨e'', he'', same'⟩
    · exact .inl (same ▸ none)
    · exact .inr ⟨e'', he'', same'.trans same⟩
theorem Touch.calm {s t : State} (h : Touch s t) : Calm s t := by
  cases h with
  | quire q f bare forwards =>
    refine ⟨fun k => ?_, fun e he => ?_, fun k none => ?_, id, id, id⟩
    · by_cases hk : k = q
      · rw [hk, State.quire_onQuire_same, bare]
      · rw [State.quire_onQuire_ne _ _ _ _ hk]
    · rcases mem_mapPut he with rfl | he
      · have kept : (f (s.quire q)).cmds = (s.quire q).cmds := (congrArg Quire.cmds (bare (s.quire q)) :)
        dsimp only
        rw [kept]
        rcases mapGet_listed s.quires q Quire.reset with reset | ⟨e, he, same⟩
        · exact .inl (congrArg Quire.cmds reset)
        · exact .inr ⟨e, he, congrArg Quire.cmds same⟩
      · exact .inr ⟨e, he, rfl⟩
    · by_cases hk : k = q
      · rw [hk] at none ⊢
        rw [State.quire_onQuire_same]
        exact forwards _ none
      · rwa [State.quire_onQuire_ne _ _ _ _ hk]
  | hbm pa bs => exact calm_of_quires rfl id id fun wf => Memory.merge_wf bs wf pa
  | bad | tick | link | wake => exact calm_of_quires rfl id id id
  | watches p => exact calm_of_quires rfl id (fun none => by simp [none]) id
  | granules gs none => exact calm_of_quires rfl none id id
theorem Touches.calm {s t : State} (h : Touches s t) : Calm s t := by
  induction h with
  | refl => exact .refl s
  | tail _ step ih => exact ih.trans step.calm

section
variable {s t : State}

theorem Calm.qasr (calm : Calm s t) (q : Nat) : (t.quire q).qasr = (s.quire q).qasr := (congrArg Quire.qasr (calm.quires q) :)
theorem Calm.kettles (calm : Calm s t) (q : Nat) : (t.quire q).kettles = (s.quire q).kettles := (congrArg Quire.kettles (calm.quires q) :)
theorem Calm.counters (calm : Calm s t) (q : Nat) : (t.quire q).counters = (s.quire q).counters := (congrArg Quire.counters (calm.quires q) :)
/-- A copy engine owns a line of a scratchpad only where one did. -/
theorem Calm.owned (calm : Calm s t) {c o n : Nat} (free : s.owned (.spad c o) n = false) : t.owned (.spad c o) n = false := by
  have none : (linesOf (.spad c o) n).any (fun l => s.quires.any fun q => q.2.cmds.any fun k => k.owns l) = false :=
    (Bool.or_eq_false_iff.1 free).1
  refine Bool.or_eq_false_iff.2 ⟨?_, rfl⟩
  simp only [List.any_eq_false, Bool.not_eq_true] at none ⊢
  intro l hl e he c hc
  rcases calm.cmds e he with nothing | ⟨e', he', same⟩
  · rw [nothing] at hc
    cases hc
  · exact none l hl e' he' c (same ▸ hc)

end

/-! ### Releases within the device -/

/-- The state after a release that has no store and no peer to wait for. -/
def State.released (s : State) (sc : Scope) : State := if 2 ≤ Scope.rank sc then s.cleanQuire s.myQuire else s

section
variable {s : State}

theorem onlyWakes_released (s : State) (sc : Scope) : OnlyWakes s (s.released sc) := .ite (onlyWakes_cleanQuire ..) (.refl s)
theorem touches_released (s : State) (sc : Scope) : Touches s (s.released sc) := .ite (touches_cleanQuire ..) (.refl s)
theorem release_released {sc : Scope} (below : sc ≠ .sys) (sb : s.me.sb = []) (free : s.forwardsHeld s.myQuire = false) :
    release sc s = .ok ((), s.released sc) := by
  have noHand {u : State} : (sc = .sys && (!u.me.peers.isEmpty || u.myCtx.hand.isSome)) = false := by simp [below]
  refine M.bind_ok (a := []) ?_
  unfold State.released
  by_cases one : 1 ≤ Scope.rank sc
  · by_cases wide : 2 ≤ Scope.rank sc
    · simp only [releaseLost, M.bind_run, one, wide, if_true, drainFirst_empty sb, M.get_run, free, Bool.false_eq_true, if_false,
        M.modify_run, noHand, M.pure_run]
    · simp only [releaseLost, M.bind_run, one, wide, if_true, drainFirst_empty sb, M.get_run, if_false, noHand, Bool.false_eq_true,
        M.pure_run]
  · have narrow : ¬2 ≤ Scope.rank sc := by omega
    simp only [releaseLost, M.bind_run, one, narrow, M.get_run, if_false, noHand, Bool.false_eq_true, M.pure_run]
/-- After a release nothing that the quire forwards is held up, where nothing was. -/
theorem forwardsHeld_released (free : s.forwardsHeld s.myQuire = false) (sc : Scope) :
    (s.released sc).forwardsHeld s.myQuire = false := by
  unfold State.released
  by_cases wide : 2 ≤ Scope.rank sc
  · have flushed : ((s.flush s.myQuire).quire s.myQuire).forwards = [] := by
      simpa [State.forwardsHeld] using free
    have swept : ((s.cleanQuire s.myQuire).quire s.myQuire).forwards = [] :=
      (touches_sweepLines (s.flush s.myQuire) s.myQuire _ _ _).calm.forwards _ flushed
    rw [if_pos wide, State.forwardsHeld, State.flush, swept, List.length_nil, State.flushFirst, swept]
    rfl
  · rwa [if_neg wide]

end

end Sys2Proof.Machine
end

section
/-! SUPPORT. The deque and its publication, and the ends of tasks (06, R139, R140, R142, R143). -/

namespace Sys2Proof.Machine

/-! ### Wakes of idle cores -/

/-- The states differ in nothing but which cores a wake has been sent to. -/
structure Roused (s t : State) : Prop where
  core : ∀ n, t.core n = { s.core n with wake := (t.core n).wake }
  rest : t = { s with cores := t.cores }

theorem Roused.refl (s : State) : Roused s s := ⟨fun _ => rfl, rfl⟩
theorem Roused.trans {s t u : State} (h : Roused s t) (g : Roused t u) : Roused s u := by
  refine ⟨fun n => ?_, ?_⟩
  · have e := g.core n
    rw [h.core n] at e
    exact e
  · have e := g.rest
    rw [h.rest] at e
    exact e
theorem roused_awaken (s : State) (n : Nat) : Roused s (s.onCore n Core.awaken) := by
  refine ⟨fun k => ?_, rfl⟩
  by_cases hk : k = n
  · rw [hk, State.core_onCore_same]; rfl
  · rw [State.core_onCore_ne _ _ _ _ hk]
theorem roused_wakeFirst (s : State) (cs : List Nat) (n : Nat) : Roused s (s.wakeFirst cs n) := by
  induction cs generalizing s n with
  | nil => cases n <;> exact .refl s
  | cons c r ih =>
    cases n with
    | zero => exact .refl s
    | succ n =>
      unfold State.wakeFirst
      split
      · exact (roused_awaken s c).trans (ih ..)
      · exact ih ..

section
variable {s t : State}

theorem Roused.cur (h : Roused s t) : t.cur = s.cur := (congrArg State.cur h.rest :)
theorem Roused.ctx (h : Roused s t) : t.ctx = s.ctx := (congrArg State.ctx h.rest :)
theorem Roused.issue (h : Roused s t) : t.issue = s.issue := (congrArg State.issue h.rest :)
theorem Roused.me (h : Roused s t) : t.me = { s.me with wake := t.me.wake } := by
  rw [State.me, h.cur]
  exact h.core s.cur
theorem Roused.keepsW (h : Roused s t) : KeepsW s t := ⟨h.cur, h.ctx, fun n x => by rw [h.core n]⟩
theorem Roused.beside (h : Roused s t) : Beside s t := by
  have e := h.rest
  unfold Beside State.around
  rw [e]

/-! ### The deque with room in its highest level -/

theorem needRing_run (m : s.me.deque.m = []) (room : s.me.deque.h.length < 64) : needRing s = .ok ((), s) := by
  have core : (s.core s.cur).deque.m = [] := m
  have high : (s.core s.cur).deque.h.length < 64 := room
  have ready : s.readyRing s.cur = .ok s := by simp [State.readyRing, core, high]
  rw [needRing, M.bind_ok (M.get_run s), ready]
  rfl
theorem makeRoom_self {n : Nat} (room : (s.core n).deque.h.length < 64) : s.makeRoom n = some s := if_pos room
/-- The core with an entry behind the tail. -/
def Core.pushedTail (e : DqEntry) (c : Core) : Core := { c with deque := { c.deque with h := c.deque.h ++ [e] } }
theorem pushTail_room {n : Nat} (room : (s.core n).deque.h.length < 64) (e : DqEntry) :
    s.pushTail n e = some (s.onCore n (Core.pushedTail e)) := by
  rw [State.pushTail, makeRoom_self room]
  rfl
theorem pushHead_room {n : Nat} (l : (s.core n).deque.l = []) (m : (s.core n).deque.m = [])
    (room : (s.core n).deque.h.length < 64) (e : DqEntry) : s.pushHead n e = some (s.onCore n fun c => c.pushH e) := by
  simp [State.pushHead, Core.levelSize, Core.level, l, m, room]

/-! ### Publication -/

/-- An entry as a publication by a core leaves it. -/
def State.publishedEntry (s : State) (n : Nat) (e : DqEntry) : DqEntry :=
  if stealScope (s.folioBytes (folioCore e.handle) (folioOff e.handle)) ≠ 3 && !e.pub then
    { e with pub := true, rel := stealRelease (s.pubScope n) }
  else e
/-- The core with its entries published. -/
def Core.publishedBy (f : DqEntry → DqEntry) (c : Core) : Core := { c with deque := { c.deque with h := c.deque.h.map f } }

theorem publishedEntry_handle (s : State) (n : Nat) (e : DqEntry) : (s.publishedEntry n e).handle = e.handle := by
  unfold State.publishedEntry
  split <;> rfl
theorem publishedEntry_pub {n : Nat} {e : DqEntry}
    (stealable : stealScope (s.folioBytes (folioCore e.handle) (folioOff e.handle)) ≠ 3) : (s.publishedEntry n e).pub = true := by
  unfold State.publishedEntry
  cases pub : e.pub with
  | true => simp [pub]
  | false => simp [stealable]
theorem publishedEntry_of_pub {n : Nat} {e : DqEntry} (pub : e.pub = true) : s.publishedEntry n e = e := by
  simp [State.publishedEntry, pub]
theorem published_rouses (s : State) (n : Nat) :
    Roused (s.onCore n (Core.publishedBy (s.publishedEntry n))) (s.published n) := roused_wakeFirst ..

theorem OnlyWakes.folioBytes (wakes : OnlyWakes s t) (c o : Nat) : t.folioBytes c o = s.folioBytes c o := by
  rw [State.folioBytes, wakes.core c]
  rfl
theorem OnlyWakes.publishedEntry (wakes : OnlyWakes s t) (n : Nat) : t.publishedEntry n = s.publishedEntry n := by
  have deque : (t.core n).deque = (s.core n).deque := by rw [wakes.core n]
  funext e
  simp only [State.publishedEntry, State.pubScope, State.unpublished, wakes.folioBytes, deque]

/-- The state after the issuing core has published its entries. -/
def State.publishes (s : State) : State := (s.released (stealRelease (s.pubScope s.cur))).published s.cur

theorem stealRelease_ne_sys (k : Nat) : stealRelease k ≠ .sys := by
  unfold stealRelease
  split <;> decide
theorem publish_run (sb : s.me.sb = []) (free : s.forwardsHeld s.myQuire = false) : publish s = .ok ((), s.publishes) := by
  rw [publish, M.bind_ok (M.get_run s), M.bind_ok (release_released (stealRelease_ne_sys _) sb free), M.modify_run, State.publishes,
    (onlyWakes_released s _).cur]

/-- Of the issuing core publication changes the entries, its contexts' wakes and its own. -/
theorem me_publishes (s : State) : s.publishes.me =
    { s.me with
      ctxs := s.publishes.me.ctxs, wake := s.publishes.me.wake
      deque := { s.me.deque with h := s.me.deque.h.map (s.publishedEntry s.cur) } } := by
  have wakes := onlyWakes_released s (stealRelease (s.pubScope s.cur))
  have rouses := published_rouses (s.released (stealRelease (s.pubScope s.cur))) s.cur
  have cur : s.publishes.cur = s.cur := rouses.cur.trans wakes.cur
  have e : s.publishes.core s.cur = _ := rouses.core s.cur
  rw [State.core_onCore_same, wakes.publishedEntry, wakes.core s.cur] at e
  have ctxs : (s.publishes.core s.cur).ctxs = _ := congrArg Core.ctxs e
  rw [State.me, cur, ctxs]
  exact e
theorem keepsW_publishes (s : State) : KeepsW s s.publishes :=
  ((onlyWakes_released s _).keepsW.trans (keepsW_onCore _ _ _ fun _ => rfl)).trans (published_rouses _ s.cur).keepsW
theorem issue_publishes (s : State) : s.publishes.issue = s.issue :=
  (published_rouses _ s.cur).issue.trans (onlyWakes_released s _).issue
theorem forwardsHeld_publishes (free : s.forwardsHeld s.myQuire = false) : s.publishes.forwardsHeld s.publishes.myQuire = false := by
  have beside : Beside (s.released (stealRelease (s.pubScope s.cur))) s.publishes :=
    Beside.trans (beside_onCore ..) (published_rouses ..).beside
  rw [State.myQuire, (keepsW_publishes s).cur, beside.forwardsHeld]
  exact forwardsHeld_released free _
theorem owned_publishes {c o n : Nat} (free : s.owned (.spad c o) n = false) : s.publishes.owned (.spad c o) n = false := by
  have quires : s.publishes.quires = (s.released (stealRelease (s.pubScope s.cur))).quires :=
    (congrArg State.quires (published_rouses _ s.cur).rest :)
  have kept := (touches_released s (stealRelease (s.pubScope s.cur))).calm.owned free
  unfold State.owned State.filling State.atHome at kept ⊢
  rw [quires]
  exact kept

theorem sharesOwn_congr {c d : Core} (h : d.shares = c.shares) (o n : Nat) : sharesOwn d o n = sharesOwn c o n := by
  unfold sharesOwn
  rw [h]
/-- The issuing core still has its bytes after it has published its entries. -/
theorem OwnBytes.publishes {va : Word} {n al o : Nat} (own : OwnBytes s va n al o) : OwnBytes s.publishes va n al o := by
  obtain ⟨place, fits, aligned, shares, free, sound⟩ := own
  have cur := (keepsW_publishes s).cur
  have bad : (s.publishes.core s.cur).bad = (s.core s.cur).bad := by
    have me : s.publishes.core s.cur = s.publishes.me := by rw [State.me, cur]
    rw [me, me_publishes]
    rfl
  refine ⟨place, fits, aligned, ?_, ?_, ?_⟩
  · have kept : s.publishes.me.shares = s.me.shares := by rw [me_publishes]
    rwa [sharesOwn_congr kept]
  · rw [cur]
    exact owned_publishes free
  · rw [cur, State.anyBad, bad]
    exact sound
theorem ownBytes_publishes (s : State) (o n : Nat) : s.publishes.ownBytes o n = s.ownBytes o n := by
  have cur := (keepsW_publishes s).cur
  have me : s.publishes.core s.cur = s.publishes.me := by rw [State.me, cur]
  have sb : (s.publishes.core s.cur).sb = (s.core s.cur).sb := by rw [me, me_publishes]; rfl
  have spad : (s.publishes.core s.cur).spad = (s.core s.cur).spad := by rw [me, me_publishes]; rfl
  simp only [State.ownBytes, State.seen, State.byteAt, cur, sb, spad]

theorem map_publishedEntry_handles (s : State) (n : Nat) (es : List DqEntry) :
    (es.map (s.publishedEntry n)).map (fun e => e.handle) = es.map fun e => e.handle := by
  simp [publishedEntry_handle]
/-- Every entry that its folio lets be stolen is published. -/
theorem pub_of_mem_publishedEntry {n : Nat} {es : List DqEntry} {e : DqEntry} (listed : e ∈ es.map (s.publishedEntry n))
    (stealable : stealScope (s.folioBytes (folioCore e.handle) (folioOff e.handle)) ≠ 3) : e.pub = true := by
  obtain ⟨x, -, rfl⟩ := List.mem_map.1 listed
  rw [publishedEntry_handle] at stealable
  exact publishedEntry_pub stealable

/-! ### Spawn and publication -/

theorem execSpawn_run {a : Reg} {o : Nat} (ready : CtlReady s 0) (sb : s.me.sb = []) (own : OwnBytes s (s.w a) 64 64 o)
    (tile0 : tileOk (fieldAt (s.ownBytes o 64) 0x20 8) = true) (tile1 : tileOk (fieldAt (s.ownBytes o 64) 0x28 8) = true)
    (kettle : hasV (BitVec.ofNat 32 (fieldAt (s.ownBytes o 64) 0x10 4)) = false
      ∨ kettleOk (BitVec.ofNat 32 (fieldAt (s.ownBytes o 64) 0x10 4)) = true)
    (room : s.me.deque.h.length < 64) (m : s.me.deque.m = []) :
    exec (.spawn a) s =
      .next (s.onMe (Core.pushedTail ⟨folioHandle s.cur o, false, .core, s.ownBytes o 64, false⟩)).advance := by
  obtain ⟨hx, -, -, hp, -⟩ := ready
  have kettleFine : (!hasV (BitVec.ofNat 32 (fieldAt (s.ownBytes o 64) 0x10 4))
      || kettleOk (BitVec.ofNat 32 (fieldAt (s.ownBytes o 64) 0x10 4))) = true := by
    rcases kettle with h | h <;> simp [h]
  have notFull : ¬64 ≤ s.me.deque.h.length := by omega
  refine M.run_ok ?_
  simp only [M.bind_run, controlOnly_run hx, barPhase_run hp, readW_run, localOperand_own (by decide) own (by decide), readOwn_own own,
    List.forIn_cons, List.forIn_nil, need_run, tile0, tile1, kettleFine, if_true, M.pure_run, needRing_run m room, M.get_run,
    makeRoom_self (n := s.cur) room, Option.isNone_some, Bool.false_eq_true, if_false, drainFirst_empty sb, notFull,
    pushTail_room (n := s.cur) room, M.set_run]
  rfl

theorem spawn_pushes {a : Reg} {o : Nat} (ready : CtlReady s 0) (sb : s.me.sb = []) (own : OwnBytes s (s.w a) 64 64 o)
    (tile0 : tileOk (fieldAt (s.ownBytes o 64) 0x20 8) = true) (tile1 : tileOk (fieldAt (s.ownBytes o 64) 0x28 8) = true)
    (kettle : hasV (BitVec.ofNat 32 (fieldAt (s.ownBytes o 64) 0x10 4)) = false
      ∨ kettleOk (BitVec.ofNat 32 (fieldAt (s.ownBytes o 64) 0x10 4)) = true)
    (room : s.me.deque.h.length < 64) (m : s.me.deque.m = []) :
    ∃ t, exec (.spawn a) s = .next t ∧ WentOn s t ∧ RegistersSame s t ∧
      t.me.deque = { s.me.deque with h := s.me.deque.h ++ [⟨folioHandle s.cur o, false, .core, s.ownBytes o 64, false⟩] } := by
  let e : DqEntry := ⟨folioHandle s.cur o, false, .core, s.ownBytes o 64, false⟩
  have me : (s.onMe (Core.pushedTail e)).advance.me = _ := State.me_advance _
  rw [State.me_onMe] at me
  have bytes : SameBytes s (s.onMe (Core.pushedTail e)).advance :=
    ((coreEvent_onMe s _ rfl).trans (coreEvent_advance _)).sameBytes
  refine ⟨_, execSpawn_run ready sb own tile0 tile1 kettle room m, wentOn_advance _ _ ready.2.2.1 rfl,
    ⟨fun r => ?_, ?_, ?_, ?_, bytes⟩, ?_⟩
  · rw [State.w_advance, State.w_onMe rfl]
  all_goals rw [me]; rfl

theorem pubf_publishes (ready : CtlReady s 0) (sb : s.me.sb = []) (free : s.forwardsHeld s.myQuire = false) :
    exec .pubf s = .next s.publishes.advance := by
  obtain ⟨hx, -, -, hp, -⟩ := ready
  refine M.run_ok ?_
  simp only [M.bind_run, controlOnly_run hx, barPhase_run hp, publish_run sb free]

/-! ### The end of a task -/

theorem leaveTask_idle (s : State) : (s.leaveTask s.cur).me = s.me.idled := leaveTask_same s s.cur
/-- The task has ended, and no general register has changed. -/
def TaskEnded (s t : State) : Prop := t.me.run = .seeking ∧ t.me.hold = [] ∧ t.myCtx.resv = none ∧ SameW s t
theorem taskEnded_leaveTask (keeps : KeepsW s t) (hx : s.ctx = 0) : TaskEnded s (t.leaveTask t.cur) := by
  obtain ⟨run, resv⟩ := leaveTask_ended (keeps.ctx.trans hx)
  exact ⟨run, by rw [leaveTask_idle]; rfl, resv, (keeps.trans (keepsW_leaveTask ..)).sameW⟩
theorem coreEvent_leaveTask (s : State) (n : Nat) : CoreEvent s (s.leaveTask n) n :=
  (coreEvent_loseResv s ⟨n, 0⟩).trans (coreEvent_onCore _ n _ rfl)

theorem releaseHolds_none (none : s.me.hold = []) : releaseHolds s = .ok ((), s) := by
  rw [releaseHolds, M.bind_ok (M.get_run s), none]
  rfl
theorem runningKet_none (own : OwnBytes s (localAddr (s.me.folio + 0x10)) 4 1 (s.me.folio + 0x10))
    (invalid : hasV (BitVec.ofNat 32 (ofBytes (s.ownBytes (s.me.folio + 0x10) 4))) = false) : runningKet s = .ok (none, s) := by
  simp only [runningKet, M.bind_run, M.get_run, readOwn_own own, invalid, Bool.not_false, if_true, M.pure_run]
theorem runningKet_some (own : OwnBytes s (localAddr (s.me.folio + 0x10)) 4 1 (s.me.folio + 0x10))
    (valid : hasV (BitVec.ofNat 32 (ofBytes (s.ownBytes (s.me.folio + 0x10) 4))) = true)
    (ok : kettleOk (BitVec.ofNat 32 (ofBytes (s.ownBytes (s.me.folio + 0x10) 4))) = true) :
    runningKet s = .ok (some (BitVec.ofNat 32 (ofBytes (s.ownBytes (s.me.folio + 0x10) 4))), s) := by
  simp only [runningKet, M.bind_run, M.get_run, readOwn_own own, valid, ok, Bool.not_true, Bool.false_eq_true, if_false, if_true, M.pure_run]

/-- With nothing of the core on its way `tend` ends the task behind the decrement of its kettle. -/
theorem execTend_run (ready : CtlReady s 0) (pending : NothingPending s) {ket : Option W32} {d : State}
    (running : runningKet s = .ok (ket, s)) (decrement : endDecrement ket .taskEnd (s.setMe s.me) = .ok ((), d)) :
    exec .tend s = .next (d.leaveTask d.cur) := by
  obtain ⟨hx, -, -, hp, -⟩ := ready
  obtain ⟨-, deque, hold, -⟩ := pending
  have holdP : (s.setMe s.me).me.hold = [] := by rw [State.me_setMe, hold]
  refine M.run_done ?_
  simp only [M.bind_run, controlOnly_run hx, barPhase_run hp, running, publish_empty (by rw [deque] : s.me.deque.h = []),
    releaseHolds_none holdP, decrement, endTask, M.modify_run, finish_run]

theorem tend_ends (ready : CtlReady s 0) (pending : NothingPending s)
    (own : OwnBytes s (localAddr (s.me.folio + 0x10)) 4 1 (s.me.folio + 0x10))
    (invalid : hasV (BitVec.ofNat 32 (ofBytes (s.ownBytes (s.me.folio + 0x10) 4))) = false) :
    ∃ t, exec .tend s = .next t ∧ TaskEnded s t ∧ RegistersSame s t ∧ OtherCoresSame s t s.cur := by
  have ended := taskEnded_leaveTask (onlyWakes_setMe s).keepsW ready.1
  have event : CoreEvent s ((s.setMe s.me).leaveTask s.cur) s.cur :=
    (coreEvent_onMe s (fun _ => s.me) rfl).trans (coreEvent_leaveTask _ _)
  have me : ((s.setMe s.me).leaveTask (s.setMe s.me).cur).me = s.me.idled :=
    (leaveTask_idle _).trans (congrArg Core.idled (State.me_setMe ..))
  refine ⟨_, execTend_run ready pending (runningKet_none own invalid) rfl, ended, ⟨ended.2.2.2, ?_, ?_, ?_, event.sameBytes⟩, event.others⟩
  all_goals rw [me]; rfl

/-! ### The decrement at a task's end -/

theorem keepsW_kettleEr (s : State) (h : W32) : KeepsW s (s.kettleEr h) := ⟨rfl, rfl, fun _ _ => rfl⟩

section
variable {h : W32}

/-- Firing keeps the general registers, wherever its continuation goes. -/
theorem fire_keepsW (s : State) (h : W32) (k : List Byte) (n : Nat) (by' : DecBy) (widest : Scope) (holds : List (Nat × Nat)) :
    KeepsW s (s.fire h k n by' widest holds) := by
  have aux : KeepsW s (s.setKettleAux h ⟨some widest, []⟩) := keepsW_onQuire ..
  unfold State.fire
  dsimp only
  split
  · exact aux.trans (keepsW_kettleEr ..)
  · split
    · exact aux
    · split
      · exact aux.trans (keepsW_placeNext ..)
      · exact aux.trans (keepsW_placeReady ..)
theorem kCount_kettleEr (wf : Memory.wf (s.quire (kettleQuire h)).kettles = true) :
    kCount ((s.kettleEr h).kettleBytes h) = kCount (s.kettleBytes h) := kCount_putState wf _
theorem setKettleAux_kettles (a : KettleAux) : ((s.setKettleAux h a).quire (kettleQuire h)).kettles = (s.quire (kettleQuire h)).kettles := by
  rw [State.setKettleAux, State.quire_onQuire_same]
/-- Firing leaves the count. -/
theorem kCount_fire (wf : Memory.wf (s.quire (kettleQuire h)).kettles = true) (k : List Byte) (n : Nat) (by' : DecBy) (widest : Scope)
    (holds : List (Nat × Nat)) : kCount ((s.fire h k n by' widest holds).kettleBytes h) = kCount (s.kettleBytes h) := by
  have aux := congrArg kCount (kettleBytes_setKettleAux (s := s) (h := h) ⟨some widest, []⟩)
  unfold State.fire
  dsimp only
  split
  · rw [kCount_kettleEr (by rwa [setKettleAux_kettles]), aux]
  · split
    · exact aux
    · split
      · rw [placeNext_rest]
        exact aux
      · exact aux

/-- One decrement of an armed kettle lowers its count by one, whether or not the kettle fires. -/
theorem decrement_counts (good : Armed s h) (wf : Memory.wf (s.quire (kettleQuire h)).kettles = true)
    (some : 1 ≤ kCount (s.kettleBytes h)) (n : Nat) (by' : DecBy) (rel : Scope) :
    KeepsW s (s.decrement h n by' rel []).1 ∧ kCount ((s.decrement h n by' rel []).1.kettleBytes h) + 1 = kCount (s.kettleBytes h) := by
  by_cases more : 2 ≤ kCount (s.kettleBytes h)
  · rw [decrement_lowers good more]
    exact ⟨keepsW_lowered .., kCount_lowered wf some rel⟩
  · have one : kCount (s.kettleBytes h) = 1 := by omega
    have wfSpent : Memory.wf ((s.spent h).quire (kettleQuire h)).kettles = true := kettlePut_wf (kettlePut_wf wf ..) ..
    rw [decrement_spends good one]
    refine ⟨(keepsW_spent s h).trans (fire_keepsW ..), ?_⟩
    rw [kCount_fire wfSpent, (fired_spent wf).1, one]

theorem endDecrement_run (pending : NothingPending s) (free : s.forwardsHeld s.myQuire = false) (h : W32) (by' : DecBy) :
    ∃ v sc, OnlyWakes s v ∧ endDecrement (some h) by' s = .ok ((), (v.decrement h v.cur by' sc []).1) := by
  obtain ⟨sb, -, -, peers, hand, -, kops⟩ := pending
  obtain ⟨v, released, wakes⟩ := releaseLost_run (sc := s.decScope h s.cur []) (fun _ => ⟨peers, hand⟩) sb free
  have release : release (s.decScope h s.cur []) s = .ok ((), v) := M.bind_ok released
  refine ⟨v, s.decScope h s.cur [], wakes, ?_⟩
  simp only [endDecrement, M.bind_run, flushKettle_run kops, M.get_run, release, M.modify_run]

theorem tend_decrements (ready : CtlReady s 0) (pending : NothingPending s) (free : s.forwardsHeld s.myQuire = false)
    (running : runningKet s = .ok (some h, s)) (wf : s.memWf) (good : Armed s h) (some : 1 ≤ kCount (s.kettleBytes h)) :
    ∃ t, exec .tend s = .next t ∧ TaskEnded s t ∧ kCount (t.kettleBytes h) + 1 = kCount (s.kettleBytes h) := by
  have kept := onlyWakes_setMe s
  have me : (s.setMe s.me).me = s.me := State.me_setMe ..
  have pendingP : NothingPending (s.setMe s.me) := by
    unfold NothingPending
    rw [kept.myCtx, me]
    exact pending
  have beside : Beside s (s.setMe s.me) := rfl
  have freeP : (s.setMe s.me).forwardsHeld (s.setMe s.me).myQuire = false := (beside.forwardsHeld _).trans free
  obtain ⟨v, sc, clean, decrement⟩ := endDecrement_run pendingP freeP h .taskEnd
  have wakes := kept.trans clean
  have same : SameStores s v := wakes.store
  have someV := some
  rw [← same.kettleBytes] at someV
  obtain ⟨keeps, count⟩ := decrement_counts (good.of_same same) (wakes.wf wf _) someV v.cur .taskEnd sc
  refine ⟨_, execTend_run ready pending running decrement, taskEnded_leaveTask (wakes.keepsW.trans keeps) ready.1, ?_⟩
  rw [leaveTask_kettleBytes, count, same.kettleBytes]

end

/-! ### Yield -/

/-- The state when `yield` comes to push its folio: the entries published, and a second release behind them. -/
def State.yielding (s : State) (sc : Scope) : State := s.publishes.released sc

theorem me_yielding (s : State) (sc : Scope) : (s.yielding sc).me =
    { s.me with
      ctxs := (s.yielding sc).me.ctxs, wake := (s.yielding sc).me.wake
      deque := { s.me.deque with h := s.me.deque.h.map (s.publishedEntry s.cur) } } := by
  have e := (onlyWakes_released s.publishes sc).me
  rw [me_publishes s] at e
  have wake := congrArg Core.wake e
  rw [State.yielding, wake]
  exact e

theorem cur_yielding (s : State) (sc : Scope) : (s.yielding sc).cur = s.cur :=
  (onlyWakes_released s.publishes sc).cur.trans (keepsW_publishes s).cur
theorem pushHead_yielding (sc : Scope) (l : s.me.deque.l = []) (m : s.me.deque.m = []) (room : s.me.deque.h.length < 64) (e : DqEntry) :
    (s.yielding sc).pushHead s.cur e = some ((s.yielding sc).onCore s.cur fun c => c.pushH e) := by
  have me : (s.yielding sc).core s.cur = (s.yielding sc).me := by rw [State.me, cur_yielding]
  refine pushHead_room ?_ ?_ ?_ e
  · rw [me, me_yielding]; exact l
  · rw [me, me_yielding]; exact m
  · rw [me, me_yielding]; simpa using room

/-- The entry that `yield` pushes. -/
def State.yieldEntry (s : State) : DqEntry :=
  ⟨folioHandle s.cur s.me.folio, true, stealRelease (stealScope (s.ownBytes s.me.folio 64)), [], false⟩
/-- The state when `yield` ends its task: the entry stands before the head, and a core may have been woken. -/
def State.yielded (s : State) : State :=
  let k := stealScope (s.ownBytes s.me.folio 64)
  ((s.yielding (stealRelease k)).onCore s.cur fun c => c.pushH s.yieldEntry).wakeFirst (wakeOrder s.cur k) (if k = 3 then 0 else 1)

theorem execYield_run (ready : CtlReady s 0) (sb : s.me.sb = []) (free : s.forwardsHeld s.myQuire = false) (hold : s.me.hold = [])
    (own : OwnBytes s (localAddr s.me.folio) 64 64 s.me.folio) (below : s.me.folio < popFolio) (room : s.me.deque.h.length < 64)
    (l : s.me.deque.l = []) (m : s.me.deque.m = []) : exec .yield s = .next (s.yielded.leaveTask s.yielded.cur) := by
  obtain ⟨hx, -, -, hp, -⟩ := ready
  have deque : s.publishes.me.deque = { s.me.deque with h := s.me.deque.h.map (s.publishedEntry s.cur) } := by rw [me_publishes]
  have holdP : s.publishes.me.hold = [] := by rw [me_publishes]; exact hold
  have sbP : s.publishes.me.sb = [] := by rw [me_publishes]; exact sb
  have released : release (stealRelease (stealScope (s.ownBytes s.me.folio 64))) s.publishes = .ok ((), s.yielding _) :=
    release_released (stealRelease_ne_sys _) sbP (forwardsHeld_publishes free)
  have readP : readOwn s.me.folio 64 s.publishes = .ok (s.ownBytes s.me.folio 64, s.publishes) := by
    rw [readOwn_own own.publishes, ownBytes_publishes]
  have pushed := pushHead_yielding (stealRelease (stealScope (s.ownBytes s.me.folio 64))) l m room s.yieldEntry
  rw [State.yieldEntry] at pushed
  refine M.run_done ?_
  simp only [M.bind_run, controlOnly_run hx, barPhase_run hp, M.get_run, need_run, below, decide_true, if_true, needRing_run m room,
    pushHead_room (n := s.cur) l m room, Option.isNone_some, Bool.false_eq_true, if_false, publish_run sb free,
    releaseHolds_none holdP, readP, released, pushed, M.set_run, endTask, M.modify_run, finish_run]
  rfl

theorem keepsW_pushH (s : State) (n : Nat) (e : DqEntry) : KeepsW s (s.onCore n fun c => c.pushH e) :=
  keepsW_onCore _ _ _ fun _ => rfl
theorem Core.idled_deque (c : Core) : c.idled.deque = c.deque := rfl

theorem me_pushed_yielding (sc : Scope) (e : DqEntry) :
    ((s.yielding sc).onCore s.cur fun c => c.pushH e).me = (s.yielding sc).me.pushH e := by
  rw [State.me, State.onCore_cur, cur_yielding, State.core_onCore_same, State.me, cur_yielding]
theorem yielded_frame (s : State) : KeepsW s s.yielded ∧
    s.yielded.me.deque = { s.me.deque with h := s.yieldEntry :: s.me.deque.h.map (s.publishedEntry s.cur) } := by
  unfold State.yielded
  dsimp only
  generalize stealRelease (stealScope (s.ownBytes s.me.folio 64)) = sc
  have keeps : KeepsW s (s.yielding sc) := (keepsW_publishes s).trans (onlyWakes_released s.publishes _).keepsW
  have me := me_pushed_yielding (s := s) sc s.yieldEntry
  have pushed := keeps.trans (keepsW_pushH (s.yielding sc) s.cur s.yieldEntry)
  generalize (s.yielding sc).onCore s.cur (fun c => c.pushH s.yieldEntry) = v at me pushed
  have rouses := roused_wakeFirst v (wakeOrder s.cur (stealScope (s.ownBytes s.me.folio 64)))
    (if stealScope (s.ownBytes s.me.folio 64) = 3 then 0 else 1)
  refine ⟨pushed.trans rouses.keepsW, ?_⟩
  rw [rouses.me]
  show v.me.deque = _
  rw [me, Core.pushH, me_yielding]
theorem yield_ends (ready : CtlReady s 0) (sb : s.me.sb = []) (free : s.forwardsHeld s.myQuire = false) (hold : s.me.hold = [])
    (own : OwnBytes s (localAddr s.me.folio) 64 64 s.me.folio) (below : s.me.folio < popFolio) (room : s.me.deque.h.length < 64)
    (l : s.me.deque.l = []) (m : s.me.deque.m = []) : ∃ t, exec .yield s = .next t ∧ TaskEnded s t ∧
      t.me.deque = { s.me.deque with h := s.yieldEntry :: s.me.deque.h.map (s.publishedEntry s.cur) } := by
  obtain ⟨keeps, deque⟩ := yielded_frame s
  refine ⟨_, execYield_run ready sb free hold own below room l m, taskEnded_leaveTask keeps ready.1, ?_⟩
  rw [leaveTask_idle, Core.idled_deque, deque]

end

/-- Settles O6: each form from the state that it leaves; a publication changes entries and wakes at most. -/
theorem spawnPublishYieldAndEnd : Obligations.SpawnPublishYieldAndEnd := by
  intro s a o ready run sb peers free f named k open' ended
  refine ⟨fun own tile0 tile1 kettle room m => spawn_pushes ready sb own tile0 tile1 kettle room m, ?_,
    fun pending own invalid => tend_ends ready pending own invalid, ?_, ?_⟩
  · have me : s.publishes.advance.me.deque = { s.me.deque with h := s.me.deque.h.map (s.publishedEntry s.cur) } := by
      rw [State.me_advance, me_publishes]
    refine ⟨_, pubf_publishes ready sb free, wentOn_advance _ _ ready.2.2.1 (issue_publishes s), fun r => ?_, ?_, fun e listed stealable => ?_⟩
    · rw [State.w_advance]
      exact (keepsW_publishes s).sameW r
    · rw [me]
      exact map_publishedEntry_handles ..
    · rw [me] at listed
      exact pub_of_mem_publishedEntry listed stealable
  · intro pending own wf valid ok sound armed holds some
    exact tend_decrements ready pending free (runningKet_some own valid ok) wf ⟨sound, armed, holds⟩ some
  · intro hold own below room l m
    obtain ⟨t, run, ends, deque⟩ := yield_ends ready sb free hold own below room l m
    refine ⟨t, _, run, ends, deque, map_publishedEntry_handles .., fun e => pub_of_mem_publishedEntry, fun all => ?_⟩
    exact (List.map_congr_left fun e he => publishedEntry_of_pub (all e he)).trans (List.map_id _)

end Sys2Proof.Machine
end

section
/-! SUPPORT. The search order of cores names each once (06, R145; 13, Table 13.4). -/

namespace Sys2Proof.Machine

theorem otherDies_nodup (q : Nat) : (otherDies q).Nodup :=
  List.Nodup.map (Nat.xor_right_injective (x := quireDie q)) (by decide)
theorem quireDie_notMem_otherDies (q : Nat) : quireDie q ∉ otherDies q := by
  intro h
  obtain ⟨k, hk, e⟩ := List.mem_map.1 h
  have zero : k = 0 := Nat.xor_right_injective (x := quireDie q) (e.trans (Nat.xor_zero _).symm)
  rw [zero] at hk
  exact absurd hk (by decide)

theorem mem_dieOrder {q r : Nat} (h : r ∈ dieOrder q) : r ≠ q ∧ r / 48 = quireDie q := by
  obtain ⟨d, -, h⟩ := List.mem_flatMap.1 h
  obtain ⟨i, hi, e⟩ := List.mem_filterMap.1 h
  dsimp only at e
  split at e
  · rename_i chosen
    cases e
    have small := List.mem_range.1 hi
    simp only [Bool.and_eq_true, decide_eq_true_eq] at chosen
    exact ⟨chosen.1, by omega⟩
  · cases e
theorem dieOrder_nodup (q : Nat) : (dieOrder q).Nodup := by
  refine List.nodup_flatMap.2 ⟨fun d _ => ?_, ?_⟩
  · refine List.Nodup.filterMap (fun i j r hi hj => ?_) List.nodup_range
    dsimp only at hi hj
    split at hi
    · split at hj
      · have atI := Option.some.inj hi
        have atJ := Option.some.inj hj
        omega
      · cases hj
    · cases hi
  · refine List.Pairwise.imp (fun {d e} ne => ?_) (List.nodup_range (n := 8))
    refine List.disjoint_left.2 fun r hr hr' => ?_
    obtain ⟨i, -, hi⟩ := List.mem_filterMap.1 hr
    obtain ⟨j, -, hj⟩ := List.mem_filterMap.1 hr'
    dsimp only at hi hj
    split at hi
    · split at hj
      · rename_i atD atE
        rw [Option.some.inj hi] at atD
        rw [Option.some.inj hj] at atE
        simp only [Bool.and_eq_true, decide_eq_true_eq] at atD atE
        exact ne (atD.2.symm.trans atE.2)
      · cases hj
    · cases hi

/-- The quires of a die, in their order. -/
theorem mem_dieList {d r : Nat} (h : r ∈ (List.range 48).map fun i => d * 48 + i) : r / 48 = d := by
  obtain ⟨i, hi, rfl⟩ := List.mem_map.1 h
  have small := List.mem_range.1 hi
  omega
theorem dieList_nodup (d : Nat) : ((List.range 48).map fun i => d * 48 + i).Nodup :=
  List.Nodup.map (fun i j (e : d * 48 + i = d * 48 + j) => by omega) List.nodup_range

theorem quireOrder_nodup (q : Nat) : (quireOrder q).Nodup := by
  have others : ((otherDies q).flatMap fun d => (List.range 48).map fun i => d * 48 + i).Nodup := by
    refine List.nodup_flatMap.2 ⟨fun d _ => dieList_nodup d, List.Pairwise.imp (fun {d e} ne => ?_) (otherDies_nodup q)⟩
    exact List.disjoint_left.2 fun r hr hr' => ne ((mem_dieList hr).symm.trans (mem_dieList hr'))
  have elsewhere {r : Nat} (h : r ∈ (otherDies q).flatMap fun d => (List.range 48).map fun i => d * 48 + i) : r / 48 ≠ quireDie q := by
    obtain ⟨d, hd, hr⟩ := List.mem_flatMap.1 h
    rw [mem_dieList hr]
    exact fun e => quireDie_notMem_otherDies q (e ▸ hd)
  refine List.nodup_append.2 ⟨List.nodup_cons.2 ⟨fun h => (mem_dieOrder h).1 rfl, dieOrder_nodup q⟩, others, ?_⟩
  rintro r hr x hx rfl
  rcases List.mem_cons.1 hr with rfl | hr
  · exact elsewhere hx rfl
  · exact elsewhere hx (mem_dieOrder hr).2

/-- The cores of a quire in the search order of a core. -/
def coreBlock (core q : Nat) : List Nat :=
  (List.range 96).map fun i => if q = quireOf core then q * 96 + (core % 96 + 1 + i) % 96 else q * 96 + i
theorem mem_coreBlock {core q n : Nat} (h : n ∈ coreBlock core q) : n / 96 = q := by
  obtain ⟨i, hi, rfl⟩ := List.mem_map.1 h
  have small := List.mem_range.1 hi
  split <;> omega
theorem coreBlock_nodup (core q : Nat) : (coreBlock core q).Nodup := by
  refine List.Nodup.map_on (fun i hi j hj e => ?_) List.nodup_range
  have small := List.mem_range.1 hi
  have small' := List.mem_range.1 hj
  split at e <;> omega
theorem coreOrder_nodup (core : Nat) : (coreOrder core).Nodup := by
  refine List.nodup_flatMap.2 ⟨fun q _ => coreBlock_nodup core q, List.Pairwise.imp (fun {q r} ne => ?_) (quireOrder_nodup (quireOf core))⟩
  exact List.disjoint_left.2 fun n hn hn' => ne ((mem_coreBlock hn).symm.trans (mem_coreBlock hn'))
theorem recruits_nodup (s : State) (f : List Byte) (n : Nat) : (s.recruits f n).Nodup :=
  ((coreOrder_nodup s.cur).sublist (List.filter_sublist ..)).sublist (List.take_sublist ..)

end Sys2Proof.Machine
end

section
/-! SUPPORT. Bytes that the part writes into a scratchpad, whoever holds or watches its granules (06, R138). -/

namespace Sys2Proof.Machine

section
variable {s t u : State}

/-! ### The frame -/

/-- Only scratchpads, their uncorrectable doubles, and what reservations, wakes and recruitments there are at a core may differ,
and no recruitment is taken back. -/
structure SpadWrite (s t : State) : Prop where
  control : KeepsControl s t
  quires : t.quires = s.quires
  recruit : ∀ n, (s.core n).recruit.isSome = true → (t.core n).recruit.isSome = true

theorem SpadWrite.refl (s : State) : SpadWrite s s := ⟨.refl s, rfl, fun _ => id⟩
theorem SpadWrite.trans (h : SpadWrite s t) (g : SpadWrite t u) : SpadWrite s u :=
  ⟨h.control.trans g.control, g.quires.trans h.quires, fun n => g.recruit n ∘ h.recruit n⟩
theorem spadWrite_foldl {α : Type} {f : State → α → State} (h : ∀ t x, SpadWrite t (f t x)) (xs : List α) (s : State) :
    SpadWrite s (xs.foldl f s) := by
  induction xs generalizing s with
  | nil => exact .refl s
  | cons x r ih => exact (h s x).trans (ih _)
theorem csr_onCore (s : State) (n : Nat) (f : Core → Core) (h : (f (s.core n)).csr = (s.core n).csr) : (s.onCore n f).csr = s.csr := by
  rw [State.csr, State.me, State.onCore_cur]
  by_cases hn : s.cur = n
  · rw [hn, State.core_onCore_same, h, State.csr, State.me, hn]
  · rw [State.core_onCore_ne _ _ _ _ hn]
    rfl
theorem spadWrite_onCore (s : State) (n : Nat) (f : Core → Core) (csr : (f (s.core n)).csr = (s.core n).csr)
    (w : ∀ x : Fin 11, (f (s.core n)).ctxs[x].w = (s.core n).ctxs[x].w) (recruit : (s.core n).recruit.isSome = true → (f (s.core n)).recruit.isSome = true) :
    SpadWrite s (s.onCore n f) := by
  refine ⟨⟨rfl, csr_onCore s n f csr, keepsW_onCore s n f w⟩, rfl, fun k some => ?_⟩
  by_cases hk : k = n
  · rw [hk] at some ⊢
    rw [State.core_onCore_same]
    exact recruit some
  · rwa [State.core_onCore_ne _ _ _ _ hk]
theorem spadWrite_wakeWatches (s : State) (hit : Place → Bool) (a : Option Agent) : SpadWrite s (s.wakeWatches hit a) := by
  have wakes := onlyWakes_wakeWatches s hit a
  refine ⟨wakes.keepsControl, ?_, fun n some => by rwa [wakes.core n]⟩
  simp only [State.wakeWatches]
  generalize s.watches.filter (fun w => hit w.place && (w.any || decide (some w.agent ≠ a))) = ws
  have fold (u : State) : (ws.foldl (fun t w => t.onCore w.agent.core fun c =>
      { c with ctxs := c.ctxs.set w.agent.ctx { c.ctxs[w.agent.ctx] with woken := true } }) u).quires = u.quires := by
    induction ws generalizing u with
    | nil => rfl
    | cons w r ih => exact ih _
  exact fold _

/-! ### The writes -/

theorem spadWrite_loseByStore (s : State) (n : Nat) (p : Place) : SpadWrite s (s.loseByStore n p) := by
  unfold State.loseByStore
  dsimp only
  split
  · split
    · rename_i a _ _
      have cleared (gs : List Granule) : SpadWrite s { s with granules := gs } := ⟨⟨rfl, rfl, rfl, rfl, fun _ _ => rfl⟩, rfl, fun _ => id⟩
      refine (cleared _).trans (spadWrite_onCore _ _ _ rfl (fun x => ?_) id)
      exact ctxs_set_w _ (y := Ctx.loseResv _) rfl x
    · exact .refl s
  · exact .refl s
theorem spadWrite_noteError (s : State) (c o n : Nat) : SpadWrite s (s.noteError (.spad c o) n) := by
  have told (m : Mgmt) : SpadWrite s { s with mgmt := m } := ⟨⟨rfl, rfl, rfl, rfl, fun _ _ => rfl⟩, rfl, fun _ => id⟩
  unfold State.noteError
  dsimp only
  split
  · split
    · exact told _
    · exact told _
  · exact .refl s
theorem spadWrite_putSpad (s : State) (n o : Nat) (bs : List Byte) : SpadWrite s (s.putSpad n o bs) := by
  unfold State.putSpad State.performPart
  dsimp only
  split
  · exact (spadWrite_noteError s n _ 8).trans (spadWrite_onCore _ n _ rfl (fun _ => rfl) id)
  · refine (spadWrite_foldl (fun t g => spadWrite_loseByStore t n g) (s.granulesAt (.spad n o) (storeBytes bs).length) s).trans ?_
    exact (spadWrite_onCore _ n _ rfl (fun _ => rfl) id).trans (spadWrite_wakeWatches ..)
theorem spadWrite_copySpad (s : State) (src dst o n : Nat) : SpadWrite s (s.copySpad src dst o n) := by
  unfold State.copySpad State.hurtAs
  exact (spadWrite_putSpad ..).trans (spadWrite_onCore _ dst _ rfl (fun _ => rfl) id)

/-- The core with bytes written into its scratchpad, where no double is uncorrectable. -/
def Core.written (o : Nat) (bs : List Byte) (c : Core) : Core := { c with spad := Memory.write c.spad o bs, bad := [] }
/-- Where nobody holds or watches a granule there the bytes are written, and nothing else of the state changes. -/
theorem putSpad_free (granules : s.granules = []) (watches : s.watches = []) {n : Nat} (bad : (s.core n).bad = []) (o : Nat)
    (bs : List Byte) : s.putSpad n o bs = s.onCore n (Core.written o bs) := by
  simp only [State.putSpad, State.performPart_spad granules watches n n o bad, Memory.merge_storeBytes]
  rfl
theorem Core.written_read {c : Core} (wf : Memory.wf c.spad = true) (o : Nat) {bs : List Byte} (length : bs.length = 64) :
    Memory.read (c.written o bs).spad o 64 = bs := by
  rw [Core.written, ← length]
  exact Memory.read_write bs wf o

end

end Sys2Proof.Machine
end

section
/-! SUPPORT. Forks and launch trees (06, R145, R146; 13, R350). -/

namespace Sys2Proof.Machine

section
variable {s : State}

/-! ### Launch trees -/

theorem sameAsn_released (s : State) (sc : Scope) (a b : Nat) : (s.released sc).sameAsn a b = s.sameAsn a b := by
  simp only [State.sameAsn, (touches_released s sc).calm.qasr]
theorem treeQuires_released (s : State) (sc : Scope) (l : Level) : (s.released sc).treeQuires l = s.treeQuires l := by
  have wakes := onlyWakes_released s sc
  have service : (s.released sc).service = s.service := (congrArg State.service wakes.rest :)
  simp only [State.treeQuires, service, sameAsn_released, wakes.cur, State.myQuire]
  rfl

/-- The scope at which `tfan` of a domain releases. -/
def fanScope : Level → Scope | .quire => .quire | .die => .die | .dev | .sys => .dev
/-- The messages of a launch tree stand behind those on their way. -/
def State.fanned (s : State) (l : Level) (pc arg : Word) : State :=
  { s with tree := s.tree ++ (s.treeQuires l).map fun q => ⟨q * 96, q * 96 + 96, pc, arg, fanScope l⟩ }

theorem tfan_run {a b : Reg} (l : Level) (ready : CtlReady s 0) (sb : s.me.sb = []) (free : s.forwardsHeld s.myQuire = false)
    (even : (s.w a).getLsbD 0 = false) :
    tfan l a b s = .ok ((), (s.released (fanScope l)).fanned l (s.w a) (s.w b)) := by
  obtain ⟨hx, -, -, hp, -⟩ := ready
  have released : release (fanScope l) s = .ok ((), s.released (fanScope l)) :=
    release_released (by cases l <;> decide) sb free
  cases l <;>
    simp only [fanScope] at released <;>
    simp only [tfan, M.bind_run, controlOnly_run hx, barPhase_run hp, readW_run, need_run, even, Bool.not_false, if_true, released,
      M.modify_run] <;>
    rfl
theorem tfan_sends {i : Instr} {a b : Reg} {l : Level} (meaning : exec i s = M.run (tfan l a b) s) (ready : CtlReady s 0)
    (sb : s.me.sb = []) (free : s.forwardsHeld s.myQuire = false) (even : (s.w a).getLsbD 0 = false) :
    ∃ t, exec i s = .next t ∧ WentOn s t ∧ SameW s t ∧
      t.tree = s.tree ++ (s.treeQuires l).map fun q => ⟨q * 96, q * 96 + 96, s.w a, s.w b, fanScope l⟩ := by
  have wakes := onlyWakes_released s (fanScope l)
  have tree : (s.released (fanScope l)).tree = s.tree := (congrArg State.tree wakes.rest :)
  refine ⟨_, meaning.trans (M.run_ok (tfan_run l ready sb free even)), wentOn_advance _ _ ready.2.2.1 wakes.issue, fun r => ?_, ?_⟩
  · rw [State.w_advance]
    exact wakes.w r
  · rw [State.advance_tree, State.fanned, tree, treeQuires_released]

/-- The pending task of a launch. -/
def launchTask (n : Nat) (sc : Scope) : Pending :=
  { handle := folioHandle n launchFolio, pri := 0, acq := some sc, home := n, holds := [], cont := false, launch := true, bad := false }

theorem folioImage_length (pc arg : Word) (pri flags : Nat) : (folioImage pc arg pri flags).length = 64 := by
  simp [folioImage, toBytes_length]
theorem placeReady_spad (s : State) (n : Nat) (p : Pending) : ((s.placeReady n p).core n).spad = (s.core n).spad := by
  rw [State.placeReady, State.core_onCore_same]
  dsimp only
  split <;> rfl

theorem Core.written_ready (o : Nat) (bs : List Byte) (c : Core) : (c.written o bs).ready = c.ready := rfl

theorem deliverLaunch_placed (wf : s.memWf) (granules : s.granules = []) (watches : s.watches = []) {n : Nat} (bad : (s.core n).bad = [])
    (ready : (s.core n).ready = []) (pc arg : Word) (sc : Scope) :
    let t := s.deliverLaunch n pc arg sc
    t.folioBytes n launchFolio = folioImage pc arg 0 3 ∧ (t.core n).ready = [launchTask n sc] ∧ t.tree = s.tree := by
  have put := putSpad_free granules watches bad launchFolio (folioImage pc arg 0 3)
  simp only [State.deliverLaunch, put]
  refine ⟨?_, ?_, rfl⟩
  · rw [State.folioBytes, placeReady_spad, State.core_onCore_same]
    exact Core.written_read (wf.2.2.1 n) _ (folioImage_length ..)
  · rw [placeReady_ready, State.core_onCore_same, Core.written_ready, ready]
    rfl

theorem execLaunchTreeDelivery_run {m : TreeMsg} (only : s.tree = [m]) (low : m.lo ≤ s.turn.core) (high : s.turn.core < m.hi)
    (ready : (s.core s.turn.core).ready = []) :
    exec .launchTreeDelivery s =
      .next (State.deliverLaunch { s with tree := [{ m with hi := s.turn.core }, { m with lo := s.turn.core + 1 }].filter fun x => x.lo < x.hi }
        s.turn.core m.pc m.arg m.acq) := by
  have first : (s.tree.findIdx? fun m => m.lo ≤ s.turn.core && s.turn.core < m.hi) = some 0 := by
    rw [only]
    simp [List.findIdx?_cons, low, high]
  have listed : s.tree[0]? = some m := by rw [only]; rfl
  have none : (s.core s.turn.core).undelivered = false := by rw [Core.undelivered, ready]; rfl
  show execLaunchTreeDelivery s = _
  simp only [execLaunchTreeDelivery, first, listed, none, Bool.false_eq_true, if_false]
  simp only [only, List.take_zero, List.nil_append, Nat.zero_add, List.drop_succ_cons, List.drop_nil, List.append_nil]

theorem launchTrees : Claims.LaunchTrees := by
  intro s a b wf sb peers free fan n
  refine ⟨fun ready => ⟨tfan_sends (l := .dev) rfl ready sb free, tfan_sends (l := .die) rfl ready sb free,
    tfan_sends (l := .quire) rfl ready sb free⟩, ?_⟩
  intro m only low high ready bad granules watches
  obtain ⟨folio, placed, tree⟩ := deliverLaunch_placed
    (s := { s with tree := [{ m with hi := n }, { m with lo := n + 1 }].filter fun x => x.lo < x.hi })
    wf granules watches bad ready m.pc m.arg m.acq
  exact ⟨_, execLaunchTreeDelivery_run only low high ready, folio, ⟨_, placed, rfl, rfl, rfl⟩, tree⟩

/-! ### The start of a recruit -/

theorem folioOff_folioHandle (n : Nat) {o : Nat} (aligned : o % 64 = 0) (small : o < 0x40000) : folioOff (folioHandle n o) = o := by
  simp only [folioOff, folioHandle, BitVec.extractLsb'_toNat, BitVec.toNat_ofNat, Nat.shiftRight_zero]
  omega

theorem recruitStart_starts {sc : Scope} (recruited : (s.core s.turn.core).recruit = some sc) :
    let n := s.turn.core
    let r := s.folioBytes n forkFolio
    ∃ t, exec .recruitStart s = .next t ∧ (t.core n).run = .task ∧ (t.core n).recruit = none ∧
      (t.core n).folio = folioOff (folioHandle n forkFolio) ∧
      (t.core n).ctxs[0].pc = wordOf (r.take 8) &&& ~~~(1#64) ∧
      (t.core n).ctxs[0].w[0] = wordOf ((r.drop 8).take 8) ∧ (t.core n).ctxs[0].w[12] = localAddr forkFolio := by
  intro n r
  let u := s.onCore n fun c => { c with recruit := none }
  have off := folioOff_folioHandle n (o := forkFolio) (by decide) (by decide)
  have folio : u.folioBytes n forkFolio = r := by
    rw [State.folioBytes, State.core_onCore_same]
    rfl
  have acquired : (u.acquire n sc).core n = u.core n := by
    rw [State.core, (sameCores_acquire u n sc).cores]
    rfl
  have run : exec .recruitStart s = .next (u.beginTask n r
      { handle := folioHandle n forkFolio, pri := 0, acq := some sc, home := n, holds := [], cont := false, launch := false, bad := false }) := by
    show execRecruitStart s = _
    rw [← folio]
    simp only [execRecruitStart, recruited, n]
    rfl
  refine ⟨_, run, ?_⟩
  simp only [State.beginTask, Bool.false_eq_true, if_false, State.core_onCore_same, acquired, off]
  refine ⟨trivial, State.core_onCore_same s n _ ▸ rfl, trivial, ?_, ?_, ?_⟩
  · simp [evenPc]
  · simp
  · simp

/-! ### The folio of a recruit -/

/-- The folio that the `i`-th of `k` recruits receives. -/
def recruitFolio (f : List Byte) (total k i : Nat) : List Byte :=
  f.take 0x1C ++ toBytes 4 (fieldAt f 0x1C 4 - fieldAt f 0x1C 4 / 4 % 4 * 4) ++ (f.drop 0x20).take 16
    ++ toBytes 8 (i * total / k) ++ toBytes 8 ((i + 1) * total / k)

section
variable {f : List Byte} (length : f.length = 64) (total k i : Nat)
include length

theorem recruitFolio_length : (recruitFolio f total k i).length = 64 := by simp [recruitFolio, toBytes_length, length]
theorem recruitFolio_take : (recruitFolio f total k i).take 0x1C = f.take 0x1C := by
  simp only [recruitFolio, List.append_assoc]
  exact List.take_left' (by simp [length])
theorem recruitFolio_begin : fieldAt (recruitFolio f total k i) 0x30 8 = i * total / k % 2 ^ 64 := by
  have before : (f.take 0x1C ++ toBytes 4 (fieldAt f 0x1C 4 - fieldAt f 0x1C 4 / 4 % 4 * 4) ++ (f.drop 0x20).take 16).length = 0x30 := by
    simp [toBytes_length, length]
  rw [fieldAt, recruitFolio, List.append_assoc, List.drop_left' before, List.take_left' (toBytes_length ..), ofBytes_toBytes]
  rfl
theorem recruitFolio_end : fieldAt (recruitFolio f total k i) 0x38 8 = (i + 1) * total / k % 2 ^ 64 := by
  have before : (f.take 0x1C ++ toBytes 4 (fieldAt f 0x1C 4 - fieldAt f 0x1C 4 / 4 % 4 * 4) ++ (f.drop 0x20).take 16
      ++ toBytes 8 (i * total / k)).length = 0x38 := by
    simp [toBytes_length, length]
  rw [fieldAt, recruitFolio, List.drop_left' before, List.take_of_length_le (Nat.le_of_eq (toBytes_length ..)), ofBytes_toBytes]
  rfl

end

/-! ### Recruiting -/

/-- Each core of a list receives the folio of its number. -/
def State.recruitAll (s : State) (f : List Byte) (total k : Nat) (sc : Scope) (cs : List (Nat × Nat)) : State :=
  cs.foldl (fun t x => t.recruit f total k x.2 x.1 sc) s

section
variable (f : List Byte) (total k : Nat) (sc : Scope)

theorem spadWrite_recruit (s : State) (i n : Nat) : SpadWrite s (s.recruit f total k i n sc) := by
  unfold State.recruit
  refine ((spadWrite_putSpad s n forkFolio (recruitFolio f total k i)).trans
    (spadWrite_foldl (fun t x => spadWrite_copySpad t s.cur n x.1 x.2) (folioTiles f) _)).trans ?_
  exact spadWrite_onCore _ n _ rfl (fun _ => rfl) fun _ => rfl
theorem recruit_isSome (s : State) (i n : Nat) : ((s.recruit f total k i n sc).core n).recruit.isSome = true := by
  rw [State.recruit, State.core_onCore_same]
  rfl
theorem spadWrite_recruitAll (s : State) (cs : List (Nat × Nat)) : SpadWrite s (s.recruitAll f total k sc cs) :=
  spadWrite_foldl (fun t _ => spadWrite_recruit f total k sc t ..) cs s
theorem recruitAll_isSome (s : State) {cs : List (Nat × Nat)} {x : Nat × Nat} (hx : x ∈ cs) :
    ((s.recruitAll f total k sc cs).core x.1).recruit.isSome = true := by
  induction cs generalizing s with
  | nil => cases hx
  | cons c r ih =>
    rcases List.mem_cons.1 hx with rfl | hx
    · exact (spadWrite_recruitAll f total k sc _ r).recruit x.1 (recruit_isSome f total k sc s x.2 x.1)
    · exact ih _ hx

end

/-- The core with its folio and the mark that it is to start. -/
def Core.recruited (g : List Byte) (sc : Scope) (c : Core) : Core := { c.written forkFolio g with recruit := some sc }

section
variable {f : List Byte} (tiles : folioTiles f = []) (total k : Nat) (sc : Scope)
include tiles

theorem recruit_free (granules : s.granules = []) (watches : s.watches = []) (i : Nat) {n : Nat} (bad : (s.core n).bad = []) :
    s.recruit f total k i n sc = s.onCore n (Core.recruited (recruitFolio f total k i) sc) := by
  simp only [State.recruit, tiles, List.foldl_nil, putSpad_free granules watches bad]
  simp only [State.onCore, State.setCore_setCore, State.core_setCore_same]
  rfl
theorem recruitAll_others {cs : List (Nat × Nat)} {n : Nat} (granules : s.granules = []) (watches : s.watches = [])
    (nodup : (cs.map Prod.fst).Nodup) (bad : ∀ x ∈ cs, (s.core x.1).bad = []) (others : n ∉ cs.map Prod.fst) :
    (s.recruitAll f total k sc cs).core n = s.core n := by
  induction cs generalizing s with
  | nil => rfl
  | cons c r ih =>
    obtain ⟨first, rest⟩ := List.nodup_cons.1 nodup
    have ne : n ≠ c.1 := fun e => others (e ▸ List.mem_cons_self)
    have step := recruit_free tiles total k sc granules watches c.2 (bad c List.mem_cons_self)
    have soundRest : ∀ x ∈ r, ((s.onCore c.1 (Core.recruited (recruitFolio f total k c.2) sc)).core x.1).bad = [] := fun x hx => by
      have other : x.1 ≠ c.1 := fun e => first (e ▸ List.mem_map_of_mem hx)
      rw [State.core_onCore_ne _ _ _ _ other]
      exact bad x (List.mem_cons_of_mem _ hx)
    rw [State.recruitAll, List.foldl_cons, step]
    refine (ih (s := s.onCore c.1 _) granules watches rest soundRest fun h => others (List.mem_cons_of_mem _ h)).trans ?_
    exact State.core_onCore_ne _ _ _ _ ne
/-- Each of a list of different cores has its folio at the end. -/
theorem recruitAll_folios (length : f.length = 64) {cs : List (Nat × Nat)} (granules : s.granules = []) (watches : s.watches = [])
    (nodup : (cs.map Prod.fst).Nodup) (bad : ∀ x ∈ cs, (s.core x.1).bad = []) (wf : ∀ n, Memory.wf (s.core n).spad = true)
    {x : Nat × Nat} (hx : x ∈ cs) :
    (s.recruitAll f total k sc cs).folioBytes x.1 forkFolio = recruitFolio f total k x.2 := by
  induction cs generalizing s with
  | nil => cases hx
  | cons c r ih =>
    obtain ⟨first, rest⟩ := List.nodup_cons.1 nodup
    have step := recruit_free tiles total k sc granules watches c.2 (bad c List.mem_cons_self)
    have other {y : Nat × Nat} (hy : y ∈ r) : (s.onCore c.1 (Core.recruited (recruitFolio f total k c.2) sc)).core y.1 = s.core y.1 :=
      State.core_onCore_ne _ _ _ _ fun e => first (e ▸ List.mem_map_of_mem hy)
    have soundRest : ∀ y ∈ r, ((s.onCore c.1 (Core.recruited (recruitFolio f total k c.2) sc)).core y.1).bad = [] := fun y hy => by
      rw [other hy]
      exact bad y (List.mem_cons_of_mem _ hy)
    have wfRest (n : Nat) : Memory.wf ((s.onCore c.1 (Core.recruited (recruitFolio f total k c.2) sc)).core n).spad = true := by
      by_cases hn : n = c.1
      · rw [hn, State.core_onCore_same]
        exact Memory.write_wf _ (wf _) _
      · rw [State.core_onCore_ne _ _ _ _ hn]
        exact wf n
    rw [State.recruitAll, List.foldl_cons, step]
    rcases List.mem_cons.1 hx with rfl | hx
    · have kept := recruitAll_others tiles total k sc (s := s.onCore x.1 (Core.recruited (recruitFolio f total k x.2) sc))
        granules watches rest soundRest first
      rw [State.recruitAll] at kept
      rw [State.folioBytes, kept, State.core_onCore_same]
      exact Core.written_read (wf x.1) _ (recruitFolio_length length total k x.2)
    · exact ih granules watches rest soundRest wfRest hx

end

/-! ### `rfork` -/

/-- The scope that contains the issuing core and its recruits. -/
def State.forkScope (s : State) (rs : List Nat) : Scope := rs.foldl (fun x c => Scope.wider x (scopeOf s.cur c)) .core
theorem forkScope_ne_sys (s : State) (rs : List Nat) : s.forkScope rs ≠ .sys := by
  have fold (sc : Scope) (h : sc ≠ .sys) : rs.foldl (fun x c => Scope.wider x (scopeOf s.cur c)) sc ≠ .sys := by
    induction rs generalizing sc with
    | nil => exact h
    | cons c r ih =>
      refine ih _ ?_
      show Scope.wider sc (scopeOf s.cur c) ≠ .sys
      unfold Scope.wider
      split
      · exact scopeOf_ne_sys s.cur c
      · exact h
  exact fold _ (by decide)

/-- The state in which a kettle's count has grown by the recruits of a fork and each has its folio. -/
def State.forked (s : State) (f : List Byte) (total : Nat) (ket : W32) (rs : List Nat) : State :=
  let u := s.released (s.forkScope rs)
  (u.kettlePut ket 0 (toBytes 4 (kCount (u.kettleBytes ket) + rs.length))).recruitAll f total rs.length (s.forkScope rs) rs.zipIdx

section
variable {d a b c : Reg} {o : Nat} (ready : CtlReady s 0) (own : OwnBytes s (s.w c) 64 64 o)
include ready own

theorem execRfork_nothing (zero : s.w a = 0) : exec (.rfork d a b c) s = .next (s.setW d 0).advance := by
  obtain ⟨hx, -, -, hp, -⟩ := ready
  refine M.run_ok ?_
  simp only [M.bind_run, controlOnly_run hx, barPhase_run hp, readW_run, localOperand_own (by decide) own (by decide), zero, if_true, writeW_run]

theorem execRfork_run (sb : s.me.sb = []) (free : s.forwardsHeld s.myQuire = false) (some : s.w a ≠ 0) {f : List Byte} {ket : W32}
    {rs : List Nat} (bytes : s.ownBytes o 64 = f) (named : BitVec.ofNat 32 (fieldAt f 0x10 4) = ket)
    (listed : s.recruits f (((s.w a).toNat + Nat.max 1 (s.w b).toNat - 1) / Nat.max 1 (s.w b).toNat) = rs)
    (valid : hasV ket = true) (ok : kettleOk ket = true) (kops : s.kops = []) (sound : (s.quire (kettleQuire ket)).badKettles = [])
    (armed : kArmed (s.kettleBytes ket) = true) :
    exec (.rfork d a b c) s =
      .next ((if 0 < rs.length then s.forked f (s.w a).toNat ket rs else s).setW d (BitVec.ofNat 64 rs.length)).advance := by
  obtain ⟨hx, -, -, hp, -⟩ := ready
  have released := release_released (forkScope_ne_sys s rs) sb free
  unfold State.forkScope at released
  refine M.run_ok ?_
  simp only [M.bind_run, controlOnly_run hx, barPhase_run hp, readW_run, localOperand_own (by decide) own (by decide), some, if_false,
    readOwn_own own, bytes, named, need_run, valid, ok, Bool.and_self, if_true, flushKettle_run kops, M.get_run, kettleBad_none sound,
    armed, Bool.not_true, Bool.false_eq_true, listed]
  by_cases any : 0 < rs.length
  · simp only [any, if_true, M.bind_run, drainFirst_empty sb, released, M.modify_run, writeW_run]
    rfl
  · simp only [any, if_false, writeW_run]

end

theorem keepsControl_released (s : State) (sc : Scope) : KeepsControl s (s.released sc) := (onlyWakes_released s sc).keepsControl
theorem forked_control (s : State) (f : List Byte) (total : Nat) (ket : W32) (rs : List Nat) : KeepsControl s (s.forked f total ket rs) := by
  have put (u : State) (bs : List Byte) : KeepsControl u (u.kettlePut ket 0 bs) := ⟨rfl, rfl, keepsW_onQuire ..⟩
  exact ((keepsControl_released ..).trans (put ..)).trans (spadWrite_recruitAll ..).control
theorem kCount_forked (wf : s.memWf) (f : List Byte) (total : Nat) (ket : W32) (rs : List Nat)
    (small : kCount (s.kettleBytes ket) + rs.length < 2 ^ 32) :
    kCount ((s.forked f total ket rs).kettleBytes ket) = kCount (s.kettleBytes ket) + rs.length := by
  have wakes := onlyWakes_released s (s.forkScope rs)
  have same : SameStores s (s.released (s.forkScope rs)) := wakes.store
  have quires := (spadWrite_recruitAll f total rs.length (s.forkScope rs)
    ((s.released (s.forkScope rs)).kettlePut ket 0 (toBytes 4 (kCount ((s.released (s.forkScope rs)).kettleBytes ket) + rs.length)))
    rs.zipIdx).quires
  have bytes {x y : State} (h : x.quires = y.quires) : x.kettleBytes ket = y.kettleBytes ket := by
    rw [State.kettleBytes, State.quire, h]
    rfl
  rw [State.forked, bytes quires, same.kettleBytes]
  exact kCount_put (wakes.wf wf _) small

/-- A register write that ends the instruction leaves each core all but its contexts. -/
theorem core_setW_advance (s : State) (d : Reg) (x : Word) (n : Nat) :
    (s.setW d x).advance.core n = { s.core n with ctxs := ((s.setW d x).advance.core n).ctxs } := by
  have each (u : State) (g : Ctx → Ctx) : (u.onMyCtx g).core n = { u.core n with ctxs := ((u.onMyCtx g).core n).ctxs } := by
    by_cases hn : n = u.cur
    · subst hn
      have e : (u.onMyCtx g).core u.cur = _ := u.me_onMyCtx g
      rw [e]
      rfl
    · have e : (u.onMyCtx g).core n = u.core n := State.core_setCore_ne _ _ _ _ hn
      rw [e]
  have first := each s fun c => { c with w := c.w.set d x }
  have second : (s.setW d x).advance.core n = { (s.setW d x).core n with ctxs := ((s.setW d x).advance.core n).ctxs } := each ..
  have e : (s.setW d x).core n = { s.core n with ctxs := ((s.setW d x).core n).ctxs } := first
  rw [e] at second
  exact second

theorem mem_zipIdx_of_mem {rs : List Nat} {n : Nat} (h : n ∈ rs) : ∃ i, (n, i) ∈ rs.zipIdx := by
  obtain ⟨i, hi, rfl⟩ := List.mem_iff_getElem.1 h
  exact ⟨i, List.mem_zipIdx_iff_getElem?.2 (by simp [hi])⟩

theorem forks : Claims.Forks := by
  intro s d a b c o wf sb peers free f ket total g rs n r
  refine ⟨fun ready own zero => computes_of ready.2.2.1 (execRfork_nothing ready own zero), ?_, fun sc recruited => recruitStart_starts recruited⟩
  intro ready own some valid ok kops sound armed
  have run := execRfork_run (d := d) (rs := rs) (f := f) (ket := ket) ready own sb free some rfl rfl rfl valid ok kops sound armed
  let x : State := if 0 < rs.length then s.forked f total ket rs else s
  have control : KeepsControl s x := by
    by_cases any : 0 < rs.length
    · rw [show x = _ from if_pos any]
      exact forked_control ..
    · rw [show x = _ from if_neg any]
      exact .refl s
  have core (k : Nat) := core_setW_advance x d (BitVec.ofNat 64 rs.length) k
  refine ⟨_, run, ?_, fun q hq => ?_, wentOn_advance _ _ ready.2.2.1 control.issue, fun small => ?_, fun k hk => ?_, ?_⟩
  · rw [State.w_advance, State.w_setW_same]
  · rw [State.w_advance, State.w_setW, if_neg hq]
    exact control.registers.sameW q
  · show kCount (x.kettleBytes ket) = _
    by_cases any : 0 < rs.length
    · rw [show x = _ from if_pos any, kCount_forked wf _ _ _ _ small]
    · rw [show x = _ from if_neg any, show rs.length = 0 by omega]
      rfl
  · obtain ⟨i, hi⟩ := mem_zipIdx_of_mem hk
    have any : 0 < rs.length := List.length_pos_of_mem hk
    rw [core k, show x = _ from if_pos any]
    exact recruitAll_isSome f total rs.length (s.forkScope rs) _ hi
  · intro granules watches tiles bad i hi k p
    have any : 0 < rs.length := by omega
    have calm := (touches_released s (s.forkScope rs)).calm
    have wakes := onlyWakes_released s (s.forkScope rs)
    have listed : (k, i) ∈ rs.zipIdx := List.mem_zipIdx_iff_getElem?.2 (by simp [k, hi])
    have length : f.length = 64 := by simp [f, State.ownBytes]
    have folio : p = recruitFolio f total rs.length i := by
      show State.folioBytes _ k forkFolio = _
      rw [State.folioBytes, core k]
      show x.folioBytes k forkFolio = _
      rw [show x = _ from if_pos any]
      refine recruitAll_folios (s := (s.released (s.forkScope rs)).kettlePut ket 0 _) tiles total rs.length (s.forkScope rs) length
        (calm.granules granules) (calm.watches watches) ?_ ?_ ?_ listed
      · rw [List.zipIdx_map_fst]
        exact recruits_nodup ..
      · intro y hy
        show ((s.released _).core y.1).bad = []
        rw [wakes.core]
        exact bad y.1 (List.fst_mem_of_mem_zipIdx hy)
      · intro m
        show Memory.wf ((s.released _).core m).spad = true
        rw [wakes.core]
        exact wf.2.2.1 m
    rw [folio]
    exact ⟨recruitFolio_take length .., recruitFolio_begin length .., recruitFolio_end length ..⟩

/-- Settles O44: forks write one kettle and the folios of different cores; launches come with the messages of their tree. -/
theorem forksAndLaunchTrees : Obligations.ForksAndLaunchTrees := ⟨forks, launchTrees⟩

end

end Sys2Proof.Machine
end

section
/-! SUPPORT. Settles the claim on routing counters of O45 (06, R168). -/

namespace Sys2Proof.Machine

section
variable {s t : State}

/-! ### A quire changed -/

/-- Bytes that a change of the quires leaves: those where kettles and home slices are as before. -/
theorem sameBytes_of_quires (cores : t.cores = s.cores) (kettles : ∀ q, (t.quire q).kettles = (s.quire q).kettles)
    (slices : ∀ q, (t.quire q).slices = (s.quire q).slices) (hbm : t.hbm = s.hbm) (bindings : t.bindings = s.bindings) :
    SameBytes s t := by
  intro p
  cases p with
  | spad c off => simp only [State.byteAt, State.core, cores]
  | kettle q off => simp only [State.byteAt, kettles]
  | remote d pa => rfl
  | hbm pa b =>
    have binding (k : Nat) : t.binding k = s.binding k := by simp only [State.binding, bindings]
    have line (h : Nat) : t.homeLine h pa = s.homeLine h pa := by simp only [State.homeLine, State.slice, Quire.homeLine, slices, binding]
    simp only [State.byteAt, State.homeBinding, binding, State.homeCell, line, hbm]
    cases s.homeLine _ pa <;> rfl

/-- The state with other counters at a quire. -/
def State.countersSet (s : State) (q : Nat) (cs : Vector Word 64) : State := s.onQuire q fun x => { x with counters := cs }

theorem State.countersSet_same (s : State) (q : Nat) (cs : Vector Word 64) : ((s.countersSet q cs).quire q).counters = cs :=
  congrArg Quire.counters (s.quire_onQuire_same q _)
theorem State.quire_countersSet (s : State) (q k : Nat) (cs : Vector Word 64) :
    (s.countersSet q cs).quire k = { s.quire k with counters := ((s.countersSet q cs).quire k).counters } := by
  by_cases at' : k = q
  · subst at'
    rw [State.countersSet, State.quire_onQuire_same]
  · rw [State.countersSet, State.quire_onQuire_ne _ _ _ _ at']
theorem sameBytes_countersSet (s : State) (q : Nat) (cs : Vector Word 64) : SameBytes s (s.countersSet q cs) := by
  refine sameBytes_of_quires rfl (fun k => ?_) (fun k => ?_) rfl rfl <;> rw [State.quire_countersSet]

theorem cinc_run {a b : Reg} (ph : s.csr.ph = false) (low : (s.w a).toNat < 64) :
    exec (.cinc a b) s = .next (s.countersSet s.myQuire (((s.quire s.myQuire).counters).set (s.w a).toNat
      ((s.quire s.myQuire).counters[(s.w a).toNat] + s.w b))).advance := by
  refine M.run_ok ?_
  simp only [M.bind_ok (barPhase_run ph), M.bind_ok (readW_run a s), M.bind_ok (readW_run b s), dif_pos low]
  rfl

/-- The bytes of a quire's counters, as a snapshot stores them. -/
def counterBytes (cs : Vector Word 64) : List Byte := cs.toList.flatMap fun c => toBytes 8 c.toNat
/-- The snapshot's store, in the store buffer. -/
def State.snapped (s : State) (o : Nat) : State :=
  s.enqueue (.spad s.cur o) (localAddr o) .dflt (counterBytes (s.quire s.myQuire).counters)

theorem snapshot_run {a : Reg} {o : Nat} (ph : s.csr.ph = false) (own : OwnBytes s (s.w a) 512 8 o) (clear : Bool) :
    snapshot a clear s = .ok ((), if clear then (s.snapped o).countersSet s.myQuire (Vector.replicate 64 0) else s.snapped o) := by
  rw [snapshot]
  simp only [M.bind_ok (barPhase_run ph), M.bind_ok (readW_run a s), M.bind_ok (localOperand_own (by decide) own (by decide)),
    M.bind_ok (M.get_run s)]
  cases clear <;> exact M.bind_ok (storeOwn_run ..)

theorem registersSame_countersSet (s : State) (q : Nat) (cs : Vector Word 64) : RegistersSame s (s.countersSet q cs).advance := by
  obtain ⟨w, v, m, acc, bytes⟩ := registersSame_advance (s.countersSet q cs)
  exact ⟨w, v, m, acc, fun p => (bytes p).trans (sameBytes_countersSet s q cs p)⟩

/-- What a snapshot shows of the core: its store is the only one that waits, and the context goes on. -/
theorem snapped_frame (stay : s.issue.stay = false) (sb : s.me.sb = []) (o : Nat) {u : State}
    (shape : u = s.snapped o ∨ ∃ q cs, u = (s.snapped o).countersSet q cs) :
    WentOn s u.advance ∧ SameW s u.advance ∧ u.advance.me.sb = [⟨s.ctx, [⟨.spad s.cur o, localAddr o, .dflt,
      storeBytes (counterBytes (s.quire s.myQuire).counters)⟩]⟩] := by
  obtain ⟨went, regs, -, buffer⟩ :=
    stored_frame (s := s) (u := s) stay rfl rfl rfl rfl sb o (counterBytes (s.quire s.myQuire).counters)
  rcases shape with rfl | ⟨q, cs, rfl⟩
  · exact ⟨went, regs, buffer⟩
  · exact ⟨went, regs, buffer⟩

end

theorem routingCounters : Claims.RoutingCounters := by
  intro s a b o sb k cs snap ph stay
  refine ⟨fun low => ⟨_, cinc_run ph low, wentOn_advance _ _ stay rfl, registersSame_countersSet .., ?_⟩,
    fun own => ⟨_, M.run_ok (snapshot_run ph own false), snapped_frame stay sb o (.inl rfl), rfl⟩,
    fun own => ⟨_, M.run_ok (snapshot_run ph own true), snapped_frame stay sb o (.inr ⟨_, _, rfl⟩), fun i => ?_⟩⟩
  · exact s.countersSet_same s.myQuire _
  · have cleared : (((s.snapped o).countersSet s.myQuire (.replicate 64 0)).quire s.myQuire).counters = .replicate 64 0 :=
      State.countersSet_same ..
    exact (congrArg (fun v : Vector Word 64 => v[i]) cleared).trans (by simp)

end Sys2Proof.Machine
end

section
/-! SUPPORT. The attached worklists as a table, and what their steps leave as it is (13, R358 to R365). -/

namespace Sys2Proof.Machine

/-! ### A worklist read after a change -/

theorem find?_mapPut_same {α : Type} (m : List (Nat × α)) (k : Nat) (v : α) :
    (mapPut m k v).find? (fun x => x.1 = k) = some (k, v) := by
  induction m with
  | nil => simp [mapPut]
  | cons x r ih =>
    obtain ⟨j, u⟩ := x
    by_cases same : j = k
    · simp [mapPut, same]
    · by_cases before : k < j
      · simp [mapPut, same, before]
      · simpa [mapPut, same, before] using ih
theorem find?_mapPut_ne {α : Type} {k j : Nat} (other : j ≠ k) (m : List (Nat × α)) (v : α) :
    (mapPut m k v).find? (fun x => x.1 = j) = m.find? (fun x => x.1 = j) := by
  induction m with
  | nil => simp [mapPut, other.symm]
  | cons x r ih =>
    obtain ⟨i, u⟩ := x
    by_cases same : i = k
    · simp [mapPut, same, other.symm]
    · by_cases before : k < i
      · simp [mapPut, same, before, other.symm]
      · by_cases found : i = j
        · subst found
          simp [mapPut, other, before]
        · simpa [mapPut, same, before, found] using ih

section
variable {s t : State} {wid : Nat} {w : Worklist}

@[simp] theorem State.wl?_setWl_same (s : State) (wid : Nat) (w : Worklist) : (s.setWl wid w).wl? wid = some w := by
  rw [State.wl?, State.setWl, find?_mapPut_same]
  rfl
theorem State.wl?_setWl_ne (s : State) {wid k : Nat} (w : Worklist) (other : k ≠ wid) : (s.setWl wid w).wl? k = s.wl? k := by
  rw [State.wl?, State.setWl, find?_mapPut_ne other]
  rfl
theorem State.onWl_eq (found : s.wl? wid = some w) (f : Worklist → Worklist) : s.onWl wid f = s.setWl wid (f w) := by
  rw [State.onWl, found]
theorem State.wl?_congr (wls : t.wls = s.wls) (k : Nat) : t.wl? k = s.wl? k := by
  rw [State.wl?, wls]
  rfl
theorem State.wl?_onWl_same (found : s.wl? wid = some w) (f : Worklist → Worklist) : (s.onWl wid f).wl? wid = some (f w) := by
  rw [State.onWl_eq found, State.wl?_setWl_same]
theorem OnlyWakes.wls (h : OnlyWakes s t) : t.wls = s.wls := (congrArg State.wls h.rest :)
theorem OnlyWakes.service (h : OnlyWakes s t) : t.service = s.service := (congrArg State.service h.rest :)
theorem OnlyWakes.wl? (h : OnlyWakes s t) (k : Nat) : t.wl? k = s.wl? k := State.wl?_congr h.wls k
theorem Roused.wls (h : Roused s t) : t.wls = s.wls := (congrArg State.wls h.rest :)
theorem Roused.wl? (h : Roused s t) (k : Nat) : t.wl? k = s.wl? k := State.wl?_congr h.wls k

/-! ### What a step of a worklist keeps -/

/-- No core's registers, program counters or way of running differ. -/
def Steady (s t : State) : Prop :=
  ∀ c (x : Fin 11), (t.core c).ctxs[x].w = (s.core c).ctxs[x].w ∧ (t.core c).ctxs[x].pc = (s.core c).ctxs[x].pc ∧
    (t.core c).csr = (s.core c).csr ∧ (t.core c).run = (s.core c).run

theorem Steady.of_cores (h : t.cores = s.cores) : Steady s t := fun c x => by simp [State.core, h]
theorem Steady.trans {u : State} (h : Steady s t) (g : Steady t u) : Steady s u := fun c x => by
  obtain ⟨w, pc, csr, run⟩ := h c x
  obtain ⟨w', pc', csr', run'⟩ := g c x
  exact ⟨w'.trans w, pc'.trans pc, csr'.trans csr, run'.trans run⟩
theorem OnlyWakes.steady (h : OnlyWakes s t) : Steady s t := fun c x => by
  rw [h.ctxs c x, h.core c]
  exact ⟨rfl, rfl, rfl, rfl⟩
theorem Roused.steady (h : Roused s t) : Steady s t := fun c x => by
  rw [h.core c]
  exact ⟨rfl, rfl, rfl, rfl⟩

end

/-! ### The least of a list -/

theorem least_nil_iff (l : List Nat) : least l = none ↔ l = [] := by
  cases l <;> simp [least]
theorem least_eq_min? (l : List Nat) : least l = l.min? := by
  cases l <;> rfl
/-- The least of a list is the member that lies at or below all. -/
theorem least_eq {l : List Nat} {m : Nat} (mem : m ∈ l) (low : ∀ b ∈ l, m ≤ b) : least l = some m := by
  rw [least_eq_min?]
  exact List.min?_eq_some_iff.2 ⟨mem, low⟩

end Sys2Proof.Machine
end

section
/-! SUPPORT. The steps of worklists: lowerings, epochs, sweeps and lost partners (13, R358 to R365). -/

namespace Sys2Proof.Machine

section
variable {s : State} {wid : Nat} {w : Worklist}

/-! ### A lowering reaches an agent -/

/-- V at a quire's agent lowered to a bucket. -/
def Worklist.loweredAt (w : Worklist) (q m : Nat) : Worklist := { w with lows := mapPut w.lows q (lowerTo (w.view q) m) }

theorem Worklist.view_loweredAt_same (w : Worklist) (q m : Nat) : (w.loweredAt q m).view q =
    some (match w.view q with | some v => if v ≤ m then v else m | none => m) := by
  have read : (w.loweredAt q m).view q = lowerTo (w.view q) m := mapGet_mapPut_same ..
  rw [read]
  cases w.view q with
  | none => rfl
  | some v => exact congrArg some (Nat.min_def ..)
theorem Worklist.view_loweredAt_ne (w : Worklist) {q k : Nat} (m : Nat) (other : k ≠ q) : (w.loweredAt q m).view k = w.view k :=
  mapGet_mapPut_ne _ _ _ _ _ other

theorem lowLowering_of_least (found : s.wl? s.turn.unit = some w) {m : Nat} (low : least (s.contributions s.turn.unit) = some m) :
    exec .lowLoweringBroadcast s = .next (s.setWl s.turn.unit (w.loweredAt s.turn.index m)) := by
  have run : exec .lowLoweringBroadcast s = execLowLoweringBroadcast s := rfl
  rw [run, execLowLoweringBroadcast, low]
  exact congrArg Host.Outcome.next (State.onWl_eq found _)
theorem lowLowering_of_none (none : s.contributions s.turn.unit = []) : exec .lowLoweringBroadcast s = .next s := by
  have run : exec .lowLoweringBroadcast s = execLowLoweringBroadcast s := rfl
  rw [run, execLowLoweringBroadcast, none]
  rfl

/-! ### An epoch -/

/-- An epoch has set every V since the context posted to the worklist. -/
def Ctx.reached (wid : Nat) (k : Ctx) : Ctx := { k with posted := k.posted.map fun p => if p.1 = wid then (p.1, none) else p }
def State.epochReached (s : State) (wid : Nat) : State :=
  { s with cores := s.cores.map fun c => (c.1, { c.2 with ctxs := c.2.ctxs.map (Ctx.reached wid) }) }

theorem mapGet_map {α : Type} (f : α → α) (m : List (Nat × α)) (k : Nat) {d : α} (fixed : f d = d) :
    mapGet (m.map fun x => (x.1, f x.2)) k d = f (mapGet m k d) := by
  induction m with
  | nil => exact fixed.symm
  | cons x r ih =>
    obtain ⟨j, u⟩ := x
    by_cases here : j = k
    · simp [mapGet, here]
    · simpa [mapGet, here] using ih
theorem Ctx.reached_of_unposted {k : Ctx} (unposted : k.posted = none) (wid : Nat) : k.reached wid = k := by
  rw [Ctx.reached, unposted]
  exact congrArg (fun p => { k with posted := p }) unposted.symm
theorem map_reached_of_unposted {ctxs : Vector Ctx 11} (unposted : ∀ x : Fin 11, ctxs[x].posted = none) (wid : Nat) :
    ctxs.map (Ctx.reached wid) = ctxs :=
  Vector.ext fun i hi => (Vector.getElem_map ..).trans (Ctx.reached_of_unposted (unposted ⟨i, hi⟩) wid)
theorem core_epochReached (s : State) (wid n : Nat) :
    (s.epochReached wid).core n = { s.core n with ctxs := (s.core n).ctxs.map (Ctx.reached wid) } := by
  have fixed : (Core.reset n).ctxs.map (Ctx.reached wid) = (Core.reset n).ctxs :=
    map_reached_of_unposted (fun x => congrArg Ctx.posted (Vector.getElem_replicate x.isLt)) wid
  exact mapGet_map (fun c : Core => { c with ctxs := c.ctxs.map (Ctx.reached wid) }) s.cores n (by rw [fixed])
theorem steady_epochReached (s : State) (wid : Nat) : Steady s (s.epochReached wid) := fun c x => by
  rw [core_epochReached]
  simp [Ctx.reached]
/-- Where no context has posted an epoch changes no core. -/
theorem cores_epochReached (unposted : ∀ c ∈ s.cores, ∀ x : Fin 11, c.2.ctxs[x].posted = none) :
    (s.epochReached wid).cores = s.cores := by
  refine (List.map_congr_left fun c mem => ?_).trans (List.map_id s.cores)
  rw [map_reached_of_unposted (unposted c mem)]
  rfl

theorem Roused.idle {t : State} (h : Roused s t) (c : Nat) : t.idle c = s.idle c := by
  rw [h.rest]
  have core := h.core c
  simp only [State.idle, State.inService]
  have e : ({ s with cores := t.cores } : State).core c = t.core c := rfl
  rw [e, core]
  rfl
theorem wakeFirst_keepsWake (cs : List Nat) (n : Nat) {c : Nat} (woken : (s.core c).wake = true) :
    ((s.wakeFirst cs n).core c).wake = true := by
  induction cs generalizing s n with
  | nil => cases n <;> exact woken
  | cons d r ih =>
    cases n with
    | zero => exact woken
    | succ n =>
      unfold State.wakeFirst
      split
      · refine ih _ ?_
        by_cases same : c = d
        · rw [same, State.core_onCore_same]; rfl
        · rw [State.core_onCore_ne _ _ _ _ same]; exact woken
      · exact ih _ woken
/-- A wake for as many cores as are listed reaches each listed idle core. -/
theorem wakeFirst_wakes (cs : List Nat) (n : Nat) (enough : cs.length ≤ n) {c : Nat} (listed : c ∈ cs) (idle : s.idle c = true) :
    ((s.wakeFirst cs n).core c).wake = true := by
  induction cs generalizing s n with
  | nil => cases listed
  | cons d r ih =>
    cases n with
    | zero => simp at enough
    | succ n =>
      have rest : r.length ≤ n := Nat.le_of_succ_le_succ enough
      unfold State.wakeFirst
      split
      · by_cases same : c = d
        · refine wakeFirst_keepsWake r n ?_
          rw [same, State.core_onCore_same]; rfl
        · exact ih n rest (List.mem_of_ne_of_mem same listed) (((roused_awaken s d).idle c).trans idle)
      · rename_i unmet
        by_cases same : c = d
        · subst same
          refine wakeFirst_keepsWake r (n + 1) ?_
          simpa [idle] using unmet
        · exact ih (n + 1) (rest.trans (Nat.le_succ n)) (List.mem_of_ne_of_mem same listed) idle

/-- The state in which an epoch has made V a value at every agent. -/
def State.epochSet (s : State) (wid : Nat) (w : Worklist) (m : Option Nat) : State :=
  (s.epochReached wid).setWl wid { w with low := m, lows := [] }
/-- An epoch raises V at a quire's agent. -/
def Worklist.rises (w : Worklist) (m : Option Nat) (q : Nat) : Bool :=
  match w.view q, m with | some v, some b => decide (v < b) | some _, none => true | none, _ => false
/-- The cores that an epoch's rise wakes. -/
def Worklist.placed (w : Worklist) : List Nat := w.place.flatMap fun q => (List.range 96).map fun i => q * 96 + i

/-- An epoch of a worklist without partners. -/
theorem epoch_run (found : s.wl? s.turn.unit = some w) (alone : w.pq = []) {m : Option Nat}
    (low : least (s.contributions s.turn.unit) = m) : exec .worklistEpoch s =
      .next (if s.service.any (w.rises m) then (s.epochSet s.turn.unit w m).wakeFirst w.placed (w.place.length * 96)
        else s.epochSet s.turn.unit w m) := by
  subst low
  have run : exec .worklistEpoch s = execWorklistEpoch s := rfl
  have none : w.pq.isEmpty = true := by rw [alone]; rfl
  rw [run, execWorklistEpoch, found]
  simp only [none, Bool.true_or, if_true]
  rfl
/-- What every epoch of a worklist without partners leaves. -/
theorem epoch_frame (w : Worklist) (m : Option Nat) (p : Bool) (cs : List Nat) (n : Nat) :
    let t := if p then (s.epochSet wid w m).wakeFirst cs n else s.epochSet wid w m
    t.wl? wid = some { w with low := m, lows := [] } ∧ Steady s t ∧ t.hbm = s.hbm := by
  have set : (s.epochSet wid w m).wl? wid = some { w with low := m, lows := [] } := State.wl?_setWl_same ..
  have steady : Steady s (s.epochSet wid w m) := steady_epochReached s wid
  cases p with
  | false => exact ⟨set, steady, rfl⟩
  | true =>
    have roused := roused_wakeFirst (s.epochSet wid w m) cs n
    exact ⟨(roused.wl? wid).trans set, steady.trans roused.steady, (congrArg State.hbm roused.rest :)⟩
theorem idle_epochSet (s : State) (wid : Nat) (w : Worklist) (m : Option Nat) (c : Nat) : (s.epochSet wid w m).idle c = s.idle c := by
  have core : (s.epochSet wid w m).core c = _ := core_epochReached s wid c
  simp only [State.idle, core]
  rfl
theorem mem_placed {c : Nat} (place : w.place = [c / 96]) : c ∈ w.placed := by
  simp only [Worklist.placed, place, List.flatMap_singleton, List.mem_map, List.mem_range]
  exact ⟨c % 96, Nat.mod_lt _ (by decide), Nat.div_add_mod' c 96⟩
theorem length_placed (w : Worklist) : w.placed.length = w.place.length * 96 := by
  simp [Worklist.placed, List.length_flatMap]

end

end Sys2Proof.Machine
end

section
/-! SUPPORT. A part's store at the home of any binding where no cache holds a line (12, R317, R334). -/

namespace Sys2Proof.Machine

section
variable {s : State} (cold : Cold s)
include cold

theorem putLines_home (h a : Nat) (bs : List Byte) (n : Nat) :
    (List.range n).foldl (fun t i => t.sliceStore h ((a / 64 + i) * 64) (cutRun a (storeBytes bs) ((a / 64 + i) * 64) 64).1
      (cutRun a (storeBytes bs) ((a / 64 + i) * 64) 64).2 false) s = s.putLines a bs n := by
  induction n with
  | zero => rfl
  | succ n ih =>
    rw [List.range_succ, List.foldl_append, ih, putLines_succ]
    exact sliceStore_cold (cold.of_quires (onlyHbm_putLines s a bs n).quires) h _ _ _

theorem uncStore_cold (wf : Memory.wf s.hbm = true) (h a : Nat) (bs : List Byte) :
    let t := s.uncStore h none a (storeBytes bs)
    OnlyHbm s t ∧ Memory.wf t.hbm = true ∧ Laid (Memory.get s.hbm) (Memory.get t.hbm) a bs := by
  have length : (storeBytes bs).length = bs.length := by simp [storeBytes]
  have all : bs.take ((a / 64 + (a % 64 + bs.length + 64 - 1) / 64) * 64 - a) = bs := List.take_of_length_le (by omega)
  simp only [State.uncStore, recallOwned_cold cold, State.homeStore, lineBases, List.foldl_map, length]
  obtain ⟨only, hbm⟩ := onlyHbm_recallHost s h a bs.length
  have coldR := cold.of_quires only.quires
  generalize s.recallHost h a bs.length = r at only hbm coldR
  rw [← hbm] at wf ⊢
  rw [putLines_home coldR]
  obtain ⟨wf', laid⟩ := putLines_laid wf a bs ((a % 64 + bs.length + 64 - 1) / 64)
  rw [all] at laid
  have lines := onlyHbm_putLines r a bs ((a % 64 + bs.length + 64 - 1) / 64)
  generalize r.putLines a bs ((a % 64 + bs.length + 64 - 1) / 64) = u at wf' laid lines
  refine ⟨(only.trans lines).trans (onlyHbm_wakeWatches u _ none).1, ?_, ?_⟩
  · rw [(onlyHbm_wakeWatches u _ none).2]
    exact wf'
  · rw [(onlyHbm_wakeWatches u _ none).2]
    exact laid

theorem homeCell_cold (h a : Nat) : s.homeCell h a = (Memory.get s.hbm a, s.badHbm.contains (a / 8)) := by
  rw [State.homeCell, homeLine_cold cold]
theorem byteAt_cold (a b : Nat) : s.byteAt (.hbm a b) = Memory.get s.hbm a := by
  rw [State.byteAt, homeCell_cold cold]
theorem partLoad_cold (b a n : Nat) : s.partLoad b a n = (s, Memory.read s.hbm a n) := by
  have bytes : s.homeBytes (s.homeBinding b a) a n = Memory.read s.hbm a n := by
    refine List.ext_getElem? fun i => ?_
    rw [Memory.read_getElem]
    by_cases inside : i < n <;> simp [State.homeBytes, State.homeCells, homeCell_cold cold, inside]
  rw [State.partLoad, State.uncLoad, recallOwned_cold cold, bytes]

end

/-- The bytes read from where a run is laid are its first. -/
theorem Laid.read {f : Nat → Byte} {m : Memory} {a n : Nat} {bs : List Byte} (laid : Laid f (Memory.get m) a bs) (fits : n ≤ bs.length) :
    Memory.read m a n = bs.take n := by
  refine List.ext_getElem? fun i => ?_
  rw [Memory.read_getElem, List.getElem?_take]
  by_cases inside : i < n
  · rw [if_pos inside, if_pos inside, laid.inside (inside.trans_le fits), List.getD_eq_getElem?_getD,
      List.getElem?_eq_getElem (inside.trans_le fits)]
    rfl
  · rw [if_neg inside, if_neg inside]

end Sys2Proof.Machine
end

section
/-! SUPPORT. Sweeps of worklists, and what they write (13, R364, R365; Table 13.9). -/

namespace Sys2Proof.Machine

section
variable {s : State} {wid : Nat} {w w' : Worklist}

/-! ### STATUS -/

/-- The value of LOW in STATUS. -/
def State.statusLow (s : State) (wid : Nat) (w : Worklist) : Nat :=
  if (s.contributions wid).isEmpty then 0xFFFFFFFF else (s.leastView w).getD 0xFFFFFFFF
/-- The fields of STATUS, and with its zero bytes. -/
def State.statusFields (s : State) (wid : Nat) (w : Worklist) : List Byte :=
  toBytes 8 w.pushed ++ toBytes 8 w.taken ++ toBytes 8 w.dsent ++ toBytes 8 w.dclaim ++ toBytes 4 (s.statusLow wid w)
    ++ toBytes 1 w.status ++ toBytes 1 wid ++ toBytes 2 0 ++ toBytes 8 w.sweeps
def State.statusBytes (s : State) (wid : Nat) (w : Worklist) : List Byte := s.statusFields wid w ++ List.replicate 80 0

theorem length_statusFields (s : State) (wid : Nat) (w : Worklist) : (s.statusFields wid w).length = 0x30 := by
  simp [State.statusFields, toBytes_length]
theorem length_statusBytes (s : State) (wid : Nat) (w : Worklist) : (s.statusBytes wid w).length = 0x80 := by
  simp [State.statusBytes, length_statusFields]
theorem writeStatus_eq (found : s.wl? wid = some w) :
    s.writeStatus wid = s.uncStore (s.homeBinding w.bind (w.record + 0x80)) none (w.record + 0x80) (storeBytes (s.statusBytes wid w)) := by
  rw [State.writeStatus, found]
  rfl
theorem onlyWakes_writeStatus (s : State) (wid : Nat) : OnlyWakes s (s.writeStatus wid) := by
  unfold State.writeStatus
  split
  · exact .refl s
  · exact onlyWakes_uncStore ..
/-- Where no cache holds a line STATUS stands in its memory, and no other byte differs. -/
theorem writeStatus_cold (cold : Cold s) (wf : Memory.wf s.hbm = true) (found : s.wl? wid = some w) :
    OnlyHbm s (s.writeStatus wid) ∧
      Memory.read (s.writeStatus wid).hbm (w.record + 0x80) 0x30 = s.statusFields wid w ∧
      ∀ a, (a < w.record + 0x80 ∨ w.record + 0x100 ≤ a) → Memory.get (s.writeStatus wid).hbm a = Memory.get s.hbm a := by
  rw [writeStatus_eq found]
  obtain ⟨only, -, laid⟩ := uncStore_cold cold wf (s.homeBinding w.bind (w.record + 0x80)) (w.record + 0x80) (s.statusBytes wid w)
  refine ⟨only, ?_, fun a outside => laid.outside ?_⟩
  · rw [laid.read (by rw [length_statusBytes]; decide), State.statusBytes,
      List.take_append_of_le_length (length_statusFields s wid w).ge, ← length_statusFields s wid w, List.take_length]
  · rw [length_statusBytes]
    omega

/-! ### What a sweep counts -/

theorem spilled_cold (cold : Cold s) (w : Worklist) (i : Nat) :
    s.spilled w i = .ofBytes (Memory.read s.hbm (w.spillAddr i).1 16) := by
  rw [State.spilled]
  exact congrArg (fun x : State × List Byte => Entry.ofBytes x.2) (partLoad_cold cold ..)
/-- The record of a sweep, of its end and of the status stands in no count. -/
theorem contributions_setWl (cold : Cold s) (found : s.wl? wid = some w)
    (same : w' = { w with last := w'.last, found := w'.found, asks := w'.asks, sweeps := w'.sweeps, status := w'.status }) :
    (s.setWl wid w').contributions wid = s.contributions wid := by
  have cold' : Cold (s.setWl wid w') := cold
  rw [State.contributions, State.contributions, State.wl?_setWl_same, found]
  simp only [State.entriesOf, State.slotBuckets, spilled_cold cold, spilled_cold cold']
  rw [same]
  rfl
theorem countsZero_setWl (cold : Cold s) (found : s.wl? wid = some w)
    (same : w' = { w with last := w'.last, found := w'.found, asks := w'.asks, sweeps := w'.sweeps, status := w'.status }) :
    (s.setWl wid w').countsZero wid = s.countsZero wid := by
  rw [State.countsZero, contributions_setWl cold found same]
  rfl

/-! ### The end of a sweep -/

/-- The sweep that begins now and finds no partner to ask. -/
def State.sweepNow (s : State) (wid : Nat) (w : Worklist) : Sweep := ⟨s.countsZero wid, w.pushed, w.taken, []⟩
/-- A sweep's counts agree with those of the one before, and are quiet. -/
def State.sweepQuiet (s : State) (wid : Nat) (w : Worklist) : Bool :=
  w.status ≠ 2 && s.countsZero wid &&
    match w.last with | some old => sweepsAgree w.sys old (s.sweepNow wid w) w.dsent w.dclaim | none => false
/-- The worklist when a sweep without partners has ended. -/
def State.swept (s : State) (wid : Nat) (w : Worklist) : Worklist :=
  { w with last := some (s.sweepNow wid w), found := none, asks := [], sweeps := w.sweeps + 1
           status := if s.sweepQuiet wid w then 1 else w.status }

theorem State.setWl_setWl (s : State) (wid : Nat) (w w' : Worklist) : (s.setWl wid w).setWl wid w' = s.setWl wid w' := by
  simp only [State.setWl, mapPut_mapPut]
/-- The state in which a sweep has begun. -/
def State.sweeping (s : State) (wid : Nat) (w : Worklist) : State :=
  s.setWl wid { w with found := some (s.sweepNow wid w), asks := [] }

theorem endSweep_sweeping (cold : Cold s) (found : s.wl? wid = some w) : (s.sweeping wid w).endSweep wid =
    if s.sweepQuiet wid w then ((s.setWl wid (s.swept wid w)).writeStatus wid).fireRegs wid { w with found := some (s.sweepNow wid w), asks := [] }
    else (s.setWl wid (s.swept wid w)).writeStatus wid := by
  have listed : (s.sweeping wid w).wl? wid = some { w with found := some (s.sweepNow wid w), asks := [] } := State.wl?_setWl_same ..
  have zero : (s.sweeping wid w).countsZero wid = s.countsZero wid := countsZero_setWl cold found rfl
  rw [State.endSweep, listed]
  have again (x : Worklist) : (s.sweeping wid w).setWl wid x = s.setWl wid x := State.setWl_setWl ..
  simp only [zero, again, State.swept, State.sweepQuiet, State.sweepNow, decide_true, Bool.and_true]
  rfl

theorem sweep_run (cold : Cold s) (found : s.wl? s.turn.unit = some w) (alone : w.pq = []) (begun : w.found = none) (regs : w.regs = []) :
    let u := (s.setWl s.turn.unit (s.swept s.turn.unit w)).writeStatus s.turn.unit
    exec .worklistSweep s = .next (if s.sweepQuiet s.turn.unit w then u.onWl s.turn.unit fun w => { w with regs := [] } else u) := by
  have run : exec .worklistSweep s = execWorklistSweep s := rfl
  have ended := endSweep_sweeping cold found
  simp only [State.fireRegs, regs, List.foldl_nil, State.sweeping, State.sweepNow, alone] at ended
  simp only [run, execWorklistSweep, found, alone, begun, regs, List.length_nil, Option.isSome_none, Nat.mul_zero, Nat.not_lt_zero,
    decide_false, Bool.or_false, Bool.false_eq_true, if_false, if_true]
  exact congrArg Host.Outcome.next ended

theorem sweepsAgree_device (a b : Sweep) (dsent dclaim : Nat) : sweepsAgree false a b dsent dclaim = true ↔
    a.quiet = true ∧ b.quiet = true ∧ a.pushed = b.pushed ∧ a.taken = b.taken ∧ b.pushed = b.taken := by
  simp [sweepsAgree, and_assoc]
theorem sweepQuiet_iff (device : w.sys = false) : s.sweepQuiet wid w = true ↔
    w.status ≠ 2 ∧ s.countsZero wid = true ∧ w.pushed = w.taken ∧ ∃ old, w.last = some old ∧ old.quiet = true ∧
      old.pushed = w.pushed ∧ old.taken = w.taken := by
  cases last : w.last with
  | none => simp [State.sweepQuiet, last]
  | some old =>
    simp only [State.sweepQuiet, last, device, Bool.and_eq_true, decide_eq_true_eq, sweepsAgree_device, Option.some.injEq,
      exists_eq_left']
    show (_ ∧ _) ∧ old.quiet = true ∧ s.countsZero wid = true ∧ old.pushed = w.pushed ∧ old.taken = w.taken ∧ w.pushed = w.taken ↔ _
    tauto

/-- The worklist after a sweep without partners, and what the sweep leaves. -/
theorem sweep_frame (cold : Cold s) (wf : Memory.wf s.hbm = true) (found : s.wl? wid = some w) (regs : w.regs = []) :
    let u := (s.setWl wid (s.swept wid w)).writeStatus wid
    let t := if s.sweepQuiet wid w then u.onWl wid fun w => { w with regs := [] } else u
    t.wl? wid = some (s.swept wid w) ∧ Steady s t ∧
      Memory.read t.hbm (w.record + 0x80) 0x30 = s.statusFields wid (s.swept wid w) ∧
      ∀ a, (a < w.record + 0x80 ∨ w.record + 0x100 ≤ a) → t.byteAt (.hbm a 0) = s.byteAt (.hbm a 0) := by
  have listed : (s.setWl wid (s.swept wid w)).wl? wid = some (s.swept wid w) := State.wl?_setWl_same ..
  obtain ⟨only, fields, outside⟩ := writeStatus_cold (s := s.setWl wid (s.swept wid w)) cold wf listed
  have low : (s.setWl wid (s.swept wid w)).statusFields wid (s.swept wid w) = s.statusFields wid (s.swept wid w) := by
    simp only [State.statusFields, State.statusLow, contributions_setWl (w' := s.swept wid w) cold found rfl]
    rfl
  rw [low] at fields
  have steady := only.wakes.steady
  have kept := (only.wakes.wl? wid).trans listed
  have cold' : Cold ((s.setWl wid (s.swept wid w)).writeStatus wid) := cold.of_quires only.quires
  generalize (s.setWl wid (s.swept wid w)).writeStatus wid = u at *
  have bytes (a : Nat) (out : a < w.record + 0x80 ∨ w.record + 0x100 ≤ a) : u.byteAt (.hbm a 0) = s.byteAt (.hbm a 0) := by
    rw [byteAt_cold cold', byteAt_cold cold]
    exact outside a out
  cases s.sweepQuiet wid w with
  | false => exact ⟨kept, steady, fields, bytes⟩
  | true =>
    refine ⟨?_, ?_, ?_, ?_⟩
    · rw [if_pos rfl, State.wl?_onWl_same kept]
      exact congrArg some (by rw [State.swept, regs])
    · rw [if_pos rfl, State.onWl_eq kept]
      exact steady
    · rw [if_pos rfl, State.onWl_eq kept]
      exact fields
    · rw [if_pos rfl, State.onWl_eq kept]
      exact bytes

/-! ### A partner that does not answer -/

/-- The worklist when a partner is lost. -/
def Worklist.lost (w : Worklist) (partner : Nat) : Worklist :=
  { w with status := 2, asks := w.asks.filter fun a => a.partner ≠ partner
           donated := w.donated.filter fun d => d.1 ≠ (w.pq.getD partner (0, 0)).1 }

/-- A sweep of a worklist that has lost a partner agrees with none. -/
theorem endSweep_lost (found : s.wl? wid = some w) (lost : w.status = 2) (asks : w.asks = []) :
    ∃ u, ((s.endSweep wid).wl? wid = some u ∧ u.status = 2 ∧ u.asks = [] ∧ u.donated = w.donated) ∧ Steady s (s.endSweep wid) := by
  rw [State.endSweep, found]
  cases begun : w.found with
  | none => exact ⟨w, ⟨by simpa only [begun] using found, lost, asks, rfl⟩, by simpa only [begun] using Steady.of_cores rfl⟩
  | some now =>
    simp only [begun, lost, ne_eq, not_true_eq_false, decide_false, Bool.false_and, Bool.false_eq_true, if_false]
    have wakes := onlyWakes_writeStatus (s.setWl wid { w with
      last := some now, found := none, asks := [], sweeps := w.sweeps + 1, status := 2 }) wid
    exact ⟨_, ⟨(wakes.wl? wid).trans (State.wl?_setWl_same ..), rfl, rfl, rfl⟩, wakes.steady⟩
theorem partnerSilent_frame (found : s.wl? wid = some w) (partner : Nat) :
    ∃ u, ((s.partnerSilent wid partner).wl? wid = some u ∧ u.status = 2 ∧ u.asks = (w.lost partner).asks ∧
      u.donated = (w.lost partner).donated) ∧ Steady s (s.partnerSilent wid partner) := by
  have silent : s.partnerSilent wid partner = if (w.lost partner).asks.isEmpty then (s.setWl wid (w.lost partner)).endSweep wid
      else s.setWl wid (w.lost partner) := by
    rw [State.partnerSilent, found]
    rfl
  have listed : (s.setWl wid (w.lost partner)).wl? wid = some (w.lost partner) := State.wl?_setWl_same ..
  rw [silent]
  split
  · rename_i none
    have none := List.isEmpty_iff.1 none
    obtain ⟨u, ⟨kept, status, asks, donated⟩, steady⟩ := endSweep_lost listed rfl none
    exact ⟨u, ⟨kept, status, asks.trans none.symm, donated⟩, steady⟩
  · exact ⟨_, ⟨listed, rfl, rfl, rfl⟩, .of_cores rfl⟩
theorem partnerReadTimeout_run (found : s.wl? s.turn.unit = some w) : exec .partnerReadTimeout s =
    .next (if w.asks.any fun a => a.partner = s.turn.index then s.partnerSilent s.turn.unit s.turn.index else s) := by
  have run : exec .partnerReadTimeout s = execPartnerReadTimeout s := rfl
  rw [run, execPartnerReadTimeout, found]

end

/-- R358 to R365. -/
theorem worklistSteps : Claims.WorklistSteps := by
  intro s w id q cs kept quiet ended found
  refine ⟨fun m mem low => ?_, lowLowering_of_none, fun alone => ⟨fun empty => ?_, fun m mem low => ?_⟩, fun begun => ?_,
    fun ⟨device, alone, begun, regs⟩ wf bare => ?_, fun ⟨a, mem, asked⟩ => ?_, fun others => ?_⟩
  · exact ⟨_, w.loweredAt q m, lowLowering_of_least found (least_eq mem low), State.wl?_setWl_same .., w.view_loweredAt_same q m,
      fun k other => w.view_loweredAt_ne m other, rfl, fun k other => State.wl?_setWl_ne _ _ other, rfl, rfl⟩
  · obtain ⟨listed, steady, hbm⟩ := epoch_frame (s := s) (wid := id) w none (s.service.any (w.rises none)) w.placed (w.place.length * 96)
    exact ⟨_, epoch_run found alone ((least_nil_iff _).2 empty), listed, steady, hbm⟩
  · obtain ⟨listed, steady, hbm⟩ := epoch_frame (s := s) (wid := id) w (some m) (s.service.any (w.rises (some m))) w.placed (w.place.length * 96)
    refine ⟨_, epoch_run found alone (least_eq mem low), listed, steady, hbm, fun level unposted => ?_, fun k v c hk view rise place idle => ?_⟩
    · have quiet : s.service.any (w.rises (some m)) = false := by
        refine List.any_eq_false.2 fun k hk => ?_
        cases view : w.view k with
        | none => simp [Worklist.rises, view]
        | some v => simpa [Worklist.rises, view] using level k v hk view
      rw [if_neg (by rw [quiet]; exact Bool.false_ne_true)]
      exact cores_epochReached unposted
    · have rises : s.service.any (w.rises (some m)) = true := List.any_eq_true.2 ⟨k, hk, by simpa [Worklist.rises, view] using rise⟩
      rw [if_pos rises]
      exact wakeFirst_wakes _ _ (length_placed w).le (mem_placed place) ((idle_epochSet s id w (some m) c).trans idle)
  · have run : exec .worklistSweep s = execWorklistSweep s := rfl
    rw [run, execWorklistSweep, found]
    simp [begun]
  · have cold : Cold s := fun q => by
      rw [State.quire, bare]
      exact ⟨rfl, rfl, rfl⟩
    obtain ⟨listed, steady, fields, outside⟩ := sweep_frame cold wf.1 found regs
    refine ⟨_, s.swept id w, sweep_run cold found alone begun regs, listed, rfl, rfl, rfl, rfl, rfl, fun agree => ?_, fun differ => ?_,
      ⟨_, rfl, rfl, rfl, Iff.rfl⟩, steady, ?_, outside⟩
    · exact if_pos ((sweepQuiet_iff device).2 agree)
    · exact if_neg fun agree => differ ((sweepQuiet_iff device).1 agree)
    · have low : s.statusLow id (s.swept id w) = if cs = [] then 0xFFFFFFFF else (s.leastView w).getD 0xFFFFFFFF := by
        simp only [State.statusLow, List.isEmpty_iff]
        rfl
      rw [State.statusFields, low] at fields
      exact fields
  · obtain ⟨u, ⟨listed, status, asks, donated⟩, steady⟩ := partnerSilent_frame found s.turn.index
    have any : (w.asks.any fun a => a.partner = s.turn.index) = true := List.any_eq_true.2 ⟨a, mem, decide_eq_true asked⟩
    exact ⟨_, u, (partnerReadTimeout_run found).trans (by rw [if_pos any]), listed, status, asks, steady, donated⟩
  · have none : (w.asks.any fun a => a.partner = s.turn.index) = false :=
      List.any_eq_false.2 fun a mem => by simpa using others a mem
    exact (partnerReadTimeout_run found).trans (by rw [if_neg (by rw [none]; exact Bool.false_ne_true)])

end Sys2Proof.Machine
end

section
/-! SUPPORT. A push to a worklist: its count, its entry, and its lowering (06, R161; 13, R357, R361). -/

namespace Sys2Proof.Machine

section
variable {s u : State} {q d : Reg} {wid : Nat} {w : Worklist}

/-! ### The worklist of an operand -/

/-- The operand names a worklist, and its checks leave the issuing context as it is. -/
structure Names (s u : State) (q : Reg) (wid : Nat) (w : Worklist) : Prop where
  run : worklist (s.w q) s = .ok (wid, u)
  listed : u.wl? wid = some w
  cur : u.cur = s.cur
  ctx : u.ctx = s.ctx
  myCtx : u.myCtx = s.myCtx
  issue : u.issue = s.issue

theorem Names.myQuire (h : Names s u q wid w) : u.myQuire = s.myQuire := by rw [State.myQuire, h.cur]; rfl
theorem Names.sameW (h : Names s u q wid w) : SameW s u := fun r => by rw [State.w, h.myCtx]; rfl

/-! ### The issuing context changed -/

theorem keepsControl_onMyCtx (s : State) {f : Ctx → Ctx} (w : (f s.myCtx).w = s.myCtx.w) : KeepsControl s (s.onMyCtx f) := by
  have registers : KeepsW s (s.onCore s.cur fun c => { c with ctxs := c.ctxs.set s.ctx (f c.ctxs[s.ctx]) }) := by
    refine keepsW_onCore s s.cur _ fun x => ?_
    by_cases mine : x = s.ctx
    · subst mine
      exact (congrArg Ctx.w (Vector.getElem_set_self _)).trans w
    · exact congrArg Ctx.w (ctxs_set_ne _ mine _)
  exact ⟨rfl, by rw [State.csr, State.me_onMyCtx]; rfl, registers⟩
/-- The context goes on after what it has done. -/
theorem KeepsControl.advance {t : State} (h : KeepsControl s t) (stay : s.issue.stay = false) : WentOn s t.advance ∧ SameW s t.advance :=
  ⟨wentOn_advance s t stay h.issue, fun r => (State.w_advance t r).trans (h.registers.sameW r)⟩

/-! ### An entry enters an empty slot -/

/-- The worklist with an entry in the empty slot that a quire's pushes enter. -/
def Worklist.entered (w : Worklist) (q : Nat) (e : Entry) : Worklist :=
  { w.setSlot (w.slotOf q) ⟨w.bucket e, [(w.born, e)], []⟩ with
    pushed := w.pushed + 1, born := w.born + 1, status := if w.status = 1 then 0 else w.status }
/-- The cores that an entry in a slot may wake. -/
def slotCores (slot : Nat) : List Nat := (List.range 96).map fun i => slot * 96 + i

theorem Worklist.slot_setSlot_same (w : Worklist) (q : Nat) (x : Slot) : (w.setSlot q x).slot q = x := mapGet_mapPut_same ..
theorem Worklist.setSlot_setSlot (w : Worklist) (q : Nat) (x y : Slot) : (w.setSlot q x).setSlot q y = w.setSlot q y := by
  simp only [Worklist.setSlot, mapPut_mapPut]
theorem Worklist.slot_entered (w : Worklist) (q : Nat) (e : Entry) :
    (w.entered q e).slot (w.slotOf q) = ⟨w.bucket e, [(w.born, e)], []⟩ := mapGet_mapPut_same ..

theorem slotPush_empty (listed : s.wl? wid = some w) {r : Nat} {e : Nat × Entry} (empty : w.slot r = ⟨(w.slot r).wb, [], []⟩) :
    s.slotPush wid r e = some (s.setWl wid (w.setSlot r ⟨w.bucketOf e, [e], []⟩), true) := by
  have none : (w.slot r).entries.isEmpty = true ∧ (w.slot r).spill.isEmpty = true := by rw [empty]; exact ⟨rfl, rfl⟩
  rw [State.slotPush, listed]
  simp only [none, Bool.and_self, if_true, State.onWl_eq listed, State.onWl_eq (State.wl?_setWl_same ..), State.setWl_setWl,
    Worklist.slot_setSlot_same, Worklist.setSlot_setSlot]
  rw [empty]
  rfl
theorem wlEnter_empty (listed : s.wl? wid = some w) {r : Nat} {e : Entry}
    (empty : w.slot (w.slotOf r) = ⟨(w.slot (w.slotOf r)).wb, [], []⟩) :
    s.wlEnter wid r e = some ((s.setWl wid (w.entered r e)).wakeFirst (slotCores (w.slotOf r)) 1) := by
  rw [State.wlEnter, listed]
  simp only [slotPush_empty listed empty, Option.map_some, if_true, State.onWl_eq (State.wl?_setWl_same ..), State.setWl_setWl]
  rfl

/-! ### The lowering -/

theorem awaitLow_settled {b : Nat} (posted : s.myCtx.posted = some (wid, some b)) (listed : s.wl? wid = some w)
    (low : ∀ r ∈ s.service, ∃ v, w.view r = some v ∧ v ≤ b) :
    awaitLow s = .ok ((), s.onMyCtx fun c => { c with posted := none }) := by
  have settled : (s.service.all fun r => atMost (w.view r) b) = true := by
    refine List.all_eq_true.2 fun r hr => ?_
    obtain ⟨v, view, le⟩ := low r hr
    rw [view]
    exact decide_eq_true le
  rw [awaitLow, M.bind_ok (M.get_run s), posted]
  simp only [listed, settled, if_true]
  rfl
theorem awaitLow_none (posted : s.myCtx.posted = none) : awaitLow s = .ok ((), s) := by
  rw [awaitLow, M.bind_ok (M.get_run s), posted]
  rfl

/-! ### The push -/

/-- The entry of a push's operands. -/
def pushedEntry (x arg : Word) : Entry := ⟨x.toNat % 2 ^ 32, x.toNat / 2 ^ 32, arg⟩
theorem pushedEntry_eq (x arg : Word) : (⟨(x.extractLsb' 0 32).toNat, (x.extractLsb' 32 32).toNat, arg⟩ : Entry) = pushedEntry x arg := by
  have low : (x.extractLsb' 0 32).toNat = x.toNat % 2 ^ 32 := by simp
  have high : (x.extractLsb' 32 32).toNat = x.toNat / 2 ^ 32 := by
    have range := x.isLt
    rw [BitVec.extractLsb'_toNat, Nat.shiftRight_eq_div_pow]
    exact Nat.mod_eq_of_lt (by omega)
  rw [low, high]
  rfl

/-- What counts toward the low counts while a release that goes on is made. -/
theorem counting_release {c : Nat × Nat × Bool} {sc : Scope} (pending : NothingPending s) (free : s.forwardsHeld s.myQuire = false) :
    ∃ v, counting c (release sc) s = .ok ((), v) ∧ OnlyWakes (s.onMyCtx fun k => { k with counts := some c }) v := by
  obtain ⟨sb, -, -, peers, hand, -, -⟩ := pending
  have me := s.me_onMyCtx fun k => { k with counts := some c }
  have myCtx := s.myCtx_onMyCtx fun k => { k with counts := some c }
  have beside : Beside s (s.onMyCtx fun k => { k with counts := some c }) := rfl
  obtain ⟨v, run, wakes⟩ := releaseLost_run (s := s.onMyCtx fun k => { k with counts := some c }) (sc := sc)
    (fun _ => ⟨by rw [me]; exact peers, by rw [myCtx]; exact hand⟩) (by rw [me]; exact sb) ((beside.forwardsHeld _).trans free)
  refine ⟨v, ?_, wakes⟩
  have released : release sc (s.onMyCtx fun k => { k with counts := some c }) = .ok ((), v) := M.bind_ok run
  rw [counting, released]

/-- The state in which an entry has entered an empty slot. -/
def State.pushedIn (s : State) (wid : Nat) (w : Worklist) (r : Nat) (e : Entry) : State :=
  ((s.setWl wid (w.entered r e)).wakeFirst (slotCores (w.slotOf r)) 1).onMyCtx fun c => { c with counts := none }
/-- The state in which the lowering of an entry is on its way to the agents. -/
def State.posting (s : State) (wid b : Nat) : State := s.onMyCtx fun c => { c with posted := some (wid, some b) }
/-- The lowering has reached every agent. -/
def State.settledLow (s : State) : State := s.onMyCtx fun c => { c with posted := none }

theorem keepsControl_pushedIn (s : State) (wid : Nat) (w : Worklist) (r : Nat) (e : Entry) : KeepsControl s (s.pushedIn wid w r e) := by
  have roused := roused_wakeFirst (s.setWl wid (w.entered r e)) (slotCores (w.slotOf r)) 1
  have keeps : KeepsControl s ((s.setWl wid (w.entered r e)).wakeFirst (slotCores (w.slotOf r)) 1) :=
    ⟨roused.issue, by rw [State.csr, roused.me]; rfl, KeepsW.trans (t := s.setWl wid (w.entered r e)) ⟨rfl, rfl, fun _ _ => rfl⟩ roused.keepsW⟩
  exact keeps.trans (keepsControl_onMyCtx _ rfl)
theorem pushedIn_rest (s : State) (wid : Nat) (w : Worklist) (r : Nat) (e : Entry) :
    (s.pushedIn wid w r e).wl? wid = some (w.entered r e) ∧ (s.pushedIn wid w r e).service = s.service := by
  have roused := roused_wakeFirst (s.setWl wid (w.entered r e)) (slotCores (w.slotOf r)) 1
  exact ⟨(roused.wl? wid).trans (State.wl?_setWl_same ..), (congrArg State.service roused.rest :)⟩

theorem wlPush_run {a b : Reg} (names : Names s u q wid w) (ph : s.csr.ph = false) (pending : NothingPending u)
    (free : u.forwardsHeld u.myQuire = false) (posted : s.myCtx.posted = none) (kind : (pushedEntry (s.w a) (s.w b)).kind < w.kinds.length)
    (empty : w.slot (w.slotOf s.myQuire) = ⟨(w.slot (w.slotOf s.myQuire)).wb, [], []⟩)
    (low : ∀ r ∈ u.service, ∃ v, w.view r = some v ∧ v ≤ w.bucket (pushedEntry (s.w a) (s.w b))) :
    ∃ v, OnlyWakes (u.onMyCtx fun k => { k with counts := some (wid, w.bucket (pushedEntry (s.w a) (s.w b)), false) }) v ∧
      exec (.wlPush q a b) s =
        .next (((v.pushedIn wid w s.myQuire (pushedEntry (s.w a) (s.w b))).posting wid (w.bucket (pushedEntry (s.w a) (s.w b)))).settledLow).advance := by
  generalize he : pushedEntry (s.w a) (s.w b) = e at *
  obtain ⟨v, counted, wakes⟩ := counting_release (c := (wid, w.bucket e, false)) (sc := w.scope) pending free
  have listed : v.wl? wid = some w := (wakes.wl? wid).trans names.listed
  have unposted : u.myCtx.posted.isNone = true := by rw [names.myCtx, posted]; rfl
  have entered := wlEnter_empty (e := e) listed empty
  obtain ⟨listed', service⟩ := pushedIn_rest v wid w s.myQuire e
  have settled : awaitLow ((v.pushedIn wid w s.myQuire e).posting wid (w.bucket e)) = .ok ((), _) :=
    awaitLow_settled (wid := wid) (w := w.entered s.myQuire e) (b := w.bucket e)
      (congrArg Ctx.posted (State.myCtx_onMyCtx ..)) listed' fun r hr => low r (by
        have e : ((v.pushedIn wid w s.myQuire e).posting wid (w.bucket e)).service = u.service := service.trans wakes.service
        rwa [e] at hr)
  refine ⟨v, wakes, M.run_ok ?_⟩
  rw [M.bind_ok (barPhase_run ph), M.bind_ok (readW_run q s), M.bind_ok (readW_run a s), M.bind_ok (readW_run b s), M.bind_ok names.run,
    M.bind_ok (M.get_run u)]
  have kind' : ((s.w a).extractLsb' 32 32).toNat < w.kinds.length :=
    (congrArg Entry.kind ((pushedEntry_eq (s.w a) (s.w b)).trans he)).trans_lt kind
  simp only [unposted, if_true, M.bind_run, M.get_run, names.listed, pushedEntry_eq, he, need_run, kind', decide_true, counted, entered,
    M.set_run, post, M.modify_run]
  exact settled

end

end Sys2Proof.Machine
end

section
/-! SUPPORT. Pops that find nothing, `wl.low` and `wl.done` (06, R162 to R164). -/

namespace Sys2Proof.Machine

section
variable {s u : State} {q d a b : Reg} {wid : Nat} {w : Worklist}

theorem Names.goesOn (names : Names s u q wid w) (stay : s.issue.stay = false) {t : State} (keeps : KeepsControl u t) :
    WentOn s t.advance ∧ SameW s t.advance := by
  obtain ⟨-, regs⟩ := keeps.advance (by rw [names.issue]; exact stay)
  exact ⟨wentOn_advance s t stay (keeps.issue.trans names.issue), fun r => (regs r).trans (names.sameW r)⟩

/-! ### A pop that finds nothing -/

/-- The code of a pop that finds no entry. -/
def State.popCode (s : State) (w : Worklist) : Word := if s.entriesOf w ≠ [] then 2 else if w.status = 1 then 3 else 1

theorem wlPop_none (names : Names s u q wid w) (ctx : s.ctx = 0) (ph : s.csr.ph = false) (empty : u.search w s.myQuire = none) :
    exec (.wlPop d q) s = .next (u.setW d (u.popCode w)).advance := by
  have code : (if (!(u.entriesOf w).isEmpty) = true then (2 : Word) else if w.status = 1 then 3 else 1) = u.popCode w := by
    rw [State.popCode]
    cases u.entriesOf w <;> rfl
  refine M.run_ok ?_
  rw [M.bind_ok (controlOnly_run ctx), M.bind_ok (barPhase_run ph), M.bind_ok (readW_run q s), M.bind_ok names.run, M.bind_ok (M.get_run u)]
  simp only [names.listed, M.bind_run, M.get_run, empty, code, writeW_run]

/-! ### `wl.low` -/

/-- V as `wl.low` returns it. -/
def Worklist.lowWord (w : Worklist) (r : Nat) : Word := match w.view r with | some v => BitVec.ofNat 64 v | none => BitVec.allOnes 64

theorem wlLow_run (names : Names s u q wid w) (ph : s.csr.ph = false) :
    exec (.wlLow d q) s = .next (u.setW d (w.lowWord s.myQuire)).advance := by
  refine M.run_ok ?_
  rw [M.bind_ok (barPhase_run ph), M.bind_ok (readW_run q s), M.bind_ok names.run, M.bind_ok (M.get_run u)]
  simp only [names.listed, writeW_run]
  rfl

/-! ### `wl.done` -/

theorem wlDone_registers (names : Names s u q wid w) (ctx : s.ctx = 0) (ph : s.csr.ph = false)
    (valid : hasV ((s.w a).extractLsb' 0 32) = true) (ok : kettleOk ((s.w a).extractLsb' 0 32) = true) (room : w.regs.length < 4) :
    exec (.wlDone q a) s = .next (u.setWl wid (w.register ((s.w a).extractLsb' 0 32))).advance := by
  refine M.run_ok ?_
  rw [M.bind_ok (controlOnly_run ctx), M.bind_ok (barPhase_run ph), M.bind_ok (readW_run q s), M.bind_ok (readW_run a s), M.bind_ok names.run,
    M.bind_ok (M.get_run u)]
  simp only [names.listed, M.bind_run, kettleOperand_some valid ok, need_run, room, decide_true, if_true, M.modify_run, State.onWl_eq names.listed]

/-- The shares of a worklist's slots are their cores' own again. -/
def Core.slotReturned (c : Core) : Core :=
  { c with shares := c.shares.set 29 .own, spad := Memory.clear c.spad (29 * 0x2000) 0x2000
           bad := c.bad.filter fun d => d / 1024 ≠ 29 }
def State.slotsReturned (s : State) (wid : Nat) : State :=
  s.cores.foldl (fun u c => if c.2.shares[29] = .work wid then u.onCore c.1 Core.slotReturned else u) s
/-- The worklist is no longer attached. -/
def State.unlisted (s : State) (wid : Nat) : State := { s with wls := s.wls.filter fun x => x.1 ≠ wid }

theorem issue_slotsReturned (s : State) (wid : Nat) : (s.slotsReturned wid).issue = s.issue := by
  unfold State.slotsReturned
  generalize s.cores = cs
  induction cs generalizing s with
  | nil => rfl
  | cons c r ih =>
    rw [List.foldl_cons, ih]
    split <;> rfl
theorem wl?_unlisted (s : State) (wid : Nat) : (s.unlisted wid).wl? wid = none := by
  have none : (s.wls.filter fun x => x.1 ≠ wid).find? (fun x => x.1 = wid) = none := by simp
  exact congrArg (Option.map fun x : Nat × Worklist => x.2) none

theorem wlDone_detaches (names : Names s u q wid w) (ctx : s.ctx = 0) (ph : s.csr.ph = false)
    (invalid : hasV ((s.w a).extractLsb' 0 32) = false) (quiet : w.status = 1) :
    exec (.wlDone q a) s =
      .next ((((u.setWl wid { w with sweeps := w.sweeps + 1 }).writeStatus wid).slotsReturned wid).unlisted wid).advance := by
  refine M.run_ok ?_
  rw [M.bind_ok (controlOnly_run ctx), M.bind_ok (barPhase_run ph), M.bind_ok (readW_run q s), M.bind_ok (readW_run a s), M.bind_ok names.run,
    M.bind_ok (M.get_run u)]
  simp only [names.listed, M.bind_run, kettleOperand_none invalid, M.get_run, need_run, quiet, decide_true, Bool.true_or, if_true, M.modify_run,
    State.onWl_eq names.listed]
  rfl

end

end Sys2Proof.Machine
end

section
/-! SUPPORT. A pop that takes an entry: the entry leaves its slot, and its task is the core's next (06, R162; 13, R357). -/

namespace Sys2Proof.Machine

/-! ### Contexts that lose a reservation or wake -/

/-- Of the cores only contexts differ, and beside them only granules and watches. -/
structure OnlyCtxs (s t : State) : Prop where
  core : ∀ n, t.core n = { s.core n with ctxs := (t.core n).ctxs }
  rest : t = { s with cores := t.cores, granules := t.granules, watches := t.watches }

section
variable {s t u : State} {q d : Reg} {wid : Nat} {w : Worklist}

theorem OnlyCtxs.refl (s : State) : OnlyCtxs s s := ⟨fun _ => rfl, rfl⟩
theorem OnlyCtxs.trans (h : OnlyCtxs s t) (g : OnlyCtxs t u) : OnlyCtxs s u := by
  refine ⟨fun n => ?_, ?_⟩
  · have e := g.core n
    rw [h.core n] at e
    exact e
  · have e := g.rest
    rw [h.rest] at e
    exact e
theorem onlyCtxs_foldl {α : Type} {f : State → α → State} (h : ∀ t x, OnlyCtxs t (f t x)) (xs : List α) (s : State) :
    OnlyCtxs s (xs.foldl f s) := by
  induction xs generalizing s with
  | nil => exact .refl s
  | cons x r ih => exact (h s x).trans (ih _)
theorem onlyCtxs_onCore (s : State) (n : Nat) (f : Core → Vector Ctx 11) : OnlyCtxs s (s.onCore n fun c => { c with ctxs := f c }) := by
  refine ⟨fun k => ?_, rfl⟩
  by_cases same : k = n
  · rw [same, State.core_onCore_same]
  · rw [State.core_onCore_ne _ _ _ _ same]
theorem onlyCtxs_granules (s : State) (gs : List Granule) : OnlyCtxs s { s with granules := gs } := ⟨fun _ => rfl, rfl⟩
theorem onlyCtxs_watches (s : State) (ws : List Watch) : OnlyCtxs s { s with watches := ws } := ⟨fun _ => rfl, rfl⟩
theorem onlyCtxs_loseByStore (s : State) (n : Nat) (p : Place) : OnlyCtxs s (s.loseByStore n p) := by
  unfold State.loseByStore
  dsimp only
  split
  · split
    · exact (onlyCtxs_granules ..).trans (onlyCtxs_onCore ..)
    · exact .refl s
  · exact .refl s
theorem onlyCtxs_wakeWatches (s : State) (hit : Place → Bool) (a : Option Agent) : OnlyCtxs s (s.wakeWatches hit a) := by
  unfold State.wakeWatches
  exact (onlyCtxs_watches s _).trans (onlyCtxs_foldl (fun t _ => onlyCtxs_onCore t _ _) _ _)

/-! ### The folio is written -/

/-- Bytes that a core's part writes into its scratchpad, where no double is uncorrectable, stand there. -/
theorem putSpad_sound {n : Nat} (bad : (s.core n).bad = []) (o : Nat) (bs : List Byte) :
    ∃ t, OnlyCtxs s t ∧ OnlyCtxs (t.onCore n (Core.written o bs)) (s.putSpad n o bs) := by
  have sound : ((doublesOf o (storeBytes bs).length).find? fun d =>
      partIn o (storeBytes bs) d && s.hurtDouble (quireOf n) (.spad n o) .dflt d) = none := by
    simp [State.hurtDouble, bad]
  have place : (Place.spad n o).offset = o := rfl
  simp only [State.putSpad, State.performPart, place, sound]
  have lost : OnlyCtxs s ((s.granulesAt (.spad n o) (storeBytes bs).length).foldl (fun t g => t.loseByStore n g) s) :=
    onlyCtxs_foldl (fun t g => onlyCtxs_loseByStore t n g) _ s
  refine ⟨_, lost, ?_⟩
  generalize (s.granulesAt (.spad n o) (storeBytes bs).length).foldl (fun t g => t.loseByStore n g) s = t at lost
  have badT : (t.core n).bad = [] := by rw [lost.core n]; exact bad
  have written : (t.onCore n fun x => { x with spad := Memory.merge x.spad o (storeBytes bs)
                                               bad := x.bad.filter fun d => !wholeIn o (storeBytes bs) d }) = t.onCore n (Core.written o bs) := by
    simp only [State.onCore, Core.written, badT, List.filter_nil, Memory.merge_storeBytes]
  rw [written]
  exact onlyCtxs_wakeWatches ..

theorem OnlyCtxs.wls (h : OnlyCtxs s t) : t.wls = s.wls := (congrArg State.wls h.rest :)
theorem OnlyCtxs.cur (h : OnlyCtxs s t) : t.cur = s.cur := (congrArg State.cur h.rest :)
theorem OnlyCtxs.ctx (h : OnlyCtxs s t) : t.ctx = s.ctx := (congrArg State.ctx h.rest :)
/-- A folio that a core's part writes stands in the scratchpad, and no worklist differs. -/
theorem putSpad_folio {n : Nat} (wf : Memory.wf (s.core n).spad = true) (bad : (s.core n).bad = []) (o : Nat) {bs : List Byte}
    (length : bs.length = 64) :
    let t := s.putSpad n o bs
    t.folioBytes n o = bs ∧ t.wls = s.wls ∧ t.cur = s.cur ∧ t.ctx = s.ctx := by
  obtain ⟨t, before, after⟩ := putSpad_sound bad o bs
  refine ⟨?_, after.wls.trans before.wls, after.cur.trans before.cur, after.ctx.trans before.ctx⟩
  have wfT : Memory.wf (t.core n).spad = true := by rw [before.core n]; exact wf
  have e : (s.putSpad n o bs).core n = _ := after.core n
  rw [State.folioBytes, e, State.core_onCore_same]
  exact Core.written_read wfT o length

/-! ### The entry leaves its slot -/

/-- The worklist without an entry of a slot, and with V at or below its bucket at every agent. -/
def Worklist.popped (w : Worklist) (r : Nat) (k : Nat × Entry) : Worklist :=
  { (w.setSlot r { w.slot r with entries := (w.slot r).entries.erase k, spill := (w.slot r).spill.filter fun i => i.1 ≠ k.1 }).lowered
      (w.bucketOf k) with taken := w.taken + 1 }

theorem settleSlot_unspilled (listed : s.wl? wid = some w) (r b n : Nat) (spill : (w.slot r).spill = []) :
    ∃ x, s.settleSlot wid r b (n + 1) = s.setWl wid (w.setSlot r x) := by
  rw [State.settleSlot, listed]
  simp only [spill, List.find?_nil]
  split <;> simp only [spill, State.spillReturn] <;> exact ⟨_, rfl⟩
/-- An entry has left a slot that has spilled none, and the worklist counts it as taken. -/
theorem popEntry_taken (listed : s.wl? wid = some w) {r : Nat} (k : Nat × Entry) (spill : (w.slot r).spill = []) :
    ∃ x, s.popEntry wid r k = s.setWl wid x ∧ x.taken = w.taken + 1 := by
  have popped : s.popEntry wid r k = (s.setWl wid (w.popped r k)).slotSettle wid r ((w.popped r k).bucketOf k) := by
    unfold State.popEntry
    simp only [State.onWl_eq listed, State.wl?_setWl_same]
    rfl
  have none : ((w.popped r k).slot r).spill = [] := by
    have e : (w.popped r k).slot r = _ := Worklist.slot_setSlot_same ..
    rw [e, spill]
    rfl
  obtain ⟨x, settled⟩ := settleSlot_unspilled (s.wl?_setWl_same wid (w.popped r k)) r ((w.popped r k).bucketOf k)
    ((w.popped r k).slot r).spill.length none
  refine ⟨(w.popped r k).setSlot r x, ?_, rfl⟩
  rw [popped, State.slotSettle, State.wl?_setWl_same]
  exact settled.trans (State.setWl_setWl ..)

/-! ### The search -/

theorem Beside.spilled (h : Beside s t) (w : Worklist) (i : Nat) : t.spilled w i = s.spilled w i := by
  have binding (b pa : Nat) : t.homeBinding b pa = s.homeBinding b pa := by rw [h]; rfl
  have recalled (b pa n : Nat) : (t.uncLoad b pa n).2 = (s.uncLoad b pa n).2 := by
    have beside : t.recallOwned b none pa n = _ := h.recallOwned b none pa n
    rw [State.uncLoad, State.uncLoad, beside]
    rfl
  simp only [State.spilled, State.partLoad, binding, recalled]
theorem Beside.search (h : Beside s t) (w : Worklist) (r : Nat) : t.search w r = s.search w r := by
  simp only [State.search, State.front, State.heldBy, h.spilled]

/-! ### The pop -/

/-- What is pending for the task of an entry that a core has taken. -/
def Worklist.popTask (w : Worklist) (core wid : Nat) (e : Entry) : Pending :=
  { handle := folioHandle core popFolio, pri := e.pri, acq := some w.scope, home := core
    holds := [(wid, w.bucket e)], cont := false, launch := false, bad := false }
/-- The folio of an entry's task. -/
def Worklist.popImage (w : Worklist) (e : Entry) : List Byte := folioImage (w.kinds.getD e.kind 0) e.arg e.pri 0xB
/-- The core that pops has the entry's folio, and its task as its next. -/
def State.popping (s : State) (wid : Nat) (w : Worklist) (e : Entry) : State :=
  (s.putSpad s.cur popFolio (w.popImage e)).placeNext s.cur (w.popTask s.cur wid e)

theorem length_popImage (w : Worklist) (e : Entry) : (w.popImage e).length = 64 := folioImage_length ..
theorem placeNext_spad (s : State) (n : Nat) (p : Pending) : ((s.placeNext n p).core n).spad = (s.core n).spad := by
  rw [State.placeNext, State.core_onCore_same]
  split
  · exact placeReady_spad ..
  · rfl
theorem popping_frame (wf : Memory.wf s.me.spad = true) (bad : s.me.bad = []) (wid : Nat) (w : Worklist) (e : Entry) :
    let t := s.popping wid w e
    t.folioBytes s.cur popFolio = w.popImage e ∧ t.wls = s.wls ∧ t.cur = s.cur ∧ t.ctx = s.ctx ∧
      (t.core s.cur).next = some (w.popTask s.cur wid e) := by
  obtain ⟨bytes, wls, cur, ctx⟩ := putSpad_folio (n := s.cur) wf bad popFolio (length_popImage w e)
  have rest := placeNext_rest (s.putSpad s.cur popFolio (w.popImage e)) s.cur (w.popTask s.cur wid e)
  refine ⟨?_, (congrArg State.wls rest :).trans wls, (congrArg State.cur rest :).trans cur, (congrArg State.ctx rest :).trans ctx, placeNext_next ..⟩
  have spad := placeNext_spad (s.putSpad s.cur popFolio (w.popImage e)) s.cur (w.popTask s.cur wid e)
  exact (congrArg (fun m => Memory.read m popFolio 64) spad).trans bytes

theorem wlPop_some (names : Names s u q wid w) (ctx : s.ctx = 0) (ph : s.csr.ph = false) (pending : NothingPending u)
    {r : Nat} {k : Nat × Entry} (found : u.search w s.myQuire = some (r, k)) (spill : (w.slot r).spill = []) (bad : u.me.bad = [])
    (wf : u.memWf) (own : OwnBytes u (localAddr (u.me.folio + 0x10)) 4 1 (u.me.folio + 0x10))
    (invalid : hasV (BitVec.ofNat 32 (ofBytes (u.ownBytes (u.me.folio + 0x10) 4))) = false) :
    ∃ x, x.taken = w.taken + 1 ∧
      exec (.wlPop d q) s = .next ((((u.setMe u.me).setWl wid x).popping wid w k.2).leaveTask u.cur) := by
  obtain ⟨sb, deque, hold, -⟩ := pending
  have deque : u.me.deque.h = [] := by rw [deque]
  have hold' : (u.setMe u.me).me.hold = [] := by rw [State.me_setMe]; exact hold
  have beside : Beside u (u.setMe u.me) := rfl
  have found' : (u.setMe u.me).search w (u.setMe u.me).myQuire = some (r, k) := by
    rw [beside.search]
    exact (congrArg (u.search w) names.myQuire).trans found
  have listed' : (u.setMe u.me).wl? wid = some w := names.listed
  obtain ⟨x, popped, taken⟩ := popEntry_taken listed' k spill
  have meX : ((u.setMe u.me).setWl wid x).me = u.me := State.me_setMe ..
  have wfX : Memory.wf ((u.setMe u.me).setWl wid x).me.spad = true := by rw [meX]; exact wf.2.2.1 u.cur
  have badX : ((u.setMe u.me).setWl wid x).me.bad = [] := by rw [meX]; exact bad
  obtain ⟨-, -, cur, -⟩ := putSpad_folio (n := u.cur) wfX badX popFolio (length_popImage w k.2)
  obtain ⟨-, -, curP, -⟩ := popping_frame wfX badX wid w k.2
  have run : (((u.setMe u.me).popEntry wid r k).popFolioAt ((u.setMe u.me).popEntry wid r k).cur wid w k.2) =
      (((u.setMe u.me).setWl wid x).putSpad u.cur popFolio (w.popImage k.2), w.popTask u.cur wid k.2) := by rw [popped]; rfl
  refine ⟨x, taken, M.run_done ?_⟩
  rw [M.bind_ok (controlOnly_run ctx), M.bind_ok (barPhase_run ph), M.bind_ok (readW_run q s), M.bind_ok names.run, M.bind_ok (M.get_run u)]
  simp only [names.listed, M.bind_run, M.get_run, found, runningKet_none own invalid, publish_empty deque, releaseHolds_none hold',
    endDecrement, M.pure_run, found', listed', Option.getD_some, run, M.set_run, endTask, M.modify_run, finish_run, cur]
  exact congrArg (fun n => Except.error (Stop.done ((((u.setMe u.me).setWl wid x).popping wid w k.2).leaveTask n))) curP

end

end Sys2Proof.Machine
end

section
/-! SUPPORT. Settles O59 (06, R161 to R164; 13, R357 to R365). -/

namespace Sys2Proof.Machine

section
variable {s u : State} {q d a b : Reg} {wid : Nat} {w : Worklist}

/-- A push into an empty slot stands there and goes on. -/
theorem wlPush_done (names : Names s u q wid w) (stay : s.issue.stay = false) (ph : s.csr.ph = false) (pending : NothingPending u)
    (free : u.forwardsHeld u.myQuire = false) (posted : s.myCtx.posted = none) (kind : (pushedEntry (s.w a) (s.w b)).kind < w.kinds.length)
    (empty : w.slot (w.slotOf s.myQuire) = ⟨(w.slot (w.slotOf s.myQuire)).wb, [], []⟩)
    (low : ∀ r ∈ u.service, ∃ v, w.view r = some v ∧ v ≤ w.bucket (pushedEntry (s.w a) (s.w b))) :
    ∃ t, exec (.wlPush q a b) s = .next t ∧ WentOn s t ∧ SameW s t ∧
      t.wl? wid = some (w.entered s.myQuire (pushedEntry (s.w a) (s.w b))) := by
  obtain ⟨v, wakes, run⟩ := wlPush_run names ph pending free posted kind empty low
  generalize pushedEntry (s.w a) (s.w b) = e at *
  have counted : KeepsControl u (u.onMyCtx fun k => { k with counts := some (wid, w.bucket e, false) }) := keepsControl_onMyCtx u rfl
  have entered := (counted.trans wakes.keepsControl).trans (keepsControl_pushedIn v wid w s.myQuire e)
  obtain ⟨listed, -⟩ := pushedIn_rest v wid w s.myQuire e
  generalize v.pushedIn wid w s.myQuire e = y at *
  have posting : KeepsControl y (y.posting wid (w.bucket e)) := keepsControl_onMyCtx y rfl
  have settled : KeepsControl (y.posting wid (w.bucket e)) (y.posting wid (w.bucket e)).settledLow := keepsControl_onMyCtx _ rfl
  obtain ⟨went, regs⟩ := names.goesOn stay ((entered.trans posting).trans settled)
  exact ⟨_, run, went, regs, listed⟩

/-- A pop that takes an entry ends the task, and the entry's task is the core's next. -/
theorem wlPop_takes (names : Names s u q wid w) (ctx : s.ctx = 0) (ph : s.csr.ph = false) (pending : NothingPending u)
    {r : Nat} {k : Nat × Entry} (found : u.search w s.myQuire = some (r, k)) (spill : (w.slot r).spill = []) (bad : u.me.bad = [])
    (wf : u.memWf) (own : OwnBytes u (localAddr (u.me.folio + 0x10)) 4 1 (u.me.folio + 0x10))
    (invalid : hasV (BitVec.ofNat 32 (ofBytes (u.ownBytes (u.me.folio + 0x10) 4))) = false) :
    ∃ t x, exec (.wlPop d q) s = .next t ∧ t.me.run = .seeking ∧ t.folioBytes s.cur popFolio = w.popImage k.2 ∧
      t.me.next = some (w.popTask s.cur wid k.2) ∧ t.wl? wid = some x ∧ x.taken = w.taken + 1 := by
  obtain ⟨x, taken, run⟩ := wlPop_some (d := d) names ctx ph pending found spill bad wf own invalid
  have meX : ((u.setMe u.me).setWl wid x).me = u.me := State.me_setMe ..
  obtain ⟨bytes, wls, cur, ctxP, next⟩ := popping_frame (s := (u.setMe u.me).setWl wid x) (by rw [meX]; exact wf.2.2.1 u.cur)
    (by rw [meX]; exact bad) wid w k.2
  have curX : ((u.setMe u.me).setWl wid x).cur = s.cur := names.cur
  have ctxX : ((u.setMe u.me).setWl wid x).ctx = 0 := names.ctx.trans ctx
  rw [curX] at bytes cur next
  have listed := (State.wl?_congr wls wid).trans (State.wl?_setWl_same (u.setMe u.me) wid x)
  generalize ((u.setMe u.me).setWl wid x).popping wid w k.2 = y at *
  rw [names.cur] at run
  obtain ⟨ended, -⟩ := leaveTask_ended (s := y) (ctxP.trans ctxX)
  have curL : (y.leaveTask s.cur).cur = s.cur := cur
  rw [cur] at ended
  refine ⟨_, x, run, ended, ?_, ?_, listed, taken⟩
  · rw [State.folioBytes, (coreEvent_leaveTask y s.cur).spad]
    exact bytes
  · rw [State.me, curL, (leaveTask_placed y s.cur s.cur).1]
    exact next

end

/-- R161 to R164, R357 and R359. -/
theorem worklistInstructions : Claims.WorklistInstructions := by
  intro s u d q a b wid w ready wf pendingS run listed pending cur ctx wfU mine issue csr free slot e h
  obtain ⟨ctx0, -, stay, ph, -⟩ := ready
  have names : Names s u q wid w := ⟨run, listed, cur, ctx, mine, issue⟩
  refine ⟨fun posted kind empty low => ?_, fun none => ?_, fun r k found spill bad own invalid => ?_, ?_, fun valid ok room => ?_,
    fun invalid quiet => ?_⟩
  · obtain ⟨t, done, went, regs, entered⟩ := wlPush_done names stay ph pending free posted kind empty low
    have held := w.slot_entered s.myQuire e
    exact ⟨t, done, went, regs, _, entered, rfl, congrArg Slot.entries held, congrArg Slot.wb held⟩
  · obtain ⟨code, regs, went⟩ := setW_frame d (u.popCode w) stay issue mine
    exact ⟨_, wlPop_none names ctx0 ph none, regs, went, code⟩
  · obtain ⟨t, x, done, ended, bytes, next, taken, count⟩ := wlPop_takes (d := d) names ctx0 ph pending found spill bad wfU own invalid
    exact ⟨t, done, ended, bytes, ⟨_, next, rfl, rfl, rfl⟩, x, taken, count⟩
  · obtain ⟨low, regs, went⟩ := setW_frame d (w.lowWord s.myQuire) stay issue mine
    exact ⟨_, wlLow_run names ph, regs, went, low⟩
  · obtain ⟨went, regs⟩ := names.goesOn stay (t := u.setWl wid (w.register h)) ⟨rfl, rfl, rfl, rfl, fun _ _ => rfl⟩
    exact ⟨_, w.register h, wlDone_registers names ctx0 ph valid ok room, went, regs, State.wl?_setWl_same .., rfl, rfl, rfl, rfl⟩
  · have left := onlyWakes_writeStatus (u.setWl wid { w with sweeps := w.sweeps + 1 }) wid
    exact ⟨_, wlDone_detaches names ctx0 ph invalid quiet,
      wentOn_advance s _ stay ((issue_slotsReturned ..).trans (left.issue.trans issue)), wl?_unlisted ..⟩

/-- Settles O59: what each instruction does to the worklist that its operand names, and what the steps of worklists do. -/
theorem orderedWorklists : Obligations.OrderedWorklists := ⟨worklistInstructions, worklistSteps⟩

end Sys2Proof.Machine
end

section
/-! SUPPORT. What the checks of an access may change: the TLBs and the node cache (05, Table 5.7; 16, R420, R421). -/

namespace Sys2Proof.Machine

/-- A quire without what its walks have kept. -/
def Quire.unwalked (x : Quire) : Quire := { x with tlb2 := [], nodes := [] }
/-- A core without what its walks have kept. -/
def Core.unwalked (c : Core) : Core := { c with itlb := [], dtlb := [] }
/-- The states differ at most in the TLBs of cores and quires, and in the node caches. -/
structure Walks (s t : State) : Prop where
  core : ∀ n, (t.core n).unwalked = (s.core n).unwalked
  quire : ∀ q, (t.quire q).unwalked = (s.quire q).unwalked
  rest : t = { s with cores := t.cores, quires := t.quires }

section
variable {s t u : State}

theorem Walks.refl (s : State) : Walks s s := ⟨fun _ => rfl, fun _ => rfl, rfl⟩
theorem Walks.trans (h : Walks s t) (g : Walks t u) : Walks s u := by
  refine ⟨fun n => (g.core n).trans (h.core n), fun q => (g.quire q).trans (h.quire q), ?_⟩
  have e := g.rest
  rw [h.rest] at e
  exact e
theorem Walks.cur (h : Walks s t) : t.cur = s.cur := (congrArg State.cur h.rest :)
theorem Walks.ctx (h : Walks s t) : t.ctx = s.ctx := (congrArg State.ctx h.rest :)
theorem Walks.issue (h : Walks s t) : t.issue = s.issue := (congrArg State.issue h.rest :)
theorem Walks.hbm (h : Walks s t) : t.hbm = s.hbm := (congrArg State.hbm h.rest :)
theorem Walks.me (h : Walks s t) : t.me.unwalked = s.me.unwalked := by
  rw [State.me, h.cur]
  exact h.core s.cur
theorem Walks.myCtx (h : Walks s t) : t.myCtx = s.myCtx := by
  have ctxs : t.me.ctxs = s.me.ctxs := (congrArg Core.ctxs h.me :)
  simp only [State.myCtx, ctxs, h.ctx]
theorem Walks.sb (h : Walks s t) : t.me.sb = s.me.sb := (congrArg Core.sb h.me :)
theorem Walks.peers (h : Walks s t) : t.me.peers = s.me.peers := (congrArg Core.peers h.me :)
theorem Walks.keepsControl (h : Walks s t) : KeepsControl s t := by
  refine ⟨h.issue, (congrArg Core.csr h.me :), h.cur, h.ctx, fun n x => ?_⟩
  have ctxs : (t.core n).ctxs = (s.core n).ctxs := (congrArg Core.ctxs (h.core n) :)
  rw [ctxs]
theorem Walks.cold (h : Walks s t) (cold : Cold s) : Cold t := by
  intro q
  have lines : (t.quire q).lines = (s.quire q).lines := (congrArg Quire.lines (h.quire q) :)
  have slices : (t.quire q).slices = (s.quire q).slices := (congrArg Quire.slices (h.quire q) :)
  have forwards : (t.quire q).forwards = (s.quire q).forwards := (congrArg Quire.forwards (h.quire q) :)
  rw [lines, slices, forwards]
  exact cold q

/-! ### The checks -/

theorem walks_keepEntry (s : State) (e : TlbEntry) (va : Word) (fetch : Bool) : Walks s (s.keepEntry e va fetch) := by
  obtain ⟨i, d, kept⟩ := s.keepEntry_eq e va fetch
  rw [kept]
  refine ⟨fun n => ?_, fun _ => rfl, rfl⟩
  by_cases mine : n = s.cur
  · rw [mine, State.onMe, State.setMe, State.core_setCore_same]
    rfl
  · rw [State.onMe, State.setMe, State.core_setCore_ne _ _ _ _ mine]
theorem walks_keepWalk (s : State) (x : Walked) : Walks s (s.keepWalk x) := by
  refine ⟨fun _ => rfl, fun q => ?_, rfl⟩
  unfold State.keepWalk
  by_cases mine : q = s.myQuire
  · rw [mine, State.quire_onQuire_same]
    rfl
  · rw [State.quire_onQuire_ne _ _ _ _ mine]

end

/-! ### Computations that go on -/

/-- Where the computation goes on it leads to a state that stands in a relation to the one before. -/
def M.Leads {α : Type} (R : State → State → Prop) (x : M α) : Prop := ∀ s a u, x s = .ok (a, u) → R s u

section
variable {R : State → State → Prop} {α β : Type}

/-- What goes on has gone on in both its parts. -/
theorem M.of_bind {x : M α} {f : α → M β} {s u : State} {b : β} (h : (x >>= f) s = .ok (b, u)) :
    ∃ a t, x s = .ok (a, t) ∧ f a t = .ok (b, u) := by
  rw [M.bind_run] at h
  cases run : x s with
  | ok r =>
    rw [run] at h
    exact ⟨r.1, r.2, rfl, h⟩
  | error e =>
    rw [run] at h
    cases h
theorem M.Leads.bind {x : M α} {f : α → M β} (trans : ∀ {s t u}, R s t → R t u → R s u) (hx : x.Leads R) (hf : ∀ a, (f a).Leads R) :
    (x >>= f).Leads R := fun s b u h =>
  let ⟨a, t, first, second⟩ := M.of_bind h
  trans (hx s a t first) (hf a t b u second)
/-- A computation that does not change the state. -/
theorem leads_same {x : M α} (refl : ∀ s, R s s) (same : ∀ s a u, x s = .ok (a, u) → u = s) : x.Leads R :=
  fun s a u h => same s a u h ▸ refl s
theorem get_same : ∀ s a u, (get : M State) s = .ok (a, u) → u = s := fun s _ _ h => by cases h; rfl
theorem pure_same (a : α) : ∀ s b u, (pure a : M α) s = .ok (b, u) → u = s := fun s _ _ h => by cases h; rfl
theorem raiseExc_same (e : Exc) : ∀ s a u, (raiseExc e : M α) s = .ok (a, u) → u = s := fun s _ _ h => by cases h
theorem need_same (ok : Bool) (e : Exc) : ∀ s a u, need ok e s = .ok (a, u) → u = s := by
  cases ok
  · exact raiseExc_same e
  · exact pure_same ()
theorem liftE_same (x : Except Exc α) : ∀ s a u, liftE x s = .ok (a, u) → u = s := fun s _ _ h => by
  cases x <;> cases h
  rfl

end

/-! ### The checks of an access -/

theorem translate_walks (va tval : Word) (fetch : Bool) : (translate va tval fetch).Leads Walks := by
  intro s e u h
  cases hit : tlbLookup s va fetch with
  | some x =>
    simp only [translate, M.bind_run, M.get_run, M.set_run, M.pure_run, hit] at h
    cases h
    exact walks_keepEntry ..
  | none =>
    cases found : walk s va tval with
    | ok x =>
      simp only [translate, M.bind_run, M.get_run, M.set_run, M.pure_run, hit, found] at h
      cases h
      exact (walks_keepWalk s x).trans (walks_keepEntry ..)
    | error x =>
      simp only [translate, M.bind_run, M.get_run, M.throw_run, hit, found] at h
      cases h
theorem get_walks : (get : M State).Leads Walks := leads_same .refl get_same
theorem liftE_walks {α : Type} (x : Except Exc α) : (liftE x).Leads Walks := leads_same .refl (liftE_same x)
theorem checkPart_walks (r : Region) (va : Word) (n : Nat) (kind : Access) : (checkPart r va n kind).Leads Walks := by
  cases r with
  | loc win slot off => exact get_walks.bind .trans fun _ => liftE_walks _
  | user | super | bad => exact (translate_walks va va false).bind .trans fun _ => get_walks.bind .trans fun _ => liftE_walks _
theorem checkAccess_walks (va : Word) (n : Nat) (kind : Access) : (checkAccess va n kind).Leads Walks :=
  get_walks.bind .trans fun _ => (liftE_walks _).bind .trans fun r => (liftE_walks _).bind .trans fun _ => checkPart_walks r va n kind
theorem ringPlace_walks (p : Place) (va : Word) : (ringPlace p va).Leads Walks := by
  refine (checkAccess_walks va 8 .store).bind .trans fun r => leads_same .refl ?_
  split
  · split
    · exact pure_same _
    · exact raiseExc_same _
  · exact pure_same _
  · exact raiseExc_same _

/-! ### A queue's bytes where no cache holds a line -/

theorem flushAt_cold {s : State} (cold : Cold s) (q pa n : Nat) : s.flushAt q pa n = s := by
  rw [State.flushAt, Quire.forwardsTo, (cold q).2.2]
  rfl
theorem dropOwn_cold {s : State} (cold : Cold s) (q pa n : Nat) : s.dropOwn q pa n = s := by
  rw [State.dropOwn, flushAt_cold cold]
  exact sweepLines_cold cold ..
/-- Where no cache holds a line and no store waits a queue's bytes are read and nothing changes. -/
theorem readHome_cold {s : State} (cold : Cold s) (sb : s.me.sb = []) (va : Word) (pa b n : Nat) :
    ∀ bs u, readHome va pa b n s = .ok (bs, u) → u = s := by
  intro bs u h
  have none : sbTouches s.me.sb (.hbm pa b) n = false := by rw [sb]; rfl
  have own : (if s.homeBinding b pa = 0 then s.dropOwn s.myQuire pa n else s) = s := by rw [dropOwn_cold cold, ite_self]
  rw [readHome, M.bind_ok (M.get_run s)] at h
  simp only [none, Bool.false_eq_true, if_false, M.bind_run, M.get_run] at h
  rw [own, partLoad_cold cold] at h
  split at h
  · cases h
  · split at h
    · cases h
    · cases h
      rfl

/-- What the read of a descriptor on this device passes. -/
theorem readDesc_ok {s u : State} {wq : Word} {pa bd : Nat} {ds : Desc} (cold : Cold s) (sb : s.me.sb = [])
    (run : readDesc wq s = .ok ((.hbm pa bd, ds), u)) : wq.toNat % 64 = 0 ∧ Walks s u := by
  obtain ⟨_, t, aligned, run⟩ := M.of_bind run
  rw [need_run] at aligned
  split at aligned
  · rename_i ok
    cases aligned
    obtain ⟨p, v, check, run⟩ := M.of_bind run
    have walks := checkAccess_walks wq 8 .store s p v check
    cases p with
    | hbm pa' b =>
      obtain ⟨bs, x, read, run⟩ := M.of_bind run
      have same := readHome_cold (walks.cold cold) (walks.sb.trans sb) wq pa' b 64 bs x read
      cases run
      exact ⟨of_decide_eq_true ok, same ▸ walks⟩
    | remote d pa' =>
      obtain ⟨_, x, -, run⟩ := M.of_bind run
      cases run
    | spad | kettle => cases run
  · cases aligned

end Sys2Proof.Machine
end

section
/-! SUPPORT. `donate` to a queue of this device, and `claim` of an empty one (06, R165 to R167). -/

namespace Sys2Proof.Machine

section
variable {s t s1 u v : State} {d q a : Reg} {o pa bd slot sb : Nat} {ds : Desc}

theorem forwardsHeld_cold (cold : Cold s) (q : Nat) : s.forwardsHeld q = false := by
  have flushed : s.flush q = s := by
    rw [State.flush, (cold q).2.2]
    rfl
  rw [State.forwardsHeld, flushed, (cold q).2.2]
  rfl
/-- A system release with nothing to drain, no line to clean and no peer changes nothing. -/
theorem releaseSys_cold (cold : Cold s) (sb : s.me.sb = []) (peers : s.me.peers = []) (hand : s.myCtx.hand = none) :
    release .sys s = .ok ((), s) := by
  have wide : 2 ≤ Scope.rank .sys := by decide
  have one : 1 ≤ Scope.rank .sys := by decide
  refine M.bind_ok (a := []) ?_
  simp only [releaseLost, M.bind_run, one, wide, if_true, drainFirst_empty sb, M.get_run, forwardsHeld_cold cold, Bool.false_eq_true,
    if_false, M.modify_run, cleanQuire_cold cold, peers, hand, List.isEmpty_nil, Bool.not_true, Option.isSome_none, Bool.or_self,
    Bool.and_false, M.pure_run]

theorem needDesc_run (size : ds.sizeOk = true) (base : ds.base.toNat % 16 = 0) (wq : Word) : needDesc wq ds s = .ok ((), s) := by
  rw [needDesc, M.bind_ok (by rw [need_run, if_pos size]), need_run, if_pos (decide_eq_true base)]

/-- The state after an entry has been appended. -/
def State.appended (s : State) (slot sb pa bd tail : Nat) (e : List Byte) : State :=
  (s.partStore sb slot e).partStore bd (pa + 8) (toBytes 8 (tail + 1))

theorem append_run {wq : Word} {e : List Byte} (ring : ringPlace (.hbm pa bd) (ds.slot ds.tail) u = .ok ((slot, sb), v))
    (free : homeFree [(slot, sb, 16), (pa, bd, 64)] v = .ok ((), v)) :
    append wq (.hbm pa bd) ds e u = .ok ((), v.appended slot sb pa bd ds.tail e) := by
  rw [append, M.bind_ok ring]
  dsimp only
  rw [M.bind_ok free]
  rfl

theorem donate_run (ph : s.csr.ph = false) (pending : NothingPending s) (remote : s.myCtx.remote = none) (got : s.myCtx.got = [])
    (cold : Cold s) (size : ds.sizeOk = true) (base : ds.base.toNat % 16 = 0) (own : OwnBytes s (s.w a) 16 16 o)
    (check : checkAccess (s.w q) 8 .store s = .ok (.hbm pa bd, s1)) (read : readDesc (s.w q) s1 = .ok ((.hbm pa bd, ds), u))
    (room : ds.full = false) (ring : ringPlace (.hbm pa bd) (ds.slot ds.tail) u = .ok ((slot, sb), v))
    (free : homeFree [(slot, sb, 16), (pa, bd, 64)] v = .ok ((), v)) :
    exec (.donate q a) s = .next (v.appended slot sb pa bd ds.tail (s.ownBytes o 16)).advance := by
  obtain ⟨noStore, -, -, peers, hand, -, -⟩ := pending
  have walks := checkAccess_walks _ _ _ _ _ _ check
  obtain ⟨aligned, -⟩ := readDesc_ok (walks.cold cold) (walks.sb.trans noStore) read
  have released : release .sys s1 = .ok ((), s1) := releaseSys_cold (walks.cold cold) (walks.sb.trans noStore)
    (walks.peers.trans peers) ((congrArg Ctx.hand walks.myCtx).trans hand)
  have remote1 : s1.myCtx.remote = none := (congrArg Ctx.remote walks.myCtx).trans remote
  have got1 : s1.myCtx.got = [] := (congrArg Ctx.got walks.myCtx).trans got
  refine M.run_ok ?_
  rw [M.bind_ok (barPhase_run ph), M.bind_ok (readW_run q s), M.bind_ok (readW_run a s),
    M.bind_ok (by rw [need_run, if_pos (decide_eq_true aligned)]), M.bind_ok (localOperand_own (by decide) own (by decide)),
    M.bind_ok (readOwn_own own), M.bind_ok check, M.bind_ok (M.get_run s1)]
  simp only [remote1, got1, Option.isNone_none, List.isEmpty_nil, Bool.and_self, if_true, M.bind_run, released, read,
    needDesc_run size base, need_run, room, Bool.not_false, append_run ring free]

/-- Where no cache holds a line the entry stands in its slot and the tail behind the head, each where the other is not. -/
theorem appended_bytes (cold : Cold s) (wf : Memory.wf s.hbm = true) (tail : Nat) {e : List Byte} (length : e.length = 16)
    (apart : slot + 16 ≤ pa ∨ pa + 64 ≤ slot) :
    let t := s.appended slot sb pa bd tail e
    OnlyWakes s t ∧ (∀ i, i < 16 → t.byteAt (.hbm (slot + i) sb) = e.getD i 0) ∧
      ∀ i, i < 8 → t.byteAt (.hbm (pa + 8 + i) bd) = (toBytes 8 (tail + 1)).getD i 0 := by
  obtain ⟨first, wf1, laid1⟩ := uncStore_cold cold wf (s.homeBinding sb slot) slot e
  have cold1 : Cold (s.partStore sb slot e) := cold.of_quires first.quires
  obtain ⟨second, -, laid2⟩ := uncStore_cold cold1 wf1 ((s.partStore sb slot e).homeBinding bd (pa + 8)) (pa + 8) (toBytes 8 (tail + 1))
  have cold2 : Cold (s.appended slot sb pa bd tail e) := cold1.of_quires second.quires
  refine ⟨first.wakes.trans second.wakes, fun i hi => ?_, fun i hi => ?_⟩
  · rw [byteAt_cold cold2]
    refine (laid2.outside ?_).trans (laid1.inside (by omega))
    rw [toBytes_length]
    omega
  · rw [byteAt_cold cold2]
    exact laid2.inside (by rw [toBytes_length]; exact hi)

theorem Walks.goesOn (h : Walks s t) (stay : s.issue.stay = false) {u : State} (keeps : KeepsControl t u) :
    WentOn s u.advance ∧ SameW s u.advance :=
  (h.keepsControl.trans keeps).advance stay

/-! ### The claim of an empty queue -/

theorem claim_empty (ph : s.csr.ph = false) (posted : s.myCtx.posted = none) (size : ds.sizeOk = true) (base : ds.base.toNat % 16 = 0)
    (read : readDesc (s.w q) s = .ok ((.hbm pa bd, ds), u)) (empty : ds.empty = true) :
    exec (.claim d q) s = .next ((u.acquire u.cur .sys).setW d 0).advance := by
  refine M.run_ok ?_
  rw [M.bind_ok (barPhase_run ph), M.bind_ok (readW_run q s), M.bind_ok (M.get_run s)]
  simp only [posted, Option.isSome_none, Bool.false_eq_true, if_false, M.bind_run, read, needDesc_run size base, empty, if_true, acquire,
    M.modify_run, writeW_run]

theorem acquire_hbm (s : State) (n : Nat) (sc : Scope) : (s.acquire n sc).hbm = s.hbm := by
  unfold State.acquire
  split <;> rfl
theorem keepsControl_acquire (s : State) (n : Nat) (sc : Scope) : KeepsControl s (s.acquire n sc) := by
  unfold State.acquire
  split <;> exact ⟨rfl, rfl, rfl, rfl, fun _ _ => rfl⟩

end

end Sys2Proof.Machine
end

section
/-! SUPPORT. A load of HBM touches lines, leases and what a quire forwards, and leaves HBM in its canonical form (05, Table 5.8;
12, R318, R322 to R325). -/

namespace Sys2Proof.Machine

section
variable (s : State)

theorem touches_dropLines (q : Nat) (p : Line → Bool) : Touches s (s.dropLines q p) := touches_sweepLines ..
theorem touches_settle (q b pa n : Nat) : Touches s (s.settle q b pa n) := touches_sweepLines ..
theorem touches_flushAt (q pa n : Nat) : Touches s (s.flushAt q pa n) := touches_flushFirst ..
theorem touches_settleHome (q pa n : Nat) : Touches s (s.settleHome q pa n) := (touches_flushAt ..).trans (touches_settle ..)
theorem touches_dropOwn (q pa n : Nat) : Touches s (s.dropOwn q pa n) := (touches_flushAt ..).trans (touches_dropLines ..)
theorem touches_dropLeases (q : Nat) (p : Line → Bool) : Touches s (s.dropLeases q p) := by
  unfold State.dropLeases
  exact .ite (touches_onQuire s q _) (.refl s)
theorem touches_recallCopies (h : Nat) (keep : Option Nat) (pa n : Nat) : Touches s (s.recallCopies h keep pa n) := by
  refine (touches_recallHost s h pa n).trans (touches_foldl (fun t x => .ite (.refl t) ?_) _ _)
  exact (Touches.ite (touches_dropLines t x.1 _) (.refl t)).trans (touches_dropLeases ..)

/-! ### Near lines -/

theorem touches_installLine (q b : Nat) (r : BindRec) (m : Bool) (base : Nat) (data : List Byte) (bad : List Bool) (own : Bool)
    (lease : Option Lease) : Touches s (s.installLine q b r m base data bad own lease) := by
  unfold State.installLine
  dsimp only
  split
  · exact (touches_ticked s).trans (touches_onQuire _ q _)
  · exact (touches_dropLines s q _).trans ((touches_ticked _).trans (touches_onQuire _ q _))
theorem touches_fillLine (q b : Nat) (r : BindRec) (m : Bool) (pa : Nat) (own : Bool) (lease : Option Lease) :
    Touches s (s.fillLine q b r m pa own lease) :=
  (touches_homeRead s 0 _ _).trans (touches_installLine ..)
theorem touches_nearFill (q b : Nat) (r : BindRec) (m : Bool) (pa : Nat) (req : Request) : Touches s (s.nearFill q b r m pa req) := by
  cases req with
  | own => exact (touches_recallCopies ..).trans (touches_fillLine ..)
  | si => exact (touches_recallOwned ..).trans (touches_fillLine ..)
  | dflt | wt | unc => exact touches_fillLine ..
/-- A load that a near line serves, or the home. -/
theorem touches_serve (q b pa n : Nat) : Touches s (match (s.quire q).line b pa with
    | some l => (s.ticked.onQuire q fun x => { x with lines := putLine x.lines { l with used := s.tick } }
                 , (l.data.drop (pa - l.base)).take n)
    | none => s.uncLoad 0 pa n).1 := by
  split
  · dsimp only
    exact (touches_ticked s).trans (touches_onQuire _ q _)
  · exact touches_uncLoad ..
theorem touches_nearLoad (q b : Nat) (r : BindRec) (m : Bool) (pa n : Nat) (req : Request) : Touches s (s.nearLoad q b r m pa n req).1 := by
  unfold State.nearLoad
  split
  · exact (touches_dropOwn ..).trans (touches_uncLoad ..)
  · split
    · exact (touches_settle s q b pa n).trans (touches_uncLoad _ 0 pa n)
    · refine (touches_settle s q b pa n).trans ?_
      dsimp only
      split
      · exact (Touches.ite (.refl _) (touches_nearFill ..)).trans (touches_serve ..)
      · exact (touches_nearFill ..).trans (touches_serve ..)

/-! ### Leases, and a load through any binding -/

theorem touches_installLease (q b base : Nat) (data : List Byte) (bad : List Bool) (lease : Option Lease) :
    Touches s (s.installLease q b base data bad lease) := by
  unfold State.installLease
  dsimp only
  exact touches_onQuire s q _
theorem touches_leaseLoad (q b : Nat) (r : BindRec) (pa n : Nat) : Touches s (s.leaseLoad q b r pa n).1 := by
  unfold State.leaseLoad
  split
  · dsimp only
    exact touches_onQuire s q _
  · have settled := Touches.ite (p := b = 0) (touches_settleHome s q (pa / r.line * r.line) r.line) (.refl s)
    exact settled.trans ((touches_recallOwned ..).trans ((touches_homeRead _ b _ _).trans (touches_installLease ..)))
theorem touches_hbmLoad (q b pa n : Nat) (req : Request) : Touches s (s.hbmLoad q b pa n req).1 := by
  unfold State.hbmLoad
  dsimp only
  split
  · refine (Touches.ite (p := s.homeBinding b pa = 0) (touches_settleHome s q pa n) (.refl s)).trans ?_
    generalize (if s.homeBinding b pa = 0 then s.settleHome q pa n else s) = t
    split
    · exact touches_uncLoad ..
    · split
      · split
        · exact touches_uncLoad ..
        · exact touches_leaseLoad ..
      · exact touches_homeRead ..
  · split
    · exact touches_nearLoad ..
    · exact (touches_settleHome ..).trans (touches_uncLoad ..)

end

end Sys2Proof.Machine
end

section
/-! SUPPORT. What reads of records leave as they find it: registers, store buffers, the canonical form of HBM, and quires that
forward nothing (06, R137, R160). -/

namespace Sys2Proof.Machine

/-- The registers and the store buffers are as before, HBM keeps its canonical form, and a quire that forwarded nothing still
forwards nothing. -/
structure Sound (s t : State) : Prop where
  control : KeepsControl s t
  sb : ∀ n, (t.core n).sb = (s.core n).sb
  wf : Memory.wf s.hbm = true → Memory.wf t.hbm = true
  forwards : ∀ q, (s.quire q).forwards = [] → (t.quire q).forwards = []

section
variable {s t u : State}

theorem Sound.refl (s : State) : Sound s s := ⟨.refl s, fun _ => rfl, id, fun _ => id⟩
theorem Sound.trans (h : Sound s t) (g : Sound t u) : Sound s u :=
  ⟨h.control.trans g.control, fun n => (g.sb n).trans (h.sb n), g.wf ∘ h.wf, fun q => g.forwards q ∘ h.forwards q⟩
theorem Touches.sound (h : Touches s t) (wakes : OnlyWakes s t) : Sound s t :=
  ⟨wakes.keepsControl, fun n => by rw [wakes.core n], h.calm.hbm, h.calm.forwards⟩
theorem Walks.sound (h : Walks s t) : Sound s t := by
  refine ⟨h.keepsControl, fun n => (congrArg Core.sb (h.core n) :), fun wf => h.hbm ▸ wf, fun q none => ?_⟩
  have forwards : (t.quire q).forwards = (s.quire q).forwards := (congrArg Quire.forwards (h.quire q) :)
  exact forwards.trans none
theorem Sound.mySb (h : Sound s t) : t.me.sb = s.me.sb := by
  rw [State.me, h.control.registers.cur]
  exact h.sb s.cur
theorem sound_onCore (s : State) (n : Nat) (f : Core → Core) (csr : (f (s.core n)).csr = (s.core n).csr)
    (w : ∀ x : Fin 11, (f (s.core n)).ctxs[x].w = (s.core n).ctxs[x].w) (sb : (f (s.core n)).sb = (s.core n).sb) : Sound s (s.onCore n f) := by
  refine ⟨⟨rfl, csr_onCore s n f csr, keepsW_onCore s n f w⟩, fun k => ?_, id, fun _ => id⟩
  by_cases same : k = n
  · rw [same, State.core_onCore_same, sb]
  · rw [State.core_onCore_ne _ _ _ _ same]
theorem sound_onMyCtx (s : State) {f : Ctx → Ctx} (w : (f s.myCtx).w = s.myCtx.w) : Sound s (s.onMyCtx f) := by
  refine ⟨keepsControl_onMyCtx s w, fun n => ?_, id, fun _ => id⟩
  by_cases mine : n = s.cur
  · rw [mine]
    exact (congrArg Core.sb (s.me_onMyCtx f) :)
  · exact (congrArg Core.sb (State.core_setCore_ne s s.cur n _ mine) :)

end

section
variable {α : Type}

theorem M.Leads.sound {x : M α} (h : x.Leads Walks) : x.Leads Sound := fun s a u run => (h s a u run).sound
theorem same_sound {x : M α} (same : ∀ s a u, x s = .ok (a, u) → u = s) : x.Leads Sound := leads_same .refl same
theorem pure_sound (a : α) : (pure a : M α).Leads Sound := same_sound (pure_same a)
theorem get_sound : (get : M State).Leads Sound := same_sound get_same
theorem raiseExc_sound (e : Exc) : (raiseExc e : M α).Leads Sound := same_sound (raiseExc_same e)
theorem need_sound (ok : Bool) (e : Exc) : (need ok e).Leads Sound := same_sound (need_same ok e)
theorem thenTake_sound (e : Exc) : (thenTake e : M α).Leads Sound := fun s a u h => by cases h
theorem holdHere_sound : (holdHere : M α).Leads Sound := fun s a u h => by cases h
theorem checkAccess_sound (va : Word) (n : Nat) (kind : Access) : (checkAccess va n kind).Leads Sound :=
  (checkAccess_walks va n kind).sound

end

theorem M.Leads.ite {α : Type} {R : State → State → Prop} {p : Prop} [Decidable p] {x y : M α} (hx : x.Leads R) (hy : y.Leads R) :
    (if p then x else y).Leads R := by
  split
  · exact hx
  · exact hy
theorem modify_leads {R : State → State → Prop} {f : State → State} (h : ∀ s, R s (f s)) : (modify f : M PUnit).Leads R :=
  fun s a u run => by
    cases run
    exact h s

/-! ### Requests to other devices -/

/-- A computation that never goes on. -/
def M.Stops {α : Type} (x : M α) : Prop := ∀ s a u, x s ≠ .ok (a, u)

theorem M.Stops.bind {α β : Type} {x : M α} {f : α → M β} (h : ∀ a, (f a).Stops) : (x >>= f).Stops := fun _ b u run =>
  let ⟨a, t, _, second⟩ := M.of_bind run
  h a t b u second
theorem raise_stops {α β : Type} (e : Exc) (f : α → M β) : (raiseExc e >>= f).Stops := fun s b u run => by cases run
theorem holdHere_stops {α : Type} : (holdHere : M α).Stops := fun s a u run => by cases run
theorem thenTake_stops {α : Type} (e : Exc) : (thenTake e : M α).Stops := fun s a u run => by cases run

/-- A request that goes out to another device. -/
def remoteSend (key dev : Nat) (parts : List (Word × Nat × RemoteOp)) : M (List Byte) := do
  if !(← get).fabricOn || (← get).lost.contains dev then trap 0x0D (parts.headD (0, 0, .read 0)).1
  enterPeer (parts.headD (0, 0, .read 0)).1 dev
  if (← get).freeBuffers < parts.length then waitHere
  modify fun s => parts.foldl (fun t x => t.post dev 2 (RemoteOp.flits x.2.2))
    (s.onMyCtx fun c => { c with remote := some ⟨dev, parts.map fun x => x.2, none, 0, key, false, s.tick, []⟩ })
  holdHere

theorem remoteSend_stops (key dev : Nat) (parts : List (Word × Nat × RemoteOp)) : (remoteSend key dev parts).Stops := by
  refine .bind fun a => .bind fun b => ?_
  split
  · exact raise_stops _ _
  · refine .bind fun _ => .bind fun c => ?_
    split
    · exact raise_stops _ _
    · exact .bind fun _ => holdHere_stops
/-- A request to another device goes on only with its answer, and then nothing differs. -/
theorem remoteAsk_same (key dev : Nat) (parts : List (Word × Nat × RemoteOp)) :
    ∀ s a u, remoteAsk key dev parts s = .ok (a, u) → u = s := by
  intro s a u h
  obtain ⟨_, t, got, h⟩ := M.of_bind h
  cases got
  cases asked : s.myCtx.remote with
  | none =>
    rw [asked] at h
    exact absurd h (remoteSend_stops key dev parts s a u)
  | some r =>
    rw [asked] at h
    dsimp only at h
    split at h
    · exact absurd h (remoteSend_stops key dev parts s a u)
    · cases answer : r.answer with
      | none =>
        rw [answer] at h
        dsimp only at h
        split at h
        · exact absurd h (M.Stops.bind (fun _ => thenTake_stops _) s a u)
        · exact absurd h (holdHere_stops s a u)
      | some x =>
        rw [answer] at h
        cases x with
        | data | ack => exact pure_same _ s a u h
        | nak | poison => exact absurd h (thenTake_stops _ s a u)

/-! ### Loads -/

theorem loadPlace_sound (s : State) (q : Nat) (p : Place) (n : Nat) (req : Request) : Sound s (s.loadPlace q p n req).1 := by
  cases p with
  | hbm pa b => exact (touches_hbmLoad ..).sound (onlyWakes_hbmLoad ..)
  | spad | kettle | remote => exact .refl s
/-- The loads of spans, one after the other. -/
theorem loadsFold_sound (ps : List Span) (req : Request) (s : State) (bs : List Byte) :
    Sound s (ps.foldl (fun (t, bs) x => let (u, b) := t.loadPlace t.myQuire x.1 x.2.2 req
      (u, bs ++ forward t.me.sb x.1 b)) (s, bs)).1 := by
  induction ps generalizing s bs with
  | nil => exact .refl s
  | cons x r ih => exact (loadPlace_sound s s.myQuire x.1 x.2.2 req).trans (ih _ _)
theorem loadSpans_sound (key : Nat) (ps : List Span) (req : Request) : (loadSpans key ps req).Leads Sound := by
  unfold loadSpans
  split
  · exact same_sound (remoteAsk_same _ _ _)
  · intro s a u h
    obtain ⟨_, t, got, h⟩ := M.of_bind h
    cases got
    dsimp only at h
    split at h
    · cases h
    · generalize ps.find? _ = hurt at h
      cases hurt with
      | some x => exact absurd h (M.Stops.bind (fun _ => thenTake_stops _) s a u)
      | none =>
        have folded := loadsFold_sound ps req s []
        cases h
        exact folded
theorem readPiece_sound (req : Request) (k : Nat) (ps : List Span) : (readPiece req k ps).Leads Sound := by
  refine get_sound.bind .trans fun _ => .ite ?_ (pure_sound ())
  exact (loadSpans_sound k ps req).bind .trans fun _ => modify_leads fun s => sound_onMyCtx s rfl
theorem readPieces_sound (req : Request) (l : List (Nat × List Span)) : (readPieces req l).Leads Sound := by
  induction l with
  | nil => exact pure_sound ()
  | cons x r ih => exact (readPiece_sound req x.1 x.2).bind .trans fun _ => ih
theorem loadPieces_sound (key : Nat) (req : Request) (pieces : List (List Span)) : (loadPieces key req pieces).Leads Sound := by
  refine get_sound.bind .trans fun s => ?_
  dsimp only
  split
  · exact fun t a u h => absurd h (M.Stops.bind (fun _ => fun s b v run => by cases run) t a u)
  · split
    · exact (readPieces_sound req _).bind .trans fun _ => get_sound.bind .trans fun _ => pure_sound _
    · refine (readPieces_sound req _).bind .trans fun _ => .ite ?_ (get_sound.bind .trans fun _ => pure_sound _)
      exact holdHere_sound.bind .trans fun _ => get_sound.bind .trans fun _ => pure_sound _
theorem checkDoubles_sound (va : Word) (n : Nat) : (checkDoubles va n).Leads Sound := by
  induction n generalizing va with
  | zero => exact pure_sound _
  | succ n ih => exact (checkAccess_sound va 8 .load).bind .trans fun _ => (ih _).bind .trans fun _ => pure_sound _
theorem readDoubles_sound (key : Nat) (va : Word) (n : Nat) : (readDoubles key va n).Leads Sound :=
  (checkDoubles_sound va n).bind .trans fun _ => (loadPieces_sound key .dflt _).bind .trans fun _ => pure_sound _

end Sys2Proof.Machine
end

section
/-! SUPPORT. Attaching a record leaves registers, store buffers and HBM's form as they are (13, R352 to R356). -/

namespace Sys2Proof.Machine

theorem orElse_leads {α : Type} {R : State → State → Prop} (e : Exc) {x : M α} (hx : x.Leads R) : (orElse e x).Leads R := by
  intro s a u h
  cases run : x s with
  | ok r =>
    rw [orElse, run] at h
    exact hx s a u (run.trans h)
  | error err =>
    rw [orElse, run] at h
    rcases err with err | err | err
    · cases err <;> cases h
    · cases h
    · cases h
theorem forIn_leads {β : Type} {R : State → State → Prop} (refl : ∀ s, R s s) (trans : ∀ {s t u}, R s t → R t u → R s u) (l : List β)
    {f : β → PUnit → M (ForInStep PUnit)} (h : ∀ x r, (f x r).Leads R) : (forIn l PUnit.unit f : M PUnit).Leads R := by
  induction l with
  | nil => exact leads_same refl (pure_same _)
  | cons x r ih =>
    rw [List.forIn_cons]
    refine (h x _).bind trans fun step => ?_
    cases step with
    | done => exact leads_same refl (pure_same _)
    | yield => exact ih

theorem partnerPlace_sound (wq : Word) (off : Nat) (va : Word) : (partnerPlace wq off va).Leads Sound := by
  refine (orElse_leads _ (checkAccess_sound va 8 .load)).bind .trans fun p => ?_
  split
  · exact pure_sound _
  · exact raiseExc_sound _
theorem partners_sound (wq : Word) (r : List Byte) (base n : Nat) : (partners wq r base n).Leads Sound := by
  induction n with
  | zero => exact pure_sound _
  | succ n ih => exact ih.bind .trans fun _ => (partnerPlace_sound wq _ _).bind .trans fun _ => pure_sound _
theorem spillPages_sound (wq va : Word) (n : Nat) : (spillPages wq va n).Leads Sound := by
  induction n with
  | zero => exact pure_sound _
  | succ n ih =>
    refine ih.bind .trans fun _ => (orElse_leads _ (checkAccess_sound _ 8 .store)).bind .trans fun p => ?_
    split
    · exact pure_sound _
    · exact raiseExc_sound _
theorem field_sound (wq : Word) (off : Nat) (ok : Bool) : (field wq off ok).Leads Sound := need_sound ok _
theorem field_then {α : Type} {x : M α} (wq : Word) (off : Nat) (ok : Bool) (hx : x.Leads Sound) :
    (field wq off ok >>= fun _ => x).Leads Sound :=
  (field_sound wq off ok).bind .trans fun _ => hx
/-- Two ways to a value, and what follows it. -/
theorem leads_choice {α β : Type} {R : State → State → Prop} (trans : ∀ {s t u}, R s t → R t u → R s u) {p : Prop} [Decidable p] {x y : M α}
    {f : α → M β} (hx : x.Leads R) (hy : y.Leads R) (hf : ∀ a, (f a).Leads R) : (if p then x >>= f else y >>= f).Leads R :=
  .ite (hx.bind trans hf) (hy.bind trans hf)
theorem sound_foldl {α : Type} {f : State → α → State} (h : ∀ t x, Sound t (f t x)) (xs : List α) (s : State) : Sound s (xs.foldl f s) := by
  induction xs generalizing s with
  | nil => exact .refl s
  | cons x r ih => exact (h s x).trans (ih _)
theorem sound_setWl (s : State) (wid : Nat) (w : Worklist) : Sound s (s.setWl wid w) :=
  ⟨⟨rfl, rfl, rfl, rfl, fun _ _ => rfl⟩, fun _ => rfl, id, fun _ => id⟩
/-- The shares of a slot are a worklist's. -/
theorem sound_shares (s : State) (wid : Nat) (cs : List Nat) :
    Sound s (cs.foldl (fun t c => t.onCore c fun x => { x with shares := x.shares.set 29 (.work wid) }) s) :=
  sound_foldl (fun t c => sound_onCore t c _ rfl (fun _ => rfl) rfl) cs s

theorem attachFrom_sound (wq : Word) (at' : Nat × Nat) (r : List Byte) : (attachFrom wq at' r).Leads Sound := by
  unfold attachFrom
  dsimp only
  refine leads_choice .trans (readDoubles_sound _ _ _) (pure_sound _) fun ks => ?_
  iterate 9 refine field_then _ _ _ ?_
  refine leads_choice .trans (spillPages_sound _ _ _) (pure_sound _) fun sp => ?_
  iterate 2 refine field_then _ _ _ ?_
  refine (partners_sound _ _ _ _).bind .trans fun pq => ?_
  refine (forIn_leads .refl .trans _ fun i _ => field_then _ _ _ (pure_sound _)).bind .trans fun _ => ?_
  refine (partners_sound _ _ _ _).bind .trans fun prec => ?_
  refine (forIn_leads .refl .trans _ fun i _ => field_then _ _ _ (pure_sound _)).bind .trans fun _ => ?_
  refine get_sound.bind .trans fun s => ?_
  iterate 2 refine field_then _ _ _ ?_
  refine (forIn_leads .refl .trans _ fun x _ => (need_sound _ _).bind .trans fun _ => pure_sound _).bind .trans fun _ => ?_
  intro t a u h
  obtain ⟨_, t', got, h⟩ := M.of_bind h
  cases got
  generalize (List.range 16).find? _ = wid at h
  cases wid with
  | none => cases h
  | some wid =>
    obtain ⟨_, t', needed, h⟩ := M.of_bind h
    have same := need_same _ _ t _ t' needed
    subst same
    cases h
    exact (sound_shares ..).trans (sound_setWl ..)
theorem recordPlace_sound (va : Word) : (recordPlace va).Leads Sound := by
  refine (checkAccess_sound va 8 .load).bind .trans fun p => ?_
  split
  · exact pure_sound _
  · exact raiseExc_sound _
theorem worklist_sound (wq : Word) : (worklist wq).Leads Sound := by
  refine (need_sound _ _).bind .trans fun _ => (recordPlace_sound wq).bind .trans fun p => get_sound.bind .trans fun s => ?_
  split
  · exact pure_sound _
  · exact (readDoubles_sound 16 wq 32).bind .trans fun r => attachFrom_sound wq p r

end Sys2Proof.Machine
end

section
/-! SUPPORT. The entry of an entry into a worklist, in any of its ways: what it leaves as it is (13, R357; 19, R455). -/

namespace Sys2Proof.Machine

section
variable {s t u : State} {wid : Nat} {w : Worklist}

/-- The queue's bytes are read at their home, with no store waiting. -/
theorem readHome_sound {va : Word} {pa b n : Nat} {bs : List Byte} (sb : s.me.sb = []) (h : readHome va pa b n s = .ok (bs, u)) :
    Sound s u := by
  have none : sbTouches s.me.sb (.hbm pa b) n = false := by rw [sb]; rfl
  rw [readHome, M.bind_ok (M.get_run s)] at h
  simp only [none, Bool.false_eq_true, if_false, M.bind_run, M.get_run] at h
  split at h
  · cases h
  · split at h
    · cases h
    · cases h
      have wakes : OnlyWakes s (if s.homeBinding b pa = 0 then s.dropOwn s.myQuire pa n else s) :=
        .ite ((onlyWakes_flushFirst ..).trans (onlyWakes_dropLines ..)) (.refl s)
      have touches : Touches s (if s.homeBinding b pa = 0 then s.dropOwn s.myQuire pa n else s) := .ite (touches_dropOwn ..) (.refl s)
      exact (touches.trans (touches_uncLoad ..)).sound (wakes.trans (onlyWakes_uncLoad ..))

/-! ### Steps of a slot -/

/-- Of the worklist only slots differ; the quires in service, and what reads of records leave, are as before. -/
structure SlotStep (wid : Nat) (s t : State) : Prop where
  listed : ∀ w, s.wl? wid = some w → ∃ l, t.wl? wid = some { w with slots := l }
  sound : Sound s t
  service : t.service = s.service

theorem SlotStep.refl (s : State) : SlotStep wid s s := ⟨fun w h => ⟨w.slots, h⟩, .refl s, rfl⟩
theorem SlotStep.trans (h : SlotStep wid s t) (g : SlotStep wid t u) : SlotStep wid s u := by
  refine ⟨fun w hw => ?_, h.sound.trans g.sound, g.service.trans h.service⟩
  obtain ⟨l, hl⟩ := h.listed w hw
  obtain ⟨l', hl'⟩ := g.listed _ hl
  exact ⟨l', hl'⟩
/-- A slot of the worklist as it was is put in place. -/
theorem SlotStep.setSlot (h : SlotStep wid s t) (listed : s.wl? wid = some w) (r : Nat) (x : Slot) :
    SlotStep wid s (t.setWl wid (w.setSlot r x)) := by
  refine ⟨fun w' hw => ?_, h.sound.trans (sound_setWl ..), h.service⟩
  rw [listed] at hw
  cases hw
  exact ⟨_, State.wl?_setWl_same ..⟩
theorem SlotStep.map {o : Option State} {f : State → State × Bool} {b : Bool} (ho : ∀ u, o = some u → SlotStep wid s u)
    (hf : ∀ u, SlotStep wid u (f u).1) (h : o.map f = some (t, b)) : SlotStep wid s t := by
  obtain ⟨u, some, same⟩ := Option.map_eq_some_iff.1 h
  have e : (f u).1 = t := congrArg Prod.fst same
  exact e ▸ (ho u some).trans (hf u)
theorem slotStep_onWl (s : State) (f : Worklist → Worklist) (slots : ∀ w, ∃ l, f w = { w with slots := l }) : SlotStep wid s (s.onWl wid f) := by
  cases listed : s.wl? wid with
  | none =>
    rw [State.onWl, listed]
    exact .refl s
  | some w =>
    rw [State.onWl_eq listed]
    refine ⟨fun w' hw => ?_, sound_setWl .., rfl⟩
    rw [listed] at hw
    cases hw
    obtain ⟨l, same⟩ := slots w
    exact ⟨l, same ▸ State.wl?_setWl_same ..⟩
theorem slotStep_partStore (s : State) (b pa : Nat) (bs : List Byte) : SlotStep wid s (s.partStore b pa bs) := by
  have wakes := onlyWakes_uncStore s (s.homeBinding b pa) none pa (storeBytes bs)
  exact ⟨fun w hw => ⟨w.slots, (wakes.wl? wid).trans hw⟩, (touches_uncStore ..).sound wakes, wakes.service⟩
theorem slotStep_foldl {α : Type} {f : State → α → State} (h : ∀ t x, SlotStep wid t (f t x)) (xs : List α) (s : State) :
    SlotStep wid s (xs.foldl f s) := by
  induction xs generalizing s with
  | nil => exact .refl s
  | cons x r ih => exact (h s x).trans (ih _)
theorem spillOut_step {r : Nat} {es : List (Nat × Entry)} (h : s.spillOut wid r es = some t) : SlotStep wid s t := by
  unfold State.spillOut at h
  cases listed : s.wl? wid with
  | none =>
    rw [listed] at h
    cases h
  | some w =>
    rw [listed] at h
    dsimp only at h
    split at h
    · cases h
    · cases h
      exact (slotStep_foldl (fun t x => slotStep_partStore t _ _ _) _ s).setSlot listed ..
/-- An entry joins a slot. -/
theorem slotStep_enter (s : State) (r : Nat) (e : Nat × Entry) : SlotStep wid s (s.onWl wid fun w =>
    let y := w.slot r
    w.setSlot r { y with entries := insertAge e y.entries }) :=
  slotStep_onWl s _ fun _ => ⟨_, rfl⟩
theorem slotPush_step {r : Nat} {e : Nat × Entry} {b : Bool} (h : s.slotPush wid r e = some (t, b)) : SlotStep wid s t := by
  have window (u : State) (b : Nat) : SlotStep wid u (u.onWl wid fun w => w.setSlot r { w.slot r with wb := b }) :=
    slotStep_onWl u _ fun _ => ⟨_, rfl⟩
  have spill (u : State) (b : Bool) (h : ((u.spillOut wid r [e]).map fun t => (t, false)) = some (t, b)) : SlotStep wid u t :=
    SlotStep.map (fun v hv => spillOut_step hv) (fun v => .refl v) h
  unfold State.slotPush at h
  cases listed : s.wl? wid with
  | none =>
    rw [listed] at h
    cases h
  | some w =>
    rw [listed] at h
    dsimp only at h
    split at h
    · cases h
      exact (window s _).trans (slotStep_enter ..)
    · split at h
      · exact spill s b h
      · obtain ⟨u, moved, h⟩ := Option.bind_eq_some_iff.1 h
        have first : SlotStep wid s u := by
          split at moved
          · obtain ⟨v, out, same⟩ := Option.map_eq_some_iff.1 moved
            cases same
            exact ((slotStep_onWl s _ fun _ => ⟨_, rfl⟩).trans (spillOut_step out)).trans (window v _)
          · cases moved
            exact .refl s
        refine first.trans ?_
        obtain ⟨l, hl⟩ := first.listed w listed
        rw [hl] at h
        dsimp only at h
        split at h
        · exact spill u b h
        · split at h
          · cases h
            exact slotStep_enter ..
          · split at h
            · exact spill u b h
            · exact SlotStep.map (fun v out => (slotStep_onWl u _ fun _ => ⟨_, rfl⟩).trans (spillOut_step out))
                (fun v => slotStep_enter v r e) h

/-! ### The entry -/

theorem Roused.sound (h : Roused s t) : Sound s t := by
  have quires : t.quires = s.quires := (congrArg State.quires h.rest :)
  have hbm : t.hbm = s.hbm := (congrArg State.hbm h.rest :)
  refine ⟨⟨h.issue, by rw [State.csr, h.me]; rfl, h.keepsW⟩, fun n => by rw [h.core n], fun wf => hbm ▸ wf, fun q none => ?_⟩
  rw [State.quire, quires]
  exact none
/-- The worklist with other slots when an entry has been pushed. -/
def Worklist.pushedWith (w : Worklist) (l : List (Nat × Slot)) : Worklist :=
  { w with slots := l, pushed := w.pushed + 1, born := w.born + 1, status := if w.status = 1 then 0 else w.status }

/-- What an entry into a worklist leaves: the worklist's V, and its count one higher. -/
theorem wlEnter_frame (listed : s.wl? wid = some w) {r : Nat} {e : Entry} (h : s.wlEnter wid r e = some t) :
    (∃ x, t.wl? wid = some x ∧ x.pushed = w.pushed + 1 ∧ x.dclaim = w.dclaim ∧ ∀ k, x.view k = w.view k) ∧ Sound s t ∧ t.service = s.service := by
  rw [State.wlEnter, listed] at h
  obtain ⟨⟨u, inSlot⟩, pushed, same⟩ := Option.map_eq_some_iff.1 h
  have step := slotPush_step pushed
  obtain ⟨l, hl⟩ := step.listed w listed
  dsimp only at same
  rw [State.onWl_eq hl] at same
  have sound : Sound s (u.setWl wid (w.pushedWith l)) := step.sound.trans (sound_setWl ..)
  cases inSlot with
  | false =>
    cases same
    exact ⟨⟨w.pushedWith l, State.wl?_setWl_same .., rfl, rfl, fun _ => rfl⟩, sound, step.service⟩
  | true =>
    cases same
    have roused := roused_wakeFirst (u.setWl wid (w.pushedWith l)) (slotCores (w.slotOf r)) 1
    have service : ((u.setWl wid (w.pushedWith l)).wakeFirst (slotCores (w.slotOf r)) 1).service = u.service := (congrArg State.service roused.rest :)
    exact ⟨⟨w.pushedWith l, (roused.wl? wid).trans (State.wl?_setWl_same ..), rfl, rfl, fun _ => rfl⟩, sound.trans roused.sound, service.trans step.service⟩

end

end Sys2Proof.Machine
end

section
/-! SUPPORT. Settles O45: `claim` of an entry, and with it the claims on donation queues and routing counters (06, R165 to R168). -/

namespace Sys2Proof.Machine

section
variable {s u v x y z : State} {d q : Reg} {pa bd slot sb wid : Nat} {ds : Desc} {eb : List Byte} {w k : Worklist} {p : State}

/-! ### The claim of an entry -/

/-- The queue's head is written at its home, and the worklist counts the claim. -/
def State.claimed (s : State) (pa bd head wid : Nat) : State :=
  (s.partStore bd pa (toBytes 8 (head + 1))).onWl wid fun w => { w with dclaim := w.dclaim + 1 }
/-- The claim has returned 1, behind its acquire. -/
def State.claimReturned (s : State) (d : Reg) : State := (s.acquire s.cur .sys).setW d 1

theorem claim_run (ph : s.csr.ph = false) (posted : s.myCtx.posted = none) (size : ds.sizeOk = true) (base : ds.base.toNat % 16 = 0)
    (read : readDesc (s.w q) s = .ok ((.hbm pa bd, ds), u)) (filled : ds.empty = false)
    (ring : ringPlace (.hbm pa bd) (ds.slot ds.head) u = .ok ((slot, sb), v)) (names : worklist ds.target v = .ok (wid, x))
    (free : homeFree [(pa, bd, 64)] x = .ok ((), x)) (entry : readHome (ds.slot ds.head) slot sb 16 x = .ok (eb, y))
    (listed : y.wl? wid = some w) (kind : (Entry.ofBytes eb).kind < w.kinds.length)
    (entered : y.wlEnter wid y.myQuire (Entry.ofBytes eb) = some z)
    (settled : awaitLow ((z.claimed pa bd ds.head wid).posting wid (w.bucket (Entry.ofBytes eb))) = .ok ((), p)) :
    exec (.claim d q) s = .next (p.claimReturned d).advance := by
  simp only [State.claimed, State.posting] at settled
  have stands : ¬w.kinds.length ≤ (Entry.ofBytes eb).kind := Nat.not_le.2 kind
  refine M.run_ok ?_
  rw [M.bind_ok (barPhase_run ph), M.bind_ok (readW_run q s), M.bind_ok (M.get_run s)]
  simp only [posted, Option.isSome_none, Bool.false_eq_true, if_false, M.bind_run, read, needDesc_run size base, filled, ring, names, free,
    entry, M.get_run, listed, stands, entered, M.set_run, post, M.modify_run, settled, acquire, writeW_run]
  rfl

/-- The worklist of the claim after its count, and what the claim leaves of the rest. -/
theorem claimed_frame (cold : Cold z) (wf : Memory.wf z.hbm = true) (listed : z.wl? wid = some w) (pa bd head : Nat) :
    let t := z.claimed pa bd head wid
    t.wl? wid = some { w with dclaim := w.dclaim + 1 } ∧ Sound z t ∧ t.service = z.service ∧ Cold t ∧
      ∀ i, i < 8 → Memory.get t.hbm (pa + i) = (toBytes 8 (head + 1)).getD i 0 := by
  obtain ⟨only, wf', laid⟩ := uncStore_cold cold wf (z.homeBinding bd pa) pa (toBytes 8 (head + 1))
  have step : SlotStep wid z (z.partStore bd pa (toBytes 8 (head + 1))) := slotStep_partStore ..
  have cold' : Cold (z.partStore bd pa (toBytes 8 (head + 1))) := cold.of_quires only.quires
  have listed' : (z.partStore bd pa (toBytes 8 (head + 1))).wl? wid = some w := (only.wakes.wl? wid).trans listed
  have claimed : z.claimed pa bd head wid = _ := State.onWl_eq listed' _
  dsimp only
  rw [claimed]
  refine ⟨State.wl?_setWl_same .., step.sound.trans (sound_setWl ..), step.service, cold', fun i hi => ?_⟩
  exact laid.inside (by rw [toBytes_length]; exact hi)

theorem cold_acquire (cold : Cold s) (n : Nat) (sc : Scope) : Cold (s.acquire n sc) := by
  have kept (q : Nat) : Cold (s.acquireQuire q) := by
    intro r
    obtain ⟨lines, slices, forwards⟩ := cold r
    unfold State.acquireQuire
    by_cases same : r = q
    · subst same
      rw [State.quire_onQuire_same]
      exact ⟨by rw [lines]; rfl, slices, forwards⟩
    · rw [State.quire_onQuire_ne _ _ _ _ same]
      exact ⟨lines, slices, forwards⟩
  unfold State.acquire
  split
  · exact kept _
  · exact cold
theorem myCtx_acquire (s : State) (n : Nat) (sc : Scope) : (s.acquire n sc).myCtx = s.myCtx := by
  unfold State.acquire
  split <;> rfl
theorem wls_acquire (s : State) (n : Nat) (sc : Scope) : (s.acquire n sc).wls = s.wls := by
  unfold State.acquire
  split <;> rfl
/-- The claim's return leaves worklists and bytes, and of the registers all but its own. -/
theorem claimReturned_frame (stay : p.issue.stay = false) (cold : Cold p) (d : Reg) :
    let t := (p.claimReturned d).advance
    t.w d = 1 ∧ OnlyW p t d ∧ WentOn p t ∧ (∀ k, t.wl? k = p.wl? k) ∧ ∀ a b, t.byteAt (.hbm a b) = Memory.get p.hbm a := by
  obtain ⟨value, regs, went⟩ := setW_frame d 1 stay (keepsControl_acquire p p.cur .sys).issue (myCtx_acquire p p.cur .sys)
  have cold' : Cold (p.claimReturned d).advance := cold_acquire cold p.cur .sys
  refine ⟨value, regs, went, fun k => State.wl?_congr (wls_acquire p p.cur .sys) k, fun a b => ?_⟩
  rw [byteAt_cold cold']
  exact congrArg (fun m => Memory.get m a) (acquire_hbm p p.cur .sys)

/-- What a claim passes on its way to its entry's worklist. -/
theorem claim_sound (cold : Cold s) (noStore : s.me.sb = []) (read : readDesc (s.w q) s = .ok ((.hbm pa bd, ds), u))
    (ring : ringPlace (.hbm pa bd) (ds.slot ds.head) u = .ok ((slot, sb), v)) (names : worklist ds.target v = .ok (wid, x))
    (entry : readHome (ds.slot ds.head) slot sb 16 x = .ok (eb, y)) : Sound s y := by
  obtain ⟨-, walks⟩ := readDesc_ok cold noStore read
  have named := (walks.trans (ringPlace_walks _ _ _ _ _ ring)).sound.trans (worklist_sound _ _ _ _ names)
  exact named.trans (readHome_sound (named.mySb.trans noStore) entry)
theorem Sound.cold (h : Sound s z) (cold : Cold s) (bare : ∀ q, (z.quire q).lines = [] ∧ (z.quire q).slices = []) : Cold z := fun q =>
  ⟨(bare q).1, (bare q).2, h.forwards q (cold q).2.2⟩

end

/-- R165 to R167. -/
theorem donationQueues : Claims.DonationQueues := by
  intro s s1 u v d q a o pa bd slot sb ds ctx ph stay pending wf remote posted got cold size base
  have noStore := pending.1
  refine ⟨fun own check read room ring free apart => ?_, fun read empty => ?_, ?_⟩
  · have walks1 := checkAccess_walks _ _ _ _ _ _ check
    obtain ⟨-, walks2⟩ := readDesc_ok (walks1.cold cold) (walks1.sb.trans noStore) read
    have walks := (walks1.trans walks2).trans (ringPlace_walks _ _ _ _ _ ring)
    obtain ⟨wakes, entry, tail⟩ := appended_bytes (sb := sb) (bd := bd) (walks.cold cold) (walks.hbm ▸ wf.1) ds.tail
      (e := s.ownBytes o 16) (by simp [State.ownBytes]) apart
    obtain ⟨went, regs⟩ := walks.goesOn stay wakes.keepsControl
    have bytes := (coreEvent_advance (v.appended slot sb pa bd ds.tail (s.ownBytes o 16))).sameBytes
    exact ⟨_, donate_run ph pending remote got cold size base own check read room ring free, went, regs,
      fun i hi => (bytes _).trans (entry i hi), fun i hi => (bytes _).trans (tail i hi)⟩
  · obtain ⟨-, walks⟩ := readDesc_ok cold noStore read
    obtain ⟨value, regs, went⟩ := setW_frame (u := u.acquire u.cur .sys) d 0 stay
      ((keepsControl_acquire ..).issue.trans walks.issue) ((myCtx_acquire ..).trans walks.myCtx)
    exact ⟨_, claim_empty ph posted size base read empty, value, regs, went, (acquire_hbm ..).trans walks.hbm⟩
  · intro wid x y z w eb read filled ring names free entry listed e kind entered low bare
    obtain ⟨⟨k, listedZ, pushed, dclaim, view⟩, enter, service⟩ := wlEnter_frame listed entered
    have sound := (claim_sound cold noStore read ring names entry).trans enter
    obtain ⟨counted, claim, service', cold', head⟩ := claimed_frame (sound.cold cold bare) (sound.wf wf.1) listedZ pa bd ds.head
    have whole := sound.trans claim
    have settled := awaitLow_settled (s := (z.claimed pa bd ds.head wid).posting wid (w.bucket e)) (wid := wid) (b := w.bucket e)
      (congrArg Ctx.posted (State.myCtx_onMyCtx ..)) counted fun r hr => by
        obtain ⟨b, seen, le⟩ := low r (service ▸ service' ▸ hr)
        exact ⟨b, (view r).trans seen, le⟩
    have run := claim_run (d := d) ph posted size base read filled ring names free entry listed kind entered settled
    generalize z.claimed pa bd ds.head wid = c at *
    have posting : KeepsControl c (c.posting wid (w.bucket e)) := keepsControl_onMyCtx c rfl
    have settle : KeepsControl (c.posting wid (w.bucket e)) (c.posting wid (w.bucket e)).settledLow := keepsControl_onMyCtx _ rfl
    have control := (whole.control.trans posting).trans settle
    obtain ⟨value, regs, ⟨pc, goes⟩, wls, bytes⟩ := claimReturned_frame (p := (c.posting wid (w.bucket e)).settledLow)
      (by rw [control.issue]; exact stay) cold' d
    exact ⟨_, _, run, value, fun r other => (regs r other).trans (control.registers.sameW r),
      ⟨pc.trans (congrArg Issue.next control.issue), goes⟩, (wls wid).trans counted, pushed, congrArg (· + 1) dclaim,
      fun i hi => (bytes _ _).trans (head i hi)⟩

/-- Settles O45: a queue's bytes stand at their home where no cache holds a line, and the counters are a quire's own. -/
theorem queuesAndCounters : Obligations.QueuesAndCounters := ⟨donationQueues, routingCounters⟩

end Sys2Proof.Machine
end
